-- ==== Sys2Proof/Word.lean ====
section
/-!
DEFINITION. The word types of the LGT-44 model and nothing else: a byte, a 64-bit register value (R4), and the three
storage formats' bit patterns (R34). Everything that computes on them stands in Sys2Proof/Machine/Bits.lean and
Sys2Proof/Machine/Fp.lean.
-/
namespace Sys2Proof

/-- The smallest addressable unit of device memory (R3). -/
abbrev Byte := BitVec 8

/-- A register value: every register is 64 bits wide (R4). -/
abbrev Word := BitVec 64

/-- A binary32 bit pattern (R34, Table 2.1). -/
abbrev F32 := BitVec 32

/-- A BF16 or FP16 bit pattern (R34, Table 2.1). -/
abbrev F16 := BitVec 16

end Sys2Proof
end

