-- ==== Sys2Proof/Syntax.lean ====
section
/-!
DEFINITION. The commands of the block: one constructor of `Instr` per row of spec/opcode_table.json, with the operands a
row's step needs. A row that the spec describes as an event (a monitor that fires, a message that arrives, a boundary that is
reached) carries what that event brings from outside the model: the message itself, a sensor's reading, the outcome of a
physical test. Operands are numbers as the spec numbers things (R14, R18); `WellFormed` says which values exist.
-/
namespace Sys2Proof

/-- Where a command comes from (R359, Table 16.1). -/
inductive Src where
  /-- PCIe submission queue `q` of the function. -/
  | queue (q : Nat)
  /-- A Reedway peer endpoint; `port` is the module port on which the command arrived (R360). -/
  | peer (endpoint port : Nat)
  /-- The I3C sideband, source code 96. -/
  | sideband
  /-- A register write through BAR0 or the device address, source code 97. -/
  | host
  deriving DecidableEq, Repr, Inhabited

/-- One ZCP submission: the header of Table 16.2 with its inline parameters (R366). `small` is bytes 24 to 63. -/
structure Submission where
  src : Src
  func : Nat
  opcode : Nat
  version : Nat
  fence : Bool
  noReply : Bool
  stepTagged : Bool
  tag : Nat
  paramLen : Nat
  dieMask : Nat
  cluMask : Nat
  step : Nat
  small : List Byte
  params : List Byte
  deriving DecidableEq, Repr, Inhabited

/-- What the code of a line of bonded DRAM or tier 2 found at a read (R315). -/
inductive LineOutcome where
  | clean
  | corrected
  | uncorrectable
  deriving DecidableEq, Repr, Inhabited

/-- A line whose code found an error at an access, named by its address in the Unified map (R315). -/
structure EccLine where
  address : Nat
  outcome : LineOutcome
  deriving DecidableEq, Repr, Inhabited

/-- A Bellows message (R123, Table 5.3): the header, the row IDs that follow it and the element array. `winners` holds the
40-bit winner IDs of a MAX partial or of a MAX gradient. -/
structure BellowsMsg where
  kind : Nat
  op : Nat
  fmt : Nat
  raw : Bool
  nf : Bool
  table : Nat
  owner : Nat
  req : Nat
  cluster : Nat
  desc : Nat
  entry : Nat
  count : Nat
  step : Nat
  rows : List Nat
  data : List Nat
  winners : List Nat
  deriving DecidableEq, Repr, Inhabited

/-- A request for rows, and the lines that its owner read with an error to serve it (R119, R120, R315). -/
structure RowAsk where
  msg : BellowsMsg
  memory : List EccLine
  deriving DecidableEq, Repr, Inhabited

/-- A table-maintenance message (R150, Table 6.6). -/
structure TableMsg where
  kind : Nat
  lastRound : Bool
  held : Bool
  table : Nat
  oldOwner : Nat
  newOwner : Nat
  row : Nat
  shard : Nat
  slot : Nat
  version : Nat
  step : Nat
  payload : List Byte
  deriving DecidableEq, Repr, Inhabited

/-- A Chorus message (R258, Table 11.2). -/
structure ChorusMsg where
  kind : Nat
  fmt : Nat
  nf : Bool
  carry : Bool
  resend : Bool
  skip : Bool
  nack : Bool
  groupTag : Nat
  step : Nat
  rank : Nat
  subject : Nat
  shard : Nat
  elems : Nat
  pgroup : Nat
  checksum : Nat
  normS : F32
  normE : F32
  participating : Nat
  maskSum : Nat
  payload : List Byte
  deriving DecidableEq, Repr, Inhabited

/-- A peer-memory access on a granted range (R314): the lending or borrowing endpoint, the byte offset within the grant, and
the bytes. -/
structure PeerMem where
  peer : Nat
  offset : Nat
  write : Bool
  len : Nat
  data : List Byte
  deriving DecidableEq, Repr, Inhabited

/-- A row that another module routed to this module's owner die (R153). `issuer` names the peer and its command, `step`
the step in progress there. -/
structure RoutedRow where
  issuer : Nat
  tag : Nat
  table : Nat
  row : Nat
  replace : Bool
  first : Nat
  count : Nat
  step : Nat
  data : List Byte
  deriving DecidableEq, Repr, Inhabited

/-- What a fault of the array adds to a group sum (R184): the vector within the tile, the group, the output column of the layer, none
for the checksum column, and the amount. -/
structure Upset where
  vector : Nat
  group : Nat
  column : Option Nat
  amount : Int
  deriving DecidableEq, Repr, Inhabited

/-- What the codes of the SRAM levels report of a run (R315): corrected errors, and whether an uncorrectable one was met in the core's
own stores and in the Cluster Buffer. -/
structure SramReport where
  corrected : Nat
  core : Bool
  cluster : Bool
  deriving DecidableEq, Repr, Inhabited

/-- What befalls the run of a tile and what its monitors report (R171 to R175, R184, R341): the faults of the array, the vectors of the
run for which the shadow stage differed, and the stall cycles counted. -/
structure TileReport where
  upsets : List Upset
  shadow : List Nat
  loadWait : Nat
  feedDry : Nat
  drainBlk : Nat
  skewHold : Nat
  throttle : Nat
  sram : SramReport
  deriving DecidableEq, Repr, Inhabited

/-- What the checks of a sparse tile report (R205, R208, R341): a residue mismatch, and the vectors of the run for which the shadow stage
differed. -/
structure SparseReport where
  residue : Bool
  shadow : List Nat
  loadWait : Nat
  sram : SramReport
  deriving DecidableEq, Repr, Inhabited

/-- What the residue checks of the vector engines report of the work that a command ends (R230): one entry for each instruction that
failed, its core and whether its re-execution failed too. Those of the Bellows combiners name the die and the cluster (Table 15.2). -/
structure VecReport where
  fails : List (Nat × Bool)
  combiners : List (Nat × Nat × Bool)
  deriving DecidableEq, Repr, Inhabited

/-- What a descriptor's work met when it completes: the residue checks of its lanes (R230) and the lines that it read with an error (R315). -/
structure JobEnd where
  lanes : VecReport
  memory : List EccLine
  deriving DecidableEq, Repr, Inhabited

/-- A host access through BAR2: the bytes that a read asks for, and the lines that it met with an error (R308, R315). -/
structure BarRead where
  len : Nat
  memory : List EccLine
  deriving DecidableEq, Repr, Inhabited

/-- The core that added a shard last, and what the residue checks of the lanes that took part found (R230, R265). -/
structure OwnerAdd where
  core : Nat
  lanes : VecReport
  deriving DecidableEq, Repr, Inhabited

/-- U of a function is complete, what the residue checks of its lanes found (R230, R299) and the lines that it read with an error (R315). -/
structure StepEnd where
  func : Nat
  lanes : VecReport
  memory : List EccLine
  deriving DecidableEq, Repr, Inhabited

/-- A flit as a port receives it: the FEC codewords that the decoder corrected and could not correct, and its bytes (R415, Table 19.7). -/
structure FlitIn where
  corrected : Nat
  uncorrected : Nat
  bytes : List Byte
  deriving DecidableEq, Repr, Inhabited

/-- The outcome of the quick self-test at reset (R444): what failed. Columns are physical columns per global core. -/
structure SelfTest where
  dies : List Nat
  clusters : List (Nat × Nat)
  vaults : List (Nat × Nat)
  cores : List Nat
  columns : List (Nat × List Nat)
  ports : List Nat
  links : List (Nat × Nat)
  readyMs : Nat
  deriving DecidableEq, Repr, Inhabited

/-- The readings of one 10 µs window of a die (R320): temperatures per cluster and per vault, rail power, the module's input voltage,
current and power, the core-rail current, corrected null-pass energy, and the faults that Drone's null passes met per core (R333, R349). -/
structure Window where
  logic : List Nat
  dram : List Nat
  dieW : Nat
  vinMv : Nat
  inMa : Nat
  inW : Nat
  amps : Nat
  droneUj : Nat
  nulls : List (Nat × List Upset)
  deriving DecidableEq, Repr, Inhabited

/-- A current that the hardware measures between two windows (R322): the module's input, in mA, or the core rail of a die, in A. -/
inductive Current where
  | input (ma : Nat)
  | rail (die amps : Nat)
  deriving DecidableEq, Repr, Inhabited

/-- A unit a monitor watches (R342). -/
inductive EngineUnit where
  | matrix (core : Nat)
  | sparse (core : Nat)
  | vector (core : Nat)
  | loadStore (core : Nat)
  | skink (die cluster : Nat)
  | bellows (die cluster : Nat)
  | chanter (die : Nat)
  deriving DecidableEq, Repr, Inhabited

/-- The scope of a clock or regulator monitor (Table 15.2). -/
inductive Scope where
  | core (id : Nat)
  | cluster (die cluster : Nat)
  | die (d : Nat)
  deriving DecidableEq, Repr, Inhabited

/-- A firmware processor (Table 17.1). -/
inductive Proc where
  | security (die : Nat)
  | power (die : Nat)
  | scheduler (die : Nat)
  | control (die cluster : Nat)
  deriving DecidableEq, Repr, Inhabited

/-- A resource of the background self-test (Table 15.3). -/
inductive Resource where
  | array (core : Nat)
  | drains (core : Nat)
  | sparse (core : Nat)
  | vector (core : Nat)
  | coreStore (core : Nat)
  | clusterBuffer (die cluster : Nat)
  | gecko (die : Nat)
  | skink (die cluster : Nat)
  | port (n : Nat)
  | link (die l : Nat)
  | monitors (die : Nat)
  | standby
  deriving DecidableEq, Repr, Inhabited

/-- What the link partner offers during training (R424): the versions, its identifier, port and credits, and what the lanes
showed. -/
structure Partner where
  hi : Nat
  lo : Nat
  ident : Nat
  port : Nat
  credits : List Nat
  lanesRev : Nat
  reversed : Bool
  deriving DecidableEq, Repr, Inhabited

/-- Why the hot-swap controller turns off (R429). -/
inductive OffCause where
  /-- PWR_EN is low, for so many milliseconds. -/
  | pwrEnLow (ms : Nat)
  | presentBreak
  | undervoltage
  | overvoltage
  | breaker
  deriving DecidableEq, Repr, Inhabited

/-- What resets the PCIe link without resetting the module (R434), and the failure of the endpoint partition (R346). -/
inductive LinkEvent where
  | hotReset
  | linkDown
  | refclkLoss
  | partitionLoss
  deriving DecidableEq, Repr, Inhabited

/-- What a configuration request names in a function's configuration space (R432, R433, Table 20.6). -/
inductive ConfigItem where
  /-- Vendor ID and device ID. -/
  | identity
  /-- Revision ID and class code. -/
  | classCode
  | bar0
  | bar2
  /-- The size of BAR2, as a power of two of GiB (Resizable BAR). -/
  | resize
  /-- 0 for D0, 3 for D3hot. -/
  | power
  /-- The reset time of Readiness Time Reporting, in milliseconds. -/
  | readinessTime
  /-- The error status of AER. -/
  | aer
  deriving DecidableEq, Repr, Inhabited

/-- A configuration request to a function: a read, or a write of a value. -/
structure ConfigRequest where
  func : Nat
  item : ConfigItem
  write : Option Nat
  deriving DecidableEq, Repr, Inhabited

/-- The commands, one per row of the opcode table. -/
inductive Instr where
  -- ZCP commands (Table 16.6)
  | zcpHello (c : Submission)
  | modPresent (c : Submission)
  | quench (c : Submission)
  | disable (c : Submission)
  | enable (c : Submission)
  | drain (c : Submission)
  | drainRelease (c : Submission)
  | timeProbe (c : Submission)
  | tblCreate (c : Submission)
  | tblCreateDone (f table : Nat)
  | tblWriteRows (c : Submission)
  | tblReplaceRows (c : Submission)
  | tblMigrate (c : Submission)
  | tblMigrateDone (f table : Nat)
  | graphLoad (c : Submission)
  | graphLoadDone (f slot : Nat)
  | skkConfig (c : Submission)
  | planLoad (c : Submission)
  | stepRun (c : Submission)
  | ftblLoad (c : Submission)
  | collGroup (c : Submission)
  | collEvict (c : Submission)
  | updProgram (c : Submission)
  | updStepSize (c : Submission)
  | updFreeze (c : Submission)
  | pwrCap (c : Submission)
  | pwrMode (c : Submission)
  | fltQuery (c : Submission)
  | cntRead (c : Submission)
  | cntClear (c : Submission)
  | axlReplan (c : Submission)
  | secAttest (c : Submission)
  | fwStage (c : Submission)
  | fwStageDone (kind : Nat)
  | fwActivate (c : Submission)
  | fwActivateProceed
  | deferredTimeout
  | fwActivateDone
  | activationRevert
  | disableDone (f : Nat)
  | drainDone (f : Nat)
  | quenchDone (f : Nat)
  | stepTaggedRelease (f : Nat)
  -- queues, doorbells and registers
  | zcpSqtail (f q : Nat) (value : Word)
  | zcpCqhead (f q : Nat) (value : Word)
  | queueEnable (f : Nat) (value : Word)
  | queueDisable (f : Nat) (value : Word)
  | commandFetch (f q : Nat) (slot : List Byte)
  | completionWrite (f q : Nat)
  | registerWrite (f offset size : Nat) (value : Word)
  | bar2Access (f offset : Nat) (write : Bool) (read : BarRead) (data : List Byte)
  | gkoFlush (f die : Nat)
  | mxeSelftest (core : Nat)
  | chnPrepass (f : Nat)
  | memIlvcfgPending (f die : Nat) (value : Word)
  | modCompatWrite (f : Nat) (value : Word)
  | axlModeWrite (f die : Nat) (value : Word)
  | portEnable (port : Nat)
  | portDisable (port : Nat)
  | retrain (port : Nat)
  | fabPortEpWrite (f : Nat) (value : Word)
  | cntNotecfgWrite (f : Nat) (value : Word)
  | jrnSelWrite (value : Word)
  | memHostresWrite (f die : Nat) (value : Word)
  | memGrantctlWrite (f : Nat) (value : Word)
  | cntValrcRead (f : Nat)
  | vecRngstatRead (core : Nat)
  -- power, reset and start-up
  | softStart
  | pwrGood
  | hotSwapOff (cause : OffCause)
  | perstAssert
  | perstDeassert
  | romBoot
  | overlayVerify
  | diePowerUp
  | pcieLinkUp
  | memoryInit
  | zcpReady (t : SelfTest)
  | fullSelftestDone
  | pcieLinkReset (e : LinkEvent)
  | functionLevelReset (f : Nat)
  | configRequest (r : ConfigRequest)
  | fabRefclkLoss
  -- sideband
  | entdaa (address : Nat)
  | setEndpointId (eid : Nat)
  | getEndpointId
  | getMctpVersionSupport
  | getMessageTypeSupport
  | sidebandSubmission (f : Nat) (slot : List Byte)
  | sidebandWindowWrite (f offset : Nat) (data : List Byte)
  | sidebandWindowRead (f offset len : Nat)
  | sidebandRegRead (f offset : Nat)
  | sidebandRegWrite (f offset : Nat) (value : Word)
  -- JTAG and debug
  | extest (pins : List Bool)
  | idcode
  | samplePreload (pins : List Bool)
  | extestPulse (pins : List Bool)
  | extestTrain (pins : List Bool)
  | clamp
  | highz
  | challenge
  | unlock (token : List Byte)
  | dbgStatus
  | procSel (value : Nat)
  | procHalt
  | procRun
  | procStep
  | procReg (number : Nat) (write : Bool) (data : Word)
  | memAddr (address : Nat)
  | memData (write : Bool) (data : Word)
  | regAccess (offset : Nat) (write : Bool) (data : Word)
  | scanSel (value : Nat)
  | scanShift (bits : List Bool)
  | scanLen
  | bypass (bit : Bool)
  | tapReset
  -- fabric
  | flitTransmit (port : Nat)
  | flitReceive (port : Nat) (flit : FlitIn)
  | retry (port seq : Nat)
  | retryLimit (port : Nat)
  | linkTrainDone (port : Nat) (p : Partner)
  | linkTrainTimeout (port : Nat)
  | deliveryAck (f src seq : Nat)
  | e2eRetransmit (f dest seq : Nat)
  | peerMemRequest (f : Nat) (m : PeerMem)
  | peerMemResponse (f aperture : Nat) (data : List Byte)
  | peerAccessTimeout (f aperture : Nat)
  | memGrantRequest (f peer gib : Nat)
  | memGrantReply (f peer gib : Nat)
  -- Chorus
  | chorusContribution (f : Nat) (m : ChorusMsg)
  | segmentContribution (f : Nat) (m : ChorusMsg)
  | ack (f : Nat) (m : ChorusMsg)
  | sent (f : Nat) (m : ChorusMsg)
  | chorusWindowExpire (f : Nat)
  | mask (f : Nat) (m : ChorusMsg)
  | chorusOwnerAddDone (f shard : Nat) (sumFail again : Bool) (a : OwnerAdd)
  | chorusResult (f : Nat) (m : ChorusMsg)
  | rereq (f : Nat) (m : ChorusMsg)
  | evict (f : Nat) (m : ChorusMsg)
  | chorusOrphanTimeout (f rank : Nat)
  -- Bellows and Gecko
  | rowRequest (f : Nat) (q : RowAsk)
  | poolRequest (f : Nat) (q : RowAsk)
  | rowReply (f : Nat) (m : BellowsMsg)
  | partialReply (f : Nat) (m : BellowsMsg)
  | gradient (f : Nat) (m : BellowsMsg)
  | endMark (f : Nat) (m : BellowsMsg)
  | resend (f : Nat) (m : BellowsMsg)
  | geckoHalve (die : Nat)
  -- migration
  | move (f : Nat) (m : TableMsg)
  | reserve (f : Nat) (m : TableMsg)
  | reserveAck (f : Nat) (m : TableMsg)
  | copy (f : Nat) (m : TableMsg)
  | migrationRoundEnd (f table row : Nat)
  | finalCopy (f : Nat) (m : TableMsg)
  | fwdWrite (f : Nat) (m : TableMsg)
  | locUpdate (f : Nat) (m : TableMsg)
  | fwdEnd (f : Nat) (m : TableMsg)
  | fwdFetch (f : Nat) (m : TableMsg)
  | fwdReply (f : Nat) (m : TableMsg)
  | fwdGrad (f : Nat) (m : TableMsg)
  -- the step
  | phaseComplete (f : Nat) (ahead : Bool)
  | staggerStart (die cluster : Nat)
  | descriptorComplete (f : Nat) (ahead : Bool) (index : Nat) (r : JobEnd)
  | stepComplete (e : StepEnd)
  | stepSizeWaitExpire (f : Nat)
  | tileStart (core : Nat)
  | stationaryFillDone (core : Nat)
  | tileCommit (core : Nat) (r : TileReport)
  | columnSelftestDone (core : Nat) (failing : List Nat)
  | sparseTileCommit (core : Nat) (r : SparseReport)
  | skinkSliceDone (die cluster : Nat) (parity : Bool)
  -- fault containment
  | progressMonitorFire (u : EngineUnit)
  | clockMonitorFire (sc : Scope)
  | regulatorMonitorFire (die : Nat)
  | replanDone
  | watchdogFire (p : Proc)
  | processorRestartDone (p : Proc)
  | backgroundSelftest (r : Resource) (pass : Bool) (columns : List Nat)
  | patrolScrub (address : Nat) (o : LineOutcome)
  | twinRebuildDone (die : Nat)
  | axlSample (die : Nat) (slack : List Int)
  | axolotlPlan (die : Nat) (marginal : List (Nat × List Nat))
  -- power
  | sensorWindow (die : Nat) (w : Window)
  | capLoopPeriod (inputW : Nat)
  | inputCurrentLimit (met : Current)
  | overcapTimeout
  | thermalClamp (die : Nat) (logic : Bool) (vaults : List Nat)
  | clampRelease (die : Nat)
  | thermalTrip (die : Nat)
  | emergencyEnd (die : Nat)
  | droopDetect (die cluster : Nat)
  | droopEnd (die cluster cycles : Nat)
  | phLow (die : Nat)
  -- added rows
  | reedwayZcpCommand (f endpoint port : Nat) (slot : List Byte)
  | routedRowWrite (f : Nat) (m : RoutedRow)
  | linkPartnerTraining (port : Nat)
  | operandStoreFillDone (core : Nat)
  deriving DecidableEq, Repr

end Sys2Proof
end

