-- ==== Sys2Proof/Decode.lean ====
section
/-!
DEFINITION. The command a word of the opcode table spells. The table gives no row any bits (its `fields` are empty): a
command of this block is a packet, a register access or an event, never one word. So no word spells a command.
-/
namespace Sys2Proof

/-- The command that the `nbits` low bits of `w` spell by the table: none, since no row gives bits. -/
def decodeTableWord (_nbits _w : Nat) : Option Instr := none

end Sys2Proof
end

