-- ==== Sys2Proof/Machine/State.lean ====
section
/-!
DEFINITION. The state of the module as plain data: every register, queue, buffer, counter, mode and pin the spec names, the
queue of the commands that wait, and the state after reset. Per-function state stands in `Func` (Unified uses function 0;
Quad uses functions 0 to 3, R23), per-die state in `Die`, and so on down the levels of R13. A register whose value follows
from other state is not stored twice: Sys2Proof/Machine/Regs.lean computes it.
-/
namespace Sys2Proof.Machine

/-- Why the module stops. No rule of the spec makes it stop: a violation never stops execution (R381), and every fault the
spec describes is contained and reported (R339 to R346). The type has no constructor, so no command faults. -/
inductive Fault where
  deriving DecidableEq, Repr

/-- Why a command has no meaning here. -/
inductive Refusal where
  /-- Raised only by an arm of `exec` whose command has not been given its meaning. Safe: no claim follows from it. -/
  | notModelled (mnemonic : String)
  deriving DecidableEq, Repr

/-- The phases of a step, in order (R74). -/
inductive Phase where
  | s | g | f | l | b1 | b2 | r | u
  deriving DecidableEq, Repr, Inhabited

/-- An image in flash or in a staging area: its bytes (R385, R398). -/
abbrev Image := List Byte

/-- A BX block: its exponent E and its mantissas (R37, R38). -/
structure Blk where
  E : Nat
  ms : List Int
  deriving DecidableEq, Repr, Inhabited

/-! ## Configuration record, fuses, firmware, security, debug -/

/-- What manufacture fixed (R14, R16, R351, R352, SEC_SERIAL). Never written. -/
structure Fuses where
  /-- Cores fused off at ship, by global ID (R14). -/
  absentCores : List Nat
  /-- Physical columns bypassed at ship, per global core ID (R16). -/
  bypassed : List (Nat × List Nat)
  serialLo : Word
  serialHi : Word
  /-- Guard gain per 5 mV step, per die, in 0.1 ps (AXL_MODE.GV). -/
  gv : List Nat
  /-- Slack at manufacture of the 64 monitors of each die, in 0.25 ps (AXL_MON.SHIP_SLACK). -/
  shipSlack : List (List Int)
  /-- The temperature coefficient of each monitor (R351). -/
  tempCoeff : List (List Int)
  deriving DecidableEq, Repr, Inhabited

/-- The configuration record in carrier flash (R29, R304, R329, R351, R353, R356). It survives resets and power loss. -/
structure ConfigRecord where
  present : Nat
  ilvMib : List Nat
  zcpPin : Nat
  rwPin : Nat
  axlMode : List Nat
  guard : List Nat
  ceilMhz : List Nat
  exhausted : List Bool
  tripped : List Bool
  deriving DecidableEq, Repr, Inhabited

/-- The images of one processor kind (R384, R389, R390). `running` is the verified image its processors run; none is ROM. -/
structure FwKind where
  active : Option Image
  previous : Option Image
  staged : Option Image
  running : Option Image
  deriving DecidableEq, Repr, Inhabited

/-- An activation in progress (R390 to R393). `stage`: 1 deferred, 2 activating, 3 reverting. `waiting` lists the processors
that have not yet serviced their watchdog on the new image, in the order of Table 17.6; `acting` those of them whose restart of step 3 runs.
`answered` says that the command has had its final completion already (R28). -/
structure Activation where
  kind : Nat
  sub : Submission
  stage : Nat
  written : Bool
  image : Image
  waiting : List Proc
  acting : List Proc
  answered : Bool
  deriving DecidableEq, Repr, Inhabited

/-- The security role's state (R400, R402, R403, R409, SEC_STAT). `alive` says which of the two security cores is in service. -/
structure Security where
  role : Nat
  alive0 : Bool
  alive1 : Bool
  arCount : Nat
  scopes : Nat
  challenge : Option (List Byte)
  meas : List (List Byte)
  m6Events : Nat
  reverted : Bool
  /-- Register writes that wait for the security core: source, function, offset and value (Table 17.1). -/
  writes : List (Nat × Nat × Nat × Nat)
  /-- Unlock tokens that wait for the security core (Table 17.1). -/
  tokens : List (List Byte)
  deriving DecidableEq, Repr, Inhabited

/-- The JTAG port (R438 to R440). `ir` is the instruction register's code, `boundary` the boundary register, `driven` what an
EXTEST, CLAMP or HIGHZ drives (`some []` for high impedance), `dr` the value a data register last gave. -/
structure Jtag where
  ir : Nat
  boundary : List Bool
  driven : Option (List Bool)
  dr : List Bool
  procSel : Nat
  memAddr : Nat
  scanSel : Nat
  deriving DecidableEq, Repr, Inhabited

/-- The firmware processors (R387, R388, R440): which are restarting or halted, the times of recent watchdog restarts, and the
restart counts of DIE_FWSTAT. -/
structure Procs where
  restarting : List Proc
  halted : List Proc
  restarts : List (Proc × Nat)
  times : List (Proc × Nat)
  lastCluster : List Nat
  /-- Registers that PROC_REG has written since the processor was halted or stepped: processor, number, value. -/
  regs : List (Nat × Nat × Word)
  /-- Counts the runs and steps after which a halted processor's registers may hold other values. -/
  epoch : Nat
  deriving DecidableEq, Repr, Inhabited

/-! ## Sideband, PCIe, start-up -/

/-- The I3C target and its MCTP endpoint (R436). -/
structure Sideband where
  address : Option Nat
  eid : Nat
  hotJoined : Bool
  /-- In-band interrupts raised since reset. -/
  ibis : Nat
  /-- SLOT_ID0 to SLOT_ID5, as the rack straps them (Table 20.3). -/
  slotId : Nat
  deriving DecidableEq, Repr, Inhabited

/-- The configuration space of a PCIe function (R432): its BAR addresses, the size of BAR2 as a power of two of GiB, D3hot, and the error
status of AER. -/
structure ConfigSpace where
  bar0 : Nat
  bar2 : Nat
  bar2Log2 : Nat
  d3hot : Bool
  aer : Nat
  deriving DecidableEq, Repr, Inhabited

/-- The PCIe endpoint partition (R432 to R434, R346). -/
structure Pcie where
  linkUp : Bool
  failed : Bool
  spaces : List ConfigSpace
  deriving DecidableEq, Repr, Inhabited

/-- The hot-swap controller, the reset pins and the start-up sequence (R429, R442, R446, MOD_BOOTSTAT). `lockout` holds the
controller off after a breaker trip; `perstPending` says that PERST# has been asserted since t0. `done` is the number of the last
line of Table 20.10 completed, counted from 1; the ports' line, 6, follows from the ports (`State.milestone`). -/
structure Boot where
  pwrEn : Bool
  mated : Bool
  softStart : Bool
  pwrGood : Bool
  lockout : Bool
  perst : Bool
  perstPending : Bool
  done : Nat
  cold : Bool
  fullDone : Bool
  linkResets : Nat
  readyMs : Nat
  diesFailed : Nat
  fabRefclk : Bool
  deriving DecidableEq, Repr, Inhabited

/-! ## Counters, notifications, journal -/

/-- One counter: the count of bits [47:0] and SAT (R448). -/
structure Ctr where
  count : Nat
  sat : Bool
  deriving DecidableEq, Repr, Inhabited

/-- A notification record (R453, Table 21.2). -/
structure Note where
  count : Nat
  seq : Nat
  source : Nat
  kind : Nat
  inst : Nat
  arg0 : Nat
  arg1 : Nat
  deriving DecidableEq, Repr, Inhabited

/-- The notification ring's registers and the records held back (R453). -/
structure NoteRing where
  en : Bool
  vector : Nat
  irqEn : Bool
  base : Nat
  written : Nat
  held : List Note
  deriving DecidableEq, Repr, Inhabited

/-- A change-journal entry (R456, Table 21.4). -/
structure JrnEntry where
  seq : Nat
  opcode : Nat
  source : Nat
  func : Nat
  detail : Nat
  count : Nat
  deriving DecidableEq, Repr, Inhabited

/-- The change journal: the ring by position, the next sequence number, and the entry that JRN_SEL latched (R456, R457). -/
structure Journal where
  ring : List (Nat × JrnEntry)
  nextSeq : Nat
  pos : Nat
  latched : Option JrnEntry
  deriving DecidableEq, Repr, Inhabited

/-! ## ZCP -/

/-- A completion that has been produced and not yet written or sent (R368, R370). -/
structure Completion where
  src : Src
  tag : Nat
  status : Nat
  opcode : Nat
  detail : List Byte
  result : List Byte
  jrn : Nat
  deriving DecidableEq, Repr, Inhabited

/-- A completion ring and where it stands (R362). -/
structure Ring where
  base : Nat
  log2 : Nat
  head : Nat
  tail : Nat
  phase : Bool
  loc : Bool
  deriving DecidableEq, Repr, Inhabited

/-- One PCIe queue pair (R362, ZCP_SQBASE to ZCP_QSTAT). -/
structure Queue where
  en : Bool
  sqBase : Nat
  cqBase : Nat
  loc : Bool
  sqLog2 : Nat
  cqLog2 : Nat
  vector : Nat
  irqEn : Bool
  sqHead : Nat
  sqTail : Nat
  cqHead : Nat
  cqTail : Nat
  phase : Bool
  /-- The negotiated version, none before ZCP_HELLO (R372). -/
  ver : Option Nat
  /-- Where the completions of commands from before the queue was disabled go, until all have been written (R362). -/
  old : Option Ring
  deriving DecidableEq, Repr, Inhabited

/-- A write of the block onto the PCIe bus, a message it sends outside, or a signal it raises. The block's own output port:
newest last. -/
inductive Output where
  /-- A write to host memory at a PCIe bus address (R362, R370). -/
  | busWrite (addr : Nat) (data : List Byte)
  /-- An MSI-X message of a function's vector (R370, R453). -/
  | msix (f vector : Nat)
  /-- The value a read returned on its bus: a register, BAR2 or JTAG read. -/
  | readData (data : Nat) (len : Nat)
  /-- An I3C in-band interrupt with its mandatory data byte (R436). -/
  | ibi (data : Nat)
  /-- The Provisioned ID that the target gives at ENTDAA (R436). -/
  | provisionedId (id : Nat)
  /-- An MCTP response: its message bytes (R436, R437). -/
  | mctp (data : List Byte)
  /-- The answer to a PCIe configuration request: Request Retry Status (R433), or the value that the item holds. -/
  | config (f : Nat) (value : Option Nat)
  /-- A Device Readiness Status message (R433). -/
  | readiness (f : Nat)
  /-- A flit put on a port's lanes (R414). -/
  | flit (port : Nat) (data : List Byte)
  /-- The PWR_GOOD pin changed (R429). -/
  | pwrGood (level : Bool)
  deriving DecidableEq, Repr, Inhabited

/-- A command that answered ACCEPTED and works on: which row finishes it follows from its opcode (R371, R374). `arg` is the
slot or table it works on. -/
structure AsyncJob where
  sub : Submission
  arg : Nat
  /-- The work has begun (R152), with two counts for the result. -/
  started : Bool
  n1 : Nat
  n2 : Nat
  deriving DecidableEq, Repr, Inhabited

/-- Peer memory that the module has asked for (R313): for which command, or for the spill of a step's parity; the peer that has still to
answer, the peers not asked yet, and the GiB that are still missing. -/
structure MemAsk where
  sub : Option Submission
  parity : Nat
  waits : Option Nat
  rest : List Nat
  need : Nat
  deriving DecidableEq, Repr, Inhabited

/-- A DISABLE, DRAIN or QUENCH that waits for its units (R377 to R379). -/
structure StopJob where
  sub : Submission
  units : List EngineUnit
  count : Nat
  step : Nat
  steps : Nat
  deriving DecidableEq, Repr, Inhabited

/-! ## Graphs, groups, tables -/

/-- A loaded graph or position set: the 64 parameter bytes of Table 4.1 and the number of mesh partitions (R89, R95). -/
structure Graph where
  params : List Byte
  partitions : Nat
  deriving DecidableEq, Repr, Inhabited

/-- A Chorus group in its slot: the 32 parameter bytes of Table 11.1, the member list, the evicted ranks, and the exclusions
in a row of each rank (R253, R275, R276). -/
structure Group where
  params : List Byte
  members : List Nat
  evicted : List Nat
  misses : List (Nat × Nat)
  waiting : Bool
  deriving DecidableEq, Repr, Inhabited

/-- One shard as the shard map describes it (R138, Table 6.2): the address of slot 0, its slots, and where it lies
(0 bonded DRAM, 1 tier 2, 2 peer). -/
structure ShardPlace where
  base : Nat
  slots : Nat
  loc : Nat
  deriving DecidableEq, Repr, Inhabited

/-- The block of one local owner die of a table (Table 6.2). After fail-over `server` is the partner that serves it (R157). -/
structure OwnerBlock where
  die : Nat
  server : Nat
  owner : Nat
  mapAddr : Nat
  shards : List ShardPlace
  comb : Nat
  glist : Nat
  tally : Nat
  backed : Nat
  deriving DecidableEq, Repr, Inhabited

/-- A row-location entry (R146), with the effective step of the update that brought it. -/
structure Loc where
  table : Nat
  row : Nat
  owner : Nat
  shard : Nat
  slot : Nat
  version : Nat
  eff : Nat
  deriving DecidableEq, Repr, Inhabited

/-- A table of this module (R136 to R141). `flipped` lists the slots whose pointer byte selects the second copy of a long row
(R154), `poisoned` those whose row is marked by R158 (owner, shard, slot index), `migUsed` the migration slots taken (owner, shard,
slot). -/
structure Table where
  params : List Byte
  modules : List Nat
  owners : List Nat
  record : Nat
  blocks : List OwnerBlock
  flipped : List (Nat × Nat × Nat)
  poisoned : List (Nat × Nat × Nat)
  migUsed : List (Nat × Nat × Nat)
  deriving DecidableEq, Repr, Inhabited

/-- A host write to a row: an element range and its bytes (R153). `issuer` says whom its application answers. -/
structure RowWrite where
  table : Nat
  row : Nat
  replace : Bool
  first : Nat
  count : Nat
  data : List Byte
  issuer : Option Nat
  deriving DecidableEq, Repr, Inhabited

/-- A row in migration at its old owner (Table 6.4). `slot` is none until RESERVE_ACK. -/
structure Mig where
  table : Nat
  row : Nat
  oldOwner : Nat
  newOwner : Nat
  shard : Nat
  slot : Option Nat
  round : Nat
  dirty : Bool
  holding : Bool
  held : List RowWrite
  host : Bool
  step : Nat
  deriving DecidableEq, Repr, Inhabited

/-- A stub of the old owner (R148): where the row went, the old slot, when the stub ends, and the pending requests that
wait for a fetch. `forwarded` lists the steps in which it forwarded gradient listings. -/
structure Stub where
  table : Nat
  row : Nat
  oldOwner : Nat
  oldShard : Nat
  oldSlot : Nat
  newOwner : Nat
  newShard : Nat
  newSlot : Nat
  ends : Nat
  forwarded : List Nat
  deriving DecidableEq, Repr, Inhabited

/-- One XA64 accumulator (R49 to R52). `counted` records the first readout of the step. -/
structure Acc where
  sum : Int
  n : Nat
  poisoned : Bool
  counted : Bool
  deriving DecidableEq, Repr, Inhabited

/-- The combining accumulators of a row at an owner die (R129). `spilled`: it combines in bonded DRAM. -/
structure CombRow where
  die : Nat
  table : Nat
  row : Nat
  step : Nat
  addends : Nat
  spilled : Bool
  acc : List Acc
  deriving DecidableEq, Repr, Inhabited

/-- A table's combining at an owner for a step: who has sent END, which stubs have forwarded listings and owe FWD_END, the messages
already added with their requesters, those of them that no requester sends again, since a stub forwarded them or a step before carried
them, the messages that a restart has removed and that must come again, whether it is closed, and, kept by a restart, the rows whose
accumulators have been read out and those counted in BLW_COMBSPILL (R51, R129 to R132, R148). -/
structure Combine where
  table : Nat
  owner : Nat
  step : Nat
  ends : List Nat
  stubsOwed : List Nat
  added : List (Nat × BellowsMsg)
  passed : List BellowsMsg
  lost : List BellowsMsg
  closed : Bool
  read : List Nat
  spilled : List Nat
  deriving DecidableEq, Repr, Inhabited

/-- The entry of a GATHER at the requester: the block that holds it, by its place in the block list, how many requests are open, the
replies held in owner order, and whether it is written (R118, R121). -/
structure GatEntry where
  step : Nat
  desc : Nat
  entry : Nat
  block : Nat
  die : Nat
  cluster : Nat
  /-- Where the winner IDs of the entry go, 0 when none are written. -/
  winners : Nat
  want : Nat
  replies : List BellowsMsg
  done : Bool
  deriving DecidableEq, Repr, Inhabited

/-- A request that a Bellows has still to send: its block is behind, or BLW_ROUTECTL.OUTSTANDING are in flight (R133, R134). -/
structure Unsent where
  die : Nat
  cluster : Nat
  block : Nat
  msg : BellowsMsg
  deriving DecidableEq, Repr, Inhabited

/-- A row of a host command that has left for another owner: the command, the endpoint it went to, 0 for a die of this module, and the
message's bytes (R153). -/
structure OwedWrite where
  issuer : Nat
  dest : Nat
  data : List Byte
  deriving DecidableEq, Repr, Inhabited

/-- A count of row reads that a die served in a step (R142): by owner index and shard, or by row in a tally. -/
structure Reads where
  table : Nat
  die : Nat
  owner : Nat
  step : Nat
  key : Nat
  n : Nat
  deriving DecidableEq, Repr, Inhabited

/-- A slice that has been built (R97, R107). -/
structure SliceRec where
  step : Nat
  desc : Nat
  slice : Nat
  blocks : Nat
  addr : Nat
  entries : Nat
  edges : Nat
  die : Nat
  cluster : Nat
  deriving DecidableEq, Repr, Inhabited

/-- A TBL_WRITE_ROWS or TBL_REPLACE_ROWS whose rows are not all applied yet (R153). -/
structure RowJob where
  id : Nat
  sub : Submission
  left : Nat
  deriving DecidableEq, Repr, Inhabited

/-- A row a stub has fetched from the new owner (R148). -/
structure Fetched where
  table : Nat
  row : Nat
  data : List Byte
  deriving DecidableEq, Repr, Inhabited

/-! ## Plans and steps -/

/-- Chanter's state of one parameter group (R283, R295 to R297, CHN_GSTAT0 to 2). -/
structure GroupState where
  s : Int
  sOld : Int
  normsValid : Bool
  wnorm : F32
  unorm : F32
  acc0 : F32
  acc1 : F32
  lr : Option F32
  stale : Bool
  frozen : Bool
  deriving DecidableEq, Repr, Inhabited

/-- The two buffers of a leaf of a linear descriptor (R188): in the Cluster Buffer of a cluster at an offset, or at a device address. -/
structure LeafBuf where
  desc : Nat
  leaf : Nat
  cluster : Option (Nat × Nat)
  addr : Nat
  bytes : Nat
  deriving DecidableEq, Repr, Inhabited

/-- A loaded plan (R70, R71): the 48 parameter bytes of Table 3.1, the descriptors of 128 bytes, the parameter-group entries
of 128 bytes, the save areas the module allocated (R237), the engine choices per compressed tile (R200), and the state that
the plan's groups carry. -/
structure Plan where
  params : List Byte
  descs : List (List Byte)
  pgroups : List (List Byte)
  saves : List Nat
  /-- Per descriptor and compressed tile: the tile's number, whether it runs on the sparse engine, and the narrowest presented width of
  the die for which that was chosen (R200). -/
  choices : List (Nat × Nat × Bool × Nat)
  /-- The enabled cores and widths for which the engines were chosen, empty before the plan's activation. -/
  choiceMap : List (Nat × Nat)
  /-- Where the leaf buffers lie (R188, R310, R311). -/
  leafBufs : List LeafBuf
  /-- Where the gradient buffers lie (R239): the version, named by its producing descriptor plus one and, for an input, by its
  address, and the buffer's device address. -/
  gradBufs : List (Nat × Nat × Nat)
  mirrored : Bool
  /-- The mirror of each run of training state: its address, its length, the mirror's address (R247, R250). -/
  mirrors : List (Nat × Nat × Nat)
  groups : List GroupState
  /-- The last accepted step number, none before the first STEP_RUN (R81). -/
  lastStep : Option Nat
  firstStep : Option Nat
  /-- The last step whose B1 has begun (R284), and the last whose U has begun (R282). -/
  b1Begun : Option Nat
  uBegun : Option Nat
  lowStep : Option Nat
  sizes : List (Nat × Nat × F32)
  freezes : List (Nat × Nat × Bool)
  /-- Tier A error memory and Tier B remainder memory by shard × 32,768 + element (R272, R273). -/
  errMem : List (Nat × F32)
  remMem : List (Nat × F32)
  deriving DecidableEq, Repr, Inhabited

/-- A tile descriptor (R191, Table 7.11). The strides, masks and storage formats come from the layer descriptor. Beside the table's
fields stand the function, `wg`, which numbers the weight-gradient products of a descriptor, `sparse`, which names the queue it is
issued to, and `counted`: its fill has been counted. -/
structure Tile where
  func : Nat
  layer : Nat
  pass : Nat
  load : Bool
  pack : Bool
  transpose : Bool
  zeroMasked : Bool
  stoch : Bool
  actFmt : Nat
  wgtFmt : Nat
  outFmt : Nat
  pair : Bool
  wg : Nat
  leaf : Nat
  t : Nat
  tCount : Nat
  vecFirst : Nat
  vecCount : Nat
  colFirst : Nat
  colCount : Nat
  wgtAddr : Nat
  actAddr : Nat
  outAddr : Nat
  leafAlt : Nat
  rowValid : Nat
  step : Nat
  seq : Nat
  sparse : Bool
  counted : Bool
  deriving DecidableEq, Repr, Inhabited

/-- A leaf's pairs for a vector and a column (R188), and how many tiles have entered it: `s` and `e` are what the active buffer holds,
`s1` and `e1` what the inactive one holds, `alt` says that the active one is the second (LEAF_ALT). `wg` separates the products of a
backward descriptor. The leaf `closedLeaf` holds the outcome of the whole reduction of a backward product. -/
structure LeafCell where
  layer : Nat
  pass : Nat
  wg : Nat
  leaf : Nat
  vec : Nat
  col : Nat
  s : F32
  e : F32
  s1 : F32
  e1 : F32
  alt : Bool
  n : Nat
  deriving DecidableEq, Repr, Inhabited

/-- The gradient buffers or tangents of the tensor versions that one descriptor wrote (R239, R244): the descriptor plus one, or 0 for
the inputs, and the FP32 values by the device address of the element. -/
structure GradBuf where
  prod : Nat
  data : List (Nat × F32)
  deriving DecidableEq, Repr, Inhabited

/-- The state of a descriptor in the phase being run (R75): 0 waiting, 1 running, 2 complete. `second` marks the second sweep
of B2 (R243); `cores` lists the cores whose vector engines hold a share of it (R229). -/
structure Job where
  index : Nat
  st : Nat
  second : Bool
  cores : List Nat
  deriving DecidableEq, Repr, Inhabited

/-- A step of the active plan (R74 to R88). -/
structure Step where
  sub : Submission
  plan : Nat
  n : Nat
  phase : Phase
  jobs : List Job
  flags : Nat
  loss : List (Nat × F32)
  durations : List Nat
  phaseStart : Nat
  jrn : Nat
  frozen : List Nat
  /-- The next TILE_SEQ of each die. -/
  tileSeq : List Nat
  /-- The cores enabled at the step boundary, with their presented widths, in ascending order: what placement uses (R19, R82). -/
  map : List (Nat × Nat)
  backlog : List (Nat × Tile)
  leaves : List LeafCell
  grads : List GradBuf
  tangents : List GradBuf
  gradTangents : List GradBuf
  /-- Weight-gradient pairs by weight address (R241). -/
  wgrads : List (Nat × F32 × F32)
  /-- U has been carried out, or has nothing to do. -/
  uDone : Bool
  waitExpired : Bool
  quenched : Bool
  /-- Skink spill found no room: the step is quenched at the end of S (R312). -/
  memFull : Bool
  /-- The step re-executes after an uncorrectable line (R316). -/
  reexec : Bool
  /-- The descriptors that have drawn from the lane generators (R227). -/
  drew : List Nat
  /-- CHN_STEPWAIT as it stood when U began (R283). -/
  waitUs : Nat
  /-- The phase has not begun: the working memory that it uses in apertures is still being read (R314). -/
  away : Bool
  deriving DecidableEq, Repr, Inhabited

/-! ## Chorus and Chanter -/

/-- A contribution held at an owner or a segment owner (R259, R271). -/
structure Contribution where
  seg : Bool
  msg : ChorusMsg
  deriving DecidableEq, Repr, Inhabited

/-- A SENT mark held by the coordinator or the deputy (R267). -/
structure Mark where
  rank : Nat
  nf : Bool
  cfgSum : Nat
  deriving DecidableEq, Repr, Inhabited

/-- Chorus's state of one step of a group at this module (R259 to R277). `own` is this rank's contributions, kept until every
result is in; `acked` the shards acknowledged; `decided` the mask the coordinator sent and keeps until its relay returns; `mask`
the one this member adopted; `held` the contributions of all ranks held as owner or segment owner; `segSent` the segment
contributions and `broadcast` the results that this rank sent. -/
structure ChorusStep where
  slot : Nat
  step : Nat
  own : List ChorusMsg
  formed : Bool
  acked : List Nat
  sentOwn : Bool
  stopped : Bool
  marks : List Mark
  window : Bool
  decided : Option ChorusMsg
  mask : Option ChorusMsg
  held : List Contribution
  segSent : List ChorusMsg
  broadcast : List ChorusMsg
  results : List ChorusMsg
  deriving DecidableEq, Repr, Inhabited

/-- A carried contribution of a late rank (R269): the group's slot, the plan, the step that it was late for, and the widened values of a
shard. -/
structure Carried where
  slot : Nat
  plan : Nat
  step : Nat
  shard : Nat
  values : List F32
  deriving DecidableEq, Repr, Inhabited

/-- Chorus per function: the registers of CHO_WINDOW and CHO_CTL, the open steps and what is carried. -/
structure Chorus where
  windowUs : Nat
  orphanMs : Nat
  missNotify : Nat
  steps : List ChorusStep
  carried : List Carried
  deriving DecidableEq, Repr, Inhabited

/-- Chanter per function: CHN_STEPWAIT, CHN_GSEL, the state of CHN_STAT, and whether a DISABLE stops it per die (R299). -/
structure Chanter where
  waitUs : Nat
  selGroup : Nat
  selPlan : Nat
  state : Nat
  group : Nat
  step : Nat
  disabled : List Nat
  deriving DecidableEq, Repr, Inhabited

/-! ## Memory allocation, peer memory -/

/-- Who owns a module allocation (R310). -/
inductive AllocOwner where
  | twin
  | plan (slot : Nat)
  | mirror (slot : Nat)
  | table (id : Nat)
  | step (die cluster : Nat)
  | spill (die parity : Nat)
  deriving DecidableEq, Repr, Inhabited

/-- An area of R309: the interleaved region, a local window, or the tier-2 share of a die, or an aperture. -/
inductive Area where
  | ilv (die : Nat)
  | window (die cluster : Nat)
  | tier2 (die : Nat)
  | aperture (a : Nat)
  deriving DecidableEq, Repr, Inhabited

/-- A module allocation: a run of bytes at a physical address (R309 to R312). -/
structure Alloc where
  owner : AllocOwner
  area : Area
  base : Nat
  len : Nat
  deriving DecidableEq, Repr, Inhabited

/-- An access to an aperture that the lender has not answered (R314): what it asks, the bytes a write replaced, whether it has left,
and the row that a read fetches. -/
structure PeerAccess where
  mem : PeerMem
  old : List Byte
  sent : Bool
  table : Nat
  row : Nat
  deriving DecidableEq, Repr, Inhabited

/-- An aperture: the granted size in GiB, the lending endpoint and the offset of the first byte within what it has granted (R313), and the
unanswered accesses, oldest first. -/
structure Aperture where
  size : Nat
  peer : Nat
  base : Nat
  pending : List PeerAccess
  deriving DecidableEq, Repr, Inhabited

/-- A grant lent to a peer: who, how many GiB, and from which address (R313). -/
structure Grant where
  peer : Nat
  gib : Nat
  base : Nat
  deriving DecidableEq, Repr, Inhabited

/-! ## Messages -/

/-- A message of one of the protocols of Table 19.3. -/
inductive WireMsg where
  | zcp (data : List Byte)
  | chorus (m : ChorusMsg)
  | bellows (m : BellowsMsg)
  | tableMaint (m : TableMsg)
  | peerReq (m : PeerMem)
  | peerResp (m : PeerMem)
  | grantReq (gib : Nat)
  | grantReply (gib base : Nat)
  | routed (m : RoutedRow)
  | delivered (seq : Nat)
  deriving DecidableEq, Repr, Inhabited

/-- A message from die `src` to die `die` of this module, in flight on the die-to-die links (R26, R123, R149). -/
structure Local where
  func : Nat
  src : Nat
  die : Nat
  msg : WireMsg
  deriving DecidableEq, Repr, Inhabited

/-- A message sent to a peer endpoint (R417 to R421): its virtual channel, its sequence number, and the protocol message.
`die` and `ddie` are SDIE and DDIE; `port` is where it went last, none while no port is in service. -/
structure Sent where
  func : Nat
  dest : Nat
  die : Nat
  ddie : Nat
  vc : Nat
  seq : Nat
  port : Option Nat
  msg : WireMsg
  deriving DecidableEq, Repr, Inhabited

/-- A whole message received from a peer: its header fields and its bytes (R417, Table 19.3). -/
structure Received where
  src : Nat
  dest : Nat
  proto : Nat
  die : Nat
  vc : Nat
  seq : Nat
  port : Nat
  data : List Byte
  deriving DecidableEq, Repr, Inhabited

/-- The fabric endpoint of a function: FABRIC_ID, the next MSG_SEQ per (destination, VC), the messages whose acknowledgement
or resend may still come, the MSG_SEQ delivered per (source, VC), early messages of virtual channel 0, and what has been
delivered and not yet taken up (R417 to R421). -/
structure Endpoint where
  fabricId : Nat
  nextSeq : List (Nat × Nat × Nat)
  unacked : List Sent
  delivered : List (Nat × Nat × Nat)
  early : List Received
  inbox : List Received
  deriving DecidableEq, Repr, Inhabited

/-! ## Function, die, cluster, core, port -/

/-- What each function holds of its own (R23, R69, R89, R224, R253, R285, R381). -/
structure Func where
  queues : List Queue
  qsel : Nat
  peers : List (Nat × Nat)
  sideVer : Option Nat
  fetched : List Submission
  held : List Submission
  /-- Step-tagged commands whose hold has ended (R369). -/
  released : List Submission
  /-- The queue of the normal engine's last fetch (R363). -/
  lastQ : Nat
  jobs : List AsyncJob
  asks : List MemAsk
  stops : List StopJob
  /-- A PWR_MODE whose clock has not reached its value yet, with its journal number (R327). -/
  modeJob : Option (Submission × Nat)
  done : List Completion
  rowJobs : List RowJob
  nextRowJob : Nat
  owed : List OwedWrite
  plans : List (Option Plan)
  graphs : List (Option Graph)
  groups : List (Option Group)
  tables : List (Nat × Table)
  progs : List (Nat × List Byte)
  ftables : List (Nat × List Byte)
  /-- The public keys of the user function tables (R224). -/
  ftkeys : List (Nat × List Byte)
  accepted : List (Nat × Submission)
  cur : Option Step
  ahead : Option Step
  slices : List SliceRec
  gather : List GatEntry
  unsent : List Unsent
  /-- The GATHERs that wait for a location update: descriptor, die, and the die's counter when it began to wait (R151). -/
  gatherWait : List (Nat × Nat × Nat)
  keptGrads : List (Nat × BellowsMsg)
  lateGrads : List BellowsMsg
  combRows : List CombRow
  combines : List Combine
  locs : List Loc
  locPending : List (Nat × Loc)
  migs : List Mig
  /-- Rows that a TBL_MIGRATE has chosen and whose MOVE has not been taken up (R152): table and row. -/
  hostMoves : List (Nat × Nat)
  stubs : List Stub
  heldWrites : List RowWrite
  loads : List (Nat × Nat × Nat × Nat)
  tally : List Reads
  reads : List Reads
  fwdRows : List Fetched
  /-- Requests that wait for rows a stub fetches (R148). -/
  waitReqs : List BellowsMsg
  chorus : Chorus
  chanter : Chanter
  ctrs : List (Nat × Ctr)
  cntSel : Nat
  note : NoteRing
  bar2Gib : Nat
  grantGib : Nat
  grants : List Grant
  apSel : Nat
  apertures : List (Nat × Aperture)
  borrowed : List (Nat × Nat)
  allocs : List Alloc
  ep : Endpoint
  deriving DecidableEq, Repr, Inhabited

/-- A Gecko directory entry (R124, Table 5.4), keyed by set × 8 + way. -/
structure GkEntry where
  combining : Bool
  table : Nat
  row : Nat
  freq : Nat
  slot : Nat
  nslot : Nat
  addends : Nat
  deriving DecidableEq, Repr, Inhabited

/-- Gecko and the migration registers of a die (R124 to R127, GKO_CTL, GKO_STAT, GKO_MIGMAX, GKO_MIGSTAT). -/
structure Gecko where
  cacheEn : Bool
  entries : List (Nat × GkEntry)
  accesses : Nat
  halvings : Nat
  migMax : Nat
  migRatio : Nat
  lastMoved : Nat
  deriving DecidableEq, Repr, Inhabited

/-- A die's power state (R320 to R331, PWR registers). `level` is the module level L last received, `applied` the level applied
with the thermal offset. `overcap` counts the loop periods above the cap in a row, `lowPeriods` and `okPeriods` those with the
matrix duty below and at or above 0.9, `boostPeriods` and `refWindows` what is short of a millisecond in PWR_BOOSTMS and
MEM_REFHI, `dieSum`, `inSum` and `dieWins` the windows of the loop period that runs. `limIn` and `limRail` say which current limits act
(R322). `rampLevel` is the level that stood when Drone's ramp began: duties keep to it while the ramp runs (R335). -/
structure Power where
  capW : Nat
  level : Nat
  applied : Nat
  under : Nat
  overcap : Nat
  thermOfs : Nat
  coolCount : Nat
  pitchHold : Bool
  boostEn : Bool
  phLow : Bool
  emerg : Bool
  clampLogic : Bool
  clampVaults : List Nat
  hwLevel : Bool
  freq : Nat
  phMhz : Nat
  inputW : Nat
  dieW : Nat
  vinMv : Nat
  logic : List Nat
  dram : List Nat
  logicTgt : Nat
  dramTgt : Nat
  limIn : Bool
  limRail : Bool
  lowPeriods : Nat
  okPeriods : Nat
  boostPeriods : Nat
  /-- Work of the protected collective domain has run in the loop period at level 20 or above (R336). -/
  protRan : Bool
  refWindows : Nat
  dieSum : Nat
  inSum : Nat
  dieWins : Nat
  rampLevel : Option Nat
  deriving DecidableEq, Repr, Inhabited

/-- Drone on a die (R333 to R335, DRN_CTL, DRN_STAT). `unstarted` lists the clusters whose start slot is still to come. The
settings in force are those of the last barrier. -/
structure Drone where
  en : Bool
  slew : Nat
  floor : Nat
  enNow : Bool
  slewNow : Nat
  floorNow : Nat
  state : Nat
  amps : Nat
  unstarted : List Nat
  deriving DecidableEq, Repr, Inhabited

/-- A fault record (R350, Table 15.4). -/
structure FaultRec where
  cycle : Nat
  seq : Nat
  mech : Nat
  scope : Nat
  inst : Nat
  response : Nat
  step : Nat
  deriving DecidableEq, Repr, Inhabited

/-- Axolotl on a die (R351 to R355, AXL registers). Guard steps and the ceiling in force stand in the configuration record. -/
structure Axolotl where
  slackTgt : Nat
  planGuard : Nat
  planCeil : Nat
  planDiff : Bool
  planned : Nat
  monSel : Nat
  slack : List Int
  minSlack : List Int
  /-- A set has been sampled since the last plan. -/
  sampled : Bool
  marginal : List (Nat × Nat)
  /-- The cores whose margin test of the last plan is still to come in a background slot (R355). -/
  marginDue : List Nat
  deriving DecidableEq, Repr, Inhabited

/-- A die (R13, DIE_CAP, SAF and MEM die registers). `enabled`: it passed the quick self-test; `lost`: fail-over has removed it.
`progress` keeps the work item for which a unit's progress monitor fired last (R342); `ueTimes` the uncorrectable errors by kind
(0 vault, 1 Core Store, 2 Cluster Buffer), instance and time. -/
structure Die where
  powered : Bool
  enabled : Bool
  portsOk : List Nat
  linksOk : List Nat
  gecko : Gecko
  power : Power
  drone : Drone
  faults : List (Nat × FaultRec)
  fltSeq : Nat
  safState : Nat
  lost : Bool
  progress : List (EngineUnit × Nat)
  ueTimes : List (Nat × Nat × Nat)
  bistTimes : List (Resource × Nat)
  bistRuns : Nat
  axl : Axolotl
  ilvMib : Nat
  hostLocalMib : Nat
  hostIlvGib : Nat
  hostT2Gib : Nat
  refRate : List Nat
  retire : List Nat
  degraded : Bool
  clk : Nat
  noteSeq : Nat
  deriving DecidableEq, Repr, Inhabited

/-- Skink of a cluster (R97, R108 to R113, SKK registers). `used` and `last` are bytes per parity of the step number. -/
structure Skink where
  disabled : Bool
  disabling : Bool
  enabling : Bool
  failed : Bool
  dealt : List (Nat × Nat × Nat)
  /-- The slice that was in work when the cluster's control core stopped (Table 17.4). -/
  inWork : Option (Nat × Nat × Nat)
  retried : Bool
  plan : Nat
  mode : Nat
  spilling : Bool
  slicesDone : Nat
  base0 : Nat
  base1 : Nat
  mib : Nat
  short : Bool
  used0 : Nat
  used1 : Nat
  /-- Bytes each buffer holds: less than MIB when SHORT. -/
  cap : Nat
  deriving DecidableEq, Repr, Inhabited

/-- Bellows of a cluster (R119, R133, R134, BLW registers). -/
structure Bellows where
  disabled : Bool
  disabling : Bool
  enabling : Bool
  outstanding : Nat
  state : Nat
  serving : Bool
  desc : Nat
  inflight : Nat
  deriving DecidableEq, Repr, Inhabited

/-- A cluster (R22, CLU_CAP, R332). `leaves` is what the leaf buffers of the plans take in its 16 MiB Cluster Buffer, beside Gecko's
data slots: function, plan slot and bytes (R13, R188, R311). `droop` stretches its clock; `limited` is the current limit's stretching
(R322). -/
structure Cluster where
  enabled : Bool
  vaultOk : Bool
  leaves : List (Nat × Nat × Nat)
  skink : Skink
  bellows : Bellows
  droop : Bool
  limited : Bool
  deriving DecidableEq, Repr, Inhabited

/-- The last checksum mismatch (MXE_LASTCHK). -/
structure LastChk where
  group : Nat
  valid : Bool
  vector : Nat
  bypCol : Nat
  outcome : Nat
  layer : Nat
  seq : Nat
  deriving DecidableEq, Repr, Inhabited

/-- Weights as a loader has converted them (R161, R168): the four blocks of each output column, mantissas and exponents, and the
checksum weights C(k) of the 128 array rows (R183). -/
structure Weights where
  cols : List (Nat × List Blk)
  check : List Nat
  deriving DecidableEq, Repr, Inhabited

/-- A matrix engine (R160 to R193). `state` is MXE_STAT.STATE; `runs` counts the failed runs of the current tile; `cells` is what the
cells, the exponent registers and the checksum column hold; `halves` are the two halves of the stationary-load buffer, `half` the one
that is filled next, `filled` that its fill is complete; `dirtyWeights` that a test left its weights in the array (R348). -/
structure Matrix where
  state : Nat
  queue : List Tile
  cur : Option Tile
  drainHold : Bool
  draining : Bool
  loadWait : Bool
  cells : Weights
  halves : List Weights
  half : Nat
  filled : Bool
  disabling : Bool
  /-- Enabled, and in placement from the next step boundary (R377). -/
  enabling : Bool
  runs : Nat
  selftest : Bool
  dirtyWeights : Bool
  lastChk : LastChk
  lastTile : Option Tile
  deriving DecidableEq, Repr, Inhabited

/-- A sparse engine (R194 to R209). `halves` are the two halves of the operand store, `half` the one that is filled next. -/
structure Sparse where
  state : Nat
  queue : List Tile
  cur : Option Tile
  drainHold : Bool
  draining : Bool
  loadWait : Bool
  halves : List Weights
  half : Nat
  filled : Bool
  disabling : Bool
  /-- Enabled, and in placement from the next step boundary (R377). -/
  enabling : Bool
  runs : Nat
  heavy : Nat
  lastTile : Option Tile
  deriving DecidableEq, Repr, Inhabited

/-- A vector engine (R210 to R231). -/
structure Vector where
  state : Nat
  disabling : Bool
  enabling : Bool
  opkind : Nat
  layer : Nat
  vec : Nat
  ftSlot : Nat
  ftHeld : Bool
  ftPresent : Nat
  ftLoads : Nat
  used : Bool
  deriving DecidableEq, Repr, Inhabited

/-- A core (R14, R20, COR_CAP). `state`: 0 absent, 1 enabled, 2 retired. `bypassed` lists the bypassed physical columns in
ascending order. `carved` is the part of the 2 MiB Core Store that the sparse engine's accumulator banks and operand stores take, in
KiB (R13, R194). -/
structure Core where
  state : Nat
  bypassed : List Nat
  carved : Nat
  mxe : Matrix
  spe : Sparse
  vec : Vector
  deriving DecidableEq, Repr, Inhabited

/-- A message in transmission: what is left of its bytes and whether its FIRST flit has gone (R417). -/
structure TxMsg where
  bytes : List Byte
  started : Bool
  sent : Sent
  deriving DecidableEq, Repr, Inhabited

/-- A Reedway port (R413 to R424, FAB registers). -/
structure Port where
  en : Bool
  state : Nat
  ver : Nat
  lanesRev : Nat
  reversed : Bool
  partner : Nat
  txSeq : Nat
  rxSeq : Nat
  ackOwed : Option Nat
  replay : List (Nat × List Byte)
  /-- Flits still to be sent again after a RETRY or a retrain (R415, R416). -/
  resend : List (Nat × List Byte)
  retryOwed : Bool
  retrying : Bool
  creditOwed : List Nat
  credits : List Nat
  queues : List (List TxMsg)
  rr : Nat
  /-- The last 64 flit slots, newest first: whether virtual channel 0 took them (R420). -/
  slots : List Bool
  rx : List (List Byte)
  retrySeq : Nat
  retryCount : Nat
  retrains : List Nat
  trainStart : Nat
  verFailAt : Option Nat
  /-- The training that runs has found no version that both ends have (R424). -/
  noVer : Bool
  /-- The data flit that is next has been delayed by virtual channel 0, and counted (Table 19.7). -/
  delayed : Bool
  /-- Messages whose last flit has gone, with the SEQ of that flit, until an ACK covers it (R419). -/
  wire : List (Sent × Nat)
  deriving DecidableEq, Repr, Inhabited

/-! ## The whole module -/

/-- The machine. -/
structure State where
  /-- The commands that wait, first in first out: the block's command queue. -/
  pending : List Instr
  /-- Device memory by physical address (R305): the bytes that differ from zero, in ascending address (R443). -/
  mem : List Host.Cell
  funcs : List Func
  dies : List Die
  clusters : List Cluster
  cores : List Core
  ports : List Port
  /-- Messages in flight on the die-to-die links. -/
  links : List Local
  /-- Recent retrains of the die-to-die links: link and time (R416). -/
  linkTrains : List (Nat × Nat)
  /-- Per die-to-die link end, numbered from 24: the SEQ retried last and how many times in a row (R416). -/
  linkRetries : List (Nat × Nat × Nat)
  /-- Uncorrectable 64-byte lines by address (R316). -/
  badLines : List Nat
  fuses : Fuses
  cfg : ConfigRecord
  /-- The presentation in force, the version pins in force (R29, R356). -/
  quad : Bool
  zcpPin : Nat
  rwPin : Nat
  fwSel : Nat
  fw : List FwKind
  act : Option Activation
  deferTime : Nat
  procs : Procs
  sec : Security
  jtag : Jtag
  side : Sideband
  pcie : Pcie
  boot : Boot
  ready : Bool
  twinEn : Bool
  twinGib : Nat
  /-- The Twin reserve in force per die, in GiB (R310). -/
  twinNow : Nat
  journal : Journal
  /-- The module's time source and its record sequence (R447, R453). -/
  clk : Nat
  noteSeq : Nat
  probe : Nat
  /-- The model's own counter of free values used. -/
  fresh : Nat
  /-- What the block has put on its outside interfaces, oldest first. -/
  out : List Output
  deriving DecidableEq, Repr

/-! ## Reset -/

/-- The configuration record as modules ship: Unified (R29), 4,096 MiB per die (R304), a boost ceiling of 1,500 MHz
(PWR_MODESTAT.CEIL_MHZ). The spec gives the other fields no shipped value: log 1. -/
def ConfigRecord.shipped : ConfigRecord where
  present := 0
  ilvMib := List.replicate 4 4096
  zcpPin := 0
  rwPin := 0
  axlMode := List.replicate 4 0
  guard := List.replicate 4 0
  ceilMhz := List.replicate 4 1500
  exhausted := List.replicate 4 false
  tripped := List.replicate 4 false

/-- Fuses of a module with nothing fused off (log 1). -/
def Fuses.full : Fuses where
  absentCores := []
  bypassed := []
  serialLo := 0
  serialHi := 0
  gv := List.replicate 4 0
  shipSlack := List.replicate 4 (List.replicate 64 0)
  tempCoeff := List.replicate 4 (List.replicate 64 0)

def FwKind.rom : FwKind := ⟨none, none, none, none⟩

/-- A queue at reset (Tables of ZCP_SQBASE to ZCP_QSTAT). -/
def Queue.reset : Queue where
  en := false
  sqBase := 0
  cqBase := 0
  loc := false
  sqLog2 := 4
  cqLog2 := 4
  vector := 0
  irqEn := false
  sqHead := 0
  sqTail := 0
  cqHead := 0
  cqTail := 0
  phase := true
  ver := none
  old := none

def NoteRing.reset : NoteRing := ⟨false, 0, false, 0, 0, []⟩

/-- Chorus registers at reset (CHO_WINDOW, CHO_CTL). -/
def Chorus.reset : Chorus := ⟨200, 50, 8, [], []⟩

/-- Chanter registers at reset (CHN_STEPWAIT). -/
def Chanter.reset : Chanter := ⟨5000, 0, 0, 0, 0, 0, []⟩

def Endpoint.reset : Endpoint := ⟨0, [], [], [], [], []⟩

/-- A function at reset, with `n` queues (Table 1.4). -/
def Func.reset (n : Nat) : Func where
  queues := List.replicate n Queue.reset
  qsel := 0
  peers := []
  sideVer := none
  fetched := []
  held := []
  released := []
  lastQ := 0
  jobs := []
  asks := []
  stops := []
  modeJob := none
  done := []
  rowJobs := []
  nextRowJob := 0
  owed := []
  plans := List.replicate 16 none
  graphs := List.replicate 16 none
  groups := List.replicate 8 none
  tables := []
  progs := []
  ftables := []
  ftkeys := []
  accepted := []
  cur := none
  ahead := none
  slices := []
  gather := []
  unsent := []
  gatherWait := []
  keptGrads := []
  lateGrads := []
  combRows := []
  combines := []
  locs := []
  locPending := []
  migs := []
  hostMoves := []
  stubs := []
  heldWrites := []
  loads := []
  tally := []
  reads := []
  fwdRows := []
  waitReqs := []
  chorus := Chorus.reset
  chanter := Chanter.reset
  ctrs := []
  cntSel := 0
  note := NoteRing.reset
  bar2Gib := 0
  grantGib := 0
  grants := []
  apSel := 0
  apertures := []
  borrowed := []
  allocs := []
  ep := Endpoint.reset

/-- Gecko at reset (GKO_CTL, GKO_MIGMAX). -/
def Gecko.reset : Gecko := ⟨true, [], 0, 0, 4096, 5, 0⟩

/-- Power at reset (PWR_CAPSET, PWR_MODESTAT, PWR_TEMP). -/
def Power.reset (cap : Nat) : Power where
  capW := cap
  level := 0
  applied := 0
  under := 0
  overcap := 0
  thermOfs := 0
  coolCount := 0
  pitchHold := false
  boostEn := true
  phLow := false
  emerg := false
  clampLogic := false
  clampVaults := []
  hwLevel := false
  freq := 1250
  phMhz := 1250
  inputW := 0
  dieW := 0
  vinMv := 0
  logic := List.replicate 20 0
  dram := List.replicate 20 0
  logicTgt := 100
  dramTgt := 90
  limIn := false
  limRail := false
  lowPeriods := 0
  okPeriods := 0
  boostPeriods := 0
  protRan := false
  refWindows := 0
  dieSum := 0
  inSum := 0
  rampLevel := none
  dieWins := 0

/-- Drone at reset (DRN_CTL, DRN_STAT). -/
def Drone.reset : Drone := ⟨true, 20, 120, true, 20, 120, 0, 0, []⟩

def Axolotl.reset : Axolotl where
  slackTgt := 20
  planGuard := 0
  planCeil := 0
  planDiff := false
  planned := 0
  monSel := 0
  slack := List.replicate 64 0
  minSlack := List.replicate 64 0
  sampled := false
  marginal := []
  marginDue := []

/-- A die at reset (MEM_HOSTRES, SAF and AXL registers), with its interleaved share and cap. -/
def Die.reset (ilv cap : Nat) : Die where
  powered := false
  enabled := true
  portsOk := List.range 6
  linksOk := List.range 3
  gecko := Gecko.reset
  power := Power.reset cap
  drone := Drone.reset
  faults := []
  fltSeq := 0
  safState := 0
  lost := false
  progress := []
  ueTimes := []
  bistTimes := []
  bistRuns := 0
  axl := Axolotl.reset
  ilvMib := ilv
  hostLocalMib := 0
  hostIlvGib := 32
  hostT2Gib := 128
  refRate := List.replicate 20 0
  retire := []
  degraded := false
  clk := 0
  noteSeq := 0

/-- Skink at reset (SKK registers; R110: 64 MiB per buffer). -/
def Skink.reset : Skink := ⟨false, false, false, false, [], none, false, 0, 0, false, 0, 0, 0, 64, false, 0, 0, 0⟩

/-- Bellows at reset (BLW_ROUTECTL). -/
def Bellows.reset : Bellows := ⟨false, false, false, 2048, 0, false, 0, 0⟩

def Cluster.reset : Cluster := ⟨true, true, [], Skink.reset, Bellows.reset, false, false⟩

/-- MXE_LASTCHK at reset. -/
def LastChk.reset : LastChk := ⟨0, false, 0, 0x1FF, 0, 0, 0⟩

def Weights.none : Weights := ⟨[], []⟩

def Matrix.reset : Matrix where
  state := 0
  queue := []
  cur := none
  drainHold := false
  draining := false
  loadWait := false
  cells := Weights.none
  halves := List.replicate 2 Weights.none
  half := 0
  filled := false
  disabling := false
  enabling := false
  runs := 0
  selftest := false
  dirtyWeights := false
  lastChk := LastChk.reset
  lastTile := none

/-- A sparse engine at reset (SPE_CTL.HEAVY). -/
def Sparse.reset : Sparse where
  state := 0
  queue := []
  cur := none
  drainHold := false
  draining := false
  loadWait := false
  halves := List.replicate 2 Weights.none
  half := 0
  filled := false
  disabling := false
  enabling := false
  runs := 0
  heavy := 4096
  lastTile := none


def Vector.reset : Vector := ⟨0, false, false, 0, 0, 0, 0, false, 0, 0, false⟩

/-- A core at reset, from its fuses (R14, R16). -/
def Core.reset (absent : Bool) (bypassed : List Nat) : Core :=
  ⟨if absent then 0 else 1, bypassed, 0, Matrix.reset, Sparse.reset, Vector.reset⟩

/-- A port at reset (FAB_PORTn_CTL.EN 1, STATE 0). -/
def Port.reset : Port where
  en := true
  state := 0
  ver := 0
  lanesRev := 0
  reversed := false
  partner := 0
  txSeq := 0
  rxSeq := 0
  ackOwed := none
  replay := []
  resend := []
  retryOwed := false
  retrying := false
  creditOwed := List.replicate 8 0
  credits := List.replicate 8 0
  queues := List.replicate 8 []
  rr := 1
  slots := []
  rx := List.replicate 8 []
  retrySeq := 0
  retryCount := 0
  retrains := []
  trainStart := 0
  verFailAt := none
  noVer := false
  delayed := false
  wire := []

def Security.reset (ar : Nat) : Security where
  role := 0
  alive0 := true
  alive1 := true
  arCount := ar
  scopes := 0
  challenge := none
  meas := List.replicate 8 (List.replicate 64 0)
  m6Events := 0
  reverted := false
  writes := []
  tokens := []

/-- The cells of the boundary register: one for each of the 34 signal pins of P2 and for each of the 4 × 96 pairs of P3 to P6 (R438,
Tables 20.1 and 20.3; log 55). -/
def boundaryCells : Nat := 34 + 4 * 96

/-- Test-Logic-Reset selects IDCODE, as IEEE 1149.1 has it (log 53). -/
def Jtag.reset : Jtag := ⟨1, List.replicate boundaryCells false, none, [], 0, 0, 0⟩

/-- A function's configuration space at reset: no address, the full size of BAR2, D0 (R432). -/
def ConfigSpace.reset (quad : Bool) : ConfigSpace := ⟨0, 0, if quad then 4 else 6, false, 0⟩

def Procs.reset : Procs := ⟨[], [], [], [], List.replicate 4 0, [], 0⟩

def Journal.reset : Journal := ⟨[], 1, 0, none⟩

/-- The module at t0 of a module reset (R8, R442): the configuration record and the fuses as given, everything else at its
reset value, the start-up sequence not yet begun. -/
def State.atReset (cfg : ConfigRecord) (fuses : Fuses) (ar : Nat) (cold : Bool) : State :=
  let quad := cfg.present = 1
  { pending := []
    mem := []
    funcs := List.replicate 4 (Func.reset (if quad then 16 else 64))
    dies := (List.range 4).map fun d => Die.reset (cfg.ilvMib.getD d 4096) (if quad then 625 else 2500)
    clusters := List.replicate 80 Cluster.reset
    cores := (List.range 640).map fun i =>
      Core.reset (fuses.absentCores.contains i) ((fuses.bypassed.lookup i).getD [])
    ports := List.replicate 24 Port.reset
    links := []
    linkTrains := []
    linkRetries := []
    badLines := []
    fuses := fuses
    cfg := cfg
    quad := quad
    zcpPin := cfg.zcpPin
    rwPin := cfg.rwPin
    fwSel := 0
    fw := List.replicate 4 FwKind.rom
    act := none
    deferTime := 0
    procs := Procs.reset
    sec := Security.reset ar
    jtag := Jtag.reset
    side := ⟨none, 0, false, 0, 63⟩
    pcie := ⟨false, false, List.replicate 4 (ConfigSpace.reset quad)⟩
    boot := ⟨true, true, false, true, false, false, false, 0, cold, false, 0, 0, 0, true⟩
    ready := false
    twinEn := true
    twinGib := 24
    twinNow := if quad then 0 else 24
    journal := Journal.reset
    clk := 0
    noteSeq := 0
    probe := 0
    fresh := 0
    out := [] }

/-- The machine right after reset: t0 of a power-up of a module as it ships. -/
def State.reset : State := State.atReset ConfigRecord.shipped Fuses.full 0 true

end Sys2Proof.Machine
end

