-- ==== Sys2Proof/Machine/Clock.lean ====
section
/-!
DEFINITION. The time sources (R447): every source counts one step of 10 ns and wraps at 2^64; each die of a powered module has
its own.
-/
namespace Sys2Proof.Machine

/-- One count of 10 ns of every time source that runs (R447). -/
def tick (s : State) : State :=
  { s with
    clk := (s.clk + 1) % 2 ^ 64
    dies := s.dies.map fun d => if d.powered then { d with clk := (d.clk + 1) % 2 ^ 64 } else d }

end Sys2Proof.Machine
end

