-- ==== Sys2Proof/Machine/Bits.lean ====
section
/-!
DEFINITION. Bit fields, byte order and small list operations: bit 0 is the least significant (R2), multi-byte fields are
little-endian (R3).
-/
namespace Sys2Proof.Machine

/-- Bits [lo + len - 1 : lo] of a number (R2). -/
def fld (n lo len : Nat) : Nat := n / 2 ^ lo % 2 ^ len

/-- Bit `i` of a number (R2). -/
def bit (n i : Nat) : Bool := n.testBit i

/-- 1 or 0. -/
def b2n (b : Bool) : Nat := if b then 1 else 0

/-- A two's-complement reading of the low `w` bits. -/
def sext (w n : Nat) : Int := let m := n % 2 ^ w; if m < 2 ^ (w - 1) then m else (m : Int) - 2 ^ w

/-- The `w`-bit two's-complement pattern of an integer. -/
def toTwos (w : Nat) (i : Int) : Nat := (i % (2 ^ w : Int)).toNat

/-- The number whose bytes, lowest address first, are given (R3). -/
def leNat : List Byte → Nat
  | [] => 0
  | b :: bs => b.toNat + 256 * leNat bs

/-- The `len` low bytes of a number, lowest first (R3). -/
def leBytes : (len n : Nat) → List Byte
  | 0, _ => []
  | len + 1, n => BitVec.ofNat 8 n :: leBytes len (n / 256)

/-- `len` bytes at an offset of a record, as a number. -/
def at' (bs : List Byte) (off len : Nat) : Nat := leNat ((bs.drop off).take len)

/-- `x - c` for a large constant `c`; it looks at `x` first, so that no evaluator counts down from `c` when `x` is not known. -/
def minus (x c : Nat) : Nat :=
  match x with
  | 0 => 0
  | n + 1 => n + 1 - c

/-- A record with `len` bytes at an offset replaced by a number. -/
def putAt (bs : List Byte) (off len v : Nat) : List Byte :=
  bs.take off ++ leBytes len v ++ bs.drop (off + len)

/-- `n` zero bytes. -/
def zeros (n : Nat) : List Byte := List.replicate n 0

/-- The smallest integer not below n ÷ d. -/
def ceilDiv (n d : Nat) : Nat := (n + d - 1) / d

/-- `n` rounded up to a multiple of `a`. -/
def roundUp (n a : Nat) : Nat := ceilDiv n a * a

/-- Fields of a register, each given by its lowest bit, its width and its value. -/
def pack (fs : List (Nat × Nat × Nat)) : Word :=
  BitVec.ofNat 64 (fs.foldl (fun acc (lo, len, v) => acc + 2 ^ lo * (v % 2 ^ len)) 0)

/-- The mask with the listed bits set. -/
def maskOf (bits : List Nat) : Nat := bits.eraseDups.foldl (fun acc i => acc + 2 ^ i) 0

/-- The set bits below `n` of a mask, ascending. -/
def bitsOf (n m : Nat) : List Nat := (List.range n).filter (bit m)

/-- Consecutive groups of `n` elements; `fuel` bounds their number. -/
def chunks {α : Type} (n : Nat) : (fuel : Nat) → List α → List (List α)
  | 0, _ => []
  | fuel + 1, l => if l.isEmpty then [] else l.take n :: chunks n fuel (l.drop n)

/-- Keyed lists in ascending key, one entry a key. -/
def SMap.find {β : Type} (k : Nat) : List (Nat × β) → Option β
  | [] => none
  | (a, v) :: m => if a = k then some v else if k < a then none else SMap.find k m

/-- Put a value under a key, keeping the keys in ascending order. -/
def SMap.insert {β : Type} (k : Nat) (v : β) : List (Nat × β) → List (Nat × β)
  | [] => [(k, v)]
  | (a, w) :: m => if k < a then (k, v) :: (a, w) :: m else if k = a then (k, v) :: m else (a, w) :: SMap.insert k v m

/-- Remove a key. -/
def SMap.erase {β : Type} (k : Nat) : List (Nat × β) → List (Nat × β)
  | [] => []
  | (a, w) :: m => if a = k then m else if k < a then (a, w) :: m else (a, w) :: SMap.erase k m

/-- The keys rise strictly. -/
def SMap.sorted {β : Type} : List (Nat × β) → Bool
  | [] => true
  | [_] => true
  | (a, _) :: (b, w) :: m => a < b && SMap.sorted ((b, w) :: m)

/-- Remove the first element equal to the given one. -/
def eraseOne {α : Type} [DecidableEq α] (x : α) : List α → List α
  | [] => []
  | y :: l => if y = x then l else y :: eraseOne x l

/-- Remove the first element of which `p` holds. -/
def eraseFirst {α : Type} (p : α → Bool) : List α → List α
  | [] => []
  | y :: l => if p y then l else y :: eraseFirst p l

/-- Change the first element of which `p` holds, or append `d`. -/
def upsert {α : Type} (p : α → Bool) (f : α → α) (d : α) : List α → List α
  | [] => [d]
  | y :: l => if p y then f y :: l else y :: upsert p f d l

/-- Insertion by a strict order, keeping the order of equal elements. -/
def insertBy {α : Type} (lt : α → α → Bool) (x : α) : List α → List α
  | [] => [x]
  | y :: l => if lt x y then x :: y :: l else y :: insertBy lt x l

/-- A stable sort by insertion. -/
def sortBy {α : Type} (lt : α → α → Bool) (l : List α) : List α := l.foldl (fun acc x => insertBy lt x acc) []

/-- The first element that is least under a strict order. -/
def leastBy {α : Type} (lt : α → α → Bool) : List α → Option α
  | [] => none
  | x :: l => some (l.foldl (fun best y => if lt y best then y else best) x)

end Sys2Proof.Machine
end

