-- ==== Sys2Proof/Machine/Fp.lean ====
section
/-!
DEFINITION. Number formats and arithmetic (chapter 2 of the spec): exact values, one rounding to nearest even, saturation
instead of overflow, the special cases of Table 2.7, BX blocks, exact column sums, XA64 accumulators, compensated pairs and
the canonical tree. A computation counts its events in a `Tally`; the block that runs it adds them to its counters.
-/
namespace Sys2Proof.Machine

/-- The events a computation counts (Table 2.9, BLW_GRADUFL of Table 5.7, VEC_DOMAIN of Table 9.7 and the Chanter counters
that depend on values, Table 10.6 and Table 12.11). -/
structure Tally where
  ufl : Nat
  align : Nat
  sat : Nat
  nf : Nat
  xa : Nat
  gradUfl : Nat
  domain : Nat
  dropped : Nat
  carry : Nat
  clamp : Nat
  pivot : Nat
  updUfl : Nat
  nfElem : Nat
  fresh : Nat
  deriving DecidableEq, Repr, Inhabited

def Tally.zero : Tally := ⟨0, 0, 0, 0, 0, 0, 0, 0, 0, 0, 0, 0, 0, 0⟩

/-- A computation that counts events. -/
abbrev N (α : Type) := StateM Tally α

def countUfl : N PUnit := modify fun t => { t with ufl := t.ufl + 1 }
def countAlign (n : Nat) : N PUnit := modify fun t => { t with align := t.align + n }
def countSat (b : Bool) : N PUnit := modify fun t => { t with sat := t.sat + b2n b }
def countNf : N PUnit := modify fun t => { t with nf := t.nf + 1 }
def countXa : N PUnit := modify fun t => { t with xa := t.xa + 1 }
def countDomain : N PUnit := modify fun t => { t with domain := t.domain + 1 }

/-- The outcome of a computation whose events are not counted. -/
def quiet {α : Type} (c : N α) : α := c.run' Tally.zero

/-- Run a computation whose outcome is one result element: its NF_IN and its SAT_OVF rise by one at most (R48). -/
def once {α : Type} (m : N α) : N α := do
  let t ← get
  let a ← m
  modify fun u => { u with sat := min u.sat (t.sat + 1), nf := min u.nf (t.nf + 1) }
  return a

/-- Run a computation whose non-finite operands have been counted where they arose: NF_IN does not rise again (R45). -/
def nfCounted {α : Type} (m : N α) : N α := do
  let t ← get
  let a ← m
  modify fun u => { u with nf := t.nf }
  return a

/-- The next number of the free-value counter. -/
def nextFresh : N Nat := modifyGet fun t => (t.fresh, { t with fresh := t.fresh + 1 })

/-! ## Formats -/

/-- A storage format (R34, Table 2.1): precision with the leading bit, exponent width and bias. -/
structure Fmt where
  p : Nat
  ebits : Nat
  bias : Nat
  bytes : Nat
  deriving DecidableEq, Repr

def Fmt.fp32 : Fmt := ⟨24, 8, 127, 4⟩
def Fmt.bf16 : Fmt := ⟨8, 8, 127, 2⟩
def Fmt.fp16 : Fmt := ⟨11, 5, 15, 2⟩

/-- The storage format of a format code 0x0 to 0x2 (Table 2.3). -/
def Fmt.ofCode : Nat → Fmt
  | 1 => Fmt.bf16
  | 2 => Fmt.fp16
  | _ => Fmt.fp32

/-- The mantissa width of a BX format code 0x3 to 0x7 (Table 2.3, Table 2.4). -/
def bxWidth : Nat → Nat
  | 3 => 4
  | 4 => 6
  | 5 => 8
  | 6 => 12
  | _ => 16

/-- A value: NaN, an infinity, or (−1)^neg × m × 2^e. -/
inductive Fv where
  | nan
  | inf (neg : Bool)
  | fin (neg : Bool) (m : Nat) (e : Int)
  deriving DecidableEq, Repr, Inhabited

/-- The value of a bit pattern (R34, R35). -/
def Fmt.decode (F : Fmt) (bits : Nat) : Fv :=
  let fb := F.p - 1
  let frac := fld bits 0 fb
  let ex := fld bits fb F.ebits
  let neg := bit bits (fb + F.ebits)
  if ex = 2 ^ F.ebits - 1 then (if frac = 0 then .inf neg else .nan)
  else if ex = 0 then .fin neg frac (1 - F.bias - fb)
  else .fin neg (2 ^ fb + frac) (ex - F.bias - fb)

/-- The canonical quiet NaN (R35, Table 2.2). -/
def Fmt.qnan (F : Fmt) : Nat := (2 ^ F.ebits - 1) * 2 ^ (F.p - 1) + 2 ^ (F.p - 2)

/-- An infinity's pattern. -/
def Fmt.infBits (F : Fmt) (neg : Bool) : Nat := b2n neg * 2 ^ (F.p - 1 + F.ebits) + (2 ^ F.ebits - 1) * 2 ^ (F.p - 1)

/-- A zero's pattern. -/
def Fmt.zeroBits (F : Fmt) (neg : Bool) : Nat := b2n neg * 2 ^ (F.p - 1 + F.ebits)

/-- The largest finite value (Table 2.2). -/
def Fmt.maxBits (F : Fmt) (neg : Bool) : Nat := F.infBits neg - 1

/-- n ÷ d to the nearest integer, ties to even. -/
def rneDiv (n d : Nat) : Nat :=
  let q := n / d
  let r := n % d
  if 2 * r > d || (2 * r = d && q % 2 = 1) then q + 1 else q

/-- An integer ÷ d to the nearest integer, ties to even. -/
def rneInt (n : Int) (d : Nat) : Int := if n < 0 then -(rneDiv n.natAbs d : Int) else rneDiv n.natAbs d

/-- n × 2^e as a fraction. -/
def scaleFrac (n d : Nat) (e : Int) : Nat × Nat := if 0 ≤ e then (n * 2 ^ e.toNat, d) else (n, d * 2 ^ (-e).toNat)

/-- floor(log2 (n ÷ d)) for n, d > 0. -/
def log2Frac (n d : Nat) : Int :=
  let e : Int := (Nat.log2 n : Int) - Nat.log2 d
  let (a, b) := scaleFrac n d (-e)
  if b ≤ a then e else e - 1

/-- Round n ÷ d once, to nearest even, into a format, with saturation to the largest finite value (R45, R47). The second part
says whether it saturated. -/
def Fmt.round (F : Fmt) (neg : Bool) (n d : Nat) : Nat × Bool :=
  if n = 0 then (F.zeroBits neg, false)
  else
    let fb := F.p - 1
    let e := max (log2Frac n d) (1 - (F.bias : Int))
    let (a, b) := scaleFrac n d (fb - e)
    let m := rneDiv a b
    let (m, e) := if m = 2 ^ F.p then (2 ^ fb, e + 1) else (m, e)
    if e > F.bias then (F.maxBits neg, true)
    else
      let ex := if m < 2 ^ fb then 0 else (e + F.bias).toNat
      (F.zeroBits neg + ex * 2 ^ fb + (if m < 2 ^ fb then m else m - 2 ^ fb), false)

/-- Round i × 2^e ÷ d. A zero takes the sign given. -/
def Fmt.roundInt (F : Fmt) (zeroNeg : Bool) (i : Int) (e : Int) (d : Nat) : Nat × Bool :=
  let (a, b) := scaleFrac i.natAbs d e
  if i = 0 then (F.zeroBits zeroNeg, false) else F.round (i < 0) a b

/-- Round and count a saturation. -/
def Fmt.rnd (F : Fmt) (zeroNeg : Bool) (i : Int) (e : Int) (d : Nat := 1) : N Nat := do
  let (v, s) := F.roundInt zeroNeg i e d
  countSat s
  return v

/-- A signed exact value: (−1)^neg × m. -/
def sgnd (neg : Bool) (m : Nat) : Int := if neg then -(m : Int) else m

/-- Integer square root, bit by bit. -/
def isqrtFrom : (fuel n acc : Nat) → Nat
  | 0, _, acc => acc
  | k + 1, n, acc => let c := acc + 2 ^ k; isqrtFrom k n (if c * c ≤ n then c else acc)

def isqrt (n : Nat) : Nat := isqrtFrom (Nat.log2 n / 2 + 1) n 0

/-- Round the square root of n ÷ d once, to nearest even. -/
def Fmt.roundSqrt (F : Fmt) (neg : Bool) (n d : Nat) : Nat × Bool :=
  if n = 0 then (F.zeroBits neg, false)
  else
    let fb := F.p - 1
    let e := max (Int.fdiv (log2Frac n d) 2) (1 - (F.bias : Int))
    let q : Int := e - fb
    let (a, b) := scaleFrac n d (-2 * q)
    let m := isqrt (a / b)
    let up := 4 * a > (2 * m + 1) * (2 * m + 1) * b || (4 * a = (2 * m + 1) * (2 * m + 1) * b && m % 2 = 1)
    let m := if up then m + 1 else m
    let (c, g) := scaleFrac m 1 q
    F.round neg c g

/-! ## Binary32 operations (R48, Table 2.7) -/

def f32 (x : F32) : Fv := Fmt.fp32.decode x.toNat
def mk32 (n : Nat) : F32 := BitVec.ofNat 32 n
def qnan32 : F32 := mk32 Fmt.fp32.qnan
def inf32 (neg : Bool) : F32 := mk32 (Fmt.fp32.infBits neg)
def zero32 : F32 := 0
def one32 : F32 := mk32 0x3F800000
def isNan32 (x : F32) : Bool := f32 x == .nan
def isFin32 (x : F32) : Bool := match f32 x with | .fin _ _ _ => true | _ => false

def retNan : N F32 := do countNf; return qnan32
def retInf (neg : Bool) : N F32 := do countNf; return inf32 neg

/-- Round an exact value into binary32, counting a saturation. -/
def rnd32 (zeroNeg : Bool) (i : Int) (e : Int) (d : Nat := 1) : N F32 := return mk32 (← Fmt.fp32.rnd zeroNeg i e d)

/-- The exact sum of two scaled integers. -/
def addExact (i1 : Int) (e1 : Int) (i2 : Int) (e2 : Int) : Int × Int :=
  let e := min e1 e2
  (i1 * 2 ^ (e1 - e).toNat + i2 * 2 ^ (e2 - e).toNat, e)

/-- The negation of a pattern; a NaN stays what it is. -/
def neg32 (x : F32) : F32 := x ^^^ 0x80000000
def abs32 (x : F32) : F32 := x &&& 0x7FFFFFFF

def fadd (a b : F32) : N F32 :=
  match f32 a, f32 b with
  | .nan, _ | _, .nan => retNan
  | .inf x, .inf y => if x = y then retInf x else retNan
  | .inf x, _ => retInf x
  | _, .inf y => retInf y
  | .fin n1 m1 e1, .fin n2 m2 e2 =>
    let (i, e) := addExact (sgnd n1 m1) e1 (sgnd n2 m2) e2
    rnd32 (n1 && n2) i e

def fsub (a b : F32) : N F32 := if isNan32 b then retNan else fadd a (neg32 b)

def fmul (a b : F32) : N F32 :=
  match f32 a, f32 b with
  | .nan, _ | _, .nan => retNan
  | .inf x, .inf y => retInf (x != y)
  | .inf x, .fin y m _ | .fin y m _, .inf x => if m = 0 then retNan else retInf (x != y)
  | .fin n1 m1 e1, .fin n2 m2 e2 => rnd32 (n1 != n2) (sgnd (n1 != n2) (m1 * m2)) (e1 + e2)

/-- a × b + c with one rounding. -/
def ffma (a b c : F32) : N F32 :=
  match f32 a, f32 b, f32 c with
  | .nan, _, _ | _, .nan, _ | _, _, .nan => retNan
  | .fin n1 m1 e1, .fin n2 m2 e2, .fin n3 m3 e3 =>
    let pn := n1 != n2
    let (i, e) := addExact (sgnd pn (m1 * m2)) (e1 + e2) (sgnd n3 m3) e3
    rnd32 (pn && n3) i e
  | .fin _ _ _, .fin _ _ _, .inf z => retInf z
  | x, y, z =>
    let zeroTimesInf := match x, y with
      | .fin _ m _, .inf _ | .inf _, .fin _ m _ => decide (m = 0)
      | _, _ => false
    let neg (v : Fv) : Bool := match v with | .inf n | .fin n _ _ => n | .nan => false
    let pn := neg x != neg y
    if zeroTimesInf then retNan
    else match z with
      | .inf zn => if zn = pn then retInf pn else retNan
      | _ => retInf pn

/-- DIV. ∞ ÷ ∞ stands in no row of Table 2.7: DESIGN CHOICE (log 2), its canonical NaN counts NF_IN as every other invalid operation's. -/
def fdiv (a b : F32) : N F32 :=
  match f32 a, f32 b with
  | .nan, _ | _, .nan => retNan
  | .inf x, .fin y m _ => if m = 0 then retNan else retInf (x != y)
  | .inf _, .inf _ => retNan
  | .fin x _ _, .inf y => return mk32 (Fmt.fp32.zeroBits (x != y))
  | .fin x m1 e1, .fin y m2 e2 => if m2 = 0 then retNan else rnd32 (x != y) (sgnd (x != y) m1) (e1 - e2) m2

def fsqrt (a : F32) : N F32 :=
  match f32 a with
  | .nan => retNan
  | .inf n => if n then retNan else retInf false
  | .fin n m e =>
    if m = 0 then return a
    else if n then retNan
    else
      let (p, q) := scaleFrac m 1 e
      return mk32 (Fmt.fp32.roundSqrt false p q).1

/-- 1 ÷ sqrt(a) with one rounding. -/
def frsqrt (a : F32) : N F32 :=
  match f32 a with
  | .nan => retNan
  | .inf n => if n then retNan else return zero32
  | .fin n m e =>
    if m = 0 || n then retNan
    else
      let (p, q) := scaleFrac m 1 e
      return mk32 (Fmt.fp32.roundSqrt false q p).1

/-- The place of a non-NaN pattern in the order of R61. -/
def ordKey (w bits : Nat) : Int :=
  let mag := bits % 2 ^ (w - 1)
  if bit bits (w - 1) then -(mag : Int) - 1 else mag

def less32 (a b : F32) : Bool := ordKey 32 a.toNat < ordKey 32 b.toNat

/-- a < b as values: the zeros are equal. -/
def below32 (a b : F32) : Bool := less32 a b && !(abs32 a = 0 && abs32 b = 0)

/-- The greater under the order of R61, `a` on ties. -/
def fmax (a b : F32) : N F32 :=
  if isNan32 a || isNan32 b then retNan
  else do
    let r := if less32 a b then b else a
    if !isFin32 r then countNf
    return r

/-- The lesser under the order of R61, `a` on ties. -/
def fmin (a b : F32) : N F32 :=
  if isNan32 a || isNan32 b then retNan
  else do
    let r := if less32 b a then b else a
    if !isFin32 r then countNf
    return r

/-- An operation of one operand that leaves magnitude bits as they are: |a|, −a. -/
def funary (f : F32 → F32) (a : F32) : N F32 :=
  match f32 a with
  | .nan => retNan
  | .inf _ => do countNf; return f a
  | .fin _ _ _ => return f a

/-- a × 2^k with one rounding. -/
def fscale (a : F32) (k : Int) : N F32 :=
  match f32 a with
  | .nan => retNan
  | .inf n => retInf n
  | .fin n m e => rnd32 n (sgnd n m) (e + k)

/-- a limited to −|b| to |b|. -/
def fclamp (a b : F32) : N F32 :=
  if isNan32 a || isNan32 b then retNan
  else do
    let hi := abs32 b
    let lo := neg32 hi
    let r := if less32 hi a then hi else if less32 a lo then lo else a
    if !isFin32 r then countNf
    return r

/-- Conversion between storage formats (R47): widening is exact, narrowing rounds once and saturates. -/
def cvt (src dst : Fmt) (bits : Nat) : N Nat :=
  match src.decode bits with
  | .nan => return dst.qnan
  | .inf n => return dst.infBits n
  | .fin n m e => dst.rnd n (sgnd n m) e

/-- A stored element widened to FP32 (R47). -/
def widen (F : Fmt) (bits : Nat) : F32 :=
  match F.decode bits with
  | .nan => qnan32
  | .inf n => inf32 n
  | .fin n m e => mk32 (Fmt.fp32.roundInt n (sgnd n m) e 1).1

def narrow (F : Fmt) (x : F32) : N Nat := cvt Fmt.fp32 F x.toNat

/-! ## Pairs and the canonical tree -/

/-- A compensated pair (s, e). -/
abbrev Pair := F32 × F32

def Pair.empty : Pair := (zero32, zero32)

/-- R53: the reference order; +0 in place of e when an operand is non-finite or s saturates. -/
def twosum (a b : F32) : N Pair := do
  let t0 ← get
  let s ← fadd a b
  let t1 ← get
  if !isFin32 a || !isFin32 b || t1.sat ≠ t0.sat then return (s, zero32)
  let bb ← fsub s a
  let x ← fsub s bb
  let y ← fsub a x
  let z ← fsub b bb
  let e ← fadd y z
  return (s, e)

/-- R54. The pair is one result element (log 2). -/
def node (p q : Pair) : N Pair := once do
  let (s, t) ← twosum p.1 q.1
  let u ← fadd p.2 q.2
  let c ← fadd u t
  return (s, c)

/-- A chain of pairs by `node` from (+0, +0): one result element. -/
def chain (ps : List Pair) : N Pair := once (ps.foldlM node Pair.empty)

/-- The exact value s + e, or the non-finite value that s carries. -/
def pairValue (p : Pair) : Fv ⊕ (Int × Int) :=
  match f32 p.1, f32 p.2 with
  | .fin n1 m1 e1, .fin n2 m2 e2 => .inr (addExact (sgnd n1 m1) e1 (sgnd n2 m2) e2)
  | .nan, _ | _, .nan => .inl .nan
  | .inf n, _ => .inl (.inf n)
  | _, .inf n => .inl (.inf n)

/-- (s + e) × 2^k ÷ d rounded once into a format; a zero sum is +0. -/
def pairRoundScaled (F : Fmt) (p : Pair) (k : Int) (d : Nat) : N Nat :=
  match pairValue p with
  | .inl .nan => return F.qnan
  | .inl (.inf n) => return F.infBits n
  | .inl (.fin _ _ _) => return 0
  | .inr (i, e) => F.rnd false i (e + k) d

/-- The rounding at the end of a reduction; a zero result is +0 (R57). -/
def pairRound (F : Fmt) (p : Pair) : N Nat := do
  let r ← pairRoundScaled F p 0 1
  return if r = F.zeroBits true then 0 else r

def pairRound32 (p : Pair) : N F32 := return mk32 (← pairRound Fmt.fp32 p)

/-- Values chained as (x, +0) from (+0, +0) and rounded once: one result element. -/
def chainRound32 (xs : List F32) : N F32 := once do pairRound32 (← chain (xs.map fun x => (x, zero32)))

/-- The leaf of tile t of T (R56). -/
def leafOf (t T : Nat) : Nat := if T = 0 then 0 else 8 * t / T

/-- The canonical tree over eight leaves (R57, Table 2.8). -/
def tree8 (l : List Pair) : N Pair := once do
  let g (i : Nat) : Pair := l.getD i Pair.empty
  let n1 ← node (g 0) (g 1)
  let n2 ← node (g 2) (g 3)
  let n3 ← node (g 4) (g 5)
  let n4 ← node (g 6) (g 7)
  let n5 ← node n1 n2
  let n6 ← node n3 n4
  node n5 n6

/-- Leaf i of a reduction whose tiles enter as the given pairs (R56). -/
def leafChain (ps : List Pair) (i : Nat) : N Pair :=
  chain ((ps.zipIdx.filter fun x => leafOf x.2 ps.length = i).map (·.1))

/-- A reduction of T tiles in the canonical tree (R56, R57). -/
def treeSum (ps : List Pair) : N Pair := once do
  let ls ← (List.range 8).mapM (leafChain ps)
  tree8 ls

/-- The parts of a non-canonical split (R59): part j chains tiles floor(jT/p) to floor((j+1)T/p) − 1. -/
def splitSum (p : Nat) (ps : List Pair) : N Pair := once do
  let T := ps.length
  let parts ← (List.range p).mapM fun j => chain ((ps.drop (j * T / p)).take ((j + 1) * T / p - j * T / p))
  chain parts

/-- A split count that keeps the canonical tree (R58). -/
def canonicalSplit (p : Nat) : Bool := p = 1 || p = 2 || p = 4 || p = 8

def reduceSplit (p : Nat) (ps : List Pair) : N Pair := if canonicalSplit p then treeSum ps else splitSum p ps

/-- The exact square of a value as a pair (R215, R263). -/
def squarePair (y : F32) : N Pair := once do
  let h ← fmul y y
  let l ← ffma y y (neg32 h)
  return (h, l)

/-! ## Exact rational values -/

/-- The exact value of a finite pattern. -/
def ratOf (x : F32) : Rat :=
  match f32 x with
  | .fin n m e => let (a, b) := scaleFrac m 1 e; mkRat (sgnd n a) b
  | _ => 0

/-- A rational value rounded once into binary32. -/
def rndRat (q : Rat) : N F32 := rnd32 false q.num 0 q.den

/-! ## BX blocks (R37 to R42) -/

/-- floor(log2 |x|) of a finite value, none for zero. -/
def fvLog2 : Fv → Option Int
  | .fin _ m e => if m = 0 then none else some (Nat.log2 m + e)
  | _ => none

def fvFinite : Fv → Bool
  | .fin _ _ _ => true
  | _ => false

/-- The largest of the exponents, if there is one. -/
def maxExp (xs : List Fv) : Option Int :=
  xs.foldl (fun acc x => match acc, fvLog2 x with
    | none, r => r
    | some a, some b => some (max a b)
    | some a, none => some a) none

/-- One mantissa: RNE (R39), or with a stochastic addend r in units of 2^-16 (R42). -/
def mantissa (m : Nat) (unit : Int) (r : Option Nat) : Fv → Int
  | .fin n k e =>
    let (a, b) := scaleFrac k 1 (e - unit)
    let i : Int := match r with
      | none => rneInt (sgnd n a) b
      | some r => Int.fdiv (sgnd n a * 65536 + (r : Int) * b) (b * 65536)
    if i = 2 ^ (m - 1) then 2 ^ (m - 1) - 1 else i
  | _ => 0

/-- Convert a block (R38 to R41); `rs` are the lane draws under stochastic rounding. -/
def bxBlock (m : Nat) (xs : List Fv) (rs : Option (List Nat)) : N Blk := do
  if !xs.all fvFinite then
    countNf
    return ⟨255, xs.map fun _ => 0⟩
  match maxExp xs with
  | none => return ⟨0, xs.map fun _ => 0⟩
  | some e0 =>
    let e := max e0 (-126)
    let unit := e - (m - 2 : Nat)
    let ms := xs.zipIdx.map fun (x, i) => mantissa m unit (rs.map (·.getD i 0)) x
    for (x, i) in xs.zip ms do
      if (fvLog2 x).isSome && i = 0 then countUfl
    return ⟨(e + 127).toNat, ms⟩

/-- Blocks of 32 rows of a reduction vector of 128 (R43). -/
def bxVector (m : Nat) (xs : List Fv) (rs : Option (List Nat)) : N (List Blk) :=
  (List.range 4).mapM fun g =>
    bxBlock m ((xs.drop (32 * g)).take 32) (rs.map fun l => (l.drop (32 * g)).take 32)

def dot (a w : List Int) : Int := (a.zip w).foldl (fun acc (x, y) => acc + x * y) 0

/-- What a column accumulator holds for one vector (R44): a poisoned column, no live group, or S with the exponent of its
unit, and the live groups omitted. -/
inductive ColRes where
  | poisoned
  | dead
  | sum (S : Int) (exp : Int) (omitted : Nat)
  deriving DecidableEq, Repr, Inhabited

/-- R44, with R45's first case: `a` and `w` are the mantissa widths, `up` what faults of the array add to the four group sums. -/
def columnSum (a w : Nat) (acts wgts : List Blk) (up : List Int) : ColRes :=
  let gs := (acts.zip wgts).zip up
  if gs.any (fun ((x, y), _) => x.E = 255 || y.E = 255) then .poisoned
  else
    let live := gs.filter fun ((x, y), _) => 1 ≤ x.E && 1 ≤ y.E
    if live.isEmpty then .dead
    else
      let xmax := live.foldl (fun (acc : Nat) ((x, y), _) => max acc (x.E + y.E)) 0
      let kept := live.filter fun ((x, y), _) => xmax ≤ x.E + y.E + 25
      let S := kept.foldl (fun (acc : Int) ((x, y), u) => acc + (2 : Int) ^ (x.E + y.E + 25 - xmax) * (dot x.ms y.ms + u)) 0
      .sum S ((xmax : Int) - 25 - 254 - (a - 2 : Nat) - (w - 2 : Nat)) (live.length - kept.length)

/-- The checksum weights of the array rows, from the blocks of the loaded columns (R183). -/
def checkWeights (cols : List (List Blk)) : List Nat :=
  (List.range 128).map fun k =>
    ((cols.map fun bs => ((bs.getD (k / 32) ⟨0, []⟩).ms.getD (k % 32) 0)).sum % 65536).toNat

/-- The compare of one vector and group (R184): whether the group sums of all columns agree with the checksum column's. `act` is the
group's activation block, `ws` the group's weight block of each column with what a fault adds there, `cs` the checksum weights of the
group's rows with what a fault adds. -/
def checkGroup (act : Blk) (ws : List (Blk × Int)) (cs : List Nat × Int) : Bool :=
  (ws.map fun (y, u) => dot act.ms y.ms + u).sum % 65536 = (dot act.ms (cs.1.map Int.ofNat) + cs.2) % 65536

/-- The column's single rounding (R45). -/
def columnRound (F : Fmt) : ColRes → N Nat
  | .poisoned => return F.qnan
  | .dead => return F.zeroBits false
  | .sum S x om => do
    countAlign om
    F.rnd false S x

/-- The column as a pair (R55). -/
def columnPair : ColRes → N Pair
  | .poisoned => return (qnan32, zero32)
  | .dead => return Pair.empty
  | .sum S x om => do
    countAlign om
    let (h, sat) := Fmt.fp32.roundInt false S x 1
    countSat sat
    if sat then return (mk32 h, zero32)
    match f32 (mk32 h) with
    | .fin n m e =>
      let (i, e) := addExact S x (-(sgnd n m)) e
      return (mk32 h, mk32 (Fmt.fp32.roundInt false i e 1).1)
    | _ => return (mk32 h, zero32)

/-! ## XA64 accumulators (R49 to R52) -/

/-- The state of an accumulator: see `Acc` of the machine's state. -/
structure Xa where
  sum : Int
  n : Nat
  poisoned : Bool
  counted : Bool
  deriving DecidableEq, Repr, Inhabited

def Xa.empty : Xa := ⟨0, 0, false, false⟩

/-- x × 2^24 of a finite FP16 value, none of a non-finite one (R49). -/
def xaInt (bits : Nat) : Option Int :=
  match Fmt.fp16.decode bits with
  | .fin n m e => some (sgnd n m * 2 ^ (e + 24).toNat)
  | _ => none

/-- Add one FP16 addend (R49, R52). -/
def Xa.add (x : Xa) (bits : Nat) : Xa :=
  match xaInt bits with
  | some i => { x with sum := x.sum + i, n := x.n + 1 }
  | none => { x with poisoned := true, n := x.n + 1 }

/-- The integer clamped to 64 bits (R51). -/
def clamp64 (i : Int) : Int := max (-(2 ^ 63)) (min (2 ^ 63 - 1) i)

/-- The integer a readout uses (R51): exact to 2^23 addends, clamped beyond. -/
def Xa.value (x : Xa) : Int := if x.n ≤ 2 ^ 23 then x.sum else clamp64 x.sum

/-- The value of a readout of sum × 2^(−24 + k) ÷ d into a format, and what its first readout in the step counts (R50 to R52). -/
def Xa.first (F : Fmt) (k : Int) (d : Nat) (x : Xa) : N Nat := do
  if x.poisoned then countNf
  if 2 ^ 23 < x.n then countXa
  if x.poisoned || 2 ^ 47 < x.n then return F.qnan
  F.rnd false x.value (-24 + k) d

/-- Read out an accumulator; a later readout in the step counts nothing further (R51, R52). -/
def Xa.readout (F : Fmt) (k : Int) (d : Nat) (x : Xa) : N Nat :=
  if x.counted then return quiet (x.first F k d) else x.first F k d

/-! ## Maximum and minimum with a winner (R61) -/

/-- The maximum of indexed patterns of width `w` with its winner; a NaN wins with the lowest index that holds one. -/
def maxWinner (F : Fmt) (w : Nat) (xs : List (Nat × Nat)) : Option (Nat × Nat) :=
  let nans := xs.filter fun x => F.decode x.1 == .nan
  match leastBy (fun (a b : Nat × Nat) => a.2 < b.2) nans with
  | some x => some (F.qnan, x.2)
  | none =>
    leastBy (fun (a b : Nat × Nat) =>
      ordKey w b.1 < ordKey w a.1 || (ordKey w b.1 = ordKey w a.1 && a.2 < b.2)) xs

end Sys2Proof.Machine
end

