-- ==== Sys2Proof/Config.lean ====
section
/-!
DEFINITION. What an implementation fixes and what the spec leaves open: constants with no body, so that nothing in Lean can
evaluate them and a claim about them holds for every value. Each is named in a log entry under notes/assumptions.
A free value that is new at every use is applied to `State.fresh`, a counter the step reads and advances.
-/
namespace Sys2Proof.Config

/-- A byte the spec calls undefined (the outputs of quenched work, R85; scan data, R440). Log 3. -/
opaque freeByte : Nat → Byte

/-- A draw of a free-running lane generator, bits [63:48] of its state (R227). Log 4. -/
opaque laneDraw : Nat → BitVec 16

/-- A byte of the noise source: challenges (R409). Log 4. -/
opaque noiseByte : Nat → Byte

/-- A 64-bit value that comes from a unit whose contents the spec does not give: a processor register read through the
debug port (R440), the level of a boundary pin (R438). Log 3. -/
opaque freeWord : Nat → Word

/-- An FP32 value the spec does not state: a matrix element that a short chunk of Chanter does not hold (R288, R291). Log 39. -/
opaque freeF32 : Nat → F32

/-- The coefficients of built-in function tables 2 to 8, which the spec does not list (R223): slot, sub-table, segment and
coefficient number. `Machine.BuiltinsFit` says what Table 9.6 says of them. Log 6. -/
opaque builtinCoeff : (slot sub seg k : Nat) → F32

/-- Falcon-1024 verification of a signature over a 64-byte digest, which the spec names and does not give (R395). Log 7. -/
opaque falconVerify : (key digest sig : List Byte) → Bool

/-- A Falcon-1024 signature of 1,280 bytes made with the identity key (R395, R396, R405). Log 7. -/
opaque identitySign : (digest : List Byte) → BitVec 10240

/-- The digests of the eight Finraley public keys in Kaliemi ROM (R397). Log 7. -/
opaque keySlotDigest : Nat → BitVec 512

/-- The digest of Kaliemi ROM (M0, R402). Log 7. -/
opaque romDigest : BitVec 512

/-- ID_KEY and CERT_SIG of the identity certificate in carrier flash (Table 18.1): 1,793 and 1,280 bytes. Log 7. -/
opaque identityKey : BitVec 14344
@[inherit_doc identityKey] opaque certificateSignature : BitVec 10240

/-- The low 32 bits of BUILD of Kaliemi ROM (MOD_FWSTAT, R384): not given. Log 7. -/
opaque romBuild : Nat → BitVec 32

/-- IDCODE [31:28] and [11:1]: version and Finraley's JEDEC identity (R438), not given. Log 8. -/
opaque idcodeVersion : BitVec 4
@[inherit_doc idcodeVersion] opaque idcodeManufacturer : BitVec 11

/-- The length of a scan chain (R440): not given. Log 8. -/
opaque scanLength : Nat → Nat

/-- The delay of a path monitor normalised to a 105 °C junction, from its fused temperature coefficient, the temperatures of its die and the
delay measured (R351): the spec names no formula. Log 72. -/
opaque axlNormalise : (coeff : Int) → (temps : List Nat) → (delay : Int) → Int

/-- The payload bytes of a peer-memory or grant message, for which the spec gives no layout (R313, R314). Log 9. -/
opaque peerPayload : (write : Bool) → (offset len : Nat) → List Byte → List Byte

/-- The MCTP and I3C identity values the spec names and does not give (R436): the MCTP versions, and bits [47:6] of the Provisioned ID.
Log 8. -/
opaque mctpVersions : List Byte
@[inherit_doc mctpVersions] opaque provisionedId : BitVec 42

/-- Finraley's PCI-SIG vendor ID, and the revision ID in Unified presentation (R432), not given. Log 8. -/
opaque pciVendor : BitVec 16
@[inherit_doc pciVendor] opaque pciRevision : BitVec 8

/-- What a processor's single instruction step leaves undone or does (R440): the registers it reads back. Log 3. -/
opaque procRegister : (proc number time : Nat) → Word

end Sys2Proof.Config
end

