-- ==== Sys2Proof/Machine/Mem.lean ====
section
/-!
DEFINITION. Device memory as a list of (address, byte) pairs: addresses strictly rising, no entry equal to zero. What an
unlisted address reads as is zero: every memory reads zero after a module reset (R443).
-/
namespace Sys2Proof.Machine

/-- The byte an address reads that the list does not name (R443). -/
def Mem.unlisted : Byte := 0

/-- One byte of memory. -/
def Mem.get (m : List Host.Cell) (a : Nat) : Byte := (SMap.find a m).getD Mem.unlisted

/-- Store one byte; the byte an unlisted address reads as removes the entry. -/
def Mem.put (m : List Host.Cell) (a : Nat) (v : Byte) : List Host.Cell :=
  if v = Mem.unlisted then SMap.erase a m else SMap.insert a v m

/-- `n` bytes from an address upward. -/
def Mem.read (m : List Host.Cell) (a : Nat) : (n : Nat) → List Byte
  | 0 => []
  | n + 1 => Mem.get m a :: Mem.read m (a + 1) n

/-- Store bytes from an address upward. -/
def Mem.write (m : List Host.Cell) (a : Nat) : List Byte → List Host.Cell
  | [] => m
  | b :: bs => Mem.write (Mem.put m a b) (a + 1) bs

/-- The canonical form: addresses strictly rise and no entry equals the unlisted byte. -/
def Memory.wf (m : List Host.Cell) : Bool := SMap.sorted m && m.all (fun c => c.2 != Mem.unlisted)

end Sys2Proof.Machine
end

