-- ==== Sys2Proof/Machine/Ops.lean ====
section
/-!
DEFINITION. The named operations over the state that every family shares: one function, die, cluster, core or port; device
memory and its address map (R302, R305); counters, notification records and the change journal (chapter 21); messages of the
block to the outside; the free values.
-/
namespace Sys2Proof.Machine

/-- The outcome of a command that ran. -/
abbrev Done := Host.Outcome State Fault Refusal

/-- Change element `i` of a list, if there is one. -/
def modNth {α : Type} (f : α → α) : (i : Nat) → List α → List α
  | _, [] => []
  | 0, x :: l => f x :: l
  | i + 1, x :: l => x :: modNth f i l

/-! ## One instance -/

def State.func (s : State) (f : Nat) : Func := s.funcs.getD f (Func.reset 0)
def State.modFunc (s : State) (f : Nat) (g : Func → Func) : State := { s with funcs := modNth g f s.funcs }
def State.die (s : State) (d : Nat) : Die := s.dies.getD d (Die.reset 0 0)
def State.modDie (s : State) (d : Nat) (g : Die → Die) : State := { s with dies := modNth g d s.dies }
def State.clu (s : State) (d c : Nat) : Cluster := s.clusters.getD (d * 20 + c) Cluster.reset
def State.modClu (s : State) (d c : Nat) (g : Cluster → Cluster) : State :=
  { s with clusters := modNth g (d * 20 + c) s.clusters }
def State.core (s : State) (i : Nat) : Core := s.cores.getD i (Core.reset true [])
def State.modCore (s : State) (i : Nat) (g : Core → Core) : State := { s with cores := modNth g i s.cores }
def State.port (s : State) (p : Nat) : Port := s.ports.getD p Port.reset
def State.modPort (s : State) (p : Nat) (g : Port → Port) : State := { s with ports := modNth g p s.ports }

/-- The functions that exist (Table 1.4). -/
def State.fns (s : State) : List Nat := if s.quad then [0, 1, 2, 3] else [0]

/-- The function whose die `d` is (R23). -/
def State.fnOf (s : State) (d : Nat) : Nat := if s.quad then d else 0

/-- The physical dies of a function (R23). -/
def State.diesOf (s : State) (f : Nat) : List Nat := if s.quad then [f] else [0, 1, 2, 3]

/-- The physical die that a function names `d` (R24). -/
def State.physDie (s : State) (f d : Nat) : Nat := if s.quad then f else d

/-- The number a function gives a physical die (R24). -/
def State.locDie (s : State) (d : Nat) : Nat := if s.quad then 0 else d

/-- A die that is in service (DIE_CAP.STATE). -/
def State.up (s : State) (d : Nat) : Bool := (s.die d).enabled && !(s.die d).lost && d < 4

/-- The dies of a function that are in service. -/
def State.upDies (s : State) (f : Nat) : List Nat := (s.diesOf f).filter s.up

/-- A cluster that is in service (CLU_CAP.ENABLED). -/
def State.cluUp (s : State) (d c : Nat) : Bool := s.up d && c < 20 && (s.clu d c).enabled

/-- The die, cluster and number in the cluster of a global core ID (R14). -/
def coreDie (i : Nat) : Nat := i / 160
def coreClu (i : Nat) : Nat := i % 160 / 8
def coreId (d c k : Nat) : Nat := d * 160 + c * 8 + k

/-- COR_CAP.STATE (R20, R22): a core of a disabled cluster or of a removed die reads absent. -/
def State.coreState (s : State) (i : Nat) : Nat :=
  if s.cluUp (coreDie i) (coreClu i) then (s.core i).state else 0

/-- The presented width (R16). -/
def Core.pwidth (c : Core) : Nat := 263 - c.bypassed.length

/-- The cores of a die that are enabled. -/
def State.coresOf (s : State) (d : Nat) : List Nat :=
  ((List.range 160).map (d * 160 + ·)).filter fun i => s.coreState i = 1

/-! ## Time, free values, outputs -/

/-- The time source of a die, or the module's for 15 (R447). -/
def State.clkOf (s : State) (src : Nat) : Nat := if src < 4 then (s.die src).clk else s.clk

/-- What the block puts on an outside interface. -/
def State.put (s : State) (o : Output) : State := { s with out := s.out ++ [o] }

/-- MSI-X vectors of a function (Table 1.4). -/
def State.vectors (s : State) : Nat := if s.quad then 16 else 64

/-- An MSI-X message of a function. A vector number that the function does not have sends none (DESIGN CHOICE, log 79). -/
def State.interrupt (s : State) (f v : Nat) : State := if v < s.vectors then s.put (.msix f v) else s

/-- Take `n` numbers of the free-value counter. -/
def State.takeFresh (s : State) (n : Nat) : State := { s with fresh := s.fresh + n }

/-- `n` free bytes. -/
def State.freeBytes (s : State) (n : Nat) : List Byte := (List.range n).map fun i => Config.freeByte (s.fresh + i)

/-- Ticks of a second and of a day (R449). -/
def second : Nat := 100000000
def day : Nat := 24 * 3600 * second

/-! ## The address map -/

def GiB : Nat := 2 ^ 30
def MiB : Nat := 2 ^ 20
def dramBase (d : Nat) : Nat := 0x3000000000 * d
def tier2Base (d : Nat) : Nat := 0x10000000000 + 0x6000000000 * d
def tier2Size : Nat := 384 * GiB
def apBase : Nat := 0x100000000000
def apSpan : Nat := 0x1000000000
def regBase : Nat := 0xF00000000000

/-- The capacity of a vault in MiB (R301). -/
def vaultMib (v : Nat) : Nat := if v < 8 then 9831 else 9830

/-- The vaults of a die in service. -/
def State.vaults (s : State) (d : Nat) : List Nat :=
  if s.up d then (List.range 20).filter fun v => (s.clu d v).vaultOk else []

/-- Bytes of the interleaved region of a die (R302). -/
def State.ilvSize (s : State) (d : Nat) : Nat := MiB * ((s.vaults d).length * (s.die d).ilvMib)

/-- The offset and length of a local window in its die (R302). -/
def State.window (s : State) (d v : Nat) : Nat × Nat :=
  let I := (s.die d).ilvMib
  (MiB * (20 * I + ((List.range v).map fun u => vaultMib u - I).sum), MiB * (vaultMib v - I))

/-- Whether a die-relative offset of bonded DRAM is present (R302, R306). -/
def State.dramPresent (s : State) (d x : Nat) : Bool :=
  s.up d &&
  (x < s.ilvSize d ||
    (s.vaults d).any fun v => let w := s.window d v; w.1 ≤ x && x < w.1 + w.2)

/-- The vault that holds a die-relative offset (R302). -/
def State.vaultOf (s : State) (d x : Nat) : Option Nat :=
  if x < s.ilvSize d then (s.vaults d)[(x / 4096) % (s.vaults d).length]?
  else (s.vaults d).find? fun v => let w := s.window d v; w.1 ≤ x && x < w.1 + w.2

/-- What a device address of a function names (R305, Tables 13.2 and 13.3). The numbers are physical: memory is kept by the
address the Unified map gives it. -/
inductive Target where
  | dram (d off : Nat)
  | tier2 (d off : Nat)
  | peer (a off : Nat)
  | reg (off : Nat)
  | absent
  deriving DecidableEq, Repr

def State.target (s : State) (f x : Nat) : Target :=
  let n := if s.quad then 1 else 4
  if x < 0x3000000000 * n then
    let d := s.physDie f (x / 0x3000000000)
    if s.dramPresent d (x % 0x3000000000) then .dram d (x % 0x3000000000) else .absent
  else if 0x10000000000 ≤ x && x < 0x10000000000 + 0x6000000000 * n then
    let y := minus x 0x10000000000
    let d := s.physDie f (y / 0x6000000000)
    if s.up d then .tier2 d (y % 0x6000000000) else .absent
  else if apBase ≤ x && x < 2 * apBase then
    let a := minus x apBase / apSpan
    let off := minus x apBase % apSpan
    match SMap.find a (s.func f).apertures with
    | some ap => if off < GiB * ap.size then .peer a off else .absent
    | none => .absent
  else if regBase ≤ x && x < regBase + (if s.quad then 0x1000000 else 0x4000000) then .reg (minus x regBase)
  else .absent

/-- The memory key of a target; none for registers and absent addresses. Borrowed memory is kept under the borrower's
aperture address, per function. -/
def Target.key (f : Nat) : Target → Option Nat
  | .dram d off => some (dramBase d + off)
  | .tier2 d off => some (tier2Base d + off)
  | .peer a off => some (apBase + apBase * f + apSpan * a + off)
  | _ => none

/-- A range of `n` bytes that lies wholly in bonded DRAM or tier 2 and is present; its first byte and those at each MiB boundary within it
decide, because the areas of R302 begin and end on MiB boundaries. -/
def State.inMemory (s : State) (f x n : Nat) : Bool :=
  let ok (y : Nat) : Bool := match s.target f y with | .dram _ _ | .tier2 _ _ => true | _ => false
  n = 0 || (ok x && (List.range (n / MiB + 1)).all fun i => let y := MiB * (x / MiB + 1 + i); x + n ≤ y || ok y)

/-! ## Device memory -/

/-- The die whose bonded DRAM or tier 2 a key lies in. -/
def keyDie (k : Nat) : Option Nat :=
  if k < dramBase 4 then some (k / 0x3000000000)
  else if 0x10000000000 ≤ k && k < 0x10000000000 + 4 * 0x6000000000 then some (minus k 0x10000000000 / 0x6000000000)
  else none

/-- The mirrors of training state that stand (R247). -/
def State.mirrorMap (s : State) : List (Nat × Nat × Nat) :=
  s.funcs.flatMap fun g => g.plans.flatMap fun p => match p with | some p => p.mirrors | none => []

/-- The memory key of a device address. Training state of a removed die keeps its address: its mirror serves it (R250). -/
def State.key (s : State) (f x : Nat) : Option Nat :=
  match (s.target f x).key f with
  | some k => some k
  | none =>
    match keyDie x with
    | some d => if !s.quad && !s.up d && (s.mirrorMap.any fun (b, l, _) => b ≤ x && x < b + l) then some x else none
    | none => none

/-- Where `n` bytes at a key are read: at the mirror, when the key's die has been removed (R250). -/
def State.serve (s : State) (k n : Nat) : Nat :=
  match keyDie k with
  | some d =>
    if s.up d then k
    else match s.mirrorMap.find? fun (b, l, _) => b ≤ k && k + n ≤ b + l with
      | some (b, _, m) => m + (k - b)
      | none => k
  | none => k

/-- Store bytes at a key, clearing the uncorrectable state of the lines written (R316). -/
def State.put' (s : State) (k : Nat) (bs : List Byte) : State :=
  { s with
    mem := Mem.write s.mem k bs
    badLines := s.badLines.filter fun l => !(k < l + 64 && l < k + bs.length) }

/-- The function, the aperture and the offset of a key in borrowed memory. -/
def apertureOf (k : Nat) : Option (Nat × Nat × Nat) :=
  if k < apBase then none else some (k / apBase - 1, k % apBase / apSpan, k % apSpan)

/-- The bytes of one access to an aperture. An access to more is one message for each part, which keeps a peer memory message within R417's
2^20 bytes after its header, whose layout the spec does not state (DESIGN CHOICE, log 9). -/
def peerPart : Nat := 0x80000

/-- The table number that stands for working memory in the reads of an aperture: no table has it. -/
def workTable : Nat := 0x10000

/-- The accesses, one a part, that ask a peer for `n` bytes at an offset of what it has granted, or write `data` there over `old`. -/
def peerParts (peer off : Nat) (write : Bool) (n : Nat) (data old : List Byte) (table row : Nat) : List PeerAccess :=
  (List.range (ceilDiv n peerPart)).map fun i =>
    let o := peerPart * i
    ⟨⟨peer, off + o, write, min peerPart (n - o), (data.drop o).take peerPart⟩, (old.drop o).take peerPart, false, table, row⟩

/-- Record an access to an aperture (R314). -/
def State.peerAccess (s : State) (k : Nat) (write : Bool) (len : Nat) (data old : List Byte) (table row : Nat) : State :=
  match apertureOf k with
  | none => s
  | some (f, a, off) =>
    match SMap.find a (s.func f).apertures with
    | none => s
    | some ap =>
      let ap : Aperture := { ap with pending := ap.pending ++ peerParts ap.peer (ap.base + off) write len data old table row }
      s.modFunc f fun g => { g with apertures := SMap.insert a ap g.apertures }

/-- Store bytes at a key; a store to borrowed memory is an access that the lender has to answer (R314). -/
def State.poke (s : State) (k : Nat) (bs : List Byte) : State :=
  if k < apBase then s.put' k bs
  else (s.peerAccess k true bs.length bs (Mem.read s.mem k bs.length) 0 0).put' k bs

/-- The part of `bs` at `k` that falls in [b, b + l), with its offset in that range. -/
def overlap (k : Nat) (bs : List Byte) (b l : Nat) : Nat × List Byte :=
  let lo := max k b
  let hi := min (k + bs.length) (b + l)
  (lo - b, (bs.drop (lo - k)).take (hi - lo))

/-- Store bytes at a key and at every mirror of it (R248). -/
def State.store (s : State) (k : Nat) (bs : List Byte) : State :=
  s.mirrorMap.foldl (fun s (b, l, m) =>
    let (o, part) := overlap k bs b l
    if part.isEmpty then s else s.poke (m + o) part) (s.poke k bs)

/-- The bytes at a key. -/
def State.load (s : State) (k n : Nat) : List Byte := Mem.read s.mem (s.serve k n) n

/-- Read device memory of a function; absent addresses read zero (R4). -/
def State.devRead (s : State) (f x n : Nat) : List Byte :=
  match s.key f x with
  | some k => s.load k n
  | none => zeros n

/-- Write device memory of a function; absent addresses drop the write (R4). -/
def State.devWrite (s : State) (f x : Nat) (bs : List Byte) : State :=
  match s.key f x with
  | some k => s.store k bs
  | none => s

/-! ## Counters (R448 to R452) -/

def ixMod (k : Nat) : Nat := k
def State.ixDie (s : State) (d k : Nat) : Nat := 64 + 128 * s.locDie d + k
def State.ixPort (s : State) (p k : Nat) : Nat := 576 + 16 * (if s.quad then p % 6 else p) + k
def State.ixClu (s : State) (d c k : Nat) : Nat := 1024 + 32 * (20 * s.locDie d + c) + k
def State.ixCore (s : State) (i k : Nat) : Nat := 4096 + 64 * (if s.quad then i % 160 else i) + k

/-- R448, R449: the counter after an addition, and whether it has just saturated. -/
def Ctr.add (c : Ctr) (n : Nat) : Ctr × Bool :=
  if c.count + n ≤ 2 ^ 48 - 1 then ({ c with count := c.count + n }, false)
  else (⟨2 ^ 48 - 1, true⟩, !c.sat)

/-- The value a counter reads as (R448). -/
def Ctr.value (c : Ctr) : Nat := c.count + 2 ^ 63 * b2n c.sat

/-- A counter of a function. -/
def Func.ctr (g : Func) (i : Nat) : Ctr := (SMap.find i g.ctrs).getD ⟨0, false⟩

/-- Add to a counter, keeping counters that stand at zero out of the list. -/
def Func.addCtr (g : Func) (i n : Nat) : Func × Bool :=
  let (c, sat) := (g.ctr i).add n
  (if n = 0 then g else { g with ctrs := SMap.insert i c g.ctrs }, sat)

/-! ## Notification records (R453, R454) -/

/-- The 32 bytes of a record (Table 21.2). -/
def Note.bytes (n : Note) : List Byte :=
  leBytes 8 n.count ++ leBytes 4 n.seq ++ leBytes 1 n.source ++ leBytes 1 n.kind ++ leBytes 2 n.inst ++
    leBytes 8 n.arg0 ++ leBytes 8 n.arg1

/-- Whether records go to a function's ring now (R453). -/
def State.ringOpen (s : State) (f : Nat) : Bool :=
  let r := (s.func f).note
  r.en && s.inMemory f r.base 0x20000

/-- Write one record to the ring, with the interrupts of R453. -/
def State.ringWrite (s : State) (f : Nat) (n : Note) : State :=
  let r := (s.func f).note
  let s := s.devWrite f (r.base + 32 * (r.written % 4096)) n.bytes
  let s := s.modFunc f fun g => { g with note := { g.note with written := (g.note.written + 1) % 2 ^ 32 } }
  let s := { s with side := { s.side with ibis := s.side.ibis + 1 } }.put (.ibi 1)
  if r.irqEn then s.interrupt f r.vector else s

/-- Hold a record while the ring is closed: the 64 most recent stay. Answers how many were lost. -/
def State.holdNote (s : State) (f : Nat) (n : Note) : State × Nat :=
  let l := (s.func f).note.held ++ [n]
  (s.modFunc f fun g => { g with note := { g.note with held := l.drop (l.length - 64) } }, l.length - 64)

/-- Hand a record to a function. -/
def State.giveNote (s : State) (f : Nat) (n : Note) : State × Nat :=
  if s.ringOpen f then (s.ringWrite f n, 0) else s.holdNote f n

/-- The next record of a source: its sequence number and its count (R453). -/
def State.stamp (s : State) (src : Nat) : State × Nat × Nat :=
  if src < 4 then
    let q := (s.die src).noteSeq + 1
    (s.modDie src fun d => { d with noteSeq := q }, q, (s.die src).clk)
  else ({ s with noteSeq := s.noteSeq + 1 }, s.noteSeq + 1, s.clk)

/-- Emit a record of source `src` to the given functions; NOTE_DROP counts what is lost, and its own saturation emits one more
record (R449, R453). -/
def State.emitTo (s : State) (fs : List Nat) (src kind inst a0 a1 : Nat) : State :=
  let (s, q, c) := s.stamp src
  let n : Note := ⟨c, q % 2 ^ 32, src, kind, inst, a0, a1⟩
  fs.foldl (fun s f =>
    let (s, lost) := s.giveNote f n
    let (g, sat) := (s.func f).addCtr 32 lost
    let s := s.modFunc f fun _ => g
    if sat then
      let (s, q, c) := s.stamp 15
      (s.giveNote f ⟨c, q % 2 ^ 32, 15, 1, 0, 32, 0⟩).1
    else s) s

/-- A record about a die goes to the die's function, a module-wide record to every function (R453). -/
def State.emit (s : State) (src kind inst a0 a1 : Nat) : State :=
  s.emitTo (if src < 4 then [s.fnOf src] else s.fns) src kind inst a0 a1

/-- Write the held records, oldest first, once the ring is open (R453). -/
def State.flushNotes (s : State) (f : Nat) : State :=
  if s.ringOpen f then
    let held := (s.func f).note.held
    held.foldl (fun s n => s.ringWrite f n)
      (s.modFunc f fun g => { g with note := { g.note with held := [] } })
  else s

/-- Add `n` to a counter of a function; a saturation emits a kind-1 record of the source given (R449). -/
def State.count (s : State) (f src i n : Nat) : State :=
  let (g, sat) := (s.func f).addCtr i n
  let s := s.modFunc f fun _ => g
  if sat then s.emitTo [f] src 1 0 i 0 else s

/-- Count into the module counters of one function. -/
def State.cntMod (s : State) (f k : Nat) (n : Nat := 1) : State := s.count f 15 (ixMod k) n
/-- Count a module-wide event: in Quad, in every function's catalogue. -/
def State.cntAll (s : State) (k : Nat) (n : Nat := 1) : State := s.fns.foldl (fun s f => s.count f 15 (ixMod k) n) s
def State.cntDie (s : State) (d k : Nat) (n : Nat := 1) : State := s.count (s.fnOf d) d (s.ixDie d k) n

/-- The level in force on a die (R323, R325). -/
def Power.inForce (p : Power) : Nat := if p.hwLevel then 38 else p.applied

def State.modPower (s : State) (d : Nat) (h : Power → Power) : State := s.modDie d fun x => { x with power := h x.power }

/-! ## Fault records (R350) -/

/-- The step number in progress, or all ones. -/
def Func.stepInWork (g : Func) : Nat := match g.cur with | some st => st.n | none => 2 ^ 64 - 1

/-- Write a fault record in the ring of die `d`; the sequence number it got. -/
def State.fault (s : State) (d mech scope inst resp : Nat) : State × Nat :=
  let x := s.die d
  let seq := (x.fltSeq + 1) % 2 ^ 32
  let r : FaultRec := ⟨x.clk, seq, mech, scope, inst, resp, (s.func (s.fnOf d)).stepInWork⟩
  (s.modDie d fun x => { x with fltSeq := seq, faults := SMap.insert (x.fltSeq % 256) r x.faults }, seq)

/-- A fault record that only reports. -/
def State.note (s : State) (d mech scope inst resp : Nat) : State := (s.fault d mech scope inst resp).1

/-- The die that detects and records: the given one, or the lowest die in service when that one is not. -/
def State.witness (s : State) (d : Nat) : Nat :=
  if s.up d then d else (((List.range 4).filter s.up).head?).getD d

/-- What the online mechanisms of a die have exercised counts as tested (R347). -/
def State.exercised (s : State) (d : Nat) (rs : List Resource) : State :=
  s.modDie d fun x =>
    { x with bistTimes := rs.foldl (fun l r => upsert (fun (y : Resource × Nat) => y.1 = r) (fun _ => (r, x.clk)) (r, x.clk) l) x.bistTimes }

/-- Work of the protected collective domain runs on a die (R336). -/
def State.protect (s : State) (d : Nat) : State :=
  s.modPower d fun p => { p with protRan := p.protRan || decide (20 ≤ p.inForce) }

/-- A processor stops: its cluster's Skink goes on with the slice in work, and begins no other (Table 17.4). -/
def State.pauseProc (s : State) : Proc → State
  | .control d c => s.modClu d c fun x => { x with skink := { x.skink with inWork := x.skink.dealt.head? } }
  | _ => s

/-- The start slot of a cluster after a barrier is still to come (R334). -/
def State.early (s : State) (d c : Nat) : Bool := (s.die d).drone.unstarted.contains c

/-- The same for work of step `n`: what a step ahead has in work does not wait for the barrier of the step before it. -/
def State.earlyStep (s : State) (f d c n : Nat) : Bool :=
  s.early d c && (match (s.func f).cur with | some st => decide (st.n = n) | none => false)

def State.cntPort (s : State) (p k : Nat) (n : Nat := 1) : State := s.count (s.fnOf (p / 6)) (p / 6) (s.ixPort p k) n
def State.cntClu (s : State) (d c k : Nat) (n : Nat := 1) : State := s.count (s.fnOf d) d (s.ixClu d c k) n
def State.cntCore (s : State) (i k : Nat) (n : Nat := 1) : State :=
  s.count (s.fnOf (coreDie i)) (coreDie i) (s.ixCore i k) n

/-- The violation counters (Table 16.10). -/
def State.violOor (s : State) (f : Nat) (n : Nat := 1) : State := s.cntMod f 16 n
def State.violDesc (s : State) (f : Nat) (n : Nat := 1) : State := s.cntMod f 17 n
def State.violLock (s : State) (f : Nat) : State := s.cntMod f 18
def State.violHdr (s : State) (f : Nat) : State := s.cntMod f 19

/-- The counter of an instance that is absent: of a die out of service or one of its ports, of a disabled cluster, of a core that is fused off
or went with its cluster (R21, R452). -/
def State.ctrAbsent (s : State) (f i : Nat) : Bool :=
  let die (d : Nat) : Bool := !s.up (s.physDie f d)
  if i < 64 then false
  else if i < 576 then die ((i - 64) / 128)
  else if i < 1024 then die ((i - 576) / 16 / 6)
  else if i < 4096 then !s.cluUp (s.physDie f ((i - 1024) / 32 / 20)) ((i - 1024) / 32 % 20)
  else if i < 65536 then s.coreState ((i - 4096) / 64 + (if s.quad then 160 * f else 0)) = 0
  else die ((i - 65536) / 256 % 4)

/-- The counter a catalogue index reads: SHARD_LOAD counters lie with their table (R452). -/
def State.ctrAt (s : State) (f i : Nat) : Nat :=
  if s.ctrAbsent f i then 0
  else if i < 65536 then ((s.func f).ctr i).value
  else
    let k := i - 65536
    match (s.func f).loads.find? fun (t, d, sh, _) => t = k / 1024 && d = k / 256 % 4 && sh = k % 256 with
    | some (_, _, _, n) => if n ≤ 2 ^ 48 - 1 then n else 2 ^ 48 - 1 + 2 ^ 63
    | none => 0

/-- Clear a counter (R450); SHARD_LOAD counters stay as they are (R452). -/
def State.ctrClear (s : State) (f i : Nat) : State := s.modFunc f fun g => { g with ctrs := SMap.erase i g.ctrs }

/-! ## The change journal (R456) -/

/-- Record a change; the sequence number it received. -/
def State.journalize (s : State) (opcode source func detail : Nat) : State × Nat :=
  let j := s.journal
  let e : JrnEntry := ⟨j.nextSeq, opcode, source, func, detail, s.clk⟩
  ({ s with journal := { j with ring := SMap.insert ((j.nextSeq - 1) % 4096) e j.ring, nextSeq := j.nextSeq + 1 } }, j.nextSeq)

/-- The 24 bytes of an entry (Table 21.4). -/
def JrnEntry.bytes (e : JrnEntry) : List Byte :=
  leBytes 6 e.seq ++ leBytes 2 e.opcode ++ leBytes 1 e.source ++ leBytes 1 e.func ++ leBytes 2 0 ++ leBytes 4 e.detail ++
    leBytes 8 e.count

/-- The source code of a command (Table 16.1). -/
def srcCode : Src → Nat
  | .queue q => q % 64
  | .peer _ port => 64 + port
  | .sideband => 96
  | .host => 97

end Sys2Proof.Machine
end

