-- ==== Sys2Proof/Machine/Wire.lean ====
section
/-!
DEFINITION. Messages as bytes and their sending: the headers of Tables 5.3, 6.6, 11.2 and 19.3, the flit CRC (R414), the choice
of a port (R419) and the sequence numbers of an endpoint (R417, R421).
-/
namespace Sys2Proof.Machine

def flag (b : Bool) (i : Nat) : Nat := 2 ^ i * b2n b

/-! ## Chorus messages (Table 11.2) -/

def chorusHeader (m : ChorusMsg) : List Byte :=
  leBytes 1 m.kind ++ leBytes 1 m.fmt ++
  leBytes 1 (flag m.nf 0 + flag m.carry 1 + flag m.resend 2 + flag m.skip 3 + flag m.nack 4) ++ zeros 1 ++
  leBytes 4 m.groupTag ++ leBytes 8 m.step ++ leBytes 2 m.rank ++ leBytes 2 m.subject ++ leBytes 4 m.shard ++
  leBytes 4 m.elems ++ leBytes 1 m.pgroup ++ zeros 3 ++ leBytes 8 m.checksum ++ leBytes 4 m.normS.toNat ++
  leBytes 4 m.normE.toNat ++ leBytes 2 m.participating ++ zeros 2 ++ leBytes 8 m.maskSum ++ zeros 4

def chorusEncode (m : ChorusMsg) : List Byte := chorusHeader m ++ m.payload

def chorusParse (b : List Byte) : ChorusMsg :=
  let fl := at' b 2 1
  { kind := at' b 0 1, fmt := at' b 1 1, nf := bit fl 0, carry := bit fl 1, resend := bit fl 2, skip := bit fl 3,
    nack := bit fl 4, groupTag := at' b 4 4, step := at' b 8 8, rank := at' b 16 2, subject := at' b 18 2,
    shard := at' b 20 4, elems := at' b 24 4, pgroup := at' b 28 1, checksum := at' b 32 8,
    normS := BitVec.ofNat 32 (at' b 40 4), normE := BitVec.ofNat 32 (at' b 44 4), participating := at' b 48 2,
    maskSum := at' b 52 8, payload := b.drop 64 }

/-! ## Table-maintenance messages (Table 6.6) -/

def tableMsgHeader (m : TableMsg) : List Byte :=
  leBytes 1 m.kind ++ leBytes 1 (flag m.lastRound 0 + flag m.held 1) ++ leBytes 1 m.table ++ zeros 1 ++
  leBytes 2 m.oldOwner ++ leBytes 2 m.newOwner ++ leBytes 8 m.row ++ leBytes 1 m.shard ++ leBytes 3 m.slot ++
  leBytes 2 m.version ++ leBytes 2 (ceilDiv m.payload.length 64) ++ leBytes 8 m.step

def tableMsgEncode (m : TableMsg) : List Byte := tableMsgHeader m ++ m.payload

def tableMsgParse (b : List Byte) : TableMsg :=
  { kind := at' b 0 1, lastRound := bit (at' b 1 1) 0, held := bit (at' b 1 1) 1, table := at' b 2 1,
    oldOwner := at' b 4 2, newOwner := at' b 6 2, row := at' b 8 8, shard := at' b 16 1, slot := at' b 17 3,
    version := at' b 20 2, step := at' b 24 8, payload := b.drop 32 }

/-! ## Bellows messages (Table 5.3) -/

/-- Bytes of one element of the array that a message carries (R120): an XA64 integer clamped to 64 bits, a pair of FP32 values,
or one value of the format. -/
def bellowsWidth (kind op fmt : Nat) (raw : Bool) : Nat :=
  if fmt = 8 then 8
  else if fmt = 0 then (if kind = 3 && !raw && op ≠ 3 then 8 else 4)
  else 2

/-- Whether winner IDs travel with the data under MAX: one an element, and one for a raw row (R120, R128). -/
def bellowsHasWinners (kind op : Nat) : Bool := op = 3 && (kind = 3 || kind = 4)

/-- Whether the message lists rows: requests and gradients do. -/
def bellowsLists (kind : Nat) : Bool := kind = 0 || kind = 1 || kind = 4

def bellowsHeader (m : BellowsMsg) : List Byte :=
  leBytes 1 m.kind ++ leBytes 1 m.op ++ leBytes 1 m.fmt ++ leBytes 1 (flag m.raw 0 + flag m.nf 1) ++
  leBytes 2 m.table ++ leBytes 2 m.owner ++ leBytes 4 m.req ++ leBytes 1 m.cluster ++ zeros 1 ++ leBytes 2 m.desc ++
  leBytes 4 m.entry ++ leBytes 4 m.count ++ leBytes 8 m.step

/-- The bytes of a Bellows message (R123). DESIGN CHOICE (log 83): the winner IDs of a MAX partial or gradient are 8-byte entries between
the rows and the data; the rule gives them no place. -/
def bellowsEncode (m : BellowsMsg) : List Byte :=
  bellowsHeader m ++ m.rows.flatMap (leBytes 8) ++ m.winners.flatMap (leBytes 8) ++
    m.data.flatMap (leBytes (bellowsWidth m.kind m.op m.fmt m.raw))

/-- `n` numbers of `w` bytes each. -/
def natsOf (w : Nat) : (n : Nat) → List Byte → List Nat
  | 0, _ => []
  | n + 1, b => leNat (b.take w) :: natsOf w n (b.drop w)

def bellowsParse (b : List Byte) : BellowsMsg :=
  let kind := at' b 0 1
  let op := at' b 1 1
  let fmt := at' b 2 1
  let raw := bit (at' b 3 1) 0
  let count := at' b 20 4
  let nrows := if bellowsLists kind then count else 0
  let rest := b.drop (32 + 8 * nrows)
  let w := bellowsWidth kind op fmt raw
  let win := bellowsHasWinners kind op
  let n := if win && raw then (rest.length - 8) / w else rest.length / (if win then w + 8 else w)
  let nwin := if win then (if raw then 1 else n) else 0
  { kind := kind, op := op, fmt := fmt, raw := raw, nf := bit (at' b 3 1) 1, table := at' b 4 2, owner := at' b 6 2,
    req := at' b 8 4, cluster := at' b 12 1, desc := at' b 14 2, entry := at' b 16 4, count := count, step := at' b 24 8,
    rows := natsOf 8 nrows (b.drop 32), winners := natsOf 8 nwin rest, data := natsOf w n (rest.drop (8 * nwin)) }

/-! ## Any message -/

/-- PROTO (Table 19.3). -/
def WireMsg.proto : WireMsg → Nat
  | .zcp _ => 0
  | .chorus _ => 1
  | .bellows _ => 2
  | .tableMaint _ | .routed _ => 3
  | .peerReq _ | .peerResp _ => 4
  | .grantReq _ | .grantReply _ _ => 5
  | .delivered _ => 6

/-- The virtual channel of a message (Table 19.4). -/
def WireMsg.vc : WireMsg → Nat
  | .chorus m => if m.kind = 0 || m.kind = 7 then 1 else if m.kind = 1 then 2 else 0
  | .bellows m => if m.kind ≤ 1 then 3 else if m.kind ≤ 3 then 4 else 5
  | .peerReq _ => 6
  | .peerResp _ => 7
  | _ => 0

/-- The protocol message after the header. A write routed to a peer owner takes the form of FWD_WRITE; peer-memory and grant
payloads have no layout in the spec (log 9). -/
def WireMsg.bytes : WireMsg → List Byte
  | .zcp d => d
  | .chorus m => chorusEncode m
  | .bellows m => bellowsEncode m
  | .tableMaint m => tableMsgEncode m
  | .peerReq m | .peerResp m => (Config.peerPayload m.write m.offset m.len m.data).take 0x100000
  | .grantReq g => (Config.peerPayload false 0 g []).take 0x100000
  | .grantReply g b => (Config.peerPayload true b g []).take 0x100000
  | .routed m =>
    tableMsgEncode ⟨5, false, false, m.table, 0xFFFF, 0xFFFF, m.row, 0, 0, 0, m.step, leBytes 4 m.first ++ leBytes 4 m.count ++ m.data⟩
  | .delivered q => leBytes 4 q

/-- The message header of Table 19.3 and the protocol message. -/
def messageBytes (dest src : Nat) (proto ddie sdie seq : Nat) (body : List Byte) : List Byte :=
  leBytes 8 dest ++ leBytes 8 src ++ leBytes 1 proto ++ leBytes 1 ddie ++ leBytes 1 sdie ++ zeros 1 ++ leBytes 4 seq ++
    leBytes 4 body.length ++ zeros 4 ++ body

/-! ## Flits (R414) -/

def crcPoly : Nat := 0x42F0E1EBA9EA3693

/-- One bit of CRC-64, most significant first. -/
def crcBit (c : Nat) : Nat := if c < 2 ^ 63 then 2 * c else (2 * c % 2 ^ 64) ^^^ crcPoly

def crcStep : (n c : Nat) → Nat
  | 0, c => c
  | n + 1, c => crcStep n (crcBit c)

/-- CRC-64 of bytes 0 to 247: initial value all ones, result inverted (R414). -/
def crc64 (b : List Byte) : Nat :=
  (2 ^ 64 - 1) ^^^ b.foldl (fun c x => crcStep 8 (c ^^^ (2 ^ 56 * x.toNat))) (2 ^ 64 - 1)

/-- A flit from its fields (Table 19.2). -/
def flitBytes (type vc : Nat) (first last : Bool) (seq : Nat) (ack : Option Nat) (credVc cred : Nat) (payload : List Byte) :
    List Byte :=
  let body := leBytes 1 (type + vc * 16 + flag first 7) ++ leBytes 1 (flag last 0) ++ leBytes 2 seq ++
    leBytes 2 (match ack with | some a => a + 2 ^ 15 | none => 0) ++ leBytes 2 (2 ^ 13 * credVc + cred) ++
    payload.take 240 ++ zeros (240 - payload.length)
  body ++ leBytes 8 (crc64 body)

/-! ## Ports and endpoints -/

/-- A port that carries messages: up, or retraining with its flits kept (R416). -/
def Port.inService (p : Port) : Bool := p.en && (p.state = 2 || p.state = 3)

/-- The ports a message from die `sdie` may leave by (R419). -/
def State.exits (s : State) (f sdie : Nat) : List Nat :=
  let on (i : Nat) : Bool := (s.port i).inService && s.up (i / 6)
  let own := ((List.range 6).map (sdie * 6 + ·)).filter on
  if own.isEmpty then ((List.range 24).filter fun i => s.fnOf (i / 6) = f).filter on else own

/-- The function that owns an endpoint address, if it is one of the module's (R418). -/
def State.endpointOf (s : State) (addr : Nat) : Option Nat :=
  s.fns.find? fun f => (s.func f).ep.fabricId = addr && addr ≠ 0

/-- Put a message on the queue of its virtual channel at the port that R419 picks; none in service holds it, and so does a FABRIC_ID of
0 (R418). -/
def State.queueOut (s : State) (m : Sent) (bytes : List Byte) : State × Option Nat :=
  let ps := if (s.func m.func).ep.fabricId = 0 then [] else s.exits m.func m.die
  match ps[m.seq % ps.length]? with
  | some p =>
    (s.modPort p fun q =>
      { q with queues := modNth (fun l => l ++ [⟨bytes, false, { m with port := some p }⟩]) m.vc q.queues }, some p)
  | none => (s, none)

/-- The bytes of a message with its header. SDIE and DDIE are numbers within the endpoint. -/
def State.sentBytes (s : State) (m : Sent) : List Byte :=
  messageBytes m.dest (s.func m.func).ep.fabricId m.msg.proto m.ddie (s.locDie m.die) m.seq m.msg.bytes

def seqKey (k : Nat) (vc : Nat) : List (Nat × Nat × Nat) → Nat
  | [] => 0
  | (a, v, n) :: l => if a = k && v = vc then n else seqKey k vc l

def setSeq (k vc n : Nat) (l : List (Nat × Nat × Nat)) : List (Nat × Nat × Nat) :=
  upsert (fun (a, v, _) => a = k && v = vc) (fun _ => (k, vc, n)) (k, vc, n) l

/-- The port number that stands for the die-to-die links, on which the functions of one module reach one another (R26). -/
def d2dPort : Nat := 24

/-- Send a message of function `f`, from its die `sdie`, to an endpoint (R417 to R421). To another function of the module it
goes over the die-to-die links with the same order and acknowledgement (R26); a function whose die is lost answers no more (R28). While
FABRIC_ID is 0 nothing is sent (R418). -/
def State.send (s : State) (f sdie dest ddie : Nat) (msg : WireMsg) : State :=
  let ep := (s.func f).ep
  if ep.fabricId = 0 then s
  else
    let vc := msg.vc
    let q := seqKey dest vc ep.nextSeq
    let s := s.modFunc f fun g => { g with ep := { g.ep with nextSeq := setSeq dest vc ((q + 1) % 2 ^ 32) g.ep.nextSeq } }
    match s.endpointOf dest with
    | some g =>
      let s := if vc = 0 then s.modFunc f fun h =>
          { h with ep := { h.ep with unacked := h.ep.unacked ++ [⟨f, dest, sdie, ddie, vc, q, some d2dPort, msg⟩] } } else s
      if (s.upDies g).isEmpty then s
      else s.modFunc g fun h =>
        { h with ep := { h.ep with inbox := h.ep.inbox ++ [⟨ep.fabricId, dest, msg.proto, ddie, vc, q, d2dPort, msg.bytes⟩] } }
    | none =>
      let m : Sent := ⟨f, dest, sdie, ddie, vc, q, none, msg⟩
      let (s, p) := s.queueOut m (s.sentBytes m)
      s.modFunc f fun g =>
        { g with ep := { g.ep with unacked := if vc = 0 || p.isNone then g.ep.unacked ++ [{ m with port := p }] else g.ep.unacked } }

/-- Kinds of table-maintenance message that take the ordered path from an old owner to a new one (R149): copies, forwarded writes,
forwarded listings and FWD_END. -/
def pathKind (k : Nat) : Bool := [3, 4, 5, 7, 10].contains k

/-- Whether a message may be taken up now (R149, R421): on the path from an old owner to a new one, and in what a peer sends with one
protocol on virtual channel 0, messages are taken up in the order sent. A message that stands on neither has just come. -/
def State.comes (s : State) (f : Nat) (msg : WireMsg) : Bool :=
  if s.links.any fun l => l.func = f && l.msg = msg then
    match msg with
    | .tableMaint m =>
      let onPath (l : Local) : Bool :=
        match l.msg with
        | .tableMaint x => l.func = f && pathKind x.kind && x.oldOwner = m.oldOwner && x.newOwner = m.newOwner && x.table = m.table
        | _ => false
      !pathKind m.kind || (match s.links.find? onPath with | some l => l.msg = msg | none => true)
    | _ => true
  else
    let inbox := (s.func f).ep.inbox
    match inbox.find? fun r => r.proto = msg.proto && r.data = msg.bytes with
    | none => true
    | some r => r.vc ≠ 0 || inbox.find? (fun x => x.proto = msg.proto && x.vc = 0 && x.src = r.src) == some r

/-- A message from die `src` to a die of the same function: over the die-to-die links (R123, R150). -/
def State.sendLocal (s : State) (f src die : Nat) (msg : WireMsg) : State := { s with links := s.links ++ [⟨f, src, die, msg⟩] }

/-- A message has crossed the die-to-die link between two dies, which exercises it at both ends (R18, R347). -/
def State.crossed (s : State) (a b : Nat) : State :=
  if a = b then s else (s.exercised a [.link a ((a ^^^ b) - 1)]).exercised b [.link b ((a ^^^ b) - 1)]

/-- Take up a message that has arrived: it leaves the links or the inbox. The endpoint it came from is answered, if it came
from a peer. -/
def State.take (s : State) (f : Nat) (msg : WireMsg) : State × Option Nat :=
  match s.links.find? fun l => l.func = f && l.msg = msg with
  | some l => ({ s with links := eraseOne l s.links }.crossed l.src l.die, none)
  | none =>
    let b := msg.bytes
    match (s.func f).ep.inbox.find? fun r => r.proto = msg.proto && r.data = b with
    | some r =>
      let s := s.modFunc f fun g => { g with ep := { g.ep with inbox := eraseOne r g.ep.inbox } }
      (match if r.port = d2dPort then s.endpointOf r.src else none with | some g => s.crossed g f | none => s, some r.src)
    | none => (s, none)

end Sys2Proof.Machine
end

