-- ==== Sys2Proof/Machine/Operands.lean ====
section
/-!
DEFINITION. Operand forms: the fields of a submission (Table 16.2), of a layer descriptor (Table 3.2), of a plan (Table 3.1)
and of a table (Table 6.1), each read from the bytes that hold it.
-/
namespace Sys2Proof.Machine

/-! ## Submissions -/

/-- `len` bytes of the submission header from offset `off` in the small parameters, bytes 24 to 63 (Table 16.2). -/
def hb (c : Submission) (off len : Nat) : Nat := at' c.small (off - 24) len

/-- A submission from the bytes of its slot or message (R366): the header and PARAM_LEN inline bytes, at most 448. -/
def parseSubmission (src : Src) (func : Nat) (b : List Byte) : Submission :=
  let len := at' b 8 4
  { src := src, func := func, opcode := at' b 0 2, version := at' b 2 1, fence := bit (at' b 3 1) 0,
    noReply := bit (at' b 3 1) 1, stepTagged := bit (at' b 3 1) 2, tag := at' b 4 4, paramLen := len,
    dieMask := fld (at' b 12 4) 0 4, cluMask := fld (at' b 12 4) 4 20, step := at' b 16 8,
    small := (b.drop 24).take 40, params := (b.drop 64).take (min len 448) }

/-! ## Layer descriptors -/

/-- A layer descriptor: 128 bytes (R72). -/
abbrev Desc := List Byte

def Desc.opkind (D : Desc) : Nat := at' D 0 2
def Desc.phase (D : Desc) : Nat := at' D 2 1
def Desc.save (D : Desc) : Bool := bit (at' D 3 1) 0
def Desc.noGrad (D : Desc) : Bool := bit (at' D 3 1) 1
def Desc.forceTerm (D : Desc) : Bool := bit (at' D 3 1) 2
def Desc.stoch (D : Desc) : Bool := bit (at' D 3 1) 3
def Desc.dropout (D : Desc) : Bool := bit (at' D 3 1) 4
def Desc.pgroup (D : Desc) : Nat := at' D 4 1
def Desc.split (D : Desc) : Nat := at' D 5 1
def Desc.actFmt (D : Desc) : Nat := fld (at' D 6 1) 0 4
def Desc.wgtFmt (D : Desc) : Nat := fld (at' D 6 1) 4 4
def Desc.outFmt (D : Desc) : Nat := fld (at' D 7 1) 0 4
def Desc.engine (D : Desc) : Nat := fld (at' D 7 1) 4 2
def Desc.dep0 (D : Desc) : Nat := at' D 8 2
def Desc.dep1 (D : Desc) : Nat := at' D 10 2
def Desc.rows (D : Desc) : Nat := at' D 12 4
def Desc.cols (D : Desc) : Nat := at' D 16 4
def Desc.vectors (D : Desc) : Nat := at' D 20 4
def Desc.inAddr (D : Desc) : Nat := at' D 24 8
def Desc.wgtAddr (D : Desc) : Nat := at' D 32 8
def Desc.tableId (D : Desc) : Nat := at' D 32 2
def Desc.outAddr (D : Desc) : Nat := at' D 40 8
def Desc.saveAddr (D : Desc) : Nat := at' D 48 8
def Desc.ftable (D : Desc) : Nat := at' D 56 1
/-- `len` bytes of the descriptor from offset `off` of OPARAM's numbering (bytes 64 to 127). -/
def Desc.op (D : Desc) (off len : Nat) : Nat := at' D off len

/-- The phase number of a descriptor's PHASE (Table 3.4). -/
def phaseOf : Nat → Phase
  | 0 => .s
  | 1 => .g
  | 2 => .f
  | _ => .l

/-- The number a phase has in NF_PHASE, LAST_PHASE and MOD_STEPSTAT (Table 3.9). -/
def phaseNo : Phase → Nat
  | .s => 1
  | .g => 2
  | .f => 3
  | .l => 4
  | .b1 => 5
  | .b2 => 6
  | .r => 7
  | .u => 8

/-! ## Plans (Table 3.1) -/

def Plan.force (p : Plan) : Bool := bit (at' p.params 1 1) 0
def Plan.runahead (p : Plan) : Bool := bit (at' p.params 1 1) 1
def Plan.jobSeed (p : Plan) : Nat := at' p.params 16 8
def Plan.group (p : Plan) : Nat := at' p.params 24 4
def Plan.pgCount (p : Plan) : Nat := at' p.params 28 2
def Plan.recCount (p : Plan) : Nat := at' p.params 30 2
def Plan.recAddr (p : Plan) : Nat := at' p.params 32 8
def Plan.desc (p : Plan) (i : Nat) : Desc := p.descs.getD i []
/-- SAVE_ADDR of a descriptor: its own, or the area that the module allocated (R237). -/
def Plan.saveAt (p : Plan) (i : Nat) : Nat := let a := (p.desc i).saveAddr; if a = 0 then p.saves.getD i 0 else a

/-! ## Tables (Table 6.1, R138) -/

def Table.id (t : Table) : Nat := at' t.params 0 1
def Table.fmt (t : Table) : Nat := at' t.params 1 1
def Table.flags (t : Table) : Nat := at' t.params 2 1
def Table.trainable (t : Table) : Bool := bit t.flags 0
def Table.isBacked (t : Table) : Bool := bit t.flags 1
def Table.autoMig (t : Table) : Bool := bit t.flags 2
def Table.gexp (t : Table) : Int := sext 8 (at' t.params 3 1)
def Table.elems (t : Table) : Nat := at' t.params 4 2
def Table.tallyLog2 (t : Table) : Nat := at' t.params 6 1
def Table.rows (t : Table) : Nat := at' t.params 8 8
def Table.stateBytes (t : Table) : Nat := at' t.params 16 4
def Table.myPos (t : Table) : Nat := at' t.params 22 2
def Table.N (t : Table) : Nat := t.owners.length
def Table.width (t : Table) : Nat := if t.fmt = 0 then 4 else 2
def Table.rowBytes (t : Table) : Nat := t.elems * t.width
/-- The slot size in bytes (R138). -/
def Table.stride (t : Table) : Nat := roundUp (t.rowBytes + t.stateBytes) 64
/-- A row of more than 1 KiB uses two slots (R138). -/
def Table.long (t : Table) : Bool := 1024 < t.rowBytes
def Table.homeSlots (t : Table) : Nat := ceilDiv t.rows (256 * t.N)
def Table.migSlots (t : Table) : Nat := max 16 (ceilDiv t.homeSlots 8)
def Table.slotsPerShard (t : Table) : Nat := (if t.long then 2 else 1) * (t.homeSlots + t.migSlots)

end Sys2Proof.Machine
end

