-- ==== Sys2Proof/Machine/Flags.lean ====
section
/-!
DEFINITION. Step flags (Table 3.9, R86) and the counters behind them: what a computation tallied is added to the counters of
the block that ran it, and a counter that rises during a step sets the step's flag.
-/
namespace Sys2Proof.Machine

def setBit (n i : Nat) : Nat := if bit n i then n else n + 2 ^ i

/-- Set a step flag. -/
def Step.flag (st : Step) (i : Nat) : Step := { st with flags := setBit st.flags i }

def Step.flagIf (st : Step) (b : Bool) (i : Nat) : Step := if b then st.flag i else st

/-- Bit numbers of Table 3.9. -/
def flNfSeen : Nat := 0
def flLaneRng : Nat := 9
def flStaleLr : Nat := 10
def flFrozenSkip : Nat := 11
def flSat : Nat := 12
def flXaSat : Nat := 13
def flAlignDrop : Nat := 14
def flBlockUfl : Nat := 15
def flTileRerun : Nat := 16
def flCoreRetired : Nat := 17
def flFailover : Nat := 18
def flRunahead : Nat := 19
def flPivot : Nat := 20
def flMispick : Nat := 21

/-- The flags that a tally sets in a step whose phase is `ph` (R86). -/
def Step.noteTally (st : Step) (ph : Phase) (t : Tally) : Step :=
  (((((((st.flagIf (t.nf ≠ 0) flNfSeen).flagIf (t.nf ≠ 0) (phaseNo ph)).flagIf (t.sat ≠ 0) flSat).flagIf
    (t.xa ≠ 0) flXaSat).flagIf (t.align ≠ 0) flAlignDrop).flagIf (t.ufl ≠ 0) flBlockUfl).flagIf (t.pivot ≠ 0) flPivot)

/-- The step in work, or the one running ahead. -/
def Func.step? (g : Func) (ahead : Bool) : Option Step := if ahead then g.ahead else g.cur

def Func.setStep (g : Func) (ahead : Bool) (st : Option Step) : Func :=
  if ahead then { g with ahead := st } else { g with cur := st }

def State.modStep (s : State) (f : Nat) (ahead : Bool) (h : Step → Step) : State :=
  s.modFunc f fun g => g.setStep ahead ((g.step? ahead).map h)

/-- Set a flag in the step in work. -/
def State.flagStep (s : State) (f i : Nat) : State := s.modStep f false (·.flag i)

/-- Which step a message of step `n` belongs to: the one running ahead, or the one in work. -/
def Func.isAhead (g : Func) (n : Nat) : Bool :=
  match g.ahead with
  | some st => st.n = n && !(match g.cur with | some c => c.n = n | none => false)
  | none => false

/-- The blocks that keep numerical counters (Table 2.9). -/
inductive Block where
  | matrix (core : Nat)
  | sparse (core : Nat)
  | vector (core : Nat)
  | combiner (die cluster : Nat)
  | chorus (f : Nat)
  | chanter (die : Nat)
  deriving DecidableEq, Repr

/-- Add a tally to the counters of its block (Table 2.9, Tables 9.7, 10.6 and 12.11; R451 for the order). The free-value
counter moves on by what the computation drew. -/
def State.addTally (s : State) (b : Block) (t : Tally) : State :=
  let s := { s with fresh := t.fresh }
  match b with
  | .matrix i => (((s.cntCore i 0 t.ufl).cntCore i 1 t.align).cntCore i 2 t.sat).cntCore i 3 t.nf
  | .sparse i => (((s.cntCore i 32 t.ufl).cntCore i 33 t.align).cntCore i 34 t.sat).cntCore i 35 t.nf
  | .vector i => ((((s.cntCore i 48 t.ufl).cntCore i 49 t.sat).cntCore i 50 t.nf).cntCore i 53 t.domain).cntCore i 54 t.dropped
  | .combiner d c => (((s.cntClu d c 15 t.sat).cntClu d c 16 t.nf).cntClu d c 17 t.xa).cntClu d c 12 t.gradUfl
  | .chorus f => ((s.cntMod f 0 t.sat).cntMod f 1 t.nf).cntMod f 2 t.xa
  | .chanter d =>
    ((((((s.cntDie d 24 t.sat).cntDie d 25 t.nf).cntDie d 20 t.carry).cntDie d 21 t.clamp).cntDie d 30 t.pivot).cntDie d
      32 t.updUfl).cntDie d 33 t.nfElem

/-- Run a computation in a block for a step: its events go to the block's counters and the step's flags. -/
def State.calc {α : Type} (s : State) (b : Block) (f : Nat) (ahead : Bool) (c : N α) : α × State :=
  let (a, t) := c { Tally.zero with fresh := s.fresh }
  let s := s.addTally b t
  (a, match (s.func f).step? ahead with
    | some st => s.modStep f ahead fun x => x.noteTally st.phase t
    | none => s)

end Sys2Proof.Machine
end

