-- ==== Sys2Proof/Machine/Caps.lean ====
section
/-!
DEFINITION. Capability registers and versions (R16 to R22, R356, R386, R423), and the changes of what is present that they
report: a core bypassed or retired, a cluster disabled, a die removed (R19, R20, R22).
-/
namespace Sys2Proof.Machine

/-- ZCP_MINOR of the running scheduler overlay, 0 with ROM (R386). -/
def State.zcpMinor (s : State) : Nat :=
  match (s.fw.getD 2 FwKind.rom).running with
  | some im => fld (at' im 3 1) 0 4
  | none => 0

/-- The highest ZCP version offered: 1.4 in Quad; else 2.m of the overlay, capped by the pin in force, a pin below 2.0 acting
as 2.0 (R356, R386). -/
def State.zcpHigh (s : State) : Nat :=
  if s.quad then 0x14
  else
    let h := 0x20 + s.zcpMinor
    if s.zcpPin = 0 then h else min h (max s.zcpPin 0x20)

/-- The lowest ZCP version (R372). -/
def State.zcpLow (s : State) : Nat := if s.quad then 0x14 else 0x20

/-- The highest Reedway version offered (R356, R423): 2 unless pinned to 1. -/
def State.rwHigh (s : State) : Nat := if s.rwPin = 1 then 1 else 2

/-- The narrowest of the enabled cores listed (MIN_PWIDTH): 0 with none. -/
def State.minWidth (s : State) (cs : List Nat) : Nat :=
  match cs.map fun i => (s.core i).pwidth with
  | [] => 0
  | w :: ws => ws.foldl min w

/-- MOD_CAP of a function. -/
def State.modCap (s : State) (f : Nat) : Word :=
  let cs := (s.diesOf f).flatMap s.coresOf
  let dies := maskOf ((s.diesOf f).filterMap fun d => if s.up d then some (s.locDie d) else none)
  pack [(0, 4, if s.quad then 1 else dies), (8, 10, cs.length), (20, 9, s.minWidth cs), (32, 2, b2n s.quad),
    (40, 8, s.zcpHigh), (48, 8, s.rwHigh), (56, 2, if s.quad then f else 0), (60, 4, 2)]

/-- MOD_PRESENTSEL. -/
def State.presentSel (s : State) : Word :=
  pack [(0, 2, s.cfg.present), (2, 1, b2n (s.cfg.present ≠ b2n s.quad))]

/-- MOD_NUMCAP. -/
def numCap : Word := pack [(0, 8, 2), (8, 8, 1), (16, 5, 0x1F), (24, 4, 8), (32, 8, 23)]

/-- A port that can be used on its die (DIE_CAP.PORTS_EN). -/
def State.dieCap (s : State) (d : Nat) : Word :=
  if s.up d then
    let cs := s.coresOf d
    pack [(0, 2, 1), (8, 20, maskOf ((List.range 20).filter (s.cluUp d))), (28, 8, cs.length), (36, 9, s.minWidth cs),
      (48, 6, maskOf (s.die d).portsOk), (54, 3, maskOf (s.die d).linksOk)]
  else 0

/-- CLU_CAP. -/
def State.cluCap (s : State) (d c : Nat) : Word :=
  pack [(0, 8, maskOf ((List.range 8).filter fun k => s.coreState (coreId d c k) = 1)), (8, 1, b2n (s.cluUp d c)),
    (9, 1, b2n (s.up d && (s.clu d c).vaultOk))]

/-- COR_CAP: CORE_ID is function-local in Quad (R24). -/
def State.corCap (s : State) (i : Nat) : Word :=
  let st := s.coreState i
  let c := s.core i
  pack [(0, 2, st), (8, 9, if st = 1 then c.pwidth else 0), (24, 8, c.bypassed.length),
    (32, 10, if s.quad then i % 160 else i)]

/-- A capability change of a core emits its record (R19, Table 21.3). -/
def State.coreChanged (s : State) (i : Nat) : State := s.emit (coreDie i) 2 i (s.corCap i).toNat 0
def State.cluChanged (s : State) (d c : Nat) : State := s.emit d 2 c (s.cluCap d c).toNat 1
def State.dieChanged (s : State) (d : Nat) : State := s.emit d 2 d (s.dieCap d).toNat 2

/-- Logical columns (R16): the working physical columns in ascending order, the last of which is the checksum column. -/
def Core.working (c : Core) : List Nat := (List.range 264).filter fun p => !c.bypassed.contains p

/-- The checksum column (R16). -/
def Core.checkCol (c : Core) : Nat := (c.working.getLast?).getD 0

/-- The physical column of a logical column (R16). -/
def Core.physCol (c : Core) (j : Nat) : Option Nat := if j < c.pwidth then c.working[j]? else none

end Sys2Proof.Machine
end

