-- ==== Sys2Proof/Machine/Zcp.lean ====
section
/-!
DEFINITION. The command protocol (chapter 16): completions and their delivery, header checks, start order, fences, holds of
step-tagged commands, and the frame in which every ZCP command runs.
-/
namespace Sys2Proof.Machine

/-! ## Status codes (Table 16.5) -/

def stOk : Nat := 0x0000
def stAccepted : Nat := 0x0001
def stBadOpcode : Nat := 0x0010
def stBadParam : Nat := 0x0011
def stVersion : Nat := 0x0012
def stNotPresent : Nat := 0x0013
def stBusy : Nat := 0x0020
def stDeferred : Nat := 0x0030
def stDeferredTimeout : Nat := 0x0031
def stDenied : Nat := 0x0040
def stSkipped : Nat := 0x0050
def stPartial : Nat := 0x0051
def stQuenched : Nat := 0x0060

/-- The opcodes of Table 16.6 with the column "1.4" (MOD_PRESENT is accepted, R25). -/
def opcodes : List (Nat × Bool) :=
  [(0x0001, true), (0x0002, true), (0x0010, true), (0x0011, true), (0x0012, true), (0x0013, true), (0x0101, true),
   (0x0103, true), (0x0104, true), (0x0106, false), (0x0201, true), (0x0202, true), (0x0301, true), (0x0302, true),
   (0x0305, true), (0x0401, true), (0x0405, true), (0x0501, true), (0x0503, true), (0x0504, false), (0x0601, true),
   (0x0602, true), (0x0701, true), (0x0702, true), (0x0703, true), (0x0704, false), (0x0801, true), (0x0901, true),
   (0x0902, true)]

def opDefined (quad : Bool) (o : Nat) : Bool := opcodes.any fun (c, q) => c = o && (q || !quad)

/-! ## Completions -/

/-- The 32 bytes of an entry (Table 16.3): detail and result are padded with zeros to their widths. -/
def Completion.bytes (c : Completion) : List Byte :=
  leBytes 4 c.tag ++ leBytes 2 c.status ++ leBytes 2 c.opcode ++ (c.detail ++ zeros 8).take 8 ++ (c.result ++ zeros 16).take 16

/-- The completion ring that completions are written to: that of before a disabling while one of its completions is owed (R362). -/
def Queue.ring (q : Queue) : Ring := q.old.getD ⟨q.cqBase, q.cqLog2, q.cqHead, q.cqTail, q.phase, q.loc⟩

/-- A queue whose completion ring has moved. -/
def Queue.setRing (q : Queue) (r : Ring) : Queue :=
  if q.old.isSome then { q with old := some r } else { q with cqHead := r.head, cqTail := r.tail, phase := r.phase }

/-- Entries of a ring that hold completions not yet returned. -/
def Ring.used (r : Ring) : Nat := (r.tail + 2 ^ r.log2 - r.head) % 2 ^ r.log2

/-- A completion ring with room for no more (R365). -/
def Queue.cqFull (q : Queue) : Bool := (q.ring.tail + 1) % 2 ^ q.ring.log2 = q.ring.head

/-- Completions that wait to be written to a queue. -/
def Func.waiting (g : Func) (q : Nat) : List Completion := g.done.filter fun c => c.src = .queue q

/-- Hand a completion to its source (R359, R360): a queue's waits for COMPLETION_WRITE and is counted when its ring has no room
for it; a peer's and the sideband's leave at once, followed by the stamp. A queue number beyond the function's queues marks a
command whose completion is discarded (R434). -/
def State.deliver (s : State) (f : Nat) (c : Completion) : State :=
  match c.src with
  | .queue q =>
    let g := s.func f
    match g.queues[q]? with
    | none => s
    | some r =>
      let full := 2 ^ r.ring.log2 - 1 ≤ r.ring.used + (g.waiting q).length
      let s := s.modFunc f fun g => { g with done := g.done ++ [c] }
      if full then s.cntMod f 21 else s
  | .peer e _ => s.send f (if s.quad then f else 0) e 0 (.zcp (c.bytes ++ leBytes 8 (c.jrn % 2 ^ 48)))
  | .sideband => s.put (.mctp (c.bytes ++ leBytes 8 (c.jrn % 2 ^ 48)))
  | .host => s

/-- A completion of a command. `suppressible` marks what NO_REPLY suppresses (R368). -/
def State.answer (s : State) (c : Submission) (status : Nat) (detail result : List Byte) (jrn : Nat)
    (suppressible : Bool) : State :=
  if c.noReply && suppressible then s
  else s.deliver c.func ⟨c.src, c.tag, status, c.opcode, detail, result, jrn⟩

/-- The single completion of a command: OK is suppressed by NO_REPLY, any other status never (R368). -/
def State.single (s : State) (c : Submission) (status : Nat) (detail : List Byte := []) (result : List Byte := [])
    (jrn : Nat := 0) : State :=
  s.answer c status detail result jrn (status = stOk)

/-- An interim completion (R371). -/
def State.interim (s : State) (c : Submission) (status : Nat) : State := s.answer c status [] [] 0 true

/-- The final completion of a command that answered ACCEPTED (R368). -/
def State.final (s : State) (c : Submission) (status : Nat) (detail : List Byte := []) (result : List Byte := [])
    (jrn : Nat := 0) : State :=
  s.answer c status detail result jrn false

/-- Record a command in the change journal (R380); the sequence number goes into its completion's stamp. -/
def State.journalCmd (s : State) (c : Submission) : State × Nat :=
  s.journalize c.opcode (srcCode c.src) c.func c.tag

/-- OK with the journal entry of the change. -/
def State.okJ (s : State) (c : Submission) (detail : List Byte := []) (result : List Byte := []) : State :=
  let (s, j) := s.journalCmd c
  s.single c stOk detail result j

/-- Detail with a header reason in byte 7 (R367). -/
def reason7 (r : Nat) : List Byte := zeros 7 ++ leBytes 1 r

/-! ## Negotiation -/

/-- The version a source has negotiated (R372). -/
def Func.version (g : Func) : Src → Option Nat
  | .queue q => (g.queues.getD q Queue.reset).ver
  | .peer e _ => g.peers.lookup e
  | .sideband => g.sideVer
  | .host => none

/-- Negotiation, start order and FENCE go by endpoint for a peer (R360). -/
def sameSource : Src → Src → Bool
  | .queue a, .queue b => a = b
  | .peer a _, .peer b _ => a = b
  | .sideband, .sideband => true
  | .host, .host => true
  | _, _ => false

/-- A ZCP_HELLO of a source has been fetched and has not started. -/
def Func.helloWaits (g : Func) (src : Src) : Bool := g.fetched.any fun b => b.opcode = 0x0001 && sameSource b.src src

/-- A peer's command makes its negotiation state the latest in use (R360). -/
def Func.touchPeer (g : Func) : Src → Func
  | .peer e _ =>
    match g.peers.lookup e with
    | some v => { g with peers := (g.peers.filter fun x => x.1 ≠ e) ++ [(e, v)] }
    | none => g
  | _ => g

/-! ## Header checks (R367) -/

def usesTargets (o : Nat) : Bool := o = 0x0011 || o = 0x0012 || o = 0x0202 || o = 0x0704

/-- The physical dies of a mask that are present; 0 is every die (Table 16.2). -/
def State.maskDies (s : State) (f m : Nat) : List Nat :=
  (s.upDies f).filter fun d => m = 0 || bit m (s.locDie d)

/-- The clusters that the header masks name and that are present (Table 16.2). -/
def State.maskClusters (s : State) (c : Submission) : List (Nat × Nat) :=
  (s.maskDies c.func c.dieMask).flatMap fun d =>
    ((List.range 20).filter fun k => (c.cluMask = 0 || bit c.cluMask k) && s.cluUp d k).map fun k => (d, k)

/-- The check of a header's version against what its source has negotiated: the reason when it fails (R367, R372). -/
def State.versionFail (s : State) (c : Submission) : Option Nat :=
  let ver := (s.func c.func).version c.src
  if c.opcode = 0x0001 then none
  else if ver.isNone && !(s.quad && c.opcode = 0x0002) then some 3
  else if s.quad && c.version ≠ 0x14 then some 4
  else if (match ver with | some v => c.version / 16 ≠ v / 16 || v % 16 < c.version % 16 | none => false) then some 4
  else none

/-- The first header check that fails: status and reason (R367). A version is judged when a ZCP_HELLO of the source that was fetched before
has started (R372). -/
def State.headerFail (s : State) (c : Submission) : Option (Nat × Nat) :=
  let ver := if (s.func c.func).helloWaits c.src then none else s.versionFail c
  if 448 < c.paramLen then some (stBadParam, 1)
  else if !opDefined s.quad c.opcode then some (stBadOpcode, 0)
  else if ver.isSome then some (stVersion, ver.getD 0)
  else if s.quad && !s.up c.func && c.opcode ≠ 0x0002 then some (stNotPresent, 0)
  else if usesTargets c.opcode && s.quad && fld c.dieMask 1 3 ≠ 0 then some (stBadParam, 2)
  else if usesTargets c.opcode && c.opcode = 0x0704 && (s.maskDies c.func c.dieMask).isEmpty then some (stNotPresent, 0)
  else if usesTargets c.opcode && c.opcode ≠ 0x0704 && (s.maskClusters c).isEmpty then some (stNotPresent, 0)
  else none

/-! ## Start order, fences and holds (R363, R364, R369) -/

/-- The urgent class (R363). -/
def urgent (c : Submission) : Bool :=
  (match c.src with | .queue q => q = 0 | .peer _ _ => true | _ => false) ||
    c.opcode = 0x0010 || c.opcode = 0x0011 || c.opcode = 0x0012

/-- Commands of a function that have started and have no final completion yet. -/
def Func.running (g : Func) : List Submission :=
  g.held ++ g.released ++ g.jobs.map (·.sub) ++ g.asks.filterMap (·.sub) ++ g.stops.map (·.sub) ++ (g.modeJob.toList.map (·.1)) ++ g.rowJobs.map (·.sub) ++
    g.accepted.map (·.2)

/-- The smallest step of the active plan that has not completed (R69). -/
def Func.firstOpen (g : Func) : Option Nat :=
  g.accepted.foldl (fun m a => match m with
    | none => some a.2.step
    | some n => some (min n a.2.step)) none

/-- A step-tagged command of an opcode that R369 holds. -/
def timed (c : Submission) : Bool := c.stepTagged && !([0x0010, 0x0011, 0x0012, 0x0302, 0x0503, 0x0504].contains c.opcode)

/-- Whether a step-tagged command is held (R369): until step t − 1 of the active plan has completed. -/
def Func.holds (g : Func) (c : Submission) : Bool :=
  timed c && (match g.firstOpen with | some m => m < c.step | none => false)

/-- A command that was held for a step, or is to take effect with it, has not completed (R369). The moves of TBL_MIGRATE wait for a step
boundary themselves (R152), so that it keeps a step back only until it has begun (DESIGN CHOICE, log 2). -/
def Func.stepWaits (g : Func) (t : Nat) : Bool :=
  (g.held ++ g.released ++ (g.jobs.map (·.sub)).filter (fun c => c.opcode ≠ 0x0106) ++ g.rowJobs.map (·.sub) ++
    g.modeJob.toList.map (·.1)).any fun c => timed c && c.step = t

/-- Whether a command that has just been taken in has its turn still to come: an earlier one of its source has not started, or FENCE waits
for one that has no final completion (Table 16.2, R364). -/
def Func.queued (g : Func) (c : Submission) : Bool :=
  (g.fetched.any fun b => sameSource b.src c.src) || (c.fence && g.running.any fun b => sameSource b.src c.src)

/-- The released command that starts next: in the order of their release, passing over those that wait (R364, R369). -/
def State.nextReleased (s : State) (waits : Submission → Bool) (f : Nat) : Option Submission := (s.func f).released.find? fun c => !waits c

/-- Whether a command waits for earlier commands of its source: FENCE, or their start (R364, R366). -/
def Func.blocked (g : Func) (before : List Submission) (c : Submission) : Bool :=
  (c.fence && (before ++ g.running).any fun b => sameSource b.src c.src) ||
    before.any fun b => sameSource b.src c.src && !(urgent c && !urgent b)

/-- A processor that restarts or is halted (R388, R440). -/
def State.procStops (s : State) (p : Proc) : Bool := s.procs.restarting.contains p || s.procs.halted.contains p

/-- The die whose scheduler core leads a function (R383). -/
def State.lead (s : State) (f : Nat) : Nat := (s.upDies f).headD (s.physDie f 0)

/-- The scheduler core that leads a function restarts or is halted: placement and phase transitions wait (Table 17.4). -/
def State.leadStops (s : State) (f : Nat) : Bool := s.procStops (.scheduler (s.lead f))

/-- The lowest-numbered die in service, which leads the power loop and dispatches (R337, R383). -/
def State.leader (s : State) : Nat := (((List.range 4).filter s.up).head?).getD 0

/-- The processor that executes an opcode, when one does (Table 17.1). -/
def State.executor (s : State) (c : Submission) : Option Proc :=
  let o := c.opcode
  if o = 0x0002 || o = 0x0801 || o = 0x0901 || o = 0x0902 then some (.security (s.sec.role % 2))
  else if o = 0x0601 || o = 0x0602 || o = 0x0704 then some (.power s.leader)
  else if o = 0x0010 || o = 0x0011 || o = 0x0012 then none
  else some (.scheduler (((s.upDies c.func).head?).getD 0))

/-- Whether an earlier command works on an object that a command names: a table or a graph that is being made, which a plan's descriptors
may name too, and a plan that waits for peer memory (R364). -/
def Func.objectWaits (g : Func) (c : Submission) : Bool :=
  let o := c.opcode
  let making (op : Nat) (h : Nat → Bool) : Bool := g.jobs.any fun j => j.sub.opcode = op && h j.arg
  let loading (slot : Nat) : Bool := g.asks.any fun a => match a.sub with
    | some b => b.opcode = 0x0301 && at' b.params 0 1 = slot
    | none => false
  ((o = 0x0103 || o = 0x0104 || o = 0x0106) && making 0x0101 fun k => k = hb c 24 1) ||
    (o = 0x0301 && (making 0x0101 (fun _ => true) || making 0x0201 (fun _ => true) || loading (at' c.params 0 1))) ||
    ((o = 0x0302 || o = 0x0503 || o = 0x0504) && loading (hb c 24 1))

/-- A command waits while the processor that executes it restarts (R388), a PWR_MODE while the one before it is still moving
the clock (log 47), and one that names an object while an earlier command works on it (R364). -/
def State.execWaits (s : State) (c : Submission) : Bool :=
  (match s.executor c with
  | some p => s.procStops p
  | none => false) ||
    (c.opcode = 0x0602 && (s.func c.func).modeJob.isSome) || (s.func c.func).objectWaits c

/-- The fetched command that starts next: urgent before normal, else in fetch order, passing over blocked ones and those whose
processor restarts (R363, R364, R388). -/
def Func.nextStart (g : Func) (waits : Submission → Bool) : Option Submission :=
  let ok (c : Submission) : Bool := !waits c && !g.blocked (g.fetched.takeWhile (· ≠ c)) c
  match g.fetched.find? fun c => urgent c && ok c with
  | some c => some c
  | none => g.fetched.find? ok

/-- Take in a command from its source after a fetch or an arrival: header checks, the hold of a step tag, and its place in the
start order. A command behind another of its source takes its place first, and is held when its turn has come. -/
def State.takeUp (s : State) (c : Submission) : State :=
  let s := s.modFunc c.func (·.touchPeer c.src)
  match s.headerFail c with
  | some (st, r) => (s.violHdr c.func).single c st (reason7 r)
  | none =>
    if (s.func c.func).holds c && !(s.func c.func).queued c then s.modFunc c.func fun g => { g with held := g.held ++ [c] }
    else s.modFunc c.func fun g => { g with fetched := g.fetched ++ [c] }

/-- Start a command: it counts as urgent or not, and its effect follows. -/
def State.start (s : State) (c : Submission) (k : State → State) : State :=
  k (if urgent c then s.cntMod c.func 20 else s)

/-- The frame of every ZCP command: `c` carries the row's opcode. A command that has been fetched runs when it is the next to
start; a released one at once; one that no fetch brought is taken in, checked and started here (log 2). Nothing runs before
READY. A command whose version a ZCP_HELLO of its source left open at its fetch is judged when it starts (R372). -/
def State.zcp (s : State) (op : Nat) (c : Submission) (k : Submission → State → State) : State :=
  let c := { c with opcode := op, func := if s.quad then c.func else 0 }
  let g := s.func c.func
  if !s.ready || 4 ≤ c.func then s
  else if g.fetched.contains c then
    if g.nextStart s.execWaits = some c then
      let s := s.modFunc c.func fun g => { g with fetched := eraseOne c g.fetched }
      match s.versionFail c with
      | some r => (s.violHdr c.func).single c stVersion (reason7 r)
      | none => if g.holds c then s.modFunc c.func fun g => { g with held := g.held ++ [c] } else s.start c (k c)
    else s
  else if g.released.contains c then
    if s.nextReleased s.execWaits c.func ≠ some c then s
    else (s.modFunc c.func fun g => { g with released := eraseOne c g.released }).start c (k c)
  else if g.held.contains c then s
  else
    let s := s.modFunc c.func (·.touchPeer c.src)
    match s.headerFail c with
    | some (st, r) => (s.violHdr c.func).single c st (reason7 r)
    | none =>
      if g.holds c || g.blocked g.fetched c || s.execWaits c then s.takeUp c
      else match s.versionFail c with
        | some r => (s.violHdr c.func).single c stVersion (reason7 r)
        | none => s.start c (k c)

/-- The queue indices and the phase return to their start values (R362). -/
def Queue.restart (q : Queue) : Queue :=
  { q with sqHead := 0, sqTail := 0, cqHead := 0, cqTail := 0, phase := true }

end Sys2Proof.Machine
end

