-- ==== Sys2Proof/Machine/Alloc.lean ====
section
/-!
DEFINITION. Allocation of device memory (R309 to R312): the areas above the host's reservations, taken downward from the top,
the spill order of working memory (Table 13.5), and the Twin reserve.
-/
namespace Sys2Proof.Machine

/-- Runs of memory that are taken: the module's structures and what is granted to peers. -/
def State.taken (s : State) : List (Nat × Nat) :=
  s.funcs.flatMap fun g => (g.allocs.map fun a => (a.base, a.len)) ++ g.grants.map fun x => (x.base, GiB * x.gib)

/-- The part of the Twin reserve in a die's interleaved region (R310). -/
def State.twinIlv (s : State) (d : Nat) : Nat :=
  min (GiB * s.twinNow) (s.ilvSize d - GiB * (s.die d).hostIlvGib)

/-- The sideband window at the top of a die's tier-2 share (R437). -/
def State.sideWindow (s : State) (d : Nat) : Nat := if s.quad || d = 0 then 16 * MiB else 0

/-- The keys of an area from which the module may take, above the reservations (R309, R310). Nothing of the module's begins at device
address 0 (R237). -/
def State.areaRange (s : State) (f : Nat) : Area → Nat × Nat
  | .ilv d => (dramBase d + max (GiB * (s.die d).hostIlvGib) (if s.locDie d = 0 then 64 else 0), dramBase d + s.ilvSize d - s.twinIlv d)
  | .window d v =>
    let w := s.window d v
    if (s.vaults d).contains v then (dramBase d + w.1 + MiB * (s.die d).hostLocalMib, dramBase d + w.1 + w.2) else (0, 0)
  | .tier2 d =>
    if s.up d then (tier2Base d + GiB * (s.die d).hostT2Gib, tier2Base d + tier2Size - s.sideWindow d) else (0, 0)
  | .aperture a =>
    match SMap.find a (s.func f).apertures with
    | some ap => let b := apBase + apBase * f + apSpan * a; (b, b + GiB * ap.size)
    | none => (0, 0)

/-- The highest place for `n` bytes in a range among runs that are taken, aligned to `al`. -/
def highest (al : Nat) (taken : List (Nat × Nat)) (lo hi n : Nat) : Option Nat :=
  let free (b : Nat) : Bool := lo ≤ b && b + n ≤ hi && !taken.any fun (a, l) => b < a + l && a < b + n
  let tops := hi :: taken.map (·.1)
  let cands := (tops.filter fun t => lo + n ≤ t).map fun t => (t - n) / al * al
  (cands.filter free).foldl (fun m b => match m with | none => some b | some x => some (max x b)) none

/-- Take `n` bytes from the first of the areas that has room (R309). -/
def State.allocate (s : State) (f : Nat) (owner : AllocOwner) (areas : List Area) (n : Nat) (al : Nat := 64) :
    Option (Alloc × State) :=
  let n := max 64 (roundUp n 64)
  let r := areas.findSome? fun a =>
    let (lo, hi) := s.areaRange f a
    (highest al s.taken lo hi n).map fun b => (⟨owner, a, b, n⟩ : Alloc)
  r.map fun a => (a, s.modFunc f fun g => { g with allocs := g.allocs ++ [a] })

/-- Release the apertures that held structures before and hold none now (R313). -/
def State.dropApertures (s : State) (f : Nat) (before : List Alloc) : State :=
  let used (l : List Alloc) (a : Nat) : Bool := l.any fun x => x.area = .aperture a
  let gone := ((s.func f).apertures.map (·.1)).filter fun a => used before a && !used (s.func f).allocs a
  if gone.isEmpty then s
  else
    let s := { s with mem := s.mem.filter fun c =>
      match apertureOf c.1 with | some (g, a, _) => !(g = f && gone.contains a) | none => true }
    s.modFunc f fun g => { g with apertures := g.apertures.filter fun x => !gone.contains x.1 }

/-- Free a structure's memory. -/
def State.freeOwner (s : State) (f : Nat) (o : AllocOwner) : State :=
  let before := (s.func f).allocs
  (s.modFunc f fun g => { g with allocs := g.allocs.filter fun a => a.owner ≠ o }).dropApertures f before

/-- Table 13.5 from level 2 on, for a structure of die `d` used by cluster `v`. -/
def State.spillOrder (s : State) (f d v : Nat) : List Area :=
  let others := (s.upDies f).filter (· ≠ d)
  let rest := (List.range 20).filter (· ≠ v)
  [Area.ilv d] ++ (v :: rest).map (Area.window d) ++ others.map Area.ilv ++ [Area.tier2 d] ++ others.map Area.tier2 ++
    (s.func f).apertures.map fun (a, _) => Area.aperture a

/-- The bonded DRAM of a die in the order of Table 13.5. -/
def bondedOrder (d : Nat) : List Area := Area.ilv d :: (List.range 20).map (Area.window d)

/-- The device address a function gives a key of its own memory: the inverse of the address map (R305). -/
def State.devAddr (s : State) (f k : Nat) : Nat :=
  if !s.quad then k
  else if k < dramBase 4 then k - dramBase f
  else if k < apBase then k - 0x6000000000 * f
  else k - apBase * f

/-- Fill a run with zeros; in borrowed memory that is an access (R314). -/
def State.zeroRun (s : State) (k n : Nat) : State :=
  let s := if k < apBase then s else s.peerAccess k true n (zeros n) (Mem.read s.mem k n) 0 0
  { s with
    mem := s.mem.filter fun c => !(k ≤ c.1 && c.1 < k + n)
    badLines := s.badLines.filter fun l => !(k < l + 64 && l < k + n) }

/-- Bytes allocated to an owner. -/
def Func.bytesOf (g : Func) (o : AllocOwner) : Nat := ((g.allocs.filter fun a => a.owner = o).map (·.len)).sum

/-- A write of a reservation is clamped to the lowest module allocation of the area (R309), in the unit `u`. -/
def State.clampReserve (s : State) (base u v : Nat) (inArea : Nat → Bool) : Nat :=
  let as := (s.taken.map (·.1)).filter inArea
  match as with
  | [] => v
  | a :: l => min v ((l.foldl min a - base) / u)

end Sys2Proof.Machine
end

