-- ==== Sys2Proof/Machine/Shake.lean ====
section
/-!
DEFINITION. SHAKE256 with a 64-byte output, the digest of every signature and measurement (R395). The spec names the function and does not
give it; it is taken from FIPS 202 (PRESUMED, log 7). A state is its 25 lanes, lane (x, y) at x + 5y.
-/
namespace Sys2Proof.Machine

/-- The round constants of step ι. -/
def keccakRounds : List Word :=
  [0x0000000000000001, 0x0000000000008082, 0x800000000000808A, 0x8000000080008000, 0x000000000000808B, 0x0000000080000001,
   0x8000000080008081, 0x8000000000008009, 0x000000000000008A, 0x0000000000000088, 0x0000000080008009, 0x000000008000000A] ++
  [0x000000008000808B, 0x800000000000008B, 0x8000000000008089, 0x8000000000008003, 0x8000000000008002, 0x8000000000000080,
   0x000000000000800A, 0x800000008000000A, 0x8000000080008081, 0x8000000000008080, 0x0000000080000001, 0x8000000080008008]

/-- The rotation of each lane in step ρ. -/
def keccakOffsets : List Nat := [0, 1, 62, 28, 27, 36, 44, 6, 55, 20, 3, 10, 43, 25, 39, 41, 45, 15, 21, 8, 18, 2, 61, 56, 14]

/-- One round: θ, ρ and π, χ, ι. -/
def keccakRound (a : List Word) (rc : Word) : List Word :=
  let lane (l : List Word) (x y : Nat) : Word := l.getD (x % 5 + 5 * (y % 5)) 0
  let parity := (List.range 5).map fun x => lane a x 0 ^^^ lane a x 1 ^^^ lane a x 2 ^^^ lane a x 3 ^^^ lane a x 4
  let theta := (List.range 25).map fun i => a.getD i 0 ^^^ lane parity (i + 4) 0 ^^^ (lane parity (i + 1) 0).rotateLeft 1
  let turned := (List.range 25).map fun i => (theta.getD i 0).rotateLeft (keccakOffsets.getD i 0)
  let pi := (List.range 25).map fun i => lane turned (i % 5 + 3 * (i / 5)) (i % 5)
  let chi := (List.range 25).map fun i => lane pi i (i / 5) ^^^ (~~~(lane pi (i + 1) (i / 5)) &&& lane pi (i + 2) (i / 5))
  match chi with
  | x :: l => (x ^^^ rc) :: l
  | [] => []

def keccak (a : List Word) : List Word := keccakRounds.foldl keccakRound a

/-- Absorb whole blocks of 136 bytes. -/
def keccakAbsorb : (fuel : Nat) → (bs : List Byte) → List Word → List Word
  | 0, _, a => a
  | n + 1, bs, a =>
    if bs.isEmpty then a
    else keccakAbsorb n (bs.drop 136) (keccak (a.zipIdx.map fun (x, i) =>
      if i < 17 then x ^^^ BitVec.ofNat 64 (leNat ((bs.drop (8 * i)).take 8)) else x))

/-- The message with its suffix and padding: 1111 and 1, zeros, and a last bit 1. -/
def shakePad (bs : List Byte) : List Byte :=
  let n := 136 - bs.length % 136
  bs ++ if n = 1 then [0x9F] else [0x1F] ++ zeros (n - 2) ++ [0x80]

/-- The 64-byte digest of R395. -/
def shake256 (bs : List Byte) : List Byte :=
  let a := keccakAbsorb (bs.length / 136 + 1) (shakePad bs) (List.replicate 25 0)
  (a.take 8).flatMap fun x => leBytes 8 x.toNat

end Sys2Proof.Machine
end

