-- ==== Sys2Proof/Machine/Measure.lean ====
section
/-!
DEFINITION. Measurements (R402 to R404) and the firmware processors that execute commands (R382, R388).
-/
namespace Sys2Proof.Machine

/-- The 64-byte header of a submission with its inline parameters (Table 16.2, R366). -/
def submissionImage (c : Submission) : List Byte :=
  leBytes 2 c.opcode ++ leBytes 1 c.version ++ leBytes 1 (flag c.fence 0 + flag c.noReply 1 + flag c.stepTagged 2) ++
    leBytes 4 c.tag ++ leBytes 4 c.paramLen ++ leBytes 4 (c.dieMask + c.cluMask * 16) ++ leBytes 8 c.step ++
    (c.small ++ zeros 40).take 40 ++ c.params

/-- An event record of Table 18.5. -/
def eventRecord (type source jrn : Nat) (a b : List Byte) : List Byte :=
  leBytes 1 type ++ leBytes 1 source ++ zeros 6 ++ leBytes 8 jrn ++ (a ++ zeros 64).take 64 ++ (b ++ zeros 64).take 64

/-- Extend M6, or M7 for a debug unlock (R403). With no security core in service nothing is extended. -/
def State.measure (s : State) (type source jrn : Nat) (a b : List Byte) : State :=
  let i := if type = 6 then 7 else 6
  if s.sec.role = 2 then s
  else
    let m := s.sec.meas.getD i (zeros 64)
    { s with sec := { s.sec with
        meas := s.sec.meas.set i (shake256 (m ++ eventRecord type source jrn a b))
        m6Events := if type = 6 then s.sec.m6Events else s.sec.m6Events + 1 } }

/-- A configuration-record write: type 2 (R403). -/
def State.measureConfig (s : State) (source jrn : Nat) (bytes : List Byte) : State :=
  s.measure 2 source jrn (shake256 bytes) []

/-- The digest of the header and body of an overlay (R399). -/
def imageDigest (im : Image) : List Byte := shake256 (im.take (64 + at' im 8 4))

/-- Set the register of a kind to the digest of the image now running (R402, R403). -/
def State.measureKind (s : State) (kind : Nat) (im : Option Image) : State :=
  let d := match im with | some im => imageDigest im | none => zeros 64
  { s with sec := { s.sec with meas := s.sec.meas.set (1 + kind) d } }

/-- An image that failed its checks counts in every function (Table 18.9). -/
def State.secDenied (s : State) : State := s.cntAll 29

end Sys2Proof.Machine
end

