-- ==== Sys2Proof/Machine/Commands.lean ====
section
/-!
DEFINITION. Queues and doorbells, and the commands that chapter 16 defines itself: ZCP_HELLO, MOD_PRESENT, TIME_PROBE, FLT_QUERY,
CNT_READ, CNT_CLEAR (Table 16.7, R29, R372), with the fetch of commands and the writing of completions.
-/
namespace Sys2Proof.Machine

/-! ## Queues -/

def State.modQueue (s : State) (f q : Nat) (h : Queue → Queue) : State :=
  s.modFunc f fun g => { g with queues := modNth h q g.queues }

/-- Once the completions of before a disabling have been written, the old ring is done with; the indices of a queue that is still
disabled are those it then holds (R362). -/
def State.settleQueue (s : State) (f q : Nat) : State :=
  let g := s.func f
  match g.queues[q]? with
  | some r =>
    match r.old with
    | some o =>
      if (g.waiting q).isEmpty && !((g.fetched ++ g.running).any fun c => c.src = .queue q) then
        s.modQueue f q fun r => if r.en then { r with old := none } else { r with old := none }.setRing o
      else s
    | none => s
  | none => s

/-- R362: a new submission tail. -/
def State.sqDoorbell (s : State) (f q v : Nat) : State :=
  match (s.func f).queues[q]? with
  | none => s.violOor f
  | some r =>
    let n := 2 ^ r.sqLog2
    let v := fld v 0 12
    if n ≤ v || (r.sqHead + 2 * n - r.sqTail - 1) % n < (v + n - r.sqTail) % n then s.violOor f
    else s.modQueue f q fun r => { r with sqTail := v }

/-- R362: a new completion head, of the ring that completions are written to. -/
def State.cqDoorbell (s : State) (f q v : Nat) : State :=
  match (s.func f).queues[q]? with
  | none => s.violOor f
  | some r =>
    let x := r.ring
    let n := 2 ^ x.log2
    let v := fld v 0 12
    if n ≤ v || (x.tail + n - x.head) % n < (v + n - x.head) % n then s.violOor f
    else s.modQueue f q fun r => r.setRing { x with head := v }

/-- A queue from which a slot can be fetched, its completion ring apart. -/
def Queue.fetchable (r : Queue) : Bool := r.en && r.old.isNone && r.sqHead ≠ r.sqTail

/-- The queue that the normal engine visits next: round-robin over queues 1 and up (R363). -/
def Func.normalNext (g : Func) : Option Nat :=
  let n := g.queues.length
  ((List.range n).map fun i => (g.lastQ + 1 + i) % n).find? fun q =>
    q ≠ 0 && (match g.queues[q]? with | some r => r.fetchable && !r.cqFull | none => false)

/-- Whether a slot of queue `q` with the given opcode is fetched now (R363, R365). -/
def Func.mayFetch (g : Func) (q opcode : Nat) : Bool :=
  match g.queues[q]? with
  | some r =>
    r.fetchable &&
      (if q = 0 then !r.cqFull || opcode = 0x0010 || opcode = 0x0011 || opcode = 0x0012 else g.normalNext = some q)
  | none => false

/-- The device addresses of a run exist: bonded DRAM, tier 2, or the granted bytes of an installed aperture (R305). -/
def State.reaches (s : State) (f a n : Nat) : Bool := (s.key f a).isSome && (s.key f (a + n - 1)).isSome

/-- The module writes to a device address that host software named; one that does not exist counts, and the write is dropped (R381). -/
def State.devPut (s : State) (f a : Nat) (bs : List Byte) : State := if s.reaches f a bs.length then s.devWrite f a bs else s.violOor f

/-- R362, R363: one slot is fetched and its command taken in. With LOC 1 the slot is read from device memory, else its bytes
come from the host. -/
def execCommandFetch (f q : Nat) (slot : List Byte) (s : State) : Done :=
  let s := s.settleQueue f q
  let r := (s.func f).queues.getD q Queue.reset
  let a := r.sqBase + 512 * r.sqHead
  let bytes := if r.loc then s.devRead f a 512 else slot
  if s.ready && (s.func f).mayFetch q (at' bytes 0 2) then
    let s := if r.loc && !s.reaches f a 512 then s.violOor f else s
    let s := s.modQueue f q fun r => { r with sqHead := (r.sqHead + 1) % 2 ^ r.sqLog2 }
    let s := if q = 0 then s else s.modFunc f fun g => { g with lastQ := q }
    .next (s.takeUp (parseSubmission (.queue q) f bytes))
  else .next s

/-- R370: the entry, the stamp, then the MSI-X message. -/
def execCompletionWrite (f q : Nat) (s : State) : Done :=
  let g := s.func f
  match g.queues[q]?, g.waiting q with
  | some r, c :: _ =>
    if r.cqFull then .next s
    else
      let x := r.ring
      let ea := x.base + 32 * x.tail
      let sa := x.base + 32 * 2 ^ x.log2 + 8 * x.tail
      let stamp := leBytes 8 (c.jrn % 2 ^ 48 + 2 ^ 63 * b2n x.phase)
      let s := s.modFunc f fun g => { g with done := eraseOne c g.done }
      let s := if x.loc then (s.devPut f ea c.bytes).devPut f sa stamp
        else (s.put (.busWrite ea c.bytes)).put (.busWrite sa stamp)
      let wrap := x.tail + 1 = 2 ^ x.log2
      let s := s.modQueue f q fun r =>
        r.setRing { x with tail := if wrap then 0 else x.tail + 1, phase := if wrap then !x.phase else x.phase }
      let s := if r.irqEn then s.interrupt f r.vector else s
      .next (s.settleQueue f q)
  | _, _ => .next s

/-- R362: ZCP_SQTAIL. -/
def execZcpSqtail (f q : Nat) (value : Word) (s : State) : Done := .next (s.sqDoorbell f q value.toNat)

/-- R362: ZCP_CQHEAD. -/
def execZcpCqhead (f q : Nat) (value : Word) (s : State) : Done := .next (s.cqDoorbell f q value.toNat)

/-- R359, R360: a ZCP message of a peer on virtual channel 0. -/
def execReedwayZcpCommand (f endpoint port : Nat) (slot : List Byte) (s : State) : Done :=
  if s.ready then
    let s := s.modFunc f fun g =>
      { g with ep := { g.ep with inbox := eraseFirst (fun r => r.proto = 0 && r.src = endpoint && r.data = slot) g.ep.inbox } }
    .next (s.takeUp (parseSubmission (.peer endpoint port) f slot))
  else .next s

/-! ## ZCP_HELLO and MOD_PRESENT -/

/-- A ZCP_HELLO of a new endpoint at the limit releases the endpoint whose last command is oldest, whatever its outcome (R360). -/
def Func.makeRoom (g : Func) (limit : Nat) : Src → Func
  | .peer e _ => if (g.peers.lookup e).isNone then { g with peers := g.peers.drop (g.peers.length + 1 - limit) } else g
  | _ => g

/-- Set the negotiated version of a source. -/
def Func.negotiate (g : Func) (v : Nat) : Src → Func
  | .queue q => { g with queues := modNth (fun r => { r with ver := some v }) q g.queues }
  | .peer e _ => { g with peers := (g.peers.filter fun x => x.1 ≠ e) ++ [(e, v)] }
  | .sideband => { g with sideVer := some v }
  | .host => g

/-- R372. -/
def hello (c : Submission) (s : State) : State :=
  let V := min c.version s.zcpHigh
  let s := s.modFunc c.func fun g => g.makeRoom (if s.quad then 1024 else 4096) c.src
  if V < hb c 24 1 || V < s.zcpLow then s.single c stVersion
  else
    let old := (s.func c.func).version c.src
    let s := s.modFunc c.func fun g => g.negotiate V c.src
    let result := leBytes 1 V ++ leBytes 1 s.zcpLow ++ leBytes 2 (s.func c.func).queues.length ++ leBytes 2 448 ++ zeros 2 ++
      leBytes 8 (s.modCap c.func).toNat
    let detail := leBytes 8 numCap.toNat
    if old = some V then s.single c stOk detail result else s.okJ c detail result

def execZcpHello (c : Submission) (s : State) : Done := .next (s.zcp 0x0001 c hello)

/-- R29 to R32. -/
def modPresent' (c : Submission) (s : State) : State :=
  let v := hb c 24 1
  if 1 < v then s.single c stBadParam
  else
    let old := s.cfg.present
    let s := { s with cfg := { s.cfg with present := v } }
    let detail := leBytes 1 (b2n s.quad) ++ leBytes 1 v
    if old = v then s.single c stOk detail
    else
      let (s, j) := s.journalCmd c
      (s.measureConfig (srcCode c.src) j (submissionImage c)).single c stOk detail [] j

def execModPresent (c : Submission) (s : State) : Done := .next (s.zcp 0x0002 c modPresent')

/-! ## TIME_PROBE, counters, fault records -/

/-- R455: every time source latches its count and emits a kind-3 record; the completion follows them. -/
def timeProbe' (c : Submission) (s : State) : State :=
  let n := s.probe + 1
  let s := { s with probe := n }
  let s := ((List.range 4).filter s.up).foldl (fun s d => s.emit d 3 0 n 0) s
  let s := s.emit 15 3 0 n 0
  s.single c stOk [] (leBytes 8 n)

def execTimeProbe (c : Submission) (s : State) : Done := .next (s.zcp 0x0013 c timeProbe')

/-- An address a command of Table 16.7 may name (R375). -/
def State.goodDest (s : State) (f a n : Nat) : Bool := a % 64 = 0 && s.inMemory f a n

def cntLast : Nat := 327679

/-- A command of the sideband with destination 0 gets its output in the response (R437). -/
def inResponse (c : Submission) (dest : Nat) : Bool := c.src = .sideband && dest = 0

/-- Whether `n` bytes of output have a place (R375, R437). -/
def State.outOk (s : State) (c : Submission) (dest n : Nat) : Bool :=
  if inResponse c dest then n ≤ 65000 else s.goodDest c.func dest n

/-- OK with output at a destination or in the response (R375, R437). -/
def State.outSingle (s : State) (c : Submission) (dest : Nat) (out result : List Byte) : State :=
  if inResponse c dest then
    if c.noReply then s
    else s.put (.mctp ((Completion.bytes ⟨c.src, c.tag, stOk, c.opcode, [], result, 0⟩) ++ zeros 8 ++ out))
  else (s.devWrite c.func dest out).single c stOk [] result

/-- Table 16.7, R450, R452. -/
def cntRead' (c : Submission) (s : State) : State :=
  let first := hb c 24 4
  let n := hb c 28 4
  let dest := hb c 32 8
  if n = 0 || 4096 < n || cntLast < first + n - 1 || !s.outOk c dest (8 * n) then s.single c stBadParam
  else
    let clk := s.clk
    let bytes := (List.range n).flatMap fun i => leBytes 8 (s.ctrAt c.func (first + i))
    s.outSingle c dest bytes (leBytes 8 clk)

def execCntRead (c : Submission) (s : State) : Done := .next (s.zcp 0x0702 c cntRead')

/-- Table 16.7, R450, R452. -/
def cntClear' (c : Submission) (s : State) : State :=
  let first := hb c 24 4
  let n := hb c 28 4
  let all := bit (hb c 40 1) 0
  if !all && (n = 0 || 4096 < n || cntLast < first + n - 1) then s.single c stBadParam
  else
    let old := (s.func c.func).ctrs
    let s := s.modFunc c.func fun g => { g with ctrs := g.ctrs.filter fun (i, _) => !all && !(first ≤ i && i < first + n) }
    if (s.func c.func).ctrs.length = old.length then s.single c stOk else s.okJ c

def execCntClear (c : Submission) (s : State) : Done := .next (s.zcp 0x0703 c cntClear')

/-- A fault record in memory (Table 15.4). -/
def FaultRec.bytes (r : FaultRec) : List Byte :=
  leBytes 8 r.cycle ++ leBytes 4 r.seq ++ leBytes 1 r.mech ++ leBytes 1 r.scope ++ leBytes 2 r.inst ++ leBytes 1 r.response ++
    zeros 7 ++ leBytes 8 r.step

/-- FLT_HEAD: the ring index after the newest record (R350). -/
def Die.fltHead (d : Die) : Nat := d.fltSeq % 256

/-- Table 16.7: copies records in ring order; a place never written holds zeros. -/
def fltQuery' (c : Submission) (s : State) : State :=
  let d := hb c 24 1
  let first := hb c 25 1
  let n := hb c 26 2
  let dest := hb c 32 8
  let p := s.physDie c.func d
  if (if s.quad then 0 else 3) < d || n = 0 || 256 < n || !s.outOk c dest (32 * n) then s.single c stBadParam
  else if !s.up p then s.single c stNotPresent
  else
    let x := s.die p
    let bytes := (List.range n).flatMap fun i =>
      match SMap.find ((first + i) % 256) x.faults with | some r => r.bytes | none => zeros 32
    s.outSingle c dest bytes (leBytes 2 n ++ leBytes 2 x.fltHead ++ leBytes 4 x.fltSeq)

def execFltQuery (c : Submission) (s : State) : Done := .next (s.zcp 0x0701 c fltQuery')

end Sys2Proof.Machine
end

