-- ==== Sys2Proof/Machine/Tables.lean ====
section
/-!
DEFINITION. Feature tables (R136 to R141, R153 to R158): placement of shards and slots, the definition record, creation, and the
one read and the one write of a row that every agent uses.
-/
namespace Sys2Proof.Machine

/-! ## Geometry (R138) -/

/-- The home of a row: owner index, shard and slot (R138). -/
def Table.home (t : Table) (r : Nat) : Nat × Nat × Nat := (r % t.N, r / t.N % 256, r / (256 * t.N))

/-- The local block that serves an owner index. -/
def Table.block (t : Table) (o : Nat) : Option OwnerBlock := t.blocks.find? fun b => b.owner = o

/-- The key of a slot's copy that readers see: the second copy of a long row lies H + M slots further (R138, R154, log 20). -/
def Table.slotKey (t : Table) (b : OwnerBlock) (sh i : Nat) (second : Bool) : Nat :=
  (b.shards.getD sh default).base + (i + (if second then t.homeSlots + t.migSlots else 0)) * t.stride

def Table.isFlipped (t : Table) (o sh i : Nat) : Bool := t.flipped.contains (o, sh, i)

/-- The key of the Backed copy of a slot (R141). -/
def Table.backedKey (t : Table) (b : OwnerBlock) (sh i : Nat) (second : Bool) : Nat :=
  b.backed + (sh * t.slotsPerShard + i + (if second then t.homeSlots + t.migSlots else 0)) * t.stride

def Func.table (g : Func) (id : Nat) : Option Table := SMap.find id g.tables
def Func.modTable (g : Func) (id : Nat) (h : Table → Table) : Func :=
  { g with tables := g.tables.map fun (i, t) => if i = id then (i, h t) else (i, t) }

/-- The location-table entry of a row, as it holds for step lookups that have applied every due update (R146). -/
def Func.loc (g : Func) (t r : Nat) : Option Loc := g.locs.find? fun l => l.table = t && l.row = r

/-- The slot number that stands for a row's home slot, when a move brings the row home (log 24). -/
def homeMark : Nat := 0xFFFFFF

/-- The index of a migration slot of a shard, or the home slot of the row. -/
def Table.slotIndex (t : Table) (r slot : Nat) : Nat := if slot = homeMark then (t.home r).2.2 else t.homeSlots + slot

/-- Where requesters address a row: owner index, shard, slot (R138, R146). -/
def Func.locate (g : Func) (t : Table) (r : Nat) : Nat × Nat × Nat :=
  match g.loc t.id r with
  | some l => (l.owner, l.shard, t.slotIndex r l.slot)
  | none => t.home r

/-- The slot at which owner `o` holds a row: by the location table, by an update that is still to take effect, or at home. -/
def Func.slotAt (g : Func) (t : Table) (o r : Nat) : Option (Nat × Nat) :=
  match (g.locPending.map (·.2) ++ g.locs).find? fun l => l.table = t.id && l.row = r with
  | some l =>
    if l.owner = o then some (l.shard, t.slotIndex r l.slot)
    else match g.loc t.id r with
      | some l => if l.owner = o then some (l.shard, t.slotIndex r l.slot) else none
      | none => if (t.home r).1 = o then some (t.home r).2 else none
  | none => if (t.home r).1 = o then some (t.home r).2 else none

/-! ## Slots -/

/-- The stub that owner `o` keeps for a row (R148). -/
def Func.stub (g : Func) (t o r : Nat) : Option Stub := g.stubs.find? fun x => x.table = t && x.row = r && x.oldOwner = o

def badIn (bad : List Nat) (k n : Nat) : Bool := bad.any fun l => l < k + n && k < l + 64

/-- Store bytes into a slot, and into its Backed copy (R141). -/
def State.slotWrite (s : State) (t : Table) (b : OwnerBlock) (sh i : Nat) (second : Bool) (off : Nat) (bs : List Byte) : State :=
  let s := s.store (t.slotKey b sh i second + off) bs
  if b.backed = 0 then s else s.store (t.backedKey b sh i second + off) bs

/-- A row of canonical quiet NaNs (R158). -/
def Table.nanRow (t : Table) : List Byte :=
  (List.range t.elems).flatMap fun _ =>
    match t.fmt with
    | 0 => leBytes 4 0x7FC00000
    | 1 => leBytes 2 0x7FC0
    | _ => leBytes 2 0x7E00

/-- Elements of a storage format as the module writes them: every NaN is the canonical one (R35). -/
def canonBytes (F : Fmt) (bs : List Byte) : List Byte :=
  (List.range (bs.length / F.bytes)).flatMap fun i =>
    let v := at' bs (F.bytes * i) F.bytes
    leBytes F.bytes (if F.decode v == .nan then F.qnan else v)

/-- The row of a slot is no longer poisoned. -/
def Func.unpoison (g : Func) (t o sh i : Nat) : Func :=
  g.modTable t fun t => { t with poisoned := t.poisoned.filter (· ≠ (o, sh, i)) }

/-- Read the bytes of a row's slot from its readable copy. An uncorrectable line is repaired from the Backed copy (TBL_REPAIR),
or poisons the row once (TBL_POISON), under R158. -/
def State.slotRead (s : State) (f : Nat) (t : Table) (b : OwnerBlock) (sh i n : Nat) : List Byte × State :=
  let t := ((s.func f).table t.id).getD t
  let second := t.isFlipped b.owner sh i
  let k := t.slotKey b sh i second
  if t.poisoned.contains (b.owner, sh, i) then (t.nanRow ++ s.load (k + t.rowBytes) (n - t.rowBytes), s)
  else if badIn s.badLines k n then
    if b.backed ≠ 0 then
      let data := s.load (t.backedKey b sh i second) t.stride
      ((data.take n), (s.poke k data).cntDie b.server 16)
    else
      let s := s.cntDie b.server 17
      let s := s.modFunc f fun g => g.modTable t.id fun t => { t with poisoned := t.poisoned ++ [(b.owner, sh, i)] }
      (t.nanRow ++ s.load (k + t.rowBytes) (n - t.rowBytes), s)
  else (s.load k n, s)

/-- Write part of a row at its owner (R153, R154): a replacement of a long row goes to the inactive copy and flips the pointer,
carrying the optimizer state along; a whole-row write clears poisoning (R158). NaNs are stored canonically (R35). -/
def State.rowPut (s : State) (f : Nat) (t : Table) (b : OwnerBlock) (sh i : Nat) (w : RowWrite) : State :=
  let t := ((s.func f).table t.id).getD t
  let second := t.isFlipped b.owner sh i
  let whole := w.count = t.elems && w.first = 0
  let data := canonBytes (Fmt.ofCode t.fmt) w.data
  let s :=
    if w.replace && t.long then
      let st := s.load (t.slotKey b sh i second + t.rowBytes) (t.stride - t.rowBytes)
      let s := s.slotWrite t b sh i (!second) 0 (data ++ st)
      s.modFunc f fun g => g.modTable t.id fun t =>
        { t with flipped := if second then t.flipped.erase (b.owner, sh, i) else t.flipped ++ [(b.owner, sh, i)] }
    else s.slotWrite t b sh i second (w.first * t.width) data
  if whole then s.modFunc f fun g => g.unpoison t.id b.owner sh i else s

/-! ## Creation (R136 to R140) -/

/-- The owner list as (position, die). -/
def ownerEntry (e : Nat) : Nat × Nat := (fld e 2 28, fld e 0 2)

/-- A table from its parameters and the lists it names. -/
def State.readTable (s : State) (f : Nat) (p : List Byte) : Table :=
  let nm := at' p 20 2
  let no := at' p 24 4
  { params := p
    modules := (List.range nm).map fun i => leNat (s.devRead f (at' p 32 8 + 8 * i) 8)
    owners := (List.range no).map fun i => leNat (s.devRead f (at' p 40 8 + 4 * i) 4)
    record := 0, blocks := [], flipped := [], poisoned := [], migUsed := [] }

/-- A parameter of Table 6.1 out of range: reason 1 (R136). -/
def State.tableBad (s : State) (f : Nat) (t : Table) : Bool :=
  let p := t.params
  let nm := at' p 20 2
  let no := at' p 24 4
  2 < t.fmt || t.gexp < -32 || 32 < t.gexp || t.rowBytes < 2 || 16384 < t.rowBytes ||
    (t.autoMig && (t.tallyLog2 < 12 || 22 < t.tallyLog2)) || t.rows = 0 || 2 ^ 40 < t.rows ||
    65536 < t.stateBytes || t.stateBytes % 64 ≠ 0 || nm = 0 || 16384 < nm || nm ≤ t.myPos || no = 0 || 65535 < no ||
    !s.inMemory f (at' p 32 8) (8 * nm) || !s.inMemory f (at' p 40 8) (4 * no) ||
    (at' p 48 8 ≠ 0 && !s.inMemory f (at' p 48 8) (t.rows * t.rowBytes)) ||
    (t.owners.map ownerEntry).any (fun (m, d) => nm ≤ m || (s.quad && d ≠ 0)) ||
    (t.owners.map ownerEntry).eraseDups.length ≠ no

/-- The owner indices of this module's dies in service: (physical die, owner index). -/
def State.localOwners (s : State) (f : Nat) (t : Table) : List (Nat × Nat) :=
  (t.owners.zipIdx.filterMap fun (e, i) =>
    let (m, d) := ownerEntry e
    let p := s.physDie f d
    if m = t.myPos && (s.diesOf f).contains p then some (p, i) else none)

/-- The areas a shard may use, in order (R139). -/
def State.shardAreas (s : State) (f d sh : Nat) (t : Table) : List Area :=
  let v0 := sh % 20
  let v := ((List.range 20).map fun k => (v0 + k) % 20).find? (s.vaults d).contains
  let local' := match v with | some v => [Area.window d v] | none => []
  (if bit t.flags 4 then [] else local') ++ [Area.tier2 d] ++
    (if bit t.flags 3 then (s.func f).apertures.map fun (a, _) => Area.aperture a else [])

def areaLoc : Area → Nat
  | .ilv _ | .window _ _ => 0
  | .tier2 _ => 1
  | .aperture _ => 2

/-- Place the shards of one owner, in ascending shard number. -/
def State.placeShards (s : State) (f d : Nat) (o : AllocOwner) (t : Table) : Option (List ShardPlace × State) :=
  (List.range 256).foldl (fun acc sh => acc.bind fun (l, s) =>
    (s.allocate f o (s.shardAreas f d sh t) (t.slotsPerShard * t.stride)).map fun (a, s) =>
      (l ++ [⟨a.base, t.slotsPerShard, areaLoc a.area⟩], s.zeroRun a.base a.len)) (some ([], s))

/-- One area of a table's bookkeeping, or 0 when `n` is 0. -/
def State.placeArea (s : State) (f : Nat) (o : AllocOwner) (areas : List Area) (n : Nat) : Option (Nat × State) :=
  if n = 0 then some (0, s) else (s.allocate f o areas n).map fun (a, s) => (a.base, s.zeroRun a.base a.len)

/-- The bytes of a row-gradient record (R130). -/
def Table.gradRecord (t : Table) : Nat := roundUp (8 + 4 * t.elems) 64

/-- Place everything of one local owner (R139 to R141). -/
def State.placeOwner (s : State) (f : Nat) (o : AllocOwner) (t : Table) (d i : Nat) : Option (OwnerBlock × State) := do
  let slots := 256 * (t.homeSlots + t.migSlots)
  let (shards, s) ← s.placeShards f d o t
  let (mapA, s) ← s.placeArea f o (bondedOrder d) 4096
  let (comb, s) ← s.placeArea f o (bondedOrder d ++ ((s.upDies f).filter (· ≠ d)).map Area.ilv) (if t.trainable then slots * t.elems * 16 else 0)
  let (glist, s) ← s.placeArea f o (s.spillOrder f d 0) (if t.trainable then 64 + slots * t.gradRecord else 0)
  let (tally, s) ← s.placeArea f o (s.spillOrder f d 0) (if t.autoMig then 2 * 2 ^ t.tallyLog2 * 8 else 0)
  let bd := if s.quad || !s.up (d ^^^ 2) then d else d ^^^ 2
  let (backed, s) ← s.placeArea f o [Area.tier2 bd] (if t.isBacked then 256 * t.slotsPerShard * t.stride else 0)
  let s := (shards.zipIdx).foldl (fun s (x, k) =>
    s.store (mapA + 16 * k) (leBytes 8 (s.devAddr f x.base) ++ leBytes 4 x.slots ++ leBytes 1 x.loc ++ zeros 3)) s
  some (⟨d, d, i, mapA, shards, comb, glist, tally, backed⟩, s)

/-- The table-definition record (Table 6.2). -/
def State.tableRecord (s : State) (f : Nat) (t : Table) : List Byte :=
  let p := t.params
  let addr (k : Nat) : List Byte := leBytes 8 (if k = 0 then 0 else s.devAddr f k)
  p.take 6 ++ leBytes 2 (t.stride / 64) ++ leBytes 8 t.rows ++ leBytes 4 t.N ++ leBytes 4 t.homeSlots ++ leBytes 4 t.migSlots ++
    zeros 36 ++
    (List.range 4).flatMap fun d =>
      match t.blocks.find? fun b => s.locDie b.die = d with
      | some b => leBytes 2 b.owner ++ zeros 6 ++ addr b.mapAddr ++ addr b.comb ++ addr b.glist ++ addr b.tally ++ addr b.backed
      | none => leBytes 2 0xFFFF ++ zeros 46

/-- The header bytes 0 to 5 of the record: TABLE_ID, FMT, FLAGS, GEXP and ELEMS stand in the same places in Table 6.1. -/
def State.buildTable (s : State) (f : Nat) (o : AllocOwner) (t : Table) : Option (Table × State) := do
  let (blocks, s) ← (s.localOwners f t).foldl (fun acc (d, i) => acc.bind fun (l, s) =>
    (s.placeOwner f o t d i).map fun (b, s) => (l ++ [b], s)) (some ([], s))
  let d0 := ((s.upDies f).head?).getD 0
  let (rec, s) ← s.placeArea f o (s.spillOrder f d0 0) 256
  let t := { t with blocks := blocks, record := s.devAddr f rec }
  some (t, s.store rec (s.tableRecord f t))

/-- Write the initial rows of the local owners (R136): +0, or from INIT_ADDR in row-ID order, NaNs canonically (R35). -/
def State.initRows (s : State) (f : Nat) (t : Table) : State :=
  let a := at' t.params 48 8
  if a = 0 then s
  else (List.range t.rows).foldl (fun s r =>
    let (o, sh, p) := t.home r
    match t.block o with
    | some b => s.slotWrite t b sh p false 0 (canonBytes (Fmt.ofCode t.fmt) (s.devRead f (a + r * t.rowBytes) t.rowBytes))
    | none => s) s

/-- What a replaced or removed table leaves behind goes with it. -/
def Func.forgetTable (g : Func) (id : Nat) : Func :=
  { g with
    tables := SMap.erase id g.tables
    locs := g.locs.filter fun l => l.table ≠ id
    locPending := g.locPending.filter fun l => l.2.table ≠ id
    migs := g.migs.filter fun m => m.table ≠ id
    hostMoves := g.hostMoves.filter fun m => m.1 ≠ id
    stubs := g.stubs.filter fun x => x.table ≠ id
    combRows := g.combRows.filter fun c => c.table ≠ id
    combines := g.combines.filter fun c => c.table ≠ id
    loads := g.loads.filter fun l => l.1 ≠ id
    tally := g.tally.filter fun x => x.table ≠ id
    reads := g.reads.filter fun x => x.table ≠ id
    unsent := g.unsent.filter fun x => x.msg.table ≠ id }

/-- Whether the active plan names a table in a GATHER (R137). -/
def Func.tableActive (g : Func) (id : Nat) : Bool :=
  g.accepted.any fun (p, _) =>
    match g.plans.getD p none with
    | some pl => pl.descs.any fun (D : Desc) => D.opkind = 0x0010 && D.tableId = id
    | none => false

/-! ## Peer memory asked for (R313) -/

/-- Ask the next of the peers for what is still missing; when nothing is missing, or no peer is left, none is waited for. -/
def State.askOn (s : State) (f : Nat) (a : MemAsk) : State × MemAsk :=
  match a.rest with
  | [] => (s, { a with waits := none })
  | e :: rest =>
    if a.need = 0 then (s, { a with waits := none, rest := [] })
    else (s.send f ((s.upDies f).headD 0) e 0 (.grantReq a.need), { a with waits := some e, rest := rest })

/-- Ask some peers, in the order given, for the GiB that hold `n` bytes. -/
def State.askPeers (s : State) (f : Nat) (c : Option Submission) (par : Nat) (peers : List Nat) (n : Nat) : State :=
  let (s, a) := s.askOn f ⟨c, par, none, peers, ceilDiv n GiB⟩
  s.modFunc f fun g => { g with asks := g.asks ++ [a] }

/-- The peers of a list that can be asked: every endpoint but the module's own; none while the function has no FABRIC_ID (R418). -/
def Func.askable (g : Func) (l : List Nat) (me : Nat) : List Nat :=
  if g.ep.fabricId = 0 then [] else (l.zipIdx.filter fun x => x.2 ≠ me).map (·.1)

/-- The bytes of peer memory that a table lacks, when it cannot be placed: its shards with PEER_SPILL (R139), or the working memory that
Table 13.5 lets spill (gradient lists, tally areas and the definition record, R311). None when the shards have no place without it. -/
def State.tableLacks (s : State) (f : Nat) (t : Table) : Nat :=
  let tmp : AllocOwner := .table (256 + t.id)
  if s.tableBad f t || (s.buildTable f tmp t).isSome then 0
  else
    let n := (s.localOwners f t).length
    let work := n * ((if t.trainable then 64 + 256 * (t.homeSlots + t.migSlots) * t.gradRecord else 0) +
      (if t.autoMig then 2 * 2 ^ t.tallyLog2 * 8 else 0)) + 256
    let shards := (s.localOwners f t).foldl (fun (acc : Option State) x =>
      acc.bind fun s => (s.placeShards f x.1 tmp t).map (·.2)) (some s)
    if shards.isSome then work
    else if bit t.flags 3 then n * 256 * t.slotsPerShard * t.stride + work
    else 0

/-- R136, R137: the command answers ACCEPTED; a table of the active plan answers BUSY; a wrong PARAM_LEN reason 1. For shards with
PEER_SPILL and for working memory that find no room, the peers of the module list are asked in ascending position (R313). -/
def tblCreate' (c : Submission) (s : State) : State :=
  if c.paramLen ≠ 64 then s.single c stBadParam (leBytes 1 1)
  else
    let id := at' c.params 0 1
    if (s.func c.func).tableActive id then s.single c stBusy
    else
      let s := (s.interim c stAccepted).modFunc c.func fun g => { g with jobs := g.jobs ++ [⟨c, id, false, 0, 0⟩] }
      let t := s.readTable c.func c.params
      let n := s.tableLacks c.func t
      if n = 0 then s else s.askPeers c.func (some c) 0 ((s.func c.func).askable t.modules t.myPos) n

def execTblCreate (c : Submission) (s : State) : Done := .next (s.zcp 0x0101 c tblCreate')

/-- The first job of an opcode on an object, and the state without it. -/
def Func.job (g : Func) (op arg : Nat) : Option AsyncJob := g.jobs.find? fun j => j.sub.opcode = op && j.arg = arg
def State.endJob (s : State) (f : Nat) (j : AsyncJob) : State := s.modFunc f fun g => { g with jobs := eraseOne j g.jobs }

/-- The final completion of TBL_CREATE (R136, R137, R140). -/
def tblCreateFinish (f : Nat) (j : AsyncJob) (s : State) : State :=
  let s := s.endJob f j
  let c := j.sub
  let t := s.readTable f c.params
  if s.tableBad f t then s.final c stBadParam (leBytes 1 1)
  else
    let tmp : AllocOwner := .table (256 + t.id)
    match s.buildTable f tmp t with
    | none => s.final c stBadParam (leBytes 1 2)
    | some (t, s) =>
      let s := s.initRows f t
      let rename (a : Alloc) : Alloc := if a.owner = tmp then { a with owner := .table t.id } else a
      let before := (s.func f).allocs
      let s := (s.modFunc f (·.forgetTable t.id)).modFunc f fun g =>
        { g with
          allocs := (g.allocs.filter fun a => a.owner ≠ AllocOwner.table t.id).map rename
          tables := SMap.insert t.id t g.tables }
      let s := s.dropApertures f before
      let (s, q) := s.journalCmd c
      s.final c stOk [] (leBytes 8 t.record ++ leBytes 8 ((s.func f).bytesOf (.table t.id))) q

/-- The creation does not end while a peer that was asked has still to answer (R313), or while the scheduler core restarts (R388). -/
def execTblCreateDone (f table : Nat) (s : State) : Done :=
  match (s.func f).job 0x0101 table with
  | some j =>
    if s.leadStops f || (s.func f).asks.any fun a => a.sub = some j.sub && a.waits.isSome then .next s
    else .next (tblCreateFinish f j (s.modFunc f fun g => { g with asks := g.asks.filter fun a => a.sub ≠ some j.sub }))
  | none => .next s

end Sys2Proof.Machine
end

