-- ==== Sys2Proof/Machine/Gecko.lean ====
section
/-!
DEFINITION. The Gecko directory of a die (R124 to R127, R129): look-ups, fills, displacement, combining entries, slots.
Every cached row equals its memory copy (R127), so a directory entry holds no data here.
-/
namespace Sys2Proof.Machine

/-- XOR of the 12-bit parts of a row ID (R124). -/
def rowFold (r : Nat) : Nat := fld r 0 12 ^^^ fld r 12 12 ^^^ fld r 24 12 ^^^ fld r 36 4

/-- The set of a row (R124). -/
def gkSet (t r : Nat) : Nat := rowFold r ^^^ (16 * t % 4096)

/-- The ways of a set: way number and entry, none when invalid. -/
def Gecko.ways (g : Gecko) (set : Nat) : List (Nat × Option GkEntry) :=
  (List.range 8).map fun w => (w, SMap.find (8 * set + w) g.entries)

/-- The entry of a row in the cached or the combining state, with its key. -/
def Gecko.findRow (g : Gecko) (combining : Bool) (t r : Nat) : Option (Nat × GkEntry) :=
  (g.ways (gkSet t r)).findSome? fun (w, e) =>
    match e with
    | some e => if e.combining = combining && e.table = t && e.row = r then some (8 * gkSet t r + w, e) else none
    | none => none

def Gecko.set (g : Gecko) (k : Nat) (e : GkEntry) : Gecko := { g with entries := SMap.insert k e g.entries }
def Gecko.drop (g : Gecko) (k : Nat) : Gecko := { g with entries := SMap.erase k g.entries }

/-- FREQ rises by one, saturating at 255 (R126). -/
def GkEntry.touch (e : GkEntry) : GkEntry := { e with freq := min 255 (e.freq + 1) }

/-- The first slot and the number of slots of a cluster (R124). -/
def gkSlots (c : Nat) : Nat × Nat := if c < 8 then (1639 * c, 1639) else (13112 + 1638 * (c - 8), 1638)

/-- Slots in clusters that are in service (GKO_CAP.SLOTS_EN). -/
def State.gkPool (s : State) (d : Nat) : List (Nat × Nat) := ((List.range 20).filter (s.cluUp d)).map gkSlots

/-- The lowest run of `n` free slots that lies in the pool (log 21). -/
def State.gkRun (s : State) (d n : Nat) : Option Nat :=
  let pool := s.gkPool d
  let used := (s.die d).gecko.entries.map fun (_, e) => (e.slot, e.nslot)
  let inPool (x : Nat) : Bool := pool.any fun (a, l) => a ≤ x && x < a + l
  let edges := pool.map fun (a, l) => a + l
  let free (x : Nat) : Bool := inPool x && inPool (x + n - 1) && !(edges.any fun e => x < e && e < x + n && !inPool e) &&
    !used.any fun (a, l) => x < a + l && a < x + n
  leastBy (fun (a b : Nat) => a < b) ((pool.map (·.1) ++ used.map fun x => x.1 + x.2).filter free)

/-- The way a new entry takes: the lowest invalid way, else the cached row with the lowest FREQ; none when every way combines
(R126). -/
def Gecko.victim (g : Gecko) (set : Nat) : Option (Nat × Option GkEntry) :=
  let ws := g.ways set
  match ws.find? fun (_, e) => e.isNone with
  | some w => some w
  | none =>
    leastBy (fun (a b : Nat × Option GkEntry) => (match a.2, b.2 with | some x, some y => x.freq < y.freq | _, _ => false))
      (ws.filter fun (_, e) => match e with | some e => !e.combining | none => false)

def State.modGecko (s : State) (d : Nat) (h : Gecko → Gecko) : State := s.modDie d fun x => { x with gecko := h x.gecko }

/-- Take a way and `n` slots for a row on a die; the state and whether it succeeded. A displaced cached row counts GKO_EVICT,
and its slot is free for the newcomer. DESIGN CHOICE (log 83): a row for which a way is found but no data slot is free, because combining
runs hold them, stays uncached and displaces nothing; R126 is silent. -/
def State.gkInsert (s : State) (d t r n : Nat) (combining : Bool) : State × Bool :=
  let set := gkSet t r
  match (s.die d).gecko.victim set with
  | none => (s, false)
  | some (w, old) =>
    let key := 8 * set + w
    let s' := if old.isSome then s.modGecko d (·.drop key) else s
    match s'.gkRun d n with
    | none => (s, false)
    | some x =>
      let s' := s'.modGecko d (·.set key ⟨combining, t, r, 1, x, n, 0⟩)
      (if old.isSome then s'.cntDie d 2 else s', true)

/-- A look-up of a row at its owner die (R125, R126). One in the directory exercises its parity (R347). -/
def State.gkLookup (s : State) (d : Nat) (t : Table) (r : Nat) : State :=
  if t.long then s.cntDie d 3
  else if !(s.die d).gecko.cacheEn then s.cntDie d 1
  else
    let s := s.exercised d [.gecko d]
    let s := s.modGecko d fun g => { g with accesses := g.accesses + 1 }
    match (s.die d).gecko.findRow false t.id r with
    | some (k, e) => (s.modGecko d (·.set k e.touch)).cntDie d 0
    | none => ((s.cntDie d 1).gkInsert d t.id r 1 false).1

/-- The row's entry becomes invalid: its owner has changed (R127). -/
def State.gkInvalidate (s : State) (d t r : Nat) : State :=
  match (s.die d).gecko.findRow false t r with
  | some (k, _) => s.modGecko d (·.drop k)
  | none => s

/-- Add a listing to a row's combining entry, making the entry when there is room (R129). Answers whether the row combines in
slots. -/
def State.gkCombine (s : State) (d : Nat) (t : Table) (r : Nat) : State × Bool :=
  let s := s.exercised d [.gecko d]
  match (s.die d).gecko.findRow true t.id r with
  | some (k, e) =>
    (s.modGecko d fun g =>
      { g.set k { e.touch with addends := min (2 ^ 24 - 1) (e.addends + 1) } with accesses := g.accesses + 1 }, true)
  | none =>
    if 1024 < t.elems then (s, false)
    else
      let (s, ok) := s.gkInsert d t.id r (ceilDiv t.elems 64) true
      (match ok, (s.die d).gecko.findRow true t.id r with
        | true, some (k, e) => s.modGecko d fun g => { g.set k { e with addends := 1 } with accesses := g.accesses + 1 }
        | _, _ => s, ok)

/-- Combining entries of a table return to invalid (R130, R134). -/
def State.gkRelease (s : State) (d : Nat) (t : Option Nat) : State :=
  s.modGecko d fun g =>
    { g with entries := g.entries.filter fun (_, e) => !(e.combining && (match t with | some t => e.table = t | none => true)) }

/-- GKO_CTL.FLUSH: every cached-row entry becomes invalid. -/
def State.gkFlush (s : State) (d : Nat) : State :=
  s.modGecko d fun g => { g with entries := g.entries.filter fun (_, e) => e.combining }

/-- R308. -/
def execGkoFlush (f die : Nat) (s : State) : Done :=
  let d := s.physDie f die
  .next (if s.up d && (s.quad → die = 0) then s.gkFlush d else s.violOor f)

/-- R126: after every 2^20 directory accesses every FREQ is halved. -/
def execGeckoHalve (die : Nat) (s : State) : Done :=
  .next (if 2 ^ 20 ≤ (s.die die).gecko.accesses then
    s.modGecko die fun g =>
      { g with
        entries := g.entries.map fun (k, e) => (k, { e with freq := e.freq / 2 })
        accesses := minus g.accesses (2 ^ 20)
        halvings := (g.halvings + 1) % 2 ^ 16 }
  else s)

end Sys2Proof.Machine
end

