-- ==== Sys2Proof/Machine/Bellows.lean ====
section
/-!
DEFINITION. Bellows (chapter 5): serving row and pool requests at an owner, combining replies at the requester, gradients back to
owners, END and the close of a table's combining.
-/
namespace Sys2Proof.Machine

def Table.F (t : Table) : Fmt := Fmt.ofCode t.fmt

/-- The elements of a row's bytes. -/
def Table.elemsOf (t : Table) (b : List Byte) : List Nat := natsOf t.width t.elems b

/-- Send to the die that an owner index names (R117): a die of this module over its links, or a peer. -/
def State.sendOwner (s : State) (f die : Nat) (t : Table) (o : Nat) (msg : WireMsg) : State :=
  let (m, d) := ownerEntry (t.owners.getD o 0)
  if m = t.myPos then s.sendLocal f die (match t.block o with | some b => b.server | none => s.physDie f d) msg
  else s.send f die (t.modules.getD m 0) d msg

/-- Send to a requesting die, coded as REQ (Table 5.3). -/
def State.sendReq (s : State) (f die : Nat) (t : Table) (req : Nat) (msg : WireMsg) : State :=
  let (m, d) := ownerEntry req
  if m = t.myPos then s.sendLocal f die (s.physDie f d) msg else s.send f die (t.modules.getD m 0) d msg

/-- REQ of a die of this module. -/
def State.reqOf (s : State) (t : Table) (d : Nat) : Nat := t.myPos * 4 + s.locDie d

/-- A Bellows that takes work (R377). -/
def State.bellowsOk (s : State) (d c : Nat) : Bool :=
  s.cluUp d c && !(s.clu d c).bellows.disabled && !(s.clu d c).bellows.disabling && !(s.clu d c).bellows.enabling

/-- The cluster that serves a requesting cluster's request (R119). -/
def State.serving (s : State) (d c : Nat) : Nat :=
  (((List.range 20).map fun k => (c + k) % 20).find? (s.bellowsOk d)).getD c

/-- The control core of the cluster that serves a message at its owner is stopped, so that the message waits at the die (Table 17.4). -/
def State.ownerStops (s : State) (f : Nat) (m : BellowsMsg) : Bool :=
  match ((s.func f).table m.table).bind fun t => t.block m.owner with
  | some b => s.procStops (.control b.server (s.serving b.server m.cluster))
  | none => false

/-- Whether a message's FMT is a code that its kind accepts (R36, Table 5.3): the table's format in requests and raw rows, that, XA64 or
FP32 pairs in partials, FP16 in gradients. A message with another code is malformed: it is taken and has no further effect
(DESIGN CHOICE, log 22). -/
def Table.fmtOk (t : Table) (m : BellowsMsg) : Bool :=
  if m.kind ≤ 2 then m.fmt = t.fmt
  else if m.kind = 3 then m.fmt = t.fmt || (!m.raw && m.fmt = (if t.fmt = 2 then 8 else 0))
  else m.kind ≠ 4 || m.fmt = 2

/-! ## Serving -/

def bumpRead (l : List Reads) (t d o st k : Nat) : List Reads :=
  upsert (fun x => x.table = t && x.die = d && x.owner = o && x.step = st && x.key = k) (fun x => { x with n := x.n + 1 })
    ⟨t, d, o, st, k, 1⟩ l

/-- Count a read that an owner's die served for a step: by shard, and in the tally under AUTO_MIG (R142). -/
def State.countRead (s : State) (f : Nat) (t : Table) (b : OwnerBlock) (st sh r : Nat) : State :=
  s.modFunc f fun g =>
    { g with
      reads := bumpRead g.reads t.id b.server b.owner st sh
      tally := if t.autoMig then bumpRead g.tally t.id b.server b.owner st r else g.tally }

/-- Whether a row must be fetched from another owner: a stub stands for it, or it lies elsewhere (R148, R151). -/
def Func.away (g : Func) (t : Table) (o r : Nat) : Bool := (g.stub t.id o r).isSome || (g.slotAt t o r).isNone

/-- Where a row that is away is fetched: the new owner with shard and migration slot. -/
def Func.awayAt (g : Func) (t : Table) (o r : Nat) : Nat × Nat × Nat :=
  match g.stub t.id o r with
  | some x => (x.newOwner, x.newShard, x.newSlot)
  | none =>
    match g.loc t.id r with
    | some l => (l.owner, l.shard, l.slot)
    | none => ((t.home r).1, (t.home r).2.1, homeMark)

/-- Read one row while serving: fetched by a stub, or looked up in Gecko and read from its slot (R119, R142). -/
def State.serveRow (s : State) (f : Nat) (t : Table) (b : OwnerBlock) (c st r : Nat) : List Nat × State :=
  let g := s.func f
  match g.fwdRows.find? fun x => x.table = t.id && x.row = r with
  | some x =>
    let sh := match g.stub t.id b.owner r, g.slotAt t b.owner r with
      | some x, _ => x.oldShard
      | none, some (sh, _) => sh
      | none, none => 0
    (t.elemsOf x.data, ((s.countRead f t b st sh r).cntClu b.server c 9))
  | none =>
    match g.slotAt t b.owner r with
    | some (sh, i) =>
      let s := s.gkLookup b.server t r
      let (data, s) := s.slotRead f t b sh i t.rowBytes
      (t.elemsOf data, (s.countRead f t b st sh r).cntClu b.server c 9)
    | none => ([], s)

/-- A marker for a poisoned element of an XA64 partial, which no sum within R51's bound reaches (log 22). -/
def xaPoison : Nat := 2 ^ 63

/-- The partial of a pool request, for two or more rows (R120): format code, data and winners. -/
def partialOf (t : Table) (op : Nat) (rows : List (Nat × List Nat)) : N (Nat × List Nat × List Nat) :=
  let col (e : Nat) : List (Nat × Nat) := rows.map fun (r, xs) => (xs.getD e 0, r)
  if op = 3 then
    let best := (List.range t.elems).map fun e => (maxWinner t.F (8 * t.width) (col e)).getD (0, 0)
    return (t.fmt, best.map (·.1), best.map (·.2))
  else if t.fmt = 2 then
    return (8, (List.range t.elems).map fun e =>
      let x := (col e).foldl (fun (x : Xa) v => x.add v.1) Xa.empty
      if x.poisoned then xaPoison else toTwos 64 x.value, [])
  else do
    let ps ← (List.range t.elems).mapM fun e => chain ((col e).map fun v => (widen t.F v.1, zero32))
    return (0, ps.map fun p => p.1.toNat + 2 ^ 32 * p.2.toNat, [])

/-- Whether a pattern of a format is non-finite. -/
def Fmt.nonFinite (F : Fmt) (x : Nat) : Bool := !fvFinite (F.decode x)

/-- Serve a request whose rows are all at hand (R119 to R122). -/
def State.serveReq (s : State) (f : Nat) (t : Table) (b : OwnerBlock) (m : BellowsMsg) : State :=
  let c := s.serving b.server m.cluster
  let good := m.rows.filter (· < t.rows)
  let bad := m.rows.length - good.length
  let s := (s.cntClu b.server c 11 bad).violOor f bad
  let (rows, s) := good.foldl (fun (acc, s) r =>
    let (xs, s) := State.serveRow s f t b c m.step r
    (acc ++ [(r, xs)], s)) (([] : List (Nat × List Nat)), s)
  let ahead := (s.func f).isAhead m.step
  let base : BellowsMsg :=
    { m with
      count := rows.length, rows := [], data := [], winners := [], raw := false, fmt := t.fmt
      kind := if m.kind = 0 then 2 else 3
      nf := rows.any fun (_, xs) => xs.any (Fmt.nonFinite t.F) }
  let die := b.server
  let s := s.modFunc f fun g => { g with fwdRows := g.fwdRows.filter fun x => !(x.table = t.id && good.contains x.row) }
  match rows with
  | [] => s.sendReq f die t m.req (.bellows base)
  | [(r, xs)] =>
    (s.cntClu die c 10).sendReq f die t m.req
      (.bellows { base with raw := true, data := xs, winners := if m.op = 3 && m.kind = 1 then [r] else [] })
  | _ =>
    let ((fm, data, ws), s) := s.calc (.combiner die c) f ahead (partialOf t m.op rows)
    s.sendReq f die t m.req (.bellows { base with fmt := fm, data := data, winners := ws })

/-- The step in progress, or 0. -/
def Func.stepNow (g : Func) : Nat := match g.cur with | some st => st.n | none => 0

/-- Fetch the rows of a request that are away; MIG_FWD counts each fetch (R148, R151). -/
def State.fetchAway (s : State) (f : Nat) (t : Table) (b : OwnerBlock) (rows : List Nat) : State :=
  rows.eraseDups.foldl (fun s r =>
    let (no, sh, sl) := (s.func f).awayAt t b.owner r
    (s.cntDie b.server 11).sendOwner f b.server t no
      (.tableMaint ⟨8, false, false, t.id, b.owner, no, r, sh, sl, 0, (s.func f).stepNow, []⟩)) s

/-- The key of a row that lies in borrowed memory (R139). -/
def Func.remoteAt (g : Func) (t : Table) (b : OwnerBlock) (r : Nat) : Option Nat :=
  match g.slotAt t b.owner r with
  | some (sh, i) => let k := t.slotKey b sh i (t.isFlipped b.owner sh i); if apBase ≤ k then some k else none
  | none => none

/-- The rows of a request that are not at hand yet: away and not fetched (R148), or in borrowed memory and not answered (R314). -/
def Func.missing (g : Func) (t : Table) (b : OwnerBlock) (m : BellowsMsg) : List Nat :=
  m.rows.filter fun r => r < t.rows && (g.away t b.owner r || (g.remoteAt t b r).isSome) &&
    !(g.fwdRows.any fun x => x.table = t.id && x.row = r)

/-- Whether the slot of a row at a key is at hand: it lies in the module's own memory, or the read of it has been answered (R314). -/
def Func.atHand (g : Func) (k t r : Nat) : Bool := k < apBase || g.fwdRows.any fun x => x.table = t && x.row = r

/-- Read `n` bytes of a row's slot in borrowed memory, unless they are at hand or the read is under way (R314). -/
def State.fetchKey (s : State) (f k n t r : Nat) : State :=
  let g := s.func f
  let reading := g.apertures.any fun x => x.2.pending.any fun p => !p.mem.write && p.table = t && p.row = r
  if g.atHand k t r || reading then s else s.peerAccess k false n [] [] t r

/-- A row that was at hand has been used. -/
def Func.dropRow (g : Func) (t r : Nat) : Func := { g with fwdRows := g.fwdRows.filter fun x => !(x.table = t && x.row = r) }

/-- Read the rows of a request that lie in borrowed memory. -/
def State.fetchRemote (s : State) (f : Nat) (t : Table) (b : OwnerBlock) (rows : List Nat) : State :=
  rows.foldl (fun s r =>
    match (s.func f).remoteAt t b r with
    | some k => if (s.func f).away t b.owner r then s else s.fetchKey f k t.rowBytes t.id r
    | none => s) s

/-- Ask for the rows that are missing. -/
def State.fetchMissing (s : State) (f : Nat) (t : Table) (b : OwnerBlock) (rows : List Nat) : State :=
  (s.fetchAway f t b (rows.filter ((s.func f).away t b.owner))).fetchRemote f t b rows

/-- A request arrives at an owner die: served at once, or when the rows that are away have been fetched and the die has a Bellows
that takes work (R377). -/
def State.request (s : State) (f : Nat) (m : BellowsMsg) : State :=
  match (s.func f).table m.table with
  | none => s
  | some t =>
    match (if t.fmtOk m then t.block m.owner else none) with
    | none => s
    | some b =>
      let g := s.func f
      let away := g.missing t b m
      if !(List.range 20).any (s.bellowsOk b.server) then s.modFunc f fun g => { g with waitReqs := g.waitReqs ++ [m] }
      else if away.isEmpty then s.serveReq f t b m
      else (s.fetchMissing f t b away).modFunc f fun g => { g with waitReqs := g.waitReqs ++ [m] }

/-- Requests that waited for a fetched row are tried again. -/
def State.retryRequests (s : State) (f : Nat) : State :=
  let ms := (s.func f).waitReqs
  ms.foldl (fun s m =>
    let g := s.func f
    match g.table m.table with
    | some t =>
      match t.block m.owner with
      | some b =>
        if !((List.range 20).any (s.bellowsOk b.server)) then s
        else if !(g.missing t b m).isEmpty then s.fetchRemote f t b (g.missing t b m)
        else (s.modFunc f fun g => { g with waitReqs := eraseOne m g.waitReqs }).serveReq f t b m
      | none => s
    | none => s) s

/-- An owner takes a request for rows, `kind` 0 (R119), or for partials, 1 (R120). -/
def State.askRows (s : State) (f kind : Nat) (m : BellowsMsg) : State :=
  if s.ownerStops f m then s else (s.take f (.bellows m)).1.request f { m with kind := kind }

/-! ## Replies at the requester (R121) -/

/-- The active plan. -/
def Func.activePlan (g : Func) : Option (Nat × Plan) :=
  match g.accepted with
  | (p, _) :: _ => (g.plans.getD p none).map fun x => (p, x)
  | [] => none

/-- One element of an entry from the partials of its owners, in ascending owner index: the output pattern and the winner. -/
def combineElem (t : Table) (op out n : Nat) (ps : List BellowsMsg) (e : Nat) : N (Nat × Nat) := once do
  let O := Fmt.ofCode out
  let ps := ps.filter fun p => p.count ≠ 0
  if ps.isEmpty then return (0, 0xFFFFFFFFFF)
  else if op = 0 then return (← cvt t.F O ((ps.headD default).data.getD e 0), 0)
  else if op = 3 then
    let xs := ps.map fun p => (p.data.getD e 0, p.winners.getD (if p.raw then 0 else e) 0)
    match maxWinner t.F (8 * t.width) xs with
    | some (v, w) =>
      if t.F.decode v == .nan then countNf
      return (← cvt t.F O v, w)
    | none => return (0, 0xFFFFFFFFFF)
  else if t.fmt = 2 then
    let x := ps.foldl (fun (x : Xa) p =>
      let v := p.data.getD e 0
      if p.raw then { x.add v with n := x.n + 1 }
      else if p.nf && v = xaPoison then { x with poisoned := true, n := x.n + p.count }
      else { x with sum := x.sum + sext 64 v, n := x.n + p.count }) Xa.empty
    return (← Xa.readout O 0 (if op = 2 then n else 1) { x with n := n }, 0)
  else
    let p ← chain (ps.map fun p =>
      let v := p.data.getD e 0
      if p.raw then (widen t.F v, zero32) else (mk32 (v % 2 ^ 32), mk32 (v / 2 ^ 32)))
    return (← pairRoundScaled O p 0 (if op = 2 then n else 1), 0)

/-- Write an entry whose replies are all in (R116, R121). -/
def State.writeEntry (s : State) (f : Nat) (D : Desc) (t : Table) (e : GatEntry) : State :=
  let ps := sortBy (fun (a b : BellowsMsg) => a.owner < b.owner) e.replies
  let n := (ps.map (·.count)).sum
  let ahead := (s.func f).isAhead e.step
  let (vs, s) := s.calc (.combiner e.die e.cluster) f ahead
    ((List.range t.elems).mapM (combineElem t (D.op 64 1) D.outFmt n ps))
  let w := (Fmt.ofCode D.outFmt).bytes
  let s := s.devWrite f (D.outAddr + e.entry * D.op 68 2) (vs.flatMap fun v => leBytes w v.1)
  let s := if D.op 72 8 = 0 then s else s.devWrite f (D.op 72 8 + 4 * e.entry) (leBytes 4 n)
  if e.winners = 0 then s else s.devWrite f e.winners (vs.flatMap fun v => leBytes 8 v.2)

/-! ## Sending requests (R133) -/

/-- The most requests that a Bellows has in flight (BLW_ROUTECTL.OUTSTANDING; below 64 acts as 64). -/
def Bellows.limit (b : Bellows) : Nat := max 64 b.outstanding

/-- Requests of an entry that have not left yet. -/
def Func.unsentOf (g : Func) (e : GatEntry) : Nat :=
  (g.unsent.filter fun u => u.die = e.die && u.cluster = e.cluster && u.msg.step = e.step && u.msg.desc = e.desc &&
    u.msg.entry = e.entry).length

/-- Whether a Bellows is within a block of a GATHER (R134): it has sent a request of it, and an entry of it is not written. -/
def Func.inBlock (g : Func) (d c step desc block : Nat) : Bool :=
  let es := g.gather.filter fun e => e.die = d && e.cluster = c && e.step = step && e.desc = desc && e.block = block
  es.any (!·.done) && es.any fun e => g.unsentOf e < e.want

/-- A requesting Bellows that is being disabled has reached the end of its block (R134, R377). -/
def State.settleBellows (s : State) (f d c : Nat) : State :=
  let g := s.func f
  let b := (s.clu d c).bellows
  if b.disabling && !(g.gather.any fun e => e.die = d && e.cluster = c && g.inBlock d c e.step e.desc e.block) then
    s.modClu d c fun x => { x with bellows := { x.bellows with disabled := true, disabling := false, state := 3 } }
  else s

/-- A step of the function is being quenched. -/
def Func.quenching (g : Func) (n : Nat) : Bool := (g.cur.toList ++ g.ahead.toList).any fun st => st.n = n && st.quenched

/-- A Bellows sends the next of its requests while it may; one that is being disabled, or whose step is being quenched, sends those of the
block it is in (R134). -/
def State.sendNext (s : State) (f d c : Nat) : State :=
  let g := s.func f
  let off := (s.clu d c).bellows.disabling
  match g.unsent.find? fun u =>
    u.die = d && u.cluster = c && (!(off || g.quenching u.msg.step) || g.inBlock d c u.msg.step u.msg.desc u.block) with
  | none => s
  | some u =>
    match (s.func f).table u.msg.table with
    | none => s
    | some t =>
      if (s.clu d c).bellows.limit ≤ (s.clu d c).bellows.inflight || !s.cluUp d c || (s.clu d c).bellows.disabled ||
          s.earlyStep f d c u.msg.step || s.procStops (.control d c) then s
      else
        let s := s.modFunc f fun g => { g with unsent := eraseOne u g.unsent }
        let s := (s.cntClu d c 8).modClu d c fun x =>
          { x with bellows := { x.bellows with
              inflight := x.bellows.inflight + 1, desc := u.msg.desc, state := if x.bellows.state = 3 then 3 else 1 } }
        s.sendOwner f d t u.msg.owner (.bellows u.msg)

/-- Every Bellows that holds requests sends what it may. -/
def State.sendRequests (s : State) (f : Nat) : State :=
  (s.func f).unsent.foldl (fun s u => s.sendNext f u.die u.cluster) s

/-- Blocks of which a Bellows has not sent a request yet go to the next Bellows of its die that takes work (R134, R377). -/
def State.moveRequests (s : State) (f d c : Nat) : State :=
  let g := s.func f
  let to' := s.serving d c
  let go (u : Unsent) : Bool := u.die = d && u.cluster = c && !g.inBlock d c u.msg.step u.msg.desc u.block
  if to' = c then s
  else
    let gone := g.unsent.filter go
    let s := s.modFunc f fun g =>
      { g with
        unsent := g.unsent.map fun u => if go u then { u with cluster := to', msg := { u.msg with cluster := to' } } else u
        gather := g.gather.map fun e =>
          if e.die = d && e.cluster = c && !e.done && gone.any (fun u => u.msg.step = e.step && u.msg.desc = e.desc && u.block = e.block) then
            { e with cluster := to' } else e }
    s.sendRequests f

/-- A reply arrives: it is held until every owner of the entry has answered, then the entry is written; its place in flight is free. -/
def State.reply (s : State) (f : Nat) (m : BellowsMsg) : State :=
  let g := s.func f
  let hit (e : GatEntry) : Bool := e.step = m.step && e.desc = m.desc && e.entry = m.entry && !e.done
  match g.gather.find? hit, g.activePlan, (g.table m.table).filter (·.fmtOk m) with
  | some e, some (_, p), some t =>
    let e := { e with replies := e.replies ++ [m] }
    let full := e.want ≤ e.replies.length
    let s := s.modFunc f fun g => { g with gather := g.gather.map fun x => if hit x then { e with done := full } else x }
    let s := s.modClu e.die e.cluster fun c => { c with bellows := { c.bellows with inflight := c.bellows.inflight - 1 } }
    let s := if full then s.writeEntry f (p.desc m.desc) t e else s
    (s.sendNext f e.die e.cluster).settleBellows f e.die e.cluster
  | _, _, _ => s

/-- R121. -/
def execRowReply (f : Nat) (m : BellowsMsg) (s : State) : Done := .next ((s.take f (.bellows m)).1.reply f m)

/-- R121. -/
def execPartialReply (f : Nat) (m : BellowsMsg) (s : State) : Done := .next ((s.take f (.bellows m)).1.reply f m)

/-! ## Gradients at the owner (R129 to R132) -/

def Xa.ofAcc (a : Acc) : Xa := ⟨a.sum, a.n, a.poisoned, a.counted⟩
def Acc.ofXa (x : Xa) : Acc := ⟨x.sum, x.n, x.poisoned, x.counted⟩
def Acc.add (a : Acc) (v : Nat) : Acc := Acc.ofXa ((Xa.ofAcc a).add v)

/-- The combining of a table at an owner for a step. -/
def Func.combine (g : Func) (t o st : Nat) : Option Combine := g.combines.find? fun c => c.table = t && c.owner = o && c.step = st

def Func.modCombine (g : Func) (t o st : Nat) (h : Combine → Combine) : Func :=
  { g with combines := upsert (fun c => c.table = t && c.owner = o && c.step = st) h (h ⟨t, o, st, [], [], [], [], [], false, [], []⟩) g.combines }

/-- The bytes of the combining area that a row's slot has (R129). Their layout is open, so they are free while the row combines there
(log 3). -/
def State.spillBytes (s : State) (f : Nat) (t : Table) (b : OwnerBlock) (r : Nat) : State :=
  match (s.func f).slotAt t b.owner r with
  | some (sh, i) =>
    if b.comb = 0 then s
    else
      let n := 16 * t.elems
      (s.poke (b.comb + (sh * (t.homeSlots + t.migSlots) + i) * n) (s.freeBytes n)).takeFresh n
  | none => s

/-- Add one message into the rows it lists at an owner (R129): every listed row, or under MAX the elements each row won. A row that
combines in bonded DRAM stays there for the step; BLW_COMBSPILL counts it once a step. -/
def State.fanOut (s : State) (f : Nat) (t : Table) (b : OwnerBlock) (m : BellowsMsg) (rows : List Nat) : State :=
  let c := s.serving b.server m.cluster
  let rows := if m.op = 3 then (m.winners.filter rows.contains).eraseDups else rows
  rows.foldl (fun s r =>
    let won (e : Nat) : Bool := m.op ≠ 3 || m.winners.getD e 0xFFFFFFFFFF = r
    let hit (x : CombRow) : Bool := x.die = b.server && x.table = t.id && x.row = r && x.step = m.step
    let old := (s.func f).combRows.find? hit
    let (s, slots) := if (match old with | some x => x.spilled | none => false) then (s, false) else s.gkCombine b.server t r
    let s := if slots then s else s.spillBytes f t b r
    let counted := match (s.func f).combine t.id b.owner m.step with | some c => c.spilled.contains r | none => false
    let s := if slots || counted then s
      else (s.cntClu b.server c 13).modFunc f fun g => g.modCombine t.id b.owner m.step fun c => { c with spilled := c.spilled ++ [r] }
    let read := match (s.func f).combine t.id b.owner m.step with | some c => c.read.contains r | none => false
    let x := old.getD ⟨b.server, t.id, r, m.step, 0, !slots, List.replicate t.elems ⟨0, 0, false, read⟩⟩
    let x := { x with
      addends := x.addends + 1
      acc := x.acc.zipIdx.map fun (a, e) => if won e then a.add (m.data.getD e 0) else a }
    s.modFunc f fun g => { g with combRows := upsert hit (fun _ => x) x g.combRows }) s

/-- Forward the listings of rows that have moved: with FWD_GRAD where a stub stands for the row (R148, R150), and as a gradient message
by the location table where none does (R151). -/
def State.forwardGrad (s : State) (f : Nat) (t : Table) (b : OwnerBlock) (m : BellowsMsg) (rows : List Nat) : State :=
  let g := s.func f
  let goal (r : Nat) : Nat × Bool := ((g.awayAt t b.owner r).1, (g.stub t.id b.owner r).isSome)
  (rows.map goal).eraseDups.foldl (fun s (no, stubbed) =>
    let mine := rows.filter fun r => goal r = (no, stubbed)
    let inner := { m with owner := no, rows := mine, count := mine.length }
    if !stubbed then (s.cntDie b.server 11).sendOwner f b.server t no (.bellows inner)
    else
    let s := s.modFunc f fun g =>
      { g with stubs := g.stubs.map fun x =>
          if x.table = t.id && x.oldOwner = b.owner && mine.contains x.row && !x.forwarded.contains m.step then
            { x with forwarded := x.forwarded ++ [m.step] } else x }
    (s.cntDie b.server 11).sendOwner f b.server t no
      (.tableMaint ⟨10, false, false, t.id, b.owner, no, mine.headD 0, 0, 0, 0, m.step, bellowsEncode inner⟩)) s

/-- Add a gradient message that belongs to an open combining; `passed` says that no requester would send it again. -/
def State.addGrad (s : State) (f : Nat) (t : Table) (b : OwnerBlock) (m : BellowsMsg) (passed : Bool := false) : State :=
  let g := s.func f
  let good := m.rows.filter (· < t.rows)
  let away := good.filter (g.away t b.owner)
  let here := good.filter fun r => !g.away t b.owner r
  let s := s.modFunc f fun g => g.modCombine t.id b.owner m.step fun c =>
    { c with added := c.added ++ [(m.req, m)], passed := if passed then c.passed ++ [m] else c.passed, lost := eraseOne m c.lost }
  let s := s.fanOut f t b m here
  if away.isEmpty then s else s.forwardGrad f t b m away

/-- LATE of the plan's Chorus group: true is DROP (Table 11.1). -/
def Func.lateDrop (g : Func) : Bool :=
  match g.activePlan with
  | some (_, p) => match g.groups.getD p.group none with | some gr => bit (at' gr.params 2 1) 0 | none => false
  | none => false

/-- The bit of a rank in a MASK message. -/
def maskHas (m : ChorusMsg) (r : Nat) : Bool := bit (leNat ((m.payload.drop (r / 8)).take 1)) (r % 8)

/-- The requesters of a table that Chorus has decided are absent in a step (R131): the dies of every member rank outside the
mask. -/
def Func.absent (g : Func) (t : Table) (st : Nat) : List Nat :=
  match g.activePlan with
  | none => []
  | some (_, p) =>
    match g.groups.getD p.group none, g.chorus.steps.find? fun c => c.slot = p.group && c.step = st with
    | some gr, some c =>
      match c.mask with
      | none => []
      | some m =>
        ((List.range gr.members.length).filter fun r => !maskHas m r).flatMap fun r =>
          let pos := if r = at' gr.params 6 2 then some t.myPos
            else t.modules.findIdx? fun e => e = gr.members.getD r 0
          match pos with
          | some k => (List.range 4).map (4 * k + ·)
          | none => []
    | _, _ => []

/-- Whether the combining of a table at an owner has closed for a step. -/
def Func.combineClosed (g : Func) (t o st : Nat) : Bool := match g.combine t o st with | some c => c.closed | none => false

/-- The next step into which a late gradient folds: the first behind its own whose combining at the owner has not closed. -/
def Func.foldStep (g : Func) (m : BellowsMsg) : Nat :=
  (((List.range (g.combines.length + 1)).map (m.step + 1 + ·)).find? fun n => !g.combineClosed m.table m.owner n).getD (m.step + 1)

/-- A gradient arrives (R129, R131). After the close, or from a requester that Chorus has decided is absent, it is late: carried into
the next step or dropped. A second copy of a message that has been added, which was under way when its requester was asked to send
again, adds nothing (R132, DEDUCED, log 23). -/
def State.gradIn (s : State) (f : Nat) (m : BellowsMsg) (passed : Bool := false) : State :=
  match (s.func f).table m.table with
  | none => s
  | some t =>
    match (if t.fmtOk m then t.block m.owner else none) with
    | none => s
    | some b =>
      let again := match (s.func f).combine t.id m.owner m.step with | some c => c.added.any fun x => x.2 = m | none => false
      if again then s
      else if (s.func f).combineClosed t.id m.owner m.step || ((s.func f).absent t m.step).contains m.req then
        let s := s.cntClu b.server (s.serving b.server m.cluster) 14
        if (s.func f).lateDrop then s
        else s.modFunc f fun g => { g with lateGrads := g.lateGrads ++ [{ m with step := g.foldStep m }] }
      else s.addGrad f t b m passed

/-- R129. -/
def execGradient (f : Nat) (m : BellowsMsg) (s : State) : Done := .next ((s.take f (.bellows m)).1.gradIn f { m with kind := 4 })

/-- The GATHER descriptors of the active plan that return gradients to a table (R76). -/
def Func.gradDescs (g : Func) (t : Nat) : List Nat :=
  match g.activePlan with
  | some (_, p) => (p.descs.zipIdx.filter fun ((D : Desc), _) => D.opkind = 0x0010 && D.tableId = t && !D.noGrad).map (·.2)
  | none => []

/-- The requesters of a table: its own dies in service, and four dies of each other module (one in Quad, log 23). -/
def State.requesters (s : State) (f : Nat) (t : Table) : List Nat :=
  (List.range t.modules.length).flatMap fun m =>
    if m = t.myPos then (s.upDies f).map (s.reqOf t)
    else (List.range (if s.quad then 1 else 4)).map fun d => 4 * m + d

/-- The key of an END: its requester and its descriptor. -/
def endKey (req desc : Nat) : Nat := req + 2 ^ 32 * desc

/-- Whether an owner holds END from every requester that is not absent, and every message that a restart has asked for again. -/
def State.endsIn (s : State) (f : Nat) (t : Table) (c : Combine) (absent : List Nat) : Bool :=
  let need := ((s.requesters f t).filter fun r => !absent.contains r).flatMap fun r =>
    ((s.func f).gradDescs t.id).map (endKey r)
  need.all c.ends.contains && c.lost.all fun m => absent.contains m.req

/-- Stubs of an owner that forwarded listings in a step owe FWD_END to each new owner (R148). -/
def State.sendFwdEnds (s : State) (f : Nat) (t : Table) (b : OwnerBlock) (st : Nat) : State :=
  let xs := (s.func f).stubs.filter fun x => x.table = t.id && x.oldOwner = b.owner && x.forwarded.contains st
  let s := s.modFunc f fun g =>
    { g with stubs := g.stubs.map fun x =>
        if x.table = t.id && x.oldOwner = b.owner then { x with forwarded := x.forwarded.erase st } else x }
  (xs.map (·.newOwner)).eraseDups.foldl (fun s no =>
    s.sendOwner f b.server t no (.tableMaint ⟨7, false, false, t.id, b.owner, no, 0, 0, 0, 0, st, []⟩)) s

/-- Read out the touched rows and write the row-gradient list (R130). -/
def State.closeCombine (s : State) (f : Nat) (t : Table) (b : OwnerBlock) (st : Nat) : State :=
  let rows := sortBy (fun (x y : CombRow) => x.row < y.row)
    ((s.func f).combRows.filter fun x => x.die = b.server && x.table = t.id && x.step = st &&
      (((s.func f).slotAt t b.owner x.row).isSome))
  let c := s.serving b.server 0
  let (outs, s) := rows.foldl (fun (acc, s) x =>
    let (vs, s) := State.calc s (.combiner b.server c) f false
      (x.acc.mapM fun a => Xa.readout Fmt.fp32 (-t.gexp) 1 (Xa.ofAcc a))
    (acc ++ [(leBytes 8 (x.row + 2 ^ 40 * min x.addends (2 ^ 24 - 1)) ++ vs.flatMap (leBytes 4))], s)) (([] : List (List Byte)), s)
  let recs := outs.flatMap fun r => r ++ zeros (t.gradRecord - r.length)
  let s := if b.glist = 0 then s else s.store b.glist (leBytes 8 st ++ leBytes 8 rows.length ++ zeros 48 ++ recs)
  let s := rows.foldl (fun s x =>
    match (s.die b.server).gecko.findRow true t.id x.row with
    | some (k, _) => s.modGecko b.server (·.drop k)
    | none => s) s
  s.modFunc f fun g =>
    { (g.modCombine t.id b.owner st fun c =>
        { c with closed := true, read := (c.read ++ rows.map (·.row)).eraseDups }) with
      combRows := g.combRows.filter fun x => !rows.contains x }

/-- Fold the gradients carried from the step before into a combining that closes (R131). They wait for the close, so that a restart
of the combining does not lose them. -/
def State.foldLate (s : State) (f : Nat) (t : Table) (b : OwnerBlock) (st : Nat) : State :=
  let due (x : BellowsMsg) : Bool := x.table = t.id && x.owner = b.owner && x.step = st
  let ms := (s.func f).lateGrads.filter due
  let s := s.modFunc f fun g => { g with lateGrads := g.lateGrads.filter fun x => !due x }
  ms.foldl (fun s m => s.addGrad f t b m true) s

/-- Whether a stub of a function of this module may still forward listings of a step to an owner, or forwarded ones are on their way
(R148): the old owner does not hold every END yet, or a FWD_GRAD or a FWD_END has not been taken up. Of a stub on another module an owner
learns by the FWD_GRAD alone (log 24). -/
def State.stubsOpen (s : State) (f : Nat) (t : Table) (o st : Nat) : Bool :=
  let g := s.func f
  let sent (kind newOwner table step : Nat) : Bool := (kind = 10 || kind = 7) && newOwner = o && table = t.id && step = st
  ((List.range 4).any fun k =>
    let h := s.func k
    match h.table t.id with
    | some u => u.modules = t.modules && h.stubs.any fun x => x.table = t.id && x.newOwner = o &&
        (match h.combine t.id x.oldOwner st with
         | some c => !c.closed && !s.endsIn k u c (h.absent u st)
         | none => true)
    | none => false) ||
  (s.links.any fun l => match l.msg with | .tableMaint m => l.func = f && sent m.kind m.newOwner m.table m.step | _ => false) ||
  g.ep.inbox.any fun r => r.proto = 3 && (let m := tableMsgParse r.data; sent m.kind m.newOwner m.table m.step)

/-- Close the combining of a table at an owner when every END and FWD_END that it waits for is in, ranks that Chorus has decided
are absent apart (R130, R131, R148). -/
def State.tryClose (s : State) (f t o st : Nat) : State :=
  match (s.func f).table t, (s.func f).combine t o st with
  | some tb, some c =>
    match tb.block o with
    | some b =>
      if c.closed || !s.endsIn f tb c ((s.func f).absent tb st) then s
      else
        let s := (s.foldLate f tb b st).sendFwdEnds f tb b st
        if c.stubsOwed.isEmpty && !s.stubsOpen f tb o st then s.closeCombine f tb b st else s
    | none => s
  | _, _ => s

/-- Close what may close at every owner of a table on this module, the given one first. -/
def State.tryCloseAll (s : State) (f t o st : Nat) : State :=
  let others := match (s.func f).table t with | some tb => (tb.blocks.map fun (b : OwnerBlock) => b.owner).filter (· ≠ o) | none => []
  others.foldl (fun s k => s.tryClose f t k st) (s.tryClose f t o st)

/-- R130. -/
def execEndMark (f : Nat) (m : BellowsMsg) (s : State) : Done :=
  if s.ownerStops f m then .next s else
  let s := (s.take f (.bellows m)).1
  let late := match (s.func f).combine m.table m.owner m.step with | some c => c.closed | none => false
  if late then .next s
  else
    let s := s.modFunc f fun g => g.modCombine m.table m.owner m.step fun c =>
      { c with ends := c.ends ++ [endKey m.req m.desc] }
    .next (s.tryCloseAll f m.table m.owner m.step)

/-- R132: a requester sends its gradient messages for the step again, and its END after them. -/
def execResend (f : Nat) (m : BellowsMsg) (s : State) : Done :=
  let die := s.physDie f (fld m.req 0 2)
  if s.procStops (.control die (s.serving die m.cluster)) then .next s else
  let (s, _) := s.take f (.bellows m)
  match (s.func f).table m.table with
  | some t =>
    let again := (s.func f).keptGrads.filter fun (o, x) => o = m.owner && x.table = m.table && x.step = m.step && x.req = m.req
    .next (again.foldl (fun s (o, x) => s.sendOwner f die t o (.bellows x)) s)
  | none => .next s

/-- Discard the combining of a table for a step at an owner and ask for the messages again, of the present requesters
(R131, R132). It closes only when all that it held of them has come again. What a stub forwarded and what a step before carried is added
again at once, since RESEND brings neither (DESIGN CHOICE, log 23). -/
def State.restartCombine (s : State) (f : Nat) (t : Table) (b : OwnerBlock) (st : Nat) : State :=
  let absent := (s.func f).absent t st
  let present := (s.requesters f t).filter fun r => !absent.contains r
  let held := (s.func f).combine t.id b.owner st
  let passed := match held with | some c => c.passed.filter fun (m : BellowsMsg) => !absent.contains m.req | none => []
  let lost := match held with
    | some c => (c.lost ++ (c.added.map (·.2)).filter fun m => !c.passed.contains m).filter fun (m : BellowsMsg) => present.contains m.req
    | none => []
  let s := s.modFunc f fun g =>
    { (g.modCombine t.id b.owner st fun c => { c with ends := [], added := [], passed := [], lost := lost, closed := false }) with
      combRows := g.combRows.filter fun x => !(x.die = b.server && x.table = t.id && x.step = st) }
  let s := s.gkRelease b.server (some t.id)
  let s := passed.foldl (fun s m => s.addGrad f t b m true) s
  present.foldl (fun s r =>
    s.sendReq f b.server t r (.bellows ⟨6, 0, 2, false, false, t.id, b.owner, r, 0, 0, 0, 0, st, [], [], []⟩)) s

end Sys2Proof.Machine
end

