-- ==== Sys2Proof/Machine/Norm.lean ====
section
/-!
DEFINITION. The exact derivatives of NORM's reference order (R215, R237, R243): each is the exact value of the derivative at the
operands, mu and r, and is rounded once (log 5).
-/
namespace Sys2Proof.Machine

/-- A value with its tangent. -/
structure Dual where
  v : Rat
  d : Rat

def Dual.mul (a b : Dual) : Dual := ⟨a.v * b.v, a.v * b.d + a.d * b.v⟩
def Dual.sub (a b : Dual) : Dual := ⟨a.v - b.v, a.d - b.d⟩
def Dual.sum (l : List Dual) : Dual := l.foldl (fun s x => ⟨s.v + x.v, s.d + x.d⟩) ⟨0, 0⟩
def Dual.mean (l : List Dual) : Dual := let s := Dual.sum l; ⟨s.v / l.length, s.d / l.length⟩

/-- Values with their tangents; a missing tangent is zero. -/
def duals (xs dxs : List F32) : List Dual := xs.zipIdx.map fun (x, i) => ⟨ratOf x, ratOf (dxs.getD i zero32)⟩

/-- The deviations d of a vector and r, with their tangents: r is (v + ε)^(−1/2), v the mean of d². -/
def normDual (op : Nat) (xs dxs : List F32) (mu r : F32) : List Dual × Dual :=
  let X := duals xs dxs
  let m : Dual := if op = 0 then ⟨ratOf mu, (Dual.mean X).d⟩ else ⟨0, 0⟩
  let ds := X.map fun x => x.sub m
  let q := ratOf r
  (ds, ⟨q, -(q * q * q) * (Dual.mean (ds.map fun d => ⟨d.v * d.d, 0⟩)).v⟩)

/-- The gradient of a vector's elements, from g = γ × dy. -/
def normBack (op : Nat) (ds : List Dual) (r : Dual) (gs : List Dual) : List Dual :=
  let m := Dual.mean ((ds.zip gs).map fun (d, g) => d.mul g)
  let r3 := (r.mul r).mul r
  let D := (ds.zip gs).map fun (d, g) => (g.mul r).sub ((r3.mul d).mul m)
  if op = 0 then let a := Dual.mean D; D.map fun x => x.sub a else D

/-- A result of a derivative: a non-finite operand makes it the canonical NaN (log 5). -/
def normOut (ok : Bool) (q : Rat) : N F32 := if ok then rndRat q else retNan

/-- What the derivatives of one vector read: its elements and their tangents, the gains, mu and r, the gradient of its outputs and
that gradient's tangent. -/
structure NormIn where
  op : Nat
  xs : List F32
  dxs : List F32
  gains : List F32
  mu : F32
  r : F32
  dys : List F32
  ddys : List F32

def NormIn.ok (n : NormIn) : Bool := (n.xs ++ n.dxs ++ n.gains ++ [n.mu, n.r] ++ n.dys ++ n.ddys).all isFin32

def NormIn.dual (n : NormIn) : List Dual × Dual := normDual n.op n.xs n.dxs n.mu n.r

/-- γ × dy with its tangent. -/
def NormIn.scaled (n : NormIn) : List Dual :=
  ((duals n.dys n.ddys).zip n.gains).map fun (y, g) => y.mul ⟨ratOf g, 0⟩

/-- The gradient of a vector (R237), and its tangent when `tan` (R243). -/
def NormIn.back (n : NormIn) (tan : Bool) : N (List F32) :=
  let (ds, r) := n.dual
  (normBack n.op ds r n.scaled).mapM fun x => normOut n.ok (if tan then x.d else x.v)

/-- The tangent of a vector's outputs (R243). -/
def NormIn.tangent (n : NormIn) : List (N F32) :=
  let (ds, r) := n.dual
  (ds.zip n.gains).map fun (d, g) => normOut n.ok (ratOf g * (d.mul r).d)

/-- A vector's part of the gradients of the gains, then, for layer normalisation, of the offsets; their tangents when `tan`. -/
def NormIn.params (n : NormIn) (tan : Bool) : N (List F32) := do
  let (ds, r) := n.dual
  let ys := duals n.dys n.ddys
  let pick (x : Dual) : Rat := if tan then x.d else x.v
  let g ← (ds.zip ys).mapM fun (d, y) => normOut n.ok (pick (y.mul (d.mul r)))
  let b ← if n.op = 0 then ys.mapM fun y => normOut n.ok (pick y) else pure []
  return g ++ b

end Sys2Proof.Machine
end

