-- ==== Sys2Proof/Machine/Migrate.lean ====
section
/-!
DEFINITION. Writing rows (R153 to R156) and moving them (R144 to R152): host writes, the migration protocol of Table 6.4, stubs,
location updates, and the selection of rows at a step boundary.
-/
namespace Sys2Proof.Machine

/-! ## Host writes (R153) -/

/-- One row of a host command has been applied: the command completes with the last (R153). -/
def State.rowDone (s : State) (f : Nat) (issuer : Option Nat) : State :=
  match issuer with
  | none => s
  | some id =>
    match (s.func f).rowJobs.find? fun j => j.id = id with
    | none => s
    | some j =>
      if j.left ≤ 1 then (s.modFunc f fun g => { g with rowJobs := g.rowJobs.filter fun j => j.id ≠ id }).single j.sub stOk
      else s.modFunc f fun g =>
        { g with rowJobs := g.rowJobs.map fun j => if j.id = id then { j with left := j.left - 1 } else j }

/-- Whether U is writing a trainable table on this function's dies (R156). -/
def Func.uWriting (g : Func) (t : Table) : Bool :=
  t.trainable && (match g.cur with | some st => st.phase = .u | none => false) && !(g.gradDescs t.id).isEmpty

def Func.migOf (g : Func) (t o r : Nat) : Option Mig := g.migs.find? fun m => m.table = t && m.row = r && m.oldOwner = o

def Func.modMig (g : Func) (t o r : Nat) (h : Mig → Mig) : Func :=
  { g with migs := g.migs.map fun m => if m.table = t && m.row = r && m.oldOwner = o then h m else m }

/-- A row of a command has left for another owner in a message; the command waits for it (R153). -/
def State.owe (s : State) (f : Nat) (t : Table) (o : Nat) (msg : WireMsg) (issuer : Option Nat) : State :=
  let (m, _) := ownerEntry (t.owners.getD o 0)
  let dest := if m = t.myPos then 0 else t.modules.getD m 0
  match issuer with
  | some id => s.modFunc f fun g => { g with owed := g.owed ++ [⟨id, dest, msg.bytes⟩] }
  | none => s

/-- A row that had left has been applied at its owner: on this module, or, at another endpoint, by its delivery acknowledgement
(R153, log 18). -/
def State.settle (s : State) (f dest : Nat) (data : List Byte) : State :=
  match (s.func f).owed.find? fun o => o.dest = dest && o.data = data with
  | none => s
  | some o => (s.modFunc f fun g => { g with owed := eraseOne o g.owed }).rowDone f (some o.issuer)

/-- The row of a message from `src` has been applied here: the sender is this module itself, or one of its functions (R26). -/
def State.settleFrom (s : State) (f : Nat) (src : Option Nat) (data : List Byte) : State :=
  match src with
  | none => s.settle f 0 data
  | some e => match s.endpointOf e with
    | some g => s.settle g (s.func f).ep.fabricId data
    | none => s

/-- The FWD_WRITE that passes a write on to where its row went (R148). -/
def forwardMsg (t : Table) (o no sh sl st : Nat) (w : RowWrite) : WireMsg :=
  .tableMaint ⟨5, false, false, t.id, o, no, w.row, sh, sl, 0, st, leBytes 4 w.first ++ leBytes 4 w.count ++ w.data⟩

/-- Pass a write on to where its row went; MIG_FWD counts it (R148, R151). -/
def State.forwardWrite (s : State) (f : Nat) (t : Table) (b : OwnerBlock) (no sh sl : Nat) (w : RowWrite) : State :=
  let msg := forwardMsg t b.owner no sh sl (s.func f).stepNow w
  (((s.cntDie b.server 11).owe f t no msg w.issuer).sendOwner f b.server t no msg)

/-- Whether a replacement must wait: the copy that it would overwrite lies in borrowed memory and a read of it has not been answered. Such a
read began before the last flip, since later ones read the other copy (R155). -/
def State.readBusy (s : State) (f : Nat) (t : Table) (b : OwnerBlock) (sh i : Nat) (w : RowWrite) : Bool :=
  let k := t.slotKey b sh i (!(((s.func f).table t.id).getD t).isFlipped b.owner sh i)
  w.replace && t.long && match apertureOf k with
    | none => false
    | some (_, a, off) => match SMap.find a (s.func f).apertures with
      | some ap => ap.pending.any fun p => !p.mem.write && p.table = t.id && p.row = w.row && 
          p.mem.offset < ap.base + off + t.stride && ap.base + off < p.mem.offset + p.mem.len
      | none => false

/-- Apply a write at owner `o` of this module (R154, R156, Table 6.4, R148, R151). -/
def State.ownerWrite (s : State) (f : Nat) (t : Table) (o : Nat) (w : RowWrite) : State :=
  match t.block o with
  | none => s
  | some b =>
    let g := s.func f
    if g.away t o w.row then
      let (no, sh, sl) := g.awayAt t o w.row
      s.forwardWrite f t b no sh sl w
    else if (match g.migOf t.id o w.row with | some m => m.holding | none => false) then
      s.modFunc f fun g => g.modMig t.id o w.row fun m => { m with held := m.held ++ [w] }
    else if g.uWriting t then s.modFunc f fun g => { g with heldWrites := g.heldWrites ++ [w] }
    else
      match g.slotAt t o w.row with
      | none => s
      | some (sh, i) =>
        if s.readBusy f t b sh i w then s.modFunc f fun g => { g with heldWrites := g.heldWrites ++ [w] }
        else
        ((s.rowPut f t b sh i w).modFunc f fun g => g.modMig t.id o w.row fun m => { m with dirty := true }).rowDone f w.issuer

/-- Route a row of a host command to its current owner (R153). -/
def State.routeRow (s : State) (f : Nat) (t : Table) (w : RowWrite) : State :=
  let o := ((s.func f).locate t w.row).1
  match t.block o with
  | some _ => s.ownerWrite f t o w
  | none =>
    let msg : WireMsg :=
      .routed ⟨t.myPos, w.issuer.getD 0, t.id, w.row, w.replace, w.first, w.count, (s.func f).stepNow, w.data⟩
    (s.owe f t o msg w.issuer).sendOwner f ((s.upDies f).headD 0) t o msg

/-- TBL_WRITE_ROWS and TBL_REPLACE_ROWS (R153): the lists are read when the command starts; rows are applied in list order. -/
def rowsCommand (replace : Bool) (c : Submission) (s : State) : State :=
  let f := c.func
  match (s.func f).table (hb c 24 1) with
  | none => s.single c stBadParam
  | some t =>
    let n := hb c 28 4
    let first := if replace then 0 else hb c 48 2
    let count := if replace then t.elems else hb c 50 2
    if n = 0 || 2 ^ 20 < n || count = 0 || t.elems < first + count then s.single c stBadParam
    else
      let w := count * t.width
      let ids := (List.range n).map fun i => fld (leNat (s.devRead f (hb c 32 8 + 8 * i) 8)) 0 40
      let data := (List.range n).map fun i => s.devRead f (hb c 40 8 + w * i) w
      let rows := (ids.zip data).filter fun x => x.1 < t.rows
      let bad := n - rows.length
      let s := (s.cntClu ((s.upDies f).headD 0) 0 11 bad).violOor f bad
      if rows.isEmpty then s.single c stOk
      else
        let id := (s.func f).nextRowJob
        let s := s.modFunc f fun g => { g with nextRowJob := id + 1, rowJobs := g.rowJobs ++ [⟨id, c, rows.length⟩] }
        rows.foldl (fun s (r, d) => s.routeRow f t ⟨t.id, r, replace, first, count, d, some id⟩) s

def execTblWriteRows (c : Submission) (s : State) : Done := .next (s.zcp 0x0103 c (rowsCommand false))

/-- R153 to R155. -/
def execTblReplaceRows (c : Submission) (s : State) : Done := .next (s.zcp 0x0104 c (rowsCommand true))

/-- Whether a write that reaches owner `o` would be held there: by U (R156) or by a migration (Table 6.4, step 5). -/
def Func.holdsWrite (g : Func) (t : Table) (o r : Nat) : Bool :=
  !g.away t o r && (g.uWriting t || (match g.migOf t.id o r with | some m => m.holding | none => false))

/-- R153: a row that another module routed here. It waits while its owner holds writes; for a row that lies elsewhere it is passed on by
the location table (R151). -/
def execRoutedRowWrite (f : Nat) (m : RoutedRow) (s : State) : Done :=
  if !s.comes f (.routed m) then .next s
  else match (s.func f).table m.table with
  | some t =>
    let o := ((s.func f).locate t m.row).1
    if m.row < t.rows && (t.block o).isSome && (s.func f).holdsWrite t o m.row then .next s
    else
      let (s, src) := s.take f (.routed m)
      if t.rows ≤ m.row then .next (s.violOor f)
      else
        let s := if (t.block o).isNone then s.cntDie ((s.upDies f).headD 0) 11 else s
        .next ((s.routeRow f t ⟨m.table, m.row, m.replace, m.first, m.count, m.data, none⟩).settleFrom f src (WireMsg.routed m).bytes)
  | none => .next (s.take f (.routed m)).1

/-- Writes that waited for U, or for a reader, are tried again (R155, R156). -/
def State.releaseWrites (s : State) (f : Nat) : State :=
  let ws := (s.func f).heldWrites
  ws.foldl (fun s w =>
    match (s.func f).table w.table with
    | some t => s.routeRow f t w
    | none => s) (s.modFunc f fun g => { g with heldWrites := [] })

/-! ## The migration protocol (Table 6.4) -/

/-- The lowest free migration slot of a shard. -/
def Table.freeMig (t : Table) (o sh : Nat) : Option Nat :=
  let used := (t.migUsed.filter fun (a, b, _) => a = o && b = sh).map (·.2.2)
  ((List.range (used.length + 1)).find? fun k => !used.contains k).bind fun k => if k < t.migSlots then some k else none

/-- The active slot of a row, as a COPY carries it: row and optimizer state. -/
def State.slotImage (s : State) (f : Nat) (t : Table) (o r : Nat) : List Byte × State :=
  match t.block o, (s.func f).slotAt t o r with
  | some b, some (sh, i) => s.slotRead f t b sh i t.stride
  | _, _ => ([], s)

/-- Step 1 and 2 of Table 6.4: the row is marked and a slot is asked for. -/
def execMove (f : Nat) (m : TableMsg) (s : State) : Done :=
  if !s.comes f (.tableMaint m) then .next s else
  let (s, _) := s.take f (.tableMaint m)
  let g := s.func f
  match g.table m.table with
  | some t =>
    match t.block m.oldOwner with
    | some b =>
      if g.away t m.oldOwner m.row || (g.migOf t.id m.oldOwner m.row).isSome || t.rows ≤ m.row then .next s
      else
        let host := g.hostMoves.contains (t.id, m.row)
        let s := s.modFunc f fun g =>
          { g with
            migs := g.migs ++ [⟨t.id, m.row, m.oldOwner, m.newOwner, m.shard, none, 0, false, false, [], host, m.step⟩]
            hostMoves := g.hostMoves.filter (· ≠ (t.id, m.row)) }
        .next (s.sendOwner f b.server t m.newOwner
          (.tableMaint { m with kind := 1, lastRound := false, held := false, payload := [] }))
    | none => .next s
  | none => .next s

/-- R150: the new owner reserves a migration slot, or the row's home slot when the row comes home, and answers. A RESERVE that finds no
free slot, when moves of two modules meet, waits until one is free. -/
def execReserve (f : Nat) (m : TableMsg) (s : State) : Done :=
  if !s.comes f (.tableMaint m) then .next s
  else match (s.func f).table m.table with
  | some t =>
    match t.block m.newOwner with
    | some b =>
      let home := (t.home m.row).1 = m.newOwner && (t.home m.row).2.1 = m.shard
      match (if home then some homeMark else t.freeMig m.newOwner m.shard) with
      | some k =>
        let (s, _) := s.take f (.tableMaint m)
        let s := if home then s else s.modFunc f fun g => g.modTable t.id fun t =>
          { t with migUsed := t.migUsed ++ [(m.newOwner, m.shard, k)] }
        .next (s.sendOwner f b.server t m.oldOwner (.tableMaint { m with kind := 2, slot := k, payload := [] }))
      | none => .next s
    | none => .next (s.take f (.tableMaint m)).1
  | none => .next (s.take f (.tableMaint m)).1

/-- Read a row that is to be copied from borrowed memory (R314); none when it is at hand. -/
def State.imageWait (s : State) (f : Nat) (t : Table) (b : OwnerBlock) (r : Nat) : Option State :=
  match (s.func f).remoteAt t b r with
  | some k => if (s.func f).atHand k t.id r then none else some (s.fetchKey f k t.stride t.id r)
  | none => none

/-- Send a copy of a row's slot to the new owner (Table 6.4, steps 3 and 5). -/
def State.sendCopy (s : State) (f : Nat) (t : Table) (b : OwnerBlock) (m : Mig) (kind : Nat) : State :=
  let (img, s) := s.slotImage f t m.oldOwner m.row
  let s := s.modFunc f fun g => g.dropRow t.id m.row
  s.sendOwner f b.server t m.newOwner
    (.tableMaint ⟨kind, kind = 3 && m.round = 3, m.holding, t.id, m.oldOwner, m.newOwner, m.row, m.shard, m.slot.getD 0, 0,
      m.step, img⟩)

/-- R150: the reserved slot arrives and the first copy round starts; a row in borrowed memory is read first, and the answer waits for it
(R314). -/
def execReserveAck (f : Nat) (m : TableMsg) (s : State) : Done :=
  if !s.comes f (.tableMaint m) then .next s
  else
    let took := (s.take f (.tableMaint m)).1
    match (s.func f).table m.table, (s.func f).migOf m.table m.oldOwner m.row with
    | some t, some x =>
      match t.block m.oldOwner, x.slot with
      | some b, none =>
        match s.imageWait f t b m.row with
        | some s => .next s
        | none =>
          let x := { x with slot := some m.slot, round := 1, dirty := false }
          let s := took.modFunc f fun g => g.modMig t.id m.oldOwner m.row fun _ => x
          .next (s.sendCopy f t b x 3)
      | _, _ => .next took
    | _, _ => .next took

/-- The new owner stores a slot image (Table 6.4, R149), a write of the whole row, which clears its poisoning (R158). -/
def State.storeCopy (s : State) (f : Nat) (m : TableMsg) : State :=
  match (s.func f).table m.table with
  | some t =>
    match t.block m.newOwner with
    | some b =>
      let i := t.slotIndex m.row m.slot
      let s := s.modFunc f fun g => (g.unpoison t.id m.newOwner m.shard i).modTable t.id fun t =>
        { t with flipped := t.flipped.erase (m.newOwner, m.shard, i) }
      s.slotWrite t b m.shard i false 0 (m.payload.take t.stride)
    | none => s
  | none => s

/-- R147, step 3. -/
def execCopy (f : Nat) (m : TableMsg) (s : State) : Done :=
  .next (if s.comes f (.tableMaint m) then (s.take f (.tableMaint m)).1.storeCopy f m else s)

/-- R149. -/
def execFinalCopy (f : Nat) (m : TableMsg) (s : State) : Done :=
  .next (if s.comes f (.tableMaint m) then (s.take f (.tableMaint m)).1.storeCopy f m else s)

/-- The location entry of R146 in 16 bytes. -/
def Loc.bytes (l : Loc) : List Byte :=
  leBytes 8 (l.row + 2 ^ 40 * l.table + 2 ^ 48 * l.owner) ++ leBytes 8 (l.shard + 2 ^ 8 * l.slot + 2 ^ 32 * l.version)

def Loc.parse (b : List Byte) : Loc :=
  let x := at' b 0 8
  let y := at' b 8 8
  ⟨fld x 40 8, fld x 0 40, fld x 48 16, fld y 0 8, fld y 8 24, fld y 32 16, 0⟩

/-- Record an update that takes effect at a step, unless it is known (Table 6.4, steps 6 and 8). -/
def Func.recordLoc (g : Func) (l : Loc) : Func :=
  if g.locPending.contains (l.eff, l) || g.locs.contains l || (g.table l.table).isNone then g
  else { g with locPending := g.locPending ++ [(l.eff, l)] }

/-- Rows that have an entry in the row-location table, those among them whose update is still to take effect (R146). -/
def Func.locUsed (g : Func) : Nat := (((g.locs ++ g.locPending.map (·.2)).map fun l => (l.table, l.row)).eraseDups).length

/-- Steps 6 and 7 of Table 6.4: the switch, the new location recorded, the stub and the location updates. A row that U has written during the hold is sent once
more, before the writes held (log 24). -/
def State.switchRow (s : State) (f : Nat) (t : Table) (b : OwnerBlock) (m : Mig) : State :=
  let g := s.func f
  let ver := (match (g.locPending.map (·.2) ++ g.locs).find? fun l => l.table = t.id && l.row = m.row with
    | some l => l.version | none => 0) + 1
  let eff := (m.step + 2) % 2 ^ 64
  let l : Loc := ⟨t.id, m.row, m.newOwner, m.shard, m.slot.getD 0, ver % 2 ^ 16, eff⟩
  let (osh, oi) := (g.slotAt t m.oldOwner m.row).getD (0, 0)
  let stub : Stub := ⟨t.id, m.row, m.oldOwner, osh, oi, m.newOwner, m.shard, m.slot.getD 0, eff, []⟩
  let s := (s.gkInvalidate b.server t.id m.row).cntDie b.server 8
  let s := s.modFunc f fun g =>
    { g.recordLoc l with
      stubs := g.stubs ++ [stub]
      migs := g.migs.filter fun x => !(x.table = t.id && x.row = m.row && x.oldOwner = m.oldOwner) }
  let msg (kind : Nat) : WireMsg :=
    .tableMaint ⟨kind, false, false, t.id, m.oldOwner, m.newOwner, m.row, m.shard, m.slot.getD 0, ver % 2 ^ 16, eff, l.bytes⟩
  let s := (s.upDies f).foldl (fun s d => s.sendLocal f b.server d (msg 6)) s
  let s := (t.modules.zipIdx.filter fun x => x.2 ≠ t.myPos).foldl (fun s x =>
    (List.range (if s.quad then 1 else 4)).foldl (fun s d => s.send f b.server x.1 d (msg 6)) s) s
  let s := if m.holding && m.dirty then s.sendCopy f t b m 4 else s
  m.held.foldl (fun s w => s.forwardWrite f t b m.newOwner m.shard (m.slot.getD 0) w) s

/-- R147, steps 4 to 6: another round, the hold with the final copy, or the switch. A row in borrowed memory that is to be copied once more is
read first (R314). -/
def execMigrationRoundEnd (f table row : Nat) (s : State) : Done :=
  let g := s.func f
  match g.table table, g.migs.find? fun m => m.table = table && m.row = row with
  | some t, some m =>
    match t.block m.oldOwner, m.slot with
    | some b, some _ =>
      let read := if m.dirty then s.imageWait f t b row else none
      if read.isSome then .next (read.getD s)
      else if m.holding then .next (s.switchRow f t b m)
      else if !m.dirty then .next (s.switchRow f t b m)
      else if m.round < 3 then
        let x := { m with round := m.round + 1, dirty := false }
        .next (((s.modFunc f fun g => g.modMig table m.oldOwner row fun _ => x).cntDie b.server 9).sendCopy f t b x 3)
      else
        let x := { m with holding := true, dirty := false }
        .next (((s.modFunc f fun g => g.modMig table m.oldOwner row fun _ => x).cntDie b.server 10).sendCopy f t b x 4)
    | _, _ => .next s
  | _, _ => .next s

/-- Whether the slot that a message names was reserved for its row at the owner addressed, and the row has not left it: then it belongs
there although the update may not have come yet (R149). -/
def Func.reserved (g : Func) (t : Table) (m : TableMsg) : Bool :=
  (g.stub t.id m.newOwner m.row).isNone &&
    (if m.slot = homeMark then (g.slotAt t m.newOwner m.row).isSome || (match g.loc t.id m.row with | some l => l.owner = m.oldOwner | none => true)
     else t.migUsed.contains (m.newOwner, m.shard, m.slot))

/-- R148, R149: a forwarded write is applied at the new owner, in the slot that the message names, once U does not write the table there
(R156). A row that is not there any more is passed on (R148, R151). FWD_WRITE does not say which command its write came from: one of
whole rows is taken for a replacement (DESIGN CHOICE, log 24). -/
def execFwdWrite (f : Nat) (m : TableMsg) (s : State) : Done :=
  if !s.comes f (.tableMaint m) then .next s
  else match (s.func f).table m.table with
  | some t =>
    match t.block m.newOwner with
    | some b =>
      let w : RowWrite := ⟨t.id, m.row, at' m.payload 4 4 = t.elems, at' m.payload 0 4, at' m.payload 4 4,
        (m.payload.drop 8).take (at' m.payload 4 4 * t.width), none⟩
      let i := t.slotIndex m.row m.slot
      if !(s.func f).reserved t m then
        let (s, src) := s.take f (.tableMaint m)
        .next ((s.ownerWrite f t m.newOwner w).settleFrom f src (tableMsgEncode m))
      else if (s.func f).uWriting t || (match (s.func f).migOf t.id m.newOwner m.row with | some x => x.holding | none => false) ||
          s.readBusy f t b m.shard i w then .next s
      else
        let (s, src) := s.take f (.tableMaint m)
        let s := (s.rowPut f t b m.shard i w).modFunc f fun g => g.modMig t.id m.newOwner m.row fun x => { x with dirty := true }
        .next (s.settleFrom f src (tableMsgEncode m))
    | none => .next (s.take f (.tableMaint m)).1
  | none => .next (s.take f (.tableMaint m)).1

/-- A location update arrives (R147, steps 7 and 8): it is kept until its effective step. -/
def State.locUpdate (s : State) (f : Nat) (m : TableMsg) : State :=
  let (s, _) := s.take f (.tableMaint m)
  s.modFunc f fun g => g.recordLoc { Loc.parse m.payload with eff := m.step }

/-- The entries of the row-location table (R146). -/
def locEntries : Nat := 1048576

/-- Enter an update in the row-location table: it replaces the row's entry, or takes a free one. -/
def enterLoc (ls : List Loc) (l : Loc) : Option (List Loc) :=
  let rest := ls.filter fun x => !(x.table = l.table && x.row = l.row)
  if rest.length < locEntries then some (rest ++ [l]) else none

/-- Apply the updates due for step `n` before its GATHERs (R147, step 8). One that finds no free entry stays until there is one
(log 24). -/
def Func.applyLocs (g : Func) (n : Nat) : Func :=
  let due := g.locPending.filter fun x => x.1 ≤ n
  let (ls, left) := due.foldl (fun (ls, left) x =>
    match enterLoc ls x.2 with
    | some ls => (ls, left)
    | none => (ls, left ++ [x])) (g.locs, ([] : List (Nat × Loc)))
  { g with locPending := left ++ g.locPending.filter fun x => !(x.1 ≤ n), locs := ls }

/-- Whether a GATHER of step `n` on a table must wait on die `d` for a location update (R151): one is on its way to it, or a move of a
function of this module whose update takes effect by then has not reached its switch. Of a move on another module a die learns by the
update alone (log 24). -/
def State.missingAt (s : State) (f d table n : Nat) : Bool :=
  let g := s.func f
  let soon (n0 : Nat) : Bool := (n0 + 2) % 2 ^ 64 ≤ n
  let mods := match g.table table with | some t => t.modules | none => []
  let other (k : Nat) : Bool := match (s.func k).table table with | some u => u.modules = mods | none => false
  (s.links.any fun l => match l.msg with
    | .tableMaint m => m.table = table &&
      ((l.func = f && l.die = d && m.kind = 6 && m.step ≤ n) || (m.kind = 0 && soon m.step && other l.func))
    | _ => false) ||
    (g.ep.inbox.any fun r => r.proto = 3 && s.physDie f r.die = d &&
      (let m := tableMsgParse r.data; m.table = table && m.kind = 6 && m.step ≤ n)) ||
    (List.range 4).any fun k => other k && (s.func k).migs.any fun m => m.table = table && soon m.step

/-- Whether a GATHER of step `n` on a table must wait on some die (R151). -/
def State.updateMissing (s : State) (f table n : Nat) : Bool := (s.upDies f).any fun d => s.missingAt f d table n

/-- R148. -/
def execFwdEnd (f : Nat) (m : TableMsg) (s : State) : Done :=
  if !s.comes f (.tableMaint m) then .next s else
  let (s, _) := s.take f (.tableMaint m)
  let s := s.modFunc f fun g => g.modCombine m.table m.newOwner m.step fun c => { c with stubsOwed := c.stubsOwed.erase m.oldOwner }
  .next (s.tryClose f m.table m.newOwner m.step)

/-- R148: the new owner returns the row in the table's format. A row that is not there any more is fetched where it went (R148, R151); one
in borrowed memory is read first (R314). -/
def execFwdFetch (f : Nat) (m : TableMsg) (s : State) : Done :=
  if !s.comes f (.tableMaint m) then .next s
  else
    let took := (s.take f (.tableMaint m)).1
    match (s.func f).table m.table with
    | some t =>
      match t.block m.newOwner with
      | some b =>
        if !(s.func f).reserved t m && (s.func f).away t m.newOwner m.row then
          let (no, sh, sl) := (s.func f).awayAt t m.newOwner m.row
          .next ((took.cntDie b.server 11).sendOwner f b.server t no (.tableMaint { m with newOwner := no, shard := sh, slot := sl }))
        else
          let i := t.slotIndex m.row m.slot
          let k := t.slotKey b m.shard i (t.isFlipped b.owner m.shard i)
          if !(s.func f).atHand k t.id m.row then .next (s.fetchKey f k t.rowBytes t.id m.row)
          else
            let (data, s) := took.slotRead f t b m.shard i t.rowBytes
            .next ((s.modFunc f fun g => if k < apBase then g else g.dropRow t.id m.row).sendOwner f b.server t m.oldOwner
              (.tableMaint { m with kind := 9, payload := data }))
      | none => .next took
    | none => .next took

/-- R148: the stub pools the fetched row in place for the requests that wait. -/
def execFwdReply (f : Nat) (m : TableMsg) (s : State) : Done :=
  if !s.comes f (.tableMaint m) then .next s else
  let (s, _) := s.take f (.tableMaint m)
  let s := s.modFunc f fun g => { g with fwdRows := g.fwdRows ++ [⟨m.table, m.row, m.payload⟩] }
  .next (s.retryRequests f)

/-- R150: forwarded listings count as gradient listings of the requester that the embedded header names. They wait for the location
update that tells the new owner where the row stands. -/
def execFwdGrad (f : Nat) (m : TableMsg) (s : State) : Done :=
  let g := s.func f
  let known := match g.table m.table with
    | some t => (bellowsParse m.payload).rows.all fun r => (g.slotAt t m.newOwner r).isSome || (g.stub t.id m.newOwner r).isSome
    | none => true
  if !s.comes f (.tableMaint m) || !known then .next s else
  let (s, _) := s.take f (.tableMaint m)
  let inner := { bellowsParse m.payload with owner := m.newOwner, step := m.step }
  let s := s.modFunc f fun g => g.modCombine m.table m.newOwner m.step fun c =>
    if c.stubsOwed.contains m.oldOwner then c else { c with stubsOwed := c.stubsOwed ++ [m.oldOwner] }
  .next (s.gradIn f inner true)

/-! ## Selection at a step boundary (R144, R145) -/

/-- The load estimates of the procedure: owner index, shard, reads. -/
abbrev Est := List (Nat × Nat × Nat)

def Est.get (e : Est) (o sh : Nat) : Nat := match e.find? fun (a, b, _) => a = o && b = sh with | some x => x.2.2 | none => 0
def Est.add (e : Est) (o sh : Nat) (h : Nat → Nat) : Est := e.map fun (a, b, n) => if a = o && b = sh then (a, b, h n) else (a, b, n)

/-- A move decided: table, row, from owner, to owner and shard. -/
structure Decided where
  table : Nat
  row : Nat
  src : Nat
  tgt : Nat
  shard : Nat
  deriving DecidableEq, Repr

/-- The state of the procedure for one table. -/
structure Sel where
  est : Est
  budget : Nat
  moves : List Decided
  deriving DecidableEq, Repr

/-- Whether a move brings its row to its home slot, which takes no migration slot. -/
def Table.homeMove (t : Table) (r o sh : Nat) : Bool := (t.home r).1 = o && (t.home r).2.1 = sh

/-- Migration slots of a shard that rows hold: of an own shard by its reservations, of another module's by the location table. -/
def Func.migTaken (g : Func) (t : Table) (o sh : Nat) : Nat :=
  if (t.block o).isSome then (t.migUsed.filter fun (a, b, _) => a = o && b = sh).length
  else
    let held (l : Loc) : Bool := l.table = t.id && l.owner = o && l.shard = sh && l.slot ≠ homeMark
    (((g.locs ++ g.locPending.map (·.2)).filter held).map (·.row)).eraseDups.length

/-- Moves to a shard that have been decided and have not reserved their slot. -/
def State.promised (s : State) (f : Nat) (t : Table) (o sh : Nat) : Nat :=
  (s.links.filter fun l => match l.msg with
    | .tableMaint m => l.func = f && m.kind ≤ 1 && m.table = t.id && m.newOwner = o && m.shard = sh && !t.homeMove m.row o sh
    | _ => false).length

/-- Whether a shard has a free migration slot beside the moves decided (R144, R152). -/
def State.hasFree (s : State) (f : Nat) (t : Table) (moves : List Decided) (o sh : Nat) : Bool :=
  (s.func f).migTaken t o sh + s.promised f t o sh +
    (moves.filter fun m => m.table = t.id && m.tgt = o && m.shard = sh && !t.homeMove m.row o sh).length < t.migSlots

/-- One candidate of R144. -/
def State.selectRow (s : State) (f : Nat) (t : Table) (ratio total : Nat) (x : Sel) (rc : Nat × Nat) : Sel :=
  let g := s.func f
  let (r, count) := rc
  let S := x.est.length
  let (o, sh, _) := g.locate t r
  if x.budget = 0 || x.est.get o sh * 4 * S ≤ total * ratio then x
  else
    let die (o : Nat) : Nat := match t.block o with | some b => b.die | none => 0
    match leastBy (fun (a b : Nat × Nat × Nat) =>
        a.2.2 < b.2.2 || (a.2.2 = b.2.2 && (die a.1 < die b.1 || (die a.1 = die b.1 && a.2.1 < b.2.1))))
        (x.est.filter fun (a, b, _) => s.hasFree f t x.moves a b) with
    | none => x
    | some (dst, tsh, n) =>
      if x.est.get o sh ≤ n + count then x
      else ⟨(x.est.add o sh (· - count)).add dst tsh (· + count), x.budget - 1, x.moves ++ [⟨t.id, r, o, dst, tsh⟩]⟩

/-- Whether R145 excludes a row: a stub stands for it, or it belongs to a move that has not reached its switch. -/
def State.excluded (s : State) (f t r : Nat) : Bool :=
  let g := s.func f
  (g.stubs.any fun x => x.table = t && x.row = r) || (g.migs.any fun x => x.table = t && x.row = r) ||
    s.links.any fun l => match l.msg with | .tableMaint m => l.func = f && m.kind = 0 && m.table = t && m.row = r | _ => false

/-- The rows of a table that a die's tally of a step names, in its area at most 2^TALLY_LOG2 (R142). -/
def Func.tallyOf (g : Func) (t : Table) (d n : Nat) : List Reads := g.tally.filter fun x => x.table = t.id && x.die = d && x.step = n

/-- Whether a die's tally of a table is full (R143). -/
def Func.tallyFull (g : Func) (t : Table) (d n : Nat) : Bool := 2 ^ t.tallyLog2 < (g.tallyOf t d n).length

/-- R144 for one table: shard loads of step `n`, candidates by count descending then row ascending. -/
def State.selectTable (s : State) (f n ratio : Nat) (t : Table) (budget : Nat) (moves : List Decided) : Sel :=
  let g := s.func f
  let est : Est := t.blocks.flatMap fun b => (List.range 256).map fun sh =>
    (b.owner, sh, ((g.reads.filter fun x => x.table = t.id && x.owner = b.owner && x.step = n && x.key = sh).map (·.n)).sum)
  let total := (est.map (·.2.2)).sum
  let mine := g.tally.filter fun x => x.table = t.id && x.step = n && !g.tallyFull t x.die n && !s.excluded f t.id x.key
  let count (r : Nat) : Nat := ((mine.filter fun x => x.key = r).map fun x => min x.n (2 ^ 24 - 1)).sum
  let cand := (mine.map (·.key)).eraseDups.map fun r => (r, count r)
  let cand := sortBy (fun (a b : Nat × Nat) => b.2 < a.2 || (a.2 = b.2 && a.1 < b.1)) cand
  cand.foldl (s.selectRow f t (max 4 ratio) total) ⟨est, budget, moves⟩

/-- Send a decided move to the old owner die on the control path (Table 6.4, step 1). `host` marks a TBL_MIGRATE move (R152). -/
def State.decide (s : State) (f n : Nat) (host : Bool) (m : Decided) : State :=
  match (s.func f).table m.table with
  | some t =>
    match t.block m.src with
    | some b =>
      let s := if host then s.modFunc f fun g => { g with hostMoves := g.hostMoves ++ [(t.id, m.row)] } else s
      s.sendLocal f ((s.upDies f).headD 0) b.server (.tableMaint ⟨0, false, false, t.id, m.src, m.tgt, m.row, m.shard, 0, 0, n, []⟩)
    | none => s
  | none => s

/-- The entries of a host's list of moves (R152): row, target owner, target shard. -/
def State.moveList (s : State) (c : Submission) : List (Nat × Nat × Nat) :=
  (List.range (hb c 28 4)).map fun i =>
    let b := s.devRead c.func (hb c 32 8 + 16 * i) 16
    (fld (at' b 0 8) 0 40, fld (at' b 0 8) 48 16, at' b 8 1)

/-- Start the moves of a TBL_MIGRATE (R152): rows not owned here, excluded, without a free slot at the target, or without a free
location entry are ignored. -/
def State.startHostMoves (s : State) (f n : Nat) (j : AsyncJob) : State :=
  match (s.func f).table j.arg with
  | none => s
  | some t =>
    let step (x : List Decided × Nat) (m : Nat × Nat × Nat) : List Decided × Nat :=
      let (r, o, sh) := m
      let g := s.func f
      let src := (g.locate t r).1
      let mine := (t.block src).isSome
      let room := s.hasFree f t x.1 o sh
      let entry := (g.loc t.id r).isSome || g.locUsed + x.1.length < locEntries
      if !mine || s.excluded f t.id r || x.1.any (fun d => d.row = r) || !room || !entry then (x.1, x.2 + 1)
      else (x.1 ++ [⟨t.id, r, src, o, sh⟩], x.2)
    let (ms, ign) := (s.moveList j.sub).foldl step ([], 0)
    let s := s.modFunc f fun g =>
      { g with jobs := g.jobs.map fun x => if x = j then { x with started := true, n1 := ms.length, n2 := ign } else x }
    ms.foldl (fun s m => s.decide f n true m) s

/-- Parameters of TBL_MIGRATE that R152 rejects. -/
def State.migrateBad (s : State) (c : Submission) : Bool :=
  let n := hb c 28 4
  match (s.func c.func).table (hb c 24 1) with
  | none => true
  | some t => n = 0 || 65536 < n || (s.moveList c).any fun (r, o, _) => t.rows ≤ r || t.N ≤ o

/-- The step that a move outside a plan is decided at: its update takes effect at once (R152). -/
def noStep : Nat := 2 ^ 64 - 2

/-- R152: ACCEPTED; the moves begin at the next step boundary, or at once when no plan is active. -/
def tblMigrate' (c : Submission) (s : State) : State :=
  let j : AsyncJob := ⟨c, hb c 24 1, false, 0, 0⟩
  let s := (s.interim c stAccepted).modFunc c.func fun g => { g with jobs := g.jobs ++ [j] }
  if (s.func c.func).accepted.isEmpty && !s.migrateBad c then s.startHostMoves c.func noStep j else s

def execTblMigrate (c : Submission) (s : State) : Done := .next (s.zcp 0x0106 c tblMigrate')

/-- R152: the final completion, once the moves have reached their switch. -/
def execTblMigrateDone (f table : Nat) (s : State) : Done :=
  let g := s.func f
  match g.job 0x0106 table with
  | none => .next s
  | some j =>
    if s.leadStops f then .next s
    else if !j.started then
      if s.migrateBad j.sub then .next ((s.endJob f j).final j.sub stBadParam) else .next s
    else if g.migs.any (fun m => m.table = table && m.host) || g.hostMoves.any (fun m => m.1 = table) then .next s
    else
      let (s, q) := (s.endJob f j).journalCmd j.sub
      .next (s.final j.sub stOk [] (leBytes 4 j.n1 ++ leBytes 4 j.n2) q)

/-- The block in whose tally area a die keeps the tally of a table: its own, or the first of those that it has taken over (R142, R157). -/
def Table.tallyBlocks (t : Table) : List OwnerBlock :=
  ((t.blocks.map (·.server)).eraseDups).filterMap fun d =>
    let mine := t.blocks.filter fun b => b.server = d
    ((mine.filter fun b => b.die = d) ++ mine).head?

/-- SHARD_LOAD of a step and the tally areas of the AUTO_MIG tables (R142, R143, R452): an area holds the step's tally and nothing
else. -/
def State.publishLoads (s : State) (f n : Nat) : State :=
  let g := s.func f
  let s := s.modFunc f fun g =>
    { g with loads := g.tables.flatMap fun (i, t) =>
        let mine := g.reads.filter fun x => x.table = i && x.step = n
        ((mine.map fun x => (x.die, x.key)).eraseDups).map fun (d, k) =>
          (t.id, s.locDie d, k, ((mine.filter fun x => x.die = d && x.key = k).map (·.n)).sum) }
  (g.tables.filter fun (_, t) => t.autoMig).foldl (fun s (_, t) =>
    t.tallyBlocks.foldl (fun s b =>
      let es := sortBy (fun (x y : Reads) => x.key < y.key) (g.tallyOf t b.server n)
      let cap := 2 ^ t.tallyLog2
      let area := b.tally + n % 2 * cap * 8
      let s := if g.tallyFull t b.server n then s.cntDie b.server 13 else s
      if b.tally = 0 then s
      else (s.zeroRun area (cap * 8)).store area ((es.take cap).flatMap fun e => leBytes 8 (e.key + 2 ^ 40 * min e.n (2 ^ 24 - 1)))) s) s

/-- Start every TBL_MIGRATE that waits for a boundary; the rows that they select (R152). -/
def State.startMigrates (s : State) (f n : Nat) : State × Nat :=
  let jobs := (s.func f).jobs.filter fun j => j.sub.opcode = 0x0106 && !j.started
  let s := jobs.foldl (fun s j => if s.migrateBad j.sub then s else s.startHostMoves f n j) s
  (s, (((s.func f).jobs.filter fun j => j.sub.opcode = 0x0106 && j.started && jobs.any fun i => i.sub = j.sub).map (·.n1)).sum)

/-- Counts of reads up to a step are no longer needed. -/
def Func.dropReads (g : Func) (n : Nat) : Func :=
  { g with reads := g.reads.filter fun x => n < x.step, tally := g.tally.filter fun x => n < x.step }

/-- What migration does at boundary b_n (R142 to R147, R152): loads are published, full tallies counted, moves chosen and sent, expired
stubs removed with the slots that they kept, and entries of rows that are home again freed (R146). -/
def State.migrateBoundary (s : State) (f n : Nat) : State :=
  let g := s.func f
  let lead := (s.upDies f).headD 0
  let auto := g.tables.filter fun (_, t) => t.autoMig
  let s := s.publishLoads f n
  let full := locEntries ≤ g.locUsed
  let gk := (s.die lead).gecko
  let s := if full then s.cntDie lead 14 else s
  let moves := if full then [] else
    (auto.foldl (fun (x : Nat × List Decided) (_, t) =>
      let r := s.selectTable f n gk.migRatio t x.1 x.2
      (r.budget, r.moves)) (gk.migMax, [])).2
  let s := moves.foldl (fun s m => s.decide f n false m) s
  let (s, host) := s.startMigrates f n
  let s := s.modGecko lead fun k => { k with lastMoved := min 0xFFFF (moves.length + host) }
  let gone := (s.func f).stubs.filter fun x => x.ends ≤ n
  s.modFunc f fun g =>
    { g.dropReads n with
      stubs := g.stubs.filter fun x => !(x.ends ≤ n)
      locs := g.locs.filter fun l => !(l.slot = homeMark && l.eff ≤ n)
      tables := g.tables.map fun (i, t) =>
        (i, { t with migUsed := t.migUsed.filter fun (o, sh, k) =>
          !(gone.any fun x => x.table = i && x.oldOwner = o && x.oldShard = sh && x.oldSlot = t.homeSlots + k) }) }

end Sys2Proof.Machine
end

