-- ==== Sys2Proof/Machine/Skink.lean ====
section
/-!
DEFINITION. Skink (chapter 4): loading of graphs and position sets, the sampling generator, the blocks of a slice in each of the
three modes, their layout in memory, step buffers and spill.
-/
namespace Sys2Proof.Machine

/-! ## Graph parameters (Table 4.1) -/

def Graph.kind (g : Graph) : Nat := at' g.params 1 1
def Graph.halo (g : Graph) : Nat := at' g.params 2 1
def Graph.count (g : Graph) : Nat := at' g.params 8 8
def Graph.edges (g : Graph) : Nat := at' g.params 16 8
def Graph.ptr (g : Graph) : Nat := at' g.params 24 8
def Graph.idx (g : Graph) : Nat := at' g.params 32 8
def Graph.aux (g : Graph) : Nat := at' g.params 40 8
def Graph.work (g : Graph) : Nat := at' g.params 48 8
def Graph.workBytes (g : Graph) : Nat := at' g.params 56 8

/-- Reading device memory. -/
abbrev Rd := Nat → Nat → List Byte

def rd8 (rd : Rd) (a : Nat) : Nat := leNat (rd a 8)
def rd4 (rd : Rd) (a : Nat) : Nat := leNat (rd a 4)

/-- Row pointer `v` (R90). -/
def Graph.rowPtr (g : Graph) (rd : Rd) (v : Nat) : Nat := fld (rd8 rd (g.ptr + 8 * v)) 0 48
/-- The degree of a node; a node at or above COUNT has degree 0 (R100). -/
def Graph.degree (g : Graph) (rd : Rd) (v : Nat) : Nat := if v < g.count then g.rowPtr rd (v + 1) - g.rowPtr rd v else 0
/-- The source node of an edge (R90). -/
def Graph.srcOf (g : Graph) (rd : Rd) (e : Nat) : Nat := fld (rd8 rd (g.idx + 8 * e)) 0 40
/-- The row of a node: edge IDs with source nodes. -/
def Graph.row (g : Graph) (rd : Rd) (v : Nat) : List (Nat × Nat) :=
  (List.range (g.degree rd v)).map fun i => let e := g.rowPtr rd v + i; (e, g.srcOf rd e)

/-! ## Alias tables (R93) -/

/-- The state of `alias_build`: q by position, thresholds and aliases, the two work lists. -/
structure Alias where
  q : List Nat
  thr : List Nat
  als : List Nat
  small : List Nat
  large : List Nat
  deriving DecidableEq, Repr

/-- One turn of the loop of R93. -/
def Alias.turn (uu : Nat) (a : Alias) : Alias :=
  match a.small, a.large with
  | s :: small, l :: large =>
    let qs := a.q.getD s 0
    let ql := a.q.getD l 0 - (uu - qs)
    let a := { a with
      thr := a.thr.set s (2 ^ 32 * qs / uu)
      als := a.als.set s l
      q := a.q.set l ql }
    if ql < uu then { a with small := small ++ [l], large := large } else { a with small := small, large := l :: large }
  | _, _ => a

def Alias.loop (uu : Nat) : (fuel : Nat) → Alias → Alias
  | 0, a => a
  | n + 1, a => Alias.loop uu n (a.turn uu)

/-- R93: thresholds and aliases of a node, none when its weights are all zero. -/
def aliasBuild (u : List Nat) : Option (List (Nat × Nat)) :=
  let uu := u.sum
  let d := u.length
  if uu = 0 then none
  else
    let q := u.map (· * d)
    let ix := List.range d
    let a : Alias := ⟨q, List.replicate d (2 ^ 32 - 1), ix, ix.filter fun i => q.getD i 0 < uu, ix.filter fun i => uu ≤ q.getD i 0⟩
    let a := a.loop uu (2 * d)
    some (a.thr.zip a.als)

/-- u[i] of R93: the FP32 quotient, scaled by 2^24, to the nearest integer (log 25). -/
def quantWeight (w wmax : F32) : Nat :=
  match f32 ((fdiv w wmax).run' Tally.zero) with
  | .fin false m e => let (n, d) := scaleFrac m 1 (e + 24); rneDiv n d
  | _ => 0

/-- The weights of a node quantised. -/
def quantWeights (ws : List F32) : List Nat :=
  let wmax := ws.foldl (fun m w => if less32 m w then w else m) zero32
  if wmax = zero32 then ws.map fun _ => 0 else ws.map fun w => quantWeight w wmax

/-- The alias entry of a node without weighted neighbours (log 25). -/
def aliasNone : Nat := 0xFFFFFFFF

/-- The alias entries of a node as stored. -/
def aliasBytes (ws : List F32) : List Byte :=
  match aliasBuild (quantWeights ws) with
  | some l => l.flatMap fun (t, a) => leBytes 4 t ++ leBytes 4 a
  | none => ws.flatMap fun _ => leBytes 4 0 ++ leBytes 4 aliasNone

/-! ## The sampling generator (R99) -/

def m64 (x : Nat) : Nat := x % 2 ^ 64

def mix64 (x : Nat) : Nat :=
  let x := x ^^^ (x / 2 ^ 31)
  let x := m64 (0x7FB5D329728EA185 * x)
  let x := x ^^^ (x / 2 ^ 27)
  let x := m64 (0x81DADEF4BC2DD44D * x)
  x ^^^ (x / 2 ^ 33)

def draw (seed n v h j : Nat) : Nat :=
  let key := mix64 (seed ^^^ mix64 n)
  let key := mix64 (key ^^^ v)
  mix64 (key ^^^ m64 (2 ^ 56 * h) ^^^ j)

/-- Distinct positions of a row of degree d > k (R100). -/
def pickUniform (dr : Nat → Nat) (d k : Nat) : List Nat :=
  let ch := (List.range k).foldl (fun (ch : List Nat) i =>
    let j := d - k + i
    let t := dr i * (j + 1) / 2 ^ 64
    if ch.contains t then ch ++ [j] else ch ++ [t]) []
  sortBy (fun (a b : Nat) => a < b) ch

/-- Positions drawn with replacement by an alias table (R100). -/
def pickWeighted (dr : Nat → Nat) (d k : Nat) (entry : Nat → Nat × Nat) : List Nat :=
  let xs := (List.range k).map fun j =>
    let x := dr j
    let col := x / 2 ^ 32 * d / 2 ^ 32
    if x % 2 ^ 32 < (entry col).1 then col else (entry col).2
  sortBy (fun (a b : Nat) => a < b) xs

/-- The chosen row positions of an expansion and the examinations it costs (R100). DESIGN CHOICE (log 77): a weighted expansion of a node with no
neighbour, or with none of weight above 0, examines nothing; R100 counts both k and the neighbours considered. -/
def expand (rd : Rd) (g : Graph) (weighted : Bool) (seed n h k v : Nat) : List Nat × Nat :=
  let d := g.degree rd v
  let dr (j : Nat) : Nat := draw seed n v h j
  if d = 0 then ([], 0)
  else if weighted then
    let at0 := g.work + 8 * g.rowPtr rd v
    let entry (i : Nat) : Nat × Nat := (rd4 rd (at0 + 8 * i), rd4 rd (at0 + 8 * i + 4))
    if (entry 0).2 = aliasNone then ([], 0) else (pickWeighted dr d k entry, k)
  else if d ≤ k then (List.range d, d)
  else (pickUniform dr d k, k)

/-! ## Blocks -/

/-- A node entry before it is written (Table 4.9). -/
structure SEntry where
  node : Nat
  hop : Nat
  seed : Bool
  ghost : Bool
  halo : Bool
  attr : Nat
  deriving DecidableEq, Repr

/-- An edge record before it is written (Table 4.10): `tail` is bytes 10 to 15. -/
structure SEdge where
  dst : Nat
  src : Nat
  hop : Nat
  tail : Nat
  deriving DecidableEq, Repr

structure SBlock where
  entries : List SEntry
  edges : List SEdge
  deriving DecidableEq, Repr

/-- What building a slice gives and counts (Table 4.14). -/
structure Built where
  blocks : List SBlock
  exam : Nat
  pairs : Nat
  dup : Nat
  trunc : Nat
  badSeed : Bool
  deriving DecidableEq, Repr

def blockCap : Nat := 16384

/-- A slice in work: closed blocks, the current one, and the counts. -/
structure Build where
  closed : List SBlock
  cur : SBlock
  exam : Nat
  dup : Nat
  deriving DecidableEq, Repr

def Build.ref (b : Build) (i : Nat) : Nat := b.closed.length * blockCap + i

/-- The local index of a node in the current block. -/
def SBlock.find (k : SBlock) (v : Nat) : Option Nat := k.entries.findIdx? fun e => e.node = v

/-- R102: close the block when `n` more entries do not fit. -/
def Build.room (b : Build) (n : Nat) : Build :=
  if blockCap < b.cur.entries.length + n then { b with closed := b.closed ++ [b.cur], cur := ⟨[], []⟩ } else b

/-- The local index of a node, inserting it when it is new. -/
def Build.insert (b : Build) (e : SEntry) : Build × Nat :=
  match b.cur.find e.node with
  | some i => (b, i)
  | none => ({ b with cur := { b.cur with entries := b.cur.entries ++ [e] } }, b.cur.entries.length)

/-- R101, R102: a seed. -/
def Build.seed (b : Build) (v : Nat) : Build :=
  let n := if (b.cur.find v).isSome then 0 else 1
  ((b.room n).insert ⟨v, 0, true, false, false, 0⟩).1

/-- R101, R102: one expansion of the entry with reference `dst`. -/
def Build.expansion (b : Build) (dst h exam : Nat) (nbrs : List (Nat × Nat)) : Build :=
  let new := ((nbrs.map (·.2)).eraseDups.filter fun v => (b.cur.find v).isNone).length
  let b := { b.room new with exam := b.exam + exam }
  nbrs.foldl (fun b (e, v) =>
    let had := (b.cur.find v).isSome
    let (b, i) := b.insert ⟨v, h, false, false, false, 0⟩
    { b with
      dup := b.dup + b2n had
      cur := { b.cur with edges := b.cur.edges ++ [⟨dst, b.ref i, h, e⟩] } }) b

/-- The entries of a slice with their references. -/
def Build.all (b : Build) : List (Nat × SEntry) :=
  ((b.closed ++ [b.cur]).zipIdx.flatMap fun (k, n) => k.entries.zipIdx.map fun (e, i) => (n * blockCap + i, e))

/-- A k-hop slice (R101). -/
def buildKhop (rd : Rd) (g : Graph) (D : Desc) (seed n slice : Nat) : Built :=
  let hops := D.op 65 1
  let weighted := D.op 66 1 = 1
  let batch := D.op 72 4
  let per := D.op 76 2
  let sc := D.op 88 8
  let pos := (List.range (min per (batch - slice * per))).map (slice * per + ·)
  let seeds := pos.map fun i => fld (rd8 rd (D.op 80 8 + 8 * ((n * batch + i) % sc))) 0 40
  let b := seeds.foldl (·.seed) (⟨[], ⟨[], []⟩, 0, 0⟩ : Build)
  let b := (List.range hops).foldl (fun b h0 =>
    let h := h0 + 1
    (b.all.filter fun x => x.2.hop = h0).foldl (fun b (ref, e) =>
      let (ps, ex) := expand rd g weighted seed n h (D.op (68 + h0) 1) e.node
      let row := g.rowPtr rd e.node
      b.expansion ref h ex (ps.map fun p => (row + p, g.srcOf rd (row + p)))) b) b
  ⟨b.closed ++ [b.cur], b.exam, 0, b.dup, 0, seeds.any fun v => g.count ≤ v⟩

/-! ### Radius graphs (R105, R106) -/

/-- An integer as FP32. -/
def ofInt32 (i : Int) : F32 := mk32 (Fmt.fp32.roundInt false i 0 1).1

structure Atom where
  x : F32
  y : F32
  z : F32
  attr : Nat
  deriving DecidableEq, Repr

def readAtom (rd : Rd) (a : Nat) : Atom := ⟨mk32 (rd4 rd a), mk32 (rd4 rd (a + 4)), mk32 (rd4 rd (a + 8)), rd4 rd (a + 12)⟩

/-- The distance along an axis under a shift (R105). -/
def axisDist (pi pj L : F32) (s : Int) : F32 := quiet do
  let sh ← if abs32 L = 0 then pure zero32 else fmul (ofInt32 s) L
  fsub (← fadd pj sh) pi

/-- The shifts of an axis that can pass the test. A shift whose own squared distance exceeds the bound fails it, because r2 is
never below that square. -/
def axisShifts (pi pj L c2 : F32) : List (Int × F32) :=
  let ss : List Int := if abs32 L = 0 then [0] else (List.range 255).map fun (k : Nat) => (k : Int) - 127
  (ss.map fun s => (s, axisDist pi pj L s)).filter fun (_, d) => !less32 c2 (quiet (fmul d d))

/-- r2 of R105. -/
def radius2 (dx dy dz : F32) : F32 := quiet do ffma dz dz (← ffma dy dy (← fmul dx dx))

/-- A neighbour found: squared distance, atom and shift. -/
structure Near where
  r2 : F32
  j : Nat
  sx : Int
  sy : Int
  sz : Int
  deriving DecidableEq, Repr

def Near.posLt (a b : Near) : Bool :=
  a.j < b.j || (a.j = b.j && (a.sx < b.sx || (a.sx = b.sx && (a.sy < b.sy || (a.sy = b.sy && a.sz < b.sz)))))

/-- The neighbours of a centre, in ascending (j, s_x, s_y, s_z) (R105). -/
def nearOf (atoms : List Atom) (bx bY bz c2 : F32) (i : Nat) : List Near :=
  let ai := atoms.getD i ⟨0, 0, 0, 0⟩
  atoms.zipIdx.flatMap fun (aj, j) =>
    (axisShifts ai.x aj.x bx c2).flatMap fun (sx, dx) =>
      (axisShifts ai.y aj.y bY c2).flatMap fun (sy, dy) =>
        (axisShifts ai.z aj.z bz c2).filterMap fun (sz, dz) =>
          let r2 := radius2 dx dy dz
          if less32 c2 r2 || (i = j && sx = 0 && sy = 0 && sz = 0) then none else some ⟨r2, j, sx, sy, sz⟩

/-- R106: at most MAXNB, those with the smallest r2. -/
def keepNear (maxnb : Nat) (l : List Near) : List Near × Bool :=
  if l.length ≤ maxnb then (l, false)
  else (sortBy Near.posLt
    ((sortBy (fun a b => less32 a.r2 b.r2 || (a.r2 = b.r2 && a.posLt b)) l).take maxnb), true)

/-- Bytes 10 to 15 of a radius edge: the image (Table 4.10). -/
def imageTail (x : Near) : Nat := toTwos 8 x.sx + 2 ^ 8 * toTwos 8 x.sy + 2 ^ 16 * toTwos 8 x.sz

/-- Entries cut into blocks, each edge in the block of its destination. -/
def cutBlocks (entries : List SEntry) (edges : List SEdge) : List SBlock :=
  (List.range (max 1 (ceilDiv entries.length blockCap))).map fun k =>
    ⟨(entries.drop (k * blockCap)).take blockCap, edges.filter fun e => e.dst / blockCap = k⟩

/-- A radius slice: one structure (R105). Pair tests are counted as the definition makes them (log 26). -/
def buildRadius (rd : Rd) (g : Graph) (D : Desc) (n slice : Nat) : Built :=
  let rec' := g.ptr + 48 * ((n * D.op 72 4 + slice) % g.count)
  let na := rd4 rd rec'
  let ng := rd4 rd (rec' + 4)
  let pos := rd8 rd (rec' + 8)
  let bx := mk32 (rd4 rd (rec' + 16))
  let bY := mk32 (rd4 rd (rec' + 20))
  let bz := mk32 (rd4 rd (rec' + 24))
  let base := fld (rd8 rd (rec' + 32)) 0 40
  let gid := rd8 rd (rec' + 40)
  let atoms := (List.range (na + ng)).map fun i => readAtom rd (pos + 16 * i)
  let cut := mk32 (D.op 68 4)
  let c2 := quiet (fmul cut cut)
  let entries := atoms.zipIdx.map fun (a, i) =>
    if i < na then (⟨(base + i) % 2 ^ 40, 0, true, false, false, a.attr % 2 ^ 16⟩ : SEntry)
    else ⟨fld (rd8 rd (gid + 8 * (i - na))) 0 40, 1, false, true, false, a.attr % 2 ^ 16⟩
  let kept := (List.range na).map fun i => (i, keepNear (D.op 65 2) (nearOf atoms bx bY bz c2 i))
  let edges := kept.flatMap fun (i, l, _) => l.map fun x => (⟨i, x.j, 1, imageTail x⟩ : SEdge)
  let axes := [bx, bY, bz].foldl (fun k L => if abs32 L = 0 then k else k * 255) 1
  ⟨cutBlocks entries edges, 0, na * (na + ng) * axes - na, 0, (kept.filter fun x => x.2.2).length, false⟩

/-! ### Mesh partitions (R95) -/

/-- The partition of a node. -/
def Graph.part (g : Graph) (rd : Rd) (v : Nat) : Nat := rd4 rd (g.aux + 4 * v)

/-- Entries by distance: each turn adds the sources of the last ring, in ascending node ID. -/
def haloRings (rd : Rd) (g : Graph) : (t : Nat) → (all ring : List Nat) → (h : Nat) → List (Nat × Nat)
  | 0, _, _, _ => []
  | t + 1, all, ring, h =>
    let next := ((ring.flatMap fun v => (g.row rd v).map (·.2)).eraseDups.filter fun v => !all.contains v)
    let next := sortBy (fun (a b : Nat) => a < b) next
    next.map (fun v => (v, h)) ++ haloRings rd g t (all ++ next) next (h + 1)

/-- The blocks of a partition (R95). The HOP of an edge is its destination's distance plus one (log 27). -/
def buildPart (rd : Rd) (g : Graph) (p : Nat) : Built :=
  let owned := (List.range g.count).filter fun v => g.part rd v = p
  let ents := owned.map (fun v => (v, 0)) ++ haloRings rd g g.halo owned owned 1
  let entries := ents.map fun (v, h) => (⟨v, h, h = 0, false, h ≠ 0, 0⟩ : SEntry)
  let edges := ents.zipIdx.flatMap fun ((v, h), i) =>
    if h < max g.halo 1 then
      (g.row rd v).filterMap fun (e, u) => (ents.findIdx? fun x => x.1 = u).map fun k => (⟨i, k, min 4 (h + 1), e⟩ : SEdge)
    else []
  ⟨cutBlocks entries edges, 0, 0, 0, 0, false⟩

/-! ## Layout in memory (R108, R109) -/

def SEntry.word (e : SEntry) : Nat :=
  e.node % 2 ^ 40 + 2 ^ 40 * e.hop + 2 ^ 43 * b2n e.seed + 2 ^ 44 * b2n e.ghost + 2 ^ 45 * b2n e.halo + 2 ^ 48 * e.attr

def SEdge.bytes (e : SEdge) : List Byte := leBytes 4 e.dst ++ leBytes 4 e.src ++ leBytes 1 e.hop ++ zeros 1 ++ leBytes 6 e.tail

/-- A route-log record (Table 4.11). DESIGN CHOICE (log 77): the 16 bits of SEQ hold the low bits of a position of 65,536 or above, for which the
table gives nothing. -/
def routeBytes (row kind seq dst : Nat) : List Byte :=
  leBytes 5 row ++ leBytes 1 kind ++ leBytes 2 seq ++ leBytes 4 dst ++ leBytes 2 0xFFFF ++ zeros 2

def pad64 (b : List Byte) : List Byte := b ++ zeros (roundUp b.length 64 - b.length)

/-- The bytes a block takes (R108). -/
def SBlock.size (b : SBlock) : Nat :=
  let n := b.entries.length
  let m := b.edges.length
  64 + roundUp (8 * n) 64 + roundUp (16 * m) 64 + roundUp (16 * (n + m)) 64

/-- The route log of block `k` of a slice: one SELF record an entry, one POOL record an edge, whose ROW_ID is the source's
node (R109). -/
def routeLog (all : List (Nat × SEntry)) (k : Nat) (b : SBlock) : List Byte :=
  let node (ref : Nat) : Nat := match all.lookup ref with | some e => e.node | none => 0
  let selfs := b.entries.zipIdx.flatMap fun (e, i) => routeBytes e.node 0 0 (k * blockCap + i)
  let pools := b.edges.zipIdx.flatMap fun (e, i) =>
    routeBytes (node e.src) 1 ((b.edges.take i).filter fun x => x.dst = e.dst).length e.dst
  selfs ++ pools

/-- The bytes of block `k` of a slice at device address `a`. -/
def blockBytes (all : List (Nat × SEntry)) (mode slice n k a next : Nat) (last spilled : Bool) (b : SBlock) : List Byte :=
  let na := a + 64
  let ea := na + roundUp (8 * b.entries.length) 64
  let ra := ea + roundUp (16 * b.edges.length) 64
  leBytes 4 slice ++ leBytes 4 k ++ leBytes 2 b.entries.length ++ leBytes 1 mode ++ leBytes 1 (flag last 0 + flag spilled 1) ++
    leBytes 4 (k * blockCap) ++ leBytes 8 n ++ leBytes 8 b.edges.length ++ leBytes 8 na ++ leBytes 8 ea ++ leBytes 8 ra ++
    leBytes 8 next ++
    pad64 (b.entries.flatMap fun e => leBytes 8 e.word) ++ pad64 (b.edges.flatMap SEdge.bytes) ++ pad64 (routeLog all k b)

def refsOf (bs : List SBlock) : List (Nat × SEntry) :=
  bs.zipIdx.flatMap fun (k, n) => k.entries.zipIdx.map fun (e, i) => (n * blockCap + i, e)

/-! ## GRAPH_LOAD (R89 to R95) -/

/-- Whether the CSR arrays are valid (R90). -/
def Graph.csrOk (g : Graph) (rd : Rd) : Bool :=
  g.rowPtr rd 0 = 0 && g.rowPtr rd g.count = g.edges &&
    ((List.range g.count).all fun v => g.rowPtr rd v ≤ g.rowPtr rd (v + 1)) &&
    (List.range g.edges).all fun e => g.srcOf rd e < g.count

/-- The weights of a weighted graph: finite and not negative (R90). -/
def Graph.weightsOk (g : Graph) (rd : Rd) : Bool :=
  (List.range g.edges).all fun e =>
    let w := mk32 (rd4 rd (g.aux + 4 * e))
    isFin32 w && !(bit w.toNat 31 && abs32 w ≠ 0)

/-- A position set is valid (R94). -/
def Graph.posOk (g : Graph) (rd : Rd) (inMem : Nat → Nat → Bool) : Bool :=
  (List.range g.count).all fun i =>
    let r := g.ptr + 48 * i
    let na := rd4 rd r
    let n := na + rd4 rd (r + 4)
    let pos := rd8 rd (r + 8)
    let boxOk (o : Nat) : Bool := let L := mk32 (rd4 rd (r + o)); isFin32 L && !(bit L.toNat 31 && abs32 L ≠ 0)
    1 ≤ na && n ≤ 4194304 && pos % 16 = 0 && inMem pos (16 * n) && (n = na || inMem (rd8 rd (r + 40)) (8 * (n - na))) &&
      boxOk 16 && boxOk 20 && boxOk 24 &&
      (List.range n).all fun k => let a := readAtom rd (pos + 16 * k); isFin32 a.x && isFin32 a.y && isFin32 a.z

/-- The number of partitions of a mesh, none when they are not contiguous from 0 (R95). -/
def Graph.partCount (g : Graph) (rd : Rd) : Option Nat :=
  let ps := ((List.range g.count).map (g.part rd)).eraseDups
  if (List.range ps.length).all ps.contains then some ps.length else none

/-- The prepared blocks of every partition, in ascending partition number; one after another in the WORK region. -/
def Graph.prepared (g : Graph) (rd : Rd) (parts : Nat) : List (Nat × Nat × List SBlock) :=
  (List.range parts).foldl (fun (l : List (Nat × Nat × List SBlock)) p =>
    let b := (buildPart rd g p).blocks
    let off := match l.getLast? with | some (_, o, x) => o + (x.map SBlock.size).sum | none => 0
    l ++ [(p, off, b)]) []

/-- Addresses of consecutive blocks from `a`. -/
def blockAddrs (a : Nat) (bs : List SBlock) : List Nat :=
  (bs.foldl (fun (l, a) b => (l ++ [a], a + b.size)) (([] : List Nat), a)).1

/-- Write the blocks of a slice at given addresses (R108). `spill` says which lie outside the buffer. -/
def State.writeBlocks (s : State) (f mode slice n : Nat) (bs : List SBlock) (addrs : List Nat) (spill : List Bool) : State :=
  let all := refsOf bs
  bs.zipIdx.foldl (fun s (b, k) =>
    s.devWrite f (addrs.getD k 0)
      (blockBytes all mode slice n k (addrs.getD k 0) (addrs.getD (k + 1) 0) (k + 1 = bs.length) (spill.getD k false) b)) s

/-- What GRAPH_LOAD finds (R89 to R95): the size of the WORK region it needs and the partitions, none when invalid. Table 4.1 states an
alignment for WORK_ADDR only. That PTR_ADDR and IDX_ADDR are 8-byte aligned (the structure table of a position set too) and AUX_ADDR
4-byte aligned is the model's choice (DESIGN CHOICE, log 77). -/
def State.checkGraph (s : State) (f : Nat) (g : Graph) : Option (Nat × Nat) :=
  let rd : Rd := s.devRead f
  let m := s.inMemory f
  let csr := 1 ≤ g.count && g.count ≤ 2 ^ 40 && g.edges ≤ 2 ^ 48 - 1 && g.ptr % 8 = 0 && g.idx % 8 = 0 &&
    m g.ptr (8 * (g.count + 1)) && m g.idx (8 * g.edges) && g.csrOk rd
  match g.kind with
  | 0 => if csr then some (0, 0) else none
  | 1 => if csr && g.aux % 4 = 0 && m g.aux (4 * g.edges) && g.weightsOk rd then some (8 * g.edges, 0) else none
  | 2 => if 1 ≤ g.count && g.count ≤ 2 ^ 32 && g.ptr % 8 = 0 && m g.ptr (48 * g.count) && g.posOk rd m then some (0, 0) else none
  | 3 =>
    if csr && g.halo ≤ 4 && g.aux % 4 = 0 && m g.aux (4 * g.count) then
      (g.partCount rd).map fun n => (((g.prepared rd n).map fun x => (x.2.2.map SBlock.size).sum).sum, n)
    else none
  | _ => none

/-- Build the WORK region (R93, R95). -/
def State.buildWork (s : State) (f : Nat) (g : Graph) : State :=
  let rd : Rd := s.devRead f
  if g.kind = 1 then
    (List.range g.count).foldl (fun s v =>
      let r := g.rowPtr rd v
      s.devWrite f (g.work + 8 * r) (aliasBytes ((List.range (g.degree rd v)).map fun i => mk32 (rd4 rd (g.aux + 4 * (r + i)))))) s
  else if g.kind = 3 then
    (g.prepared rd g.partitions).foldl (fun s (p, off, bs) =>
      s.writeBlocks f 2 p 0 bs (blockAddrs (g.work + off) bs) []) s
  else s

/-- The prepared blocks of a partition as the WORK region holds them, walking its headers from `a`: each partition ends with the block
that its header marks as the last (R95, R108). -/
def workBlocks (rd : Rd) : (fuel a part : Nat) → List SBlock
  | 0, _, _ => []
  | k + 1, a, part =>
    let h := rd a 64
    let b : SBlock :=
      ⟨(List.range (at' h 8 2)).map fun i =>
          let w := rd8 rd (a + 64 + 8 * i)
          ⟨fld w 0 40, fld w 40 3, bit w 43, bit w 44, bit w 45, fld w 48 16⟩,
        (List.range (at' h 24 8)).map fun i =>
          let e := rd (a + 64 + roundUp (8 * at' h 8 2) 64 + 16 * i) 16
          ⟨at' e 0 4, at' e 4 4, at' e 8 1, at' e 10 6⟩⟩
    let last := bit (at' h 11 1) 0
    if part ≠ 0 then workBlocks rd k (a + b.size) (part - b2n last)
    else b :: if last then [] else workBlocks rd k (a + b.size) 0

/-- Whether an S descriptor of the active plan names a graph slot (R91). -/
def Func.graphActive (g : Func) (slot : Nat) : Bool :=
  match g.activePlan with
  | some (_, p) => p.descs.any fun (D : Desc) => D.phase = 0 && D.op 64 1 = slot
  | none => false

/-- R89, R91. -/
def graphLoad' (c : Submission) (s : State) : State :=
  let slot := at' c.params 0 1
  if c.paramLen ≠ 64 then s.single c stBadParam
  else if (s.func c.func).graphActive slot then s.single c stBusy
  else (s.interim c stAccepted).modFunc c.func fun g => { g with jobs := g.jobs ++ [⟨c, slot, false, 0, 0⟩] }

def execGraphLoad (c : Submission) (s : State) : Done := .next (s.zcp 0x0201 c graphLoad')

/-- The final completion of GRAPH_LOAD: all checks come before any write (R89). -/
def execGraphLoadDone (f slot : Nat) (s : State) : Done :=
  match (s.func f).job 0x0201 slot with
  | none => .next s
  | some j =>
    if s.leadStops f then .next s else
    let s := s.endJob f j
    let g : Graph := ⟨j.sub.params, 0⟩
    match (if slot < 16 then s.checkGraph f g else none) with
    | none => .next (s.final j.sub stBadParam)
    | some (need, parts) =>
      let g := { g with partitions := parts }
      if need ≠ 0 && (g.workBytes < need) then .next (s.final j.sub stBadParam [] (leBytes 8 need))
      else if need ≠ 0 && (g.work % 4096 ≠ 0 || !s.inMemory f g.work need) then .next (s.final j.sub stBadParam)
      else
        let s := s.buildWork f g
        let s := s.modFunc f fun h => { h with graphs := h.graphs.set slot (some g) }
        let (s, q) := s.journalCmd j.sub
        .next (s.final j.sub stOk [] [] q)

/-! ## Step buffers (R110, R111) -/

def State.modSkink (s : State) (d c : Nat) (h : Skink → Skink) : State := s.modClu d c fun x => { x with skink := h x.skink }

/-- Place both buffers of a cluster in its window; when it cannot hold both, the largest that fit (SKK_BUFSIZE.SHORT). DESIGN CHOICE (log 77):
both shrink alike, to the largest whole MiB; R110 does not say how they share. -/
def State.placeBuffers (s : State) (f d c mib : Nat) : State :=
  let s := s.freeOwner f (.step d c)
  let fit := (List.range (mib + 1)).findSome? fun k =>
    let n := MiB * (mib - k)
    if n = 0 then none
    else do
      let (a, s) ← s.allocate f (.step d c) [Area.window d c] n 4096
      let (b, s) ← s.allocate f (.step d c) [Area.window d c] n 4096
      some (a.base, b.base, n, s)
  match fit with
  | some (a, b, n, s) =>
    s.modSkink d c fun k => { k with base0 := a, base1 := b, cap := n, mib := mib, short := n < MiB * mib }
  | none => s.modSkink d c fun k => { k with base0 := 0, base1 := 0, cap := 0, mib := mib, short := true }

/-- R110. -/
def skkConfig' (c : Submission) (s : State) : State :=
  let mib := hb c 24 4
  if !(s.func c.func).accepted.isEmpty then s.single c stBusy
  else if mib = 0 || 4096 < mib then s.single c stBadParam
  else
    let t := (s.maskClusters c).foldl (fun s (d, k) => s.placeBuffers c.func d k mib) s
    if (s.maskClusters c).all fun (d, k) => (t.clu d k).skink = (s.clu d k).skink then t.single c stOk else t.okJ c

def execSkkConfig (c : Submission) (s : State) : Done := .next (s.zcp 0x0202 c skkConfig')

/-- The base of the buffer of a parity, as a key; the default buffers are placed at their first use (log 28). -/
def State.bufferOf (s : State) (f d c par : Nat) : Nat × State :=
  let k := (s.clu d c).skink
  let s := if k.base0 = 0 && !k.short then s.placeBuffers f d c k.mib else s
  let k := (s.clu d c).skink
  (if par = 0 then k.base0 else k.base1, s)

/-- Where the blocks of a slice go (R108, R111): into the remaining buffer, and from the first that does not fit into the spill
region. None when spill finds no room. -/
def State.placeSlice (s : State) (f d c par : Nat) : List SBlock → Option (List (Nat × Bool) × State)
  | bs =>
    let (base, s) := s.bufferOf f d c par
    let k := (s.clu d c).skink
    let used := if par = 0 then k.used0 else k.used1
    let step (x : Option (List (Nat × Bool) × Nat × Bool × State)) (b : SBlock) :=
      x.bind fun (l, used, spilling, s) =>
        if !spilling && used + b.size ≤ k.cap then some (l ++ [(s.devAddr f (base + used), false)], used + b.size, false, s)
        else (s.allocate f (.spill d par) (s.spillOrder f d c) b.size).map fun (a, s) =>
          (l ++ [(s.devAddr f a.base, true)], used, true, s)
    match bs.foldl step (some ([], used, false, s)) with
    | none => none
    | some (l, used, sp, s) =>
      some (l, s.modSkink d c fun k =>
        { k with used0 := if par = 0 then used else k.used0, used1 := if par = 0 then k.used1 else used, spilling := sp })

end Sys2Proof.Machine
end

