-- ==== Sys2Proof/Machine/Blocks.lean ====
section
/-!
DEFINITION. Block lists as a reader finds them in memory (R107, R108, R116, R190), the elements of tensors (R211, R237), masks
(R176, R178), the counts of a descriptor's vectors, and gradients kept by tensor version (R239).
-/
namespace Sys2Proof.Machine

/-! ## Block lists -/

/-- A block as its header names it: its slice, the global number of its first entry (R116) and of its first edge (R190). -/
structure BlockRec where
  addr : Nat
  slice : Nat
  block : Nat
  base : Nat
  ebase : Nat
  nodes : Nat
  edges : Nat
  nodeAddr : Nat
  edgeAddr : Nat
  routeAddr : Nat
  deriving DecidableEq, Repr

/-- An edge with global entry numbers. -/
structure EdgeRec where
  dst : Nat
  src : Nat
  hop : Nat
  deriving DecidableEq, Repr

/-- Table 4.3: slices of a step of an S descriptor. -/
def Desc.slices (D : Desc) : Nat :=
  if D.opkind = 1 then ceilDiv (D.op 72 4) (D.op 76 2) else D.op 72 4

/-- The address of the slice directory of an S descriptor for step `n` (R107). -/
def Desc.dirAddr (D : Desc) (n : Nat) : Nat := D.outAddr + (n % 2) * roundUp (64 + 16 * D.slices) 4096

/-- Total entries in a slice directory (Table 4.6). -/
def State.dirEntries (s : State) (f : Nat) (D : Desc) (n : Nat) : Nat := rd8 (s.devRead f) (D.dirAddr n + 16)

/-- The blocks of one slice: `k` headers from an address on. -/
def walkBlocks (rd : Rd) : (k : Nat) → (a base ebase : Nat) → List BlockRec
  | 0, _, _, _ => []
  | k + 1, a, base, ebase =>
    let h := rd a 64
    let n := at' h 8 2
    let m := at' h 24 8
    ⟨a, at' h 0 4, at' h 4 4, base, ebase, n, m, at' h 32 8, at' h 40 8, at' h 48 8⟩ ::
      walkBlocks rd k (at' h 56 8) (base + n) (ebase + m)

/-- The block list of an S descriptor for step `n`, in slice-directory order (R116). -/
def State.blockList (s : State) (f : Nat) (D : Desc) (n : Nat) : List BlockRec :=
  let rd : Rd := s.devRead f
  let a := D.dirAddr n
  (List.range D.slices).foldl (fun l q =>
    let (base, eb) := match l.getLast? with | some b => (b.base + b.nodes, b.ebase + b.edges) | none => (0, 0)
    l ++ walkBlocks rd (rd4 rd (a + 64 + 16 * q + 4)) (rd8 rd (a + 64 + 16 * q + 8)) base eb) []

/-- The global number of a reference of a slice (R96, R116). -/
def entryOf (bs : List BlockRec) (slice ref : Nat) : Nat :=
  match bs.find? fun b => b.slice = slice && b.block = ref / blockCap with
  | some b => b.base + ref % blockCap
  | none => 0

/-- The edges of a block list in edge order (R190). -/
def edgesOf (rd : Rd) (bs : List BlockRec) : List EdgeRec :=
  bs.flatMap fun b => (List.range b.edges).map fun i =>
    let e := rd (b.edgeAddr + 16 * i) 16
    ⟨entryOf bs b.slice (at' e 0 4), entryOf bs b.slice (at' e 4 4), at' e 8 1⟩

/-- HOPSEL (Table 5.1). -/
def hopSel (sel hop : Nat) : Bool := sel = 0 || (1 ≤ hop && bit sel (hop - 1))

/-! ## Elements -/

/-- Bit `i` of a mask in memory. -/
def memBit (rd : Rd) (a i : Nat) : Bool := bit (leNat (rd (a + i / 8) 1)) (i % 8)

/-- The bit of a mask of Table 7.9; no mask with address 0. -/
def maskBit (rd : Rd) (a i : Nat) : Bool := a ≠ 0 && memBit rd a i

/-- One element of a storage format, widened to FP32. -/
def elemAt (rd : Rd) (fmt a : Nat) : F32 :=
  let F := Fmt.ofCode fmt
  widen F (leNat (rd a F.bytes))

/-- `n` elements from an address. -/
def elemsAt (rd : Rd) (fmt a n : Nat) : List F32 :=
  let w := (Fmt.ofCode fmt).bytes
  (List.range n).map fun i => elemAt rd fmt (a + w * i)

/-- Kinds of the vector engine (R211). -/
def Desc.isVector (D : Desc) : Bool := [0x22, 0x30, 0x31, 0x32, 0x33, 0x40].contains D.opkind
def Desc.isLinear (D : Desc) : Bool := D.opkind = 0x20 || D.opkind = 0x21

def Desc.wlayout (D : Desc) : Nat := D.op 65 1
def Desc.pack (D : Desc) : Bool := bit (D.op 64 1) 0
def Desc.zeroMasked (D : Desc) : Bool := bit (if D.isLinear then D.op 64 1 else D.op 65 1) 1
def Desc.wstore (D : Desc) : Nat := D.op 66 1
def Desc.astore (D : Desc) : Nat := D.op 67 1
def Desc.inStride (D : Desc) : Nat := D.op 68 4
def Desc.outStride (D : Desc) : Nat := D.op 72 4
def Desc.wgtStride (D : Desc) : Nat := D.op 76 4
def Desc.vmask (D : Desc) : Nat := D.op 80 8
def Desc.cmask (D : Desc) : Nat := D.op 88 8
def Desc.spcols (D : Desc) : Nat := D.op 98 2
def Desc.breakeven (D : Desc) : Nat := D.op 100 2
def Desc.msgForm (D : Desc) : Nat := D.op 104 1
def Desc.nodeElems (D : Desc) : Nat := D.op 106 2
def Desc.edgeElems (D : Desc) : Nat := if D.msgForm = 2 then D.op 108 2 else 0
def Desc.efeat (D : Desc) : Nat := D.op 112 8
/-- SRC_DESC of a linear kind (Table 7.9) and of a vector kind (Table 9.2). -/
def Desc.srcDesc (D : Desc) : Nat := if D.isLinear then D.op 96 2 else if D.opkind = 0x10 then D.op 66 2 else D.op 94 2
/-- Table 9.2. -/
def Desc.bRow (D : Desc) : Bool := bit (D.op 65 1) 0
def Desc.inFmt (D : Desc) : Nat := D.op 66 1
def Desc.in2Fmt (D : Desc) : Nat := D.op 67 1
def Desc.in2Stride (D : Desc) : Nat := D.op 76 4
def Desc.in2Addr (D : Desc) : Nat := D.op 80 8
def Desc.imm (D : Desc) : F32 := mk32 (D.op 88 4)
def Desc.dropKeep (D : Desc) : Nat := D.op 92 2
def Desc.dropScale (D : Desc) : F32 := mk32 (D.op 96 4)
def Desc.dmask (D : Desc) : Nat := D.op 100 8
/-- HOPSEL of the edge kinds (Table 7.10, R217). -/
def Desc.hopsel (D : Desc) : Nat := if D.opkind = 0x21 then D.op 105 1 else D.op 108 1

/-- Whether an operation of a vector kind reads operand B (R211). -/
def Desc.usesB (D : Desc) : Bool :=
  let o := D.op 64 1
  D.opkind = 0x33 || D.opkind = 0x40 || (D.opkind = 0x30 && [0, 1, 2, 3, 4, 7, 8].contains o)

/-- Reduction tiles of a linear layer (R187). -/
def Desc.tiles (D : Desc) : Nat := ceilDiv D.rows 128

/-- Masks of a linear layer: an unfed vector, and for edges one that HOPSEL leaves out. -/
def Desc.vecMasked (D : Desc) (rd : Rd) (edges : List EdgeRec) (v : Nat) : Bool :=
  maskBit rd D.vmask v ||
    (D.opkind = 0x21 && (match edges[v]? with | some e => !hopSel D.hopsel e.hop | none => true))

def Desc.colMasked (D : Desc) (rd : Rd) (c : Nat) : Bool := maskBit rd D.cmask c

/-! ## What a descriptor of a plan reads -/

/-- Where the elements of a descriptor's output lie: its address, its rows, the bytes between them and the bytes of one. -/
structure OutForm where
  addr : Nat
  rows : Nat
  stride : Nat
  row : Nat
  deriving DecidableEq, Repr

/-- Whether an address lies in an output. -/
def OutForm.covers (o : OutForm) (a : Nat) : Bool :=
  o.addr ≤ a &&
    (if o.stride = 0 then 0 < o.rows && a - o.addr < o.row
     else (a - o.addr) / o.stride < o.rows && (a - o.addr) % o.stride < o.row)

/-- What the units need to run a descriptor of a step: the function's memory, the plan, the descriptor, its vectors, for the
kinds that read a block list its edges, and the outputs of the descriptors before it. -/
structure Ctx where
  rd : Rd
  plan : Plan
  index : Nat
  step : Nat
  vectors : Nat
  entries : Nat
  edges : List EdgeRec
  outs : List (Nat × OutForm)

def Ctx.D (x : Ctx) : Desc := x.plan.desc x.index

/-- The output of descriptor `j` (R115, R116, R189, R190, R211, R217). -/
def Plan.outForm (p : Plan) (rd : Rd) (n j : Nat) : OutForm :=
  let D := p.desc j
  let dir := (p.desc D.srcDesc).dirAddr n
  if D.opkind = 0x10 then ⟨D.outAddr, rd8 rd (dir + 16), D.op 68 2, D.op 68 2⟩
  else
    let v := if D.vectors ≠ 0 then D.vectors else rd8 rd (dir + (if D.opkind = 0x21 then 24 else 16))
    ⟨D.outAddr, v, D.outStride, D.cols * (Fmt.ofCode D.outFmt).bytes⟩

/-- The context of descriptor `i` of a step (R116, R190, R211). -/
def State.ctx (s : State) (f : Nat) (p : Plan) (n i : Nat) : Ctx :=
  let D := p.desc i
  let S := p.desc D.srcDesc
  let rd : Rd := s.devRead f
  let edgy := D.opkind = 0x21 || D.opkind = 0x22
  let src := edgy || (D.vectors = 0 && (D.isLinear || D.isVector)) || D.opkind = 0x10
  let bs := if edgy then s.blockList f S n else []
  let es := edgesOf rd bs
  let entries := if src then s.dirEntries f S n else 0
  let vs := if D.opkind = 0x21 then (if D.vectors = 0 then es.length else D.vectors)
    else if D.vectors = 0 then entries else D.vectors
  let outs := ((List.range (min i p.descs.length)).filter fun j => (p.desc j).phase = 1 || (p.desc j).phase = 2).map fun j =>
    (j, p.outForm rd n j)
  ⟨rd, p, i, n, vs, entries, es, outs⟩

/-- Whether the module saves the input of a descriptor (R77, R237). -/
def Ctx.saves (x : Ctx) : Bool := x.D.save || x.plan.force

/-- Bytes of the saved input of a linear or vector kind, contiguous in vector-major order: LINEAR its vectors, EDGE_LINEAR the
node rows and then the edge-feature rows, a vector kind operand A and then operand B (R237; the order is the model's, log 30). -/
def Ctx.saveInA (x : Ctx) : Nat × Nat × Nat :=
  let D := x.D
  let F := if D.isLinear then D.astore else D.inFmt
  let w := (Fmt.ofCode F).bytes
  if D.opkind = 0x20 then (x.vectors, D.rows, w)
  else if D.opkind = 0x21 then (x.entries, D.nodeElems, w)
  else if D.opkind = 0x22 then (x.edges.length, D.cols, w)
  else (x.vectors, D.cols, w)

/-- The address of element `e` of input row `v`: the saved copy, or where F read it (R237). `back` asks for B1 or B2. -/
def Ctx.inAt (x : Ctx) (back : Bool) (v e : Nat) : Nat :=
  let (_, n, w) := x.saveInA
  if back && x.saves && !([0x22, 0x33, 0x40].contains x.D.opkind) then x.plan.saveAt x.index + (v * n + e) * w
  else x.D.inAddr + v * x.D.inStride + e * w

/-- Element `e` of input row `v`, widened. -/
def Ctx.a (x : Ctx) (back : Bool) (v e : Nat) : F32 :=
  elemAt x.rd (if x.D.isLinear then x.D.astore else x.D.inFmt) (x.inAt back v e)

/-- The address of element `e` of operand B of vector `v` (Table 9.2). -/
def Ctx.bAt (x : Ctx) (back : Bool) (v e : Nat) : Nat :=
  let w := (Fmt.ofCode x.D.in2Fmt).bytes
  let (m, n, wa) := x.saveInA
  let v := if x.D.bRow then 0 else v
  if back && x.saves && x.D.opkind = 0x30 then x.plan.saveAt x.index + m * n * wa + (v * n + e) * w
  else x.D.in2Addr + v * x.D.in2Stride + e * w

def Ctx.b (x : Ctx) (back : Bool) (v e : Nat) : F32 := elemAt x.rd x.D.in2Fmt (x.bAt back v e)

/-- The address of element `e` of the feature row of edge `v` (Table 7.10). -/
def Ctx.featAt (x : Ctx) (back : Bool) (v e : Nat) : Nat :=
  let D := x.D
  let w := (Fmt.ofCode D.astore).bytes
  let (m, n, wa) := x.saveInA
  (if back && x.saves then x.plan.saveAt x.index + m * n * wa else D.efeat) + (v * D.edgeElems + e) * w

/-- Element `k` of the message of edge `v`, from node rows and features given (Table 7.10). -/
def Desc.message (D : Desc) (node : Nat → Nat → F32) (feat : Nat → Nat → F32) (edges : List EdgeRec) (v k : Nat) : N F32 :=
  let e := edges.getD v ⟨0, 0, 0⟩
  let n := D.nodeElems
  match D.msgForm with
  | 0 => return node e.src k
  | 3 => fsub (node e.src k) (node e.dst k)
  | _ => return if k < n then node e.dst k else if k < 2 * n then node e.src (k - n) else feat v (k - 2 * n)

/-- Element `k` of streamed vector `v` of a linear layer's input (R190). -/
def Ctx.x (x : Ctx) (back : Bool) (v k : Nat) : N F32 :=
  if x.D.opkind = 0x21 then
    x.D.message (x.a back) (fun v e => elemAt x.rd x.D.astore (x.featAt back v e)) x.edges v k
  else return x.a back v k

def Ctx.vmasked (x : Ctx) (v : Nat) : Bool := x.D.vecMasked x.rd x.edges v

/-- The unmasked vectors of a linear layer, ascending. -/
def Ctx.live (x : Ctx) : List Nat := (List.range x.vectors).filter fun v => !x.vmasked v

/-! ## Bounds of what a step writes (R77, R237) -/

/-- The most entries and edges that a step of an S descriptor can give, by which save areas are sized (log 43). -/
def State.sBound (s : State) (f : Nat) (S : Desc) : Nat × Nat :=
  match (s.func f).graphs.getD (S.op 64 1) none with
  | none => (0, 0)
  | some g =>
    let rd : Rd := s.devRead f
    if S.opkind = 1 then
      let r := (List.range (S.op 65 1)).foldl (fun (x : Nat × Nat) h =>
        let l := x.1 * S.op (68 + h) 1
        (l, x.2 + l)) (1, 0)
      (S.op 72 4 * (1 + r.2), S.op 72 4 * r.2)
    else if S.opkind = 2 then
      let sizes := (List.range g.count).map fun i => let a := g.ptr + 48 * i; (rd4 rd a + rd4 rd (a + 4), rd4 rd a)
      let m := sizes.foldl (fun (x : Nat × Nat) y => (max x.1 y.1, max x.2 y.2)) (0, 0)
      (S.op 72 4 * m.1, S.op 72 4 * m.2 * S.op 65 2)
    else
      let ps := (g.prepared rd g.partitions).map fun x =>
        ((x.2.2.map fun b => b.entries.length).sum, (x.2.2.map fun b => b.edges.length).sum)
      let m := ps.foldl (fun (x : Nat × Nat) y => (max x.1 y.1, max x.2 y.2)) (0, 0)
      (S.op 72 4 * m.1, S.op 72 4 * m.2)

/-- The vectors of a descriptor, or their bound. -/
def State.vecBound (s : State) (f : Nat) (p : Plan) (i : Nat) : Nat :=
  let D := p.desc i
  if D.vectors ≠ 0 && D.opkind ≠ 0x22 then D.vectors
  else let b := s.sBound f (p.desc D.srcDesc); if D.opkind = 0x21 then b.2 else b.1

/-- Bytes that the module writes at the save area of a descriptor (R77, R117, R121, R215, R217, R237, Table 10.2). -/
def State.saveBytes (s : State) (f : Nat) (p : Plan) (i : Nat) : Nat :=
  let D := p.desc i
  let saves := D.save || p.force
  let b := s.sBound f (p.desc D.srcDesc)
  let v := s.vecBound f p i
  let w (c : Nat) : Nat := (Fmt.ofCode c).bytes
  if D.opkind = 0x10 then
    match (s.func f).table D.tableId with
    | some t =>
      if !t.trainable || D.noGrad then 0
      else
        let own := 2 * (b.1 + b.2)
        if D.op 64 1 = 3 then roundUp own 4096 + 8 * t.elems * b.1 else own
    | none => 0
  else if D.phase ≠ 2 || !saves then 0
  else match D.opkind with
    | 0x20 => v * D.rows * w D.astore
    | 0x21 => (b.1 * D.nodeElems + b.2 * D.edgeElems) * w D.astore
    | 0x22 => if D.op 64 1 = 3 then 8 * D.cols * b.1 else 0
    | 0x30 => v * D.cols * w D.inFmt + (if D.usesB then (if D.bRow then 1 else v) * D.cols * w D.in2Fmt else 0)
    | 0x31 => v * D.cols * w D.inFmt
    | 0x32 => v * (D.cols * w D.inFmt + 8)
    | _ => 0

/-! ## Gradients by tensor version (R239) -/

/-- The version of the element at an address, as the descriptor reads it: the last descriptor before it that wrote the element, plus
one, or 0 for an input of the plan (log 31). -/
def Ctx.prodAt (x : Ctx) (a : Nat) : Nat := match (x.outs.filter fun o => o.2.covers a).getLast? with | some o => o.1 + 1 | none => 0

/-- The values of the versions that one descriptor wrote. -/
def gradFind (l : List GradBuf) (prod : Nat) : List (Nat × F32) :=
  match l.find? fun b => b.prod = prod with
  | some b => b.data
  | none => []

/-- Whether a gradient reaches a descriptor's output. -/
def gradHas (l : List GradBuf) (prod : Nat) : Bool := l.any fun b => b.prod = prod

/-- One element of a version's gradient; +0 where none has arrived. -/
def gradAt (l : List GradBuf) (prod a : Nat) : F32 := (SMap.find a (gradFind l prod)).getD zero32

/-- The gradient of the element at an address that the descriptor reads. -/
def Ctx.readGrad (x : Ctx) (l : List GradBuf) (a : Nat) : F32 := gradAt l (x.prodAt a) a

/-- The gradient of the element at an address of the descriptor's own output. -/
def Ctx.ownGrad (x : Ctx) (l : List GradBuf) (a : Nat) : F32 := gradAt l (x.index + 1) a

/-- Add values to the versions of one descriptor: the first value of an element is written, a later one added once (R239). -/
def gradAdd (l : List GradBuf) (prod : Nat) (c : List (Nat × F32)) : N (List GradBuf) := do
  let new ← c.foldlM (fun (d : List (Nat × F32)) (a, v) => do
    match SMap.find a d with
    | some w => return SMap.insert a (← once (fadd w v)) d
    | none => return SMap.insert a v d) (gradFind l prod)
  return upsert (fun b => b.prod = prod) (fun b => { b with data := new }) ⟨prod, new⟩ l

/-- Add a contribution of a descriptor, given by element address, to the versions of what it reads (R239). -/
def Ctx.addCells (x : Ctx) (l : List GradBuf) (c : List (Nat × F32)) : N (List GradBuf) :=
  let tagged := c.map fun y => (x.prodAt y.1, y)
  (tagged.map (·.1)).eraseDups.foldlM (fun l p => gradAdd l p ((tagged.filter fun y => y.1 = p).map (·.2))) l

end Sys2Proof.Machine
end

