-- ==== Sys2Proof/Machine/Compressed.lean ====
section
/-!
DEFINITION. Compressed weights (R195 to R199) and the choice of an engine for a compressed tile (R200, R201).
-/
namespace Sys2Proof.Machine

/-- A stored value of a compressed tile: its row and column in the tile and its address. -/
structure Stored where
  row : Nat
  col : Nat
  addr : Nat
  deriving DecidableEq, Repr

/-- A decoded tile: its stored values in storage order, whether its header breaks a rule, and the row of every row encoding of a
segment that does (R197). -/
structure Decoded where
  elems : List Stored
  header : Bool
  bad : List Nat
  deriving DecidableEq, Repr

def Decoded.none : Decoded := ⟨[], false, []⟩

/-- What the decoding of one segment needs: its address, the end of the tile, its first column and width, the tile's rows and the
width of a value. -/
structure Seg where
  at0 : Nat
  lim : Nat
  col0 : Nat
  width : Nat
  rows : Nat
  w : Nat
  deriving DecidableEq, Repr

/-- The values of a row up to its first offending element: candidates give the column, or none where a rule is broken, and the
address. -/
def keepRow (g : Seg) (row : Nat) : List (Option Nat × Nat) → List Stored × Bool
  | [] => ([], false)
  | (some c, a) :: l =>
    if a + g.w ≤ g.lim then let (es, b) := keepRow g row l; (⟨row, g.col0 + c, a⟩ :: es, b) else ([], true)
  | (none, _) :: _ => ([], true)

/-- BM64: rows one after another, each a mask and its values, padded to 8 bytes (Table 8.3, R196, log 32). -/
def bm64 (rd : Rd) (g : Seg) : (n row a : Nat) → Decoded
  | 0, _, _ => Decoded.none
  | n + 1, row, a =>
    let m := rd8 rd a
    let bits := bitsOf 64 m
    let cand := bits.zipIdx.map fun (c, i) => (if c < g.width then some c else none, a + 8 + g.w * i)
    let (es, b) := if a + 8 ≤ g.lim then keepRow g row cand else ([], true)
    let rest := bm64 rd g n (row + 1) (a + 8 + roundUp (bits.length * g.w) 8)
    ⟨es ++ rest.elems, false, (if b then [row] else []) ++ rest.bad⟩

def rd2 (rd : Rd) (a : Nat) : Nat := leNat (rd a 2)

/-- Columns that lie in the segment and ascend; a broken one and all after it are none. -/
def ascending (g : Seg) : (last : Option Nat) → List Nat → List (Option Nat)
  | _, [] => []
  | last, c :: l =>
    let ok := g.col0 ≤ c && c < g.col0 + g.width && (match last with | some x => x < c | none => true)
    if ok then some (c - g.col0) :: ascending g (some c) l else [none]

/-- CS16 (Table 8.3). -/
def cs16 (rd : Rd) (g : Seg) : Decoded :=
  let ptr (k : Nat) : Nat := rd2 rd (g.at0 + 2 * k)
  let n := ptr g.rows
  let ixAt := g.at0 + roundUp (2 * (g.rows + 1)) 8
  let valAt := ixAt + roundUp (2 * n) 8
  let row (k : Nat) : List Stored × Bool :=
    let lo := ptr k
    let hi := ptr (k + 1)
    if (k = 0 && lo ≠ 0) || hi < lo || g.lim < g.at0 + 2 * (k + 2) then ([], true)
    else
      let ps := (List.range (hi - lo)).map (lo + ·)
      let cs := ascending g none (ps.map fun p => rd2 rd (ixAt + 2 * p))
      keepRow g k (cs.zip (ps.map fun p => valAt + g.w * p))
  let rs := (List.range g.rows).map row
  ⟨rs.flatMap (·.1), false, (rs.zipIdx.filter (·.1.2)).map (·.2)⟩

/-- The columns that a row's codes store (RL4): one for each code below 15. -/
def rlColumns (g : Seg) : (cur : Nat) → List Nat → List (Option Nat)
  | _, [] => []
  | cur, c :: l =>
    if c = 15 then rlColumns g (cur + 15) l
    else if cur + c < g.width then some (cur + c) :: rlColumns g (cur + c + 1) l
    else [none]

/-- RL4 (Table 8.3). -/
def rl4 (rd : Rd) (g : Seg) : Decoded :=
  let counts := (List.range g.rows).map fun k => rd2 rd (g.at0 + 2 * k)
  let codeAt := g.at0 + roundUp (2 * g.rows) 8
  let offs := (counts.foldl (fun (l, o) n => (l ++ [o], o + ceilDiv n 2)) (([] : List Nat), 0))
  let valAt := codeAt + roundUp offs.2 8
  let code (k i : Nat) : Nat := fld (leNat (rd (codeAt + offs.1.getD k 0 + i / 2) 1)) (4 * (i % 2)) 4
  let r := (List.range g.rows).foldl (fun (acc, bad, v) k =>
    let n := counts.getD k 0
    let inLim := (List.range n).takeWhile fun i => codeAt + offs.1.getD k 0 + i / 2 + 1 ≤ g.lim
    let cs := inLim.map (code k)
    let stored := ((List.range n).map (code k)).filter (· ≠ 15)
    let cols := rlColumns g 0 cs
    let (es, b) := keepRow g k (cols.zip ((List.range cols.length).map fun i => valAt + g.w * (v + i)))
    let b := b || inLim.length < n || g.lim < g.at0 + 2 * (k + 1)
    (acc ++ es, bad ++ (if b then [k] else []), v + stored.length)) (([] : List Stored), ([] : List Nat), 0)
  ⟨r.1, false, r.2.1⟩

/-- Column blocks of a compressed layer (R195). -/
def Desc.colBlocks (D : Desc) : Nat := ceilDiv D.cols (64 * D.spcols)

/-- The columns of column block `b`. -/
def Desc.blockCols (D : Desc) (b : Nat) : Nat := min (64 * D.spcols) (D.cols - b * 64 * D.spcols)

/-- The address of compressed tile (t, b) (R195). -/
def Desc.ctile (D : Desc) (rd : Rd) (t b : Nat) : Nat := rd8 rd (D.wgtAddr + 16 * (t * D.colBlocks + b))

def ctNnz (rd : Rd) (a : Nat) : Nat := rd4 rd (a + 8)
def ctBytes (rd : Rd) (a : Nat) : Nat := rd4 rd (a + 12)

/-- Table 8.2: the header rules. -/
def Desc.headerOk (D : Desc) (rd : Rd) (t b a : Nat) : Bool :=
  let h := rd a 64
  at' h 0 1 = D.wlayout && at' h 1 1 = D.wstore && at' h 2 1 = min 128 (D.rows - 128 * t) - 1 &&
    at' h 4 2 = D.blockCols b && at' h 6 2 = ceilDiv (at' h 4 2) 64

/-- Decode the segments of compressed tile (t, b) that overlap columns `lo` to `hi` − 1 of the tile (R197, R198). -/
def Desc.decode (D : Desc) (rd : Rd) (t b lo hi : Nat) : Decoded :=
  let a := D.ctile rd t b
  if !D.headerOk rd t b a then ⟨[], true, []⟩
  else
    let cols := D.blockCols b
    let rows := min 128 (D.rows - 128 * t)
    let segs := (List.range (ceilDiv cols 64)).filter fun s => 64 * s < hi && lo < 64 * s + 64
    let ds := segs.map fun s =>
      let g : Seg := ⟨a + rd4 rd (a + 64 + 4 * s), a + ctBytes rd a, 64 * s, min 64 (cols - 64 * s), rows, (Fmt.ofCode D.wstore).bytes⟩
      if D.wlayout = 1 then bm64 rd g rows 0 g.at0 else if D.wlayout = 2 then cs16 rd g else rl4 rd g
    ⟨ds.flatMap (·.elems), false, ds.flatMap (·.bad)⟩

/-- The compressed tiles of a layer. -/
def Desc.ctiles (D : Desc) : List (Nat × Nat) :=
  (List.range (ceilDiv D.rows 128)).flatMap fun t => (List.range D.colBlocks).map fun b => (t, b)

/-- What the compressed layers of a parameter group lay down: the byte ranges of their directories and tiles, and the addresses of the
stored values in them, ascending (R195, R196, R235). -/
def Plan.pattern (p : Plan) (rd : Rd) (g : Nat) : List (Nat × Nat) × List Nat :=
  let Ds := p.descs.filter fun (D : Desc) => D.isLinear && D.wlayout ≠ 0 && D.pgroup = g
  (Ds.flatMap fun (D : Desc) => (D.wgtAddr, D.wgtAddr + 16 * D.ctiles.length) ::
      D.ctiles.map fun (t, b) => let a := D.ctile rd t b; (a, a + ctBytes rd a),
    sortBy (fun (a b : Nat) => a < b)
      (Ds.flatMap fun (D : Desc) => D.ctiles.flatMap fun (t, b) => (D.decode rd t b 0 (D.blockCols b)).elems.map (·.addr)))

/-- Which of the words at ascending addresses hold values: those outside compressed tiles, and the stored ones (R235). -/
def valueWords (ranges : List (Nat × Nat)) : (as stored : List Nat) → List Bool
  | [], _ => []
  | a :: as, stored =>
    let rest := stored.dropWhile (· < a)
    (rest.head? == some a || !ranges.any fun (lo, hi) => lo ≤ a && a < hi) :: valueWords ranges as rest

/-! ## Engine choice (R200, R201) -/

/-- Table 8.5: F and E. -/
def formatF (layout : Nat) : Nat := if layout = 1 then 92 else if layout = 2 then 85 else 78
def formatE (layout : Nat) : Nat := if layout = 1 then 110000 else if layout = 2 then 120000 else 130000

/-- Digit cycles of an activation format (R161, Table 2.4). -/
def Desc.digits (D : Desc) : Nat := bxWidth D.actFmt / 2

/-- W_chunk of R198 for the narrowest presented width of the die. -/
def Desc.chunkW (D : Desc) (minW : Nat) : Nat := (if D.pack then 2 * minW else minW) / 64 * 64

/-- Whether a count of stored values puts a tile of `cols` columns on the sparse engine (R200). -/
def Desc.wouldSparse (D : Desc) (minW cols nnz : Nat) : Bool :=
  let wc := D.chunkW minW
  let K := ceilDiv cols wc
  if D.breakeven = 0 then nnz * 100 < 1024 * formatF D.wlayout * D.digits * K
  else if D.breakeven = 0xFFFF then
    let r := 128 * K * wc * D.digits * 3534
    nnz * formatE D.wlayout < (if D.pack then r / 2 else r)
  else 65536 * nnz < D.breakeven * 128 * cols

/-- The engine of compressed tile (t, b): the header's count decides under ENGINE 0. -/
def Desc.sparseTile (D : Desc) (rd : Rd) (minW t b : Nat) : Bool :=
  D.wlayout ≠ 0 &&
    (D.engine = 2 || (D.engine = 0 && D.wouldSparse minW (D.blockCols b) (ctNnz rd (D.ctile rd t b))))

/-! ## Cost on the sparse engine (R203 to R205) -/

/-- HEAVY as it acts (SPE_CTL). -/
def heavyEff (h : Nat) : Nat := max 64 (min 16384 h)

/-- Work items of rows with the given counts: (cost, row, piece) (R204). -/
def workItems (heavy : Nat) (counts : List Nat) : List (Nat × Nat × Nat) :=
  counts.zipIdx.flatMap fun (n, r) =>
    (List.range (ceilDiv n heavy)).map fun p => (ceilDiv (min heavy (n - p * heavy)) 64, r, p)

/-- Lane costs after dealing (R204). -/
def dealLanes (items : List (Nat × Nat × Nat)) : List Nat :=
  let sorted := sortBy (fun (a b : Nat × Nat × Nat) =>
    b.1 < a.1 || (a.1 = b.1 && (a.2.1 < b.2.1 || (a.2.1 = b.2.1 && a.2.2 < b.2.2)))) items
  sorted.foldl (fun (ls : List Nat) x =>
    match leastBy (fun (a b : Nat × Nat) => a.1 < b.1) ls.zipIdx with
    | some (c, i) => ls.set i (c + x.1)
    | none => ls) (List.replicate 16 0)

/-- The encoded bytes of the segments of compressed tile (t, b) (R195). -/
def Desc.segBytes (D : Desc) (rd : Rd) (t b : Nat) : List Nat :=
  let a := D.ctile rd t b
  let n := ceilDiv (D.blockCols b) 64
  let off (s : Nat) : Nat := if s < n then rd4 rd (a + 64 + 4 * s) else ctBytes rd a
  (List.range n).map fun s => off (s + 1) - off s

/-- The passes of consecutive whole segments that fit an operand-store half: first segment and count (R203). -/
def passesOf (sizes : List Nat) : List (Nat × Nat) :=
  let (done, cur) := sizes.zipIdx.foldl (fun ((done, cur) : List (Nat × Nat) × Nat × Nat × Nat) (n, i) =>
    if cur.2.1 ≠ 0 && 256 * 1024 < cur.2.2 + n then (done ++ [(cur.1, cur.2.1)], i, 1, n)
    else (done, cur.1, cur.2.1 + 1, cur.2.2 + n)) (([] : List (Nat × Nat)), 0, 0, 0)
  done ++ [(cur.1, cur.2.1)]

/-- Cycles per vector, and idle lane cycles per vector (R205). -/
def sparseCycles (layout drainBytes : Nat) (lanes : List Nat) : Nat × Nat :=
  let F := formatF layout
  let L := lanes.foldl max 0
  let p := max (ceilDiv (100 * L) F) (ceilDiv drainBytes 1024)
  (p, (lanes.map fun c => p - ceilDiv (100 * c) F).sum)

end Sys2Proof.Machine
end

