-- ==== Sys2Proof/Machine/Tiles.lean ====
section
/-!
DEFINITION. Tiles of linear layers: how a layer is cut (R166, R167, R187, R198, R232 to R234, R243), the operands a tile streams and
holds, its column results (R161, R169, R176 to R178), and what a committed tile leaves (R188). Placement: the groups of a layer
are dealt to cores and wait in queues of 16 (R82, R192, log 33).
-/
namespace Sys2Proof.Machine

/-! ## Cutting -/

/-- The three products of a linear layer that tiles compute: the forward shape (F and the first sweep of B2), the input-gradient
shape, and the weight-gradient shape (Table 10.1, R244). -/
inductive Shape where
  | fwd
  | dx
  | dw
  deriving DecidableEq, Repr

def Tile.shape (t : Tile) : Shape := if t.wg ≠ 0 then .dw else if t.transpose then .dx else .fwd

/-- Reduction dimension and output columns of a shape (Table 10.1). -/
def Ctx.dims (x : Ctx) : Shape → Nat × Nat
  | .fwd => (x.D.rows, x.D.cols)
  | .dx => (x.D.cols, x.D.rows)
  | .dw => (x.live.length, x.D.cols)

/-- Streamed vectors of a shape. -/
def Ctx.streamed (x : Ctx) : Shape → Nat
  | .dw => x.D.rows
  | _ => x.vectors

/-- c_eff (R166) for a chunk of `cols` columns that writes `w` bytes a column. -/
def cEff (digits cols w : Nat) : Nat := max digits (ceilDiv (cols * w) 1024)

/-- Runs of at most `m` of `n` vectors: first and count (R167). -/
def runsOf (m n : Nat) : List (Nat × Nat) := (List.range (ceilDiv n m)).map fun i => (m * i, min m (n - m * i))

/-- The leaf or part of reduction tile t (R56, R59). -/
def leafFor (split t T : Nat) : Nat := if canonicalSplit split then leafOf t T else (split * (t + 1) - 1) / T

/-- Leaves of a split. -/
def leafCount (split : Nat) : Nat := if canonicalSplit split then 8 else split

/-- Where a placement puts unit `k` of a layer whose tiles read at some addresses: the core, the columns it presents, and the narrowest
presented width of its die (R82, R198). -/
abbrev Home := List Nat → Nat → Nat × Nat × Nat

/-- Column chunks of `C` columns, each as wide as its core presents: number, first column and count (R82, R187). -/
def chunkCols (wide : Nat → Nat) (C : Nat) : (fuel j c : Nat) → List (Nat × Nat × Nat)
  | 0, _, _ => []
  | n + 1, j, c =>
    if C ≤ c then []
    else
      let m := min (max 1 (wide j)) (C - c)
      (j, c, m) :: chunkCols wide C n (j + 1) (c + m)

/-- The buffer of a tensor version in a plan; 0 when it has none (R239). -/
def Plan.gradBuf (p : Plan) (prod addr : Nat) : Nat :=
  match p.gradBufs.find? fun b => b.1 = prod && (prod ≠ 0 || b.2.1 = addr) with
  | some b => b.2.2
  | none => 0

/-- The address of the weight slab of a tile: reduction tile `t` from column `c` on (R169, R187, R195, Table 10.1). -/
def Ctx.slab (x : Ctx) (sh : Shape) (t c : Nat) : Nat :=
  let D := x.D
  let w := (Fmt.ofCode D.wstore).bytes
  match sh with
  | .dw => x.plan.gradBuf (x.index + 1) D.outAddr
  | .fwd => if D.wlayout = 0 then D.wgtAddr + 128 * t * D.wgtStride + c * w else D.ctile x.rd t (c / (64 * D.spcols))
  | .dx => if D.wlayout = 0 then D.wgtAddr + c * D.wgtStride + 128 * t * w else D.wgtAddr

/-- The address of what a tile streams, from vector `v` on (Table 7.11, Table 10.1). -/
def Ctx.streamAt (x : Ctx) (sh : Shape) (v : Nat) : Nat :=
  let D := x.D
  match sh with
  | .fwd => if D.opkind = 0x21 then (x.plan.desc D.srcDesc).dirAddr x.step else D.inAddr + v * D.inStride
  | .dx => x.plan.gradBuf (x.index + 1) D.outAddr + 4 * v * D.cols
  | .dw => x.inAt true 0 0

/-- The leaf buffers of a leaf of the descriptor (R188). -/
def Ctx.leafBuf (x : Ctx) (leaf : Nat) : LeafBuf :=
  (x.plan.leafBufs.find? fun b => b.desc = x.index && b.leaf = leaf).getD ⟨x.index, leaf, none, 0, 0⟩

/-- A tile with the addresses of its operands and its outputs (Table 7.11), which follow from its part of the layer. -/
def Ctx.aim (x : Ctx) (t : Tile) : Tile :=
  let D := x.D
  let lb := x.leafBuf t.leaf
  { t with
    wgtAddr := x.slab t.shape t.t t.colFirst
    actAddr := x.streamAt t.shape t.vecFirst
    outAddr := if t.pair then lb.addr
      else if t.pass = 0 then D.outAddr + t.vecFirst * D.outStride + t.colFirst * (Fmt.ofCode t.outFmt).bytes
      else x.plan.gradBuf (x.prodAt D.inAddr) D.inAddr
    leafAlt := if t.pair then lb.addr + lb.bytes / 2 else 0 }

/-- The leaves of a reduction of `T` tiles that take any, each with its tiles in ascending order (R58, R188). -/
def leafRuns (split T : Nat) : List (Nat × List Nat) :=
  ((List.range (leafCount split)).map fun l => (l, (List.range T).filter fun t => leafFor split t T = l)).filter fun x => !x.2.isEmpty

/-- The addresses that the tiles of a leaf read, from column `c` on: the weights, what is streamed, and for EDGE_LINEAR the node rows and
edge features that its vectors are formed from (R190). -/
def Ctx.leafReads (x : Ctx) (sh : Shape) (ts : List Nat) (c : Nat) : List Nat :=
  [x.slab sh (ts.headD 0) c, x.streamAt sh 0] ++
    (if x.D.opkind = 0x21 && sh = .fwd then x.D.inAddr :: (if x.D.msgForm = 2 then [x.D.efeat] else []) else [])

/-- The engine chosen for each compressed tile of a layer, by the narrowest presented width of the die it is placed on (R198, R200). -/
def Ctx.choices (x : Ctx) (home : Home) : List (Nat × Nat × Bool × Nat) :=
  let D := x.D
  let ls := leafRuns (max 1 D.split) (ceilDiv D.rows 128)
  (List.range D.colBlocks).flatMap fun b => ls.zipIdx.flatMap fun ((_, ts), i) =>
    let (_, _, minW) := home (x.leafReads .fwd ts (b * 64 * D.spcols)) (b * ls.length + i)
    ts.map fun t => (x.index, t * D.colBlocks + b, D.sparseTile x.rd minW t b, minW)

/-- The tiles of a layer for one pass and shape, in the groups that stay together on one core (R187), each with the core it goes to: a
group is a column chunk, or a column block of a compressed layer, and a leaf. -/
def Ctx.cut (x : Ctx) (f pass wg : Nat) (sh : Shape) (home : Home) (n16 : Nat) : List (Nat × List Tile) :=
  let D := x.D
  let (R, C) := x.dims sh
  let T := ceilDiv R 128
  let two := if D.pack then 2 else 1
  let V := x.streamed sh
  let split := if pass = 0 then max 1 D.split else 8
  let pair := sh = .dw || 1 < T
  let out := if pass = 0 then D.outFmt else 0
  let outW := if pair then 8 else (Fmt.ofCode out).bytes
  let mk (t first cols : Nat) (sparse : Bool) : List Tile :=
    let runs := if sparse then runsOf 4096 V else runsOf (8192 / max 1 (cEff D.digits cols outW)) V
    let leaf := leafFor split t T
    runs.map fun (v, m) => x.aim
      { func := f, layer := x.index, pass := pass, load := !sparse && v = 0, pack := !sparse && D.pack, transpose := sh = .dx
        zeroMasked := pass = 0 && D.zeroMasked, stoch := D.stoch, actFmt := D.actFmt, wgtFmt := D.wgtFmt, outFmt := out, pair := pair
        wg := wg, leaf := leaf, t := t, tCount := T, vecFirst := v, vecCount := m, colFirst := first, colCount := cols
        wgtAddr := 0, actAddr := 0, outAddr := 0, leafAlt := 0
        rowValid := min 128 (R - 128 * t), step := n16, seq := 0, sparse := sparse, counted := false }
  let leaves := (leafRuns split T).zipIdx
  let L := leaves.length
  if D.wlayout ≠ 0 && sh = .fwd then
    (List.range D.colBlocks).flatMap fun b =>
      let lo := b * 64 * D.spcols
      let n := D.blockCols b
      leaves.map fun ((_, ts), i) =>
        let (core, _, minW) := home (x.leafReads sh ts lo) (b * L + i)
        let tiles := ts.flatMap fun t =>
          let sp := match x.plan.choices.find? fun c => c.1 = x.index && c.2.1 = t * D.colBlocks + b with
            | some c => c.2.2.1
            | none => D.sparseTile x.rd minW t b
          if sp then mk t lo n true
          else (runsOf (max 64 (D.chunkW minW)) n).flatMap fun (c, m) => mk t (lo + c) m false
        (core, tiles)
  else
    let groups := leaves.flatMap fun ((_, ts), i) =>
      (chunkCols (fun j => two * (home (x.leafReads sh ts 0) (j * L + i)).2.1) C C 0 0).map fun (j, c, m) =>
        (j * L + i, (home (x.leafReads sh ts 0) (j * L + i)).1, ts.flatMap fun t => mk t c m false)
    (sortBy (fun (a b : Nat × Nat × List Tile) => a.1 < b.1) groups).map (·.2)

/-- The 64 bytes of a tile descriptor (R191, Table 7.11). -/
def Tile.image (t : Tile) : List Byte :=
  leBytes 2 t.layer ++ leBytes 1 t.pass ++
    leBytes 1 (b2n t.load + 2 * b2n t.pack + 4 * b2n t.transpose + 8 * b2n t.zeroMasked + 16 * b2n t.stoch) ++
    leBytes 1 (t.actFmt % 16 + 16 * (t.wgtFmt % 16)) ++ leBytes 1 (t.outFmt % 16 + 16 * b2n t.pair) ++ leBytes 1 t.leaf ++ zeros 1 ++
    leBytes 2 t.t ++ leBytes 2 t.tCount ++ leBytes 4 t.vecFirst ++ leBytes 4 t.vecCount ++ leBytes 2 t.colFirst ++ leBytes 2 t.colCount ++
    leBytes 8 t.wgtAddr ++ leBytes 8 t.actAddr ++ leBytes 8 t.outAddr ++ leBytes 8 t.leafAlt ++ leBytes 1 (t.rowValid - 1) ++ zeros 1 ++
    leBytes 2 t.step ++ leBytes 4 t.seq

/-! ## Operands -/

/-- The gradient buffers and tangents a step holds, as a tile reads them. -/
structure Bufs where
  grads : List GradBuf
  tangents : List GradBuf
  gradTangents : List GradBuf

def Step.bufs (st : Step) : Bufs := ⟨st.grads, st.tangents, st.gradTangents⟩

/-- The address of output element (v, c) of a linear or vector kind. -/
def Desc.outAt (D : Desc) (v c : Nat) : Nat := D.outAddr + v * D.outStride + c * (Fmt.ofCode D.outFmt).bytes

/-- An element of a buffer of the layer's output version; a masked column is zero (R234). -/
def Ctx.outGrad (x : Ctx) (l : List GradBuf) (v c : Nat) : F32 :=
  if x.D.colMasked x.rd c then zero32 else x.ownGrad l (x.D.outAt v c)

/-- An element of the tangent of an input row (R243). -/
def Ctx.inTangent (x : Ctx) (l : List GradBuf) (v e : Nat) : F32 := x.readGrad l (x.inAt false v e)

/-- Element `k` of the tangent of streamed vector `v`. -/
def Ctx.xTangent (x : Ctx) (l : List GradBuf) (v k : Nat) : N F32 :=
  if x.D.opkind = 0x21 then
    x.D.message (x.inTangent l) (fun v e => x.readGrad l (x.featAt false v e)) x.edges v k
  else return x.inTangent l v k

/-- A weight of the layer (R187, R196): reduction row `k`, column `c`. `dec` holds the decoded tiles of a compressed layer. -/
def Ctx.weight (x : Ctx) (dec : List ((Nat × Nat) × Decoded)) (k c : Nat) : Fv :=
  let D := x.D
  let F := Fmt.ofCode D.wstore
  if D.wlayout = 0 then F.decode (leNat (x.rd (D.wgtAddr + k * D.wgtStride + c * F.bytes) F.bytes))
  else
    let b := c / (64 * D.spcols)
    match ((dec.lookup (k / 128, b)).getD Decoded.none).elems.find? fun e => e.row = k % 128 && e.col = c - b * 64 * D.spcols with
    | some e => F.decode (leNat (x.rd e.addr F.bytes))
    | none => .fin false 0 0

def zeroFv : Fv := .fin false 0 0

/-- The value in array row `r` at output column `q` of a tile, before conversion (R169, R177, Table 10.1). -/
def Ctx.stationary (x : Ctx) (B : Bufs) (dec : List ((Nat × Nat) × Decoded)) (live : List Nat) (t : Tile) (r q : Nat) : Fv :=
  if t.rowValid ≤ r then zeroFv
  else match t.shape with
    | .fwd => x.weight dec (128 * t.t + r) q
    | .dx => x.weight dec q (128 * t.t + r)
    | .dw => f32 (x.outGrad (if t.wg = 3 then B.gradTangents else B.grads) (live.getD (128 * t.t + r) 0) q)

/-- What array row `r` receives for streamed vector `v` of a tile. -/
def Ctx.stream (x : Ctx) (B : Bufs) (live : List Nat) (t : Tile) (v r : Nat) : N Fv := do
  if t.rowValid ≤ r then return zeroFv
  let i := 128 * t.t + r
  match t.shape with
  | .fwd => return f32 (← if t.pass = 2 then x.xTangent B.tangents v i else x.x false v i)
  | .dx => return f32 (x.outGrad (if t.pass = 2 then B.gradTangents else B.grads) v i)
  | .dw =>
    let m := live.getD i 0
    return f32 (← if t.wg = 2 then x.xTangent B.tangents m v else x.x true m v)

/-- Draws of the lane generators for a vector of 128 elements (R42, R227). -/
def drawLanes (n : Nat) : N (List Nat) := (List.range n).mapM fun _ => do return (Config.laneDraw (← nextFresh)).toNat

/-- The compressed tiles that a tile reads, with the columns of each (R197, R198, R235): reduction tile, column block, first column and
the column behind the last. -/
def Ctx.segments (x : Ctx) (t : Tile) : List (Nat × Nat × Nat × Nat) :=
  let D := x.D
  let W := 64 * D.spcols
  let part (lo hi b : Nat) : Nat × Nat := (max lo (b * W) - b * W, min hi (b * W + D.blockCols b) - b * W)
  if D.wlayout = 0 then []
  else match t.shape with
    | .dw => []
    | .fwd =>
      let b := t.colFirst / W
      let r := part t.colFirst (t.colFirst + t.colCount) b
      [(t.t, b, r.1, r.2)]
    | .dx =>
      let lo := 128 * t.t
      let hi := lo + t.rowValid
      let rts := (List.range D.tiles).filter fun r => 128 * r < t.colFirst + t.colCount && t.colFirst < 128 * r + 128
      let bs := (List.range D.colBlocks).filter fun b => b * W < hi && lo < b * W + D.blockCols b
      rts.flatMap fun r => bs.map fun b => let o := part lo hi b; (r, b, o.1, o.2)

/-- Those compressed tiles decoded. -/
def Ctx.decoded (x : Ctx) (t : Tile) : List ((Nat × Nat) × Decoded) :=
  (x.segments t).map fun (r, b, lo, hi) => ((r, b), x.D.decode x.rd r b lo hi)

/-- The fill of a stationary-load buffer half or of an operand-store half for a tile: its weights converted, and the checksum weights
(R161, R168, R169, R183, R203). -/
def Ctx.fill (x : Ctx) (B : Bufs) (t : Tile) : N Weights := do
  let dec := x.decoded t
  let live := x.live
  let cols := (List.range t.colCount).map (t.colFirst + ·)
  let ws ← cols.mapM fun q => bxVector (bxWidth x.D.wgtFmt) ((List.range 128).map fun r => x.stationary B dec live t r q) none
  return ⟨cols.zip ws, checkWeights ws⟩

/-- The vectors that a tile streams (R176, Table 10.1). -/
def Ctx.fed (x : Ctx) (t : Tile) : List Nat :=
  ((List.range t.vecCount).map (t.vecFirst + ·)).filter fun v => t.shape = .dw || !x.vmasked v

/-- The weights of a tile's columns among those that an engine holds. -/
def Weights.ofTile (w : Weights) (t : Tile) : List (Nat × List Blk) :=
  w.cols.filter fun c => t.colFirst ≤ c.1 && c.1 < t.colFirst + t.colCount

/-- What faults add to the four group sums of a vector at a column (R184). -/
def upsetAt (us : List Upset) (m : Nat) (q : Option Nat) : List Int :=
  (List.range 4).map fun g => ((us.filter fun u => u.vector = m && u.group = g && u.column = q).map (·.amount)).sum

/-- The column results of a tile: each streamed vector with each column. -/
def Ctx.tileColumns (x : Ctx) (B : Bufs) (held : Weights) (t : Tile) (us : List Upset) : N (List (Nat × Nat × ColRes)) := do
  let D := x.D
  let live := x.live
  let ws := held.ofTile t
  let out ← (x.fed t).zipIdx.mapM fun (v, m) => do
    let xs ← (List.range 128).mapM (x.stream B live t v)
    let rs : Option (List Nat) ← if D.stoch then some <$> drawLanes 128 else pure none
    let acts ← bxVector (bxWidth D.actFmt) xs rs
    return ws.map fun (q, bs) => (v, q, columnSum (bxWidth D.actFmt) (bxWidth D.wgtFmt) acts bs (upsetAt us m (some q)))
  return out.flatten

/-- The vector and group pairs of a tile whose compare fails (R184). Only those that a fault meets can: Laws/Check.lean (checkGroup_sound). -/
def Ctx.mismatches (x : Ctx) (B : Bufs) (held : Weights) (t : Tile) (us : List Upset) : List (Nat × Nat) :=
  let ws := held.ofTile t
  let fed := x.fed t
  let live := x.live
  let hit := sortBy (fun (a b : Nat × Nat) => a.1 < b.1 || (a.1 = b.1 && a.2 < b.2)) ((us.map fun u => (u.vector, u.group)).eraseDups)
  hit.filter fun (m, g) =>
    match fed[m]? with
    | none => false
    | some v =>
      let acts := quiet do bxVector (bxWidth x.D.actFmt) (← (List.range 128).mapM (x.stream B live t v)) none
      g < 4 && !checkGroup (acts.getD g ⟨0, []⟩)
        (ws.map fun (q, bs) => (bs.getD g ⟨0, []⟩, (upsetAt us m (some q)).getD g 0))
        ((held.check.drop (32 * g)).take 32, (upsetAt us m none).getD g 0)

/-! ## Commit (R179, R188) -/

/-- The leaf number under which the outcome of a whole reduction stands. -/
def closedLeaf : Nat := 64

def leafFind (l : List LeafCell) (layer pass wg leaf v c : Nat) : Option LeafCell :=
  l.find? fun x => x.layer = layer && x.pass = pass && x.wg = wg && x.leaf = leaf && x.vec = v && x.col = c

def leafGet (l : List LeafCell) (layer pass wg leaf v c : Nat) : Pair :=
  match leafFind l layer pass wg leaf v c with
  | some x => (x.s, x.e)
  | none => Pair.empty

/-- Enter a pair in a leaf: it stands in the buffer that was inactive, which becomes the active one, and one more tile has entered. -/
def leafPut (l : List LeafCell) (layer pass wg leaf v c : Nat) (p : Pair) : List LeafCell :=
  upsert (fun x => x.layer = layer && x.pass = pass && x.wg = wg && x.leaf = leaf && x.vec = v && x.col = c)
    (fun x => { x with s := p.1, e := p.2, s1 := x.s, e1 := x.e, alt := !x.alt, n := x.n + 1 })
    ⟨layer, pass, wg, leaf, v, c, p.1, p.2, Pair.empty.1, Pair.empty.2, true, 1⟩ l

/-- Tiles that have entered the leaves of an element of a reduction. -/
def leafTiles (l : List LeafCell) (layer pass wg v c : Nat) : Nat :=
  ((List.range closedLeaf).map fun i => match leafFind l layer pass wg i v c with | some x => x.n | none => 0).sum

/-- The results of a tile: output elements to write, and the leaves with its pairs entered (R45, R55, R188). A column and its entry
into a leaf are one result; a poisoned column was counted at conversion (R45). -/
def Ctx.tileResult (x : Ctx) (t : Tile) (rs : List (Nat × Nat × ColRes)) (leaves : List LeafCell) :
    N (List (Nat × Nat × Nat) × List LeafCell) :=
  rs.foldlM (fun (outs, ls) (v, c, r) => do
    let dropped := t.pass = 0 && x.D.colMasked x.rd c
    if t.pair then
      let p ← nfCounted (once do node (leafGet ls t.layer t.pass t.wg t.leaf v c) (← columnPair r))
      return (outs, if dropped then ls else leafPut ls t.layer t.pass t.wg t.leaf v c p)
    else
      let b ← columnRound (Fmt.ofCode t.outFmt) r
      if dropped then return (outs, ls)
      else if t.pass = 0 then return (outs ++ [(v, c, b)], ls)
      else return (outs, leafPut ls t.layer t.pass t.wg closedLeaf v c (mk32 b, zero32))) (([] : List (Nat × Nat × Nat)), leaves)

/-- The pair of a reduction's leaves or parts (R57 to R59). -/
def Ctx.closeLeaves (x : Ctx) (ls : List LeafCell) (pass wg split v c : Nat) : N Pair :=
  let l (i : Nat) : Pair := leafGet ls x.index pass wg i v c
  nfCounted (if canonicalSplit split then tree8 ((List.range 8).map l) else chain ((List.range split).map l))

/-- The nodes that close the reductions of which a tile was the last (R188, R229): outputs of a forward layer, and for a backward
product its outcome, an input gradient or a tangent rounded to FP32 (R233), a weight gradient as a pair (R241). -/
def Ctx.closeCells (x : Ctx) (t : Tile) (cells : List (Nat × Nat)) (leaves : List LeafCell) :
    N (List (Nat × Nat × Nat) × List LeafCell × Nat) :=
  cells.foldlM (fun (outs, ls, n) (v, c) => do
    if leafTiles ls t.layer t.pass t.wg v c ≠ t.tCount then return (outs, ls, n)
    else if t.pass = 0 then
      let b ← once do pairRound (Fmt.ofCode x.D.outFmt) (← x.closeLeaves ls 0 0 (max 1 x.D.split) v c)
      return (outs ++ [(v, c, b)], ls, n + 1)
    else if t.wg = 0 then
      let y ← once do pairRound32 (← x.closeLeaves ls t.pass 0 8 v c)
      return (outs, leafPut ls t.layer t.pass 0 closedLeaf v c (y, zero32), n + 1)
    else
      let p ← x.closeLeaves ls t.pass t.wg 8 v c
      return (outs, leafPut ls t.layer t.pass t.wg closedLeaf v c p, n + 1)) (([] : List (Nat × Nat × Nat)), leaves, 0)

def State.writeOut (s : State) (f : Nat) (D : Desc) (v c bits : Nat) : State :=
  s.devWrite f (D.outAt v c) (leBytes (Fmt.ofCode D.outFmt).bytes bits)

def State.writeOuts (s : State) (f : Nat) (D : Desc) (l : List (Nat × Nat × Nat)) : State :=
  l.foldl (fun s (v, c, b) => s.writeOut f D v c b) s

/-- The pairs that a tile has left, in the buffer of its leaf that is now the active one, where that lies in device memory: by vector,
then by column, 8 bytes each (R188; the order within a buffer is DESIGN CHOICE, log 43). -/
def State.writeLeaves (s : State) (f : Nat) (x : Ctx) (t : Tile) (cells : List (Nat × Nat)) (ls : List LeafCell) : State :=
  let lb := x.leafBuf t.leaf
  if !t.pair || lb.cluster.isSome || lb.addr = 0 then s
  else
    let C := (x.dims t.shape).2
    cells.foldl (fun s (v, c) =>
      match leafFind ls t.layer t.pass t.wg t.leaf v c with
      | some z =>
        let o := 8 * (v * C + c)
        if lb.bytes / 2 < o + 8 then s
        else s.devWrite f (lb.addr + (if z.alt then lb.bytes / 2 else 0) + o) (leBytes 4 z.s.toNat ++ leBytes 4 z.e.toNat)
      | none => s) s

/-- The context of a tile's layer, with the step that it belongs to. -/
def State.tileCtx (s : State) (t : Tile) : Option (Ctx × Step) :=
  match (s.func t.func).activePlan, (s.func t.func).cur with
  | some (_, p), some st => some (s.ctx t.func p st.n t.layer, st)
  | _, _ => none

/-- Commit the vectors of a tile on core `i`: its results, the nodes that they close, the masked vectors' zeros (R176), the numerical
counters of the engine and of the core's vector engine. -/
def State.commitTile (s : State) (i : Nat) (b : Block) (t : Tile) (held : Weights) (us : List Upset) : State :=
  match s.tileCtx t with
  | none => s
  | some (x, st) =>
    let f := t.func
    let ((cells, outs, ls), s) := s.calc b f false (do
      let rs ← x.tileColumns st.bufs held t us
      let (outs, ls) ← x.tileResult t rs st.leaves
      return (rs.map fun r => (r.1, r.2.1), outs, ls))
    let s := (s.writeOuts f x.D outs).writeLeaves f x t cells ls
    let ((more, ls, n), s) := s.calc (.vector i) f false (if t.pair then x.closeCells t cells ls else pure ([], ls, 0))
    let s := (s.writeOuts f x.D more).cntCore i 51 n
    let s := s.modStep f false fun st => { st with leaves := ls }
    if t.zeroMasked then
      (((List.range t.vecCount).map (t.vecFirst + ·)).filter x.vmasked).foldl (fun s v =>
        (((List.range t.colCount).map (t.colFirst + ·)).filter fun c => !x.D.colMasked x.rd c).foldl (fun s c =>
          s.writeOut f x.D v c 0) s) s
    else s

/-- Masked vectors in a tile's run (R176). -/
def State.maskedIn (s : State) (t : Tile) : Nat :=
  match s.tileCtx t with
  | some (x, _) => if t.shape = .dw then 0 else (((List.range t.vecCount).map (t.vecFirst + ·)).filter x.vmasked).length
  | none => 0

/-! ## Placement -/

/-- A matrix engine that takes tiles. -/
def Core.mxeOk (c : Core) : Bool := c.mxe.state ≠ 6 && c.mxe.state ≠ 7 && !c.mxe.disabling && !c.mxe.enabling

/-- A sparse engine that takes tiles. -/
def Core.speOk (c : Core) : Bool := c.spe.state ≠ 2 && c.spe.state ≠ 3 && !c.spe.disabling && !c.spe.enabling

/-- Take tiles from a matrix engine's queue; a fill whose tile goes is void. -/
def Matrix.without (gone : Tile → Bool) (m : Matrix) : Matrix :=
  { m with
    filled := m.filled && (match m.queue.find? (·.load) with | some t => !gone t | none => true)
    queue := m.queue.filter fun t => !gone t }

/-- The same for a sparse engine. -/
def Sparse.without (gone : Tile → Bool) (e : Sparse) : Sparse :=
  { e with
    filled := e.filled && (match e.queue.head? with | some t => !gone t | none => true)
    queue := e.queue.filter fun t => !gone t }

/-- The sparse engine's accumulator banks (2 × 320 KiB) and operand stores (2 × 256 KiB) are carved from the Core Store while it holds
a tile, and returned when its queue is empty (R194). -/
def Core.carve (c : Core) : Core := { c with carved := if c.spe.queue.isEmpty && c.spe.cur.isNone then 0 else 2 * 320 + 2 * 256 }

/-- The enabled cores of a function with their presented widths, as placement uses them from a step boundary on (R19, R82). -/
def State.placeMap (s : State) (f : Nat) : List (Nat × Nat) :=
  ((s.upDies f).flatMap s.coresOf).map fun i => (i, (s.core i).pwidth)

/-- DIE_CAP.MIN_PWIDTH of a die as a map has it (R198). -/
def mapMin (m : List (Nat × Nat)) (d : Nat) : Nat :=
  ((m.filter fun x => coreDie x.1 = d).map (·.2)).foldl (fun a w => if a = 0 then w else min a w) 0

/-- The places of tiles that no core can take yet: those that wait on die `d` (R377), and those that any die may take. -/
def waitsOn (d : Nat) : Nat := 640 + d
def waitsAny : Nat := 644

/-- The cluster in whose local window an address lies (R82). -/
def State.localCluster (s : State) (f a : Nat) : Option (Nat × Nat) :=
  match s.target f a with
  | .dram d off => if off < s.ilvSize d then none else (s.vaultOf d off).map fun v => (d, v)
  | _ => none

/-- The cores among some that may run what reads at some addresses: those of the cluster of the first cluster-local region that has
one (R82). -/
def State.near (s : State) (f : Nat) (addrs cs : List Nat) : List Nat :=
  let per := (addrs.filterMap (s.localCluster f)).map fun (d, v) => cs.filter fun i => coreDie i = d && coreClu i = v
  (per.find? fun l => !l.isEmpty).getD cs

/-- The home of a unit: units go to the cores of the map in turn (log 33). -/
def State.homeOf (s : State) (f : Nat) (m : List (Nat × Nat)) : Home := fun addrs k =>
  let cs := s.near f addrs (m.map (·.1))
  match cs[k % cs.length]? with
  | some i => (i, (m.lookup i).getD 256, mapMin m (coreDie i))
  | none => (waitsAny, 256, 256)

/-- Whether a tile's columns fit a core's width (Table 7.8, step 7). -/
def State.fits (s : State) (i : Nat) (t : Tile) : Bool := t.sparse || t.colCount ≤ (s.core i).pwidth * (if t.pack then 2 else 1)

/-- Whether a core may take a tile now. -/
def State.takesTile (s : State) (i : Nat) (t : Tile) : Bool :=
  s.coreState i = 1 && s.up (coreDie i) && (if t.sparse then (s.core i).speOk else (s.core i).mxeOk)

/-- The dies on which the tiles of a place may be placed. -/
def State.placeDies (s : State) (f place : Nat) : List Nat :=
  if place < 640 then [coreDie place] else if place < waitsAny then [place - 640] else s.upDies f

/-- Put a placed tile in line behind the others of its core, with the die's next TILE_SEQ. -/
def Step.line (st : Step) (core : Nat) (t : Tile) : Step :=
  let d := if core < 640 then coreDie core else if core < waitsAny then core - 640 else 0
  let q := st.tileSeq.getD d 0
  { st with
    tileSeq := st.tileSeq.set d (q + 1)
    backlog := st.backlog ++ [(core, { t with seq := q })] }

/-- Whether two tiles stream against the same weights. -/
def Tile.sameWeights (a b : Tile) : Bool :=
  a.layer = b.layer && a.pass = b.pass && a.wg = b.wg && a.transpose = b.transpose && a.t = b.t && a.colFirst = b.colFirst &&
    a.colCount = b.colCount && a.sparse = b.sparse

/-- Whether two tiles enter the same leaf of some element (R188). -/
def Tile.sameLeaf (a b : Tile) : Bool :=
  a.pair && b.pair && a.func = b.func && a.layer = b.layer && a.pass = b.pass && a.wg = b.wg && a.leaf = b.leaf &&
    a.colFirst < b.colFirst + b.colCount && b.colFirst < a.colFirst + a.colCount

/-- A tile behind a tile of the other engine starts with a load (R202). -/
def loadFirst (ts : List Tile) : List Tile :=
  (ts.zip (false :: ts.map (·.sparse))).map fun (t, after) => if after && !t.sparse then { t with load := true } else t

/-- Move tiles that wait for a place in a queue of 16 into it (R192); the scheduler core of the die places them (Table 17.4). -/
def State.fillQueues (s : State) (f : Nat) : State :=
  match (s.func f).cur with
  | none => s
  | some st =>
    let (s, rest) := st.backlog.foldl (fun (s, rest) (i, t) =>
      let c := s.core i
      let q := if t.sparse then c.spe.queue else c.mxe.queue
      let waits := 640 ≤ i || 16 ≤ q.length || s.procStops (.scheduler (coreDie i)) || rest.any (fun (x : Nat × Tile) => x.1 = i && x.2.sparse = t.sparse) ||
        !s.fits i t || (if t.sparse then !c.speOk else !c.mxeOk)
      if waits then (s, rest ++ [(i, t)])
      else if t.sparse then
        (s.modCore i fun c => Core.carve { c with spe := { c.spe with queue := c.spe.queue ++ [t], state := max c.spe.state 1 } }, rest)
      else (s.modCore i fun c => { c with mxe := { c.mxe with queue := c.mxe.queue ++ [t] } }, rest))
      (s, ([] : List (Nat × Tile)))
    s.modStep f false fun st => { st with backlog := rest }

/-- Where a tile that leaves a place goes: a core of the place's dies that can take it now (R83, R181, R208). -/
def State.newHome (s : State) (f place : Nat) (t : Tile) : Option Nat :=
  let can := ((s.placeDies f place).flatMap s.coresOf).filter fun i => i ≠ place && s.takesTile i t
  let cs := s.near f [t.wgtAddr, t.actAddr] can
  cs[(t.colFirst / 64 + t.leaf) % cs.length]?

/-- A tile with its addresses, in the active plan of its function. -/
def State.aimed (s : State) (t : Tile) : Tile := match s.tileCtx t with | some (x, _) => x.aim t | none => t

/-- The parts of a tile that fit a core: chunks of a compressed layer stay whole segments (R187, R198). -/
def State.partsFor (s : State) (i : Nat) (compressed : Bool) (t : Tile) : List Tile :=
  if s.fits i t then [t]
  else
    let w := (s.core i).pwidth * (if t.pack then 2 else 1)
    (runsOf (max 1 (if compressed && t.shape = .fwd then w / 64 * 64 else w)) t.colCount).map fun (c, m) =>
      s.aimed { t with colFirst := t.colFirst + c, colCount := m }

/-- Place tiles anew (R83, R181, R208): those given, which have left the queues of a place, those in line for it that it cannot take,
and the tiles behind them of the same leaves, so that a leaf stays in ascending t. A tile starts with a load where the tile before it
on its new core held other weights. -/
def State.moveTiles (s : State) (f place : Nat) (ts : List Tile) : State :=
  match (s.func f).cur, (s.func f).activePlan with
  | some st, some (_, p) =>
    let bad := (st.backlog.filter fun x => x.1 = place && (640 ≤ place || !s.takesTile place x.2 || !s.fits place x.2)).map (·.2)
    let lead := ts ++ bad
    let mate (u : Tile) : Bool := lead.any fun t => t.sameLeaf u && t.t < u.t
    let c := s.core place
    let held := if place < 640 then (c.mxe.queue ++ c.spe.queue).filter mate else []
    let lined := (st.backlog.filter fun x => x.1 = place && mate x.2).map (·.2)
    let go := sortBy (fun (a b : Tile) => a.seq < b.seq) (lead ++ (held ++ lined).filter fun u => !lead.contains u)
    let s := if place < 640 then s.modCore place fun c => Core.carve { c with
        mxe := c.mxe.without held.contains
        spe := c.spe.without held.contains } else s
    let s := s.modStep f false fun st => { st with backlog := st.backlog.filter fun x => !(x.1 = place && go.contains x.2) }
    let wait := if place < 640 then waitsOn (coreDie place) else place
    let (s, _) := go.foldl (fun (s, (last : List (Nat × Tile))) t =>
      let home := s.newHome f place t
      let parts := match home with | some i => s.partsFor i ((p.desc t.layer).wlayout ≠ 0) t | none => [t]
      let core := home.getD wait
      parts.foldl (fun (s, (last : List (Nat × Tile))) u =>
        let same := match last.find? fun x => x.1 = core with | some x => x.2.sameWeights u | none => false
        let u := { u with load := !u.sparse && !same }
        (s.modStep f false fun st => st.line core u, (core, u) :: last)) (s, last)) (s, ([] : List (Nat × Tile)))
    s.fillQueues f
  | _, _ => s

/-- Deal the groups of a layer to their homes; what a home cannot take goes to another core of its die. -/
def State.deal (s : State) (f : Nat) (groups : List (Nat × List Tile)) : State :=
  let s := groups.foldl (fun s (core, ts) =>
    s.modStep f false fun st => (loadFirst ts).foldl (fun st t => st.line core t) st) s
  let homes := (groups.map (·.1)).eraseDups
  let s := homes.foldl (fun s i => if i < 640 then s.moveTiles f i [] else s) s
  s.fillQueues f

/-- Start the tiles of a layer for a pass (R187, R232, R244), placed by the map of the step boundary (R19, R82). -/
def State.issue (s : State) (f : Nat) (p : Plan) (n i pass : Nat) (shapes : List (Nat × Shape)) : State :=
  let x := s.ctx f p n i
  let m := match (s.func f).cur with | some st => st.map | none => []
  shapes.foldl (fun s (wg, sh) => s.deal f (x.cut f pass wg sh (s.homeOf f m) (n % 2 ^ 16))) s

/-- Whether tiles of a kind wait for a unit that die `d` may give. -/
def State.waitsFor (s : State) (f d : Nat) (sparse : Bool) : Bool :=
  match (s.func f).cur with
  | some st => st.backlog.any fun x => (x.1 = waitsOn d || x.1 = waitsAny) && x.2.sparse = sparse
  | none => false

/-- Place what waits without a core on a die (R377). -/
def State.placeWaiting (s : State) (f d : Nat) : State := (s.moveTiles f (waitsOn d) []).moveTiles f waitsAny []

/-- Whether any tile of some kind is still to commit. -/
def State.tileLeft (s : State) (f : Nat) (hit : Tile → Bool) : Bool :=
  (match (s.func f).cur with | some st => st.backlog.any fun x => hit x.2 | none => false) ||
    s.cores.any fun c => c.mxe.queue.any hit || c.mxe.cur.any hit || c.spe.queue.any hit || c.spe.cur.any hit

/-- Whether any tile of a layer's pass is still to commit. -/
def State.tilesLeft (s : State) (f layer pass : Nat) : Bool :=
  s.tileLeft f fun t => t.func = f && t.layer = layer && t.pass = pass

/-- Whether a tile's leaf still waits for an earlier tile (R187, R188). -/
def State.leafBehind (s : State) (t : Tile) : Bool :=
  t.pair && s.tileLeft t.func fun u => u.sameLeaf t && u.t < t.t && u.vecFirst < t.vecFirst + t.vecCount && t.vecFirst < u.vecFirst + u.vecCount

end Sys2Proof.Machine
end

