-- ==== Sys2Proof/Machine/Faults.lean ====
section
/-!
DEFINITION. Fault records, and the removal of a core or a cluster (R20, R22, R83, R342, R343, R350).
-/
namespace Sys2Proof.Machine

/-- The record and the notification of a scope removal (R343, R350, Table 21.3). -/
def State.removal (s : State) (d mech scope inst resp : Nat) : State :=
  let (s, q) := s.fault d mech scope inst resp
  s.emit d 4 inst q resp

/-! ## Skink slices dealt again (R97, R112, R113) -/

def Skink.takes (k : Skink) : Bool := !k.disabled && !k.disabling && !k.enabling && !k.failed

/-- The clusters whose Skinks take slices, in ascending (die, cluster). -/
def State.skinks (s : State) (f : Nat) : List (Nat × Nat) :=
  (s.upDies f).flatMap fun d => ((List.range 20).filter fun c => s.cluUp d c && (s.clu d c).skink.takes).map fun c => (d, c)

/-- Deal slices counted onward from cluster (d, c); with no Skink to take them they wait where they were. -/
def State.redeal (s : State) (f d c : Nat) (l : List (Nat × Nat × Nat)) : State :=
  let ks := s.skinks f
  let after := ks.filter fun x => d < x.1 || (x.1 = d && c < x.2)
  let order := after ++ ks.filter fun x => !after.contains x
  if order.isEmpty then s.modSkink d c fun k => { k with dealt := k.dealt ++ l }
  else l.zipIdx.foldl (fun s (x, i) =>
    match order[i % order.length]? with
    | some (e, k) => s.modSkink e k fun z => { z with dealt := z.dealt ++ [x] }
    | none => s) s

/-- Take every slice from a Skink and deal it again. -/
def State.dropSlices (s : State) (f d c : Nat) : State :=
  let l := (s.clu d c).skink.dealt
  (s.modSkink d c fun k => { k with dealt := [], retried := false, spilling := false }).redeal f d c l

/-! ## A core retired, a cluster disabled -/

/-- The tiles a core holds: the one in work, then those of its queues in TILE_SEQ order. -/
def Core.held (c : Core) : List Tile :=
  c.mxe.cur.toList ++ c.spe.cur.toList ++ sortBy (fun (a b : Tile) => a.seq < b.seq) (c.mxe.queue ++ c.spe.queue)

/-- Take all tiles from a core's engines. -/
def Core.emptied (c : Core) : Core :=
  { c with
    mxe := { c.mxe with queue := [], cur := none, loadWait := false, filled := false, runs := 0, selftest := false }
    spe := { c.spe with queue := [], cur := none, loadWait := false, filled := false, runs := 0 }
    carved := 0 }

/-- A core's tiles go to other cores of the die and re-run there (R83). -/
def State.evictTiles (s : State) (i : Nat) : State :=
  let f := s.fnOf (coreDie i)
  let ts := (s.core i).held
  let s := s.modCore i Core.emptied
  let lined := match (s.func f).cur with | some st => st.backlog.any fun x => x.1 = i | none => false
  if ts.isEmpty && !lined then s else (s.moveTiles f i ts).flagStep f flTileRerun

/-- Retire a core (R20, R83, R343). `escalated` says that the cause stands in Table 15.2. -/
def State.retireCore (s : State) (i mech : Nat) (escalated : Bool) : State :=
  let d := coreDie i
  let f := s.fnOf d
  if s.coreState i ≠ 1 then s
  else
    let s := s.modCore i fun c =>
      { c with
        state := 2
        mxe := { c.mxe with state := 7 }
        vec := { c.vec with state := 5 } }
    let s := (s.evictTiles i).flagStep f flCoreRetired
    let s := if (s.func f).cur.isSome then s.flagStep f flTileRerun else s
    let s := if escalated then s.cntDie d 70 else s
    (s.removal d mech 0 i 3).coreChanged i

/-- Disable a cluster (R22, R343). -/
def State.disableCluster (s : State) (d c mech : Nat) : State :=
  let f := s.fnOf d
  if !s.cluUp d c then s
  else
    let ids := (List.range 8).map (coreId d c)
    let s := s.modClu d c fun x => { x with enabled := false, skink := { x.skink with failed := true } }
    let s := ids.foldl (fun s i => s.evictTiles i) s
    let s := s.dropSlices f d c
    let s := s.cntDie d 70
    (s.removal d mech 1 c 4).cluChanged d c

/-- Bypass one physical column, or retire the core when its width would fall below 240 (R16, R20). -/
def State.bypass (s : State) (i col : Nat) : State :=
  let c := s.core i
  if s.coreState i ≠ 1 || c.bypassed.contains col || 264 ≤ col then s
  else if c.pwidth ≤ 240 then s.retireCore i 1 false
  else
    let s := s.modCore i fun c => { c with bypassed := sortBy (fun (a b : Nat) => a < b) (c.bypassed ++ [col]) }
    (s.cntCore i 16).coreChanged i

/-! ## Errors of the memories (R315, R343) -/

/-- An uncorrectable error of a kind and instance; whether it is the third within 24 hours (R343). -/
def State.thirdUe (s : State) (d kind inst : Nat) : Bool × State :=
  let now := (s.die d).clk
  let recent := (s.die d).ueTimes.filter fun x => x.1 = kind && x.2.1 = inst && (now + 2 ^ 64 - x.2.2) % 2 ^ 64 < day
  (2 ≤ recent.length, s.modDie d fun x =>
    { x with ueTimes := (x.ueTimes.filter fun y => !(y.1 = kind && y.2.1 = inst)) ++ recent ++ [(kind, inst, now)] })

/-- What the codes of the SRAM levels met in the run of a tile on core `i` (R315): corrected errors count MEM_CE, one that cannot be
corrected counts MEM_UE, and the third within 24 hours retires the core or disables the cluster (Table 15.2). -/
def State.sramMet (s : State) (i : Nat) (r : SramReport) : State :=
  let d := coreDie i
  let c := coreClu i
  let s := s.cntDie d 40 r.corrected
  let s := if !r.core then s
    else
      let (third, s) := (s.cntDie d 41).thirdUe d 1 i
      if third then s.retireCore i 3 true else s.note d 3 0 i 1
  if !r.cluster then s
  else
    let (third, s) := (s.cntDie d 41).thirdUe d 2 c
    if third then s.disableCluster d c 3 else s.note d 3 1 c 1

/-- Whether a run met data that could not be corrected, so that its tile runs again from its sources (Table 13.7). -/
def sramLost (r : SramReport) : Bool := r.core || r.cluster

/-- What the residue checks of the vector engines report, one after another: each names a core, and whether the re-execution mismatched
too (R230). A second mismatch in a Bellows combiner disables its cluster (Table 15.2). -/
def State.vecFail (s : State) (r : VecReport) : State :=
  r.fails.foldl (fun s (c, again) =>
    if s.coreState c ≠ 1 then s
    else if again then (s.cntCore c 56 2).retireCore c 2 true
    else (s.cntCore c 56).note (coreDie c) 2 0 c 1)
  (r.combiners.foldl (fun s (d, c, again) =>
    if !s.cluUp d c then s else if again then s.disableCluster d c 2 else s.note d 2 1 c 1) s)

end Sys2Proof.Machine
end

