-- ==== Sys2Proof/Machine/Matrix.lean ====
section
/-!
DEFINITION. The matrix engine (R165, R168, R176, R179, R181, R184 to R186, R191, R192, R348) and the sparse engine (R202 to R208)
as they run tiles.
-/
namespace Sys2Proof.Machine

def State.modMxe (s : State) (i : Nat) (h : Matrix → Matrix) : State := s.modCore i fun c => { c with mxe := h c.mxe }
/-- A change of a sparse engine, with what it carves from the Core Store (R194). -/
def State.modSpe (s : State) (i : Nat) (h : Sparse → Sparse) : State := s.modCore i fun c => Core.carve { c with spe := h c.spe }

/-- The descriptor of a tile, in the active plan of its function. -/
def State.descOf (s : State) (t : Tile) : Desc :=
  match (s.func t.func).activePlan with
  | some (_, p) => p.desc t.layer
  | none => []

/-! ## Order of the two queues (R202) -/

/-- The tile that a core runs next: the lowest TILE_SEQ of its queues, when no tile is in work. -/
def Core.nextTile (c : Core) : Option Tile :=
  if c.mxe.cur.isSome || c.spe.cur.isSome then none
  else match c.mxe.queue.head?, c.spe.queue.head? with
    | some a, some b => some (if a.seq < b.seq then a else b)
    | some a, none => some a
    | none, b => b

/-- The sparse engine starts its next tile when its turn has come and an operand-store half is filled for it; otherwise it waits for
the fill (R203, R205). Its cluster's start slot must have come (R334), and its leaf must have taken
the tiles before it (R187). -/
def State.sparseStart (s : State) (i : Nat) : State :=
  let c := s.core i
  match c.nextTile with
  | some t =>
    if !t.sparse || c.spe.drainHold || s.coreState i ≠ 1 || !c.speOk || s.early (coreDie i) (coreClu i) || s.leafBehind t then s
    else if c.spe.filled then
      s.modSpe i fun e =>
        { e with cur := some t, queue := e.queue.drop 1, half := 1 - e.half, filled := false, loadWait := false, state := 1 }
    else s.modSpe i fun e => { e with loadWait := true, state := 1 }
  | none => s

/-! ## Boundaries of DISABLE (R181, R207) -/

/-- A matrix engine that is being disabled and holds no work in progress reads disabled, and its queue goes back (R181). -/
def State.settleMxe (s : State) (i : Nat) : State :=
  let m := (s.core i).mxe
  if m.disabling && m.cur.isNone && !m.selftest && m.state ≠ 7 then
    let ts := m.queue
    let f := s.fnOf (coreDie i)
    let s := s.modMxe i fun m => { m with disabling := false, state := 6, queue := [], filled := false, drainHold := false, draining := false }
    (if ts.isEmpty then s else s.moveTiles f i ts)
  else s

/-- The same for a sparse engine (R207). -/
def State.settleSpe (s : State) (i : Nat) : State :=
  let e := (s.core i).spe
  if e.disabling && e.cur.isNone && e.state ≠ 3 then
    let ts := e.queue
    let f := s.fnOf (coreDie i)
    let s := s.modSpe i fun e =>
      { e with disabling := false, state := 2, queue := [], filled := false, loadWait := false, runs := 0, drainHold := false, draining := false }
    (if ts.isEmpty then s else s.moveTiles f i ts)
  else s

/-- After a tile: disabling engines reach their boundary, draining ones hold, queues fill, the sparse engine goes on. -/
def State.afterTile (s : State) (i : Nat) : State :=
  let hold (draining idle : Bool) : Bool := draining && idle
  let s := s.modMxe i fun m =>
    let h := hold m.draining (m.cur.isNone && !m.selftest)
    { m with drainHold := m.drainHold || h, draining := m.draining && !h }
  let s := s.modSpe i fun e =>
    let h := hold e.draining e.cur.isNone
    { e with drainHold := e.drainHold || h, draining := e.draining && !h }
  (((s.settleMxe i).settleSpe i).fillQueues (s.fnOf (coreDie i))).sparseStart i

/-- A tile of a leaf has committed: filled sparse tiles that waited for it on other cores start (R187). -/
def State.wakeSparse (s : State) (t : Tile) : State :=
  if !t.pair then s
  else ((s.cores.zipIdx.filter fun x => x.1.spe.filled && x.1.spe.cur.isNone).map (·.2)).foldl (fun s i => s.sparseStart i) s

/-! ## Starting a tile -/

/-- A load: the filled half enters the cells, the exponent registers and the checksum column, and the other half is free (R168). -/
def Matrix.loaded (m : Matrix) : Matrix :=
  { m with cells := m.halves.getD m.half Weights.none, half := 1 - m.half, filled := false, dirtyWeights := false }

/-- The weights last loaded are loaded again from their half (Table 7.8, step 3). -/
def Matrix.reloaded (m : Matrix) : Matrix := { m with cells := m.halves.getD (1 - m.half) Weights.none, dirtyWeights := false }

/-- R165, R168, R348: the next tile starts; a load waits for the stationary-load buffer. A tile with LOAD clear that finds a test's weights
in the array loads its own again, from the half they were loaded from. Before the cluster's start slot after a
barrier it does not start (R334), nor before the earlier tiles of its leaf have committed (R187). -/
def execTileStart (core : Nat) (s : State) : Done :=
  let c := s.core core
  match c.nextTile with
  | some t =>
    if t.sparse || c.mxe.drainHold || c.mxe.selftest || s.coreState core ≠ 1 || !c.mxeOk || s.early (coreDie core) (coreClu core) || s.leafBehind t then .next s
    else
      let again := !t.load && c.mxe.dirtyWeights
      let wait := t.load && !c.mxe.filled
      let s := s.modMxe core fun m =>
        { m with
          cur := some { t with load := t.load || again }, queue := m.queue.drop 1, runs := 0, loadWait := wait
          state := if t.load || again then 1 else 2 }
      .next (if again then (s.modMxe core Matrix.reloaded).cntCore core 5
        else if t.load && !wait then (s.modMxe core Matrix.loaded).cntCore core 5 else s)
  | none => .next s

/-- The tile whose weights the loader fills next: one that waits, or the first in the queue with a load. -/
def Matrix.toFill (m : Matrix) : Option Tile :=
  if m.loadWait then m.cur else m.queue.find? (·.load)

/-- The malformed rows that the fill of a tile meets first, and the malformed headers (R197). A row encoding is counted by the tile that
loads it, a header by the one that loads the first row and column of its compressed tile; later runs of the same weights count none. -/
def Ctx.badRows (x : Ctx) (t : Tile) : Nat :=
  if t.vecFirst ≠ 0 then 0
  else ((x.segments t).map fun (r, b, lo, hi) =>
    let d := x.D.decode x.rd r b lo hi
    let mine (k : Nat) : Bool := t.shape = .fwd || (t.colFirst ≤ 128 * r + k && 128 * r + k < t.colFirst + t.colCount)
    b2n (d.header && lo = 0 && mine 0) + (d.bad.filter mine).length).sum

/-- What a fill for a tile gives: the weights converted, with what the conversion counts the first time (R161, R168, R203). -/
def State.fillFor (s : State) (b : Block) (i : Nat) (t : Tile) : Weights × State :=
  match s.tileCtx t with
  | none => (Weights.none, s)
  | some (x, st) =>
    if t.counted then (quiet (x.fill st.bufs t), s)
    else
      let (w, s) := s.calc b t.func false (x.fill st.bufs t)
      let n := x.badRows t
      (w, (s.cntCore i 43 n).violDesc t.func n)

/-- The rest of a tile from vector `k` of its run on, with LOAD clear (R180). -/
def Tile.rest (t : Tile) (k : Nat) : Tile := { t with load := false, vecFirst := t.vecFirst + k, vecCount := t.vecCount - k }

/-- The same with its addresses (Table 7.11). -/
def State.restOf (s : State) (t : Tile) (k : Nat) : Tile := s.aimed (t.rest k)

/-- A drain request that met a load: the load completes, the tile is split before its first vector, and the engine holds (R180). -/
def State.holdLoaded (s : State) (i : Nat) (t : Tile) : State :=
  s.modMxe i fun m =>
    { m with cur := none, state := 0, loadWait := false, queue := s.restOf t 0 :: m.queue, drainHold := true, draining := false }

/-- R168: the fill is complete; a waiting load begins. -/
def execStationaryFillDone (core : Nat) (s : State) : Done :=
  let m := (s.core core).mxe
  match m.toFill with
  | some t =>
    if m.filled then .next s
    else
      let (w, s) := s.fillFor (.matrix core) core t
      let mark (u : Tile) : Tile := if u.seq = t.seq then { u with counted := true } else u
      let s := s.modMxe core fun m =>
        { m with halves := m.halves.set m.half w, filled := true, cur := m.cur.map mark, queue := m.queue.map mark }
      if m.loadWait then
        let s := (s.modMxe core fun m => { m.loaded with loadWait := false, state := 1 }).cntCore core 5
        .next (if m.draining then (s.holdLoaded core { t with counted := true }).afterTile core else s)
      else .next s
  | none => .next s

/-! ## Commit and checksum response -/

/-- Whether the tile is the last part of its compressed tile to run on the matrix engine. -/
def Desc.lastPart (D : Desc) (vectors : Nat) (t : Tile) : Bool :=
  let b := t.colFirst / (64 * D.spcols)
  t.colFirst + t.colCount = b * 64 * D.spcols + D.blockCols b && t.vecFirst + t.vecCount = vectors

/-- R201: the engine that ran a compressed tile compares the actual count with the choice, under the width that made it. -/
def State.mispick (s : State) (i : Nat) (t : Tile) : State :=
  match s.tileCtx t with
  | none => s
  | some (x, _) =>
    let D := x.D
    if D.wlayout = 0 || D.engine ≠ 0 || t.shape ≠ .fwd || t.pass ≠ 0 || !D.lastPart x.vectors t then s
    else
      let b := t.colFirst / (64 * D.spcols)
      match x.plan.choices.find? fun c => c.1 = x.index && c.2.1 = t.t * D.colBlocks + b with
      | none => s
      | some c =>
        let actual := (D.decode x.rd t.t b 0 16384).elems.length
        if D.wouldSparse c.2.2.2 (D.blockCols b) actual = t.sparse then s else (s.cntCore i 38).flagStep t.func flMispick

/-- VEC_RNGUSE counts a descriptor that has drawn once in a step, at the first core that drew for it (R227; the core is DEDUCED, log 33). -/
def State.countDraw (s : State) (f : Nat) (ahead : Bool) (i layer : Nat) : State :=
  match (s.func f).step? ahead with
  | some st => if st.drew.contains layer then s else (s.cntCore i 55).modStep f ahead fun st => { st with drew := layer :: st.drew }
  | none => s

/-- A tile that has drawn from the lane generators, for the vectors that it fed, marks its core and its step (R227). -/
def State.laneUse (s : State) (i : Nat) (t : Tile) : State :=
  match s.tileCtx t with
  | some (x, _) =>
    if !x.D.stoch || (x.fed t).isEmpty then s
    else ((s.modCore i fun c => { c with vec := { c.vec with used := true } }).countDraw t.func false i t.layer).flagStep t.func flLaneRng
  | none => s

/-- R179: the tile in work commits. -/
def State.mxeCommit (s : State) (i : Nat) (t : Tile) (us : List Upset) : State :=
  let masked := s.maskedIn t
  let s := s.commitTile i (.matrix i) t (s.core i).mxe.cells us
  let s := ((s.cntCore i 4).cntCore i 11 masked).mispick i t
  let s := s.laneUse i t
  let s := s.modMxe i fun m => { m with cur := none, state := 0, runs := 0, lastTile := some t }
  (s.afterTile i).wakeSparse t

/-- The tile runs again from its load (Table 7.8, steps 3, 7 and 8). -/
def State.rerun (s : State) (i : Nat) (t : Tile) (runs : Nat) : State :=
  let s := s.modMxe i fun m => { m.reloaded with runs := runs, state := 4, cur := some { t with load := true } }
  ((s.cntCore i 14).cntCore i 5).flagStep t.func flTileRerun

/-- The tile runs again from its sources (Table 13.7): its weights are filled and loaded anew. -/
def State.refillMxe (s : State) (i : Nat) (t : Tile) : State :=
  if s.coreState i ≠ 1 then s
  else
    let s := s.modMxe i fun m => { m with filled := false, loadWait := true, state := 1, cur := some { t with load := true } }
    (s.cntCore i 14).flagStep t.func flTileRerun

/-- The compares that fail with what the shadow stage reports: a vector for which it differs is treated as a checksum mismatch, of group 0
where no compare of the vector fails (R341; the group is DESIGN CHOICE, log 79). -/
def withShadow (bad : List (Nat × Nat)) (shadow : List Nat) : List (Nat × Nat) :=
  bad ++ ((shadow.eraseDups.filter fun v => !bad.any fun x => x.1 = v).map fun v => (v, 0))

/-- A failed compare (R185, R341): the vector and group pairs that fail, and the vectors for which the shadow stage differs. -/
def State.mismatch (s : State) (i : Nat) (t : Tile) (compares : List (Nat × Nat)) (shadow : List Nat) : State :=
  let bad := withShadow compares shadow
  let s := (s.cntCore i 13 bad.length).cntDie (coreDie i) 64 shadow.eraseDups.length
  let runs := (s.core i).mxe.runs
  let s := match bad.getLast? with
    | some (v, g) => s.modMxe i fun m =>
      { m with lastChk := { m.lastChk with group := g % 4, valid := true, vector := v % 2 ^ 13, layer := t.layer, seq := t.seq % 2 ^ 16, outcome := 0 } }
    | none => s
  if runs = 0 then (s.note (coreDie i) 1 0 i 1).rerun i t 1
  else if runs = 1 then
    ((s.note (coreDie i) 1 0 i 1).modMxe i fun m => { m with state := 5, selftest := true }).cntCore i 15
  else
    (s.modMxe i fun m => { m with lastChk := { m.lastChk with outcome := 4 } }).retireCore i 1 true

/-- The compares of a tile that fail, with what its engine holds (R184). -/
def State.tileMismatches (s : State) (i : Nat) (t : Tile) (us : List Upset) : List (Nat × Nat) :=
  match s.tileCtx t with
  | some (x, st) => x.mismatches st.bufs (s.core i).mxe.cells t us
  | none => []

/-- R179, R184, R185: the last drain is flushed, with what befell the run and what its monitors report. -/
def execTileCommit (core : Nat) (r : TileReport) (s : State) : Done :=
  let m := (s.core core).mxe
  match m.cur with
  | some t =>
    if m.loadWait || m.selftest || s.coreState core ≠ 1 then .next s
    else
      let s := s.exercised (coreDie core) [.array core, .drains core, .coreStore core, .clusterBuffer (coreDie core) (coreClu core)]
      let s := ((((s.cntCore core 6 r.loadWait).cntCore core 7 r.feedDry).cntCore core 8 r.drainBlk).cntCore core 9
        r.skewHold).cntCore core 10 r.throttle
      let s := s.sramMet core r.sram
      let bad := s.tileMismatches core t r.upsets
      if sramLost r.sram then .next (s.refillMxe core t)
      else if bad.isEmpty && r.shadow.isEmpty then
        let s := if m.runs = 1 then s.modMxe core fun m => { m with lastChk := { m.lastChk with outcome := 1 } } else s
        .next (s.mxeCommit core t r.upsets)
      else .next (s.mismatch core t bad r.shadow)
  | none => .next s

/-- The bypass decisions of a column self-test (Table 7.8, step 6), and what MXE_LASTCHK says of them. -/
def State.testDecisions (s : State) (i : Nat) (failing : List Nat) (mech : Nat := 1) : State :=
  let cols := sortBy (fun (a b : Nat) => a < b) (failing.filter fun p => p < 264 && !(s.core i).bypassed.contains p)
  let s := cols.foldl (fun s p => s.bypass i p) s
  let c := s.core i
  let done := cols.filter c.bypassed.contains
  let s := if done.isEmpty then s else s.note (coreDie i) mech 0 i 2
  s.modMxe i fun m =>
    { m with
      selftest := false
      cells := Weights.none
      dirtyWeights := true
      lastChk := { m.lastChk with
        bypCol := (done.getLast?).getD 0x1FF
        outcome := if c.state = 2 then 4 else if cols.isEmpty then 3 else 2 } }

/-- R185, R186: a column self-test ends; the tile that caused it runs a third time or moves, and so do the tiles that no longer fit. -/
def execColumnSelftestDone (core : Nat) (failing : List Nat) (s : State) : Done :=
  if !(s.core core).mxe.selftest then .next s
  else
    let s := s.testDecisions core failing
    if (s.core core).state ≠ 1 then .next s
    else
      let f := s.fnOf (coreDie core)
      let wide := (s.core core).mxe.queue.filter fun t => !s.fits core t
      let s := s.modMxe core (Matrix.without wide.contains)
      match (s.core core).mxe.cur with
      | some t =>
        if s.fits core t then .next ((s.rerun core t 2).moveTiles f core wide)
        else
          let s := s.modMxe core fun m => { m with cur := none, state := 0, runs := 0 }
          .next (((s.moveTiles f core (t :: wide)).flagStep f flTileRerun).afterTile core)
      | none =>
        .next (((s.modMxe core fun m => { m with state := if m.state = 6 then 6 else 0 }).moveTiles f core wide).afterTile core)

/-- The column self-test begins (Table 7.8, step 5). -/
def State.startSelftest (s : State) (i : Nat) : State :=
  (s.modMxe i fun m => { m with selftest := true }).cntCore i 15

/-- Whether faults that a null pass meets show in its compares (R184, R349): in some vector and group the faults of the columns do not
add up to that of the checksum column modulo 2^16. The test digits and the weights alone always compare equal. -/
def upsetsShow (us : List Upset) : Bool :=
  ((us.map fun u => (u.vector, u.group)).eraseDups).any fun (m, g) =>
    let mine := us.filter fun u => u.vector = m && u.group = g
    (((mine.filter (·.column.isSome)).map (·.amount)).sum - ((mine.filter (·.column.isNone)).map (·.amount)).sum) % 2 ^ 16 ≠ 0

/-- A null pass of an idle matrix engine with the faults that it met: a mismatch counts as a failed background test of the array and
starts the column self-test (R349). -/
def State.nullPass (s : State) (i : Nat) (us : List Upset) : State :=
  let m := (s.core i).mxe
  if s.coreState i ≠ 1 || m.cur.isSome || m.selftest || !upsetsShow us then s
  else (((s.cntDie (coreDie i) 69).note (coreDie i) 13 0 i 1).modMxe i fun m => { m with state := if m.state = 6 then 6 else 5 }).startSelftest i

/-- R185: MXE_CTL.SELFTEST on a disabled engine runs the column self-test. -/
def execMxeSelftest (core : Nat) (s : State) : Done :=
  let m := (s.core core).mxe
  if s.coreState core = 1 && m.state = 6 && !m.selftest then .next (s.startSelftest core) else .next s

/-! ## The sparse engine -/

/-- A tile whose re-run waits for its fill (R208). -/
def Sparse.rerunning (e : Sparse) : Bool := e.loadWait && e.cur.isSome

/-- The tile whose segments the loader fills next: one whose re-run waits for them, or the first of the queue (R205, R208). -/
def Sparse.toFill (e : Sparse) : Option Tile := if e.rerunning then e.cur else e.queue.head?

/-- R205, R208: the fill is complete; a tile that waited starts, or runs again. -/
def execOperandStoreFillDone (core : Nat) (s : State) : Done :=
  let e := (s.core core).spe
  match e.toFill with
  | some t =>
    if e.filled then .next s
    else
      let (w, s) := s.fillFor (.sparse core) core t
      let mark (u : Tile) : Tile := if u.seq = t.seq then { u with counted := true } else u
      if e.rerunning then
        .next (s.modSpe core fun e => { e with halves := e.halves.set e.half w, half := 1 - e.half, loadWait := false, cur := e.cur.map mark })
      else
        .next ((s.modSpe core fun e => { e with halves := e.halves.set e.half w, filled := true, queue := e.queue.map mark }).sparseStart core)
  | none => .next s

/-- What one pass of a sparse tile issues, in one vector: its products, the pieces beyond the first of its rows, and its idle lane
cycles (R203 to R206). `es` are its stored values, `cols` its columns. -/
def passCosts (layout heavy width : Nat) (rows : Nat) (es : List Stored) (cols : Nat) : Nat × Nat × Nat :=
  let counts := (List.range rows).map fun r => (es.filter fun e => e.row = r).length
  let items := workItems heavy counts
  (counts.sum, items.length - (counts.filter (0 < ·)).length, (sparseCycles layout (cols * width) (dealLanes items)).2)

/-- The costs of a run of a sparse tile: products, pieces beyond the first, passes beyond the first, idle lane cycles (R203 to R206). -/
def State.sparseCosts (s : State) (i : Nat) (t : Tile) : Nat × Nat × Nat × Nat :=
  match s.tileCtx t with
  | none => (0, 0, 0, 0)
  | some (x, _) =>
    let D := x.D
    let b := t.colFirst / (64 * D.spcols)
    let es := (D.decode x.rd t.t b 0 16384).elems
    let w := if t.pair then 8 else (Fmt.ofCode t.outFmt).bytes
    let M := (x.fed t).length
    let ps := passesOf (D.segBytes x.rd t.t b)
    let costs := ps.map fun (s0, n) =>
      let lo := 64 * s0
      let hi := min t.colCount (64 * (s0 + n))
      passCosts D.wlayout (heavyEff (s.core i).spe.heavy) w t.rowValid (es.filter fun e => lo ≤ e.col && e.col < hi) (hi - lo)
    (M * (costs.map (·.1)).sum, (costs.map (·.2.1)).sum, ps.length - 1, M * (costs.map (·.2.2)).sum)

/-- What a run of a sparse tile counts, whether it commits or not (R209). -/
def State.sparseRun (s : State) (i : Nat) (t : Tile) : State :=
  let (prod, split, passes, idle) := s.sparseCosts i t
  (((s.cntCore i 37 prod).cntCore i 39 split).cntCore i 40 passes).cntCore i 42 idle

/-- R203: a sparse tile commits. -/
def State.speCommit (s : State) (i : Nat) (t : Tile) : State :=
  let e := (s.core i).spe
  let s := (s.commitTile i (.sparse i) t (e.halves.getD (1 - e.half) Weights.none) []).cntCore i 36
  let s := (s.mispick i t).laneUse i t
  let s := s.modSpe i fun e => { e with cur := none, runs := 0, lastTile := some t, state := if e.queue.isEmpty then 0 else 1 }
  (s.afterTile i).wakeSparse t

/-- A sparse tile runs again from its fill, and stays the tile in progress (R207, R208, Table 13.7). -/
def State.refillSpe (s : State) (i : Nat) (t : Tile) (runs : Nat) : State :=
  if s.coreState i ≠ 1 then s
  else
    let s := s.modSpe i fun e => { e with cur := some t, half := 1 - e.half, filled := false, loadWait := true, runs := runs }
    (s.cntCore i 45).flagStep t.func flTileRerun

/-- R203, R208, R341: a sparse tile has streamed all its vectors, with what its residues and its shadow stage report; either counts as one
mismatch of R208, recorded with the code of its mechanism (Table 15.1). After a mismatch the tile runs again from its fill; after a second the engine is failed and its tiles move. -/
def execSparseTileCommit (core : Nat) (r : SparseReport) (s : State) : Done :=
  let e := (s.core core).spe
  match e.cur with
  | some t =>
    if s.coreState core ≠ 1 || e.loadWait then .next s
    else
      let s := s.exercised (coreDie core) [.sparse core, .coreStore core, .clusterBuffer (coreDie core) (coreClu core)]
      let s := ((s.cntCore core 41 r.loadWait).sparseRun core t).sramMet core r.sram
      if sramLost r.sram then .next (s.refillSpe core t e.runs)
      else if !r.residue && r.shadow.isEmpty then .next (s.speCommit core t)
      else
        let s := (s.cntCore core 44).cntDie (coreDie core) 64 r.shadow.eraseDups.length
        let mech := if r.residue then 2 else 1
        if e.runs = 0 then .next ((s.refillSpe core t 1).note (coreDie core) mech 0 core 1)
        else
          let ts := t :: e.queue
          let s := s.modSpe core fun e => { e with state := 3, cur := none, queue := [], filled := false, runs := 0, draining := false, disabling := false }
          let s := s.note (coreDie core) mech 0 core 1
          .next (((s.moveTiles t.func core ts).flagStep t.func flTileRerun).afterTile core)
  | none => .next s

end Sys2Proof.Machine
end

