-- ==== Sys2Proof/Machine/Vector.lean ====
section
/-!
DEFINITION. The vector engine (chapter 9): function tables and their evaluation, and the forward work of every vector kind
(R211 to R231).
-/
namespace Sys2Proof.Machine

/-! ## Function tables (R219 to R224) -/

/-- A function table as an engine holds it: the coefficient of a sub-table (0 VAL, 1 D1, 2 D2) and segment. -/
structure FTable where
  n : Nat
  hexp : Int
  lo : F32
  present : Nat
  asym : Nat → F32
  coeff : Nat → Nat → Nat → F32

/-- Bytes of an image with `N` segments and the sub-tables that PRESENT names (R219). -/
def ftBytes (nLog2 present : Nat) : Nat := 64 + ((bitsOf 3 present).length * 2 ^ nLog2) * 16

/-- Whether a header follows Table 9.5. -/
def ftHeaderOk (b : List Byte) : Bool :=
  let h := sext 8 (at' b 2 1)
  64 ≤ b.length && at' b 0 1 = 1 && 6 ≤ at' b 1 1 && at' b 1 1 ≤ 12 && -16 ≤ h && h ≤ 8 && isFin32 (mk32 (at' b 4 4))

/-- A table from its image. -/
def ftOf (b : List Byte) : FTable :=
  let n := 2 ^ at' b 1 1
  let pr := fld (at' b 3 1) 0 3
  let pos (sub : Nat) : Nat := ((bitsOf 3 pr).filter (· < sub)).length
  { n := n, hexp := sext 8 (at' b 2 1), lo := mk32 (at' b 4 4), present := pr
    asym := fun i => mk32 (at' b (8 + 4 * i) 4)
    coeff := fun sub seg k => mk32 (at' b (64 + (pos sub * n + seg) * 16 + 4 * k) 4) }

/-- The asymptotes of Table 9.6: left A, left B, right A, right B. -/
def builtinAsym : Nat → List Nat
  | 1 | 2 | 3 | 6 => [0, 0, 0x3F800000, 0]
  | 4 => [0, 0xBF800000, 0, 0x3F800000]
  | 5 => [0, 0, 0, 0x3F800000]
  | 7 => [0, 0xBF317218, 0x3F800000, 0xBF317218]
  | 8 => [0, 0x3F800000, 0, 0]
  | _ => [0, 0, 0, 0]

/-- LO and HEXP of Table 9.6. -/
def builtinDomain : Nat → Nat × Int
  | 1 => (0xBF800000, -1)
  | 3 | 4 => (0xC1800000, -7)
  | 8 => (0, -12)
  | _ => (0xC2000000, -6)

/-- A segment of the built-in ReLU: 0 below the point 0, x above it. -/
def reluCoeff (sub seg k : Nat) : F32 :=
  if seg < 2 then zero32
  else match sub, k with
    | 0, 0 => quiet (fscale (ofInt32 ((seg : Int) - 2)) (-1))
    | 0, 1 => mk32 0x3F000000
    | 1, 0 => one32
    | _, _ => zero32

/-- The built-in tables (R223): the spec lists the coefficients of ReLU by its function, those of 2 to 8 not at all (log 6). -/
def builtinTable (slot : Nat) : FTable :=
  let a (i : Nat) : F32 := mk32 ((builtinAsym slot).getD i 0)
  let (lo, h) := builtinDomain slot
  { n := if slot = 1 then 64 else 4096, hexp := h, lo := mk32 lo, present := 7
    asym := fun i => match i with
      | 0 | 1 | 2 | 3 => a i
      | 5 => a 0
      | 7 => a 2
      | _ => zero32
    coeff := fun sub seg k => if slot = 1 then reluCoeff sub seg k else Config.builtinCoeff slot sub seg k }

/-- The table in a slot, if there is one. -/
def Func.ftable (g : Func) (slot : Nat) : Option FTable :=
  if 1 ≤ slot && slot ≤ 8 then some (builtinTable slot) else (SMap.find slot g.ftables).map ftOf

/-- Exact dyadic arithmetic: i × 2^e. -/
abbrev Dy := Int × Int
def Dy.mul (a b : Dy) : Dy := (a.1 * b.1, a.2 + b.2)
def Dy.add (a b : Dy) : Dy := addExact a.1 a.2 b.1 b.2
def dyOf (x : F32) : Dy := match f32 x with | .fin n m e => (sgnd n m, e) | _ => (0, 0)

/-- floor of a dyadic value. -/
def Dy.floor (a : Dy) : Int := if 0 ≤ a.2 then a.1 * 2 ^ a.2.toNat else Int.fdiv a.1 (2 ^ (-a.2).toNat)

/-- The cubic of a segment, exact before its one rounding; a non-finite coefficient goes through Table 2.7. -/
def cubic (c : Nat → F32) (u : Dy) : N F32 := do
  if isFin32 (c 0) && isFin32 (c 1) && isFin32 (c 2) && isFin32 (c 3) then
    let r := Dy.add (dyOf (c 0)) (Dy.mul u (Dy.add (dyOf (c 1)) (Dy.mul u (Dy.add (dyOf (c 2)) (Dy.mul u (dyOf (c 3)))))))
    rnd32 false r.1 r.2
  else
    let x := mk32 (Fmt.fp32.roundInt false u.1 u.2 1).1
    ffma x (← ffma x (← ffma x (c 3) (c 2)) (c 1)) (c 0)

/-- Evaluate sub-table `sub` at x (R220, R221). -/
def FTable.eval (t : FTable) (sub : Nat) (x : F32) : N F32 := do
  match f32 x with
  | .nan => retNan
  | .inf n =>
    countDomain
    let A := t.asym (4 * sub + (if n then 0 else 2))
    let B := t.asym (4 * sub + (if n then 1 else 3))
    if abs32 A = 0 then return B else ffma A x B
  | .fin n m e =>
    let q := Dy.add (sgnd n m, e) ((dyOf t.lo).1 * (-1), (dyOf t.lo).2)
    let q : Dy := (q.1, q.2 - t.hexp)
    let k := q.floor
    if k < 0 then do countDomain; ffma (t.asym (4 * sub)) x (t.asym (4 * sub + 1))
    else if (t.n : Int) ≤ k then do countDomain; ffma (t.asym (4 * sub + 2)) x (t.asym (4 * sub + 3))
    else cubic (t.coeff sub k.toNat) (Dy.add q (-k, 0))

/-! ## Element operations (Table 9.3) -/

def elementOp (op : Nat) (imm : F32) (a b : F32) : N F32 :=
  match op with
  | 0 => fadd a b
  | 1 => fsub a b
  | 2 => fmul a b
  | 3 => ffma a imm b
  | 4 => fdiv a b
  | 5 => fsqrt a
  | 6 => frsqrt a
  | 7 => fmax a b
  | 8 => fmin a b
  | 9 => funary abs32 a
  | 10 => funary neg32 a
  | 11 => fscale a (sext 32 imm.toNat)
  | 12 => fclamp a imm
  | 14 => fmul a imm
  | _ => funary id a

/-- A pair's sum over `n`, rounded once (R214). -/
def pairMean (F : Fmt) (p : Pair) (n : Nat) : N Nat := pairRoundScaled F p 0 n

/-- mu and r of a vector (R215); each is one result element. -/
def normStats (op : Nat) (eps : F32) (xs : List F32) : N (F32 × F32) := do
  let n := xs.length
  let mu ← if op = 0 then once do return mk32 (← pairMean Fmt.fp32 (← treeSum (xs.map fun x => (x, zero32))) n) else pure zero32
  let r ← once do
    let ds ← if op = 0 then xs.mapM fun x => fsub x mu else pure xs
    let v := mk32 (← pairMean Fmt.fp32 (← treeSum (← ds.mapM squarePair)) n)
    frsqrt (← fadd v eps)
  return (mu, r)

/-- Element y of R215. -/
def normElem (op : Nat) (mu r x g b : F32) : N F32 := do
  let d ← if op = 0 then fsub x mu else pure x
  ffma (← fmul d r) g b

/-- Gains and offsets of a NORM descriptor, BF16 (R215). -/
def Ctx.gains (x : Ctx) : List F32 × List F32 :=
  let g := elemsAt x.rd 1 x.D.wgtAddr x.D.cols
  (g, if x.D.op 64 1 = 0 then elemsAt x.rd 1 (x.D.wgtAddr + 2 * x.D.cols) x.D.cols else g.map fun _ => zero32)

/-- The elements of operand A of a vector. -/
def Ctx.rowA (x : Ctx) (back : Bool) (v : Nat) : List F32 := (List.range x.D.cols).map (x.a back v)

/-! ## Aggregation (R217) -/

/-- The edges that an AGGREGATE combines into an entry, ascending. -/
def Ctx.inEdges (x : Ctx) (e : Nat) : List Nat :=
  (x.edges.zipIdx.filter fun (r, _) => r.dst = e && hopSel x.D.hopsel r.hop).map (·.2)

def noWinner : Nat := 0xFFFFFFFFFFFF

/-- The maximum of an element over the edges of an entry: the pattern in IN_FMT and the winning edge (R61, R217). -/
def Ctx.maxIn (x : Ctx) (es : List Nat) (c : Nat) : Option (Nat × Nat) :=
  let I := Fmt.ofCode x.D.inFmt
  maxWinner I (8 * I.bytes) (es.map fun k => (leNat (x.rd (x.inAt false k c) I.bytes), k))

/-- The winner of an element of an entry; an entry with no edges has none (R217). -/
def Ctx.winnerIn (x : Ctx) (es : List Nat) (c : Nat) : Nat := match x.maxIn es c with | some (_, w) => w | none => noWinner

/-- One element of an entry in a format (R217): the one rounding of its sum or mean, or its maximum. -/
def Ctx.aggElem (x : Ctx) (O : Fmt) (es : List Nat) (c : Nat) : N Nat := do
  let I := Fmt.ofCode x.D.inFmt
  if es.isEmpty then return 0
  else if x.D.op 64 1 = 3 then
    match x.maxIn es c with
    | some (v, _) =>
      if I.decode v == .nan then countNf
      cvt I O v
    | none => return 0
  else
    let p ← chain (es.map fun k => (x.a false k c, zero32))
    pairMean O p (if x.D.op 64 1 = 2 then es.length else 1)

/-! ## Losses (R218, Table 9.4) -/

def half32 : F32 := mk32 0x3F000000

/-- Whether |d| ≤ δ. With a NaN it is not, so Table 9.4's other branch takes it. -/
def inDelta (d δ : F32) : Bool := !isNan32 d && !isNan32 δ && !less32 δ (abs32 d)

/-- l and s of an element. -/
def lossElem (op : Nat) (imm : F32) (t : Option FTable) (d : F32) : N (F32 × F32) := do
  let δ := abs32 imm
  match op, t with
  | 0, _ => return (← fmul d d, ← fscale d 1)
  | 1, _ =>
    if inDelta d δ then return (← fmul (← fmul half32 d) d, d)
    else
      return (← fmul δ (← fsub (abs32 d) (← fmul half32 δ)), if bit d.toNat 31 then neg32 δ else δ)
  | _, some t => return (← t.eval 0 d, ← t.eval 1 d)
  | _, none => return (zero32, zero32)

def Desc.weight (D : Desc) : F32 := mk32 (D.op 108 4)
def Desc.predScale (D : Desc) : F32 := mk32 (D.op 112 4)

/-! ## Shares -/

/-- A vector engine that takes shares of descriptors (R229, R377). -/
def Vector.takes (v : Vector) : Bool := v.state ≠ 4 && v.state ≠ 5 && !v.disabling && !v.enabling

/-- The cores of a map, that of the step boundary, whose vector engines take shares now (R19, R82, R377). -/
def State.vecCores (s : State) (m : List (Nat × Nat)) : List Nat :=
  (m.map (·.1)).filter fun i => s.coreState i = 1 && s.up (coreDie i) && (s.core i).vec.takes

/-- No die whose enabled cores the map holds is without a vector engine; on one that is, the work waits (R377). -/
def State.vecReady (s : State) (m : List (Nat × Nat)) : Bool :=
  m.all fun x => s.coreState x.1 ≠ 1 || !s.up (coreDie x.1) || (s.vecCores m).any fun i => coreDie i = coreDie x.1

/-- The core to which the share of core `i` goes: itself while it is in service, an engine that is being disabled among them (R229);
else the next of those that work on the descriptor on its die, or another of that die (R83). -/
def State.shareHome (s : State) (started : List Nat) (i : Nat) : Option Nat :=
  let live (j : Nat) : Bool := s.coreState j = 1 && s.up (coreDie j) && (s.core j).vec.state < 4
  let mates := started.filter fun j => live j && coreDie j = coreDie i
  let others := (s.coresOf (coreDie i)).filter fun j => (s.core j).vec.takes
  if live i then some i else (mates.filter (i < ·) ++ mates ++ others).head?

/-- The cores that finish a descriptor, one for each share that was dealt when it started; none while a share finds none on its die. -/
def State.shareCores (s : State) (started : List Nat) : List Nat :=
  let cs := started.map (s.shareHome started)
  if cs.all (·.isSome) then cs.filterMap id else []

/-- Vectors dealt to cores in contiguous shares: core, first vector, count (log 33). -/
def shares (cs : List Nat) (V : Nat) : List (Nat × Nat × Nat) :=
  let n := min cs.length V
  ((cs.take n).zipIdx.map fun (c, k) => (c, k * V / n, (k + 1) * V / n - k * V / n))

/-- Compute something for each vector on the core whose share holds it; `elems` says how many elements an outcome writes. -/
def State.onShares {α : Type} (s : State) (f : Nat) (ahead : Bool) (cs : List Nat) (V : Nat) (elems : α → Nat) (m : Nat → N α) :
    List α × State :=
  (shares cs V).foldl (fun (acc, s) (c, v0, n) =>
    let (r, s) := s.calc (.vector c) f ahead (((List.range n).map (v0 + ·)).mapM m)
    (acc ++ r, s.cntCore c 51 (r.map elems).sum)) (([] : List α), s)

def State.modVec (s : State) (i : Nat) (h : Vector → Vector) : State := s.modCore i fun c => { c with vec := h c.vec }

/-- R225: an engine loads a table that it does not hold. -/
def State.ftHold (s : State) (f i slot : Nat) : State :=
  let v := (s.core i).vec
  if v.ftHeld && v.ftSlot = slot then s
  else
    let pr := match (s.func f).ftable slot with | some t => t.present | none => 0
    (s.modVec i fun v => { v with ftHeld := true, ftSlot := slot, ftPresent := pr, ftLoads := (v.ftLoads + 1) % 2 ^ 16 }).cntCore i 52

/-- Whether a descriptor evaluates a function table: FUNCTION, and LOSS TABLE. -/
def Desc.usesTable (D : Desc) : Bool := D.opkind = 0x31 || (D.opkind = 0x40 && D.op 64 1 = 2)

/-- The engines that share a descriptor load its table before their first evaluation (R225). -/
def State.loadTables (s : State) (f : Nat) (x : Ctx) (cs : List Nat) : State :=
  if x.D.usesTable then (shares cs x.vectors).foldl (fun s (c, _, _) => s.ftHold f c x.D.ftable) s else s

/-- A replaced table is no longer held (R224, R225): the engines that held the slot's old table load the new one when they need it. -/
def State.ftReplaced (s : State) (f slot : Nat) : State :=
  ((s.diesOf f).flatMap fun d => (List.range 160).map (d * 160 + ·)).foldl (fun s i =>
    s.modVec i fun v => { v with ftHeld := v.ftHeld && v.ftSlot ≠ slot }) s

/-- Apply dropout to an FP32 result (R228): the kept value and whether it was kept. -/
def dropElem (D : Desc) (y : F32) : N (F32 × Bool) := do
  if !D.dropout then return (y, true)
  let r := (Config.laneDraw (← nextFresh)).toNat
  if r < D.dropKeep then return (← fmul y D.dropScale, true)
  else
    modify fun t => { t with dropped := t.dropped + 1 }
    return (zero32, false)

/-- Set or clear a bit in memory. -/
def State.writeBit (s : State) (f a i : Nat) (b : Bool) : State :=
  let old := leNat (s.devRead f (a + i / 8) 1)
  let m := 2 ^ (i % 8)
  let v := if b then (if bit old (i % 8) then old else old + m) else (if bit old (i % 8) then old - m else old)
  s.devWrite f (a + i / 8) (leBytes 1 v)

/-- What a vector descriptor gives for one vector: its elements in OUT_FMT, each with its mask bit, mu and r of NORM, the winners of
AGGREGATE. -/
structure VecOut where
  elems : List (Nat × Bool)
  stats : Option (F32 × F32)
  winners : List Nat

/-- One element of an output from its FP32 result: dropout, then the conversion into OUT_FMT (R211, R228). -/
def Desc.finish (D : Desc) (m : N F32) : N (Nat × Bool) := once do
  let (y, kept) ← dropElem D (← m)
  return (← narrow (Fmt.ofCode D.outFmt) y, kept)

/-- The forward work of a vector kind on vector `v`, LOSS apart (R212, R215 to R217, R222). Each element is one result. An element of
AGGREGATE is rounded once, into OUT_FMT; under DROPOUT it is rounded to FP32 before the mask is applied. -/
def Ctx.forward (x : Ctx) (t : Option FTable) (v : Nat) : N VecOut := do
  let D := x.D
  let cs := List.range D.cols
  let plain (h : Nat → N F32) : N VecOut := do return ⟨← cs.mapM fun c => D.finish (h c), none, []⟩
  match D.opkind with
  | 0x22 =>
    let es := x.inEdges v
    let ys ← cs.mapM fun c =>
      if D.dropout then D.finish (do return mk32 (← x.aggElem Fmt.fp32 es c))
      else once do return (← x.aggElem (Fmt.ofCode D.outFmt) es c, true)
    return ⟨ys, none, if D.op 64 1 = 3 then cs.map (x.winnerIn es) else []⟩
  | 0x30 => plain fun c => elementOp (D.op 64 1) D.imm (x.a false v c) (if D.usesB then x.b false v c else zero32)
  | 0x31 => plain fun c => match t with | some t => t.eval 0 (x.a false v c) | none => pure zero32
  | 0x32 =>
    let (g, b) := x.gains
    let (mu, r) ← normStats (D.op 64 1) D.imm (x.rowA false v)
    let o ← plain fun c => normElem (D.op 64 1) mu r (x.a false v c) (g.getD c zero32) (b.getD c zero32)
    return { o with stats := some (mu, r) }
  | 0x33 =>
    plain fun c => if D.op 64 1 = 0 then fadd (x.b false v c) (x.a false v c) else ffma (x.a false v c) D.imm (x.b false v c)
  | _ => return ⟨[], none, []⟩

/-- Write what a vector of a descriptor gives. -/
def State.writeVector (s : State) (f : Nat) (x : Ctx) (v : Nat) (o : VecOut) : State :=
  let D := x.D
  let s := o.elems.zipIdx.foldl (fun s ((b, kept), c) =>
    let s := s.writeOut f D v c b
    if D.dropout then s.writeBit f D.dmask (v * D.cols + c) kept else s) s
  let sv := x.plan.saveAt x.index
  let s := match o.stats with
    | some (mu, r) =>
      if x.saves then
        let (m, n, w) := x.saveInA
        s.devWrite f (sv + m * n * w + 8 * v) (leBytes 4 mu.toNat ++ leBytes 4 r.toNat)
      else s
    | none => s
  let s := if x.saves && !o.winners.isEmpty then s.devWrite f (sv + v * D.cols * 8) (o.winners.flatMap (leBytes 8)) else s
  if D.opkind = 0x22 && D.op 112 8 ≠ 0 then s.devWrite f (D.op 112 8 + 4 * v) (leBytes 4 (x.inEdges v).length) else s

/-- A descriptor has drawn from the lane generators of some cores: they are marked, its step is flagged, and VEC_RNGUSE rises (R227). -/
def State.drawn (s : State) (f : Nat) (ahead : Bool) (layer : Nat) (cs : List Nat) : State :=
  match cs with
  | [] => s
  | c :: _ =>
    let s := cs.foldl (fun s c => s.modVec c fun v => { v with used := true }) s
    (s.countDraw f ahead c layer).modStep f ahead (·.flag flLaneRng)

/-- Run a vector descriptor, LOSS apart, on its cores. -/
def State.runVectors (s : State) (f : Nat) (ahead : Bool) (x : Ctx) (cs : List Nat) : State :=
  let s := s.loadTables f x cs
  let t := (s.func f).ftable x.D.ftable
  let (rs, s) := s.onShares f ahead cs x.vectors (fun o => o.elems.length) (x.forward t)
  let s := rs.zipIdx.foldl (fun s (o, v) => s.writeVector f x v o) s
  if x.D.dropout then s.drawn f ahead x.index ((shares cs x.vectors).map (·.1)) else s

/-- Run a LOSS: seeds at OUT_ADDR in FP32, and the loss scalar of the step (R87, R218). `pred` gives the predictions. -/
def State.runLoss (s : State) (f : Nat) (x : Ctx) (cs : List Nat) (pred : Nat → Nat → N F32) : State :=
  let D := x.D
  let s := s.loadTables f x cs
  let t := (s.func f).ftable D.ftable
  let (rows, s) := s.onShares f false cs x.vectors List.length (fun v => (List.range D.cols).mapM fun c => once do
    let d ← fsub (← pred v c) (x.b false v c)
    let (l, sd) ← lossElem (D.op 64 1) D.imm t d
    return (l, ← fmul D.weight sd))
  let (scalar, s) := s.calc (.vector (cs.headD 0)) f false (once do
    let L ← reduceSplit (max 1 D.split) (rows.flatten.map fun r => (r.1, zero32))
    fmul D.weight (← pairRound32 L))
  let s := rows.zipIdx.foldl (fun s (r, v) =>
    s.devWrite f (D.outAddr + v * D.outStride) (r.flatMap fun y => leBytes 4 y.2.toNat)) s
  s.modStep f false fun st => { st with loss := sortBy (fun (a b : Nat × F32) => a.1 < b.1) ((x.index, scalar) :: st.loss.filter fun l => l.1 ≠ x.index) }

/-! ## Saved inputs (R237) -/

/-- Copy the input of a descriptor to its save area, when it starts. -/
def State.saveInput (s : State) (f : Nat) (x : Ctx) : State :=
  let D := x.D
  let (m, n, w) := x.saveInA
  let sv := x.plan.saveAt x.index
  let row (F a k : Nat) : List Byte := let F := Fmt.ofCode F; canonBytes F (x.rd a (k * F.bytes))
  if !x.saves || D.opkind = 0x22 || D.opkind = 0x33 || !(D.isLinear || D.isVector) || D.opkind = 0x40 then s
  else
    let A := if D.isLinear then D.astore else D.inFmt
    let s := (List.range m).foldl (fun s v => s.devWrite f (sv + v * n * w) (row A (D.inAddr + v * D.inStride) n)) s
    if D.opkind = 0x21 && D.msgForm = 2 then
      s.devWrite f (sv + m * n * w) (row A D.efeat (x.edges.length * D.edgeElems))
    else if D.opkind = 0x30 && D.usesB then
      let wb := (Fmt.ofCode D.in2Fmt).bytes
      (List.range (if D.bRow then 1 else m)).foldl (fun s v =>
        s.devWrite f (sv + m * n * w + v * n * wb) (row D.in2Fmt (D.in2Addr + v * D.in2Stride) n)) s
    else s

end Sys2Proof.Machine
end

