-- ==== Sys2Proof/Machine/Backward.lean ====
section
/-!
DEFINITION. The backward pass (chapter 10): B1 and B2 of every kind, the weight-gradient pairs, the row gradients of GATHER
(R76, R77, R128, R213, R232 to R244).
-/
namespace Sys2Proof.Machine

/-- Values by element address: what a descriptor contributes to the versions that it reads (R239). -/
abbrev Cells := List (Nat × F32)

/-- The gradient of output element (v, c), after dropout's mask and scale (R228). -/
def Ctx.dy (x : Ctx) (l : List GradBuf) (v c : Nat) : N F32 := do
  let D := x.D
  let g := x.ownGrad l (D.outAt v c)
  if D.dropout && D.isVector then
    if memBit x.rd D.dmask (v * D.cols + c) then fmul g D.dropScale else return zero32
  else return g

/-- Whether a gradient reaches the output of the descriptor. -/
def Ctx.reached (x : Ctx) (l : List GradBuf) : Bool := gradHas l (x.index + 1)

/-- The tangent of operand B (R243). -/
def Ctx.bTangent (x : Ctx) (l : List GradBuf) (v e : Nat) : F32 := x.readGrad l (x.bAt false v e)

/-! ## Derivatives of the element operations (R213) -/

/-- A finite dyadic value as a fraction; its sign, numerator and denominator. -/
def fracOf (x : F32) : Bool × Nat × Nat :=
  match f32 x with
  | .fin n m e => let (a, b) := scaleFrac m 1 e; (n, a, b)
  | _ => (false, 0, 1)

/-- An exact fraction rounded once. -/
def rndFrac (neg : Bool) (n d : Nat) : N F32 := do
  let (v, s) := Fmt.fp32.round neg n d
  countSat s
  return mk32 v

/-- −a ÷ b² rounded once; a zero or non-finite operand goes through Table 2.7. -/
def divGradB (a b : F32) : N F32 := do
  if !isFin32 a || !isFin32 b || abs32 b = 0 then return neg32 (← fdiv (← fdiv a b) b)
  let (s, n, d) := fracOf a
  let (_, p, q) := fracOf b
  rndFrac (!s) (n * q * q) (d * p * p)

/-- c × a^(−k ÷ 2) rounded once for a positive finite a, with c = cn ÷ cd; otherwise Table 2.7 decides. -/
def powHalf (neg : Bool) (cn cd k : Nat) (a : F32) : N F32 := do
  let (s, n, d) := fracOf a
  if !isFin32 a || s || n = 0 then
    let r ← frsqrt a
    let r ← if isNan32 r then pure r else fmul r (zero32)
    return r
  else
    let (v, sat) := Fmt.fp32.roundSqrt neg (cn * cn * d ^ k) (cd * cd * n ^ k)
    countSat sat
    return mk32 v

/-- What an operand's gradient is of dy: dy itself, dy scaled by a power of two, dy times a rounded derivative, or nothing. -/
inductive Deriv where
  | none
  | same
  | neg
  | scale (k : Int)
  | times (t : F32)

def Deriv.apply (g : F32) : Deriv → N F32
  | .none => return zero32
  | .same => return g
  | .neg => funary neg32 g
  | .scale k => fscale g k
  | .times t => fmul t g

/-- The derivatives by operand A and operand B. MAX and MIN give the whole gradient to the winner of R61: A on ties, and the lowest
operand that is a NaN (log 35). -/
def derivs (op : Nat) (imm a b : F32) : N Deriv × N Deriv :=
  let both (x y : Deriv) : N Deriv × N Deriv := (pure x, pure y)
  let wins (p : Bool) : N Deriv × N Deriv := if p then both .same .none else both .none .same
  match op with
  | 0 => both .same .same
  | 1 => both .same .neg
  | 2 => both (.times b) (.times a)
  | 3 => both (.times imm) .same
  | 4 => (.times <$> fdiv one32 b, .times <$> divGradB a b)
  | 5 => (.times <$> powHalf false 1 2 1 a, pure .none)
  | 6 => (.times <$> powHalf true 1 2 3 a, pure .none)
  | 7 => wins (isNan32 a || (!isNan32 b && !less32 a b))
  | 8 => wins (isNan32 a || (!isNan32 b && !less32 b a))
  | 9 => both (if abs32 a = 0 then .times zero32 else if bit a.toNat 31 then .neg else .same) .none
  | 10 => both .neg .none
  | 11 => both (.scale (sext 32 imm.toNat)) .none
  | 12 => both (if less32 (abs32 imm) (abs32 a) then .times zero32 else .same) .none
  | 14 => both (.times imm) .none
  | _ => both .same .none

/-- Second derivatives that are not zero: by (A, A), (A, B), (B, B), each rounded once (R243). -/
def derivs2 (op : Nat) (a b : F32) : N F32 × N F32 × N F32 :=
  let z : N F32 := pure zero32
  match op with
  | 2 => (z, pure one32, z)
  | 4 =>
    let (_, p, q) := fracOf b
    let (s, n, d) := fracOf a
    let sb := bit b.toNat 31
    (z, if isFin32 b && p ≠ 0 then rndFrac true (q * q) (p * p) else fdiv one32 b,
      if isFin32 a && isFin32 b && p ≠ 0 then rndFrac (s != sb) (2 * n * q ^ 3) (d * p ^ 3) else fdiv one32 b)
  | 5 => (powHalf true 1 4 3 a, z, z)
  | 6 => (powHalf false 3 4 5 a, z, z)
  | _ => (z, z, z)

/-! ## Contributions of the vector kinds -/

/-- The vectors that B1 and B2 of a vector kind work through: the edge messages of an AGGREGATE. -/
def Ctx.backCount (x : Ctx) : Nat := if x.D.opkind = 0x22 then x.edges.length else x.vectors

/-- What B1 or B2 of a vector kind gives for one vector: the elements for operand A, and those for operand B. -/
structure Part where
  a : List F32
  b : List F32

/-- Elements that a part writes; those of one vector B for all are summed first. -/
def Part.elems (x : Ctx) (p : Part) : Nat := p.a.length + (if x.D.bRow then 0 else p.b.length)

/-- The contributions of the parts of all vectors; one vector B for all gets the node chain over the vectors, rounded once (log 35). -/
def Ctx.ofParts (x : Ctx) (ps : List Part) : N Cells := do
  let a := ps.zipIdx.flatMap fun (p, v) => p.a.zipIdx.map fun (g, c) => (x.inAt false v c, g)
  if x.D.bRow then
    let cols := (ps.map fun p => p.b.length).foldl max 0
    let b ← (List.range cols).mapM fun c => do return (x.bAt false 0 c, ← chainRound32 (ps.map fun p => p.b.getD c zero32))
    return a ++ b
  else return a ++ ps.zipIdx.flatMap fun (p, v) => p.b.zipIdx.map fun (g, c) => (x.bAt false v c, g)

/-- The winner of an element of an AGGREGATE by maximum: the saved one, or the one that the messages give (R217). -/
def Ctx.winner (x : Ctx) (e c : Nat) : Nat :=
  if x.saves then fld (rd8 x.rd (x.plan.saveAt x.index + (e * x.D.cols + c) * 8)) 0 48 else x.winnerIn (x.inEdges e) c

/-- What an edge message receives of a gradient of entries (R217). -/
def Ctx.aggBack (x : Ctx) (dy : Nat → Nat → N F32) (k c : Nat) : N F32 := once do
  match x.edges[k]? with
  | none => return zero32
  | some r =>
    if !hopSel x.D.hopsel r.hop then return zero32
    else
      let g ← dy r.dst c
      match x.D.op 64 1 with
      | 2 => fdiv g (ofInt32 (x.inEdges r.dst).length)
      | 3 => return if x.winner r.dst c = k then g else zero32
      | _ => return g

/-- What the derivatives of a vector of NORM read (R215, R237): mu and r as saved, or from the input again. -/
def Ctx.normIn (x : Ctx) (v : Nat) (dxs dys ddys : List F32) : NormIn :=
  let D := x.D
  let (m, n, w) := x.saveInA
  let at' (i : Nat) : F32 := mk32 (rd4 x.rd (x.plan.saveAt x.index + m * n * w + 8 * v + i))
  let (mu, r) := if x.saves then (at' 0, at' 4) else quiet (normStats (D.op 64 1) D.imm (x.rowA true v))
  ⟨D.op 64 1, x.rowA true v, dxs, x.gains.1, mu, r, dys, ddys⟩

/-- The first-order part of vector `v` of a vector kind, from the gradient of its output (R213, R217, R237, R238). -/
def Ctx.backward (x : Ctx) (t : Option FTable) (dy : Nat → Nat → N F32) (v : Nat) : N Part := do
  let D := x.D
  let cs := List.range D.cols
  match D.opkind with
  | 0x22 => return ⟨← cs.mapM (x.aggBack dy v), []⟩
  | 0x30 =>
    let rs ← cs.mapM fun c => do
      let a := x.a true v c
      let b := if D.usesB then x.b true v c else zero32
      let (p, q) := derivs (D.op 64 1) D.imm a b
      let da ← once do (← p).apply (← dy v c)
      let db ← if D.usesB then once do (← q).apply (quiet (dy v c)) else pure zero32
      return (da, db)
    return ⟨rs.map (·.1), if D.usesB then rs.map (·.2) else []⟩
  | 0x31 =>
    return ⟨← cs.mapM fun c => once do
      let d ← match t with | some t => t.eval 1 (x.a true v c) | none => pure zero32
      fmul d (← dy v c), []⟩
  | 0x32 => return ⟨← (x.normIn v [] (← cs.mapM (dy v)) []).back false, []⟩
  | 0x33 =>
    let gs ← cs.mapM (dy v)
    return ⟨← if D.op 64 1 = 0 then pure gs else gs.mapM (fmul D.imm), gs⟩
  | _ => return ⟨[], []⟩

/-- The gradients of the gains and offsets of a NORM, or their tangents, by weight address: each vector's part, summed over the
vectors in the canonical tree (R214, log 5). -/
def Ctx.normParams (x : Ctx) (rows : List (List F32)) : N (List (Nat × Pair)) := do
  let D := x.D
  let n := if D.op 64 1 = 0 then 2 * D.cols else D.cols
  (List.range n).mapM fun i => do return (D.wgtAddr + 2 * i, ← treeSum (rows.map fun r => (r.getD i zero32, zero32)))

/-! ## Contributions of the linear kinds -/

/-- Each element of the input gradient of a linear layer, as its last tile left it (R45, R57, R233). -/
def Ctx.dxElem (x : Ctx) (ls : List LeafCell) (pass v k : Nat) : F32 := (leafGet ls x.index pass 0 closedLeaf v k).1

/-- The parts of a node's element among the message gradients of EDGE_LINEAR, in ascending edge number, the DST part before the
SRC part (R240). -/
def Ctx.nodeParts (x : Ctx) (dm : Nat → Nat → F32) (live : List Nat) (e k : Nat) : N (List F32) := do
  let n := x.D.nodeElems
  let parts ← live.mapM fun v => do
    match x.edges[v]? with
    | none => return []
    | some r =>
      let dst ← if r.dst ≠ e then pure [] else
        match x.D.msgForm with
        | 0 => pure []
        | 3 => (do pure [← funary neg32 (dm v k)])
        | _ => pure [dm v k]
      let src := if r.src ≠ e then [] else
        match x.D.msgForm with
        | 0 | 3 => [dm v k]
        | _ => [dm v (n + k)]
      return dst ++ src
  return parts.flatten

/-- The contributions of a LINEAR layer's input gradient. -/
def Ctx.linearBack (x : Ctx) (ls : List LeafCell) (pass : Nat) : Cells :=
  x.live.flatMap fun v => (List.range x.D.rows).map fun k => (x.inAt false v k, x.dxElem ls pass v k)

/-- The contribution of EDGE_LINEAR to the row of node entry `e` (R240). -/
def Ctx.nodeBack (x : Ctx) (ls : List LeafCell) (pass e : Nat) : N Cells := do
  let cells ← (List.range x.D.nodeElems).mapM fun k => do
    let ps ← x.nodeParts (x.dxElem ls pass) x.live e k
    if ps.isEmpty then return []
    else return [(x.inAt false e k, ← chainRound32 ps)]
  return cells.flatten

/-- The contributions of EDGE_LINEAR to its edge features (R240). -/
def Ctx.featBack (x : Ctx) (ls : List LeafCell) (pass : Nat) : Cells :=
  let D := x.D
  if D.msgForm = 2 then
    x.live.flatMap fun v => (List.range D.edgeElems).map fun k => (x.featAt false v k, x.dxElem ls pass v (2 * D.nodeElems + k))
  else []

/-- The weight-gradient pairs of a linear layer by weight address; of a compressed layer only the stored positions (R235). -/
def Ctx.weightBack (x : Ctx) (ls : List LeafCell) (pass wg : Nat) : List (Nat × Pair) :=
  let D := x.D
  let w := (Fmt.ofCode D.wstore).bytes
  let p (k c : Nat) : Pair := leafGet ls x.index pass wg closedLeaf k c
  if D.wlayout = 0 then
    (List.range D.rows).flatMap fun k => (List.range D.cols).map fun c => (D.wgtAddr + k * D.wgtStride + c * w, p k c)
  else
    (List.range D.tiles).flatMap fun t => (List.range D.colBlocks).flatMap fun b =>
      (D.decode x.rd t b 0 16384).elems.map fun e => (e.addr, p (128 * t + e.row) (b * 64 * D.spcols + e.col))

/-- Enter weight-gradient pairs of a descriptor: chained by node from (+0, +0) (R241). -/
def addPairs (l : List (Nat × F32 × F32)) (ps : List (Nat × Pair)) : N (List (Nat × F32 × F32)) :=
  ps.foldlM (fun l (a, p) => do
    let q ← node ((SMap.find a l).getD Pair.empty) p
    return SMap.insert a q l) l

/-! ## Row gradients of a GATHER (R128) -/

/-- Where the owner array of a GATHER ends, and its winners begin (R117, R121). -/
def ownerArrayBytes (bs : List BlockRec) : Nat := 2 * (bs.map fun b => b.nodes + b.edges).sum

/-- A route-log record as B1 reads it: the owner it was served by, its row and the entry it belongs to. -/
structure RouteRec where
  owner : Nat
  row : Nat
  seq : Nat
  entry : Nat
  deriving DecidableEq, Repr

/-- The records that a GATHER reads, in the order of its owner array (R117): SELF records, or the POOL records that HOPSEL selects.
The owner comes from the array. -/
def routeRecs (rd : Rd) (D : Desc) (bs : List BlockRec) (owners : Nat) : List RouteRec :=
  (bs.foldl (fun (acc, pos) b =>
    let n := b.nodes + b.edges
    let rs := (List.range n).filterMap fun i =>
      let r := rd (b.routeAddr + 16 * i) 16
      let ow := rd2 rd (owners + 2 * (pos + i))
      if ow = 0xFFFF then none
      else
        let entry := entryOf bs b.slice (at' r 8 4)
        let attr := fld (rd8 rd (b.nodeAddr + 8 * i)) 48 16
        some ⟨ow, if D.op 65 1 = 1 then attr else at' r 0 5, at' r 6 2, entry⟩
    (acc ++ rs, pos + n)) (([] : List RouteRec), 0)).1

/-- One element of an entry's gradient as sent: scaled by 2^GEXP and rounded to FP16 (R128). -/
def wireGrad (gexp : Int) (g : F32) : N Nat := do
  match f32 g with
  | .nan => return Fmt.fp16.qnan
  | .inf n => return Fmt.fp16.infBits n
  | .fin n m e =>
    let r ← Fmt.fp16.rnd n (sgnd n m) (e + gexp)
    if m ≠ 0 && r % 2 ^ 15 = 0 then modify fun t => { t with gradUfl := t.gradUfl + 1 }
    return r

/-- The gradient messages of an entry: one per owner, listing the rows of its request in ascending SEQ (R128). `n` is the entry's
count, `wins` its winners under MAX. -/
def entryGrads (t : Table) (D : Desc) (i st req cl entry n : Nat) (recs : List RouteRec) (wins : List Nat) (g : List F32) :
    N (List (Nat × BellowsMsg)) := do
  let pool := D.op 64 1
  if pool = 2 && n = 0 then return []
  let g ← if pool = 2 then g.mapM fun y => fdiv y (ofInt32 n) else pure g
  let ws ← g.mapM (wireGrad t.gexp)
  let owners := sortBy (fun (a b : Nat) => a < b) (recs.map (·.owner)).eraseDups
  return owners.filterMap fun o =>
    let rows := (recs.filter fun r => r.owner = o && r.row < t.rows).map (·.row)
    let mine := wins.map fun w => if rows.contains w then w else 0xFFFFFFFFFF
    if rows.isEmpty || (pool = 3 && mine.all (· = 0xFFFFFFFFFF)) then none
    else
      let data := if pool = 3 then (ws.zip mine).map fun (v, w) => if w = 0xFFFFFFFFFF then 0 else v else ws
      some (o, ⟨4, pool, 2, false, data.any (Fmt.nonFinite Fmt.fp16), t.id, o, req, cl, i, entry, rows.length, st, rows, data,
        if pool = 3 then mine else []⟩)

/-- The die and cluster whose Bellows reads the blocks of a slice: those of the Skink that built it. -/
def State.builder (s : State) (f n desc q : Nat) : Nat × Nat :=
  match (s.func f).slices.find? fun r => r.step = n && r.desc = desc && r.slice = q with
  | some r => (r.die, r.cluster)
  | none => (s.physDie f 0, 0)

/-- B1 of a GATHER of a trainable table: the gradients, then END to every owner (R128, R130). -/
def State.gatherBack (s : State) (f : Nat) (x : Ctx) (grads : List GradBuf) : State :=
  let D := x.D
  let g := s.func f
  match g.table D.tableId with
  | none => s
  | some t =>
    if !t.trainable || D.noGrad then s
    else
      let S := x.plan.desc D.srcDesc
      let bs := s.blockList f S x.step
      let own := x.plan.saveAt x.index
      let recs := routeRecs x.rd D bs own
      let winAt := own + roundUp (ownerArrayBytes bs) 4096
      let E := t.elems
      let w := (Fmt.ofCode D.outFmt).bytes
      let s := bs.foldl (fun s b =>
        let (die, cl) := s.builder f x.step D.srcDesc b.slice
        let req := s.reqOf t die
        ((List.range b.nodes).map (b.base + ·)).foldl (fun s e =>
          let mine := recs.filter fun r => r.entry = e
          if mine.isEmpty then s
          else
            let gs := (List.range E).map fun c => x.ownGrad grads (D.outAddr + e * D.op 68 2 + c * w)
            let n := (mine.filter fun r => r.row < t.rows).length
            let wins := if D.op 64 1 = 3 then (List.range E).map fun c => fld (rd8 x.rd (winAt + (e * E + c) * 8)) 0 40 else []
            let (ms, s) := s.calc (.combiner die cl) f false (entryGrads t D x.index x.step req cl e n mine wins gs)
            ms.foldl (fun s (o, m) =>
              (s.sendOwner f die t o (.bellows m)).modFunc f fun g => { g with keptGrads := g.keptGrads ++ [(o, m)] }) s) s) s
      (s.upDies f).foldl (fun s die =>
        (List.range t.N).foldl (fun s o =>
          let m : BellowsMsg := ⟨5, D.op 64 1, 2, false, false, t.id, o, s.reqOf t die, 0, x.index, 0, 0, x.step, [], [], []⟩
          (s.sendOwner f die t o (.bellows m)).modFunc f fun g => { g with keptGrads := g.keptGrads ++ [(o, m)] }) s) s

/-! ## A descriptor of B1 -/

/-- Whether a parameter group's weights take gradients in this step (R251). -/
def Step.trains (st : Step) (D : Desc) : Bool := D.pgroup ≠ 0xFF && !st.frozen.contains D.pgroup

/-- The products that B1 computes for a linear layer. -/
def b1Shapes (st : Step) (D : Desc) : List (Nat × Shape) := (0, .dx) :: (if st.trains D then [(1, .dw)] else [])

/-- The seeds of a LOSS, as its output holds them, on the predictions that it reads (R87, R218). -/
def Ctx.seeds (x : Ctx) : Cells :=
  (List.range x.vectors).flatMap fun v => (List.range x.D.cols).map fun c =>
    (x.inAt false v c, mk32 (rd4 x.rd (x.D.outAddr + v * x.D.outStride + 4 * c)))

/-- What a descriptor contributes in B1, or in the second sweep of B2 when `pass` is 2: `part` gives a vector kind's parts. The elements
for one vector B for all count at the first core (R231). -/
def State.contributions (s : State) (f : Nat) (x : Ctx) (cs : List Nat) (ls : List LeafCell) (pass : Nat) (part : Nat → N Part) :
    Cells × State :=
  if x.D.opkind = 0x20 then (x.linearBack ls pass, s)
  else if x.D.opkind = 0x21 then
    let (rows, s) := s.onShares f false cs x.entries List.length (x.nodeBack ls pass)
    (rows.flatten ++ x.featBack ls pass, s)
  else
    let s := s.loadTables f x cs
    let (ps, s) := s.onShares f false cs x.backCount (Part.elems x) part
    let row := if x.D.bRow then (ps.map fun p => p.b.length).foldl max 0 else 0
    (s.cntCore (cs.headD 0) 51 row).calc (.vector (cs.headD 0)) f false (x.ofParts ps)

/-- The weight-gradient pairs of a descriptor that trains: `wgs` names the products of a linear layer, chained by node when there are
two (R77, R241), and `row` gives a NORM's parts. -/
def State.weightPairs (s : State) (f : Nat) (x : Ctx) (cs : List Nat) (ls : List LeafCell) (pass : Nat) (wgs : List Nat)
    (row : Nat → N (List F32)) : List (Nat × Pair) × State :=
  if x.D.isLinear then
    match wgs.map (x.weightBack ls pass) with
    | [a, b] => s.calc (.vector (cs.headD 0)) f false ((a.zip b).mapM fun (u, w) => do return (u.1, ← node u.2 w.2))
    | l => (l.flatten, s)
  else if x.D.opkind = 0x32 then
    let (rows, s) := s.onShares f false cs x.vectors (fun _ => 0) row
    let n := if x.D.op 64 1 = 0 then 2 * x.D.cols else x.D.cols
    (s.cntCore (cs.headD 0) 51 n).calc (.vector (cs.headD 0)) f false (x.normParams rows)
  else ([], s)

/-- Finish descriptor `i` in B1 (R76, R239, R241). -/
def State.b1Finish (s : State) (f : Nat) (p : Plan) (st : Step) (i : Nat) (cs : List Nat) : State :=
  let x := s.ctx f p st.n i
  let D := x.D
  let c0 := cs.headD 0
  if D.opkind = 0x10 then s.gatherBack f x st.grads
  else if D.opkind = 0x40 then
    let (gs, s) := s.calc (.vector c0) f false (x.addCells st.grads x.seeds)
    s.modStep f false fun st => { st with grads := gs }
  else if !x.reached st.grads then s
  else
    let t := (s.func f).ftable D.ftable
    let dy := x.dy st.grads
    let (cells, s) := s.contributions f x cs st.leaves 1 (x.backward t dy)
    let (ps, s) := if st.trains D then
        s.weightPairs f x cs st.leaves 1 [1] (fun v => do
          (x.normIn v [] (quiet ((List.range D.cols).mapM (dy v))) []).params false)
      else ([], s)
    let ((gs, ws), s) := s.calc (.vector c0) f false (do return (← x.addCells st.grads cells, ← addPairs st.wgrads ps))
    s.modStep f false fun st => { st with grads := gs, wgrads := ws }

/-! ## B2 (R243, R244) -/

/-- The tangents of the elements of vector `v` of a vector kind's output (first sweep), before dropout. -/
def Ctx.tangent (x : Ctx) (t : Option FTable) (l : List GradBuf) (v : Nat) : List (N F32) :=
  let D := x.D
  let each (h : Nat → N F32) : List (N F32) := (List.range D.cols).map h
  match D.opkind with
  | 0x30 => each fun c => do
    let (p, q) := derivs (D.op 64 1) D.imm (x.a true v c) (if D.usesB then x.b true v c else zero32)
    let u ← (← p).apply (x.inTangent l v c)
    if D.usesB then fadd u (← (← q).apply (x.bTangent l v c)) else return u
  | 0x31 => each fun c => do
    let d ← match t with | some t => t.eval 1 (x.a true v c) | none => pure zero32
    fmul d (x.inTangent l v c)
  | 0x33 => each fun c => do
    let u ← if D.op 64 1 = 0 then pure (x.inTangent l v c) else fmul D.imm (x.inTangent l v c)
    fadd (x.bTangent l v c) u
  | 0x22 =>
    let es := x.inEdges v
    each fun c => do
      if es.isEmpty then return zero32
      else if D.op 64 1 = 3 then return x.inTangent l (x.winner v c) c
      else
        let p ← chain (es.map fun k => (x.inTangent l k c, zero32))
        return mk32 (← pairMean Fmt.fp32 p (if D.op 64 1 = 2 then es.length else 1))
  | 0x32 =>
    (x.normIn v ((List.range D.cols).map (x.inTangent l v)) [] []).tangent
  | _ => each fun _ => return zero32

/-- The tangents of the output elements of vector `v`, as they enter their buffer. -/
def Ctx.tangentRow (x : Ctx) (t : Option FTable) (st : Step) (v : Nat) : N Cells :=
  let D := x.D
  if D.isLinear then
    return (List.range D.cols).map fun c =>
      (D.outAt v c, if x.D.colMasked x.rd c then zero32 else (leafGet st.leaves x.index 2 0 closedLeaf v c).1)
  else
    (x.tangent t st.tangents v).zipIdx.mapM fun (m, c) => once do
      let y ← m
      let y ← if D.dropout then (if memBit x.rd D.dmask (v * D.cols + c) then fmul y D.dropScale else pure zero32) else pure y
      return (D.outAt v c, y)

/-- Whether a tangent reaches an element that the descriptor reads. -/
def Ctx.tangentReaches (x : Ctx) (l : List GradBuf) : Bool :=
  let hit (a : Nat) : Bool := (SMap.find a (gradFind l (x.prodAt a))).isSome
  let (m, n, _) := x.saveInA
  ((List.range m).any fun v => (List.range n).any fun e => hit (x.inAt false v e)) ||
    (x.D.usesB && (List.range (if x.D.bRow then 1 else m)).any fun v => (List.range n).any fun e => hit (x.bAt false v e)) ||
    (x.D.opkind = 0x21 && (List.range x.edges.length).any fun v => (List.range x.D.edgeElems).any fun e => hit (x.featAt false v e))

/-- Finish descriptor `i` in the first sweep: the tangent of its output. The seeds of a FORCE_TERM loss are the tangents of the inputs
whose gradients it reads (R243). -/
def State.b2First (s : State) (f : Nat) (p : Plan) (st : Step) (i : Nat) (cs : List Nat) : State :=
  let x := s.ctx f p st.n i
  let D := x.D
  if D.opkind = 0x40 then
    let (l, s) := s.calc (.vector (cs.headD 0)) f false (x.addCells st.tangents x.seeds)
    s.modStep f false fun st => { st with tangents := l }
  else if !x.tangentReaches st.tangents then s
  else
    let s := s.loadTables f x cs
    let t := (s.func f).ftable D.ftable
    let (rows, s) := if D.isLinear then (x.live.map fun v => quiet (x.tangentRow t st v), s)
      else s.onShares f false cs x.vectors List.length (x.tangentRow t st)
    let (l, s) := s.calc (.vector (cs.headD 0)) f false (gradAdd st.tangents (i + 1) rows.flatten)
    s.modStep f false fun st => { st with tangents := l, leaves := st.leaves.filter fun z => !(z.layer = i && z.pass = 2) }

/-- l″ of a loss (R243). -/
def lossSecond (op : Nat) (imm : F32) (t : Option FTable) (d : F32) : N F32 := do
  match op, t with
  | 0, _ => return mk32 0x40000000
  | 1, _ => return if inDelta d (abs32 imm) then one32 else zero32
  | _, some t => t.eval 2 d
  | _, none => return zero32

/-- The part of vector `v` of a vector kind in the second sweep: the tangent of its B1 gradient. -/
def Ctx.backward2 (x : Ctx) (t : Option FTable) (l : List GradBuf) (dy ddy : Nat → Nat → N F32) (v : Nat) : N Part := do
  let D := x.D
  let cs := List.range D.cols
  match D.opkind with
  | 0x30 =>
    let second (forA : Bool) (c : Nat) : N F32 := once do
      let a := x.a true v c
      let b := if D.usesB then x.b true v c else zero32
      let (p, q) := derivs (D.op 64 1) D.imm a b
      let base ← (← if forA then p else q).apply (← ddy v c)
      if [2, 4, 5, 6].contains (D.op 64 1) then
        let (aa, ab, bb) := derivs2 (D.op 64 1) a b
        let u ← fmul (← fmul (← if forA then aa else ab) (x.inTangent l v c)) (← dy v c)
        let w ← if D.usesB then fmul (← fmul (← if forA then ab else bb) (x.bTangent l v c)) (← dy v c) else pure zero32
        fadd (← fadd u w) base
      else return base
    return ⟨← cs.mapM (second true), ← if D.usesB then cs.mapM (second false) else pure []⟩
  | 0x31 =>
    return ⟨← cs.mapM fun c => once do
      let z := x.a true v c
      let d1 ← match t with | some t => t.eval 1 z | none => pure zero32
      let d2 ← match t with | some t => t.eval 2 z | none => pure zero32
      fadd (← fmul (← fmul d2 (x.inTangent l v c)) (← dy v c)) (← fmul d1 (← ddy v c)), []⟩
  | 0x32 =>
    let n := x.normIn v (cs.map (x.inTangent l v)) (← cs.mapM (dy v)) (← cs.mapM (ddy v))
    return ⟨← n.back true, []⟩
  | _ => x.backward t ddy v

/-- The tangents of the seeds of a LOSS in the second sweep (R243). -/
def Ctx.seedTangents (x : Ctx) (t : Option FTable) (l : List GradBuf) (v : Nat) : N Cells :=
  let D := x.D
  (List.range D.cols).mapM fun c => once do
    let d ← fsub (x.a false v c) (x.b false v c)
    return (x.inAt false v c, ← fmul (← fmul D.weight (← lossSecond (D.op 64 1) D.imm t d)) (x.inTangent l v c))

/-- Finish descriptor `i` in the second sweep. -/
def State.b2Second (s : State) (f : Nat) (p : Plan) (st : Step) (i : Nat) (cs : List Nat) : State :=
  let x := s.ctx f p st.n i
  let D := x.D
  let c0 := cs.headD 0
  if D.opkind = 0x40 then
    let s := s.loadTables f x cs
    let t := (s.func f).ftable D.ftable
    let (rows, s) := s.onShares f false cs x.vectors List.length (x.seedTangents t st.tangents)
    let (l, s) := s.calc (.vector c0) f false (x.addCells st.gradTangents rows.flatten)
    s.modStep f false fun st => { st with gradTangents := l }
  else if !(x.reached st.grads || x.reached st.gradTangents) then s
  else
    let t := (s.func f).ftable D.ftable
    let dy := x.dy st.grads
    let ddy := x.dy st.gradTangents
    let (cells, s) := s.contributions f x cs st.leaves 2 (x.backward2 t st.tangents dy ddy)
    let row (h : Nat → Nat → N F32) (v : Nat) : List F32 := quiet ((List.range D.cols).mapM (h v))
    let (ps, s) := if st.trains D then
        s.weightPairs f x cs st.leaves 2 [2, 3] (fun v => do
          (x.normIn v ((List.range D.cols).map (x.inTangent st.tangents v)) (row dy v) (row ddy v)).params true)
      else ([], s)
    let ((l, ws), s) := s.calc (.vector c0) f false (do return (← x.addCells st.gradTangents cells, ← addPairs st.wgrads ps))
    s.modStep f false fun st => { st with gradTangents := l, wgrads := ws }

end Sys2Proof.Machine
end

