-- ==== Sys2Proof/Machine/Gather.lean ====
section
/-!
DEFINITION. Phase G (R115 to R118): the route log is walked, owners are looked up and written down, and requests leave.
-/
namespace Sys2Proof.Machine

/-- A request that an entry needs: its owner and its rows. -/
structure Need where
  owner : Nat
  rows : List Nat
  deriving DecidableEq, Repr

/-- The requests of an entry from its selected records (R118): rows of one owner in ascending SEQ. The edges of an entry stand in one
block, that of its expansion (R102), which may be another than the entry's own. -/
def needsOf (recs : List RouteRec) : List Need :=
  let os := sortBy (fun (a b : Nat) => a < b) (recs.map (·.owner)).eraseDups
  os.map fun o => ⟨o, (recs.filter fun r => r.owner = o).map (·.row)⟩

/-- The lowest-indexed GATHER that reads the blocks of an S descriptor (R117). -/
def Plan.lowestGather (p : Plan) (src : Nat) : Option Nat :=
  (List.range p.descs.length).find? fun i => (p.desc i).opkind = 0x10 && (p.desc i).srcDesc = src

/-- The selected records of a block (R117, R118): position in the block's log, row, SEQ and entry. -/
def blockRecs (rd : Rd) (D : Desc) (bs : List BlockRec) (b : BlockRec) : List (Nat × Nat × Nat × Nat) :=
  let pool := D.op 64 1
  (List.range (b.nodes + b.edges)).filterMap fun i =>
    let r := rd (b.routeAddr + 16 * i) 16
    let entry := entryOf bs b.slice (at' r 8 4)
    if i < b.nodes then
      if pool ≠ 0 then none
      else some (i, if D.op 65 1 = 1 then fld (rd8 rd (b.nodeAddr + 8 * i)) 48 16 else at' r 0 5, 0, entry)
    else
      let hop := at' (rd (b.edgeAddr + 16 * (i - b.nodes)) 16) 8 1
      if pool ≠ 0 && hopSel (D.op 70 1) hop then some (i, at' r 0 5, at' r 6 2, entry) else none

/-- The route records that a GATHER reads, with their slices and owners (R117, R118). -/
def Func.routeRecs (g : Func) (rd : Rd) (t : Table) (D : Desc) (bs : List BlockRec) : List (Nat × RouteRec) :=
  bs.flatMap fun b => (blockRecs rd D bs b).map fun (_, row, seq, e) => (b.slice, ⟨(g.locate t row).1, row, seq, e⟩)

/-- Start a GATHER (R115 to R118): owners are written down, entries are opened, and their requests wait at the Bellows of the cluster that
built the slice, in entry order, until it may send them (R133). -/
def State.startGather (s : State) (f : Nat) (p : Plan) (n i : Nat) : State :=
  let s := s.modFunc f (·.applyLocs n)
  let x := s.ctx f p n i
  let D := x.D
  match (s.func f).table D.tableId with
  | none => s
  | some t =>
    let S := p.desc D.srcDesc
    let bs := s.blockList f S n
    let lowest := p.lowestGather D.srcDesc = some i
    let own := t.trainable && !D.noGrad
    let base := p.saveAt i
    let winAt := base + roundUp (ownerArrayBytes bs) 4096
    let g := s.func f
    let all := g.routeRecs x.rd t D bs
    let (_, s) := bs.zipIdx.foldl (fun (pos, s) (b, ord) =>
      let (die, cl) := s.builder f n D.srcDesc b.slice
      let sel := blockRecs x.rd D bs b
      let recs := (all.filter fun r => r.1 = b.slice).map (·.2)
      let marks := (List.range (b.nodes + b.edges)).map fun k =>
        match sel.find? fun y => y.1 = k with
        | some y => (g.locate t y.2.1).1
        | none => 0xFFFF
      let s := if lowest then
          sel.foldl (fun s (k, row, _, _) => s.devWrite f (b.routeAddr + 16 * k + 12) (leBytes 2 (g.locate t row).1)) s else s
      let s := if own then s.devWrite f (base + 2 * pos) (marks.flatMap (leBytes 2)) else s
      let s := ((List.range b.nodes).map (b.base + ·)).foldl (fun s e =>
        let needs := needsOf (recs.filter fun r => r.entry = e)
        let ent : GatEntry :=
          { step := n, desc := i, entry := e, block := ord, die := die, cluster := cl
            winners := if own && D.op 64 1 = 3 then winAt + e * t.elems * 8 else 0
            want := needs.length, replies := [], done := needs.isEmpty }
        let s := s.modFunc f fun g => { g with gather := g.gather ++ [ent] }
        let s := if needs.isEmpty then s.writeEntry f D t ent else s
        let asks := needs.map fun nd =>
          (⟨die, cl, ord, ⟨if D.op 64 1 = 0 then 0 else 1, D.op 64 1, t.fmt, false, false, t.id, nd.owner, s.reqOf t die, cl, i, e,
              nd.rows.length, n, nd.rows, [], []⟩⟩ : Unsent)
        s.modFunc f fun g => { g with unsent := g.unsent ++ asks }) s
      (pos + b.nodes + b.edges, s)) (0, s)
    s.sendRequests f

/-- Every entry of a GATHER is written. -/
def Func.gathered (g : Func) (n i : Nat) : Bool := g.gather.all fun e => !(e.step = n && e.desc = i) || e.done

/-- A GATHER completes: its entries are dropped and its Bellows idle. -/
def State.endGather (s : State) (f n i : Nat) : State :=
  let mine := (s.func f).gather.filter fun e => e.step = n && e.desc = i
  let s := (mine.map fun e => (e.die, e.cluster)).eraseDups.foldl (fun s (d, c) =>
    s.modClu d c fun x => { x with bellows := { x.bellows with state := if x.bellows.state = 1 then 0 else x.bellows.state } }) s
  s.modFunc f fun g => { g with gather := g.gather.filter fun e => !(e.step = n && e.desc = i) }

end Sys2Proof.Machine
end

