-- ==== Sys2Proof/Machine/Groups.lean ====
section
/-!
DEFINITION. Parameter groups (Table 12.1), their shards (R256), and Chorus groups with their roles (Table 11.1, R254, R256, R266,
R271).
-/
namespace Sys2Proof.Machine

/-! ## Parameter groups -/

/-- A parameter-group entry: 128 bytes (R279). -/
abbrev PGroup := List Byte

def PGroup.kind (e : PGroup) : Nat := at' e 0 1
def PGroup.freeze (e : PGroup) : Bool := bit (at' e 1 1) 0
def PGroup.fixedS (e : PGroup) : Bool := bit (at' e 1 1) 1
def PGroup.normsGiven (e : PGroup) : Bool := bit (at' e 1 1) 2
def PGroup.accEn (e : PGroup) : Bool := bit (at' e 1 1) 3
def PGroup.prog (e : PGroup) : Nat := at' e 2 1
def PGroup.sInit (e : PGroup) : Int := sext 8 (at' e 3 1)
def PGroup.cexp (e : PGroup) : Int := sext 8 (at' e 4 1)
def PGroup.tableId (e : PGroup) : Nat := at' e 5 1
def PGroup.elems (e : PGroup) : Nat := at' e 8 8
def PGroup.hi (e : PGroup) : Nat := at' e 16 8
def PGroup.res (e : PGroup) : Nat := at' e 24 8
def PGroup.moment (e : PGroup) (k : Nat) : Nat := at' e (32 + 8 * k) 8
/-- An FP32 field. -/
def PGroup.f32 (e : PGroup) (off : Nat) : F32 := mk32 (at' e off 4)
def PGroup.const (e : PGroup) (k : Nat) : F32 := e.f32 (96 + 4 * k)

def Plan.pg (p : Plan) (g : Nat) : PGroup := p.pgroups.getD g []

/-! ## Shards (R256) -/

def shardElems : Nat := 32768

/-- A shard: its group, its first parameter and its number of elements. -/
structure Shard where
  group : Nat
  first : Nat
  n : Nat
  deriving DecidableEq, Repr, Inhabited

/-- Shards of a group: feature-table groups have none. -/
def PGroup.shards (e : PGroup) : Nat := if e.kind = 0 then ceilDiv e.elems shardElems else 0

/-- The number of the first shard of group `g`. -/
def Plan.shardBase (p : Plan) (g : Nat) : Nat := ((p.pgroups.take g).map (PGroup.shards ·)).sum

/-- The shards of a group with their sequence numbers. -/
def Plan.groupShards (p : Plan) (g : Nat) : List (Nat × Shard) :=
  let e := p.pg g
  (List.range e.shards).map fun k => (p.shardBase g + k, ⟨g, shardElems * k, min shardElems (e.elems - shardElems * k)⟩)

/-- The shards of the groups that are not frozen, in sequence order. -/
def Plan.liveShards (p : Plan) (frozen : List Nat) : List (Nat × Shard) :=
  ((List.range p.pgroups.length).filter fun g => !frozen.contains g).flatMap p.groupShards

/-! ## Checksums (R264) -/

def ckMod : Nat := 2 ^ 61 - 1

/-- The sum of integers modulo 2^61 − 1. -/
def checksum (xs : List Int) : Nat := (xs.foldl (fun a x => (a + x) % (ckMod : Int)) 0).toNat

/-- 32-bit little-endian words of a byte string. -/
def wordsOf (b : List Byte) : List Int := (natsOf 4 (b.length / 4) b).map fun (n : Nat) => (n : Int)

/-- The checksum of a payload by its format code (R264). A non-finite F16 value has no integer and enters as 0 (log 36). -/
def payloadSum (fmt : Nat) (b : List Byte) : Nat :=
  if fmt = 2 then checksum ((natsOf 2 (b.length / 2) b).map fun v => (xaInt v).getD 0)
  else if fmt = 1 then checksum ((natsOf 2 (b.length / 2) b).map fun (n : Nat) => (n : Int))
  else checksum (wordsOf b)

/-! ## Chorus groups -/

def Group.fmt (g : Group) : Nat := at' g.params 1 1
def Group.lateDrop (g : Group) : Bool := bit (at' g.params 2 1) 0
def Group.dropRank (g : Group) : Bool := bit (at' g.params 2 1) 1
def Group.tierA (g : Group) : Bool := bit (at' g.params 2 1) 2
def Group.tierB (g : Group) : Bool := bit (at' g.params 2 1) 3
def Group.tierbLog2 (g : Group) : Nat := at' g.params 3 1
def Group.ranks (g : Group) : Nat := at' g.params 4 2
def Group.me (g : Group) : Nat := at' g.params 6 2
def Group.segRanks (g : Group) : Nat := at' g.params 8 2
def Group.windowUs (g : Group) : Nat := at' g.params 10 2
def Group.tag (g : Group) : Nat := at' g.params 12 4
def Group.compressed (g : Group) : Bool := g.tierA || g.tierB

def Group.isIn (g : Group) (r : Nat) : Bool := r < g.ranks && !g.evicted.contains r

/-- The members that have not been evicted, ascending. -/
def Group.present (g : Group) : List Nat := (List.range g.ranks).filter g.isIn

/-- R266. -/
def Group.coordinator (g : Group) : Option Nat := g.present.head?
def Group.deputy (g : Group) : Option Nat := match g.present with | [r] => some r | _ :: r :: _ => some r | [] => none

/-- The first non-evicted of `n` members from `lo`, counted from place `k` and wrapping. -/
def Group.pick (g : Group) (lo n k : Nat) : Option Nat :=
  ((List.range n).map fun i => lo + (k + i) % n).find? g.isIn

/-- The owner rank of a shard (R256). -/
def Group.owner (g : Group) (j : Nat) : Option Nat := g.pick 0 g.ranks (j % g.ranks)

/-- Segments (R271). -/
def Group.segments (g : Group) : Nat := ceilDiv g.ranks g.segRanks
def Group.segOf (g : Group) (r : Nat) : Nat := r / g.segRanks
def Group.segSize (g : Group) (k : Nat) : Nat := min g.segRanks (g.ranks - k * g.segRanks)
def Group.segMembers (g : Group) (k : Nat) : List Nat := (List.range (g.segSize k)).map (k * g.segRanks + ·)
def Group.segOwner (g : Group) (k j : Nat) : Option Nat := g.pick (k * g.segRanks) (g.segSize k) (j % g.segSize k)

/-- Where a rank sends its contribution to a shard (R256, R271). -/
def Group.target (g : Group) (j : Nat) : Option Nat :=
  if g.compressed then g.segOwner (g.segOf g.me) j else g.owner j

/-- CFG_SUM (R254): bytes 1 to 15 with MY_RANK taken as 0, padded to whole words, then the member list. -/
def Group.cfgSum (g : Group) : Nat :=
  let b := ((g.params.drop 1).take 5) ++ zeros 2 ++ ((g.params.drop 8).take 8) ++ zeros 1
  checksum (wordsOf (b ++ g.members.flatMap (leBytes 8)))

/-- A message of this rank with nothing in it. -/
def Group.msg (g : Group) (kind fmt step : Nat) : ChorusMsg :=
  { kind := kind, fmt := fmt, nf := false, carry := false, resend := false, skip := false, nack := false, groupTag := g.tag
    step := step, rank := g.me, subject := 0, shard := 0, elems := 0, pgroup := 0, checksum := 0, normS := 0, normE := 0
    participating := 0, maskSum := 0, payload := [] }

/-- The group slot that a message belongs to: the active plan's group before the others, then the lowest slot (R253). -/
def Func.slotOfTag (g : Func) (tag : Nat) : Option Nat :=
  let hit (i : Nat) : Bool := match g.groups.getD i none with | some gr => gr.tag = tag | none => false
  match g.activePlan with
  | some (_, p) => if hit p.group then some p.group else (List.range 8).find? hit
  | none => (List.range 8).find? hit

/-- The plan whose parameter groups a Chorus group reduces: the active one, else the first loaded one that names the group. -/
def Func.planOfGroup (g : Func) (slot : Nat) : Option Plan :=
  let active := match g.activePlan with | some (_, p) => if p.group = slot then some p else none | none => none
  match active with
  | some p => some p
  | none => g.plans.findSome? fun p => match p with | some p => if p.group = slot then some p else none | none => none

end Sys2Proof.Machine
end

