-- ==== Sys2Proof/Machine/Chorus.lean ====
section
/-!
DEFINITION. Chorus (chapter 11): contributions, acknowledgement and SENT marks, the decision of the coordinator and its relay,
adding at owners and segment owners, results, eviction and silent ranks.
-/
namespace Sys2Proof.Machine

/-! ## Open steps -/

def ChorusStep.new (slot n : Nat) : ChorusStep :=
  { slot := slot, step := n, own := [], formed := false, acked := [], sentOwn := false, stopped := false, marks := [], window := false
    decided := none, mask := none, held := [], segSent := [], broadcast := [], results := [] }

def Func.chorusStep (g : Func) (slot n : Nat) : ChorusStep :=
  (g.chorus.steps.find? fun c => c.slot = slot && c.step = n).getD (ChorusStep.new slot n)

/-- Change a step's state; the last eight steps of a slot stay, so that an owner can answer a REREQ (log 37). -/
def State.modChorus (s : State) (f slot n : Nat) (h : ChorusStep → ChorusStep) : State :=
  s.modFunc f fun g =>
    { g with chorus := { g.chorus with
      steps := (upsert (fun c => c.slot = slot && c.step = n) h (h (ChorusStep.new slot n)) g.chorus.steps).filter fun c =>
        c.slot ≠ slot || n < c.step + 8 } }

/-- A step that starts finds no contributions of its own, and no row gradients combined and closed, from an earlier run of its number:
PLAN_LOAD starts the numbers anew (R81), and another plan may use the group. What other ranks have sent early stays, as does a close
that a decision of the step's group has brought about (R131). -/
def State.openChorus (s : State) (f plan n : Nat) : State :=
  match (s.func f).plans.getD plan none with
  | some p => s.modFunc f fun g =>
    let steps := g.chorus.steps.filter fun c => !(c.slot = p.group && c.step = n && c.formed)
    let decided := steps.any fun c => c.slot = p.group && c.step = n && c.mask.isSome
    { g with
      chorus := { g.chorus with steps := steps }
      combines := g.combines.filter fun c => !(c.step = n && c.closed && !decided) }
  | none => s

/-! ## Sending -/

/-- The die of a rank that owns a shard (R256). -/
def State.shardDie (s : State) (gr : Group) (j : Nat) : Nat := if s.quad then 0 else j / gr.ranks % 4

/-- A die of this function that is in service: the one given, or its partner (R256). -/
def State.liveDie (s : State) (f d : Nat) : Nat := let p := s.physDie f d; if s.up p then p else p ^^^ 2

/-- The die that a message to a rank leaves from: the die that forms or owns the shard for a contribution, a result, an ACK and a
segment contribution, the lead die for the others (log 46). -/
def State.chorusDie (s : State) (f : Nat) (gr : Group) (m : ChorusMsg) : Nat :=
  if m.kind = 0 || m.kind = 1 || m.kind = 4 || m.kind = 7 then s.liveDie f (s.shardDie gr m.shard) else (s.upDies f).headD 0

/-- Send a message to a rank; this rank's own go over its links. -/
def State.sendRank (s : State) (f : Nat) (gr : Group) (r die : Nat) (m : ChorusMsg) : State :=
  if r = gr.me then s.sendLocal f (s.chorusDie f gr m) (s.liveDie f die) (.chorus m)
  else s.send f (s.chorusDie f gr m) (gr.members.getD r 0) die (.chorus m)

/-- Send to every member (R262, R268, R275). -/
def State.sendAll (s : State) (f : Nat) (gr : Group) (m : ChorusMsg) : State :=
  (List.range gr.ranks).foldl (fun s r => s.sendRank f gr r 0 m) s

/-- Send one of this rank's contributions to where it is added. -/
def State.sendOwn (s : State) (f : Nat) (gr : Group) (m : ChorusMsg) : State :=
  match gr.target m.shard with
  | some r => (s.cntMod f 3).sendRank f gr r (s.shardDie gr m.shard) m
  | none => s

/-! ## Forming contributions (R255, R257, R269, R272) -/

/-- A wire value widened, divided by 2^CEXP in F16. Exact. -/
def wireValue (fmt : Nat) (cexp : Int) (v : Nat) : F32 :=
  if fmt = 2 then
    match Fmt.fp16.decode v with
    | .fin n m e => mk32 (Fmt.fp32.roundInt n (sgnd n m) (e - cexp) 1).1
    | _ => widen Fmt.fp16 v
  else widen Fmt.bf16 v

/-- One rounding of a pair to the wire format (R257). -/
def wireRound (fmt : Nat) (cexp : Int) (p : Pair) : N Nat :=
  if fmt = 2 then pairRoundScaled Fmt.fp16 p cexp 1 else pairRoundScaled Fmt.bf16 p 0 1

def wireFmt (fmt : Nat) : Fmt := if fmt = 2 then Fmt.fp16 else Fmt.bf16

/-- A Tier A block (R272): its 36 bytes, the decoded values, and the new error memory. -/
def tierABlock (vs es : List F32) : N (List Byte × List F32) := do
  let n := vs.length
  let scale := mk32 (← pairRoundScaled Fmt.fp32 (← treeSum (vs.map fun v => (abs32 v, zero32))) 0 n)
  let bits := vs.map fun v => bit v.toNat 31
  let ds := bits.map fun b => if b then neg32 scale else scale
  let es' ← if vs.all isFin32 && isFin32 scale then (vs.zip ds).mapM fun (v, d) => fsub v d else pure es
  let mask := maskOf ((List.range n).filter fun i => bits.getD i false)
  return (leBytes 32 mask ++ leBytes 4 scale.toNat, es')

/-- The decoded values of a Tier A payload. -/
def tierADecode (n : Nat) (b : List Byte) : List F32 :=
  (List.range n).map fun i =>
    let o := i / 256 * 36
    let scale := mk32 (at' b (o + 32) 4)
    if bit (at' b (o + i % 256 / 8) 1) (i % 8) then neg32 scale else scale

def memAt (l : List (Nat × F32)) (j i : Nat) : F32 := (SMap.find (shardElems * j + i) l).getD zero32
def memPut (l : List (Nat × F32)) (j : Nat) (vs : List F32) : List (Nat × F32) :=
  vs.zipIdx.foldl (fun l (v, i) => SMap.insert (shardElems * j + i) v l) l

/-- What forming a shard's contribution gives: format code, payload, whether a value is non-finite, the error memory. -/
structure Formed where
  fmt : Nat
  payload : List Byte
  nf : Bool
  err : List (Nat × F32)

/-- Form the contribution of a shard from the weight-gradient pairs, the carried values after them (R241, R257, R269, R272). -/
def formShard (gr : Group) (p : Plan) (w : List (Nat × F32 × F32)) (carried : Option Carried) (j : Nat) (sh : Shard) :
    N Formed := do
  let e := p.pg sh.group
  let pairs ← (List.range sh.n).mapM fun i => do
    let q := (SMap.find (e.hi + 2 * (sh.first + i)) w).getD Pair.empty
    match carried with
    | some c => node q (c.values.getD i zero32, zero32)
    | none => return q
  if gr.tierA then
    let vs ← pairs.zipIdx.mapM fun (q, i) => do fadd (mk32 (← pairRoundScaled Fmt.fp32 q 0 1)) (memAt p.errMem j i)
    let es := (List.range sh.n).map (memAt p.errMem j)
    let bs ← ((chunks 256 sh.n vs).zip (chunks 256 sh.n es)).mapM fun (v, m) => tierABlock v m
    return ⟨0xA, bs.flatMap (·.1), !vs.all isFin32, memPut p.errMem j (bs.flatMap (·.2))⟩
  else
    let vs ← pairs.mapM (wireRound gr.fmt e.cexp)
    return ⟨gr.fmt, vs.flatMap (leBytes 2), vs.any (Fmt.nonFinite (wireFmt gr.fmt)), p.errMem⟩

/-- Values that a late rank carries: those of its contribution (R269). -/
def carriedOf (slot plan : Nat) (p : Plan) (m : ChorusMsg) : Carried :=
  ⟨slot, plan, m.step, m.shard, if m.fmt = 0xA then tierADecode m.elems m.payload
    else (natsOf 2 m.elems m.payload).map (wireValue m.fmt (p.pg m.pgroup).cexp)⟩

/-- Whether a step of the active plan is in work and its plan names a group. -/
def Func.runs (g : Func) (slot : Nat) : Bool :=
  match g.activePlan, g.cur with
  | some (_, p), some _ => p.group = slot
  | _, _ => false

/-- The slot of the plan whose shards and memories a group uses: the active one, else the first loaded one that names the group. -/
def Func.planSlot (g : Func) (slot : Nat) : Option Nat :=
  let first := (List.range 16).find? fun i => match g.plans.getD i none with | some p => p.group = slot | none => false
  match g.activePlan, g.accepted with
  | some (_, p), (i, _) :: _ => if p.group = slot then some i else first
  | _, _ => first

/-- Whether this rank knows that its CFG_SUM differs from the coordinator's: it holds the coordinator's mark, as the deputy, or the
coordinator is a function of this module. No message tells another rank why the mask leaves it out (DESIGN CHOICE, log 80). -/
def State.cfgOut (s : State) (gr : Group) (c : ChorusStep) : Bool :=
  match gr.coordinator with
  | none => false
  | some r =>
    (c.marks.any fun k => k.rank = r && k.cfgSum ≠ gr.cfgSum) ||
      match s.endpointOf (gr.members.getD r 0) with
      | none => false
      | some h =>
        match (s.func h).slotOfTag gr.tag with
        | none => false
        | some i => match (s.func h).groups.getD i none with | some x => x.cfgSum ≠ gr.cfgSum | none => false

/-- A rank outside the mask keeps its contributions to carry, or drops them (R269); none is carried for a rank whose CFG_SUM differs
(R254). -/
def State.latePolicy (s : State) (f slot plan n : Nat) (gr : Group) (p : Plan) : State :=
  let c := (s.func f).chorusStep slot n
  if gr.lateDrop then s.cntMod f 7 c.own.length
  else if s.cfgOut gr c then s
  else (s.cntMod f 6 c.own.length).modFunc f fun g =>
    { g with chorus := { g.chorus with carried := g.chorus.carried ++ c.own.map (carriedOf slot plan p) } }

/-- Whether any message this rank sent for the step carried NF (R258). -/
def Func.sentNf (g : Func) (c : ChorusStep) : Bool :=
  c.own.any (·.nf) || g.keptGrads.any fun x => x.2.step = c.step && x.2.nf

/-- Send the SENT mark to coordinator and deputy once every contribution is acknowledged (R259). -/
def State.trySent (s : State) (f slot n : Nat) : State :=
  let g := s.func f
  match g.groups.getD slot none with
  | none => s
  | some gr =>
    let c := g.chorusStep slot n
    if !c.formed || c.sentOwn || !(c.own.all fun m => c.acked.contains m.shard) then s
    else
      let m := { gr.msg 2 0 n with nf := g.sentNf c, maskSum := gr.cfgSum }
      let s := s.modChorus f slot n fun c => { c with sentOwn := true }
      (gr.coordinator.toList ++ gr.deputy.toList).eraseDups.foldl (fun s r => s.sendRank f gr r 0 m) s

/-- The start of R (R255 to R259): every contribution is formed and sent. -/
def State.startReduce (s : State) (f : Nat) : State :=
  let g := s.func f
  match g.activePlan, g.cur with
  | some (slot, p), some st =>
    match g.groups.getD p.group none with
    | none => s
    | some gr =>
      let carried := g.chorus.carried.filter fun c => c.slot = p.group && c.plan = slot && c.step + 1 = st.n
      let s := s.modFunc f fun g => { g with chorus := { g.chorus with carried := g.chorus.carried.filter fun c => c.slot ≠ p.group } }
      let s := s.modChorus f p.group st.n id
      let s := (p.liveShards st.frozen).foldl (fun s (j, sh) =>
        let pl := ((s.func f).plans.getD slot none).getD p
        let c := carried.find? fun c => c.shard = j
        let (r, s) := s.calc (.chorus f) f false (formShard gr pl st.wgrads c j sh)
        let m := { gr.msg 0 r.fmt st.n with
          nf := r.nf, carry := c.isSome, shard := j, elems := sh.n, pgroup := sh.group
          checksum := payloadSum r.fmt r.payload, payload := r.payload }
        let s := s.modFunc f fun g => { g with plans := g.plans.set slot (some { pl with errMem := r.err }) }
        (s.modChorus f p.group st.n fun c => { c with own := c.own ++ [m] }).sendOwn f gr m) s
      let s := s.modChorus f p.group st.n fun c => { c with formed := true }
      let c := (s.func f).chorusStep p.group st.n
      let s := match c.mask with
        | some m => if maskHas m gr.me || m.skip then s else s.latePolicy f p.group slot st.n gr p
        | none => s
      s.trySent f p.group st.n
  | _, _ => s

/-! ## Contributions at owners (R259, R265) -/

/-- The checksum of an incoming payload agrees with its header. -/
def chorusSound (m : ChorusMsg) : Bool := payloadSum m.fmt m.payload = m.checksum

/-- Hold a contribution, in place of an earlier copy. -/
def holdIn (l : List Contribution) (seg : Bool) (m : ChorusMsg) : List Contribution :=
  upsert (fun x => x.seg = seg && x.msg.rank = m.rank && x.msg.shard = m.shard) (fun _ => ⟨seg, m⟩) ⟨seg, m⟩ l

/-- The rank that a segment contribution came from: its segment's owner for the shard. -/
def Group.sender (gr : Group) (seg : Bool) (m : ChorusMsg) : Option Nat :=
  if seg then gr.segOwner m.rank m.shard else some m.rank

/-- A slot waits no longer (CHO_STAT.WAITING). -/
def State.heard (s : State) (f slot : Nat) : State :=
  s.modFunc f fun g => { g with groups := modNth (fun x => x.map (fun gr => { gr with waiting := false })) slot g.groups }

/-- The control core that handles a function's Chorus messages is stopped, and they queue at the die (Table 17.4). Which cluster serves
which rank or shard is not stated; the first in service of the first die serves all of them (DESIGN CHOICE, log 71). -/
def State.chorusStops (s : State) (f : Nat) : Bool :=
  let d := ((List.range 4).filter fun d => s.up d && s.fnOf d = f).headD f
  match (List.range 20).find? (s.cluUp d) with
  | some c => s.procStops (.control d c)
  | none => false

/-- A control core handles a mark, a MASK or an acknowledgement, which is work of the protected domain (R336). -/
def State.handle (s : State) (f : Nat) : State := s.protect (((List.range 4).filter fun d => s.up d && s.fnOf d = f).headD f)

/-- R259, R265: a positive acknowledgement is noted; with NACK the contribution goes out again. -/
def execAck (f : Nat) (m : ChorusMsg) (s : State) : Done :=
  if !s.comes f (.chorus m) || s.chorusStops f then .next s else
  let s := (s.take f (.chorus m)).1.handle f
  let g := s.func f
  match g.slotOfTag m.groupTag with
  | none => .next s
  | some slot =>
    let s := s.heard f slot
    match g.groups.getD slot none with
    | none => .next s
    | some gr =>
      let c := g.chorusStep slot m.step
      match c.own.find? fun x => x.shard = m.shard && gr.target m.shard = some m.rank, c.segSent.find? fun x => x.shard = m.shard with
      | some x, _ =>
        if m.nack then .next (if c.stopped then s else s.sendOwn f gr { x with resend := true })
        else .next ((s.modChorus f slot m.step fun c => { c with acked := c.acked ++ [m.shard] }).trySent f slot m.step)
      | none, some x =>
        if m.nack then
          match gr.owner m.shard with
          | some r => .next ((s.cntMod f 3).sendRank f gr r (s.shardDie gr m.shard) { x with resend := true })
          | none => .next s
        else .next s
      | none, none => .next s

/-! ## The decision (R266 to R268) -/

/-- The mask as 2,048 bytes (R88). -/
def maskBytes (ranks : List Nat) : List Byte := leBytes 2048 (maskOf ranks)

/-- Every member counts exclusions in a row, by the masks it adopts, so that the count stands when the coordinator changes; the
coordinator names a rank that reaches MISS_NOTIFY (R276). -/
def State.countMisses (s : State) (f slot : Nat) (gr : Group) (mask : ChorusMsg) : State :=
  let old (r : Nat) : Nat := (gr.misses.lookup r).getD 0
  let new := (gr.present.filter fun r => !maskHas mask r).map fun r => (r, old r + 1)
  let s := s.modFunc f fun g => { g with groups := modNth (fun x => x.map fun gr => { gr with misses := new }) slot g.groups }
  let k := (s.func f).chorus.missNotify
  new.foldl (fun s (r, n) => if gr.coordinator = some gr.me && k ≠ 0 && n = k then s.emitTo [f] 15 5 r slot 3 else s) s

/-- Decide a step from the marks held (R254, R267) and send the MASK to the deputy (R268). -/
def State.chorusDecide (s : State) (f slot n : Nat) : State :=
  let g := s.func f
  match g.groups.getD slot none with
  | none => s
  | some gr =>
    let c := g.chorusStep slot n
    let marks := c.marks.filter fun k => gr.isIn k.rank && k.cfgSum = gr.cfgSum && !(k.nf && gr.dropRank)
    let ranks := marks.map (·.rank)
    let bytes := maskBytes ranks
    let m := { gr.msg 3 0 n with
      skip := ranks.isEmpty || (!gr.dropRank && marks.any (·.nf)), participating := ranks.length
      maskSum := checksum (wordsOf bytes), checksum := checksum (wordsOf bytes), payload := bytes }
    let s := s.modChorus f slot n fun c => { c with decided := some m, window := false }
    match gr.deputy with
    | some r => s.sendRank f gr r 0 m
    | none => s

/-- Decide when a mark of every member that has not been evicted is held (R267). -/
def State.tryDecide (s : State) (f slot n : Nat) : State :=
  let g := s.func f
  match g.groups.getD slot none with
  | none => s
  | some gr =>
    let c := g.chorusStep slot n
    if gr.coordinator = some gr.me && c.decided.isNone && c.mask.isNone && !c.marks.isEmpty &&
        gr.present.all (fun r => c.marks.any fun k => k.rank = r) then s.chorusDecide f slot n
    else s

/-- A mark whose CFG_SUM differs is counted and its rank named (R254). -/
def State.cfgCheck (s : State) (f slot : Nat) (gr : Group) (k : Mark) : State :=
  if k.cfgSum = gr.cfgSum then s else (s.cntMod f 11).emitTo [f] 15 5 k.rank slot 1

/-- R254, R267: a SENT mark at the coordinator or the deputy. -/
def execSent (f : Nat) (m : ChorusMsg) (s : State) : Done :=
  if !s.comes f (.chorus m) || s.chorusStops f then .next s else
  let s := (s.take f (.chorus m)).1.handle f
  let g := s.func f
  match g.slotOfTag m.groupTag with
  | none => .next s
  | some slot =>
    match g.groups.getD slot none with
    | none => .next s
    | some gr =>
      let c := g.chorusStep slot m.step
      let coord := gr.coordinator = some gr.me
      if !(coord || gr.deputy = some gr.me) || !gr.isIn m.rank || c.decided.isSome || c.mask.isSome ||
          c.marks.any (fun k => k.rank = m.rank) then .next s
      else
        let k : Mark := ⟨m.rank, m.nf, m.maskSum⟩
        let s := s.modChorus f slot m.step fun c => { c with marks := c.marks ++ [k], window := coord }
        .next (if coord then (s.cfgCheck f slot gr k).tryDecide f slot m.step else s)

/-- R267: the window of the oldest step that has one open elapses at the coordinator. -/
def execChorusWindowExpire (f : Nat) (s : State) : Done :=
  let open' := (s.func f).chorus.steps.filter fun c => c.window && c.decided.isNone && c.mask.isNone
  match leastBy (fun (a b : ChorusStep) => a.step < b.step) open' with
  | some c => .next (s.chorusDecide f c.slot c.step)
  | none => .next s

/-! ## Segment owners (R271 to R273) -/

/-- Segment contributions of Tier B (R273): the kept entries' payload and the new remainder memory. -/
def tierBForm (fmt : Nat) (cexp : Int) (lg : Nat) (vs ms : List F32) : N (List Byte × List F32) := do
  let K := max 1 (vs.length / 2 ^ lg)
  let mag (v : F32) : Nat := (abs32 v).toNat
  let kept := sortBy (fun (a b : Nat) => a < b)
    ((sortBy (fun (a b : F32 × Nat) => mag b.1 < mag a.1 || (mag a.1 = mag b.1 && a.2 < b.2)) vs.zipIdx).take K |>.map (·.2))
  let ws ← kept.mapM fun i => wireRound fmt cexp (vs.getD i zero32, zero32)
  let ms' ← vs.zipIdx.mapM fun (v, i) => do
    if !isFin32 v then return ms.getD i zero32
    match (kept.zip ws).lookup i with
    | some w => fsub v (wireValue fmt cexp w)
    | none => return v
  return ((kept.zip ws).flatMap fun (i, w) => leBytes 2 i ++ leBytes 2 w, ms')

/-- The wire values of a segment contribution: absent entries of Tier B are zero (R273). -/
def segValues (m : ChorusMsg) : List Nat :=
  if m.fmt = 0xB then
    let es := (chunks 4 (m.payload.length / 4 + 1) m.payload).map fun b => (at' b 0 2, at' b 2 2)
    (List.range m.elems).map fun i => (es.lookup i).getD 0
  else natsOf 2 m.elems m.payload

/-- The sum of wire contributions in FP32 by R260 or R261. -/
def addWire (fmt : Nat) (cexp : Int) (cs : List (List Nat)) (n : Nat) : N (List F32) :=
  (List.range n).mapM fun i => once do
    if fmt = 2 then return mk32 (← Xa.readout Fmt.fp32 (-cexp) 1 (cs.foldl (fun x c => x.add (c.getD i 0)) Xa.empty))
    else pairRound32 (← chain (cs.map fun c => (widen Fmt.bf16 (c.getD i 0), zero32)))

/-- A segment's sum in the form it is sent in: format code, payload and the remainder memory. -/
def formSegment (gr : Group) (p : Plan) (j n g : Nat) (ms : List ChorusMsg) : N Formed := do
  let cexp := (p.pg g).cexp
  let code := if gr.tierB then 0xB else gr.fmt
  if ms.isEmpty then
    let K := max 1 (n / 2 ^ gr.tierbLog2)
    return ⟨code, if gr.tierB then (List.range K).flatMap (fun i => leBytes 2 i ++ zeros 2) else zeros (2 * n), false, p.remMem⟩
  else
    let s ← if gr.tierA then (List.range n).mapM fun i => once do
        pairRound32 (← chain (ms.map fun m => ((tierADecode n m.payload).getD i zero32, zero32)))
      else addWire gr.fmt cexp (ms.map fun m => natsOf 2 n m.payload) n
    if gr.tierB then
      let rem := (List.range n).map (memAt p.remMem j)
      let vs ← (s.zip rem).mapM fun (a, b) => fadd a b
      let (b, rem') ← tierBForm gr.fmt cexp gr.tierbLog2 vs rem
      return ⟨code, b, !vs.all isFin32, memPut p.remMem j rem'⟩
    else
      let ws ← s.mapM fun v => wireRound gr.fmt cexp (v, zero32)
      return ⟨code, ws.flatMap (leBytes 2), ws.any (Fmt.nonFinite (wireFmt gr.fmt)), p.remMem⟩

/-- Freeze bits as B1 of step `n` reads them (R251, R284), and the groups frozen in it. -/
def Plan.readFreezes (p : Plan) (n : Nat) : Plan × List Nat :=
  let due := sortBy (fun (a b : Nat × Nat × Bool) => a.1 < b.1) (p.freezes.filter fun x => x.1 ≤ n)
  let groups := due.foldl (fun gs (_, g, b) => modNth (fun (x : GroupState) => { x with frozen := b }) g gs) p.groups
  ({ p with groups := groups, freezes := p.freezes.filter fun x => n < x.1, b1Begun := some n },
    (List.range groups.length).filter fun g => (groups.getD g default).frozen)

/-- The groups that are frozen in a step, as the step in work or its plan's freeze bits say. -/
def Func.frozenIn (g : Func) (p : Plan) (n : Nat) : List Nat :=
  match g.cur with
  | some st => if st.n = n && phaseNo .b1 ≤ phaseNo st.phase then st.frozen else (p.readFreezes n).2
  | none => (p.readFreezes n).2

/-- The shards of a step that this module knows: its plan's, whether or not it runs the step itself, and those of messages it holds. -/
def Func.stepShards (g : Func) (slot : Nat) (c : ChorusStep) : List (Nat × Nat × Nat) :=
  let mine := match g.planOfGroup slot with
    | some p => (p.liveShards (g.frozenIn p c.step)).map fun (j, sh) => (j, sh.n, sh.group)
    | none => []
  sortBy (fun (a b : Nat × Nat × Nat) => a.1 < b.1)
    (mine ++ (c.held.map fun x => (x.msg.shard, x.msg.elems, x.msg.pgroup))).eraseDups

/-- Add and pass on the shards of which this rank is its segment's owner (R271). -/
def State.segmentWork (s : State) (f slot n : Nat) (only : Nat → Bool) : State :=
  let g := s.func f
  match g.groups.getD slot none, g.planSlot slot with
  | some gr, some ps =>
    let c := g.chorusStep slot n
    match c.mask with
    | none => s
    | some mask =>
      if !gr.compressed || mask.skip then s
      else
        let k := gr.segOf gr.me
        let todo := (g.stepShards slot c).filter fun (j, _, _) =>
          only j && gr.segOwner k j = some gr.me && !c.segSent.any fun x => x.shard = j
        todo.foldl (fun s (j, n', pg) =>
          let ms := sortBy (fun (a b : ChorusMsg) => a.rank < b.rank)
            ((c.held.filter fun x => !x.seg && x.msg.shard = j && maskHas mask x.msg.rank && gr.segOf x.msg.rank = k).map (·.msg))
          let want := (gr.segMembers k).filter (maskHas mask)
          if ms.length < want.length then s
          else
            let p := ((s.func f).plans.getD ps none).getD default
            let (r, s) := s.calc (.chorus f) f false (formSegment gr p j n' pg ms)
            let m := { gr.msg 7 r.fmt n with
              rank := k, nf := r.nf || ms.any (·.nf), shard := j, elems := n', pgroup := pg
              checksum := payloadSum r.fmt r.payload, payload := r.payload }
            let s := ((s.cntMod f 4 ms.length).protect (s.liveDie f (s.shardDie gr j))).modFunc f fun g => { g with plans := g.plans.set ps (some { p with remMem := r.err }) }
            let s := s.modChorus f slot n fun c => { c with segSent := c.segSent ++ [m] }
            match gr.owner j with
            | some o => (s.cntMod f 3).sendRank f gr o (s.shardDie gr j) m
            | none => s) s
  | _, _ => s

/-! ### Arrival at owners and segment owners (R259, R265, R271) -/

/-- The codes of Table 11.2 that the FMT of a contribution, or of a segment contribution, accepts. -/
def wireCodeOk (seg : Bool) (fmt : Nat) : Bool := fmt = 1 || fmt = 2 || fmt = (if seg then 0xB else 0xA)

/-- The code in which a group's contributions and segment contributions travel (R253, R272, R273). -/
def Group.wireCode (gr : Group) (seg : Bool) : Nat :=
  if seg then (if gr.tierB then 0xB else gr.fmt) else if gr.tierA then 0xA else gr.fmt

/-- A contribution or segment contribution arrives: it is checked, acknowledged and held; one that the mask excludes is
discarded (R259, R265, R269). One that comes again after the mask lets its segment's sum be made (R271, R275, R277). One whose FMT no
contribution has is malformed (R36), and is taken with no further effect; one whose FMT is not that of the group here comes from a rank
with another CFG_SUM, which R254 takes as absent, and is not held (DESIGN CHOICE, log 22). -/
def State.contribIn (s : State) (f : Nat) (seg : Bool) (m : ChorusMsg) : State :=
  let (s, _) := s.take f (.chorus m)
  let g := s.func f
  match g.slotOfTag m.groupTag with
  | none => s
  | some slot =>
    match g.groups.getD slot none with
    | none => s
    | some gr =>
      if !wireCodeOk seg m.fmt then s else
      let ok := chorusSound m
      let s := if ok then s else (s.cntMod f 8).note (s.witness (s.liveDie f (s.shardDie gr m.shard))) 7 3 0 1
      let c := g.chorusStep slot m.step
      let out := !seg && (match c.mask with | some k => !maskHas k m.rank | none => false)
      let done := (c.broadcast.any fun b => b.shard = m.shard) || m.fmt ≠ gr.wireCode seg
      let s := if ok && out then s.cntMod f 5
        else if ok && !done then s.modChorus f slot m.step fun c => { c with held := holdIn c.held seg m }
        else s
      let s := match gr.sender seg m with
        | some r => (s.handle f).sendRank f gr r 0 { gr.msg 4 0 m.step with nack := !ok, subject := r, shard := m.shard, pgroup := m.pgroup }
        | none => s
      if seg then s else s.segmentWork f slot m.step (· = m.shard)

def execChorusContribution (f : Nat) (m : ChorusMsg) (s : State) : Done := .next (s.contribIn f false { m with kind := 0 })

/-- R271. -/
def execSegmentContribution (f : Nat) (m : ChorusMsg) (s : State) : Done := .next (s.contribIn f true { m with kind := 7 })

/-! ## MASK (R268 to R270) -/

/-- The row gradients of ranks outside the mask leave their combining, and tables close without their END (R131). -/
def State.applyAbsence (s : State) (f n : Nat) : State :=
  ((s.func f).combines.filter fun c => c.step = n).foldl (fun s c =>
    match (s.func f).table c.table with
    | none => s
    | some t =>
      match t.block c.owner with
      | none => s
      | some b =>
        let ab := (s.func f).absent t n
        let s := if c.added.any fun x => ab.contains x.1 then s.restartCombine f t b n else s
        s.tryCloseAll f c.table c.owner n) s

/-- A new owner or segment owner asks every rank for the contributions of shards whose result it has not broadcast (R275). A rank
answers from what it keeps: its own contribution, or that of its segment. -/
def State.askShards (s : State) (f slot n : Nat) (gr : Group) (own seg : Nat → Bool) : State :=
  let g := s.func f
  let c := g.chorusStep slot n
  (g.stepShards slot c).foldl (fun s (j, _, pg) =>
    let m := { gr.msg 5 0 n with shard := j, pgroup := pg }
    if (own j && !c.broadcast.any (fun b => b.shard = j)) ||
        (gr.compressed && seg j && !c.segSent.any (fun x => x.shard = j)) then
      (List.range gr.ranks).foldl (fun s r => s.sendRank f gr r 0 { m with subject := r }) s
    else s) s

/-- A rank that an eviction made the owner, or the segment's owner, of a shard before the step came to it asks at the MASK for what is
missing: a marked rank's contribution had been acknowledged by the owner before (R259, R275). -/
def State.askMissing (s : State) (f slot : Nat) (gr : Group) (m : ChorusMsg) : State :=
  let c := (s.func f).chorusStep slot m.step
  let lacks (rs : List Nat) (j : Nat) : Bool :=
    (rs.filter (maskHas m)).any fun r => !c.held.any fun x => !x.seg && x.msg.shard = j && x.msg.rank = r
  if gr.evicted.isEmpty || m.skip then s
  else s.askShards f slot m.step gr
    (fun j => !gr.compressed && gr.owner j = some gr.me && lacks (List.range gr.ranks) j)
    (fun j => gr.segOwner (gr.segOf gr.me) j = some gr.me && lacks (gr.segMembers (gr.segOf gr.me)) j)

/-- A member adopts the decision of a step (R269, R270). -/
def State.adoptMask (s : State) (f slot : Nat) (gr : Group) (m : ChorusMsg) : State :=
  let g := s.func f
  let c := g.chorusStep slot m.step
  if c.mask.isSome then s
  else
    let late := c.held.filter fun x => !x.seg && !maskHas m x.msg.rank
    let s := (s.heard f slot).modChorus f slot m.step fun c =>
      { c with
        mask := some m, decided := none, window := false
        held := if m.skip then [] else c.held.filter fun x => x.seg || maskHas m x.msg.rank
        own := if m.skip then [] else c.own }
    let s := s.cntMod f 5 late.length
    let s :=
      if m.skip then
        (s.cntMod f 10).modFunc f fun g =>
          { g with chorus := { g.chorus with carried := g.chorus.carried.filter fun x => x.slot ≠ slot || m.step < x.step } }
      else if c.formed && !maskHas m gr.me then
        match g.planSlot slot, g.planOfGroup slot with
        | some i, some p => s.latePolicy f slot i m.step gr p
        | _, _ => s
      else s
    let s := s.countMisses f slot gr m
    ((s.applyAbsence f m.step).askMissing f slot gr m).segmentWork f slot m.step fun _ => true

/-- R268: the deputy relays a MASK that the coordinator sent; every member adopts the first of a step. -/
def execMask (f : Nat) (m : ChorusMsg) (s : State) : Done :=
  if !s.comes f (.chorus m) || s.chorusStops f then .next s else
  let s := (s.take f (.chorus m)).1.handle f
  let g := s.func f
  match g.slotOfTag m.groupTag with
  | none => .next s
  | some slot =>
    match g.groups.getD slot none with
    | none => .next s
    | some gr =>
      let relay := gr.deputy = some gr.me && m.rank ≠ gr.me
      let s := if relay then
          (List.range gr.ranks).foldl (fun s r => if r = gr.me then s else s.sendRank f gr r 0 { m with rank := gr.me }) s
        else s
      .next (s.adoptMask f slot gr m)

/-! ## Adding at the owner (R260 to R263) -/

/-- The contributions of a shard that the owner adds, in ascending rank or segment, when all are held. -/
def readyShard (gr : Group) (c : ChorusStep) (j : Nat) : Option (List ChorusMsg) :=
  match c.mask with
  | none => none
  | some mask =>
    let ms := sortBy (fun (a b : ChorusMsg) => a.rank < b.rank)
      ((c.held.filter fun x => x.seg = gr.compressed && x.msg.shard = j).map (·.msg))
    let want := if gr.compressed then
        (List.range gr.segments).filter fun k => (gr.segMembers k).any gr.isIn
      else (List.range gr.ranks).filter (maskHas mask)
    if mask.skip || gr.owner j ≠ some gr.me || ms.isEmpty || c.broadcast.any (fun b => b.shard = j) ||
        !want.all (fun r => ms.any fun m => m.rank = r) then none
    else some ms

/-- The squared-norm pair of elements (R263). -/
def normPair (ys : List F32) : N Pair := do chain (← ys.mapM squarePair)

/-- Add a shard and broadcast its result (R260 to R263). -/
def State.addShard (s : State) (f slot n j : Nat) (gr : Group) (mask : ChorusMsg) (ms : List ChorusMsg) : State :=
  let h := ms.headD default
  let cexp := match (s.func f).planOfGroup slot with | some p => (p.pg h.pgroup).cexp | none => 0
  let ((ys, norm), s) := s.calc (.chorus f) f false (do
    let ys ← addWire gr.fmt cexp (ms.map fun m => if gr.compressed then segValues m else natsOf 2 m.elems m.payload) h.elems
    return (ys, ← normPair ys))
  let payload := ys.flatMap fun y => leBytes 4 y.toNat
  let m := { gr.msg 1 0 n with
    nf := ms.any (·.nf), shard := j, elems := h.elems, pgroup := h.pgroup, checksum := payloadSum 0 payload
    normS := norm.1, normE := norm.2, participating := mask.participating, maskSum := mask.maskSum, payload := payload }
  let s := (s.cntMod f 4 ms.length).modChorus f slot n fun c =>
    { c with broadcast := c.broadcast ++ [m], held := c.held.filter fun x => x.msg.shard ≠ j || x.seg ≠ gr.compressed }
  s.sendAll f gr m

/-- R260 to R265: the add of a shard ends. `sumFail` says that its sum check or lane compare failed, `again` that the second add
failed too, on core `a.core`, which is then retired; the shard is added on another core. The lanes that added it answer for their residues
as for any work (R230), and the add ran in the protected domain of the owning die (R256, R336). -/
def execChorusOwnerAddDone (f shard : Nat) (sumFail again : Bool) (a : OwnerAdd) (s : State) : Done :=
  let ready := (s.func f).chorus.steps.findSome? fun c =>
    match (s.func f).groups.getD c.slot none with
    | some gr => match readyShard gr c shard, c.mask with | some ms, some k => some (c.slot, c.step, gr, k, ms) | _, _ => none
    | none => none
  match ready with
  | some (slot, n, gr, k, ms) =>
    let s := if sumFail then s.cntMod f 9 (if again then 2 else 1) else s
    let s := if !sumFail || s.fnOf (coreDie a.core) ≠ f then s
      else if again then s.retireCore a.core 7 true else s.note (coreDie a.core) 7 0 a.core 1
    .next (((s.addShard f slot n shard gr k ms).vecFail a.lanes).protect (s.liveDie f (s.shardDie gr shard)))
  | none => .next s

/-! ## Results (R262, R265) -/

/-- R262: a result is checked against the checksum and this member's mask; one that arrives before the mask waits. -/
def execChorusResult (f : Nat) (m : ChorusMsg) (s : State) : Done :=
  let g := s.func f
  match g.slotOfTag m.groupTag with
  | none => .next (s.take f (.chorus m)).1
  | some slot =>
    match g.groups.getD slot none, (g.chorusStep slot m.step).mask with
    | some gr, some k =>
      let s := ((s.take f (.chorus m)).1).heard f slot
      if payloadSum 0 m.payload = m.checksum && m.maskSum = k.maskSum then
        let put (l : List ChorusMsg) : List ChorusMsg :=
          sortBy (fun (a b : ChorusMsg) => a.shard < b.shard) (upsert (fun x => x.shard = m.shard) (fun _ => m) m l)
        .next (s.modChorus f slot m.step fun c => { c with results := put c.results })
      else
        .next (((s.cntMod f 8).note (s.witness f) 7 3 0 1).sendRank f gr m.rank (s.shardDie gr m.shard)
          { gr.msg 5 0 m.step with subject := m.rank, shard := m.shard, pgroup := m.pgroup })
    | _, _ => .next s

/-- R262, R275, R277: an owner sends a result again; a rank answers a new owner from what it keeps, whether or not the eviction has
reached it yet: a segment's owner its segment contribution, the others their own to an owner or to an owner of their segment. A rank that
DISABLE or QUENCH stopped sends none of its own (R277). -/
def execRereq (f : Nat) (m : ChorusMsg) (s : State) : Done :=
  if !s.comes f (.chorus m) || s.chorusStops f then .next s else
  let (s, _) := s.take f (.chorus m)
  let g := s.func f
  match g.slotOfTag m.groupTag with
  | none => .next s
  | some slot =>
    match g.groups.getD slot none with
    | none => .next s
    | some gr =>
      let c := g.chorusStep slot m.step
      let die := s.shardDie gr m.shard
      match c.broadcast.find? fun b => b.shard = m.shard with
      | some b => .next (s.sendRank f gr m.rank 0 b)
      | none =>
        match c.segSent.find? fun x => x.shard = m.shard with
        | some x => .next ((s.cntMod f 3).sendRank f gr m.rank die { x with resend := true })
        | none =>
          match c.own.find? fun x => x.shard = m.shard && !c.stopped && (!gr.compressed || gr.segOf m.rank = gr.segOf gr.me) with
          | some x => .next ((s.cntMod f 3).sendRank f gr m.rank die { x with resend := true })
          | none => .next s

/-! ## Eviction and silence (R275, R276) -/

/-- A member applies an eviction (R275). -/
def State.applyEvict (s : State) (f slot r : Nat) : State :=
  match (s.func f).groups.getD slot none with
  | none => s
  | some old =>
    if !old.isIn r then s
    else
      let gr := { old with evicted := old.evicted ++ [r] }
      let s := s.modFunc f fun g => { g with groups := g.groups.set slot (some gr) }
      let now := (s.func f).stepNow
      let k := gr.segOf gr.me
      let newOwner (j : Nat) : Bool := gr.owner j = some gr.me && old.owner j ≠ some gr.me
      let newSegOwner (j : Nat) : Bool := gr.segOwner k j = some gr.me && old.segOwner k j ≠ some gr.me
      let open' := (s.func f).chorus.steps.filter fun c => c.slot = slot
      let s := if (s.func f).runs slot && !open'.any (fun c => c.step = now) then s.askShards f slot now gr newOwner newSegOwner else s
      open'.foldl (fun s c =>
        let coordNow := gr.coordinator = some gr.me
        let s :=
          if c.mask.isSome then s
          else if coordNow && old.coordinator ≠ some gr.me then
            (c.marks.foldl (fun s k => if gr.isIn k.rank then s.cfgCheck f slot gr k else s) s).chorusDecide f slot c.step
          else match c.decided with
            | some m => if gr.deputy ≠ old.deputy then (match gr.deputy with | some d => s.sendRank f gr d 0 m | none => s) else s
            | none => s.tryDecide f slot c.step
        let s := if (match c.mask with | some m => m.skip | none => false) then s
          else s.askShards f slot c.step gr newOwner newSegOwner
        s.segmentWork f slot c.step fun _ => true) s

/-- R275. -/
def execEvict (f : Nat) (m : ChorusMsg) (s : State) : Done :=
  if !s.comes f (.chorus m) || s.chorusStops f then .next s else
  let (s, _) := s.take f (.chorus m)
  match (s.func f).slotOfTag m.groupTag with
  | some slot => .next (s.applyEvict f slot m.subject)
  | none => .next s

/-- R275. -/
def collEvict' (c : Submission) (s : State) : State :=
  let slot := hb c 24 1
  let r := hb c 28 2
  match (s.func c.func).groups.getD slot none with
  | none => s.single c stBadParam
  | some gr =>
    if gr.ranks ≤ r then s.single c stBadParam
    else if gr.evicted.contains r then s.single c stOk
    else if gr.present = [r] then s.single c stBadParam
    else
      let s := s.applyEvict c.func slot r
      let m := { gr.msg 6 0 (s.func c.func).stepNow with subject := r }
      ((List.range gr.ranks).foldl (fun s k => if k = gr.me then s else s.sendRank c.func gr k 0 m) s).okJ c

def execCollEvict (c : Submission) (s : State) : Done := .next (s.zcp 0x0405 c collEvict')

/-- Whether this member waits for a MASK, a result or an acknowledgement in a step. -/
def Func.chorusWaits (g : Func) (slot : Nat) (c : ChorusStep) : Bool :=
  match g.activePlan, g.cur with
  | some (_, p), some st =>
    p.group = slot && st.n = c.step && c.formed &&
      (match c.mask with
        | none => true
        | some m => !m.skip && !((p.liveShards st.frozen).all fun (j, _) => c.results.any fun x => x.shard = j))
  | _, _ => false

/-- R276: a member has waited ORPHAN_MS for a rank. -/
def execChorusOrphanTimeout (f rank : Nat) (s : State) : Done :=
  let g := s.func f
  match g.chorus.steps.find? fun c => g.chorusWaits c.slot c with
  | some c =>
    let s := s.modFunc f fun g =>
      { g with groups := modNth (fun x => x.map fun gr => { gr with waiting := true }) c.slot g.groups }
    .next ((s.cntMod f 12).emitTo [f] 15 5 rank c.slot 2)
  | none => .next s

/-! ## COLL_GROUP (R253) -/

/-- Fields of Table 11.1 out of range. -/
def Group.bad (gr : Group) : Bool :=
  7 < at' gr.params 0 1 || (gr.fmt ≠ 1 && gr.fmt ≠ 2) || (gr.tierB && (gr.tierbLog2 < 4 || 10 < gr.tierbLog2)) ||
    gr.ranks = 0 || 16384 < gr.ranks || gr.ranks ≤ gr.me || (gr.compressed && (gr.segRanks = 0 || gr.ranks < gr.segRanks))

/-- Whether the active plan names a group slot. -/
def Func.groupActive (g : Func) (slot : Nat) : Bool := match g.activePlan with | some (_, p) => p.group = slot | none => false

def collGroup' (c : Submission) (s : State) : State :=
  let f := c.func
  let gr : Group := ⟨c.params, [], [], [], false⟩
  let slot := at' c.params 0 1
  let a := at' c.params 16 8
  if c.paramLen ≠ 32 || gr.bad || !s.inMemory f a (8 * gr.ranks) then s.single c stBadParam
  else if (s.func f).groupActive slot then s.single c stBusy
  else
    let gr := { gr with members := (List.range gr.ranks).map fun i => leNat (s.devRead f (a + 8 * i) 8) }
    let s := s.modFunc f fun g =>
      { g with
        groups := g.groups.set slot (some gr)
        chorus := { g.chorus with
          steps := g.chorus.steps.filter fun x => x.slot ≠ slot
          carried := g.chorus.carried.filter fun x => x.slot ≠ slot } }
    s.okJ c [] (leBytes 4 slot)

def execCollGroup (c : Submission) (s : State) : Done := .next (s.zcp 0x0401 c collGroup')

/-- CHO_STAT. -/
def Func.choStat (g : Func) : Word :=
  let on (h : Group → Bool) : Nat :=
    maskOf ((List.range 8).filter fun i => match g.groups.getD i none with | some gr => h gr | none => false)
  let ev := match g.activePlan with
    | some (_, p) => (match g.groups.getD p.group none with | some gr => gr.evicted.contains gr.me | none => false)
    | none => false
  pack [(0, 8, on fun _ => true), (8, 8, on fun gr => gr.coordinator = some gr.me), (16, 8, on fun gr => gr.deputy = some gr.me),
    (24, 8, on (·.waiting)), (32, 1, b2n ev)]

/-- The decision and the results of the step in R are complete at this module (R270). -/
def Func.reduced (g : Func) : Bool :=
  match g.activePlan, g.cur with
  | some (_, p), some st => !g.chorusWaits p.group (g.chorusStep p.group st.n) && (g.chorusStep p.group st.n).formed
  | _, _ => false

end Sys2Proof.Machine
end

