-- ==== Sys2Proof/Machine/Program.lean ====
section
/-!
DEFINITION. Update programs (R285 to R291, R298): images, validity, and their execution on a chunk of elements.
-/
namespace Sys2Proof.Machine

/-- An instruction (Table 12.6). -/
structure UOp where
  op : Nat
  vd : Nat
  a : Nat
  b : Nat
  c : Nat
  sa : Bool
  sb : Bool
  sc : Bool
  rsv : Nat
  imm : Nat
  deriving DecidableEq, Repr

def UOp.of (w : Nat) : UOp :=
  ⟨fld w 0 8, fld w 8 4, fld w 12 4, fld w 16 4, fld w 20 4, bit w 24, bit w 25, bit w 26, fld w 27 5, fld w 32 32⟩

/-- The word of an instruction with its reserved bits 0. -/
def UOp.word (o : UOp) : Nat :=
  o.op + 2 ^ 8 * o.vd + 2 ^ 12 * o.a + 2 ^ 16 * o.b + 2 ^ 20 * o.c + 2 ^ 24 * b2n o.sa + 2 ^ 25 * b2n o.sb + 2 ^ 26 * b2n o.sc +
    2 ^ 27 * o.rsv + 2 ^ 32 * o.imm

/-- The stream, segment or block code in IMM [35:32]. -/
def UOp.code (o : UOp) : Nat := fld o.imm 0 4

def progCount (b : List Byte) : Nat := at' b 1 1
def progOps (b : List Byte) : List UOp := (List.range (progCount b)).map fun i => UOp.of (at' b (16 + 8 * i) 8)

/-- The operands an operation reads: for each, the number and whether it is a scalar (Table 12.7). -/
def UOp.reads (o : UOp) : List (Nat × Bool) :=
  let A := (o.a, o.sa)
  let B := (o.b, o.sb)
  let C := (o.c, o.sc)
  match o.op with
  | 0x01 => []
  | 0x02 | 0x08 | 0x09 | 0x0C | 0x0D | 0x10 => [A]
  | 0x06 | 0x0E | 0x12 => [A, B, C]
  | _ => [A, B]

/-! ## Validity (R289, Table 12.8) -/

/-- What the check knows before an instruction: registers written, those that depend on S3 or S4, streams stored. -/
structure Check where
  written : List Nat
  tainted : List Nat
  stored : List Nat
  bad : Option (Nat × Nat)
  deriving DecidableEq, Repr

/-- The lowest rule that an instruction breaks. -/
def UOp.breaks (o : UOp) (k : Check) : Option Nat :=
  let taint := o.reads.any fun (n, s) => if s then n = 3 || n = 4 else k.tainted.contains n
  if o.rsv ≠ 0 || ([0x01, 0x02, 0x11, 0x12].contains o.op && o.imm ≥ 16) then some 1
  else if o.op = 0 || 0x12 < o.op then some 2
  else if o.reads.any fun (n, s) => !s && !k.written.contains n then some 3
  else if (o.op = 0x01 && 5 < o.code) || (o.op = 0x02 && (o.code < 2 || 7 < o.code)) then some 4
  else if o.op = 0x02 && k.stored.contains o.code then some 5
  else if o.op = 0x02 && o.code = 7 && taint then some 6
  else if (o.op = 0x11 && 6 < o.code) || (o.op = 0x12 && (o.code = 0 || 8 < o.code)) then some 7
  else none

/-- One instruction of the check. -/
def Check.step (k : Check) (i : Nat) (o : UOp) : Check :=
  match k.bad with
  | some _ => k
  | none =>
    match o.breaks k with
    | some r => { k with bad := some (i, r) }
    | none =>
      if o.op = 0x02 then { k with stored := k.stored ++ [o.code] }
      else
        let taint := o.reads.any fun (n, s) => if s then n = 3 || n = 4 else k.tainted.contains n
        { k with
          written := o.vd :: k.written
          tainted := if taint then o.vd :: k.tainted else k.tainted.filter (· ≠ o.vd) }

/-- The first failing instruction (0xFF for the header) and its rule; a program without ST D fails rule 5 at the header (log 39). -/
def progCheck (b : List Byte) (len : Nat) : Option (Nat × Nat) :=
  let n := progCount b
  if at' b 0 1 ≠ 1 || n = 0 || 32 < n || len ≠ 16 + 8 * n || at' b 2 14 ≠ 0 then some (0xFF, 1)
  else
    let k := (progOps b).zipIdx.foldl (fun k (o, i) => Check.step k i o) ⟨[], [], [], none⟩
    match k.bad with
    | some x => some x
    | none => if k.stored.contains 6 then none else some (0xFF, 5)

/-- Scalars and streams that a program uses. -/
def progScalars (ops : List UOp) : List Nat := ops.flatMap fun o => (o.reads.filter (·.2)).map (·.1)
def progStreams (ops : List UOp) : List Nat := (ops.filter fun o => o.op = 1 || o.op = 2).map (·.code)

/-- The moments a program reads or writes. -/
def progMoments (ops : List UOp) : List Nat :=
  (List.range 4).filter fun k => (progStreams ops).contains (k + 2)

/-! ## Built-in programs (R298) -/

def uo (op vd : Nat) (a b c : Nat × Bool) (imm : Nat := 0) : UOp := ⟨op, vd, a.1, b.1, c.1, a.2, b.2, c.2, 0, imm⟩
def uv (n : Nat) : Nat × Bool := (n, false)
def us (n : Nat) : Nat × Bool := (n, true)
def u0 : Nat × Bool := (0, false)
def uLd (vd s : Nat) : UOp := uo 0x01 vd u0 u0 u0 s
def uSt (s a : Nat) : UOp := uo 0x02 0 (uv a) u0 u0 s

def sgdOps : List UOp :=
  [uLd 0 0, uo 0x05 0 (uv 0) (us 5) u0, uLd 1 2, uo 0x06 1 (uv 1) (us 8) (uv 0), uSt 2 1, uLd 2 1,
   uo 0x06 3 (uv 2) (us 9) (uv 1), uo 0x05 4 (uv 3) (us 0) u0, uSt 6 4]

/-- Instructions 0 to 19 of slot 1. -/
def adamHead : List UOp :=
  [uLd 0 0, uo 0x05 0 (uv 0) (us 5) u0, uLd 1 2, uo 0x05 2 (uv 0) (us 12) u0, uo 0x06 1 (uv 1) (us 8) (uv 2), uSt 2 1,
   uLd 3 3, uo 0x05 4 (uv 0) (uv 0) u0, uo 0x05 4 (uv 4) (us 13) u0, uo 0x06 3 (uv 3) (us 9) (uv 4), uSt 3 3,
   uo 0x04 5 (us 14) (us 6) u0, uo 0x04 6 (us 14) (us 7) u0, uo 0x07 7 (uv 1) (uv 5) u0, uo 0x07 8 (uv 3) (uv 6) u0,
   uo 0x08 8 (uv 8) u0 u0, uo 0x03 8 (uv 8) (us 10) u0, uo 0x07 9 (uv 7) (uv 8) u0, uLd 10 1,
   uo 0x06 9 (uv 10) (us 11) (uv 9)]

def adamOps : List UOp := adamHead ++ [uo 0x05 11 (uv 9) (us 0) u0, uSt 6 11]

def signOps : List UOp :=
  [uLd 0 0, uo 0x05 0 (uv 0) (us 5) u0, uLd 1 2, uo 0x05 2 (uv 0) (us 11) u0, uo 0x06 3 (uv 1) (us 8) (uv 2),
   uo 0x0D 3 (uv 3) u0 u0, uLd 4 1, uo 0x06 3 (uv 4) (us 10) (uv 3), uo 0x05 5 (uv 3) (us 0) u0, uSt 6 5,
   uo 0x05 6 (uv 0) (us 12) u0, uo 0x06 1 (uv 1) (us 9) (uv 6), uSt 2 1]

def trustOps : List UOp :=
  adamHead ++
  [uSt 7 9, uo 0x0E 11 (us 4) (us 14) (us 4), uo 0x09 11 (uv 11) u0 u0, uo 0x08 12 (us 3) u0 u0, uo 0x05 12 (uv 12) (uv 11) u0,
   uo 0x0B 13 (us 3) (us 4) u0, uo 0x0E 12 (uv 12) (us 14) (uv 13), uo 0x0F 12 (uv 12) (us 15) u0, uo 0x05 14 (uv 9) (uv 12) u0,
   uo 0x05 14 (uv 14) (us 0) u0, uSt 6 14]

/-- The operations of a built-in slot. -/
def builtinOps : Nat → List UOp
  | 0 => sgdOps
  | 1 => adamOps
  | 2 => signOps
  | _ => trustOps

/-- The program in a slot. -/
def Func.prog (g : Func) (slot : Nat) : Option (List UOp) :=
  if slot < 4 then some (builtinOps slot) else (SMap.find slot g.progs).map progOps

/-! ## Execution (R288, R290, R291) -/

/-- SGN of Table 12.7. -/
def fsgn (a : F32) : N F32 :=
  if isNan32 a then retNan
  else return if abs32 a = 0 then zero32 else if bit a.toNat 31 then neg32 one32 else one32

/-- SEL (R288). -/
def fsel (a b c : F32) : N F32 := do
  let pos := !isNan32 c && abs32 c ≠ 0 && !bit c.toNat 31
  let r := if pos then a else b
  if isNan32 r then retNan else return r

/-- The result of an operation for one element. -/
def laneOp (op imm : Nat) (a b c : F32) : N F32 :=
  match op with
  | 0x03 => fadd a b
  | 0x04 => fsub a b
  | 0x05 => fmul a b
  | 0x06 => ffma a b c
  | 0x07 => fdiv a b
  | 0x08 => fsqrt a
  | 0x09 => frsqrt a
  | 0x0A => fmax a b
  | 0x0B => fmin a b
  | 0x0C => funary abs32 a
  | 0x0D => fsgn a
  | 0x0E => fsel a b c
  | 0x0F => fclamp a b
  | _ => fscale a (sext 32 imm)

/-- DOTB on one segment (R290): one result (log 2). -/
def dotSeg (as bs : List F32) : N F32 := once ((as.zip bs).foldlM (fun t (a, b) => ffma a b t) zero32)

/-- The lower triangle of a matrix in work, by row and column. -/
abbrev Tri := List ((Nat × Nat) × F32)

def triAt (t : Tri) (i j : Nat) : F32 := (t.lookup (i, j)).getD zero32

/-- INVB on one block of b × b elements in row-major order (R291): one result (log 2). -/
def invBlock (b : Nat) (x : Nat → F32) (lam floor : Nat → F32) : N (List F32) := once do
  let a (i j : Nat) : F32 := x (i * b + j)
  let l ← (List.range b).foldlM (fun (l : Tri) j => do
    let d ← fadd (a j j) (lam (j * b + j))
    let d ← (List.range j).foldlM (fun d k => ffma (neg32 (triAt l j k)) (triAt l j k) d) d
    let fl := floor (j * b + j)
    let low := !isNan32 d && !isNan32 fl && below32 d fl
    if low then modify fun t => { t with pivot := t.pivot + 1 }
    let r ← fsqrt (if low then fl else d)
    let l := ((j, j), r) :: l
    (List.range (b - 1 - j)).foldlM (fun l k => do
      let i := j + 1 + k
      let t ← (List.range j).foldlM (fun t k => ffma (neg32 (triAt l i k)) (triAt l j k) t) (a i j)
      return ((i, j), ← fdiv t r) :: l) l) ([] : Tri)
  let m ← (List.range b).foldlM (fun (m : Tri) j => do return ((j, j), ← fdiv one32 (triAt l j j)) :: m) ([] : Tri)
  let m ← (List.range b).foldlM (fun m j => (List.range (b - 1 - j)).foldlM (fun (m : Tri) k => do
    let i := j + 1 + k
    let t ← (List.range (i - j)).foldlM (fun t k => ffma (triAt l i (j + k)) (triAt m (j + k) j) t) zero32
    return ((i, j), ← fmul (neg32 t) (triAt m i i)) :: m) m) m
  let up ← (List.range b).foldlM (fun (o : Tri) j => (List.range (j + 1)).foldlM (fun (o : Tri) i => do
    let t ← (List.range (b - j)).foldlM (fun t k => ffma (triAt m (j + k) i) (triAt m (j + k) j) t) zero32
    return ((i, j), t) :: o) o) ([] : Tri)
  return (List.range (b * b)).map fun k => let i := k / b; let j := k % b; triAt up (min i j) (max i j)

/-- DOTB on a chunk: segments of b consecutive elements. -/
def dotb (b : Nat) (as bs : List F32) : N (List F32) := do
  let r ← ((chunks b (as.length + 1) as).zip (chunks b (bs.length + 1) bs)).mapM fun (x, y) => do
    return List.replicate x.length (← dotSeg x y)
  return r.flatten

/-- The elements of a chunk of 64, of which a short chunk holds the first: those it does not hold are free values (log 39). -/
def wholeChunk (l : List F32) : N (List F32) := do
  let rest ← (List.range (64 - l.length)).mapM fun _ => do return Config.freeF32 (← nextFresh)
  return l ++ rest

/-- INVB on a chunk of `n` elements: floor(64 ÷ b²) blocks, then +0 (R291). The operands are those of a whole chunk. -/
def invb (b n : Nat) (as lam fl : List F32) : N (List F32) := do
  let k := 64 / (b * b)
  let r ← ((List.range k).filter fun j => j * b * b < n).mapM fun j =>
    let g (l : List F32) (i : Nat) : F32 := l.getD (j * b * b + i) zero32
    invBlock b (g as) (g lam) (g fl)
  return (r.flatten ++ List.replicate 64 zero32).take n

/-- Evaluate the scalar-valued instructions of a program once (R288): their values by instruction. INVB with b above 1 gives
different values to the elements of a block and is never taken as one (log 39). -/
def scalarPass (ops : List UOp) (sc : Nat → F32) : N (List (Option F32)) := do
  let (_, out) ← ops.foldlM (fun ((regs, out) : List (Nat × Option F32) × List (Option F32)) o => do
    let val (x : Nat × Bool) : Option F32 := if x.2 then some (sc x.1) else (regs.lookup x.1).getD none
    let args := o.reads.map val
    let whole := args.all (·.isSome)
    let g (i : Nat) : F32 := (args.getD i none).getD zero32
    let r : Option F32 ←
      if o.op = 0x01 || o.op = 0x02 || !whole || (o.op = 0x12 && o.code ≠ 1) then pure none
      else if o.op = 0x11 then (do
        let n := 2 ^ o.code
        pure (some (← dotSeg (List.replicate n (g 0)) (List.replicate n (g 1)))))
      else if o.op = 0x12 then (do
        let r ← invBlock 1 (fun _ => g 0) (fun _ => g 1) (fun _ => g 2)
        pure (some (r.headD zero32)))
      else (do pure (some (← laneOp o.op o.imm (g 0) (g 1) (g 2))))
    return (if o.op = 0x02 then regs else (o.vd, r) :: regs, out ++ [r])) ([], [])
  return out

/-- Run a program on a chunk of `n` elements: what it stores, by stream. `load` gives the streams. -/
def runChunk (ops : List UOp) (svals : List (Option F32)) (sc : Nat → F32) (n : Nat) (load : Nat → List F32) :
    N (List (Nat × List F32)) := do
  let (_, out) ← (ops.zip svals).foldlM (fun ((regs, out) : List (Nat × List F32) × List (Nat × List F32)) (o, sv) => do
    let val (x : Nat × Bool) : List F32 := if x.2 then List.replicate n (sc x.1) else (regs.lookup x.1).getD []
    let args := o.reads.map val
    let g (i : Nat) : List F32 := args.getD i []
    let e (k i : Nat) : F32 := (g k).getD i zero32
    let whole (k : Nat) : N (List F32) :=
      if (o.reads.getD k (0, false)).2 then pure (List.replicate 64 (e k 0)) else wholeChunk (g k)
    if o.op = 0x02 then return (regs, out ++ [(o.code, (g 0).take n)])
    let r ← match sv with
      | some v => pure (List.replicate 64 v)
      | none =>
        if o.op = 0x01 then pure (load o.code)
        else if o.op = 0x11 then dotb (2 ^ o.code) ((g 0).take n) ((g 1).take n)
        else if o.op = 0x12 then (do invb o.code n (← whole 0) (← whole 1) (← whole 2))
        else (List.range n).mapM fun i => laneOp o.op o.imm (e 0 i) (e 1 i) (e 2 i)
    return ((o.vd, r) :: regs, out)) ([], [])
  return out

end Sys2Proof.Machine
end

