-- ==== Sys2Proof/Machine/Chanter.lean ====
section
/-!
DEFINITION. Chanter (chapter 12): update programs, step sizes and freeze bits, phase U with its commit, norms and exponents, and
the care of training state under Twin (R245 to R250).
-/
namespace Sys2Proof.Machine

/-! ## Training state and its mirrors (R247 to R249) -/

/-- Where the memory of the die of a device address ends (R305). -/
def dieEnd (a : Nat) : Nat :=
  if a < dramBase 4 then (a / dramBase 1 + 1) * dramBase 1
  else if tier2Base 0 ≤ a && a < tier2Base 4 then tier2Base ((a - tier2Base 0) / 0x6000000000 + 1)
  else a + apSpan

/-- A run of memory in the pieces that lie on one die each. -/
def diePieces : (fuel a n : Nat) → List (Nat × Nat)
  | 0, a, n => [(a, n)]
  | k + 1, a, n => if a + n ≤ dieEnd a then [(a, n)] else (a, dieEnd a - a) :: diePieces k (dieEnd a) (a + n - dieEnd a)

/-- The runs of memory, each on one die, that a plan's dense groups keep training state in: address, bytes, bytes an element, the group,
and whether it is the high halves. -/
def Plan.stateRuns (p : Plan) : List (Nat × Nat × Nat × Nat × Bool) :=
  (List.range p.pgroups.length).flatMap fun g =>
    let e := p.pg g
    if e.kind ≠ 0 then []
    else
      let runs := [(e.hi, 2 * e.elems, 2, g, true), (e.res, 2 * e.elems, 2, g, false)] ++
        (List.range 4).filterMap fun k => if e.moment k = 0 then none else some (e.moment k, 4 * e.elems, 4, g, false)
      runs.flatMap fun (a, n, x) => (diePieces 8 a n).map fun (b, m) => (b, m, x)

/-- The copies of `n` bytes of training state at a key that stand: its own place unless its die is removed, then its mirrors. -/
def State.copies (s : State) (k n : Nat) : List Nat :=
  let own : List Nat := match keyDie k with | some d => if s.up d then [k] else [] | none => [k]
  own ++ s.mirrorMap.filterMap fun (b, len, m) => if b ≤ k && k + n ≤ b + len then some (m + (k - b)) else none

/-- Whether `n` bytes of training state at a key lie in a line of which, among the uncorrectable lines, no copy is intact. -/
def State.lostAt (s : State) (bad : List Nat) (k n l : Nat) : Bool :=
  let cs := s.copies k n
  (cs.any fun c => l < c + n && c < l + 64) && cs.all fun c => badIn bad c n

/-- What an uncorrectable line holds of one run of training state: repaired from an intact copy, or lost, when its elements read
the canonical NaN; the high half stands for its residue, and an element that both halves lose is counted once (R249). `bad` are the lines
that were uncorrectable when the read met this one. -/
def State.twinRun (s : State) (bad : List Nat) (l f : Nat) (p : Plan) (x : Nat × Nat × Nat × Nat × Bool) : State :=
  let (a, n, w, g, high) := x
  match s.key f a with
  | none => s
  | some k =>
    let cs := s.copies k n
    match cs.find? fun c => l < c + n && c < l + 64 with
    | none => s
    | some c =>
      let lo := max c l - c
      let hi := min (c + n) (l + 64) - c
      let elems := (hi - lo) / w
      let d := (keyDie c).getD 0
      match cs.find? fun o => o ≠ c && !badIn bad (o + lo) (hi - lo) with
      | some o => (s.poke (c + lo) (Mem.read s.mem (o + lo) (hi - lo))).cntDie d 22 elems
      | none =>
        let e := p.pg g
        let hk := (s.key f (if high || w = 4 then a else e.hi + (a - e.res))).getD k
        let twice := if high || w = 4 then 0 else ((List.range elems).filter fun i => s.lostAt bad (hk + lo + 2 * i) 2 l).length
        let s := if w = 4 then s.store (k + lo) ((List.range elems).flatMap fun _ => leBytes 4 0x7FC00000)
          else
            let r := if high then s else s.store (k + lo) (zeros (hi - lo))
            r.store (hk + lo) ((List.range elems).flatMap fun _ => leBytes 2 0x7FC0)
        if elems = twice then s
        else
          let (_, s) := s.calc (.chanter d) f false (modify fun t => { t with nf := t.nf + (elems - twice) })
          (s.cntDie d 23 (elems - twice)).emit d 6 g (elems - twice) 1

/-- The runs of training state of loaded plans that a line holds, in whichever copy: function, plan and run. Two plans that keep the same
run hold it once. -/
def State.trainingAt (s : State) (l : Nat) : List (Nat × Plan × (Nat × Nat × Nat × Nat × Bool)) :=
  let all := (List.range 4).flatMap fun f => (s.func f).plans.flatMap fun p =>
    match p with
    | none => []
    | some p => p.stateRuns.filterMap fun x =>
      match s.key f x.1 with
      | some k => if (s.copies k x.2.1).any fun c => l < c + x.2.1 && c < l + 64 then some (f, p, x) else none
      | none => none
  all.foldl (fun acc y => if acc.any (fun z => z.1 = y.1 && z.2.2.1 = y.2.2.1) then acc else acc ++ [y]) []

/-- An uncorrectable line of training state: every run in it is repaired or lost (R249). -/
def State.twinLine (s : State) (l : Nat) : State :=
  let bad := s.badLines
  (s.trainingAt l).foldl (fun s (f, p, x) => s.twinRun bad l f p x) s

/-- Check the training state of the active plan before a phase reads it. -/
def State.twinCheck (s : State) (f : Nat) : State :=
  match (s.func f).activePlan with
  | none => s
  | some (_, p) =>
    if s.badLines.isEmpty then s
    else p.stateRuns.foldl (fun s x =>
      match s.key f x.1 with
      | some k =>
        match (s.copies k x.2.1).head? with
        | some c => (s.badLines.filter fun l => l < c + x.2.1 && c < l + 64).foldl (fun s l => s.twinLine l) s
        | none => s
      | none => s) s

/-- A host write to device memory: the carried norms of the groups whose high halves it touches become invalid (R296). -/
def State.hostWrite (s : State) (f a : Nat) (bs : List Byte) : State :=
  let n := bs.length
  let touch (p : Plan) : Plan :=
    { p with groups := p.groups.zipIdx.map fun (gs, g) =>
        let e := p.pg g
        if e.kind = 0 && a < e.hi + 2 * e.elems && e.hi < a + n then { gs with normsValid := false } else gs }
  (s.devWrite f a bs).modFunc f fun g => { g with plans := g.plans.map fun p => p.map touch }

/-! ## Commands of the chapter -/

/-- Whether the active plan has a group that names a program slot (R285). -/
def Func.progActive (g : Func) (slot : Nat) : Bool :=
  match g.activePlan with | some (_, p) => p.pgroups.any fun (e : PGroup) => e.prog = slot | none => false

/-- R285, R289. -/
def updProgram' (c : Submission) (s : State) : State :=
  let slot := hb c 24 1
  if slot < 4 || 31 < slot then s.single c stBadParam (leBytes 1 0xFF ++ leBytes 1 1)
  else match progCheck c.params c.paramLen with
    | some (i, r) => s.single c stBadParam (leBytes 1 i ++ leBytes 1 r)
    | none =>
      if (s.func c.func).progActive slot then s.single c stBusy
      else
        let clear (p : Plan) : Plan :=
          { p with groups := p.groups.zipIdx.map fun (gs, g) =>
              if (p.pg g).prog = slot then { gs with normsValid := false } else gs }
        let s := s.modFunc c.func fun g =>
          { g with
            progs := SMap.insert slot c.params g.progs
            plans := g.plans.map fun p => p.map clear }
        s.okJ c

def execUpdProgram (c : Submission) (s : State) : Done := .next (s.zcp 0x0501 c updProgram')

def State.setPlan (s : State) (f slot : Nat) (p : Plan) : State := s.modFunc f fun g => { g with plans := g.plans.set slot (some p) }

/-- R282, Table 12.3. -/
def updStepSize' (c : Submission) (s : State) : State :=
  let f := c.func
  let slot := hb c 24 1
  match (s.func f).plans.getD slot none with
  | none => s.single c stBadParam
  | some p =>
    let mask := at' c.params 0 8
    let gs := bitsOf 64 mask
    let v (g : Nat) : F32 := mk32 (at' c.params (8 + 4 * g) 4)
    if !c.stepTagged || c.paramLen ≠ 264 || gs.any (fun g => p.pgroups.length ≤ g || !isFin32 (v g)) then s.single c stBadParam
    else
      let t := c.step
      let n := match p.uBegun, p.firstStep, p.lowStep with
        | some u, _, _ => u + 1
        | none, some x, _ => x
        | none, none, some x => x
        | none, none, none => t
      if t < n then (s.cntDie ((s.upDies f).headD 0) 28).single c stBadParam
      else if n + 7 < t then s.single c stBusy
      else
        let sizes := (p.sizes.filter fun x => !(x.1 = t && gs.contains x.2.1)) ++ gs.map fun g => (t, g, v g)
        (s.setPlan f slot { p with sizes := sizes, lowStep := some (p.lowStep.getD t) }).single c stOk

def execUpdStepSize (c : Submission) (s : State) : Done := .next (s.zcp 0x0503 c updStepSize')

/-- R284. -/
def updFreeze' (c : Submission) (s : State) : State :=
  let f := c.func
  let slot := hb c 24 1
  match (s.func f).plans.getD slot none with
  | none => s.single c stBadParam
  | some p =>
    let gs := bitsOf 64 (hb c 32 8)
    let bits := hb c 40 8
    if !c.stepTagged || gs.any (fun g => p.pgroups.length ≤ g) ||
        (match p.b1Begun with | some b => c.step ≤ b | none => false) then s.single c stBadParam
    else
      let s := s.setPlan f slot { p with freezes := p.freezes ++ gs.map fun g => (c.step, g, bit bits g) }
      if gs.isEmpty then s.single c stOk else s.okJ c

def execUpdFreeze (c : Submission) (s : State) : Done := .next (s.zcp 0x0504 c updFreeze')

/-- CHN_CTL.PREPASS: the carried norms of every group of the loaded plans become invalid (R296). -/
def State.dropNormsOf (s : State) (f : Nat) : State :=
  s.modFunc f fun g => { g with plans := g.plans.map fun p => p.map fun p =>
    { p with groups := p.groups.map fun gs => { gs with normsValid := false } } }

/-- R296: CHN_CTL.PREPASS is written with 1. -/
def execChnPrepass (f : Nat) (s : State) : Done := .next (s.dropNormsOf f)

/-! ## Norms of the results (R263) -/

/-- The chain of a group's shard pairs. -/
def groupPair (rs : List ChorusMsg) (g : Nat) : N Pair :=
  chain ((rs.filter fun m => m.pgroup = g).map fun m => (m.normS, m.normE))

/-- The squared norm of each group, and the global one over the groups that are not frozen. -/
def resultNorms (rs : List ChorusMsg) (n : Nat) (frozen : List Nat) : N (List F32 × F32) := do
  let ps ← (List.range n).mapM (groupPair rs)
  let gs ← ps.mapM pairRound32
  let all ← chain ((ps.zipIdx.filter fun x => !frozen.contains x.2).map (·.1))
  return (gs, ← pairRound32 all)

/-! ## The master value and its commit (R245, R246, R292) -/

/-- hi + r × 2^s rounded once; a non-finite high half stands for the value. -/
def master (hi : Nat) (r : Int) (sg : Int) : N F32 :=
  match Fmt.bf16.decode hi with
  | .fin n m e => let (i, x) := addExact (sgnd n m) e r sg; rnd32 (n && r = 0) i x
  | _ => return widen Fmt.bf16 hi

/-- i × 2^e to the nearest integer. -/
def rneScaled (i : Int) (e : Int) : Int := if 0 ≤ e then i * 2 ^ e.toNat else rneInt i (2 ^ (-e).toNat)

/-- A residue out of range carries into its high half (R246). For a high half that is not finite the new residue is a free value
(log 39). -/
def carryOut (hi : Nat) (q sg : Int) : N (Nat × Int) := do
  modify fun t => { t with carry := t.carry + 1 }
  match Fmt.bf16.decode hi with
  | .fin n m e =>
    let (i, x) := addExact (sgnd n m) e q sg
    let h ← Fmt.bf16.rnd false i x
    let q' := match Fmt.bf16.decode h with
      | .fin n m e => let (j, y) := addExact i x (-(sgnd n m)) e; rneScaled j (y - sg)
      | _ => 0
    if q' < -32768 || 32767 < q' then
      modify fun t => { t with clamp := t.clamp + 1 }
      return (h, max (-32768) (min 32767 q'))
    else return (h, q')
  | _ => return (hi, sext 16 (Config.freeWord (← nextFresh)).toNat)

/-- Commit the decrement D of a dense element (R292). -/
def commitD (hi : Nat) (r sOld sNew : Int) (d : F32) : N (Nat × Int) := do
  let q := rneScaled r (sOld - sNew)
  let dq := match f32 d with | .fin n m e => rneScaled (sgnd n m) (e - sNew) | _ => 0
  if abs32 d ≠ 0 && dq = 0 then modify fun t => { t with updUfl := t.updUfl + 1 }
  let q := q - dq
  let lim : Int := 2 ^ 62
  let sat := q < -lim || lim < q
  countSat sat
  let q := max (-lim) (min lim q)
  if q < -32768 || 32767 < q then carryOut hi q sNew else return (hi, q)

/-! ## The state pass (R281, R286, R292 to R297) -/

/-- A shard or a row in memory as a pass reads it: elements, which of them hold values, high halves with residues (dense) or row
patterns, gradients, and moments. -/
structure UIn where
  n : Nat
  live : List Bool
  his : List Nat
  res : List Int
  g : List F32
  w : List F32
  moms : List (Nat × List F32)

/-- What a pass over it leaves: new patterns (none where nothing is written), moments by stream, master and U values for the norms,
and the largest exponents. -/
structure UOut where
  elems : List (Option (Nat × Int))
  moms : List (Nat × List F32)
  master : List F32
  us : List F32
  ew : Option Int
  ed : Option Int

/-- The larger of two optional exponents. -/
def omax : Option Int → Option Int → Option Int
  | none, b => b
  | a, none => a
  | some a, some b => some (max a b)

/-- Run a program over elements in chunks of 64 (R288): all stores by stream. -/
def runAll (ops : List UOp) (sv : List (Option F32)) (sc : Nat → F32) (x : UIn) : N (List (Nat × List F32)) := do
  let parts ← (List.range (ceilDiv x.n 64)).mapM fun k =>
    let n := min 64 (x.n - 64 * k)
    let cut (l : List F32) : List F32 := (l.drop (64 * k)).take n
    runChunk ops sv sc n fun code =>
      if code = 0 then cut x.g else if code = 1 then cut x.w else cut ((x.moms.lookup (code - 2)).getD [])
  let codes := (progStreams (ops.filter fun o => o.op = 2))
  return codes.map fun c => (c, parts.flatMap fun p => (p.lookup c).getD [])

/-- Elements whose stores to D and to the moments are all finite (R294). -/
def goodElem (st : List (Nat × List F32)) (i : Nat) : Bool :=
  st.all fun (c, l) => c = 7 || isFin32 (l.getD i zero32)

/-- Commit a dense shard. A word of a compressed tile that holds no stored value keeps its bits and enters neither norm: the stored
pattern never changes (R235). -/
def commitShard (x : UIn) (st : List (Nat × List F32)) (sOld sNew : Int) : N UOut := do
  let get (c i : Nat) : F32 := ((st.lookup c).getD []).getD i zero32
  let ix := (List.range x.n).filter fun i => x.live.getD i true
  let r ← (List.range x.n).mapM fun i => do
    let hi := x.his.getD i 0
    let q := x.res.getD i 0
    if !x.live.getD i true then return (none, zero32)
    else if goodElem st i then
      let (h, q') ← commitD hi q sOld sNew (get 6 i)
      return (some (h, q'), ← master h q' sNew)
    else
      modify fun t => { t with nf := t.nf + 1, nfElem := t.nfElem + 1 }
      return (none, ← master hi q sNew)
  let good := ix.filter (goodElem st)
  let ew := ix.foldl (fun a i =>
    omax a (fvLog2 (Fmt.bf16.decode (match (r.getD i (none, zero32)).1 with | some (h, _) => h | none => x.his.getD i 0)))) none
  let ed := ix.foldl (fun a i => omax a (fvLog2 (f32 (get 6 i)))) none
  let moms := (st.filter fun y => 2 ≤ y.1 && y.1 ≤ 5).map fun (c, l) =>
    (c - 2, l.zipIdx.map fun (v, i) => if good.contains i then v else ((x.moms.lookup (c - 2)).getD []).getD i zero32)
  return ⟨r.map (·.1), moms, ix.map fun i => (r.getD i (none, zero32)).2, if (st.lookup 7).isSome then good.map (get 7) else [], ew, ed⟩

/-- Commit a table row (R293): W − D rounded once into the table format. -/
def commitRow (F : Fmt) (x : UIn) (st : List (Nat × List F32)) : N UOut := do
  let get (c i : Nat) : F32 := ((st.lookup c).getD []).getD i zero32
  let r ← (List.range x.n).mapM fun i => do
    if goodElem st i then
      match f32 (x.w.getD i zero32), f32 (get 6 i) with
      | .fin n1 m1 e1, .fin n2 m2 e2 =>
        let (k, e) := addExact (sgnd n1 m1) e1 (-(sgnd n2 m2)) e2
        let v ← F.rnd (n1 && !n2) k e
        return some (v, (0 : Int))
      | .inf n, _ => (do countNf; return some (F.infBits n, (0 : Int)))
      | _, _ => (do countNf; return some (F.qnan, (0 : Int)))
    else
      modify fun t => { t with nf := t.nf + 1, nfElem := t.nfElem + 1 }
      return none
  let good := (List.range x.n).filter (goodElem st)
  let moms := (st.filter fun y => 2 ≤ y.1 && y.1 ≤ 5).map fun (c, l) =>
    (c - 2, l.zipIdx.map fun (v, i) => if good.contains i then v else ((x.moms.lookup (c - 2)).getD []).getD i zero32)
  return ⟨r, moms, [], [], none, none⟩

/-- Read a dense shard with its result. -/
def readShard (rd : Rd) (p : Plan) (ops : List UOp) (sOld : Int) (sh : Shard) (res : Option ChorusMsg) : N UIn := do
  let e := p.pg sh.group
  let (ranges, stored) := p.pattern rd sh.group
  let ix := (List.range sh.n).map (sh.first + ·)
  let his := ix.map fun i => leNat (rd (e.hi + 2 * i) 2)
  let rs := ix.map fun i => sext 16 (leNat (rd (e.res + 2 * i) 2))
  let g := match res with | some m => (natsOf 4 sh.n m.payload).map mk32 | none => ix.map fun _ => zero32
  let w ← (his.zip rs).mapM fun (h, r) => master h r sOld
  let moms := (progMoments ops).map fun k => (k, ix.map fun i => mk32 (rd4 rd (e.moment k + 4 * i)))
  return ⟨sh.n, valueWords ranges (ix.map fun i => e.hi + 2 * i) stored, his, rs, g, w, moms⟩

/-- The die that updates a shard: the one that holds its first high half, or the partner that has taken over its state (R281, R250). -/
def State.shardHome (s : State) (f : Nat) (e : PGroup) (sh : Shard) : Nat :=
  let lead := (s.upDies f).headD 0
  match (s.key f (e.hi + 2 * sh.first)).bind keyDie with
  | some d => if s.up d then d else if s.up (d ^^^ 2) && !s.quad then d ^^^ 2 else lead
  | none => lead

/-- Write what a pass over a dense shard leaves. -/
def State.writeShard (s : State) (f : Nat) (e : PGroup) (sh : Shard) (o : UOut) : State :=
  let s := o.elems.zipIdx.foldl (fun s (v, i) =>
    match v with
    | some (h, q) =>
      (s.devWrite f (e.hi + 2 * (sh.first + i)) (leBytes 2 h)).devWrite f (e.res + 2 * (sh.first + i)) (leBytes 2 (toTwos 16 q))
    | none => s) s
  o.moms.foldl (fun s (k, l) =>
    s.devWrite f (e.moment k + 4 * sh.first) (l.flatMap fun v => leBytes 4 v.toNat)) s

/-! ## A group in U -/

/-- What Chanter knows of the step for every group. -/
structure UStep where
  n : Nat
  results : List ChorusMsg
  gnorm2 : F32
  grnorm2 : List F32
  rpart : F32
  failover : Bool

/-- The scalars of a group (Table 12.5). -/
def groupScalars (u : UStep) (g : Nat) (e : PGroup) (gs : GroupState) (lr : F32) (pre : Bool) (i : Nat) : F32 :=
  match i with
  | 0 => lr
  | 1 => u.gnorm2
  | 2 => u.grnorm2.getD g zero32
  | 3 => if pre then zero32 else gs.wnorm
  | 4 => if pre then zero32 else gs.unorm
  | 5 => u.rpart
  | 6 => gs.acc0
  | 7 => gs.acc1
  | k => e.const (k - 8)

/-- The pair of squares of a shard's values, chained from (+0, +0), enters the chain of the group's shards (R263, R295). -/
def normOn (p : Pair) (ys : List F32) : N Pair := do node p (← normPair ys)

/-- The pre-pass of a group (R296): both norms, from the current master values. It stores nothing and counts no numerical event,
since R288 counts each scalar event once a step (log 39). -/
def prepass (rd : Rd) (p : Plan) (u : UStep) (g : Nat) (gs : GroupState) (ops : List UOp) (lr : F32) : F32 × F32 := quiet do
  let sc := groupScalars u g (p.pg g) gs lr true
  let sv ← scalarPass ops sc
  let (w, v) ← (p.groupShards g).foldlM (fun ((w, v) : Pair × Pair) (j, sh) => do
    let x ← readShard rd p ops gs.sOld sh (u.results.find? fun m => m.shard = j)
    let st ← runAll ops sv sc x
    let on (l : List F32) : List F32 := (l.zip x.live).filterMap fun (v, b) => if b then some v else none
    return (← normOn w (on x.w), ← normOn v (on ((st.lookup 7).getD [])))) (Pair.empty, Pair.empty)
  return (← pairRound32 w, ← pairRound32 v)

/-- The state of the norms and exponents over a group's state pass. -/
structure Pass where
  w : Pair
  u : Pair
  ew : Option Int
  ed : Option Int

/-- The new exponent of R297 and whether it changed. -/
def nextS (fixed failover : Bool) (s : Int) (ew ed : Option Int) : Int × Bool :=
  match fixed || failover, ed with
  | false, some d =>
    let m := match ew with | some w => max w d | none => d
    let n := max (-128) (min 127 (m - 22))
    if s < n || n < s - 2 then (n, true) else (s, false)
  | _, _ => (s, false)

/-- The state pass of a dense group, then step 7 of Table 12.2. -/
def State.denseGroup (s : State) (f : Nat) (p : Plan) (u : UStep) (g : Nat) (gs : GroupState) (ops : List UOp) (lr : F32) :
    GroupState × State :=
  let e := p.pg g
  let lead := (s.upDies f).headD 0
  let sc := groupScalars u g e gs lr false
  let (sv, s) := s.calc (.chanter lead) f false (scalarPass ops sc)
  let (t, s) := (p.groupShards g).foldl (fun ((t, s) : Pass × State) (j, sh) =>
    let d := s.shardHome f e sh
    let (o, s) := State.calc s (.chanter d) f false (do
      let x ← readShard (s.devRead f) p ops gs.sOld sh (u.results.find? fun m => m.shard = j)
      let st ← runAll ops sv sc x
      let o ← commitShard x st gs.sOld gs.s
      return (o, ← normOn t.w o.master, ← normOn t.u o.us))
    let s := (s.writeShard f e sh o.1).cntDie d 26 (o.1.elems.filter (·.isSome)).length
    (⟨o.2.1, o.2.2, omax t.ew o.1.ew, omax t.ed o.1.ed⟩, s)) (⟨Pair.empty, Pair.empty, none, none⟩, s)
  let ((wn, un), s) := s.calc (.chanter lead) f false (do return (← pairRound32 t.w, ← pairRound32 t.u))
  let (s', changed) := nextS e.fixedS u.failover gs.s t.ew t.ed
  let s := if changed then s.cntDie lead 34 else s
  ({ gs with s := s', sOld := gs.s, normsValid := !u.failover, wnorm := wn, unorm := un }, s)

/-- The rows of an owner's gradient list for a step: the record's first word and its gradients (R130). -/
def gradList (s : State) (t : Table) (b : OwnerBlock) (n : Nat) : List (Nat × List F32) :=
  if b.glist = 0 || leNat (s.load b.glist 8) ≠ n then []
  else (List.range (leNat (s.load (b.glist + 8) 8))).map fun i =>
    let r := s.load (b.glist + 64 + i * t.gradRecord) t.gradRecord
    (fld (at' r 0 8) 0 40, (natsOf 4 t.elems (r.drop 8)).map mk32)

/-- Where U finds a listed row at an owner of this module: its slot, or the old slot of a stub, with the stub. -/
def Func.rowPlace (g : Func) (t : Table) (o r : Nat) : Option (Nat × Nat × Option Stub) :=
  match g.slotAt t o r with
  | some (sh, i) => some (sh, i, none)
  | none => (g.stub t.id o r).map fun x => (x.oldShard, x.oldSlot, some x)

/-- U's write of a row that migrates marks it dirty. Of a row that has switched since its combining closed here, the slot with its
optimizer state is passed on to the new owner (R147, R148, DESIGN CHOICE, log 24). -/
def State.passRow (s : State) (f : Nat) (t : Table) (b : OwnerBlock) (r sh i : Nat) (away : Option Stub) : State :=
  match away with
  | none => s.modFunc f fun g => g.modMig t.id b.owner r fun m => { m with dirty := true }
  | some x =>
    let img := s.load (t.slotKey b sh i (t.isFlipped b.owner sh i)) t.stride
    (s.cntDie b.server 11).sendOwner f b.server t x.newOwner
      (.tableMaint ⟨4, false, false, t.id, b.owner, x.newOwner, r, x.newShard, x.newSlot, 0, (x.ends + 2 ^ 64 - 2) % 2 ^ 64, img⟩)

/-- A feature-table group (R293): the listed rows of every local owner, in ascending row ID. -/
def State.tableGroup (s : State) (f : Nat) (p : Plan) (u : UStep) (g : Nat) (gs : GroupState) (ops : List UOp) (lr : F32) : State :=
  let e := p.pg g
  match (s.func f).table e.tableId with
  | none => s
  | some t =>
    let lead := (s.upDies f).headD 0
    let sc := groupScalars u g e gs lr false
    let (sv, s) := s.calc (.chanter lead) f false (scalarPass ops sc)
    t.blocks.foldl (fun s b =>
      (gradList s t b u.n).foldl (fun s (r, gr) =>
        match (s.func f).rowPlace t b.owner r, (s.func f).table e.tableId with
        | some (sh, i, away), some t =>
          let (bytes, s) := s.slotRead f t b sh i t.stride
          let mom (k : Nat) : Nat := t.rowBytes + 4 * t.elems * k
          let x : UIn := ⟨t.elems, [], t.elemsOf bytes, [], gr, (t.elemsOf bytes).map (widen t.F),
            (progMoments ops).map fun k => (k, (natsOf 4 t.elems (bytes.drop (mom k))).map mk32)⟩
          let (o, s) := State.calc s (.chanter b.server) f false (do commitRow t.F x (← runAll ops sv sc x))
          let second := t.isFlipped b.owner sh i
          let s := o.elems.zipIdx.foldl (fun s (v, k) =>
            match v with
            | some (w, _) => s.slotWrite t b sh i second (k * t.width) (leBytes t.width w)
            | none => s) s
          let s := o.moms.foldl (fun s (k, l) =>
            s.slotWrite t b sh i second (mom k) (l.flatMap fun v => leBytes 4 v.toNat)) s
          let s := if o.elems.all (·.isSome) then s.modFunc f fun g => g.unpoison t.id b.owner sh i else s
          (s.passRow f t b r sh i away).cntDie b.server 26 (o.elems.filter (·.isSome)).length
        | _, _ => s) s) s

/-! ## Phase U -/

/-- The step size of a group (R283): the value held, or the one of its last update, or INIT_LR; and whether it is stale. -/
def Plan.stepSize (p : Plan) (n g : Nat) : F32 × Bool :=
  match p.sizes.find? fun x => x.1 = n && x.2.1 = g with
  | some x => (x.2.2, false)
  | none => (((p.groups.getD g default).lr).getD ((p.pg g).f32 64), true)

/-- The groups of the step that take an update. -/
def Plan.liveGroups (p : Plan) (frozen : List Nat) : List Nat := (List.range p.pgroups.length).filter fun g => !frozen.contains g

/-- Every group that takes an update has its step size (R283). -/
def Plan.sizesIn (p : Plan) (st : Step) : Bool :=
  (p.liveGroups st.frozen).all fun g => p.sizes.any fun x => x.1 = st.n && x.2.1 = g

/-- One group in U (Table 12.2, steps 2 to 7). -/
def State.updateGroup (s : State) (f slot : Nat) (u : UStep) (frozen : List Nat) (g : Nat) : State :=
  match (s.func f).plans.getD slot none with
  | none => s
  | some p =>
    let lead := (s.upDies f).headD 0
    if frozen.contains g then ((s.upDies f).foldl (fun s d => s.cntDie d 29) s).flagStep f flFrozenSkip
    else
      let e := p.pg g
      let gs := p.groups.getD g default
      let ops := ((s.func f).prog e.prog).getD []
      let (lr, stale) := p.stepSize u.n g
      let s := if stale then (s.cntDie lead 27).flagStep f flStaleLr else s
      let ((a0, a1), s) := if e.accEn then
          s.calc (.chanter lead) f false (do return (← fmul gs.acc0 (e.const 0), ← fmul gs.acc1 (e.const 1)))
        else ((gs.acc0, gs.acc1), s)
      let gs := { gs with acc0 := a0, acc1 := a1, lr := some lr, stale := stale }
      let needs := (progScalars ops).any fun k => k = 3 || k = 4
      let pre := e.kind = 0 && needs && !gs.normsValid
      let (gs, s) := if pre then
          let (w, v) := prepass (s.devRead f) p u g gs ops lr
          ({ gs with wnorm := w, unorm := v, normsValid := true }, s.cntDie lead 31)
        else (gs, s)
      let (gs, s) := if e.kind = 0 then s.denseGroup f p u g gs ops lr else (gs, s.tableGroup f p u g gs ops lr)
      match (s.func f).plans.getD slot none with
      | some p => s.setPlan f slot { p with groups := p.groups.set g gs }
      | none => s

/-- The dies whose Chanter is being disabled and finishes the U in progress first (R299). -/
def Func.stopping (g : Func) : List Nat :=
  (g.stops.flatMap (·.units)).filterMap fun u => match u with | .chanter d => some d | _ => none

/-- Carry out U of the step in work (R281). -/
def State.runU (s : State) (f : Nat) : State :=
  match (s.func f).activePlan, (s.func f).cur with
  | some (slot, p), some st =>
    if st.uDone then s
    else
      let c := (s.func f).chorusStep p.group st.n
      let done (s : State) : State :=
        let s := s.modStep f false fun st => { st with uDone := true }
        s.modFunc f fun g => { g with chanter := { g.chanter with state := 0, group := 0, disabled := g.chanter.disabled ++ g.stopping } }
      match c.mask with
      | none => s
      | some mask =>
        if mask.skip then done s
        else
          let s := s.twinCheck f
          let lead := (s.upDies f).headD 0
          let ((gn, all, rp), s) := s.calc (.chanter lead) f false (do
            let (gn, all) ← resultNorms c.results p.pgroups.length st.frozen
            return (gn, all, ← fdiv one32 (ofInt32 mask.participating)))
          let u : UStep := ⟨st.n, c.results, all, gn, rp, bit st.flags flFailover⟩
          let s := (List.range p.pgroups.length).foldl (fun s g => s.updateGroup f slot u st.frozen g) s
          match (s.func f).plans.getD slot none with
          | some p => done (s.setPlan f slot { p with sizes := p.sizes.filter fun x => st.n < x.1 })
          | none => done s
  | _, _ => s

/-- The rows in borrowed memory that the groups of the step update: table, block and row (R139, R314). -/
def State.remoteRows (s : State) (f : Nat) (p : Plan) (st : Step) : List (Table × OwnerBlock × Nat) :=
  (p.liveGroups st.frozen).flatMap fun g =>
    match (if (p.pg g).kind = 0 then none else (s.func f).table (p.pg g).tableId) with
    | none => []
    | some t => t.blocks.flatMap fun b =>
      ((gradList s t b st.n).filter fun x => ((s.func f).remoteAt t b x.1).isSome).map fun x => (t, b, x.1)

/-- Before U the rows of borrowed memory are read (R314): true once all are at hand. -/
def State.readRemote (s : State) (f : Nat) (rows : List (Table × OwnerBlock × Nat)) : Bool × State :=
  rows.foldl (fun (ok, s) (t, b, r) =>
    match (s.func f).remoteAt t b r with
    | some k => (ok && (s.func f).atHand k t.id r, s.fetchKey f k t.stride t.id r)
    | none => (ok, s)) (true, s)

/-- U runs once every step size is held, or the wait is over, on a Chanter that is not disabled (R283, R299), every cluster has started
behind the barrier (R334), and the rows of borrowed memory are at hand. -/
def State.tryU (s : State) (f : Nat) : State :=
  match (s.func f).activePlan, (s.func f).cur with
  | some (_, p), some st =>
    let skip := match ((s.func f).chorusStep p.group st.n).mask with | some m => m.skip | none => false
    let off := (s.func f).chanter.disabled.any (s.upDies f).contains
    let begun := (s.upDies f).all fun d => (s.die d).drone.unstarted.isEmpty
    if st.phase = .u && !st.uDone && !st.away && !st.quenched && !off &&
        (skip || (begun && (st.waitExpired || p.sizesIn st || st.waitUs = 0))) then
      let rows := if skip then [] else s.remoteRows f p st
      let (ok, s) := s.readRemote f rows
      if ok then rows.foldl (fun s (t, _, r) => s.modFunc f fun g => g.dropRow t.id r) (s.runU f) else s
    else s
  | _, _ => s

/-- U begins (R282), with the wait that CHN_STEPWAIT then holds (R283). -/
def State.beginU (s : State) (f : Nat) : State :=
  match (s.func f).activePlan, (s.func f).cur with
  | some (slot, p), some st =>
    let s := s.setPlan f slot { p with uBegun := some st.n }
    let wait := (s.func f).chanter.waitUs
    ((s.modFunc f fun g => { g with chanter := { g.chanter with state := 1, step := st.n } }).modStep f false fun x =>
      { x with waitUs := wait }).tryU f
  | _, _ => s

/-- R283: CHN_STEPWAIT has elapsed since U began. -/
def execStepSizeWaitExpire (f : Nat) (s : State) : Done :=
  match (s.func f).cur with
  | some st => .next (if st.phase = .u && !st.away then (s.modStep f false fun st => { st with waitExpired := true }).tryU f else s)
  | none => .next s

/-! ## CHN registers -/

/-- CHN_STAT. -/
def Func.chnStat (g : Func) : Word :=
  let c := g.chanter
  pack [(0, 3, c.state), (3, 6, c.group), (16, 48, if c.state = 0 then 0 else c.step)]

/-- The state of the group that CHN_GSEL names. -/
def Func.selGroup (g : Func) : Option GroupState :=
  match g.plans.getD g.chanter.selPlan none with
  | some p => p.groups[g.chanter.selGroup]?
  | none => none

/-- CHN_GSTAT0: S is the exponent that the residues now stored have (log 39). -/
def Func.chnGstat0 (g : Func) : Word :=
  match g.selGroup with
  | some x => pack [(0, 8, toTwos 8 x.sOld), (8, 1, b2n x.normsValid), (9, 1, b2n x.frozen), (10, 1, b2n x.stale),
      (32, 32, (x.lr.getD zero32).toNat)]
  | none => 0

def Func.chnGstat1 (g : Func) : Word :=
  match g.selGroup with | some x => pack [(0, 32, x.acc0.toNat), (32, 32, x.acc1.toNat)] | none => 0

def Func.chnGstat2 (g : Func) : Word :=
  match g.selGroup with | some x => pack [(0, 32, x.wnorm.toNat), (32, 32, x.unorm.toNat)] | none => 0

end Sys2Proof.Machine
end

