-- ==== Sys2Proof/Machine/Fabric.lean ====
section
/-!
DEFINITION. Reedway links (chapter 19): flits sent and received with their CRC, retry and credits, arbitration of virtual channels,
messages assembled and delivered in order or once, link training, and ports that go down. Links numbered 24 to 29 are the
die-to-die links, which carry the same protocol (R416, log 44).
-/
namespace Sys2Proof.Machine

/-! ## Fault records of a port (R350, R416) -/

/-- A fault record of a port or link in the ring of a detecting die; the sequence number it got. -/
def State.portFault (s : State) (d inst resp : Nat) : State × Nat := s.fault (s.witness d) 6 4 inst resp

/-! ## Acknowledgement and credit (R415, R420) -/

/-- The ACK of a received flit: every flit up to it leaves the replay buffer. -/
def Port.acked (p : Port) (a : Nat) : Port :=
  match p.replay.findIdx? fun x => x.1 = a with
  | none => p
  | some i =>
    let gone := (p.replay.take (i + 1)).map (·.1)
    { p with
      replay := p.replay.drop (i + 1)
      resend := p.resend.filter fun x => !gone.contains x.1
      wire := p.wire.filter fun x => !gone.contains x.2
      retryCount := if gone.contains p.retrySeq then 0 else p.retryCount }

/-- The CREDIT of a received flit. -/
def Port.credited (p : Port) (vc n : Nat) : Port := { p with credits := modNth (· + n) vc p.credits }

/-- The ACK and CREDIT fields that the next flit carries, and the port with them no longer owed. -/
def Port.fields (p : Port) : Option Nat × Nat × Nat × Port :=
  let vc := (p.creditOwed.findIdx? (0 < ·)).getD 0
  let n := min (p.creditOwed.getD vc 0) 8191
  (p.ackOwed, vc, n, { p with ackOwed := none, creditOwed := modNth (· - n) vc p.creditOwed })

/-! ## FLIT_TRANSMIT (R414, R415, R417, R420) -/

/-- A flit that is sent again (R415): with the newest ACK, and with the CREDIT that it had, which its receiver has not taken, or what is
owed now where it returned none. Also the port, with what the flit carries no longer owed. -/
def Port.refit (p : Port) (b : List Byte) : List Byte × Port :=
  let (ack, cvc, cn, q) := p.fields
  let had := at' b 6 2 % 2 ^ 13 ≠ 0
  let body := b.take 4 ++ (match ack with | some a => leBytes 2 (a + 2 ^ 15) | none => (b.drop 4).take 2) ++
    (if had then (b.drop 6).take 2 else leBytes 2 (2 ^ 13 * cvc + cn)) ++ (b.drop 8).take 240
  (body ++ leBytes 8 (crc64 body), if had then { q with creditOwed := p.creditOwed } else q)

/-- A virtual channel with a ready flit and credit. -/
def Port.readyVc (p : Port) (vc : Nat) : Bool := !(p.queues.getD vc []).isEmpty && 0 < p.credits.getD vc 0

/-- The virtual channel whose flit is sent next (R420). -/
def Port.pickVc (p : Port) : Option Nat :=
  let data := ((List.range 7).map fun i => 1 + (p.rr - 1 + i) % 7).find? p.readyVc
  let full := 56 ≤ (p.slots.filter id).length
  if p.readyVc 0 && !(data.isSome && full) then some 0 else data

/-- A flit slot has gone to virtual channel 0 or not. -/
def Port.slot (p : Port) (vc0 : Bool) : Port := { p with slots := (vc0 :: p.slots).take 64 }

/-- Hand the accesses to apertures that have not left yet to the fabric (R314). -/
def State.flushPeer (s : State) : State :=
  (List.range 4).foldl (fun s f =>
    let g := State.func s f
    if (g.apertures.all fun x => x.2.pending.all (·.sent)) then s
    else
      let die := (State.upDies s f).headD 0
      let waiting := g.apertures.flatMap fun x => x.2.pending.filter fun p => !p.sent
      let s := waiting.foldl (fun s p => State.send s f die p.mem.peer 0 (.peerReq p.mem)) s
      let mark (x : Aperture) : Aperture := { x with pending := x.pending.map fun p => { p with sent := true } }
      State.modFunc s f fun g => { g with apertures := g.apertures.map fun (a, x) => (a, mark x) }) s

/-- The next flit of a port; none while the port is not up. While FABRIC_ID is 0 no message goes out (R418). FAB_VC0PRE counts a data flit
once, when virtual channel 0 first takes the slot that it would have had (log 44). -/
def State.transmit (s : State) (port : Nat) : State :=
  let s := s.flushPeer
  let p := s.port port
  if p.state ≠ 2 then s
  else
    let (ack, cvc, cn, q) := p.fields
    let send (s : State) (q : Port) (b : List Byte) : State := (s.modPort port fun _ => q).put (.flit port b)
    if p.retryOwed then
      (send s { q.slot false with retryOwed := false } (flitBytes 3 0 false false 0 ack cvc cn (leBytes 2 p.rxSeq))).cntPort port 0
    else match p.resend with
      | (n, b) :: rest =>
        let (b, q) := p.refit b
        let vc0 := fld (at' b 0 1) 4 3 = 0
        ((send s { q.slot vc0 with resend := rest, replay := q.replay.map fun x => if x.1 = n then (n, b) else x } b).cntPort port
          0).cntPort port 6
      | [] =>
        match if p.replay.length < 512 && (s.func (s.fnOf (port / 6))).ep.fabricId ≠ 0 then p.pickVc else none with
        | some vc =>
          match p.queues.getD vc [] with
          | [] => s
          | m :: ms =>
            let rest := m.bytes.drop 240
            let last := rest.isEmpty
            let b := flitBytes 1 vc (!m.started) last p.txSeq ack cvc cn (m.bytes.take 240)
            let waits := vc = 0 && (List.range 7).any fun i => p.readyVc (i + 1)
            let q := q.slot (vc = 0)
            let q :=
              { q with
                txSeq := (p.txSeq + 1) % 4096
                replay := q.replay ++ [(p.txSeq, b)]
                credits := modNth (· - 1) vc q.credits
                queues := modNth (fun _ => if last then ms else { m with bytes := rest, started := true } :: ms) vc q.queues
                rr := if vc = 0 then q.rr else vc % 7 + 1
                delayed := if vc = 0 then q.delayed || waits else false
                wire := if last then q.wire ++ [(m.sent, p.txSeq)] else q.wire }
            let s := ((send s q b).cntPort port 0).protect (port / 6)
            if waits && !p.delayed then s.cntPort port 13 else s
        | none => send s (q.slot false) (flitBytes 0 0 false false 0 ack cvc cn [])

def execFlitTransmit (port : Nat) (s : State) : Done := .next (s.transmit port)

/-! ## RETRY (R415) -/

/-- The sender goes back to the named SEQ. -/
def State.retryFrom (s : State) (port seq : Nat) : State :=
  let p := s.port port
  if p.state ≠ 2 then s
  else
    (s.modPort port fun p =>
      { p with
        resend := p.replay.dropWhile fun x => x.1 ≠ seq
        retrySeq := seq
        retryCount := if p.retrySeq = seq then p.retryCount + 1 else 1 }).cntPort port 5

/-- A RETRY on a die-to-die link end, numbered from 24: how often its SEQ has been retried in a row (R416). -/
def State.linkRetry (s : State) (port seq : Nat) : State :=
  let n := match s.linkRetries.lookup port with | some (q, n) => if q = seq then n + 1 else 1 | none => 1
  { s with linkRetries := upsert (fun (x : Nat × Nat × Nat) => x.1 = port) (fun _ => (port, seq, n)) (port, seq, n) s.linkRetries }

def execRetry (port seq : Nat) (s : State) : Done :=
  .next (if port < 24 then s.retryFrom port seq else if port < 36 then s.linkRetry port seq else s)

/-! ## Messages received (R417 to R421) -/

/-- Stop the end-to-end retransmission of a message (R421); a row that it carried to another module for a host command counts as applied at
its owner (R153, log 18). One for a function of this module is applied when it is taken up there. -/
def State.deliveryAcked (s : State) (f src seq : Nat) : State :=
  let mine (m : Sent) : Bool := m.dest = src && m.seq = seq && m.vc = 0
  let gone := (s.func f).ep.unacked.filter mine
  let s := s.modFunc f fun g => { g with ep := { g.ep with unacked := g.ep.unacked.filter fun m => !mine m } }
  if (s.endpointOf src).isSome then s else gone.foldl (fun s m => s.settle f src m.msg.bytes) s

def execDeliveryAck (f src seq : Nat) (s : State) : Done := .next (s.deliveryAcked f src seq)

/-- Return a delivery acknowledgement: one flit on virtual channel 0, kept by no one (R421). -/
def State.sendDeliveryAck (s : State) (f : Nat) (m : Received) : State :=
  let x : Sent := ⟨f, m.src, s.physDie f m.die, 0, 0, 0, none, .delivered m.seq⟩
  (s.queueOut x (s.sentBytes x)).1

/-- Deliver early messages of virtual channel 0 whose turn has come; `fuel` bounds their number. -/
def State.deliverEarly (s : State) (f src : Nat) : (fuel : Nat) → State
  | 0 => s
  | n + 1 =>
    let ep := (s.func f).ep
    let next := seqKey src 0 ep.delivered
    match ep.early.find? fun m => m.src = src && m.seq = next with
    | none => s
    | some m =>
      let s := s.modFunc f fun g =>
        { g with ep := { g.ep with
            early := eraseOne m g.ep.early
            inbox := g.ep.inbox ++ [m]
            delivered := setSeq src 0 ((next + 1) % 2 ^ 32) g.ep.delivered } }
      (s.sendDeliveryAck f m).deliverEarly f src n

/-- Whether sequence number `a` comes before `b`, modulo 2^32. -/
def seqBefore (a b : Nat) : Bool := a ≠ b && (b + 2 ^ 32 - a) % 2 ^ 32 < 2 ^ 31

/-- A whole message has come in at a port (R418, R419, R421). On a data channel the numbers delivered within 2^30 of the newest are
kept (log 44). -/
def State.arrive (s : State) (port vc : Nat) (b : List Byte) : State :=
  let len := at' b 24 4
  let m : Received := ⟨at' b 8 8, at' b 0 8, at' b 16 1, fld (at' b 17 1) 0 2, vc, at' b 20 4, port, (b.drop 32).take len⟩
  match s.endpointOf m.dest with
  | none => if (s.func (s.fnOf (port / 6))).ep.fabricId = 0 then s else s.cntPort port 10
  | some f =>
    if m.proto = 6 then s.deliveryAcked f m.src (at' m.data 0 4)
    else if vc = 0 then
      let next := seqKey m.src 0 (s.func f).ep.delivered
      if seqBefore m.seq next then (s.cntPort port 11).sendDeliveryAck f m
      else if (s.func f).ep.early.any fun x => x.src = m.src && x.seq = m.seq then s.cntPort port 11
      else
        let s := s.modFunc f fun g => { g with ep := { g.ep with early := g.ep.early ++ [m] } }
        s.deliverEarly f m.src (s.func f).ep.early.length
    else if (s.func f).ep.delivered.contains (m.src, vc, m.seq) then s.cntPort port 11
    else
      s.modFunc f fun g =>
        { g with ep := { g.ep with
            inbox := g.ep.inbox ++ [m]
            delivered := (m.src, vc, m.seq) :: g.ep.delivered.filter fun x =>
              !(x.1 = m.src && x.2.1 = vc && (m.seq + 2 ^ 32 - x.2.2) % 2 ^ 32 ≥ 2 ^ 30 && seqBefore x.2.2 m.seq) } }

/-! ## FLIT_RECEIVE (R415) -/

/-- A flit's payload joins its message; a LAST flit completes it. -/
def State.assemble (s : State) (port : Nat) (b : List Byte) : State :=
  let vc := fld (at' b 0 1) 4 3
  let first := bit (at' b 0 1) 7
  let last := bit (at' b 1 1) 0
  let body := (b.drop 8).take 240
  let whole := if first then body else (s.port port).rx.getD vc [] ++ body
  let s := s.modPort port fun p =>
    { p with rx := modNth (fun _ => if last then [] else whole) vc p.rx, creditOwed := modNth (· + 1) vc p.creditOwed }
  if last then s.arrive port vc whole else s

/-- A flit that fails its check: one RETRY is owed, and what follows is discarded until the SEQ expected arrives. A flit that comes then
out of order is one of those; a corrupted one may be the flit expected, so it is retried as well (R415, log 44). -/
def State.rejectFlit (s : State) (port : Nat) (corrupt : Bool) : State :=
  s.modPort port fun p => if p.retrying && !corrupt then p else { p with retryOwed := true, retrying := true }

def State.receive (s : State) (port : Nat) (b : List Byte) : State :=
  let p := s.port port
  if p.state ≠ 2 || 24 ≤ port then s
  else
    let type := fld (at' b 0 1) 0 4
    if b.length ≠ 256 || crc64 (b.take 248) ≠ at' b 248 8 || 3 < type then ((s.cntPort port 4).portFault (port / 6) port 1).1.rejectFlit port true
    else
      let side (s : State) : State :=
        let a := at' b 4 2
        let c := at' b 6 2
        s.modPort port fun p => (if bit a 15 then p.acked (a % 4096) else p).credited (c / 2 ^ 13) (c % 2 ^ 13)
      if type = 0 then side s
      else if type = 3 then ((side s).cntPort port 1).retryFrom port (at' b 8 2 % 4096)
      else
        let seq := at' b 2 2 % 4096
        if seq ≠ p.rxSeq then s.rejectFlit port false
        else
          let s := ((side s).cntPort port 1).modPort port fun p =>
            { p with rxSeq := (seq + 1) % 4096, ackOwed := some seq, retrying := false, retryOwed := false }
          if type = 1 then (s.protect (port / 6)).assemble port b else s

/-- FEC codewords that were corrected, and that could not be, in what a port received (Table 19.7). -/
def State.fecCount (s : State) (port corrected uncorrected : Nat) : State := (s.cntPort port 2 corrected).cntPort port 3 uncorrected

/-- R415. -/
def execFlitReceive (port : Nat) (flit : FlitIn) (s : State) : Done :=
  if 24 ≤ port then .next s
  else .next (((s.fecCount port flit.corrected flit.uncorrected).receive port flit.bytes).exercised (port / 6) [.port port])

/-! ## Ports that go down (R416, R419) -/

/-- Send a message that has a flit not acknowledged again whole, by another port; with none in service it is held. -/
def State.resendWhole (s : State) (m : Sent) : State :=
  let (s, p) := s.queueOut m (s.sentBytes m)
  let m' := { m with port := p }
  s.modFunc m.func fun g =>
    let ep := g.ep
    let known := ep.unacked.any fun x => x.dest = m.dest && x.vc = m.vc && x.seq = m.seq
    { g with ep := { ep with unacked :=
      if known then ep.unacked.map fun x => if x.dest = m.dest && x.vc = m.vc && x.seq = m.seq then m' else x
      else if p.isNone then ep.unacked ++ [m'] else ep.unacked } }

def WireMsg.isAck : WireMsg → Bool
  | .delivered _ => true
  | _ => false

/-- A port stops: what it has not had acknowledged goes by other ports. `state` is what FAB_PORTn_STAT then reads. FAB_DOWN counts a port
that was training, up or retraining. -/
def State.stopPort (s : State) (port state : Nat) : State :=
  let p := s.port port
  let ms := (p.wire.map (·.1) ++ p.queues.flatten.map (·.sent)).filter fun m => !m.msg.isAck
  let s := s.modPort port fun q => { Port.reset with en := q.en, state := state, retrains := q.retrains, verFailAt := q.verFailAt }
  let s := if p.state = 1 || p.state = 2 || p.state = 3 then s.cntPort port 8 else s
  ms.foldl (fun s m => s.resendWhole m) s

/-- A port goes down by itself (R416). -/
def State.portDown (s : State) (port : Nat) : State :=
  let s := s.stopPort port 4
  let (s, q) := s.portFault (port / 6) port 1
  s.emitTo [s.fnOf (port / 6)] (s.witness (port / 6)) 4 port q 1

/-- Training starts (R424). -/
def State.startTraining (s : State) (port : Nat) : State :=
  let now := (s.die (port / 6)).clk
  s.modPort port fun p => { Port.reset with en := p.en, state := 1, retrains := p.retrains, verFailAt := p.verFailAt, trainStart := now }

/-- A retrain: the flits not acknowledged are kept; the third within one second takes the port down (R416). -/
def State.retrainPort (s : State) (port : Nat) : State :=
  let now := (s.die (port / 6)).clk
  let recent := (s.port port).retrains.filter fun t => (now + 2 ^ 64 - t) % 2 ^ 64 < second
  let s := (s.modPort port fun p => { p with retrains := recent ++ [now], retryCount := 0 }).cntPort port 7
  if 2 ≤ recent.length then s.portDown port
  else s.modPort port fun p => { p with state := 3, trainStart := now, noVer := false, retryOwed := false, retrying := false, ackOwed := none }

/-! ## Training (R423, R424) -/

/-- Held messages leave once a port is in service (R421). -/
def State.sendHeld (s : State) (f : Nat) : State :=
  ((s.func f).ep.unacked.filter (·.port.isNone)).foldl (fun s m =>
    let (s, p) := s.queueOut m (s.sentBytes m)
    if p.isNone then s
    else s.modFunc f fun g =>
      let left := if m.vc = 0 then g.ep.unacked.map (fun x => if x = m then { m with port := p } else x) else eraseOne m g.ep.unacked
      { g with ep := { g.ep with unacked := left } }) s

/-- The credits a port offers (Table 19.4). -/
def ownCredits : List Nat := [64, 128, 128, 128, 128, 128, 128, 128]

/-- The TRAIN flit of a port (Table 19.6, step 4). Port numbers in it are those of the function's module, 0 to 5 in Quad (R24). -/
def State.trainFlit (s : State) (port : Nat) : List Byte :=
  flitBytes 2 0 false false 0 none 0 0
    (leBytes 8 (s.func (s.fnOf (port / 6))).ep.fabricId ++ leBytes 1 (if s.quad then port % 6 else port) ++ ownCredits.flatMap (leBytes 1))

/-- SEQ starts at 0 again: flits held across a retrain take new numbers and are sent again from the oldest. -/
def Port.renumber (p : Port) : Port :=
  let held := p.replay.zipIdx
  let flits := held.map fun (x, i) => (i, x.2.take 2 ++ leBytes 2 i ++ zeros 4 ++ x.2.drop 8)
  let new (q : Nat) : Nat := match held.find? fun x => x.1.1 = q with | some x => x.2 | none => q
  { p with
    txSeq := held.length
    rxSeq := 0
    replay := flits
    resend := flits
    wire := p.wire.map fun x => (x.1, new x.2)
    credits := (p.credits.zipIdx).map fun (n, vc) => n - (held.filter fun x => fld (at' x.1.2 0 1) 4 3 = vc).length }

/-- Training ends: a version both ends have brings the port up; otherwise it stays in training, which counts once per second. -/
def State.trained (s : State) (port : Nat) (p : Partner) : State :=
  let q := s.port port
  let now := (s.die (port / 6)).clk
  if !q.en || !(q.state = 1 || q.state = 3) || 24 ≤ port then s
  else
    let v := min s.rwHigh p.hi
    if v < 1 || v < p.lo then
      let due : Bool := match q.verFailAt with | some t => second ≤ (now + 2 ^ 64 - t) % 2 ^ 64 | none => true
      let s := s.modPort port fun q => { q with state := 1, noVer := true, verFailAt := if due then some now else q.verFailAt }
      if due then s.cntPort port 9 else s
    else
      let s := ((s.put (.flit port (s.trainFlit port))).cntPort port 0).modPort port fun q =>
        let q :=
          { q with
            state := 2, ver := v, lanesRev := p.lanesRev % 16, reversed := p.reversed, partner := p.ident
            credits := (List.range 8).map (p.credits.getD · 0), creditOwed := List.replicate 8 0
            ackOwed := none, noVer := false, retryOwed := false, retrying := false, retryCount := 0 }
        q.renumber
      s.sendHeld (s.fnOf (port / 6))

def execLinkTrainDone (port : Nat) (p : Partner) (s : State) : Done := .next (s.trained port p)

/-- The link partner starts auto-negotiation or stops sending: the port loses lock and trains (R424). -/
def execLinkPartnerTraining (port : Nat) (s : State) : Done :=
  if (s.port port).state = 2 && port < 24 && s.up (port / 6) then .next (s.retrainPort port) else .next s

/-- Enable or disable a port: FAB_PORTn_CTL.EN (R416, R419). -/
def State.setPortEn (s : State) (port : Nat) (en : Bool) : State :=
  let p := s.port port
  if en then
    let s := s.modPort port fun p => { p with en := true }
    if (p.state = 0 || p.state = 4) && (s.die (port / 6)).portsOk.contains (port % 6) then s.startTraining port else s
  else if p.en then (s.modPort port fun p => { p with en := false }).stopPort port 0 else s

/-- FAB_PORTn_CTL.RETRAIN. -/
def State.askRetrain (s : State) (port : Nat) : State := if (s.port port).state = 2 then s.retrainPort port else s

/-! ## End-to-end retransmission (R421) -/

/-- R421: no acknowledgement has come within 100 µs. Another function of the module has the message already and discards the second
(R26); it is sent by no port, so no port counts it. -/
def execE2eRetransmit (f dest seq : Nat) (s : State) : Done :=
  match (s.func f).ep.unacked.find? fun m => m.dest = dest && m.vc = 0 && m.seq = seq with
  | none => .next s
  | some m =>
    if (s.endpointOf dest).isSome then .next s
    else
    let (s, p) := s.queueOut m (s.sentBytes m)
    let s := s.modFunc f fun g =>
      { g with ep := { g.ep with unacked := g.ep.unacked.map fun x => if x = m then { m with port := p } else x } }
    match p with
    | some p => .next (s.cntPort p 12)
    | none => .next s

end Sys2Proof.Machine
end

