-- ==== Sys2Proof/Machine/Firmware.lean ====
section
/-!
DEFINITION. Firmware overlays and the security role (chapters 17 and 18): staging, verification and activation of overlays, the
rollback counter, the attestation report, and the passing of the role to the standby.
-/
namespace Sys2Proof.Machine

/-! ## Images (R385, R398, R399) -/

def sigBytes : Nat := 3104

def Image.kind (im : Image) : Nat := at' im 2 1
def Image.minor (im : Image) : Nat := at' im 3 1
def Image.secVersion (im : Image) : Nat := at' im 6 1
def Image.bodyLen (im : Image) : Nat := at' im 8 4

/-- FORMAT, KIND, NUMGEN and REFORD are as Table 17.2 has them (R389). -/
def overlayHeaderOk (im : Image) (kind : Nat) : Bool :=
  at' im 0 2 = 1 && im.kind = kind && at' im 4 1 = 2 && at' im 5 1 = 1

/-- The number of the first check of R399 that an overlay fails. -/
def State.overlayFail (s : State) (im : Image) : Option Nat :=
  let sb := im.drop (64 + im.bodyLen)
  let slot := at' sb 2 1
  let key := (sb.drop 16).take 1793
  let sig := (sb.drop 1824).take 1280
  if 3 < slot || shake256 key ≠ leBytes 64 (Config.keySlotDigest slot).toNat then some 1
  else if !Config.falconVerify key (imageDigest im) sig then some 2
  else if im.secVersion < s.sec.arCount then some 3
  else none

def State.fwKind (s : State) (k : Nat) : FwKind := s.fw.getD k FwKind.rom
def State.modFw (s : State) (k : Nat) (h : FwKind → FwKind) : State := { s with fw := modNth h k s.fw }

/-! ## FW_STAGE (R389) -/

/-- R389: the command answers ACCEPTED; with no security core in service NOT_PRESENT follows (R346), and BUSY while the kind is staged or
activated already. -/
def fwStage' (c : Submission) (s : State) : State :=
  let kind := hb c 24 1
  let s := s.interim c stAccepted
  if s.sec.role = 2 then s.final c stNotPresent
  else if (s.funcs.any fun g => g.jobs.any fun j => j.sub.opcode = 0x0901 && j.arg = kind) ||
      (match s.act with | some a => a.kind = kind | none => false) then s.final c stBusy
  else s.modFunc c.func fun g => { g with jobs := g.jobs ++ [⟨c, kind, true, 0, 0⟩] }

def execFwStage (c : Submission) (s : State) : Done := .next (s.zcp 0x0901 c fwStage')

/-- The outcome of a staging (R389). -/
def State.fwStageEnd (s : State) (f : Nat) (j : AsyncJob) : State :=
  let c := j.sub
  let kind := j.arg
  let a := hb c 32 8
  let n := hb c 40 4
  let s := s.endJob f j
  let bad (r : Nat) : State := s.final c stBadParam (leBytes 1 r)
  if 3 < kind then bad 1
  else if n = 0 || 16 * MiB < n || !s.goodDest f a n then bad 2
  else
    let im : Image := s.devRead f a n
    if n < 64 || n ≠ 64 + im.bodyLen + sigBytes then bad 2
    else if !overlayHeaderOk im kind then bad 3
    else match s.overlayFail im with
      | some k => s.secDenied.final c stDenied (leBytes 1 k)
      | none =>
        let (s, q) := (s.modFw kind fun x => { x with staged := some im }).journalCmd c
        s.final c stOk [] [] q

/-- R389: the security core has copied and checked the image. While it restarts nothing completes (R388). -/
def execFwStageDone (kind : Nat) (s : State) : Done :=
  match s.fns.findSome? fun f => ((s.func f).job 0x0901 kind).map fun j => (f, j) with
  | some (f, j) =>
    if s.sec.role = 2 then .next ((s.endJob f j).final j.sub stNotPresent)
    else if s.procStops (.security s.sec.role) then .next s
    else .next (s.fwStageEnd f j)
  | none => .next s

/-! ## Activation (R390 to R393) -/

/-- EMERG reads 1 on some enabled die (R331). -/
def State.anyEmerg (s : State) : Bool := (List.range 4).any fun d => s.up d && (s.die d).power.emerg

/-- The processors of a kind in the order in which an activation restarts them (Table 17.6). -/
def State.restartOrder (s : State) (kind : Nat) : List Proc :=
  let dies := (List.range 4).filter s.up
  let lead := s.leader
  let last : List Nat := dies.filter (· ≠ lead) ++ dies.filter (· = lead)
  match kind with
  | 0 =>
    let holder := s.sec.role % 2
    (if (if holder = 0 then s.sec.alive1 else s.sec.alive0) then [Proc.security (1 - holder)] else []) ++ [.security holder]
  | 1 => last.map .power
  | 2 => (if s.quad then dies else last).map .scheduler
  | _ => dies.flatMap fun d => ((List.range 20).filter (s.cluUp d)).map fun c => .control d c

/-- The highest version that any source has negotiated. -/
def State.maxNegotiated (s : State) : Nat :=
  (s.fns.flatMap fun f =>
    let g := s.func f
    g.queues.filterMap (·.ver) ++ g.peers.map (·.2) ++ g.sideVer.toList).foldl max 0

/-- The highest version offered with a scheduler image running. -/
def State.highWith (s : State) (im : Image) : Nat :=
  let h := 0x20 + im.minor % 16
  if s.quad then 0x14 else if s.zcpPin = 0 then h else min h (max s.zcpPin 0x20)

/-- End an activation. -/
def State.actEnd (s : State) (a : Activation) : State :=
  let s := { s with act := none }
  let s := { s with procs := { s.procs with restarting := s.procs.restarting.filter fun p => !a.acting.contains p } }
  s.modFunc a.sub.func fun g => { g with jobs := g.jobs.filter fun j => !(j.sub = a.sub && j.sub.opcode = 0x0902) }

/-- The final completion of an activation, once (R371). -/
def State.actFinal (s : State) (a : Activation) (status : Nat) (detail : List Byte := []) (jrn : Nat := 0) : State :=
  if a.answered then s else s.final a.sub status detail [] jrn

/-- The first processor of the order restarts onto the image that its kind is to run (step 3, R392). Control cores of a die restart together. -/
def State.actRestart (s : State) (a : Activation) : State :=
  let first : List Proc := match a.waiting with
    | .control d _ :: _ => a.waiting.filter fun p => match p with | .control e _ => e = d | _ => false
    | p :: _ => [p]
    | [] => []
  let s := first.foldl (fun s p => s.pauseProc p) s
  { s with act := some { a with acting := first }, procs := { s.procs with restarting := (s.procs.restarting ++ first).eraseDups } }

/-- Step 2: the staged image becomes the active overlay, the replaced one the previous (R390, R401). -/
def State.actWrite (s : State) (a : Activation) : State :=
  if a.image.secVersion < s.sec.arCount then (s.actEnd a).actFinal a stBadParam (leBytes 1 4)
  else
    let s := s.modFw a.kind fun x => { x with previous := x.active, active := some a.image, staged := none }
    s.actRestart { a with stage := 2, written := true, waiting := s.restartOrder a.kind }

/-- R390. A module with no security core in service has nothing staged either, and NOT_PRESENT is its answer (R346). -/
def fwActivate' (c : Submission) (s : State) : State :=
  let kind := hb c 24 1
  let f := c.func
  let s := s.interim c stAccepted
  let reason (r : Nat) : State := s.final c stBadParam (leBytes 1 r)
  if s.act.isSome then s.final c stBusy
  else if s.sec.role = 2 then s.final c stNotPresent
  else match (s.fwKind kind).staged with
    | none => reason 1
    | some im =>
      if kind = 2 && s.highWith im < s.maxNegotiated && s.highWith im < s.zcpHigh then reason 2
      else
        let s := s.modFunc f fun g => { g with jobs := g.jobs ++ [⟨c, kind, true, 0, 0⟩] }
        let s := { s with deferTime := s.clk }
        let a : Activation := ⟨kind, c, 1, false, im, [], [], false⟩
        if s.anyEmerg then ({ (s.cntAll 25) with act := some a }).interim c stDeferred
        else s.actWrite a

def execFwActivate (c : Submission) (s : State) : Done := .next (s.zcp 0x0902 c fwActivate')

/-- R390: EMERG reads 0 on every enabled die. -/
def execFwActivateProceed (s : State) : Done :=
  match s.act with
  | some a =>
    if a.stage = 1 && !s.anyEmerg && !s.procStops (.security (s.sec.role % 2)) then .next (s.actWrite a) else .next s
  | none => .next s

/-- 500 ms have passed since the acceptance of an activation. -/
def State.actLate (s : State) : Bool := 50000000 ≤ (s.clk + 2 ^ 64 - s.deferTime) % 2 ^ 64

/-- R390: 500 ms have passed since acceptance, and the activation is still deferred. A security core that restarts or is halted completes
it when it resumes (R388). -/
def execDeferredTimeout (s : State) : Done :=
  match s.act with
  | some a =>
    if a.stage = 1 && !s.procStops (.security (s.sec.role % 2)) then .next ((s.actEnd a).actFinal a stDeferredTimeout) else .next s
  | none => .next s

/-- A security core that runs again finds a deadline that has passed. -/
def State.actDeadline (s : State) : State :=
  match s.act with
  | some a => if a.stage = 1 && s.actLate then (s.actEnd a).actFinal a stDeferredTimeout else s
  | none => s

/-- Step 4, once every processor of the kind has resumed on it: the image runs, the rollback counter advances, and the change is journalled and measured (R390, R400, R403). -/
def execFwActivateDone (s : State) : Done :=
  match s.act with
  | some a =>
    if a.stage ≠ 2 || !a.waiting.isEmpty || s.procStops (.security (s.sec.role % 2)) then .next s
    else
      let s := s.actEnd a
      let s := { s with sec := { s.sec with arCount := max s.sec.arCount (min 63 a.image.secVersion) } }
      let s := (s.modFw a.kind fun x => { x with running := some a.image }).measureKind a.kind (some a.image)
      let (s, q) := s.journalCmd a.sub
      let s := s.measure 3 (srcCode a.sub.src) q (imageDigest a.image) (leBytes 1 a.kind)
      .next ((s.cntAll 24).actFinal a stOk [] q)
  | none => .next s

/-- The end of a reversion: every processor of the kind has returned to the previous image, or to Kaliemi ROM (R392). -/
def State.revertEnd (s : State) (a : Activation) : State :=
  let s := s.actEnd a
  let old := (s.fwKind a.kind).active
  let s := (s.modFw a.kind fun x => { x with running := old }).measureKind a.kind old
  let (s, q) := s.journalCmd a.sub
  let d := match old with | some im => imageDigest im | none => zeros 64
  let s := s.measure 4 (srcCode a.sub.src) q d (leBytes 1 a.kind)
  let s := { s with sec := { s.sec with reverted := true } }
  (s.cntAll 26).actFinal a stBadParam (leBytes 1 3) q

/-- The processors of the kind restart, one after another, onto the image that was active before. -/
def State.revertNext (s : State) (a : Activation) : State := if a.waiting.isEmpty then s.revertEnd a else s.actRestart a

/-- R392: a processor restarted in step 3 has not served its watchdog on the new image; the previous image is restored as the active
overlay. A security core that restarts or is halted for another cause does so when it resumes. -/
def execActivationRevert (s : State) : Done :=
  let core : Proc := .security (s.sec.role % 2)
  match s.act with
  | some a =>
    if a.stage ≠ 2 || a.acting.isEmpty || (s.procStops core && !a.acting.contains core) then .next s
    else
      let s := s.modFw a.kind fun x => { x with active := x.previous, previous := none }
      let s := { s with procs := { s.procs with restarting := s.procs.restarting.filter fun p => !a.acting.contains p } }
      .next (s.revertNext { a with stage := 3, waiting := s.restartOrder a.kind })
  | none => .next s

/-- A processor resumes. One whose restart was step 3's has served its watchdog on the image, and the activation goes on to the next. A
restart of the security core for another cause starts the activation again from step 2, within its deadline; a reversion runs to its end
(R393). -/
def State.actResume (s : State) (p : Proc) : State :=
  match s.act with
  | none => s
  | some a =>
    if 2 ≤ a.stage && a.acting.contains p then
      let a := { a with waiting := a.waiting.filter (· ≠ p), acting := a.acting.filter (· ≠ p) }
      if !a.acting.isEmpty then { s with act := some a }
      else if a.stage = 3 then s.revertNext a else s.actRestart a
    else if p = .security (s.sec.role % 2) then
      if a.stage ≠ 1 then s.actRestart { a with waiting := s.restartOrder a.kind }
      else if s.actLate then (s.actEnd a).actFinal a stDeferredTimeout
      else s.actWrite a
    else s

/-- A processor that is in service with its die. -/
def State.procLives (s : State) : Proc → Bool
  | .security d => (d = 0 && s.sec.alive0) || (d = 1 && s.sec.alive1)
  | .power d | .scheduler d => s.up d
  | .control d c => s.cluUp d c

/-- An activation goes on without the processors that a lost die, cluster or core took with it (R407). -/
def State.actPrune (s : State) : State :=
  match s.act with
  | none => s
  | some a =>
    let left := a.waiting.filter s.procLives
    if a.stage < 2 || left = a.waiting then s
    else
      let s := { s with procs := { s.procs with restarting := s.procs.restarting.filter s.procLives } }
      let a := { a with waiting := left, acting := a.acting.filter s.procLives }
      if !a.acting.isEmpty then { s with act := some a }
      else if a.stage = 3 then s.revertNext a else s.actRestart a

/-! ## Debug unlocking (R410) -/

/-- Whether a token is accepted (Table 18.8, R410). No token is with no security core in service to verify it. -/
def State.tokenOk (s : State) (t : List Byte) : Bool :=
  let slot := at' t 2 1
  let key := (t.drop 64).take 1793
  s.sec.role ≠ 2 && t.length = 3152 && at' t 0 2 = 1 && 4 ≤ slot && slot ≤ 7 &&
    (t.drop 8).take 16 = leBytes 8 s.fuses.serialLo.toNat ++ leBytes 8 s.fuses.serialHi.toNat &&
    s.sec.challenge = some ((t.drop 24).take 32) && shake256 key = leBytes 64 (Config.keySlotDigest slot).toNat &&
    Config.falconVerify key (shake256 (t.take 1872)) ((t.drop 1872).take 1280)

/-- R410: the challenge is spent either way. M7 takes the event with the sequence number of the last change recorded (log 54). -/
def State.judgeToken (s : State) (token : List Byte) : State :=
  let ok := s.tokenOk token
  let s := { s with sec := { s.sec with challenge := none } }
  if ok then
    let s := { s with sec := { s.sec with scopes := s.sec.scopes ||| (at' token 3 1 % 8) } }
    (s.measure 6 97 (s.journal.nextSeq - 1) (shake256 token) []).cntAll 30
  else s.cntAll 31

/-- The security core judges the tokens that it has, in the order they came. -/
def State.judgeTokens (s : State) : State :=
  s.sec.tokens.foldl State.judgeToken { s with sec := { s.sec with tokens := [] } }

/-- The tokens that waited for the security core. -/
def State.heldTokens (s : State) : State := if s.procStops (.security (s.sec.role % 2)) then s else s.judgeTokens

/-! ## The security role (R343, R346, R383, R407) -/

/-- The security core of die 0 or of die 1 is out of service. The role passes to the standby, once; an activation past step 2 starts again
from step 2 (R393, R407). -/
def State.loseSecurity (s : State) (die : Nat) : State :=
  let keep (n : Nat) (b : Bool) : Bool := b && die ≠ n
  let s := { s with sec := { s.sec with alive0 := keep 0 s.sec.alive0, alive1 := keep 1 s.sec.alive1 } }
  if s.sec.role ≠ die || 1 < die then s
  else
    let unstage (x : FwKind) : FwKind := { x with staged := none }
    let s := { s with fw := s.fw.map unstage }
    let stop (st : Nat) (detail : List Byte) (s : State) : State :=
      match s.act with | some a => (s.actEnd a).actFinal a st detail | none => s
    if die = 0 && s.sec.alive1 then
      let s := ({ s with sec := { s.sec with role := 1 } }).measure 5 0 0 [] []
      let s := { s with procs := { s.procs with restarting := s.procs.restarting.filter fun p => p ≠ Proc.security 0 } }
      (match s.act with
      | some a => if a.stage = 1 then stop stBadParam (leBytes 1 1) s else s.actRestart { a with waiting := s.restartOrder a.kind }
      | none => s).heldTokens
    else (stop stNotPresent [] { s with sec := { s.sec with role := 2 } }).judgeTokens

/-! ## Attestation (R405, R406, R411) -/

/-- The identity certificate (Table 18.1). -/
def State.certificate (s : State) : List Byte :=
  leBytes 2 1 ++ leBytes 2 3136 ++ leBytes 12 0x4D2D34342D54474C ++ leBytes 8 s.fuses.serialLo.toNat ++ leBytes 8 s.fuses.serialHi.toNat ++
    zeros 16 ++ leBytes 1793 Config.identityKey.toNat ++ zeros 15 ++ leBytes 1280 Config.certificateSignature.toNat

/-- Bytes 0 to 3,743 of the report (Table 18.7). -/
def State.reportBody (s : State) (nonce : List Byte) : List Byte :=
  let activating := match s.act with | some a => 2 ≤ a.stage | none => false
  leBytes 2 1 ++ zeros 2 ++ leBytes 4 5024 ++ leBytes 8 (s.journal.nextSeq - 1) ++ leBytes 1 s.sec.role ++ leBytes 1 s.sec.arCount ++
    leBytes 1 s.sec.scopes ++ leBytes 1 (b2n s.quad) ++ leBytes 1 (flag activating 0 + flag s.sec.reverted 1) ++ zeros 3 ++
    leBytes 8 s.sec.m6Events ++ zeros 32 ++ (nonce ++ zeros 32).take 32 ++
    s.sec.meas.flatMap (fun m => (m ++ zeros 64).take 64) ++ s.certificate

def secAttest' (c : Submission) (s : State) : State :=
  let dest := hb c 24 8
  if s.sec.role = 2 || bit s.sec.scopes 2 then s.single c stNotPresent
  else if !s.outOk c dest 5024 then s.single c stBadParam
  else
    let body := s.reportBody (c.small.drop 8)
    let sig := leBytes 1280 (Config.identitySign (shake256 body)).toNat
    (s.cntAll 28).outSingle c dest (body ++ sig) (leBytes 4 5024)

def execSecAttest (c : Submission) (s : State) : Done := .next (s.zcp 0x0801 c secAttest')

/-! ## Registers -/

/-- SEC_STAT. -/
def State.secStat (s : State) : Word :=
  pack [(0, 2, s.sec.role), (2, 6, s.sec.arCount), (8, 3, s.sec.scopes), (11, 1, b2n (!(bit s.sec.scopes 2 || s.sec.role = 2))),
    (16, 16, s.sec.m6Events)]

/-- MOD_FWSTAT of the selected kind. -/
def State.fwStat (s : State) : Word :=
  let k := s.fwKind s.fwSel
  let st := match s.act with | some a => if a.kind = s.fwSel then a.stage else 0 | none => 0
  let build := match k.running with | some im => at' im 16 4 | none => (Config.romBuild s.fwSel).toNat
  let ver := match k.running with | some im => im.secVersion | none => 0
  let minor := match k.running with | some im => im.minor | none => 0
  pack [(0, 1, b2n k.running.isSome), (1, 1, b2n k.staged.isSome), (2, 2, st), (4, 1, b2n k.previous.isSome), (8, 6, ver),
    (16, 4, minor), (32, 32, build)]

/-- DIE_FWSTAT. -/
def State.dieFwStat (s : State) (d : Nat) : Word :=
  let n (h : Proc → Bool) : Nat := ((s.procs.restarts.filter fun x => h x.1).map (·.2)).sum % 256
  let sec := n fun p => p = .security d
  let pwr := n fun p => p = .power d
  let sch := n fun p => p = .scheduler d
  let ctl := n fun p => match p with | .control e _ => e = d | _ => false
  pack [(0, 8, if d < 2 then sec else 0), (8, 8, pwr), (16, 8, sch), (24, 8, ctl), (32, 5, s.procs.lastCluster.getD d 0),
    (37, 1, b2n (s.sec.role = d && d < 2))]

end Sys2Proof.Machine
end

