-- ==== Sys2Proof/Machine/Phases.lean ====
section
/-!
DEFINITION. The phases of a step (chapter 3): STEP_RUN, the start of descriptors, their completion, phase boundaries, running ahead,
re-execution, quenching, and the end of a step with its record and completion. Slices of phase S (R97, R107, R112).
-/
namespace Sys2Proof.Machine

/-! ## Jobs of a phase (R74 to R77, R243) -/

def State.leadClk (s : State) (f : Nat) : Nat := (s.die (s.lead f)).clk

/-- The descriptors of a phase in the order they are taken up: S, G, F and L ascending (R75); B1 the losses that give seeds, then F and G
descending, then the FORCE_TERM losses (R76, R77); B2 its two sweeps, each behind the losses that give its seeds (R243). A loss with
NO_GRAD gives none. -/
def Plan.jobsOf (p : Plan) (ph : Phase) : List Job :=
  let ix := List.range p.descs.length
  let of (k : Nat) : List Nat := ix.filter fun i => (p.desc i).phase = k
  let first (l : List Nat) : List Job := l.map fun i => ⟨i, 0, false, []⟩
  let second (l : List Nat) : List Job := l.map fun i => ⟨i, 0, true, []⟩
  let losses (force : Bool) : List Nat := (of 3).filter fun i => (p.desc i).forceTerm = force
  let back (l : List Nat) : List Nat := l.filter fun i => !(p.desc i).noGrad
  match ph with
  | .s => first (of 0)
  | .g => first (of 1)
  | .f => first (of 2)
  | .l => first (losses false)
  | .b1 => first ((back (losses false)).reverse) ++ first ((back (of 1 ++ of 2)).reverse) ++ first (losses true)
  | .b2 => first (back (losses true)) ++ first (back (of 2)) ++ second ((back (losses false)).reverse) ++ second ((back (of 2)).reverse)
  | .r | .u => []

/-- The phase after a phase (R74). -/
def Plan.after (p : Plan) : Phase → Phase
  | .s => .g
  | .g => .f
  | .f => .l
  | .l => .b1
  | .b1 => if p.force then .b2 else .r
  | .b2 => .r
  | .r | .u => .u

/-- A step at its start, with the cores that placement uses from here (R19). The journal number is that of the last entry made
(log 41). -/
def State.newStep (s : State) (c : Submission) (plan : Nat) : Step :=
  { sub := c, plan := plan, n := c.step, phase := .s, jobs := [], flags := 0, loss := [], durations := List.replicate 8 0
    phaseStart := s.leadClk c.func, jrn := s.journal.nextSeq - 1, frozen := [], tileSeq := List.replicate 4 0, map := s.placeMap c.func, backlog := []
    leaves := [], grads := [], tangents := [], gradTangents := [], wgrads := [], uDone := false, waitExpired := false
    quenched := false, memFull := false, reexec := false, drew := [], waitUs := 0, away := false }

/-! ## Slices (R97) -/

/-- Deal the slices of an S descriptor to the Skinks in turn, each descriptor from the first of them on; R97 does not say whether the
turn of the descriptor before it goes on (DESIGN CHOICE, log 77). With no Skink to take them they wait at the lead die (R377). -/
def State.dealSlices (s : State) (f : Nat) (ahead : Bool) (i : Nat) (D : Desc) : State :=
  let ks := s.skinks f
  (List.range D.slices).foldl (fun s q =>
    let (d, c) := (ks[q % ks.length]?).getD (s.lead f, 0)
    s.modSkink d c fun k => { k with dealt := k.dealt ++ [(i, q, b2n ahead)] }) s

/-- The step buffers of a parity are empty again, and the spill of that parity is freed (R78, R111). -/
def State.clearBuffers (s : State) (f par : Nat) : State :=
  let s := s.modFunc f fun g => { g with asks := g.asks.filter fun a => a.sub.isSome || a.parity ≠ par }
  (s.diesOf f).foldl (fun s d =>
    let s := s.freeOwner f (.spill d par)
    (List.range 20).foldl (fun s c => s.modSkink d c fun k =>
      { k with slicesDone := 0, used0 := if par = 0 then 0 else k.used0, used1 := if par = 0 then k.used1 else 0 }) s) s

/-- Slices of a step that Skinks still hold. -/
def State.slicesLeft (s : State) (f : Nat) (ahead : Bool) (only : Nat → Bool) : Bool :=
  (s.diesOf f).any fun d => (List.range 20).any fun c =>
    (s.clu d c).skink.dealt.any fun x => x.2.2 = b2n ahead && only x.1

/-- The slice directory of an S descriptor (Tables 4.6 and 4.7). -/
def State.writeDirectory (s : State) (f : Nat) (D : Desc) (i n : Nat) : State :=
  let rs := sortBy (fun (a b : SliceRec) => a.slice < b.slice) ((s.func f).slices.filter fun r => r.step = n && r.desc = i)
  let sum (h : SliceRec → Nat) : Nat := (rs.map h).sum
  let head := leBytes 8 n ++ leBytes 4 D.slices ++ zeros 4 ++ leBytes 8 (sum (·.entries)) ++ leBytes 8 (sum (·.edges)) ++
    leBytes 4 (sum (·.blocks)) ++ zeros 28
  s.devWrite f (D.dirAddr n) (head ++ rs.flatMap fun r => leBytes 4 r.slice ++ leBytes 4 r.blocks ++ leBytes 8 r.addr)

/-! ## Starting descriptors (R75) -/

/-- A dependency is met when its descriptor is not still to complete in this phase. -/
def Step.depMet (st : Step) (d : Nat) : Bool :=
  d = 0xFFFF || !st.jobs.any fun j => j.index = d && j.st ≠ 2

/-- The table of a GATHER is frozen (R78). -/
def Func.frozenGather (g : Func) (D : Desc) : Bool :=
  match g.table D.tableId with | some t => !t.trainable | none => true

/-- The job that may start next, if one may. In B1 and B2 descriptors are processed one at a time. -/
def Func.nextJob (g : Func) (p : Plan) (st : Step) (ahead : Bool) : Option Job :=
  match st.jobs.find? fun j => j.st = 0 with
  | none => none
  | some j =>
    let D := p.desc j.index
    let ok : Bool := match st.phase with
      | .b1 | .b2 => !st.jobs.any fun x => x.st = 1
      | _ => st.depMet D.dep0 && st.depMet D.dep1 && !(ahead && st.phase = .g && !g.frozenGather D)
    if ok then some j else none

/-- Vectors of a descriptor that the vector engines share in a phase. -/
def Ctx.shared (x : Ctx) (ph : Phase) : Nat := match ph with | .b1 | .b2 => x.backCount | _ => x.vectors

/-- Mark the vector engines that share a descriptor; one that is being disabled then reads disabled (R229). -/
def State.vecMark (s : State) (x : Ctx) (ph : Phase) (cs : List Nat) (state : Nat) : State :=
  (shares cs (x.shared ph)).foldl (fun s (c, _, n) => s.modVec c fun v =>
    if v.state < 4 then
      let off := v.disabling && state = 0
      { v with
        state := if off then 4 else state
        disabling := v.disabling && !off
        opkind := x.D.opkind % 256
        layer := x.index
        vec := if state = 0 then n else 0 }
    else v) s

/-- Start a job: slices are dealt, requests leave, inputs are saved, tiles are placed, and the vector engines `cs` take their shares. -/
def State.startJob (s : State) (f : Nat) (p : Plan) (ahead : Bool) (st : Step) (j : Job) (cs : List Nat) : State :=
  let i := j.index
  let D := p.desc i
  match st.phase with
  | .s => s.dealSlices f ahead i D
  | .g => s.startGather f p st.n i
  | .f =>
    let x := s.ctx f p st.n i
    let s := s.saveInput f x
    if D.isLinear then s.issue f p st.n i 0 [(0, .fwd)] else s.vecMark x .f cs 1
  | .l => s.vecMark (s.ctx f p st.n i) .l cs 1
  | .b1 =>
    let x := s.ctx f p st.n i
    if D.isLinear then (if x.reached st.grads then s.issue f p st.n i 1 (b1Shapes st D) else s)
    else if D.phase = 1 then s else s.vecMark x .b1 cs 1
  | .b2 =>
    let x := s.ctx f p st.n i
    if !D.isLinear then s.vecMark x .b2 cs 1
    else if !j.second then (if x.tangentReaches st.tangents then s.issue f p st.n i 2 [(0, .fwd)] else s)
    else if x.reached st.grads || x.reached st.gradTangents then
      s.issue f p st.n i 2 ((0, .dx) :: (if st.trains D then [(2, .dw), (3, .dw)] else []))
    else s
  | .r | .u => s

def Step.setJob (st : Step) (j : Job) (v : Nat) (cs : List Nat) : Step :=
  { st with jobs := st.jobs.map fun x => if x.index = j.index && x.second = j.second then { x with st := v, cores := cs } else x }

/-- The wait of a die for a GATHER is over: its MIG_WAIT rises by the whole microseconds (R151, log 24). -/
def State.endWaitAt (s : State) (f i d : Nat) : State :=
  match (s.func f).gatherWait.find? fun x => x.1 = i && x.2.1 = d with
  | none => s
  | some (_, _, t) =>
    (s.cntDie d 12 (((s.die d).clk + 2 ^ 64 - t) % 2 ^ 64 / 100)).modFunc f fun g =>
      { g with gatherWait := g.gatherWait.filter fun x => !(x.1 = i && x.2.1 = d) }

/-- A GATHER waits on every die that misses a location update, from the time that its counter shows; on the others the wait, if there was
one, is over (R151). -/
def State.waitGather (s : State) (f i table n : Nat) : State :=
  (s.upDies f).foldl (fun s d =>
    if !s.missingAt f d table n then s.endWaitAt f i d
    else
      let clk := (s.die d).clk
      s.modFunc f fun g =>
        { g with gatherWait := if g.gatherWait.any (fun x => x.1 = i && x.2.1 = d) then g.gatherWait else g.gatherWait ++ [(i, d, clk)] }) s

/-- The wait is over on every die. -/
def State.endWait (s : State) (f i : Nat) : State := (s.upDies f).foldl (fun s d => s.endWaitAt f i d) s

/-- A die whose blocks a GATHER reads has no Bellows: the work waits (R377). -/
def State.noBellows (s : State) (f n : Nat) (D : Desc) : Bool :=
  D.phase = 1 && (s.func f).slices.any fun r =>
    r.step = n && r.desc = D.srcDesc && !(List.range 20).any (s.bellowsOk r.die)

/-- Whether a job of a phase is work of vector engines alone: of every kind but LINEAR, EDGE_LINEAR and GATHER. -/
def Desc.onVector (D : Desc) (ph : Phase) : Bool :=
  match ph with
  | .f | .l | .b1 | .b2 => !D.isLinear && D.phase ≠ 1
  | .s | .g | .r | .u => false

/-- Start every job that may start; `fuel` bounds their number. -/
def State.startReady (s : State) (f : Nat) (ahead : Bool) : (fuel : Nat) → State
  | 0 => s
  | n + 1 =>
    match (s.func f).activePlan, (s.func f).step? ahead with
    | some (_, p), some st =>
      match (s.func f).nextJob p st ahead with
      | none => s
      | some j =>
        if s.noBellows f st.n (p.desc j.index) || ((p.desc j.index).onVector st.phase && !s.vecReady st.map) then s
        else if st.phase = .g && s.updateMissing f (p.desc j.index).tableId st.n then s.waitGather f j.index (p.desc j.index).tableId st.n
        else
          let s := if st.phase = .g then s.endWait f j.index else s
          let cs := s.vecCores st.map
          ((s.modStep f ahead fun x => x.setJob j 1 cs).startJob f p ahead st j cs).startReady f ahead n
    | _, _ => s

def State.startJobs (s : State) (f : Nat) (ahead : Bool) : State :=
  match (s.func f).step? ahead with
  | some st => if st.away || s.leadStops f then s else s.startReady f ahead (st.jobs.length + 1)
  | none => s

/-! ## Barriers (R333, R334) -/

/-- A barrier releases on every die of a function: the settings of DRN_CTL that were last written are in force from here, and
clusters 1 to 19 wait for their start slots (log 42). -/
def State.release (s : State) (f : Nat) : State :=
  (s.upDies f).foldl (fun s d =>
    (s.cntDie d 56).modDie d fun x => { x with
      drone := { x.drone with
        enNow := x.drone.en
        slewNow := max 5 (min 200 x.drone.slew)
        floorNow := min 800 x.drone.floor
        state := 3
        unstarted := (List.range 20).drop 1 }
      power := { x.power with rampLevel := none } }) s

/-- The engines fall idle at the end of a phase: from the current of the last window Drone ramps the core rail down, when EN is set and that
current is above FLOOR; at FLOOR it issues nothing (R333). -/
def State.idleRamp (s : State) (f : Nat) : State :=
  (s.upDies f).foldl (fun s d => s.modDie d fun x =>
    let ramps := x.drone.en && Decidable.decide (min 800 x.drone.floor < x.drone.amps)
    { x with
      drone := { x.drone with
        enNow := x.drone.en
        slewNow := max 5 (min 200 x.drone.slew)
        floorNow := min 800 x.drone.floor
        state := if ramps then 1 else if x.drone.en then 2 else 0
        unstarted := [] }
      power := { x.power with rampLevel := if ramps then some x.power.inForce else none } }) s

/-- R334: the start slot of a cluster: its sparse engines and its Bellows start what waits on them, and U when it is the last. -/
def execStaggerStart (die cluster : Nat) (s : State) : Done :=
  let s := s.modDie die fun x =>
    let left := x.drone.unstarted.filter (· ≠ cluster)
    { x with drone := { x.drone with
      unstarted := left
      state := if x.drone.state = 3 && left.isEmpty then 0 else x.drone.state } }
  let s := ((List.range 640).filter fun i => coreDie i = die && coreClu i = cluster).foldl (fun s i => s.sparseStart i) s
  .next ((s.sendRequests (s.fnOf die)).tryU (s.fnOf die))

/-! ## Entering a phase -/

/-- What happens when a phase of the step in work begins, before its descriptors start. -/
def State.onEnter (s : State) (f : Nat) (slot : Nat) (p : Plan) (st : Step) : State :=
  match st.phase with
  | .s => s.clearBuffers f (st.n % 2)
  | .g | .l => s
  | .f => s.twinCheck f
  | .b1 =>
    let s := s.twinCheck f
    let (p, frozen) := ((((s.func f).plans.getD slot none).getD p)).readFreezes st.n
    (s.setPlan f slot p).modStep f false fun x => { x with frozen := frozen }
  | .b2 => s.twinCheck f
  | .r => s.startReduce f
  | .u => s.beginU f

/-- Bytes from the start of a descriptor's output to its end. -/
def Ctx.outBytes (x : Ctx) (p : Plan) : Nat :=
  let o := p.outForm x.rd x.step x.index
  if x.D.phase = 0 then 64 + 16 * x.D.slices
  else if o.rows = 0 then 0 else (o.rows - 1) * o.stride + (if x.D.phase = 3 then 4 * x.D.cols else o.row)

/-- Runs that hold working data of the step: what the plan allocated, step buffers, spill, and the outputs of its descriptors
(Table 13.7). -/
def State.workRuns (s : State) (f slot : Nat) (p : Plan) (st : Step) : List (Nat × Nat) :=
  let mem := (s.func f).allocs.filterMap fun a => match a.owner with
    | .plan k => if k = slot then some (a.base, a.len) else none
    | .step _ _ | .spill _ _ => some (a.base, a.len)
    | _ => none
  mem ++ (List.range p.descs.length).filterMap fun i =>
    let x := s.ctx f p st.n i
    (s.key f (if x.D.phase = 0 then x.D.dirAddr st.n else x.D.outAddr)).map fun k => (k, x.outBytes p)

/-- Read what the step has in apertures: its working memory, and what its tables have there besides rows (R314). The rows are read one by one
where they are used. -/
def State.fetchWork (s : State) (f slot : Nat) (p : Plan) (st : Step) : State :=
  let shards := (s.func f).tables.flatMap fun t => t.2.blocks.flatMap fun b => b.shards.map (·.base)
  let areas := ((s.func f).allocs.filter fun a => !shards.contains a.base).map fun a => (a.base, a.len)
  let runs := ((areas ++ s.workRuns f slot p st).eraseDups).filter fun r => apBase ≤ r.1
  runs.foldl (fun s r => s.peerAccess r.1 false r.2 [] [] workTable 0) s

/-- A read of working memory is still unanswered. -/
def Func.workAway (g : Func) : Bool :=
  g.apertures.any fun x => x.2.pending.any fun q => !q.mem.write && q.table = workTable

/-- A phase begins: what happens at its start, and what may start. -/
def State.begin (s : State) (f : Nat) (ahead : Bool) : State :=
  match (s.func f).activePlan, (s.func f).step? ahead with
  | some (slot, p), some st => (s.onEnter f slot p st).startJobs f ahead
  | _, _ => s

/-- Enter a phase of a step. It begins once the working memory that it may read in apertures has been read; S reads none (log 60). -/
def State.enter (s : State) (f : Nat) (ahead : Bool) (ph : Phase) : State :=
  match (s.func f).activePlan, (s.func f).step? ahead with
  | some (slot, p), some _ =>
    let clk := s.leadClk f
    let s := s.modStep f ahead fun st => { st with phase := ph, phaseStart := clk, jobs := p.jobsOf ph, away := false }
    let s := match (s.func f).step? ahead with | some st => if ph = Phase.s then s else s.fetchWork f slot p st | none => s
    if ph ≠ Phase.s && (s.func f).workAway then s.modStep f ahead fun st => { st with away := true } else s.begin f ahead
  | _, _ => s

/-- The working memory that a phase waits for may have been read: the phase begins. -/
def State.workBack (s : State) (f : Nat) (ahead : Bool) : State :=
  match (s.func f).step? ahead with
  | some st => if st.away && !(s.func f).workAway then (s.modStep f ahead fun x => { x with away := false }).begin f ahead else s
  | none => s

/-- The time spent in the phase that ends (R88). -/
def Step.close (st : Step) (clk : Nat) : Step :=
  { st with durations := st.durations.set (phaseNo st.phase - 1) ((clk + 2 ^ 64 - st.phaseStart) % 2 ^ 32) }

/-- S of the step that runs ahead begins. -/
def State.enterAhead (s : State) (f : Nat) : State :=
  match (s.func f).ahead, (s.func f).activePlan with
  | some st, some (_, p) =>
    ((s.clearBuffers f (st.n % 2)).modStep f true fun st => { st with jobs := p.jobsOf .s }).startJobs f true
  | _, _ => s

/-- R200: the engine of every compressed tile, chosen when the plan becomes active and anew when the enabled-core map has changed. -/
def State.chooseEngines (s : State) (f slot : Nat) : State :=
  match (s.func f).plans.getD slot none with
  | none => s
  | some p =>
    let m := s.placeMap f
    if p.choiceMap = m then s
    else
      let cs := (List.range p.descs.length).flatMap fun i =>
        let D := p.desc i
        if D.isLinear && D.wlayout ≠ 0 then (s.ctx f p 0 i).choices (s.homeOf f m) else []
      s.setPlan f slot { p with choices := cs, choiceMap := m }

/-- A re-plan is open: fail-over has removed a die and REPLAN_DONE has not come (R84, R344). -/
def State.replanning (s : State) (f : Nat) : Bool := !s.quad && (s.upDies f).any fun d => (s.die d).safState = 1

/-- Start the next accepted step when the step in work is over (R74), keeping what ran ahead (R80), or start running ahead when
R78 allows it, once every command that was held for it has completed (R369). A step starts, and runs ahead, only behind an open re-plan (R80). A step that ran ahead keeps the start time of its
phase: R88 does not say whether the duration of its G takes in the wait for U of the step before, and it does (DESIGN CHOICE,
log 41). -/
def State.startSteps (s : State) (f : Nat) : State :=
  let g := s.func f
  if s.replanning f then s else
  match g.cur, g.ahead, g.accepted with
  | none, some st, _ =>
    let s := s.chooseEngines f st.plan
    let st := { st with map := s.placeMap f }
    let s := (s.modFunc f fun g => { g with cur := some st, ahead := none }).release f
    let s := (s.diesOf f).foldl (fun s d => (List.range 20).foldl (fun s c => s.modSkink d c fun k =>
      { k with dealt := k.dealt.map fun x => (x.1, x.2.1, 0) }) s) s
    s.startJobs f false
  | none, none, (slot, c) :: _ =>
    if g.stepWaits c.step then s else
    let s := (s.chooseEngines f slot).openChorus f slot c.step
    let st := s.newStep c slot
    ((s.modFunc f fun g => { g with cur := some st }).release f).enter f false .s
  | some st, none, _ :: (slot, c) :: _ =>
    let runs := match g.activePlan with | some (_, p) => p.runahead | none => false
    if runs && (st.phase = .r || st.phase = .u) && !st.quenched && !g.stepWaits c.step then
      let s := s.openChorus f slot c.step
      let nx := (s.newStep c slot).flag flRunahead
      (s.modFunc f fun g => { g with ahead := some nx }).enterAhead f
    else s
  | _, _, _ => s

/-- R369: commands whose hold has ended take effect from here on, and a step that they have kept back begins once they have completed. -/
def execStepTaggedRelease (f : Nat) (s : State) : Done :=
  .next ((s.modFunc f fun g =>
    { g with held := g.held.filter g.holds, released := g.released ++ g.held.filter fun c => !g.holds c }).startSteps f)

/-! ## LOC_UPDATE (R147, R151) -/

/-- R147, step 8: a location update arrives; a GATHER and a request that waited for it go on. -/
def execLocUpdate (f : Nat) (m : TableMsg) (s : State) : Done :=
  if !s.comes f (.tableMaint m) then .next s
  else .next ((((s.locUpdate f m).retryRequests f).startJobs f false).startJobs f true)

end Sys2Proof.Machine
end

