-- ==== Sys2Proof/Machine/Steps.lean ====
section
/-!
DEFINITION. The progress of a step (R74 to R88): slices and descriptors that complete, phase boundaries, re-execution (R84, R316),
quenching (R379), the step record and the final completion.
-/
namespace Sys2Proof.Machine

/-! ## SKINK_SLICE_DONE (R97 to R113) -/

/-- The blocks of a slice, with what building them counted (R97 to R106). Of a mesh they are the prepared ones, as the WORK region holds
them (R95). The graph is read as its memory stands: where the host has changed that, R91 leaves the block lists undefined (DESIGN
CHOICE, log 77). -/
def State.buildSlice (s : State) (f : Nat) (p : Plan) (D : Desc) (n q : Nat) : Built :=
  let rd : Rd := s.devRead f
  match (s.func f).graphs.getD (D.op 64 1) none with
  | none => ⟨[], 0, 0, 0, 0, false⟩
  | some g =>
    if D.opkind = 1 then buildKhop rd g D p.jobSeed n q
    else if D.opkind = 2 then buildRadius rd g D n q
    else
      let parts := (n * D.op 72 4 + q) % max 1 g.partitions
      ⟨workBlocks rd (g.workBytes / 64 + 1) g.work parts, 0, 0, 0, 0, false⟩

/-- MODE of a slice: 0 sampling, 1 radius, 2 partition. -/
def Desc.skinkMode (D : Desc) : Nat := D.opkind - 1

/-- Spill finds no room at any level: the Skink stops and the step will be quenched; MEM_FULL counts the step once (R312). -/
def State.skinkFull (s : State) (f d c : Nat) (ahead : Bool) : State :=
  let full := match (s.func f).step? ahead with | some st => st.memFull | none => false
  let s := if full then s else (s.cntDie d 44).emit d 7 d 0 1
  let s := s.modStep f ahead fun st => { st with memFull := true }
  s.modSkink d c fun k => { k with dealt := k.dealt.filter fun x => x.2.2 ≠ b2n ahead, retried := false, spilling := false }

/-- The peers of a plan's Chorus group that can be asked for working memory, in ascending position (R313). -/
def Func.groupPeers (g : Func) (p : Plan) : List Nat :=
  match g.groups.getD p.group none with
  | some gr => g.askable gr.members gr.me
  | none => []

/-- Spill finds no room: the peers of the plan's group are asked once for it, and the slice waits for them; the Skink stops when they
have answered and there is still no room (R312, R313). -/
def State.spillShort (s : State) (f d c : Nat) (p : Plan) (n : Nat) (ahead : Bool) (bytes : Nat) : State :=
  let g := s.func f
  match g.asks.find? fun a => a.sub.isNone && a.parity = n % 2 with
  | some a => if a.waits.isSome then s else s.skinkFull f d c ahead
  | none =>
    if (g.groupPeers p).isEmpty then s.skinkFull f d c ahead else s.askPeers f none (n % 2) (g.groupPeers p) bytes

/-- A slice is built in the cluster's buffer (R101, R108, R111). -/
def State.sliceBuilt (s : State) (f d c slot : Nat) (p : Plan) (st : Step) (ahead : Bool) (i q : Nat) : State :=
  let D := p.desc i
  let b := s.buildSlice f p D st.n q
  match s.placeSlice f d c (st.n % 2) b.blocks with
  | none => s.spillShort f d c p st.n ahead (b.blocks.map (·.size)).sum
  | some (at', s) =>
    let addrs := at'.map (·.1)
    let spills := at'.map (·.2)
    let s := s.writeBlocks f D.skinkMode q st.n b.blocks addrs spills
    let rec' : SliceRec :=
      { step := st.n, desc := i, slice := q, blocks := b.blocks.length, addr := addrs.headD 0
        entries := (b.blocks.map fun k => k.entries.length).sum, edges := (b.blocks.map fun k => k.edges.length).sum
        die := d, cluster := c }
    let s := s.modFunc f fun g => { g with slices := g.slices ++ [rec'] }
    let s := ((((((s.cntClu d c 0 b.exam).cntClu d c 1 b.pairs).cntClu d c 2 b.dup).cntClu d c 3 b.blocks.length).cntClu d c 4
      b.trunc).cntClu d c 5 (spills.filter id).length)
    let s := if b.badSeed then s.violOor f else s
    s.modSkink d c fun k =>
      { k with dealt := k.dealt.drop 1, slicesDone := (k.slicesDone + 1) % 2 ^ 16, retried := false, spilling := false, plan := slot
               mode := D.skinkMode }

/-- R101, R107, R112, R312: the Skink of a cluster ends the slice it works on, the first of those dealt to it; `parity` says that a parity error was found in it. DESIGN CHOICE (log 77): the counters count the build that
completes, so one that is discarded counts nothing but SKK_PARITY; R114 does not say. -/
def execSkinkSliceDone (die cluster : Nat) (parity : Bool) (s : State) : Done :=
  let k := (s.clu die cluster).skink
  let f := s.fnOf die
  match k.dealt, (s.func f).activePlan with
  | (i, q, a) :: _, some (slot, p) =>
    match (s.func f).step? (a = 1) with
    | none => .next s
    | some st =>
      if !k.takes || !s.cluUp die cluster || st.quenched || s.earlyStep f die cluster st.n ||
          (s.procStops (.control die cluster) && k.inWork ≠ k.dealt.head?) then .next s
      else if !parity then .next ((s.sliceBuilt f die cluster slot p st (a = 1) i q).exercised die [.skink die cluster])
      else
        let s := s.cntClu die cluster 6
        if k.retried then .next (s.disableCluster die cluster 8)
        else .next ((s.note die 8 1 cluster 1).modSkink die cluster fun k => { k with retried := true })
  | _, _ => .next s

/-! ## DESCRIPTOR_COMPLETE -/

/-- Leaves of a layer's pass that are no longer needed. -/
def State.dropLeaves (s : State) (f i pass : Nat) : State :=
  s.modStep f false fun st => { st with leaves := st.leaves.filter fun z => !(z.layer = i && z.pass = pass) }

/-- Predictions of a FORCE_TERM loss: B1's input gradients at IN_ADDR times PRED_SCALE (R77, R218). -/
def Ctx.forcePred (x : Ctx) (l : List GradBuf) (v c : Nat) : N F32 :=
  fmul (x.readGrad l (x.inAt false v c)) x.D.predScale

/-- The end of a running job, none while part of its work is still to come. What it reads is read here, or at the commit of its tiles: a
descriptor whose producer DEP0 and DEP1 do not name reads memory as it stands then, where R75 leaves the values undefined (DESIGN
CHOICE, log 78). -/
def State.finishJob (s : State) (f : Nat) (p : Plan) (ahead : Bool) (st : Step) (j : Job) (r : VecReport) : Option State :=
  let i := j.index
  let D := p.desc i
  let x := s.ctx f p st.n i
  let cs := if D.isLinear then s.vecCores st.map else s.shareCores j.cores
  let vec (k : State → State) : Option State :=
    if cs.isEmpty || cs.any (fun c => s.early (coreDie c) (coreClu c)) then none else some (((k s).vecFail r).vecMark x st.phase cs 0)
  let tiled (pass : Nat) (k : State → State) : Option State :=
    if s.tilesLeft f i pass || cs.isEmpty then none else some (((k s).dropLeaves f i pass).vecFail r)
  match st.phase with
  | .s => if s.slicesLeft f ahead (· = i) || st.memFull then none else some (s.writeDirectory f D i st.n)
  | .g => if (s.func f).gathered st.n i then some ((s.endGather f st.n i).vecFail r) else none
  | .f =>
    if D.isLinear then tiled 0 fun s => s
    else vec fun s => s.runVectors f ahead x cs
  | .l => vec fun s => s.runLoss f x cs fun v c => return x.a false v c
  | .b1 =>
    if D.phase = 3 && D.forceTerm then vec fun s => s.runLoss f x cs (x.forcePred st.grads)
    else if D.phase = 1 then
      if (s.upDies f).any (fun d => !(s.die d).drone.unstarted.isEmpty) then none else some ((s.b1Finish f p st i cs).vecFail r)
    else if D.isLinear then tiled 1 fun s => s.b1Finish f p st i cs
    else vec fun s => s.b1Finish f p st i cs
  | .b2 =>
    let done (s : State) : State := if j.second then s.b2Second f p st i cs else s.b2First f p st i cs
    if D.isLinear then tiled 2 done else vec done
  | .r | .u => none

/-- With the last descriptor of a phase the engines fall idle, and Drone's ramp begins (R333). A step that runs ahead has no barrier of its
own. -/
def State.fallIdle (s : State) (f : Nat) (ahead : Bool) : State :=
  match (s.func f).cur with
  | some st => if !ahead && st.jobs.all (fun j => j.st = 2) then s.idleRamp f else s
  | none => s

/-- R75, R76, R243: a descriptor that runs completes, and those that waited for it start. -/
def State.descriptorComplete (s : State) (f : Nat) (ahead : Bool) (index : Nat) (r : VecReport) : State :=
  match (s.func f).activePlan, (s.func f).step? ahead with
  | some (_, p), some st =>
    match st.jobs.find? fun j => j.index = index && j.st = 1 with
    | some j =>
      if st.quenched then s
      else match s.finishJob f p ahead st j r with
        | some s =>
          let s := j.cores.foldl (fun s c => s.exercised (coreDie c) [.vector c]) s
          ((s.modStep f ahead fun x => x.setJob j 2 []).startJobs f ahead).fallIdle f ahead
        | none => s
    | none => s
  | _, _ => s

/-! ## Undefined contents (R85) -/

/-- Fill a range with free bytes. In borrowed memory this is no access: the module's image of the bytes is free until they are read. -/
def State.freeRun (s : State) (f a n : Nat) : State :=
  let s' := match s.key f a with
    | some k => if k < apBase then s.store k (s.freeBytes n) else s.put' k (s.freeBytes n)
    | none => s
  s'.takeFresh n

def State.freeKey (s : State) (k n : Nat) : State := (s.put' k (s.freeBytes n)).takeFresh n

/-- Bytes that a descriptor writes at its save area in the step (R77, R117, R121, R215, R217, R237). -/
def State.saveUsed (s : State) (f : Nat) (x : Ctx) : Nat :=
  let D := x.D
  let (m, n, w) := x.saveInA
  if s.saveBytes f x.plan x.index = 0 then 0
  else match D.opkind with
  | 0x10 =>
    let own := ownerArrayBytes (s.blockList f (x.plan.desc D.srcDesc) x.step)
    let E := match (s.func f).table D.tableId with | some t => t.elems | none => 0
    if D.op 64 1 = 3 then roundUp own 4096 + 8 * E * (x.plan.outForm x.rd x.step x.index).rows else own
  | 0x21 => m * n * w + (if D.msgForm = 2 then x.edges.length * D.edgeElems * w else 0)
  | 0x22 => 8 * D.cols * x.vectors
  | 0x30 => m * n * w + (if D.usesB then (if D.bRow then 1 else m) * n * (Fmt.ofCode D.in2Fmt).bytes else 0)
  | 0x32 => m * n * w + 8 * m
  | _ => m * n * w

/-- What a descriptor of a quenched step writes is undefined: its output rows, counts, masks and save area, or its slice directory. Bytes
between rows stay (R116). -/
def State.undefineDesc (s : State) (f : Nat) (p : Plan) (n i : Nat) : State :=
  let x := s.ctx f p n i
  let D := x.D
  let sv := p.saveAt i
  let s := if sv = 0 then s else s.freeRun f sv (s.saveUsed f x)
  if D.phase = 0 then s.freeRun f (D.dirAddr n) (64 + 16 * D.slices)
  else
    let o := p.outForm x.rd n i
    let w := if D.phase = 3 then 4 * D.cols
      else if D.phase = 1 then (match (s.func f).table D.tableId with | some t => t.elems | none => 0) * (Fmt.ofCode D.outFmt).bytes
      else o.row
    let s := (List.range o.rows).foldl (fun s v => s.freeRun f (o.addr + v * o.stride) w) s
    let counts := if D.opkind = 0x10 then D.op 72 8 else if D.opkind = 0x22 then D.op 112 8 else 0
    let s := if counts = 0 then s else s.freeRun f counts (4 * o.rows)
    if D.dropout then s.freeRun f D.dmask (ceilDiv (o.rows * D.cols) 8) else s

/-- The combining of every table that the plan returns gradients to, at this module's owners. -/
def Func.trainedTables (g : Func) : List Table :=
  (g.tables.map (·.2)).filter fun t => t.trainable && !(g.gradDescs t.id).isEmpty

/-- The row-gradient lists at this module's owners are undefined, as far as they reach (R134). -/
def State.undefineLists (s : State) (f : Nat) : State :=
  (s.func f).trainedTables.foldl (fun s t => t.blocks.foldl (fun s b =>
    if b.glist = 0 then s else s.freeKey b.glist (64 + leNat (s.load (b.glist + 8) 8) * t.gradRecord)) s) s

/-- What a quenched step leaves undefined (R85, R113, R134, R182, R207, R229): the results of its descriptors, the last first, since the
block lists give their extents, the blocks in its step buffers and spill regions, working memory and lists; of a step that ran ahead those of S and G, since the step before it still works
on the rest. With `training` the training state is undefined too. -/
def State.undefine (s : State) (f slot : Nat) (p : Plan) (st : Step) (ahead training : Bool) : State :=
  let par := st.n % 2
  let ran (D : Desc) : Bool := !ahead || D.phase = 0 || (D.phase = 1 && st.phase = .g)
  let s := ((List.range p.descs.length).filter fun i => ran (p.desc i)).reverse.foldl (fun s i => s.undefineDesc f p st.n i) s
  let s := (s.upDies f).foldl (fun s d => (List.range 20).foldl (fun s c =>
    let k := (s.clu d c).skink
    if par = 0 then s.freeKey k.base0 k.used0 else s.freeKey k.base1 k.used1) s) s
  let spills := (s.func f).allocs.filter fun a => match a.owner with | .spill _ q => q = par | _ => false
  let s := spills.foldl (fun s a => s.freeKey a.base a.len) s
  let s := if ahead then s
    else (((s.func f).allocs.filter fun a => a.owner = .plan slot).foldl (fun s a => s.freeKey a.base a.len) s).undefineLists f
  if training then p.stateRuns.foldl (fun s x => s.freeRun f x.1 x.2.1) s else s

/-! ## Stopping the engines -/

/-- A matrix engine stops (R182): its queue and its tile are gone. A column self-test that runs completes. -/
def Matrix.emptied (m : Matrix) : Matrix :=
  let testing := m.selftest && m.state ≠ 6
  { m with
    queue := []
    cur := none
    loadWait := false
    filled := false
    runs := 0
    drainHold := m.draining && !testing
    draining := m.draining && testing
    disabling := m.disabling && testing
    state := if m.state = 7 then 7 else if testing then 5 else if m.disabling || m.state = 6 then 6 else 0 }

/-- The queues, the tiles in work and the drain holds of a function's cores are emptied (R182, R207, R379). An engine that is being
disabled then reads disabled; one that is draining holds with nothing queued. -/
def State.emptyEngines (s : State) (f : Nat) : State :=
  ((s.diesOf f).flatMap fun d => (List.range 160).map (d * 160 + ·)).foldl (fun s i => s.modCore i fun c =>
    { c with
      mxe := c.mxe.emptied
      carved := 0
      spe := { c.spe with
        queue := []
        cur := none
        loadWait := false
        filled := false
        runs := 0
        drainHold := c.spe.draining
        draining := false
        disabling := false
        state := if c.spe.state = 3 then 3 else if c.spe.disabling || c.spe.state = 2 then 2 else 0 }
      vec := { c.vec with
        disabling := false
        state := if c.vec.state = 5 then 5 else if c.vec.disabling || c.vec.state = 4 then 4 else 0 } }) s

/-- Bellows that were being disabled when their work was dropped are disabled (R134, R377). -/
def State.settleAll (s : State) (f : Nat) : State :=
  (s.diesOf f).foldl (fun s d => (List.range 20).foldl (fun s c => s.settleBellows f d c) s) s

/-- Requests of a step that a Bellows has in flight. -/
def Func.inFlight (g : Func) (n d c : Nat) : Nat :=
  ((g.gather.filter fun e => e.step = n && e.die = d && e.cluster = c && !e.done).map fun e =>
    e.want - e.replies.length - g.unsentOf e).sum

/-- The slices, entries and requests of a step are dropped; those of the step before or behind it stay (R80, R97). -/
def State.dropWork (s : State) (f n : Nat) (ahead : Bool) : State :=
  let g := s.func f
  let others := g.gather.filter fun e => e.step ≠ n
  let s := (s.diesOf f).foldl (fun s d => (List.range 20).foldl (fun s c => s.modClu d c fun x =>
    let mine (y : Nat × Nat × Nat) : Bool := y.2.2 = b2n ahead
    let head := match x.skink.dealt with | y :: _ => mine y | [] => true
    let busy := others.any fun e => e.die = d && e.cluster = c
    { x with
      skink := { x.skink with
        dealt := x.skink.dealt.filter fun y => !mine y
        retried := x.skink.retried && !head
        spilling := x.skink.spilling && !head }
      bellows := { x.bellows with
        state := if x.bellows.state = 1 && !busy then 0 else x.bellows.state
        inflight := x.bellows.inflight - g.inFlight n d c } }) s) s
  let waits := ahead || (match g.cur with | some st => st.phase = .g | none => false)
  (s.modFunc f fun g =>
    { g with
      slices := g.slices.filter fun r => r.step ≠ n
      gather := others
      unsent := g.unsent.filter fun u => u.msg.step ≠ n
      gatherWait := if waits then [] else g.gatherWait }).settleAll f

/-- The work of a step is dropped with the gradient messages that it keeps. -/
def State.dropStep (s : State) (f n : Nat) (ahead : Bool) : State :=
  (s.dropWork f n ahead).modFunc f fun g => { g with keptGrads := g.keptGrads.filter fun x => x.2.step ≠ n }

/-- At the end of a step its requesters drop the gradient messages that every owner has closed on. Owners on other modules may close up
to their own end of the step, so what goes to them stays for one more step (R132, log 23). -/
def Func.agedGrads (g : Func) (n : Nat) : List (Nat × BellowsMsg) :=
  g.keptGrads.filter fun x => n < x.2.step || (x.2.step = n && match g.table x.2.table with
    | some t => t.owners.any fun o => (ownerEntry o).1 ≠ t.myPos
    | none => false)

/-- The combining of a step at this module's owners is dropped, and its entries return to invalid (R134). -/
def State.dropCombining (s : State) (f n : Nat) : State :=
  let mine := (s.func f).combRows.filter fun r => r.step = n
  let s := mine.foldl (fun s r =>
    match (s.die r.die).gecko.findRow true r.table r.row with
    | some (k, _) => s.modGecko r.die (·.drop k)
    | none => s) s
  s.modFunc f fun g =>
    { g with combRows := g.combRows.filter fun r => r.step ≠ n, combines := g.combines.filter fun c => c.step ≠ n }

/-! ## Re-execution (R84, R316) -/

/-- All work of the step in work is discarded, and it starts again from S: after a fail-over on the cores and engines of a new placement
(R84, R200), after an uncorrectable line on those it had (R316). Its durations start again from 0, so that the record holds those of
the re-execution alone; R88 does not say whether the first attempt counts (DESIGN CHOICE, log 41). -/
def State.restartStep (s : State) (f flag : Nat) (reexec : Bool) : State :=
  match (s.func f).cur with
  | none => s
  | some st =>
    let s := s.emptyEngines f
    let s := match (s.func f).ahead with | some a => (s.dropStep f a.n true).modFunc f fun g => { g with ahead := none } | none => s
    let s := s.dropStep f st.n false
    let s := ((s.func f).combines.filter fun c => c.step = st.n).foldl (fun s c =>
      match (s.func f).table c.table with
      | some t => (match t.block c.owner with | some b => s.restartCombine f t b st.n | none => s)
      | none => s) s
    let again := flag = flTileRerun
    let s := if again then s else s.chooseEngines f st.plan
    let new := s.newStep st.sub st.plan
    let fresh := { new with
      flags := setBit st.flags flag, jrn := st.jrn, tileSeq := st.tileSeq, reexec := reexec, map := if again then st.map else new.map }
    (s.modFunc f fun g => { g with cur := some fresh }).enter f false .s

/-! ## The end of a step -/

/-- Whether a mask holds every member that has not been evicted. -/
def Group.full (gr : Group) (m : ChorusMsg) : Bool := gr.present.all (maskHas m)

/-- The step loss (R87). -/
def Step.lossValue (st : Step) : F32 := quiet do pairRound32 (← chain (st.loss.map fun x => (x.2, zero32)))

/-- The step record (R88, Table 3.10). -/
def stepRecord (st : Step) (status participating size : Nat) (loss : F32) (mask : List Byte) : List Byte :=
  leBytes 8 st.n ++ leBytes 2 status ++ leBytes 2 participating ++ leBytes 4 st.flags ++ st.durations.flatMap (leBytes 4) ++
    leBytes 4 loss.toNat ++ leBytes 2 size ++ zeros 2 ++ leBytes 8 st.jrn ++ (mask ++ zeros 2048).take 2048

/-- Bits at and above the group size read zero (R88). -/
def clipMask (size : Nat) (m : List Byte) : List Byte := leBytes 2048 (leNat m % 2 ^ size)

/-- Carried norms become invalid, and the exponents of the groups stay (R296, R299). -/
def Plan.dropNorms (p : Plan) : Plan := { p with groups := p.groups.map fun x => { x with normsValid := false } }

/-- Write the record and the final completion of a step, and take its STEP_RUN from the accepted ones (R85 to R88). After a step with
FAILOVER the carried norms are invalid, whether or not U ran (R296). -/
def State.endStep (s : State) (f : Nat) (slot : Nat) (p : Plan) (st : Step) (status : Nat) (mask : Option ChorusMsg)
    (begun : Bool := true) : State :=
  let size := match (s.func f).groups.getD p.group none with | some gr => gr.ranks | none => 0
  let part := match mask with | some m => m.participating | none => 0
  let bits := match mask with | some m => clipMask size m.payload | none => []
  let (loss, s) := if status = stQuenched then (mk32 (leNat (s.freeBytes 4)), s.takeFresh 4) else (st.lossValue, s)
  let s := s.devWrite f (p.recAddr + st.n % max 1 p.recCount * 2112) (stepRecord st status part size loss bits)
  let s := match bit st.flags flFailover, (s.func f).plans.getD slot none with
    | true, some p => s.setPlan f slot p.dropNorms
    | _, _ => s
  let s := s.modFunc f fun g => { g with accepted := eraseFirst (fun a => a.1 = slot && a.2 = st.sub) g.accepted }
  s.final st.sub status (leBytes 8 (st.flags + 2 ^ 32 * (if begun then phaseNo st.phase else 0)))
    (leBytes 8 st.n ++ leBytes 4 loss.toNat ++ leBytes 2 part ++ leBytes 2 size)

/-- Units that were enabled take part in placement from the step boundary on (R377). -/
def State.admitUnits (s : State) (f : Nat) : State :=
  let s := ((s.diesOf f).flatMap fun d => (List.range 160).map (d * 160 + ·)).foldl (fun s i => s.modCore i fun c =>
    { c with
      mxe := { c.mxe with enabling := false }
      spe := { c.spe with enabling := false }
      vec := { c.vec with enabling := false } }) s
  (s.diesOf f).foldl (fun s d => (List.range 20).foldl (fun s c => s.modClu d c fun x =>
    { x with
      skink := { x.skink with enabling := false }
      bellows := { x.bellows with enabling := false } }) s) s

/-- The step boundary of step `n` (R132, R144, R148, R152, R156, R377). -/
def State.boundary (s : State) (f n : Nat) : State :=
  let s := ((s.migrateBoundary f n).releaseWrites f).dropWork f n false
  (s.modFunc f fun g => { g with keptGrads := g.agedGrads n }).admitUnits f

/-- What a quench leaves for migration: no row is selected, no load is published, since no b_n has come; a TBL_MIGRATE that waits begins
at once, no plan being active (R144, R152). -/
def State.quenchBoundary (s : State) (f n : Nat) : State :=
  (((s.modFunc f fun g => g.dropReads n).startMigrates f noStep).1.releaseWrites f).admitUnits f

/-- The step in work and every accepted STEP_RUN end with QUENCHED, their engines being empty (R80, R85, R379). The record of the step in
work holds the mask that it had adopted (R88); a Chanter that was being disabled is disabled. -/
def State.quenchAll (s : State) (f : Nat) (training : Bool) : State :=
  match (s.func f).activePlan with
  | none => s
  | some (slot, p) =>
    let cur := (s.func f).cur
    let ahead := (s.func f).ahead
    let s := if training then s.setPlan f slot p.dropNorms else s
    let clk := s.leadClk f
    let mask := cur.bind fun st => ((s.func f).chorusStep p.group st.n).mask
    let s := match ahead with | some st => ((s.undefine f slot p st true false).dropStep f st.n true).dropCombining f st.n | none => s
    let s := match cur with | some st => ((s.undefine f slot p st false training).dropStep f st.n false).dropCombining f st.n | none => s
    let s := (s.func f).accepted.foldl (fun s a =>
      match (cur.toList ++ ahead.toList).find? fun x => x.sub = a.2 with
      | some st => s.endStep f slot p (st.close clk) stQuenched (if cur.any (·.sub = a.2) then mask else none) true
      | none => s.endStep f slot p (s.newStep a.2 slot) stQuenched none false) s
    let s := s.modFunc f fun g =>
      { g with
        cur := none
        ahead := none
        chanter := { g.chanter with state := 0, group := 0, disabled := g.chanter.disabled ++ g.stopping } }
    let s := match cur with | some st => s.quenchBoundary f st.n | none => s
    s.idleRamp f

/-! ## PHASE_COMPLETE (R74) -/

/-- Host data in a line is lost: the line reads as zeros (Table 13.7). -/
def State.hostLine (s : State) (f l : Nat) : State :=
  let d := (keyDie l).getD (s.lead f)
  let s := (s.poke l (zeros 64)).cntDie d 43
  s.emit d 7 d (s.devAddr f l) 2

/-- Uncorrectable lines among the working data, as a phase from S to B2 meets them: the step re-executes from S, unless it already
re-executes for that reason (R316). -/
def State.checkWork (s : State) (f slot : Nat) (p : Plan) (st : Step) : State × Bool :=
  if s.badLines.isEmpty then (s, false)
  else
    let runs := s.workRuns f slot p st
    let bad := s.badLines.filter fun l => runs.any fun r => l < r.1 + r.2 && r.1 < l + 64
    if bad.isEmpty then (s, false)
    else if st.reexec then (bad.foldl (fun s l => s.hostLine f l) s, false)
    else
      let s := bad.foldl (fun s l => s.poke l (zeros 64)) s
      ((s.cntDie (s.lead f) 42).restartStep f flTileRerun true, true)

/-- Whether every owner of this module has closed its combining for a step (R130). -/
def Func.tablesClosed (g : Func) (n : Nat) : Bool :=
  g.trainedTables.all fun t => t.blocks.all fun b =>
    match g.combine t.id b.owner n with | some c => c.closed | none => false

def State.closeTables (s : State) (f n : Nat) : State :=
  (s.func f).trainedTables.foldl (fun s t => t.blocks.foldl (fun s b =>
    (s.modFunc f fun g => g.modCombine t.id b.owner n id).tryCloseAll f t.id b.owner n) s) s

/-- The next phase of the step in work, behind its barrier. -/
def State.nextPhase (s : State) (f : Nat) (p : Plan) (st : Step) : State :=
  let clk := s.leadClk f
  let s := (s.modStep f false fun x => x.close clk).release f
  (s.enter f false (p.after st.phase)).startSteps f

/-- R74, R78, R312, R316: every descriptor of the phase has completed on every die. Of a step that runs ahead, S gives way to its
frozen gathers; its G ends when it has become the step in work. -/
def State.phaseComplete (s : State) (f : Nat) (ahead : Bool) : State :=
  match (s.func f).activePlan, (s.func f).step? ahead with
  | some (slot, p), some st =>
    let allDone := st.jobs.all fun j => j.st = 2
    if st.quenched || st.away || s.leadStops f then s
    else if st.memFull then
      (if s.slicesLeft f ahead (fun _ => true) then s
       else if ahead then
        let s := ((s.undefine f slot p st true false).dropStep f st.n true).dropCombining f st.n
        (s.modFunc f fun g => { g with ahead := none }).endStep f slot p (st.close (s.leadClk f)) stQuenched none
       else ((s.emptyEngines f).quenchAll f false).startSteps f)
    else if !allDone then s
    else if ahead then
      (if st.phase = .s then
        let clk := s.leadClk f
        (s.modStep f true fun x => x.close clk).enter f true .g
       else s)
    else match st.phase with
      | .u => s
      | .r =>
        let skip := match ((s.func f).chorusStep p.group st.n).mask with | some m => m.skip | none => false
        let s := if skip then s else s.closeTables f st.n
        if (s.func f).reduced && (skip || (s.func f).tablesClosed st.n) then s.nextPhase f p st else s
      | _ =>
        let (s, redo) := s.checkWork f slot p st
        if redo then s else s.nextPhase f p st
  | _, _ => s

def execPhaseComplete (f : Nat) (ahead : Bool) (s : State) : Done := .next (s.phaseComplete f ahead)

/-! ## STEP_COMPLETE (R85 to R88) -/

/-- R85 to R88: U is complete. What the residue checks of U's lanes found comes first (R230, R299). -/
def State.stepComplete (s : State) (f : Nat) (r : VecReport) : State :=
  match (s.func f).activePlan, (s.func f).cur with
  | some (slot, p), some st =>
    if st.phase ≠ .u || !st.uDone || st.quenched || s.leadStops f then s
    else
      let s := s.vecFail r
      let st := ((s.func f).cur.getD st).close (s.leadClk f)
      let mask := ((s.func f).chorusStep p.group st.n).mask
      let status := match mask, (s.func f).groups.getD p.group none with
        | some m, some gr => if m.skip then stSkipped else if gr.full m then stOk else stPartial
        | _, _ => stOk
      let s := (s.modFunc f fun g => { g with cur := none }).endStep f slot p st status mask
      let s := s.boundary f st.n
      let s := if (s.func f).accepted.isEmpty then s.idleRamp f else s
      s.startSteps f
  | _, _ => s

/-! ## STEP_RUN (R79, R81) -/

/-- The kinds of graph that an S descriptor accepts (R92). -/
def Desc.acceptsKind (D : Desc) (k : Nat) : Bool :=
  if D.opkind = 1 then (k = 0 && D.op 66 1 = 0) || k = 1 else if D.opkind = 2 then k = 2 else k = 3

def Func.graphFits (g : Func) (D : Desc) : Bool :=
  match g.graphs.getD (D.op 64 1) none with | some x => D.acceptsKind x.kind | none => false

/-- The immediate outcome of STEP_RUN that is not acceptance (Table 3.6, R92, R275), in the table's order. -/
def Func.stepRefused (g : Func) (c : Submission) : Option Nat :=
  let slot := hb c 24 1
  match g.plans.getD slot none with
  | none => some stBadParam
  | some p =>
    let wrong := match p.lastStep with | some n => c.step ≠ n + 1 | none => false
    if !c.stepTagged || wrong then some stBadParam
    else if p.descs.any fun (D : Desc) => D.phase = 0 && !g.graphFits D then some stBadParam
    else if (match g.groups.getD p.group none with | some gr => decide (gr.evicted.contains gr.me) | none => true) then some stBadParam
    else if g.accepted.any fun a => a.1 ≠ slot then some stBusy
    else if 2 ≤ g.accepted.length then some stBusy
    else none

def stepRun' (c : Submission) (s : State) : State :=
  match (s.func c.func).stepRefused c with
  | some st => s.single c st
  | none =>
    let slot := hb c 24 1
    let f := c.func
    let s := s.interim c stAccepted
    let activates := (s.func f).accepted.isEmpty
    let s := s.modFunc f fun g =>
      { g with
        accepted := g.accepted ++ [(slot, c)]
        plans := g.plans.set slot ((g.plans.getD slot none).map fun p =>
          { p with
            lastStep := some c.step
            firstStep := some (p.firstStep.getD c.step)
            choiceMap := if activates then [] else p.choiceMap }) }
    s.startSteps f

def execStepRun (c : Submission) (s : State) : Done := .next (s.zcp 0x0302 c stepRun')

end Sys2Proof.Machine
end

