-- ==== Sys2Proof/Machine/PlanLoad.lean ====
section
/-!
DEFINITION. PLAN_LOAD (R69 to R73): the checks of Table 3.3 with those that the other chapters give, the working memory a plan needs
(R237, R239, R244, R274, R310 to R312), the Twin mirrors (R247), and FTBL_LOAD (R224).
-/
namespace Sys2Proof.Machine

/-! ## Checks of a descriptor (Table 3.3) -/

/-- What the checks read: the function, the plan being loaded and the number of its parameter groups. -/
structure Chk where
  s : State
  f : Nat
  p : Plan

/-- A range of the device address map that a descriptor may name (R305). DESIGN CHOICE (log 82): register space, though Table 13.2 lists it,
holds no data, and an address in it is refused with code 6 as one outside the map; Table 3.3 does not name it. -/
def Chk.mapped (k : Chk) (a n al : Nat) : Bool :=
  let here (x : Nat) : Bool := (k.s.key k.f x).isSome
  a % al = 0 && (k.s.inMemory k.f a n || (apBase ≤ a && here a && here (a + max n 1 - 1)))

/-- Bytes from the first of `v` rows to the end of the last; one row when the count comes from the block list (log 43). -/
def extent (v stride row : Nat) : Nat := (max v 1 - 1) * stride + row

/-- The lower-indexed S descriptor that a descriptor names (R115, R189, R211). -/
def Chk.src (k : Chk) (i : Nat) : Option Desc :=
  let D := k.p.desc i
  let j := D.srcDesc
  if j < i && (k.p.desc j).phase = 0 then some (k.p.desc j) else none

def kindPhase (o : Nat) : Option Nat :=
  if [1, 2, 3].contains o then some 0
  else if o = 0x10 then some 1
  else if [0x20, 0x21, 0x22, 0x30, 0x31, 0x32, 0x33].contains o then some 2
  else if o = 0x40 then some 3 else none

/-- A code for each condition that holds. -/
def codes (l : List (Bool × Nat)) : List Nat := (l.filter (·.1)).map (·.2)

def storeOk (c : Nat) : Bool := c ≤ 2
def bxOk (c : Nat) : Bool := 3 ≤ c && c ≤ 7

/-- S descriptors (R92, R98, R104, R107; log 40 for PARTITION_STREAM). DESIGN CHOICE (log 77): PARTS 0 is a parameter out of range and
PARTS has no upper bound; SEED_ADDR must be 8-byte aligned, as the 8-byte seeds it holds; and code 6 covers the whole extent of the seed list (log 82). The spec states
none of these. -/
def Chk.skink (k : Chk) (i : Nat) : List Nat :=
  let D := k.p.desc i
  let slot := !(k.s.func k.f).graphFits D
  let dirs := roundUp (64 + 16 * D.slices) 4096 + 64 + 16 * D.slices
  let out := !k.mapped D.outAddr dirs 4096
  if D.opkind = 1 then
    let hops := D.op 65 1
    let fan := (List.range 4).any fun h => if h < hops then D.op (68 + h) 1 = 0 else D.op (68 + h) 1 ≠ 0
    let rng := hops < 1 || 4 < hops || fan || D.op 72 4 < 1 || 2 ^ 24 < D.op 72 4 || D.op 76 2 < 1 || 16384 < D.op 76 2 ||
      D.op 88 8 < 1 || 2 ^ 40 < D.op 88 8 || 1 < D.op 66 1
    codes [(slot || rng, 9), (out || !k.mapped (D.op 80 8) (8 * D.op 88 8) 8, 6)]
  else if D.opkind = 2 then
    let c := mk32 (D.op 68 4)
    let cut := !isFin32 c || bit c.toNat 31 || abs32 c = 0
    codes [(slot || cut || D.op 65 2 < 1 || 512 < D.op 65 2 || D.op 72 4 < 1 || 65536 < D.op 72 4, 9), (out, 6)]
  else codes [(slot || D.op 72 4 = 0, 9), (out, 6)]

/-- GATHER (R115). DESIGN CHOICE (log 82): OUT_ADDR needs no alignment for code 6, the counts at ENTCNT_ADDR that of their 4-byte elements. -/
def Chk.gather (k : Chk) (i : Nat) : List Nat :=
  let D := k.p.desc i
  let t := (k.s.func k.f).table D.tableId
  let src := k.src i
  let pool := D.op 64 1
  let key := D.op 65 1
  let row := match t with | some t => t.elems * (Fmt.ofCode D.outFmt).bytes | none => 0
  let stride := D.op 68 2
  let radius := match src with | some S => S.opkind = 2 | none => false
  codes [(!storeOk D.outFmt, 3),
    (3 < pool || 1 < key || (key = 1 && (pool ≠ 0 || !radius)) || src.isNone || t.isNone || stride % 64 ≠ 0 || stride < row, 9),
    (!k.mapped D.outAddr row 1 || (D.op 72 8 ≠ 0 && !k.mapped (D.op 72 8) 4 4), 6)]

/-- LINEAR and EDGE_LINEAR (R162, R189, R190, R199, R245). DESIGN CHOICE (log 82): code 6 asks each address for the alignment of its elements;
a descriptor that needs a count or block list and names no lower-indexed S descriptor, and a MSG_FORM above 3, are refused with code 9. The
chapters state none of these. -/
def Chk.linear (k : Chk) (i : Nat) : List Nat :=
  let D := k.p.desc i
  let lay := D.wlayout
  let a := (Fmt.ofCode D.astore).bytes
  let w := (Fmt.ofCode D.wstore).bytes
  let o := (Fmt.ofCode D.outFmt).bytes
  let edge := D.opkind = 0x21
  let v := D.vectors
  let en := D.nodeElems
  let width := match D.msgForm with | 1 => 2 * en | 2 => 2 * en + D.edgeElems | _ => en
  let stride := D.inStride % a ≠ 0 || D.outStride % o ≠ 0 || (lay = 0 && D.wgtStride % w ≠ 0)
  let pg := D.pgroup ≠ 0xFF && (k.p.pgCount ≤ D.pgroup || D.wstore ≠ 1)
  let needSrc := (edge || v = 0) && (k.src i).isNone
  let inOk := k.mapped D.inAddr (extent (if edge then 1 else v) D.inStride ((if edge then en else D.rows) * a)) a
  let outOk := k.mapped D.outAddr (extent v D.outStride (D.cols * o)) o
  let wOk := if lay = 0 then k.mapped D.wgtAddr (extent D.rows D.wgtStride (D.cols * w)) w
    else k.mapped D.wgtAddr (16 * D.tiles * D.colBlocks) 1
  let masks := (D.vmask = 0 || k.mapped D.vmask (ceilDiv (max v 1) 8) 1) && (D.cmask = 0 || k.mapped D.cmask (ceilDiv D.cols 8) 1)
  let feat := !(edge && D.msgForm = 2) || k.mapped D.efeat (D.edgeElems * a) a
  codes [(!bxOk D.actFmt || !bxOk D.wgtFmt || !storeOk D.outFmt || !storeOk D.wstore || !storeOk D.astore, 3),
    (D.split < 1 || 64 < D.split, 4),
    (D.rows = 0 || D.cols = 0 || (edge && D.msgForm ≤ 3 && width ≠ D.rows), 7),
    ((D.pack && 5 < D.wgtFmt) || 3 < lay || D.engine = 3 || (D.engine = 2 && lay = 0) || stride || pg || needSrc ||
      (lay ≠ 0 && (D.spcols = 0 || 256 < D.spcols)) || (edge && 3 < D.msgForm) || D.dropout, 9),
    (!inOk || !outOk || !wOk || !masks || !feat, 6)]

/-- The sub-tables of a function-table slot, as PRESENT gives them; none for an empty slot (R222 to R224). -/
def Func.ftPresent (g : Func) (slot : Nat) : Option Nat :=
  if slot < 64 then (if 1 ≤ slot && slot ≤ 8 then some 7 else none) else (SMap.find slot g.ftables).map fun b => at' b 3 1

/-- Vector kinds (R211, R212, R215 to R218, R222, R228). DESIGN CHOICE (log 82): code 6 asks each address for the alignment of its elements,
a mask's for none, and a descriptor that needs a count or block list and names no lower-indexed S descriptor is refused with code 9. -/
def Chk.vector (k : Chk) (i : Nat) : List Nat :=
  let D := k.p.desc i
  let o := D.op 64 1
  let kind := D.opkind
  let a := (Fmt.ofCode D.inFmt).bytes
  let b := (Fmt.ofCode D.in2Fmt).bytes
  let out := if kind = 0x40 then 4 else (Fmt.ofCode D.outFmt).bytes
  let v := D.vectors
  let agg := kind = 0x22
  let fmts := (kind ≠ 0x40 && !storeOk D.outFmt) || !storeOk D.inFmt || !storeOk D.in2Fmt ||
    (kind = 0x33 && (D.outFmt ≠ 0 || D.in2Fmt ≠ 0))
  let badOp := match kind with
    | 0x30 => 14 < o
    | 0x31 => o ≠ 0
    | 0x32 => 1 < o || !isFin32 D.imm || (bit D.imm.toNat 31 && abs32 D.imm ≠ 0)
    | 0x33 => 1 < o
    | 0x22 => o < 1 || 3 < o
    | _ => 2 < o
  let table := (kind = 0x31 || (kind = 0x40 && o = 2)) && (match (k.s.func k.f).ftPresent D.ftable with
    | none => true
    | some pr => !bit pr 0 || (!D.noGrad && !bit pr 1) || (k.p.force && !bit pr 2))
  let drop := D.dropout && (kind = 0x40 || D.dropKeep = 0)
  let needSrc := (agg || v = 0) && (k.src i).isNone
  let pg := kind = 0x32 && D.pgroup ≠ 0xFF && k.p.pgCount ≤ D.pgroup
  let bBytes := if D.bRow then D.cols * b else extent v D.in2Stride (D.cols * b)
  let bonded (x : Nat) : Bool := match k.s.target k.f x with | .dram _ _ => true | _ => false
  let addr := !k.mapped D.inAddr (extent (if agg then 1 else v) D.inStride (D.cols * a)) a ||
    !k.mapped D.outAddr (extent v D.outStride (D.cols * out)) out ||
    (D.usesB && D.in2Addr ≠ 0 && !k.mapped D.in2Addr bBytes b) ||
    (kind = 0x32 && !k.mapped D.wgtAddr (2 * D.cols * (if o = 0 then 2 else 1)) 2) ||
    (agg && D.op 112 8 ≠ 0 && !k.mapped (D.op 112 8) 4 4) ||
    (D.dropout && !k.mapped D.dmask (ceilDiv (max v 1 * D.cols) 8) 1) ||
    (kind = 0x33 && !(bonded D.in2Addr && bonded D.outAddr))
  codes [(fmts, 3), (kind = 0x40 && (D.split < 1 || 64 < D.split), 4), (D.cols = 0, 7),
    (badOp || table || drop || needSrc || pg || (D.usesB && D.in2Addr = 0), 9), (addr, 6)]

/-- SAVE_ADDR of a descriptor with a save area that the module writes (R77, R117, R217, R237) does not hold it; an area whose size comes
from a block list is checked for one byte (log 43), and SAVE_ADDR needs no alignment (DESIGN CHOICE, log 82). A descriptor that saves nothing
does not use SAVE_ADDR. -/
def Chk.badSave (k : Chk) (i : Nat) : Bool :=
  let D := k.p.desc i
  let n := k.s.saveBytes k.f k.p i
  let known := D.vectors ≠ 0 && [0x20, 0x30, 0x31, 0x32].contains D.opkind
  D.saveAddr ≠ 0 && 0 < n && !k.mapped D.saveAddr (if known then n else 1) 1

/-- The reason code of descriptor `i`, 0 when it passes (R71: the lowest that applies). -/
def Chk.desc (k : Chk) (i : Nat) : Nat :=
  let D := k.p.desc i
  let kp := kindPhase D.opkind
  let dep (d : Nat) : Bool := d ≠ 0xFFFF && i ≤ d
  let common := codes [(kp ≠ some D.phase, 1), (3 < D.phase || (0 < i && D.phase < (k.p.desc (i - 1)).phase), 2),
    (dep D.dep0 || dep D.dep1, 5), (D.forceTerm && (D.phase ≠ 3 || !k.p.force), 8),
    (D.dropout && !D.isVector && !D.isLinear, 9), (k.badSave i, 6)]
  let own := match kp with
    | none => []
    | some 0 => k.skink i
    | some 1 => k.gather i
    | some _ => if D.isLinear then k.linear i else k.vector i
  ((common ++ own).foldl (fun m c => if m = 0 then c else min m c) 0)

/-- The reason code of parameter-group entry `g` (R280). DESIGN CHOICE (log 82): code 6 asks HI_ADDR, RES_ADDR and the moments for the
alignment of their elements. -/
def Chk.group (k : Chk) (g : Nat) : Nat :=
  let e := k.p.pg g
  let n := e.elems
  let big := n < 1 || 2 ^ 40 < n
  let dense := e.kind = 0
  let addr := dense && !big && (!k.mapped e.hi (2 * n) 2 || !k.mapped e.res (2 * n) 2 ||
    (List.range 4).any fun m => e.moment m ≠ 0 && !k.mapped (e.moment m) (4 * n) 4)
  let users := (List.range k.p.descs.length).filter fun i =>
    let D := k.p.desc i; (D.isLinear || D.opkind = 0x32) && D.pgroup = g
  let astray := dense && users.any fun i => let a := (k.p.desc i).wgtAddr; a < e.hi || e.hi + 2 * n ≤ a
  let prog := match (k.s.func k.f).prog e.prog with
    | none => true
    | some ops =>
      let ms := progMoments ops
      if dense then ms.any fun m => e.moment m = 0
      else (progScalars ops).any (fun c => [2, 3, 4].contains c) ||
        (match (k.s.func k.f).table e.tableId with
          | none => true
          | some t => !t.trainable || (match ms.getLast? with | some m => t.stateBytes < 4 * t.elems * (m + 1) | none => false))
  let consts := (List.range 8).any fun c => !isFin32 (e.const c)
  (codes [(addr, 6), (1 < e.kind || (dense && big) || prog || astray || consts, 9)]).foldl (fun m c => if m = 0 then c else min m c) 0

/-- The reason code of the parameters of Table 3.1. DESIGN CHOICE (log 82): PGROUP_ADDR needs no alignment. -/
def Chk.params (k : Chk) (len : Nat) : Nat :=
  let b := k.p.params
  let n := at' b 2 2
  let rc := k.p.recCount
  let pgc := k.p.pgCount
  if len ≠ 48 then 10
  else if !k.mapped (at' b 8 8) (128 * max 1 (min n 4096)) 128 || !k.mapped k.p.recAddr (2112 * max 1 (min rc 1024)) 64 ||
      (pgc ≠ 0 && !k.mapped (at' b 40 8) (128 * min pgc 64) 1) then 6
  else if 15 < at' b 0 1 || n < 1 || 4096 < n || 64 < pgc || rc < 1 || 1024 < rc || 7 < k.p.group ||
      ((k.s.func k.f).groups.getD k.p.group none).isNone then 10
  else 0

/-! ## Working memory (R310) -/

/-- The output of descriptor `j` as large as a step can make it, and its elements. -/
def State.outBound (s : State) (f : Nat) (p : Plan) (j : Nat) : OutForm × Nat :=
  let D := p.desc j
  if D.opkind = 0x10 then
    let rows := (s.sBound f (p.desc D.srcDesc)).1
    (⟨D.outAddr, rows, D.op 68 2, D.op 68 2⟩, rows * (match (s.func f).table D.tableId with | some t => t.elems | none => 0))
  else
    let v := s.vecBound f p j
    (⟨D.outAddr, v, D.outStride, D.cols * (Fmt.ofCode D.outFmt).bytes⟩, v * D.cols)

/-- The tensors that a descriptor of F or L reads and gives gradients to, with the elements of each (R234, R238, R240). -/
def State.readBound (s : State) (f : Nat) (p : Plan) (i : Nat) : List (OutForm × Nat) :=
  let D := p.desc i
  let v := s.vecBound f p i
  let w (c : Nat) : Nat := (Fmt.ofCode c).bytes
  let S := s.sBound f (p.desc D.srcDesc)
  let a (rows e c : Nat) : OutForm × Nat := (⟨D.inAddr, rows, D.inStride, e * w c⟩, rows * e)
  if D.noGrad || D.phase < 2 then []
  else if D.opkind = 0x21 then
    a S.1 D.nodeElems D.astore ::
      (if D.edgeElems ≠ 0 then [(⟨D.efeat, v, D.edgeElems * w D.astore, D.edgeElems * w D.astore⟩, v * D.edgeElems)] else [])
  else if D.isLinear then [a v D.rows D.astore]
  else
    let m := if D.bRow then 1 else v
    a (if D.opkind = 0x22 then S.2 else v) D.cols D.inFmt ::
      (if D.usesB && D.phase = 2 then [(⟨D.in2Addr, m, D.in2Stride, D.cols * w D.in2Fmt⟩, m * D.cols)] else [])

/-- The tensor versions that gradients reach, each with the descriptor that first asks for it in descending index, its producer plus one
or 0, its address when it is an input, and its elements (R239): the loss terms give gradients, and every descriptor that one reaches. -/
def State.gradVersions (s : State) (f : Nat) (p : Plan) : List (Nat × Nat × Nat × Nat) :=
  let n := p.descs.length
  let outs := ((List.range n).filter fun j => (p.desc j).phase = 1 || (p.desc j).phase = 2).map fun j => (j, s.outBound f p j)
  let prodAt (i x : Nat) : Nat := match (outs.filter fun o => o.1 < i && o.2.1.covers x).getLast? with | some o => o.1 + 1 | none => 0
  let versions (i : Nat) : List (Nat × Nat × Nat × Nat) := (s.readBound f p i).flatMap fun (r, e) =>
    let inside := (outs.filter fun o => o.1 < i && r.covers o.2.1.addr && prodAt i o.2.1.addr == o.1 + 1).map (·.1 + 1)
    ((prodAt i r.addr :: inside).eraseDups).map fun q =>
      if q = 0 then (i, 0, r.addr, e) else (i, q, 0, ((outs.lookup (q - 1)).map (·.2)).getD 0)
  (List.range n).reverse.foldl (fun l i =>
    if (p.desc i).phase = 3 || l.any fun y => y.2.1 = i + 1 then
      (versions i).foldl (fun l x => if l.any fun y => y.2.1 = x.2.1 && y.2.2.1 = x.2.2.1 then l else l ++ [x]) l
    else l) []

/-- What working memory is wanted for: a save area, the buffers of a leaf, a gradient buffer of a version, or compression memory. -/
inductive WantFor where
  | save
  | leaf (leaf : Nat) (cluster : Nat)
  | grad (prod addr : Nat)
  | memory
  deriving DecidableEq, Repr

/-- A structure of a plan that wants working memory, with the descriptor that wants it. -/
structure Want where
  desc : Nat
  use : WantFor
  bytes : Nat
  deriving DecidableEq, Repr

/-- The bytes that the leaf buffers of a linear layer take, for each leaf the most that any of its products keeps in it: the forward
product, the input gradient, and the weight gradient (R188, R232). The two buffers serve the products one after another (log 43). -/
def State.leafBytes (s : State) (f : Nat) (p : Plan) (i : Nat) : List (Nat × Nat) :=
  let D := p.desc i
  let V := s.vecBound f p i
  let use (split R n : Nat) : List (Nat × Nat) := (leafRuns split (ceilDiv R 128)).map fun x => (x.1, 16 * n)
  let all := (if 128 < D.rows then use (max 1 D.split) D.rows (V * D.cols) else []) ++
    (if D.noGrad then [] else (if 128 < D.cols then use 8 D.cols (V * D.rows) else []) ++ use 8 V (D.rows * D.cols))
  (List.range 64).filterMap fun l =>
    let n := ((all.filter fun x => x.1 = l).map (·.2)).foldl max 0
    if n = 0 then none else some (l, n)

/-- Everything that a plan wants of working memory, in the order in which it is taken: save areas in ascending index, leaf buffers,
gradient buffers with the tangents of force mode, compression memories. A leaf's cluster is that of the core its first tiles go to (R82).
Compression memory stands for descriptor 0, since the spec names no item for it (DESIGN CHOICE, log 79). -/
def State.planWants (s : State) (f : Nat) (p : Plan) : List Want :=
  let ix := List.range p.descs.length
  let home := s.homeOf f (s.placeMap f)
  let saves := ix.filterMap fun i =>
    let n := s.saveBytes f p i
    if n = 0 || (p.desc i).saveAddr ≠ 0 then none else some ⟨i, .save, n⟩
  let leaves := ix.flatMap fun i =>
    if !(p.desc i).isLinear then []
    else
      let x : Ctx := ⟨s.devRead f, p, i, 0, 0, 0, [], []⟩
      (s.leafBytes f p i).zipIdx.map fun ((l, n), k) => ⟨i, .leaf l ((home (x.leafReads .fwd [] 0) k).1 / 8), n⟩
  let copies := if p.force then 3 else 1
  let grads := ((s.gradVersions f p).filter fun x => x.2.2.2 ≠ 0).map fun (i, q, a, e) => ⟨i, .grad q a, 4 * e * copies⟩
  let mems := match (s.func f).groups.getD p.group none with
    | some gr => b2n gr.tierA + b2n gr.tierB
    | none => 0
  let n := (p.pgroups.map fun (e : PGroup) => if e.kind = 0 then 4 * e.elems else 0).sum * mems
  saves ++ leaves ++ grads ++ (if n = 0 then [] else [⟨0, .memory, n⟩])

/-- The runs of a Cluster Buffer that leaf buffers of loaded plans take: offset and length. Gecko's data slots lie above (R124). -/
def State.leavesIn (s : State) (k : Nat) : List (Nat × Nat) :=
  s.funcs.flatMap fun g => g.plans.flatMap fun p => match p with
    | some p => p.leafBufs.filterMap fun b => match b.cluster with
      | some (c, o) => if c = k then some (o, b.bytes) else none
      | none => none
    | none => []

/-- What a plan has been given: save areas, leaf buffers, gradient buffers. -/
structure Given where
  saves : List (Nat × Nat)
  leaves : List LeafBuf
  grads : List (Nat × Nat × Nat)

/-- Note where a structure lies: an address, and for leaf buffers in a Cluster Buffer the cluster and the offset there. -/
def Given.put (g : Given) (w : Want) (at' : Nat) (clu : Option (Nat × Nat)) : Given :=
  match w.use with
  | .save => { g with saves := g.saves ++ [(w.desc, at')] }
  | .leaf l _ => { g with leaves := g.leaves ++ [⟨w.desc, l, clu, at', w.bytes⟩] }
  | .grad q a => { g with grads := g.grads ++ [(q, a, at')] }
  | .memory => g

/-- What a plan holds, with its save areas by descriptor. -/
def Given.into (g : Given) (p : Plan) : Plan :=
  { p with
    saves := (List.range p.descs.length).map fun i => (g.saves.lookup i).getD 0
    leafBufs := g.leaves
    gradBufs := g.grads }

/-- Place one structure: leaf buffers in the Cluster Buffer of their cluster where there is room (R311, order 1), all else in the spill
order of the die and cluster that use it. -/
def State.placeWant (s : State) (f : Nat) (o : AllocOwner) (g : Given) (w : Want) : Option (Given × State) :=
  let sram : Option (Nat × Nat) := match w.use with
    | .leaf _ k =>
      let taken := s.leavesIn k ++ g.leaves.filterMap fun b => b.cluster.bind fun c => if c.1 = k then some (c.2, b.bytes) else none
      if s.cluUp (k / 20) (k % 20) then (highest 64 taken 0 (16 * MiB - 1024 * (gkSlots (k % 20)).2) w.bytes).map fun x => (k, x) else none
    | _ => none
  match sram with
  | some (k, x) => some (g.put w x (some (k, x)), s)
  | none =>
    let (d, v) := match w.use with | .leaf _ k => (s.physDie f (k / 20), k % 20) | _ => (s.lead f, 0)
    (s.allocate f o (s.spillOrder f d v) w.bytes).map fun (a, s) => (g.put w (s.devAddr f a.base) none, s)

/-- Take working memory for a plan. Answers what it was given, or the descriptor whose allocation failed first and the bytes of what
has found no place (R312). -/
def State.planMemory (s : State) (f : Nat) (o : AllocOwner) : (ws : List Want) → Given → Except (Nat × Nat) (Given × State)
  | [], g => .ok (g, s)
  | w :: ws, g =>
    match s.placeWant f o g w with
    | some (g, s) => s.planMemory f o ws g
    | none => .error (w.desc, ((w :: ws).map (·.bytes)).sum)

/-- Where a plan holds a structure. -/
def Plan.placeOf (p : Plan) (w : Want) : Option (Nat × Option (Nat × Nat)) :=
  match w.use with
  | .save => match p.saves.getD w.desc 0 with | 0 => none | a => some (a, none)
  | .leaf l _ => (p.leafBufs.find? fun b => b.desc = w.desc && b.leaf = l).map fun b => (b.addr, b.cluster)
  | .grad q a => (p.gradBufs.find? fun b => b.1 = q && b.2.1 = a).map fun b => (b.2.2, none)
  | .memory => none

/-- After a re-plan the structures of a plan that lay on a lost die or in a lost Cluster Buffer are placed anew; one that finds no room
keeps its place, which no longer exists. -/
def State.replaceWorking (s : State) (f slot : Nat) : State :=
  match (s.func f).plans.getD slot none with
  | none => s
  | some p =>
    let stands (x : Nat × Option (Nat × Nat)) : Bool := match x.2 with
      | some (k, _) => s.cluUp (k / 20) (k % 20)
      | none => (s.key f x.1).isSome
    let (g, s) := (s.planWants f p).foldl (fun (g, s) w =>
      match p.placeOf w with
      | none => (g, s)
      | some x =>
        if stands x then (g.put w x.1 x.2, s)
        else (s.placeWant f (.plan slot) g w).getD (g.put w x.1 x.2, s)) ((⟨[], [], []⟩ : Given), s)
    (s.modFunc f fun h => { h with plans := h.plans.set slot (some (g.into p)) })

/-- What the leaf buffers of a function's plans take of each Cluster Buffer (R13, R311). -/
def State.countLeaves (s : State) (f : Nat) : State :=
  (s.diesOf f).foldl (fun s d => (List.range 20).foldl (fun s c =>
    let mine := (s.func f).plans.zipIdx.filterMap fun (p, slot) =>
      let n := match p with
        | some p => ((p.leafBufs.filter fun b => b.cluster.any fun x => x.1 = 20 * d + c).map (·.bytes)).sum
        | none => 0
      if n = 0 then none else some (f, slot, n)
    s.modClu d c fun x => { x with leaves := (x.leaves.filter fun y => y.1 ≠ f) ++ mine }) s) s

/-! ## Twin (R247, R310) -/

/-- Grow the tier-2 part of the Twin reserve of a die to what RESERVE_GIB leaves over. -/
def State.growTwin (s : State) (d : Nat) : State :=
  let f := s.fnOf d
  let want := GiB * s.twinNow - s.twinIlv d
  let mine := ((s.func f).allocs.filter fun a => a.owner = .twin && a.area = .tier2 d).map (·.len)
  if want ≤ mine.sum || !s.up d then s
  else match s.allocate f .twin [.tier2 d] (want - mine.sum) with
    | some (_, s) => s
    | none => s

/-- A place for a mirror of `n` bytes on a die: the Twin reserve where nothing else lies, else the tier-2 share. -/
def State.mirrorPlace (s : State) (f d : Nat) (o : AllocOwner) (n : Nat) : Option (Nat × State) :=
  let kept (a : Alloc) : Bool := a.owner = .twin
  let used := s.funcs.flatMap fun g => ((g.allocs.filter fun a => !kept a).map fun a => (a.base, a.len)) ++
    g.grants.map fun x => (x.base, GiB * x.gib)
  let top := dramBase d + s.ilvSize d
  let ranges := (top - s.twinIlv d, top) ::
    ((s.func f).allocs.filter fun a => kept a && a.area = .tier2 d).map fun a => (a.base, a.base + a.len)
  match ranges.findSome? fun r => highest 64 used r.1 r.2 n with
  | some b => some (b, s.modFunc f fun g => { g with allocs := g.allocs ++ [⟨o, if b < dramBase 4 then .ilv d else .tier2 d, b, n⟩] })
  | none => (s.allocate f o [.tier2 d] n).map fun (a, s) => (a.base, s)

/-- Where the mirror of die `d` lies: its Twin partner, or itself when it runs alone (R250). -/
def State.twinOf (s : State) (d : Nat) : Nat := let e := d ^^^ 2; if s.up e then e else d

/-- Mirror every run of a plan's training state (R247): one mirror a run, none when a place is missing. -/
def State.mirrorPlan (s : State) (f : Nat) (o : AllocOwner) (p : Plan) : Option (List (Nat × Nat × Nat) × State) :=
  p.stateRuns.foldlM (fun (l, s) (x : Nat × Nat × Nat × Nat × Bool) =>
    match s.key f x.1 with
    | none => some (l, s)
    | some k =>
      match keyDie k with
      | none => some (l, s)
      | some d =>
        if l.any fun y => y.1 = k then some (l, s)
        else (s.mirrorPlace f (s.twinOf d) o x.2.1).map fun (m, s) =>
          (l ++ [(k, x.2.1, m)], s.poke m (Mem.read s.mem k x.2.1))) (([] : List (Nat × Nat × Nat)), s)

/-! ## PLAN_LOAD -/

/-- Chanter's state of a group at the load of its plan (Table 12.1). -/
def PGroup.state (e : PGroup) : GroupState :=
  { s := e.sInit, sOld := e.sInit, normsValid := e.normsGiven, wnorm := e.f32 76, unorm := e.f32 80, acc0 := e.f32 68
    acc1 := e.f32 72, lr := none, stale := false, frozen := e.freeze }

/-- The plan that PLAN_LOAD's parameters name, read from memory. -/
def State.readPlan (s : State) (f : Nat) (b : List Byte) : Plan :=
  let n := min (at' b 2 2) 4096
  let g := min (at' b 28 2) 64
  let pgs := (List.range g).map fun i => s.devRead f (at' b 40 8 + 128 * i) 128
  { params := b, descs := (List.range n).map fun i => s.devRead f (at' b 8 8 + 128 * i) 128, pgroups := pgs, saves := [], choices := [], choiceMap := []
    leafBufs := [], gradBufs := [], mirrored := false, mirrors := [], groups := pgs.map PGroup.state, lastStep := none, firstStep := none, b1Begun := none
    uBegun := none, lowStep := none, sizes := [], freezes := [], errMem := [], remMem := [] }

/-- The first failing item and its reason (R71). -/
def Chk.first (k : Chk) (len : Nat) : Option (Nat × Nat) :=
  let r := k.params len
  if r ≠ 0 then some (0xFFFF, r)
  else
    let item (id : Nat) (r : Nat) : Option (Nat × Nat) := if r ≠ 0 then some (id, r) else none
    match (List.range k.p.descs.length).findSome? fun i => item i (k.desc i) with
    | some x => some x
    | none => (List.range k.p.pgroups.length).findSome? fun g => item (0xF000 + g) (k.group g)

/-- The tables of a plan's slot while it is replaced: the old plan's allocations keep an owner of their own. -/
def reowner (a b : AllocOwner) (l : List Alloc) : List Alloc := l.map fun x => if x.owner = a then { x with owner := b } else x

/-- The Twin reserve takes the size that MEM_TWINCTL.RESERVE_GIB has at a PLAN_LOAD, before the plan's own memory is placed (R310). -/
def State.sizeTwin (s : State) (f : Nat) : State :=
  if s.quad then s
  else
    let s := { s with twinNow := min 96 s.twinGib }
    if s.twinEn then (s.diesOf f).foldl (fun s d => s.growTwin d) s else s

/-- Place a plan: its working memory, and its mirrors under Twin. A mirror that finds no place is reported as descriptor 0, since the spec
names no item for it (DESIGN CHOICE, log 79). -/
def State.placePlan (s : State) (f slot : Nat) (p : Plan) : Except (Nat × Nat) (Plan × State) :=
  let s := s.sizeTwin f
  let twin := s.twinEn && !s.quad
  match s.planMemory f (.plan (slot + 16)) (s.planWants f p) ⟨[], [], []⟩ with
  | .error e => .error e
  | .ok (g, s) =>
    match (if twin then s.mirrorPlan f (.mirror (slot + 16)) p else some ([], s)) with
    | none => .error (0, 0)
    | some (ms, s) =>
      .ok ({ g.into p with mirrored := twin, mirrors := ms }, s)

/-- A plan takes its slot: the structures of the plan before it are freed, and what was carried for that one goes (R71, R269). -/
def State.installPlan (s : State) (f slot : Nat) (p : Plan) : State :=
  let before := (s.func f).allocs
  let s := s.modFunc f fun g =>
    { g with
      allocs := reowner (.mirror (slot + 16)) (.mirror slot) (reowner (.plan (slot + 16)) (.plan slot)
        (g.allocs.filter fun a => a.owner ≠ .plan slot && a.owner ≠ .mirror slot))
      plans := g.plans.set slot (some p)
      chorus := { g.chorus with carried := g.chorus.carried.filter fun c => c.plan ≠ slot } }
  (s.countLeaves f).dropApertures f before

/-- R70, R71, R312. A PARAM_LEN that is not 48 is refused at once (R366), whatever slot the bytes would name. Where working memory finds
no room, the peers of the plan's group are asked for it first (R313), and the command waits for them; `asked` says that they have
answered. -/
def planLoadWith (asked : Bool) (c : Submission) (s : State) : State :=
  let f := c.func
  let slot := at' c.params 0 1
  let fail (s : State) (item reason : Nat) : State := s.single c stBadParam (leBytes 2 item ++ leBytes 1 reason)
  if c.paramLen = 48 && (s.func f).accepted.any fun a => a.1 = slot then s.single c stBusy
  else
    let p := s.readPlan f c.params
    match Chk.first ⟨s, f, p⟩ c.paramLen with
    | some (item, reason) => fail (s.violDesc f) item reason
    | none =>
      match s.placePlan f slot p with
      | .ok (p, s) => (s.installPlan f slot p).okJ c
      | .error (i, n) =>
        let peers := (s.func f).groupPeers p
        if asked || n = 0 || peers.isEmpty then fail s i 7 else s.askPeers f (some c) 0 peers n

def planLoad' (c : Submission) (s : State) : State := planLoadWith false c s

def execPlanLoad (c : Submission) (s : State) : Done := .next (s.zcp 0x0301 c planLoad')

/-- A peer has answered with a grant (R313): what is still missing is asked of the next one; when none is left, a PLAN_LOAD that waited
goes on. -/
def State.peerAnswered (s : State) (f peer gib : Nat) : State :=
  match (s.func f).asks.find? fun a => a.waits = some peer with
  | none => s
  | some a =>
    let (s, b) := s.askOn f { a with need := a.need - gib }
    let s := s.modFunc f fun g => { g with asks := g.asks.map fun x => if x = a then b else x }
    match b.waits, b.sub with
    | none, some c =>
      if c.opcode ≠ 0x0301 then s
      else planLoadWith true c (s.modFunc f fun g => { g with asks := g.asks.filter fun x => x ≠ b })
    | _, _ => s

/-! ## FTBL_LOAD (R224) -/

/-- Whether a descriptor of the active plan names a function-table slot. -/
def Func.ftActive (g : Func) (slot : Nat) : Bool :=
  match g.activePlan with
  | some (_, p) => p.descs.any fun (D : Desc) => D.ftable = slot && (D.opkind = 0x31 || (D.opkind = 0x40 && D.op 64 1 = 2))
  | none => false

def ftblLoad' (c : Submission) (s : State) : State :=
  let f := c.func
  let slot := hb c 24 1
  let a := hb c 32 8
  let n := hb c 40 4
  let ka := hb c 48 8
  let im := s.devRead f a n
  let key := s.devRead f ka 1793
  let sig := s.devRead f (a + n) 1280
  let head := im.take 64
  if slot < 64 || 255 < slot || n < 64 || !s.inMemory f a (n + 1280) || !s.inMemory f ka 1793 || !ftHeaderOk head ||
      n ≠ ftBytes (at' head 1 1) (at' head 3 1) then s.single c stBadParam
  else if !Config.falconVerify key (shake256 im) sig then s.secDenied.single c stDenied
  else if (s.func f).ftActive slot then s.single c stBusy
  else
    let s := (s.ftReplaced f slot).modFunc f fun g => { g with ftables := SMap.insert slot im g.ftables }
    let s := s.modFunc f fun g => { g with ftkeys := SMap.insert slot key g.ftkeys }
    let (s, j) := s.journalCmd c
    (s.measure 1 (srcCode c.src) j (shake256 im) (shake256 key)).single c stOk [] [] j

def execFtblLoad (c : Submission) (s : State) : Done := .next (s.zcp 0x0305 c ftblLoad')

end Sys2Proof.Machine
end

