-- ==== Sys2Proof/Machine/Stops.lean ====
section
/-!
DEFINITION. Work boundaries (R376 to R379, R180 to R182, R207, R113, R134, R229, R277, R299): DISABLE and ENABLE, DRAIN and its
release, QUENCH, and the events at which their completions are written.
-/
namespace Sys2Proof.Machine

/-! ## Targets (R377, R378) -/

/-- The enabled cores of the targeted clusters that a core mask names. -/
def State.targetCores (s : State) (c : Submission) (mask : Nat) : List Nat :=
  (s.maskClusters c).flatMap fun (d, k) =>
    ((List.range 8).filter fun i => mask = 0 || bit mask i).map (coreId d k) |>.filter fun i => s.coreState i = 1

/-- The units that a unit mask names. -/
def State.targetUnits (s : State) (c : Submission) (units mask : Nat) : List EngineUnit :=
  let cores := s.targetCores c mask
  let clus := s.maskClusters c
  (if bit units 0 then cores.map EngineUnit.matrix else []) ++ (if bit units 1 then cores.map EngineUnit.sparse else []) ++
    (if bit units 2 then cores.map EngineUnit.vector else []) ++
    (if bit units 3 then clus.map fun (d, k) => EngineUnit.skink d k else []) ++
    (if bit units 4 then clus.map fun (d, k) => EngineUnit.bellows d k else []) ++
    (if bit units 5 then (s.maskDies c.func c.dieMask).map EngineUnit.chanter else [])

/-! ## DISABLE -/

/-- Whether a unit is disabled or on its way there. No command targets a load/store engine (Table 16.8). -/
def State.isOff (s : State) (f : Nat) : EngineUnit → Bool
  | .matrix i => (s.core i).mxe.state = 6 || (s.core i).mxe.disabling
  | .sparse i => (s.core i).spe.state = 2 || (s.core i).spe.state = 3 || (s.core i).spe.disabling
  | .vector i => (s.core i).vec.state = 4 || (s.core i).vec.disabling
  | .loadStore _ => false
  | .skink d k => (s.clu d k).skink.disabled || (s.clu d k).skink.failed
  | .bellows d k => (s.clu d k).bellows.disabled || (s.clu d k).bellows.disabling
  | .chanter d => (s.func f).chanter.disabled.contains d || (s.func f).stopping.contains d

/-- U is in progress (R299). -/
def Func.inU (g : Func) : Bool := match g.cur with | some st => st.phase = .u && !st.uDone | none => false

/-- A unit stops accepting work and goes to its boundary. -/
def State.turnOff (s : State) (f : Nat) : EngineUnit → State
  | .matrix i => (s.modMxe i fun m => { m with disabling := true, enabling := false }).settleMxe i
  | .sparse i => (s.modSpe i fun e => { e with disabling := true, enabling := false }).settleSpe i
  | .vector i => s.modVec i fun v =>
      if v.state = 0 then { v with state := 4, enabling := false } else { v with disabling := true, enabling := false }
  | .loadStore _ => s
  | .skink d k => (s.modSkink d k fun x => { x with disabled := true, enabling := false }).dropSlices f d k
  | .bellows d k =>
    ((s.modClu d k fun x => { x with bellows := { x.bellows with disabling := true, enabling := false } }).moveRequests f d k).settleBellows f d k
  | .chanter d =>
    if (s.func f).inU then s
    else s.modFunc f fun g => { g with chanter := { g.chanter with disabled := g.chanter.disabled ++ [d] } }

/-- A core that has been retired, or whose die is lost: its engines have no work left. -/
def State.coreGone (s : State) (i : Nat) : Bool := s.coreState i ≠ 1 || !s.up (coreDie i)

/-- A unit that a DISABLE targeted has reached its boundary, or has gone with its core, its cluster or its die. -/
def State.atBoundary (s : State) (f : Nat) : EngineUnit → Bool
  | .matrix i => !(s.core i).mxe.disabling || s.coreGone i
  | .sparse i => !(s.core i).spe.disabling || s.coreGone i
  | .vector i => !(s.core i).vec.disabling || s.coreGone i
  | .loadStore _ | .skink _ _ => true
  | .bellows d k => !(s.clu d k).bellows.disabling || !s.cluUp d k
  | .chanter d => (s.func f).chanter.disabled.contains d

/-- A DISABLE that reaches a module in R before its SENT mark stops its contributions and the mark: none is sent again, the other members
treat it as a late rank, its contributions stay for the late policy, and its duties for other ranks go on (R277, R269; log 81). -/
def State.stopMark (s : State) (f : Nat) : State :=
  match (s.func f).activePlan, (s.func f).cur with
  | some (_, p), some st =>
    if st.phase ≠ .r then s
    else s.modFunc f fun g =>
      { g with chorus := { g.chorus with steps := g.chorus.steps.map fun c =>
        if c.slot = p.group && c.step = st.n && !c.sentOwn then { c with sentOwn := true, stopped := true } else c } }
  | _, _ => s

/-! ## ENABLE -/

/-- A unit takes work again: at once when work of its kind waits for it or no step is in work, else from the next step boundary
(R377). -/
def State.turnOn (s : State) (f : Nat) (u : EngineUnit) : State :=
  let step := (s.func f).cur.isSome
  match u with
  | .matrix i =>
    let d := coreDie i
    let s := s.modMxe i fun m =>
      { m with disabling := false, state := if m.state = 6 then (if m.selftest then 5 else 0) else m.state
               enabling := step && !s.waitsFor f d false }
    s.placeWaiting f d
  | .sparse i =>
    let d := coreDie i
    let s := s.modSpe i fun e =>
      { e with disabling := false, state := if e.state = 2 then 0 else e.state, enabling := step && !s.waitsFor f d true }
    s.placeWaiting f d
  | .vector i =>
    let waits := !(s.coresOf (coreDie i)).any fun j => (s.core j).vec.takes
    let s := s.modVec i fun v => { v with disabling := false, state := if v.state = 4 then 0 else v.state, enabling := step && !waits }
    if waits then (s.startJobs f false).startJobs f true else s
  | .loadStore _ => s
  | .skink d k =>
    let waits := (s.skinks f).isEmpty
    let s := s.modSkink d k fun x => { x with disabled := false, enabling := step && !waits }
    if !waits then s
    else (s.diesOf f).foldl (fun s e => (List.range 20).foldl (fun s c =>
      if (s.clu e c).skink.takes then s else s.dropSlices f e c) s) s
  | .bellows d k =>
    let waits := !(List.range 20).any (s.bellowsOk d)
    let s := s.modClu d k fun x =>
      { x with bellows := { x.bellows with
          disabled := false
          disabling := false
          enabling := step && !waits
          state := if x.bellows.state = 3 then 0 else x.bellows.state } }
    if waits then (((s.retryRequests f).sendRequests f).startJobs f false).startJobs f true else s
  | .chanter d =>
    (s.modFunc f fun g =>
      { g with
        chanter := { g.chanter with disabled := g.chanter.disabled.filter (· ≠ d) }
        stops := g.stops.map fun j => { j with units := j.units.filter (· ≠ .chanter d) } }).tryU f

/-- R377: DISABLE and ENABLE are one opcode; byte 25 says which. -/
def disableCmd (c : Submission) (s : State) : State :=
  let units := hb c 24 1
  let action := hb c 25 1
  if 64 ≤ units || 1 < action then s.single c stBadParam
  else
    let f := c.func
    let us := s.targetUnits c units (hb c 26 1)
    if action = 0 then
      let fresh := us.filter fun u => !s.isOff f u
      let s := fresh.foldl (fun s u => s.turnOff f u) (if fresh.isEmpty then s else s.stopMark f)
      let job : StopJob := ⟨c, us.filter fun u => !s.atBoundary f u, fresh.length, 0, 0⟩
      s.modFunc f fun g => { g with stops := g.stops ++ [job] }
    else
      let off := us.filter fun u => s.isOff f u
      let on := off.filter fun u => match u with
        | .sparse i => (s.core i).spe.state ≠ 3
        | .skink d k => !(s.clu d k).skink.failed
        | _ => true
      let s := on.foldl (fun s u => s.turnOn f u) s
      let detail := leBytes 4 on.length
      if on.isEmpty then s.single c stOk detail else s.okJ c detail

def execDisable (c : Submission) (s : State) : Done := .next (s.zcp 0x0011 c disableCmd)

/-- R377: DISABLE with action 1. -/
def execEnable (c : Submission) (s : State) : Done := .next (s.zcp 0x0011 c disableCmd)

/-- Take the first waiting command of an opcode of which `ready` holds. -/
def Func.stopReady (g : Func) (op : Nat) (ready : StopJob → Bool) : Option StopJob :=
  g.stops.find? fun j => j.sub.opcode = op && ready j

def State.dropStop (s : State) (f : Nat) (j : StopJob) : State := s.modFunc f fun g => { g with stops := eraseOne j g.stops }

/-- R377: the last targeted unit has reached its boundary. -/
def execDisableDone (f : Nat) (s : State) : Done :=
  match (s.func f).stopReady 0x0011 fun j => j.units.all (s.atBoundary f) with
  | some j =>
    let s := s.dropStop f j
    let detail := leBytes 4 j.count
    .next (if j.count = 0 then s.single j.sub stOk detail else s.okJ j.sub detail)
  | none => .next s

/-! ## DRAIN -/

/-- Vectors that go on before the split of a drained tile: the vector in progress is injected whole, and which one it is depends on
the time of the request, so the number is a free value from `lo` to the run's length (R180, R378). -/
def State.splitAt (s : State) (lo n : Nat) : Nat × State :=
  (lo + (Config.freeWord s.fresh).toNat % (n + 1 - lo), s.takeFresh 1)

/-- A matrix engine that can hold: in service, and not on its way out of it (R378). -/
def Matrix.canHold (m : Matrix) : Bool := m.state ≠ 6 && m.state ≠ 7 && !m.disabling

/-- The same of a sparse engine. -/
def Sparse.canHold (e : Sparse) : Bool := e.state ≠ 2 && e.state ≠ 3 && !e.disabling

/-- A drain request reaches a matrix engine (R180). Within a load the load completes and the engine holds; otherwise the vectors
already injected commit first. -/
def State.drainMxe (s : State) (i : Nat) : State :=
  let s := s.cntCore i 12
  let m := (s.core i).mxe
  if m.drainHold || m.draining || !m.canHold then s
  else match m.cur with
    | some t =>
      if m.runs = 0 && !m.loadWait && !m.selftest then
        let (k, s) := s.splitAt (if m.state = 1 then 0 else 1) t.vecCount
        if k = 0 then s.holdLoaded i t
        else s.modMxe i fun m =>
          { m with
            cur := some { t with vecCount := k }
            queue := if k < t.vecCount then s.restOf t k :: m.queue else m.queue
            draining := true
            state := 3 }
      else s.modMxe i fun m => { m with draining := true }
    | none =>
      s.modMxe i fun m => if m.selftest && m.state ≠ 6 then { m with draining := true } else { m with drainHold := true }

/-- The same on a sparse engine (R207): its work boundary is the vector. A fill made for the tile behind is void, since the continuation
comes first; a re-run is not split. -/
def State.drainSpe (s : State) (i : Nat) : State :=
  let e := (s.core i).spe
  if e.drainHold || e.draining || !e.canHold then s
  else match e.cur with
    | some t =>
      if e.runs ≠ 0 || e.loadWait then s.modSpe i fun e => { e with draining := true }
      else
        let (k, s) := s.splitAt 1 t.vecCount
        s.modSpe i fun e =>
          { e with
            cur := some { t with vecCount := k }
            queue := if k < t.vecCount then s.restOf t k :: e.queue else e.queue
            filled := e.filled && k = t.vecCount
            draining := true }
    | none => s.modSpe i fun e => { e with drainHold := true, loadWait := false }

/-- Release: the held continuation tile stands at the head of its queue, and the engine goes on. -/
def State.undrain (s : State) (i : Nat) : State :=
  ((s.modMxe i fun m => { m with drainHold := false }).modSpe i fun e => { e with drainHold := false }).sparseStart i

/-- R378. -/
def drainCmd (c : Submission) (s : State) : State :=
  let action := hb c 24 1
  if 1 < action then s.single c stBadParam
  else
    let f := c.func
    let cores := s.targetCores c (hb c 26 1)
    if action = 0 then
      let ms := cores.filter fun i => (s.core i).mxe.canHold
      let es := cores.filter fun i => (s.core i).spe.canHold
      let change := ms.any (fun i => !(s.core i).mxe.drainHold) || es.any fun i => !(s.core i).spe.drainHold
      let s := cores.foldl (fun s i => (s.drainMxe i).drainSpe i) s
      let units := ms.map EngineUnit.matrix ++ es.map EngineUnit.sparse
      s.modFunc f fun g => { g with stops := g.stops ++ [⟨c, units, 0, b2n change, 0⟩] }
    else
      let held := cores.filter fun i => (s.core i).mxe.drainHold || (s.core i).spe.drainHold
      let s := held.foldl (fun s i => s.undrain i) s
      if held.isEmpty then s.single c stOk else s.okJ c

def execDrain (c : Submission) (s : State) : Done := .next (s.zcp 0x0012 c drainCmd)

/-- R378: DRAIN with action 1. -/
def execDrainRelease (c : Submission) (s : State) : Done := .next (s.zcp 0x0012 c drainCmd)

/-- An engine of a DRAIN has nothing more to do for it: it holds, or a later command, its core's retirement or the loss of its die has
left it nothing to hold. -/
def State.drainedUnit (s : State) : EngineUnit → Bool
  | .matrix i => !(s.core i).mxe.draining || s.coreGone i
  | .sparse i => !(s.core i).spe.draining || s.coreGone i
  | _ => true

/-- An engine holds after a DRAIN. -/
def State.holdsUnit (s : State) : EngineUnit → Bool
  | .matrix i => (s.core i).mxe.drainHold && !s.coreGone i
  | .sparse i => (s.core i).spe.drainHold && !s.coreGone i
  | _ => false

/-- R378: every targeted engine holds; the detail counts those that do. -/
def execDrainDone (f : Nat) (s : State) : Done :=
  match (s.func f).stopReady 0x0012 fun j => j.units.all s.drainedUnit with
  | some j =>
    let detail := leBytes 2 (j.units.filter s.holdsUnit).length
    let s := s.dropStop f j
    .next (if j.step = 0 then s.single j.sub stOk detail else s.okJ j.sub detail)
  | none => .next s

/-! ## QUENCH -/

/-- The own contributions, marks and step of a quenched step are stopped; duties for other ranks go on (R277). -/
def State.stopOwn (s : State) (f : Nat) (p : Plan) (st : Step) : State :=
  s.modFunc f fun g =>
    { g with chorus := { g.chorus with steps := g.chorus.steps.map fun c =>
      if c.slot = p.group && c.step = st.n then { c with own := [], sentOwn := true, stopped := true } else c } }

/-- Every engine stops at its boundary (R182, R207, R229, R379). -/
def quench' (c : Submission) (s : State) : State :=
  let f := c.func
  match (s.func f).activePlan with
  | none => s.single c stOk
  | some (_, p) =>
    let n := match (s.func f).cur, (s.func f).accepted with
      | some st, _ => st.n
      | none, (_, a) :: _ => a.step
      | none, [] => 0
    let s := match (s.func f).cur with | some st => s.stopOwn f p st | none => s
    let s := s.emptyEngines f
    let stop (st : Step) : Step := { st with quenched := true, backlog := [] }
    let s := (s.modStep f false stop).modStep f true stop
    s.modFunc f fun g => { g with stops := g.stops ++ [⟨c, [], 0, n, 0⟩] }

def execQuench (c : Submission) (s : State) : Done := .next (s.zcp 0x0010 c quench')

/-- R379: every engine is idle. The steps end, then the QUENCH commands. -/
def execQuenchDone (f : Nat) (s : State) : Done :=
  let testing := ((s.diesOf f).flatMap s.coresOf).any fun i => (s.core i).mxe.selftest && (s.core i).mxe.state ≠ 6
  let jobs := (s.func f).stops.filter fun j => j.sub.opcode = 0x0010
  if jobs.isEmpty || testing then .next s
  else
    let count := (s.func f).accepted.length
    let s := s.quenchAll f true
    let s := jobs.foldl (fun s j => (s.dropStop f j).okJ j.sub [] (leBytes 8 j.step ++ leBytes 2 count)) s
    .next (s.startSteps f)

end Sys2Proof.Machine
end

