-- ==== Sys2Proof/Machine/Failover.lean ====
section
/-!
DEFINITION. Die fail-over (R344 to R346, R84, R157, R250, R274, R277, R383), the re-plan, the rebuilding of mirrors, and the link
and processor failures that remove a die (chapters 15, 17, 19).
-/
namespace Sys2Proof.Machine

/-! ## Memory of a removed die -/

def onDie (d k : Nat) : Bool := keyDie k = some d

/-- The contents of a removed die are gone, with what was allocated or mirrored there (R306, R344). -/
def State.loseMemory (s : State) (d : Nat) : State :=
  let s :=
    { s with
      mem := s.mem.filter fun c => !onDie d c.1
      badLines := s.badLines.filter fun l => !onDie d l }
  let plan (p : Plan) : Plan := { p with mirrors := p.mirrors.filter fun x => !onDie d x.2.2 }
  { s with funcs := s.funcs.map fun g =>
      { g with
        allocs := g.allocs.filter fun a => !onDie d a.base
        grants := g.grants.filter fun x => !onDie d x.base
        plans := g.plans.map fun p => p.map plan } }

/-- Copy `n` bytes of memory from one key to another. -/
def State.copyRun (s : State) (src dst n : Nat) : State :=
  { s with mem := (s.mem.filter fun c => src ≤ c.1 && c.1 < src + n).foldl (fun m c => Mem.write m (dst + (c.1 - src)) [c.2]) s.mem }

/-! ## Tables (R157) -/

/-- The shards of a block, copied from or to its Backed copy. -/
def State.shardCopy (s : State) (t : Table) (b : OwnerBlock) (toBacked : Bool) : State :=
  let n := t.slotsPerShard * t.stride
  b.shards.zipIdx.foldl (fun s (x, k) =>
    let y := b.backed + k * n
    if toBacked then s.copyRun x.base y n else s.copyRun y x.base n) s

/-- The partner takes over the block of a lost die: its shards restored from the Backed copy, or created again with every row +0, none
of them poisoned (TBL_LOST). -/
def State.adopt (s : State) (f e : Nat) (t : Table) (b : OwnerBlock) : OwnerBlock × State :=
  let kept := b.backed ≠ 0
  match s.placeOwner f (.table t.id) t e b.owner with
  | none => ({ b with server := e, backed := 0 }, s)
  | some (nb, s) =>
    let nb := { nb with die := b.die, server := e }
    if kept then
      let s := s.shardCopy t { nb with backed := b.backed } false
      (nb, if nb.backed = 0 then s else s.shardCopy t nb true)
    else
      let s := s.modFunc f fun g => g.modTable t.id fun x =>
        { x with poisoned := x.poisoned.filter (·.1 ≠ b.owner), flipped := x.flipped.filter (·.1 ≠ b.owner) }
      (nb, ((s.cntDie e 15 256).emit e 6 t.id 256 2))

/-- What becomes of an owner block: a block that the lost die served is adopted by its partner, a Backed copy that stood there is made anew
(Table 6.8). -/
def State.blockFailover (s : State) (f d : Nat) (t : Table) (b : OwnerBlock) : OwnerBlock × State :=
  let e := d ^^^ 2
  if b.server = d then s.adopt f e t b
  else if b.backed ≠ 0 && onDie d b.backed then
    match s.placeArea f (.table t.id) [Area.tier2 e] (256 * t.slotsPerShard * t.stride) with
    | some (k, s) =>
      let b : OwnerBlock := { b with backed := k }
      (b, s.shardCopy t b true)
    | none => ({ b with backed := 0 }, s)
  else (b, s)

/-- The address of a table's definition record: a new one when the die that held it is lost. -/
def State.recordFailover (s : State) (f d : Nat) (t : Table) : Nat × State :=
  let lost := match s.key f t.record with | some k => onDie d k | none => true
  match (if lost then s.placeArea f (.table t.id) (s.spillOrder f (d ^^^ 2) 0) 256 else none) with
  | some (k, s) => (s.devAddr f k, s)
  | none => (t.record, s)

/-- What fail-over does to a table: the lost die's blocks are adopted, a Backed copy that lay on it is made again, and so is the
definition record, at a new address (log 45). -/
def State.tableFailover (s : State) (f d : Nat) (t : Table) : State :=
  let (bs, s) := t.blocks.foldl (fun (x : List OwnerBlock × State) b =>
    let (b, s) := x.2.blockFailover f d t b
    (x.1 ++ [b], s)) (([] : List OwnerBlock), s)
  let (rec, s) := s.recordFailover f d t
  let s := s.modFunc f fun g => g.modTable t.id fun x => { x with blocks := bs, record := rec }
  let t := { t with blocks := bs, record := rec }
  s.devWrite f t.record (s.tableRecord f t)

/-- Whether a message belongs to a move that a fail-over cancels, or is a location update that it withdraws (R157): a decision, a
reservation or its answer, a copy, a final copy before the switch, an update whose step has not begun. -/
def Func.cancels (g : Func) (m : TableMsg) : Bool :=
  m.kind ≤ 3 || (m.kind = 4 && g.migs.any fun x => x.table = m.table && x.row = m.row) || (m.kind = 6 && g.stepNow < m.step)

/-- Messages of cancelled moves do not act any more, and the slots reserved for them are free. -/
def State.purgeMoves (s : State) (f : Nat) : State :=
  let g := s.func f
  let gone := s.links.filterMap fun l => match l.msg with
    | .tableMaint m => if l.func = f && g.cancels m then some m else none
    | _ => none
  let s := { s with links := s.links.filter fun l => match l.msg with | .tableMaint m => !(l.func = f && g.cancels m) | _ => true }
  let s := (gone.filter fun m => m.kind = 2).foldl (fun s m =>
    s.modFunc f fun g => g.modTable m.table fun t => { t with migUsed := t.migUsed.erase (m.newOwner, m.shard, m.slot) }) s
  s.modFunc f fun h => { h with jobs := h.jobs.map fun j =>
    if j.sub.opcode = 0x0106 && j.started then
      { j with n1 := j.n1 - (g.hostMoves.filter fun m => m.1 = j.arg).length - (g.migs.filter fun m => m.host && m.table = j.arg).length }
    else j }

/-- Moves not switched are cancelled and their held writes go to the old slot; updates whose step has not begun are withdrawn, and
the stubs of their rows keep serving the old location (R157, log 45). -/
def State.cancelMoves (s : State) (f : Nat) : State :=
  let g := s.func f
  let s := s.purgeMoves f
  let now := g.stepNow
  let late := g.locPending.filter fun x => now < x.1
  let s := g.migs.foldl (fun s m => match m.slot with
    | some sl => s.modFunc f fun g => g.modTable m.table fun t => { t with migUsed := t.migUsed.erase (m.newOwner, m.shard, sl) }
    | none => s) s
  let hold (x : Stub) : Stub := if late.any (fun l => l.2.table = x.table && l.2.row = x.row) then { x with ends := 2 ^ 64 - 1 } else x
  let s := s.modFunc f fun g =>
    { g with migs := [], hostMoves := [], locPending := g.locPending.filter (fun x => !(now < x.1)), stubs := g.stubs.map hold }
  g.migs.foldl (fun s m => m.held.foldl (fun s w =>
    match (s.func f).table m.table with | some t => s.ownerWrite f t m.oldOwner w | none => s) s) s

/-! ## Chorus (R274, R277) -/

/-- Compression memories that the lost die kept restart at +0: Tier A memories, which every rank keeps, and Tier B memories, which the
segment owner of a shard keeps. The die that forms a shard's contribution is taken to be the one R256 names for ownership (log 46). -/
def State.loseChorusMemory (s : State) (f d : Nat) : State :=
  (List.range 16).foldl (fun s slot =>
    match (s.func f).plans.getD slot none with
    | none => s
    | some p =>
      match (s.func f).groups.getD p.group none with
      | none => s
      | some gr =>
        if !gr.compressed then s
        else
          let mine (j : Nat) : Bool := s.physDie f (s.shardDie gr j) = d
          let js := (List.range p.pgroups.length).flatMap fun g => (p.groupShards g).map (·.1)
          let kept (j : Nat) : Bool := gr.tierA || gr.segOwner (gr.segOf gr.me) j = some gr.me
          let lost := (js.filter fun j => mine j && kept j).length
          let keep (l : List (Nat × F32)) : List (Nat × F32) := l.filter fun x => !mine (x.1 / shardElems)
          (s.setPlan f slot { p with errMem := keep p.errMem, remMem := keep p.remMem }).cntMod f 13 lost) s

/-- The partner takes over the shards of the lost die, whose contributions it asks for again (R277). -/
def State.chorusFailover (s : State) (f d : Nat) : State :=
  (s.func f).chorus.steps.foldl (fun s c =>
    match (s.func f).groups.getD c.slot none with
    | none => s
    | some gr =>
      let mine (j : Nat) : Bool := s.physDie f (s.shardDie gr j) = d
      let k := gr.segOf gr.me
      let skip := match c.mask with | some m => m.skip | none => false
      let s := if skip then s
        else s.askShards f c.slot c.step gr (fun j => mine j && gr.owner j = some gr.me) (fun j => mine j && gr.segOwner k j = some gr.me)
      s.modChorus f c.slot c.step fun c => { c with held := c.held.filter fun x => !mine x.msg.shard }) s

/-! ## The step (R84, Table 3.7) -/

/-- Fail-over during a step: its work is discarded and waits for the re-plan, or stands when its contribution has been sent. -/
def State.stepFailover (s : State) (f : Nat) : State :=
  let s := match (s.func f).ahead with
    | some a => ((s.dropStep f a.n true).dropCombining f a.n).modFunc f fun g => { g with ahead := none }
    | none => s
  match (s.func f).cur, (s.func f).activePlan with
  | some st, some (_, p) =>
    let s := s.flagStep f flFailover
    let stands := st.phase = .u || (st.phase = .r && ((s.func f).chorusStep p.group st.n).formed)
    if stands then s
    else (s.emptyEngines f).modStep f false fun st => { st with quenched := true, backlog := [] }
  | _, _ => s

/-- The units of a removed die stop. -/
def State.stopUnits (s : State) (d : Nat) : State :=
  let s := ((List.range 160).map (d * 160 + ·)).foldl (fun s i => s.modCore i fun c =>
    let c := c.emptied
    { c with
      mxe := { c.mxe with disabling := false, draining := false }
      spe := { c.spe with disabling := false, draining := false }
      vec := { c.vec with disabling := false } }) s
  let gone (p : Proc) : Bool := match p with | .security e | .power e | .scheduler e => e = d | .control e _ => e = d
  { s with procs := { s.procs with
    restarting := s.procs.restarting.filter fun p => !gone p
    halted := s.procs.halted.filter fun p => !gone p } }

/-! ## Loss of both dies of a pair (R346) -/

def State.losePair (s : State) (f d mech : Nat) : State :=
  let s := (s.emptyEngines f).quenchAll f true
  let s := ((s.func f).tables).foldl (fun s x => s.modFunc f fun g => g.forgetTable x.1) s
  let s := s.modFunc f fun g =>
    { g with
      plans := List.replicate 16 none
      accepted := []
      asks := []
      allocs := g.allocs.filter fun a => match a.owner with | .plan _ | .mirror _ | .table _ => false | _ => true }
  let s := s.countLeaves f
  let w := s.witness d
  let (s, q) := s.fault w mech 3 0 9
  s.emitTo [f] w 4 0 q 9

/-! ## Quad (R28) -/

/-- Nothing that a function took in, loaded or worked on is left. Its queues, counters and registers stay. -/
def Func.cleared (g : Func) : Func :=
  { g with
    fetched := []
    held := []
    released := []
    jobs := []
    asks := []
    stops := []
    modeJob := none
    rowJobs := []
    accepted := []
    cur := none
    ahead := none
    plans := List.replicate 16 none
    graphs := List.replicate 16 none
    groups := List.replicate 8 none
    tables := []
    progs := []
    ftables := []
    ftkeys := []
    slices := []
    gather := []
    unsent := []
    gatherWait := []
    owed := []
    keptGrads := []
    lateGrads := []
    combRows := []
    combines := []
    locs := []
    locPending := []
    migs := []
    hostMoves := []
    stubs := []
    heldWrites := []
    loads := []
    tally := []
    reads := []
    fwdRows := []
    waitReqs := []
    allocs := []
    chorus := { g.chorus with steps := [], carried := [] } }

/-- The function of a lost die: its work is lost, and its commands answer NOT_PRESENT, those that had answered ACCEPTED with their final
completion (R371); a MOD_PRESENT stays to be executed. -/
def State.loseFunction (s : State) (f : Nat) : State :=
  let g := s.func f
  let present (c : Submission) : Bool := c.opcode = 0x0002
  let waiting := (g.fetched ++ g.held ++ g.released ++ g.modeJob.toList.map (·.1) ++ g.rowJobs.map (·.sub) ++ g.stops.map (·.sub) ++
    (g.asks.filterMap (·.sub)).filter fun c => !g.jobs.any fun j => j.sub = c).filter fun c => !present c
  let begun := g.jobs.map (·.sub) ++ g.accepted.map (·.2)
  let s := { s with act := s.act.map fun (a : Activation) => { a with answered := a.answered || a.sub.func = f } }
  let s := (s.modFunc f fun g =>
    { g.cleared with fetched := g.fetched.filter present, held := g.held.filter present, released := g.released.filter present }).countLeaves f
  let s := waiting.foldl (fun s c => s.single c stNotPresent (reason7 0)) s
  begun.foldl (fun s c => s.final c stNotPresent (reason7 0)) s

/-! ## Removal (R344) -/

/-- The die at the other end of link `l` of die `d` (R18). -/
def linkPeer (d l : Nat) : Nat := d ^^^ (l + 1)

/-- What was on its way to a lost die is lost, but for the writes forwarded to rows whose owner index a partner takes over (R153, R157). -/
def State.dropLinks (s : State) (d : Nat) (partner : Option Nat) : State :=
  { s with links := s.links.filterMap fun l =>
      if l.die ≠ d then some l
      else match partner, l.msg with
        | some e, .tableMaint m => if m.kind = 5 then some { l with die := e } else none
        | _, _ => none }

/-- Remove a die for a fault of the given mechanism. -/
def State.removeDie (s : State) (d mech : Nat) : State :=
  if !s.up d then s
  else
    let f := s.fnOf d
    let e := d ^^^ 2
    let s := s.modDie d fun x => { x with lost := true, safState := 2, degraded := false }
    let s := ((List.range 4).filter s.up).foldl (fun s x => s.modDie x fun y => { y with linksOk := y.linksOk.filter fun l => d ≠ linkPeer x l }) s
    let w := s.witness d
    let (s, q) := s.fault w mech 2 d 5
    let s := ((s.emitTo [f] w 4 d q 5).cntDie w 70).cntDie w 71
    let s := ((List.range 6).map (d * 6 + ·)).foldl (fun s p => s.stopPort p 0) s
    let s := (s.stopUnits d).emitTo [f] w 2 d 0 2
    let s := if d < 2 then s.loseSecurity d else s
    let s := s.actPrune
    if s.quad then ((s.dropLinks d none).loseMemory d).loseFunction f
    else
      let s := (((List.range 4).filter s.up).foldl (fun s x => s.modDie x fun y => { y with safState := 1 }) s).cancelMoves f
      let s := s.dropLinks d (if s.up e then some e else none)
      if !s.up e then (s.loseMemory d).losePair f d mech
      else
        let s := (s.stepFailover f).chorusFailover f d
        let s := (s.func f).tables.foldl (fun s x => s.tableFailover f d x.2) s
        let s := (s.loseChorusMemory f d).loseMemory d
        let mirrored := (s.func f).plans.any fun p => match p with | some p => p.mirrored | none => false
        let s := if mirrored then s.modDie e fun y => { y with degraded := true } else s
        -- row gradients of a step in R are asked for again (Table 13.7, Table 3.7)
        match (s.func f).cur with
        | some st =>
          if st.phase ≠ .r then s
          else (s.func f).trainedTables.foldl (fun s t => (t.blocks.filter fun b => b.die = d).foldl (fun s b =>
            s.restartCombine f t b st.n) s) s
        | none => s

/-! ## REPLAN_DONE (R84, R344) -/

/-- R84, R344: the re-plan is complete; the step that waited for it runs again from S. -/
def execReplanDone (s : State) : Done :=
  if s.quad || !(List.range 4).any (fun d => s.up d && (s.die d).safState = 1) then .next s
  else
    let s := (List.range 4).foldl (fun s d => s.modDie d fun x => if x.safState = 1 then { x with safState := 0 } else x) s
    let s := ((List.range 16).foldl (fun s k => s.replaceWorking 0 k) s).countLeaves 0
    match (s.func 0).cur with
    | some st =>
      let quench := (s.func 0).stops.any fun j => j.sub.opcode = 0x0010
      if st.quenched && !quench then .next ((s.restartStep 0 flFailover st.reexec).startSteps 0)
      else .next (s.startSteps 0)
    | none => .next (s.startSteps 0)

/-! ## TWIN_REBUILD_DONE (R250) -/

/-- R250: the die that serves its pair alone has written a second copy of the pair's state into its own tier-2 share. It does so from the
next step boundary, so not in the step that the fail-over met. -/
def execTwinRebuildDone (die : Nat) (s : State) : Done :=
  let early := match (s.func (s.fnOf die)).cur with | some st => bit st.flags flFailover | none => false
  if !s.up die || !(s.die die).degraded || early then .next s
  else
    let f := s.fnOf die
    let (ok, s) := (List.range 16).foldl (fun (ok, s) slot =>
      match (State.func s f).plans.getD slot none with
      | none => (ok, s)
      | some p =>
        p.stateRuns.foldl (fun (ok, s) (x : Nat × Nat × Nat × Nat × Bool) =>
          match State.key s f x.1 with
          | none => (ok, s)
          | some k =>
            match State.copies s k x.2.1 with
            | [c] =>
              if !onDie die c then (ok, s)
              else match State.allocate s f (.mirror slot) [.tier2 die] x.2.1 with
                | some (m, s) =>
                  let s := State.copyRun s c m.base x.2.1
                  let add (p : Plan) : Plan := { p with mirrors := p.mirrors ++ [(k, x.2.1, m.base)] }
                  (ok, State.modFunc s f fun g => { g with plans := g.plans.set slot ((g.plans.getD slot none).map add) })
                | none => (false, s)
            | _ => (ok, s)) (ok, s)) (true, s)
    .next (if ok then s.modDie die fun x => { x with degraded := false } else s)

/-! ## Links that fail (R416) -/

/-- A die-to-die link by its number 24 + 3 × die + link, as its two dies, lower first (log 44). -/
def d2dLink (port : Nat) : Nat × Nat :=
  let d := (port - 24) / 3
  let e := linkPeer d ((port - 24) % 3)
  (min d e, max d e)

/-- A die-to-die link fails its retrain: its higher-numbered die is removed (Table 15.2). -/
def State.linkFail (s : State) (port : Nat) : State := s.removeDie (d2dLink port).2 6

/-- A die-to-die link retrains; the third time within one second it fails. The detection is recorded with scope 4 and the link's number
at its lower die (R350, log 44). -/
def State.linkRetrain (s : State) (port : Nat) : State :=
  let (a, b) := d2dLink port
  let s := if s.up a && s.up b then s.note a 6 4 (24 + 3 * a + (port - 24) % 3) 1 else s
  let k := 4 * a + b
  let recent := s.linkTrains.filter fun x => x.1 = k && (s.clk + 2 ^ 64 - x.2) % 2 ^ 64 < second
  let s :=
    { s with
      linkTrains := (s.linkTrains.filter fun x => x.1 ≠ k) ++ recent ++ [(k, s.clk)]
      linkRetries := s.linkRetries.filter fun x => d2dLink x.1 ≠ (a, b) }
  if !s.up a || !s.up b then s
  else if 2 ≤ recent.length then s.linkFail port
  else s

/-- R416: the same SEQ has been retried 8 times in a row. -/
def execRetryLimit (port : Nat) (s : State) : Done :=
  if port < 24 then
    (if (s.port port).state = 2 && 8 ≤ (s.port port).retryCount then .next (s.retrainPort port) else .next s)
  else if port < 36 && (match s.linkRetries.lookup port with | some (_, n) => 8 ≤ n | none => false) then .next (s.linkRetrain port)
  else .next s

/-- R424: a port or link has not come up within 500 ms of the start of its training. A port whose partner has no common version
stays in training. -/
def execLinkTrainTimeout (port : Nat) (s : State) : Done :=
  if port < 24 then
    let p := s.port port
    if s.up (port / 6) && (p.state = 3 || (p.state = 1 && !p.noVer)) then .next (s.portDown port) else .next s
  else if port < 36 then
    (let (a, b) := d2dLink port
     if s.up a && s.up b then .next (s.linkFail port) else .next s)
  else .next s

end Sys2Proof.Machine
end

