-- ==== Sys2Proof/Machine/Monitors.lean ====
section
/-!
DEFINITION. Monitors, watchdogs, background self-tests and Axolotl (R342, R343, R347 to R355, R387, R388).
-/
namespace Sys2Proof.Machine

/-! ## Progress monitors (R342) -/

/-- The work item a unit is on, when it holds work and has no memory or fabric request outstanding: a fill, a request of a Bellows, a grant
of peer memory, an access to an aperture. The load/store engine of a core holds the fill of a tile's weights; whether the memory has answered
it is what the row itself reports (log 72). -/
def State.workItem (s : State) : EngineUnit → Option Nat
  | .matrix i =>
    let m := (s.core i).mxe
    match m.cur with
    | some t => if m.loadWait || m.selftest || s.coreState i ≠ 1 then none else some (2 ^ 32 * t.step + t.seq)
    | none => none
  | .sparse i => if s.coreState i ≠ 1 || (s.core i).spe.loadWait then none else (s.core i).spe.cur.map fun t => 2 ^ 32 * t.step + t.seq
  | .vector i =>
    let v := (s.core i).vec
    if s.coreState i ≠ 1 || v.state = 0 || 3 < v.state then none
    else some (2 ^ 16 * (s.func (s.fnOf (coreDie i))).stepNow + v.layer)
  | .loadStore i =>
    let c := s.core i
    let t := if c.mxe.loadWait then c.mxe.cur else if c.spe.loadWait then c.spe.cur
      else match (if c.mxe.filled then none else c.mxe.queue.find? (·.load)) with
        | some t => some t
        | none => if c.spe.filled then none else c.spe.queue.head?
    if s.coreState i ≠ 1 || (s.func (s.fnOf (coreDie i))).apertures.any (fun x => !x.2.pending.isEmpty) then none
    else t.map fun t => 2 ^ 32 * t.step + t.seq
  | .skink d c =>
    if !s.cluUp d c || (s.func (s.fnOf d)).asks.any (fun a => a.sub.isNone) then none
    else match (s.clu d c).skink.dealt with
      | (i, q, a) :: _ => some (2 ^ 40 * ((s.func (s.fnOf d)).stepNow + a) + 2 ^ 24 * i + q)
      | [] => none
  | .bellows d c =>
    let g := s.func (s.fnOf d)
    if !s.bellowsOk d c || 0 < (s.clu d c).bellows.inflight then none
    else (g.gather.find? fun e => !e.done && e.die = d && e.cluster = c).map fun e => 2 ^ 48 * e.step + 2 ^ 32 * e.desc + e.entry
  | .chanter d =>
    let g := s.func (s.fnOf d)
    if s.up d && g.inU && g.apertures.all (fun x => x.2.pending.isEmpty) then some (s.func (s.fnOf d)).stepNow else none

def unitDie : EngineUnit → Nat
  | .matrix i | .sparse i | .vector i | .loadStore i => coreDie i
  | .skink d _ | .bellows d _ => d
  | .chanter d => d

/-- Scope code and instance of a unit in a fault record (Table 15.4). -/
def unitScope : EngineUnit → Nat × Nat
  | .matrix i | .sparse i | .vector i | .loadStore i => (0, i)
  | .skink _ c | .bellows _ c => (1, c)
  | .chanter d => (2, d)

/-- The item is quenched to its boundary and runs again. -/
def State.rerunItem (s : State) : EngineUnit → State
  | .matrix i =>
    match (s.core i).mxe.cur with
    | some t => s.rerun i t (s.core i).mxe.runs
    | none => s
  | .sparse i =>
    match (s.core i).spe.cur with
    | some t => s.refillSpe i t (s.core i).spe.runs
    | none => s
  | _ => s

/-- R342, R343: the first firing on an item re-runs it; the second removes the core or the cluster. -/
def execProgressMonitorFire (u : EngineUnit) (s : State) : Done :=
  match s.workItem u with
  | none => .next s
  | some n =>
    let d := unitDie u
    let (sc, inst) := unitScope u
    let again := (s.die d).progress.any fun x => x.1 = u && x.2 = n
    let s := s.cntDie d 65
    let s := s.modDie d fun x => { x with progress := (u, n) :: x.progress.filter fun y => y.1 ≠ u }
    if !again then .next ((s.note d 9 sc inst 1).rerunItem u)
    else match u with
      | .matrix i | .sparse i | .vector i | .loadStore i => .next (s.retireCore i 9 true)
      | .skink d c | .bellows d c => .next (s.disableCluster d c 9)
      | .chanter _ => .next (s.note d 9 sc inst 1)

/-! ## Clock and regulator monitors (Table 15.2) -/

/-- R343: a clock has stopped or is off by more than 5 %. -/
def execClockMonitorFire (sc : Scope) (s : State) : Done :=
  match sc with
  | .core i => if s.coreState i = 1 then .next ((s.cntDie (coreDie i) 66).retireCore i 10 true) else .next s
  | .cluster d c => if s.cluUp d c then .next ((s.cntDie d 66).disableCluster d c 10) else .next s
  | .die d => if s.up d then .next ((s.cntDie d 66).removeDie d 10) else .next s

/-- R343: a rail of a die is outside its limits. -/
def execRegulatorMonitorFire (die : Nat) (s : State) : Done :=
  if s.up die then .next ((s.cntDie die 67).removeDie die 11) else .next s

/-! ## Watchdogs (R387, R388) -/

/-- The number of a processor, as PROC_SEL writes it (Table 20.11). -/
def procCode : Proc → Nat
  | .security d => d * 4
  | .power d => 1 + d * 4
  | .scheduler d => 2 + d * 4
  | .control d c => 3 + d * 4 + c * 16

def procDie : Proc → Nat
  | .security d | .power d | .scheduler d => d
  | .control d _ => d

/-- A processor that exists and is in service. -/
def State.procUp (s : State) : Proc → Bool
  | .security d => (d = 0 && s.sec.alive0) || (d = 1 && s.sec.alive1)
  | .power d | .scheduler d => s.up d
  | .control d c => s.cluUp d c

/-- The third restart within one second escalates (R388, Table 15.2). -/
def State.escalate (s : State) (p : Proc) : State :=
  match p with
  | .security d => ((s.cntDie (s.witness d) 70).loseSecurity d).actPrune
  | .power d | .scheduler d => s.removeDie d 12
  | .control d c => (s.disableCluster d c 12).actPrune

/-- R387: a processor has not serviced its watchdog, and restarts alone. A halted processor's watchdog is suspended (R440). -/
def execWatchdogFire (p : Proc) (s : State) : Done :=
  if !s.procUp p || s.procStops p then .next s
  else
    let d := procDie p
    let now := (s.die d).clk
    let recent := s.procs.times.filter fun (x : Proc × Nat) => x.1 = p && (now + 2 ^ 64 - x.2) % 2 ^ 64 < second
    let s := ((s.cntDie d 80).note d 12 5 (procCode p) 6)
    let last (l : List Nat) : List Nat := match p with | .control _ c => modNth (fun _ => c) d l | _ => l
    let s := { s with procs := { s.procs with
      times := (s.procs.times.filter fun (x : Proc × Nat) => x.1 ≠ p) ++ recent ++ [(p, now)]
      restarts := upsert (fun (x : Proc × Nat) => x.1 = p) (fun (x : Proc × Nat) => (p, x.2 + 1)) (p, 1) s.procs.restarts
      lastCluster := last s.procs.lastCluster } }
    if 2 ≤ recent.length then .next (s.escalate p)
    else .next ({ s with procs := { s.procs with restarting := s.procs.restarting ++ [p] } }.pauseProc p)

/-! ## Axolotl's mode -/

def State.axlMode (s : State) (d : Nat) : Nat := let m := s.cfg.axlMode.getD d 0; if m = 3 then 1 else m
def State.modAxl (s : State) (d : Nat) (h : Axolotl → Axolotl) : State := s.modDie d fun x => { x with axl := h x.axl }

/-! ## Background self-test (R347, R348) -/

def resourceDie : Resource → Nat
  | .array i | .drains i | .sparse i | .vector i | .coreStore i => coreDie i
  | .clusterBuffer d _ | .skink d _ => d
  | .gecko d | .monitors d => d
  | .port n => n / 6
  | .link d _ => d
  | .standby => 1

/-- No engine of a core has a tile or a share in work. -/
def State.coreIdle (s : State) (i : Nat) : Bool :=
  let c := s.core i
  c.mxe.cur.isNone && c.mxe.queue.isEmpty && c.spe.cur.isNone && c.spe.queue.isEmpty && (c.vec.state = 0 || 3 < c.vec.state)

/-- A resource that is present and holds no work (R347). -/
def State.restingResource (s : State) : Resource → Bool
  | .array i | .drains i =>
    let m := (s.core i).mxe
    s.coreState i = 1 && m.cur.isNone && m.queue.isEmpty && !m.selftest
  | .sparse i => s.coreState i = 1 && (s.core i).spe.cur.isNone && (s.core i).spe.queue.isEmpty && (s.core i).spe.state ≠ 3
  | .vector i => s.coreState i = 1 && ((s.core i).vec.state = 0 || (s.core i).vec.state = 4)
  | .coreStore i => s.coreState i = 1 && s.coreIdle i
  | .clusterBuffer d c => s.cluUp d c && (s.clu d c).leaves.isEmpty && ((List.range 8).map (coreId d c)).all s.coreIdle
  | .skink d c => s.cluUp d c && (s.clu d c).skink.dealt.isEmpty
  | .gecko d => s.up d && !(s.die d).gecko.entries.any fun e => e.2.combining
  | .monitors d => s.up d
  | .port n => n < 24 && s.up (n / 6) && (s.port n).state = 2 && (s.port n).queues.all (·.isEmpty) && (s.port n).replay.isEmpty
  | .link d l =>
    let e := linkPeer d l
    s.up d && s.up e && l < 3 && !s.links.any fun m => (m.src = d && m.die = e) || (m.src = e && m.die = d)
  | .standby => s.sec.role = 0 && s.sec.alive1

/-- A parity error in a Gecko entry: a cached row is dropped; a combining entry restarts its table's combining (R132). -/
def State.geckoParity (s : State) (d key : Nat) : State :=
  match SMap.find key (s.die d).gecko.entries with
  | none => s
  | some e =>
    let s := (s.cntDie d 4).note d 8 2 d 1
    if !e.combining then s.modGecko d (·.drop key)
    else
      let f := s.fnOf d
      match (s.func f).table e.table with
      | none => s.modGecko d (·.drop key)
      | some t => ((s.func f).combines.filter fun c => c.table = e.table && !c.closed).foldl (fun s c =>
          match t.block c.owner with
          | some b => if b.server = d then s.restartCombine f t b c.step else s
          | none => s) s

/-- A scope that a monitor of a die watches, by number: its clusters 0 to 19, its cores from 20 on, and the die (log 72). -/
def State.monitorScope (s : State) (d n : Nat) : State :=
  if n < 20 then s.disableCluster d n 13 else if n < 180 then s.retireCore (d * 160 + (n - 20)) 13 true else s.removeDie d 13

/-- What a failed test leads to: the response of the resource's online mechanism (R348). That of a clock or regulator monitor is the
removal of its scope (Table 15.1): `which` names the scopes, none the die. -/
def State.testFailed (s : State) (r : Resource) (which : List Nat) : State :=
  match r with
  | .array i =>
    if which.isEmpty then s.retireCore i 13 true
    else s.testDecisions i which 13
  | .drains i | .sparse i | .vector i => s.retireCore i 13 true
  | .coreStore i =>
    let (third, s) := (s.cntDie (coreDie i) 41).thirdUe (coreDie i) 1 i
    if third then s.retireCore i 3 true else s.note (coreDie i) 3 0 i 0
  | .clusterBuffer d c =>
    let (third, s) := (s.cntDie d 41).thirdUe d 2 c
    if third then s.disableCluster d c 3 else s.note d 3 1 c 0
  | .gecko d => which.foldl (fun s k => s.geckoParity d k) s
  | .skink d c => (s.cntClu d c 6).note d 8 1 c 1
  | .port n => ((s.portFault (n / 6) n 1).1).askRetrain n
  | .link d l => s.linkRetrain (24 + 3 * d + l)
  | .monitors d => (if which.isEmpty then [180] else which).foldl (fun s n => s.monitorScope d n) s
  | .standby => (s.note 1 13 5 (procCode (.security 1)) 9).loseSecurity 1

/-- The margin test of a core that a plan has asked for, in a background slot: `cols` failed it and pass at normal conditions (R355). -/
def State.marginTest (s : State) (i : Nat) (cols : List Nat) : State :=
  let d := coreDie i
  let s := s.modAxl d fun a => { a with marginDue := a.marginDue.filter (· ≠ i) }
  let ps := cols.filter fun p => p < 264 && !(s.core i).bypassed.contains p
  if s.axlMode d = 2 then
    ps.foldl (fun s p =>
      let t := s.bypass i p
      if (t.core i).bypassed.contains p && !(s.core i).bypassed.contains p then t.cntDie d 76 else t) s
  else s.modAxl d fun a => { a with marginal := a.marginal ++ ps.map fun p => (i, p) }

/-- R347, R348, R355: a background test has run on a resource that holds no work. `which` names what it met: the physical columns of an
array that failed, or, where the array passed, those that fail the margin test that a plan asked for; entries of Gecko's directory;
lines of a store that were corrected. -/
def State.backgroundTest (s : State) (r : Resource) (pass : Bool) (which : List Nat) : State :=
  let d := resourceDie r
  if !s.restingResource r then s
  else
    let now := (s.die d).clk
    let s := (s.cntDie d 68).modDie d fun x =>
      { x with bistRuns := (x.bistRuns + 1) % 2 ^ 16, bistTimes := upsert (fun (y : Resource × Nat) => y.1 = r) (fun _ => (r, now)) (r, now) x.bistTimes }
    let s := match r with
      | .array i => s.modMxe i fun m => { m with dirtyWeights := true, cells := Weights.none }
      | .coreStore _ | .clusterBuffer _ _ => s.cntDie d 40 which.length
      | _ => s
    if !pass then (s.cntDie d 69).testFailed r which
    else match r with
      | .array i => if (s.die d).axl.marginDue.contains i then s.marginTest i which else s
      | _ => s

/-- R347, R348. -/
def execBackgroundSelftest (r : Resource) (pass : Bool) (which : List Nat) (s : State) : Done := .next (s.backgroundTest r pass which)

/-! ## Axolotl (R351 to R355) -/

/-- The slack of monitor `i` of a die (R351) from the delay that its replica shows, both in 0.25 ps: the period at the boost ceiling,
10^6 ÷ CEIL_MHZ ps rounded down, less the delay normalised to 105 °C through the fused coefficient (log 72). -/
def State.slackOf (s : State) (d i : Nat) (delay : Int) : Int :=
  ((4000000 / s.cfg.ceilMhz.getD d 1500 : Nat) : Int) -
    Config.axlNormalise ((s.fuses.tempCoeff.getD d []).getD i 0) ((s.die d).power.logic) delay

/-- R351: one set of samples of the 64 monitors: the delays that the replicas show, in 0.25 ps. The power core takes them (Table 17.1), so
not while it is stopped. -/
def execAxlSample (die : Nat) (slack : List Int) (s : State) : Done :=
  if !s.up die || s.axlMode die = 0 || s.procStops (.power die) then .next s
  else
    let v := (List.range 64).map fun i => s.slackOf die i (slack.getD i 0)
    let low (a : Axolotl) : List Int := if a.sampled then (a.minSlack.zip v).map fun x => min x.1 x.2 else v
    .next ((s.cntDie die 72).modAxl die fun a => { a with slack := v, minSlack := low a, sampled := true })

/-- Guard steps of a plan: guard and what is still short, in 0.01 ps. -/
def guardLoop (gv : Int) : (fuel : Nat) → Nat → Int → Nat × Int
  | 0, g, short => (g, short)
  | n + 1, g, short => if 0 < short && g < 8 then guardLoop gv n (g + 1) (short - gv) else (g, short)

/-- Bin steps of a plan: the gain of each, 10^8 ÷ (f − 25) − 10^8 ÷ f in 0.01 ps, rounded down. -/
def binLoop : (fuel : Nat) → Nat → Int → Nat × Int
  | 0, f, short => (f, short)
  | n + 1, f, short =>
    if 0 < short && 1250 < f then binLoop n (f - 25) (short - ((2500000000 / (f * (f - 25)) : Nat) : Int)) else (f, short)

/-- The reference procedure of R352: guard steps, ceiling, exhausted. Slack is in 0.25 ps, the target in ps, G_V in 0.1 ps. -/
def axlPlan (tgt : Nat) (slack : Int) (gv g f : Nat) : Nat × Nat × Bool :=
  let (g', short) := guardLoop ((gv : Int) * 10) 8 g ((tgt : Int) * 100 - slack * 25)
  let (f', short) := binLoop 64 f short
  (g', f', 0 < short)

/-- AXL_PLAN. -/
def State.axlPlanReg (s : State) (d : Nat) : Word :=
  let a := (s.die d).axl
  let hours := ((s.die d).clk + 2 ^ 64 - a.planned) % 2 ^ 64 / (3600 * second)
  pack [(0, 4, s.cfg.guard.getD d 0), (4, 11, s.cfg.ceilMhz.getD d 0), (15, 1, b2n (s.cfg.exhausted.getD d false)),
    (16, 4, a.planGuard), (20, 11, a.planCeil), (31, 1, b2n a.planDiff), (32, 16, hours)]

/-- Form a plan of a die, and apply it in Apply mode (R352 to R354); its margin tests follow in background slots (R355). -/
def State.formPlan (s : State) (d : Nat) : State :=
  let a := (s.die d).axl
  let g := s.cfg.guard.getD d 0
  let f := s.cfg.ceilMhz.getD d 1500
  let low : Int := match a.minSlack with | x :: l => l.foldl min x | [] => 0
  let (g', f', exh) := axlPlan a.slackTgt low (s.fuses.gv.getD d 0) g f
  let mode := s.axlMode d
  let s := s.cntDie d 73
  let s := if mode = 2 then
      let s := (s.cntDie d 74 (g' - g)).cntDie d 75 ((f - f') / 25)
      { s with cfg := { s.cfg with guard := s.cfg.guard.set d g', ceilMhz := s.cfg.ceilMhz.set d f' } }
    else s
  let s := { s with cfg := { s.cfg with exhausted := s.cfg.exhausted.set d exh } }
  let now := (s.die d).clk
  let cores := s.coresOf d
  let diff := mode ≠ 2 && (g' ≠ g || f' ≠ f)
  let s := s.modAxl d fun a =>
    { a with planGuard := g', planCeil := f', planDiff := diff, planned := now, sampled := false, marginal := [], marginDue := cores }
  let s := if mode = 1 && diff then s.emit d 9 d (s.axlPlanReg d).toNat 1 else s
  if exh then s.emit d 9 d (s.axlPlanReg d).toNat 2 else s

/-- The margin tests that run at once with a plan, each in a background slot of its array: the core and the columns it found (R355). -/
def State.planTests (s : State) (d : Nat) (marginal : List (Nat × List Nat)) : State :=
  (marginal.filter fun x => coreDie x.1 = d).foldl (fun s x => s.backgroundTest (.array x.1) true x.2) s

/-- R352, R355: 24 hours after the previous plan. -/
def execAxolotlPlan (die : Nat) (marginal : List (Nat × List Nat)) (s : State) : Done :=
  if s.up die && !s.procStops (.power die) then .next ((s.formPlan die).planTests die marginal) else .next s

/-- R352. -/
def axlReplan' (c : Submission) (s : State) : State :=
  ((s.maskDies c.func c.dieMask).foldl (fun s d => s.formPlan d) s).okJ c

def execAxlReplan (c : Submission) (s : State) : Done := .next (s.zcp 0x0704 c axlReplan')

end Sys2Proof.Machine
end

