-- ==== Sys2Proof/Machine/Power.lean ====
section
/-!
DEFINITION. Power, droop and temperature (chapter 14): the cap and the mode, the loop of R323, boost, thermal offsets, the limits
and clamps that act in hardware, and Drone's measured current.
-/
namespace Sys2Proof.Machine

/-! ## What a level means (R324, Table 14.3) -/

/-- The level that duties follow: a level that comes while Drone's ramp runs waits for the work after the release (R335). -/
def Power.dutyLevel (p : Power) : Nat := p.rampLevel.getD p.inForce

/-- Matrix duty in sixteenths. -/
def Power.matrixDuty (p : Power) : Nat :=
  let l := p.dutyLevel
  if p.clampLogic then 1
  else if l ≤ 1 then 16
  else if l ≤ 9 then 17 - l
  else if l ≤ 19 then 8
  else if l ≤ 26 then 27 - l
  else 1

/-- Sparse and vector duty outside the protected domain, in sixteenths. -/
def Power.vectorDuty (p : Power) : Nat :=
  if p.clampLogic then 1 else if p.dutyLevel ≤ 26 then 16 else 42 - p.dutyLevel

/-- Matrix duty of a cluster, in sixteenths: 1 under a vault whose clamp acts (R329). -/
def Power.clusterDuty (p : Power) (cluster : Nat) : Nat := if p.clampVaults.contains cluster then 1 else p.matrixDuty

/-- What a vault sustains of its bandwidth, in thousandths: by its refresh rate (R318), and half of that while its clamp acts (R329). -/
def Die.vaultBandwidth (x : Die) (v : Nat) : Nat :=
  let r := match x.refRate.getD v 0 with | 0 => 1000 | 1 => 970 | _ => 910
  if x.power.clampVaults.contains v then r / 2 else r

/-- The arithmetic clock that the mode and the level call for, boost apart, in MHz. -/
def Power.clockFor (p : Power) : Nat :=
  let l := p.inForce
  if p.pitchHold then p.phMhz
  else if l ≤ 9 then 1250
  else if l ≤ 19 then 1250 - 25 * (l - 9)
  else 1000

/-- One 25 MHz step toward a clock. -/
def stepToward (now goal : Nat) : Nat :=
  if now < goal then min goal (now + 25) else if goal < now then max goal (now - 25) else now

def Power.hotLogic (p : Power) : Nat := p.logic.foldl max 0
def Power.hotDram (p : Power) : Nat := p.dram.foldl max 0

/-- The conditions of R326 for boost on a die, given whether the period's input power was below 0.97 × cap. -/
def Power.mayBoost (p : Power) (below : Bool) : Bool :=
  !p.pitchHold && p.boostEn && below && p.inForce = 0 && p.hotLogic + 5 ≤ p.logicTgt && p.hotDram ≤ 85

/-- The clock of the next loop period (R324, R326, R329). -/
def Power.nextClock (p : Power) (below : Bool) (ceil : Nat) : Nat :=
  if p.clampLogic then 800
  else if p.mayBoost below then stepToward p.freq ceil
  else stepToward p.freq p.clockFor

/-- PWR_MODE's clock has been reached (R327): in normal mode with boost, 1,250 MHz or more at level 0. -/
def Power.settled (p : Power) : Bool :=
  p.freq = p.clockFor || (!p.pitchHold && p.boostEn && p.inForce = 0 && 1250 ≤ p.freq)

/-! ## Commands (R321, R327) -/

/-- R321. -/
def pwrCap' (c : Submission) (s : State) : State :=
  let w := at' c.small 0 4
  let ok := if s.quad then 300 ≤ w && w ≤ 700 else 1200 ≤ w && w ≤ 2800
  if !ok then s.single c stBadParam
  else if (s.diesOf c.func).all fun d => (s.die d).power.capW = w then s.single c stOk
  else ((s.diesOf c.func).foldl (fun s d => s.modPower d fun p => { p with capW := w }) s).okJ c

def execPwrCap (c : Submission) (s : State) : Done := .next (s.zcp 0x0601 c pwrCap')

/-- Complete a PWR_MODE once every die of its function has reached the clock. -/
def State.settleMode (s : State) (f : Nat) : State :=
  match (s.func f).modeJob with
  | some (c, j) =>
    if (s.upDies f).all fun d => (s.die d).power.settled then
      (s.modFunc f fun g => { g with modeJob := none }).single c stOk [] [] j
    else s
  | none => s

/-- R327. -/
def pwrMode' (c : Submission) (s : State) : State :=
  let mode := at' c.small 0 1
  let boost := at' c.small 1 1
  let mhz := at' c.small 2 2
  if 1 < mode || 1 < boost || mhz < 800 || 1250 < mhz || mhz % 25 ≠ 0 then s.single c stBadParam
  else
    let same := (s.diesOf c.func).all fun d =>
      let p := (s.die d).power
      p.pitchHold = (mode = 1) && p.boostEn = (boost = 1) && p.phMhz = mhz
    let s := (s.diesOf c.func).foldl (fun s d => s.modPower d fun p =>
      { p with pitchHold := mode = 1, boostEn := boost = 1, phMhz := mhz }) s
    let (s, j) := if same then (s, 0) else s.journalCmd c
    (s.modFunc c.func fun g => { g with modeJob := some (c, j) }).settleMode c.func

def execPwrMode (c : Submission) (s : State) : Done := .next (s.zcp 0x0602 c pwrMode')

/-! ## SENSOR_WINDOW (R317, R320, R322) -/

/-- The refresh rate of a vault after a sample: 0 base, 1 twice, 2 four times (R317). -/
def refreshRate (rate t : Nat) : Nat :=
  if 90 < t then 2
  else if 85 < t then (if rate = 2 && 88 < t then 2 else 1)
  else if rate ≠ 0 && 83 < t then 1
  else 0

/-- Whether an input current exceeds the limit of R322, 3,000 W divided by the measured voltage: mA times mV are µW. -/
def overInput (ma mv : Nat) : Bool := 3000000000 < ma * mv

/-- The current limit of a core-rail regulator, in A (Table 14.2). -/
def railLimit : Nat := 800

/-- The clusters of a die stretch their clocks while a current limit acts on it (R322). -/
def State.stretch (s : State) (d : Nat) : State :=
  let on := (s.die d).power.limIn || (s.die d).power.limRail
  (List.range 20).foldl (fun s c => s.modClu d c fun x => { x with limited := on }) s

/-- The input current exceeds its limit: every cluster of the module stretches (R322). -/
def State.limitInput (s : State) : State :=
  (List.range 4).foldl (fun s d => if s.up d then (s.modPower d fun p => { p with limIn := true }).stretch d else s) s

/-- The current that Drone holds in the window that closed while a ramp runs: SLEW A/µs below that of the window before, and at least FLOOR
(R333). -/
def Drone.ramp (x : Drone) : Nat := max x.floorNow (x.amps - 10 * x.slewNow)

/-- One 10 µs window of a die closes. The input limit is evaluated anew (R322); mismatches of Drone's null passes, which it issues during a
ramp and, in clusters not yet started, behind a release, start column self-tests (R333, R334, R349). During a ramp the current is no less
than what Drone holds. -/
def execSensorWindow (die : Nat) (w : Window) (s : State) : Done :=
  if !s.up die || !(s.die die).powered then .next s
  else
    let P := (s.die die).power
    let dram := (List.range 20).map fun v => w.dram.getD v 0
    let rates := (dram.zipIdx).map fun (t, v) => refreshRate ((s.die die).refRate.getD v 0) t
    let above := rates.any (· ≠ 0)
    let refMs := above && P.refWindows = 99
    let tooMuch := overInput w.inMa w.vinMv
    let limRail := railLimit < w.amps || (P.limRail && decide (railLimit ≤ w.amps))
    let s := if tooMuch then s.limitInput else s
    let s := if tooMuch || limRail || P.limIn || P.limRail then s.cntDie die 48 else s
    let s := if refMs then s.cntDie die 46 else s
    let s := s.cntDie die 57 w.droneUj
    let dr := (s.die die).drone
    let s := if dr.enNow && (dr.state = 1 || dr.state = 3) then w.nulls.foldl (fun s (k, us) => s.nullPass (160 * die + k) us) s else s
    let amps := if dr.state = 1 then max w.amps dr.ramp else w.amps
    let ends := dr.state = 1 && dr.ramp ≤ dr.floorNow
    .next ((s.modDie die fun x => { x with
      refRate := rates
      power := { x.power with
        logic := (List.range 20).map fun c => w.logic.getD c 0
        dram := dram
        vinMv := w.vinMv
        dieSum := x.power.dieSum + w.dieW
        inSum := x.power.inSum + w.inW
        dieWins := x.power.dieWins + 1
        limIn := tooMuch || (P.limIn && decide (w.inMa * w.vinMv = 3000000000))
        limRail := limRail
        rampLevel := if ends then none else x.power.rampLevel
        refWindows := if refMs then 0 else if above then x.power.refWindows + 1 else x.power.refWindows }
      drone := { x.drone with
        amps := amps
        state := if ends then 2 else x.drone.state } }).stretch die)

/-! ## CAP_LOOP_PERIOD (R323 to R328, R336) -/

/-- The cap of the module: in Quad the sum of the shares (R321). -/
def State.moduleCap (s : State) : Nat :=
  if s.quad then ((List.range 4).map fun d => (s.die d).power.capW).sum else (s.die s.leader).power.capW

/-- The reference procedure of R323: the module level and the count of periods below 0.97 × cap. -/
def capLoop (p cap lmin L under : Nat) : Nat × Nat :=
  if cap < p then (min 38 (L + ceilDiv ((p - cap) * 100) cap), 0)
  else if p * 100 < cap * 97 then
    if under + 1 = 10 then (max lmin (L - 1), 0) else (L, under + 1)
  else (L, 0)

/-- The thermal offset of the next loop period and the count of cool periods (R328). -/
def Power.offset (p : Power) : Nat × Nat :=
  let hot := p.logicTgt < p.hotLogic || p.dramTgt < p.hotDram
  let cool := p.hotLogic + 2 ≤ p.logicTgt && p.hotDram + 2 ≤ p.dramTgt
  if hot then (min 63 (p.thermOfs + 1), 0)
  else if cool then (if p.coolCount + 1 = 10 then (p.thermOfs - 1, 0) else (p.thermOfs, p.coolCount + 1))
  else (p.thermOfs, 0)

/-- What the hardware measures in a loop period. -/
def Power.measured (p : Power) (inputW cap : Nat) : Power :=
  { p with
    inputW := inputW
    dieW := if p.dieWins = 0 then p.dieW else p.dieSum / p.dieWins
    dieSum := 0
    inSum := 0
    dieWins := 0
    overcap := if cap < inputW then p.overcap + 1 else 0 }

/-- One loop period of a die's power core: thermal offset, level and clock. `L` is what the leader sent. -/
def Power.period (p : Power) (L : Option Nat) (below : Bool) (ceil : Nat) : Power :=
  let (ofs, cool) := p.offset
  let p := { p with thermOfs := ofs, coolCount := cool }
  let p := match L with
    | some l => { p with level := l, applied := min 38 (l + ofs) }
    | none => p
  { p with freq := p.nextClock below ceil }

/-- What is counted of the loop period that ended: the time of a low and of a sufficient matrix duty (R327) and the time above
1.25 GHz. -/
def Power.counted (p : Power) : Power :=
  let low := p.matrixDuty * 10 < 144
  let ok := if low then 0 else p.okPeriods + 1
  { p with
    lowPeriods := if low && p.pitchHold then p.lowPeriods + 1 else 0
    okPeriods := ok
    phLow := p.phLow && ok < 10000
    boostPeriods := if 1250 < p.freq then (if p.boostPeriods = 9 then 0 else p.boostPeriods + 1) else p.boostPeriods
    protRan := false }

/-- The loop period of one die: what the period that ended counts, then what the next one runs at. -/
def State.diePeriod (s : State) (d : Nat) (L : Option Nat) (below : Bool) : State :=
  if !s.up d then s
  else
    let p := (s.die d).power
    let s := if p.protRan then s.cntDie d 54 else s
    let s := if 1250 < p.freq && p.boostPeriods = 9 then s.cntDie d 55 else s
    let s := s.modPower d Power.counted
    let s := if s.procStops (.power d) then s else s.modPower d fun p => p.period L below (s.cfg.ceilMhz.getD d 1500)
    if 0 < (s.die d).power.thermOfs then s.cntDie d 50 else s

/-- The input power of the period that ends: the mean of its windows (R320), in whole watts. The input sensor is read through the carrier; a
period in which the leader's die had no window takes what the command reports (DESIGN CHOICE, log 42). -/
def State.periodInput (s : State) (reported : Nat) : Nat :=
  let P := (s.die s.leader).power
  if P.dieWins = 0 then reported else P.inSum / P.dieWins

/-- A loop period of 100 µs ends. While the leader's core restarts, every die holds its level (R337). -/
def execCapLoopPeriod (reported : Nat) (s : State) : Done :=
  let cap := s.moduleCap
  let lead := s.leader
  let inputW := s.periodInput reported
  let s := (List.range 4).foldl (fun s d => if s.up d then s.modPower d fun p => p.measured inputW cap else s) s
  let P := (s.die lead).power
  let boost := !P.pitchHold && P.boostEn
  let waits := s.procStops (.power lead)
  let (L, under) := capLoop inputW cap (if boost then 0 else 1) P.level P.under
  let s := if waits || P.hwLevel then s else s.modPower lead fun p => { p with under := under }
  let send : Option Nat := if waits || P.hwLevel then none else some L
  let s := (List.range 4).foldl (fun s d => s.diePeriod d send (inputW * 100 < cap * 97)) s
  .next (s.fns.foldl (fun s f => s.settleMode f) s)

/-! ## Limits and emergencies (R322, R325, R331) -/

/-- R322: a current is above its limit within a window: the input's acts on every cluster of the module, a core rail's on those of its die. -/
def execInputCurrentLimit (met : Current) (s : State) : Done :=
  match met with
  | .input ma => .next (if overInput ma (s.die s.leader).power.vinMv then s.limitInput else s)
  | .rail d amps =>
    .next (if s.up d && decide (railLimit < amps) then (s.modPower d fun p => { p with limRail := true }).stretch d else s)

/-- R325: input power has exceeded the cap for 10 ms, 100 loop periods, without a break. -/
def execOvercapTimeout (s : State) : Done :=
  .next ((List.range 4).foldl (fun s d =>
    let P := (State.die s d).power
    if !State.up s d || P.overcap < 100 || P.hwLevel then s
    else (State.cntDie s d 49).modPower d fun p =>
      { p with
        hwLevel := true
        level := 38
        applied := 38
        emerg := true
        freq := if p.clampLogic || p.pitchHold then p.freq else 1000 }) s)

/-- R331: 10 ms after the last clamp or the hardware level ended. The loop resumes at level 38 (R325). -/
def execEmergencyEnd (die : Nat) (s : State) : Done :=
  let P := (s.die die).power
  if !s.up die || P.clampLogic || !P.clampVaults.isEmpty then .next s
  else .next (s.modPower die fun p => { p with hwLevel := false, emerg := false, overcap := if p.hwLevel then 0 else p.overcap })

/-! ## Thermal clamps and trips (R329, Table 14.4) -/

/-- R329: a reading is above a clamp threshold. -/
def execThermalClamp (die : Nat) (logic : Bool) (vaults : List Nat) (s : State) : Done :=
  let P := (s.die die).power
  let hot := logic && 103 < P.hotLogic
  let vs := (List.range 20).filter fun v => vaults.contains v && 93 < P.dram.getD v 0
  if !s.up die || (!hot && vs.isEmpty) then .next s
  else
    let s := if hot && !P.clampLogic then s.cntDie die 51 else s
    let s := if !vs.isEmpty && P.clampVaults.isEmpty then s.cntDie die 51 else s
    .next (s.modPower die fun p => { p with
      clampLogic := p.clampLogic || hot
      clampVaults := p.clampVaults ++ vs.filter fun v => !p.clampVaults.contains v
      emerg := true
      freq := if hot then 800 else p.freq })

/-- R329: a clamp ends once every reading of its kind is 3 °C below the threshold. -/
def execClampRelease (die : Nat) (s : State) : Done :=
  if !s.up die then .next s
  else .next (s.modPower die fun p =>
    { p with
      clampLogic := p.clampLogic && 100 < p.hotLogic
      clampVaults := if p.hotDram ≤ 90 then [] else p.clampVaults })

/-- R329: a reading is above a trip threshold: the die loses its clocks and its power, and the trip is recorded. -/
def execThermalTrip (die : Nat) (s : State) : Done :=
  let P := (s.die die).power
  if !s.up die || (P.hotLogic ≤ 110 && P.hotDram ≤ 98) then .next s
  else
    let s := { s with cfg := { s.cfg with tripped := s.cfg.tripped.set die true } }
    .next ((s.removeDie die 11).modDie die fun x => { x with powered := false })

/-! ## Droop (R332) -/

/-- R332: the local supply has fallen more than 4 % below the setpoint. -/
def execDroopDetect (die cluster : Nat) (s : State) : Done :=
  if s.cluUp die cluster then .next (s.modClu die cluster fun x => { x with droop := true }) else .next s

/-- R332: stretching ends; `cycles` have been stretched. -/
def execDroopEnd (die cluster cycles : Nat) (s : State) : Done :=
  if s.cluUp die cluster && (s.clu die cluster).droop then
    .next ((s.cntDie die 52 cycles).modClu die cluster fun x => { x with droop := false })
  else .next s

/-! ## PH_LOW (R327) -/

/-- R327: the matrix duty has stayed below 0.9 for 1 s in Pitch-hold. -/
def execPhLow (die : Nat) (s : State) : Done :=
  let P := (s.die die).power
  if !s.up die || !P.pitchHold || P.phLow || P.lowPeriods < 10000 then .next s
  else .next (((s.modPower die fun p => { p with phLow := true }).cntDie die 53).emit die 8 die P.matrixDuty 0)

/-! ## Registers -/

def bitAt (b : Bool) (i : Nat) : Nat × Nat × Nat := (i, 1, b2n b)

/-- PWR_CAPSET. -/
def State.pwrCapset (s : State) (d : Nat) : Word :=
  let p := (s.die d).power
  pack [(0, 12, p.capW), (12, 6, p.inForce), (18, 6, p.thermOfs), bitAt (d = s.leader) 24]

/-- PWR_MODESTAT. -/
def State.pwrModestat (s : State) (d : Nat) : Word :=
  let p := (s.die d).power
  pack [bitAt p.pitchHold 0, bitAt p.boostEn 1, bitAt p.phLow 2, bitAt p.emerg 3, bitAt (p.clampLogic || !p.clampVaults.isEmpty) 4,
    (8, 11, p.freq), (19, 11, p.phMhz), (30, 11, s.cfg.ceilMhz.getD d 1500), (41, 5, p.matrixDuty), (46, 5, p.vectorDuty)]

/-- PWR_INPUT. -/
def State.pwrInput (s : State) (d : Nat) : Word :=
  let p := (s.die d).power
  pack [(0, 16, p.inputW), (16, 16, p.dieW), (32, 16, p.vinMv)]

/-- The lowest instance with the highest reading. -/
def hottest (l : List Nat) : Nat := (l.zipIdx.foldl (fun (b : Nat × Nat) x => if b.1 < x.1 then x else b) (l.headD 0, 0)).2

/-- PWR_TEMP. -/
def State.pwrTemp (s : State) (d : Nat) : Word :=
  let p := (s.die d).power
  pack [(0, 8, p.hotLogic), (8, 5, hottest p.logic), (16, 8, p.hotDram), (24, 5, hottest p.dram), (32, 8, p.logicTgt),
    (40, 8, p.dramTgt)]

/-- A value brought into a range; outside it the nearer end acts (R330, DRN_CTL). -/
def inRange (lo hi v : Nat) : Nat := max lo (min hi v)

/-- DRN_CTL. -/
def State.drnCtl (s : State) (d : Nat) : Word :=
  let x := (s.die d).drone
  pack [bitAt x.en 0, (8, 8, x.slew), (16, 10, x.floor)]

/-- DRN_STAT. -/
def State.drnStat (s : State) (d : Nat) : Word :=
  let x := (s.die d).drone
  pack [(0, 2, x.state), (8, 10, x.amps)]

end Sys2Proof.Machine
end

