-- ==== Sys2Proof/Machine/Memory.lean ====
section
/-!
DEFINITION. Memory as host software, peers and the scrubber meet it (chapter 13): BAR2, reservations and the interleaved share,
grants and apertures, and uncorrectable lines.
-/
namespace Sys2Proof.Machine

/-! ## Uncorrectable lines (R315, R316, Table 13.7) -/

/-- Where a line lies in a table: function, table, block, shard, byte offset in the shard, and whether in the Backed copy. -/
structure SlotLine where
  f : Nat
  table : Table
  block : OwnerBlock
  shard : Nat
  off : Nat
  copy : Bool
  deriving DecidableEq, Repr

def State.slotLine (s : State) (l : Nat) : Option SlotLine :=
  (List.range 4).findSome? fun f => (s.func f).tables.findSome? fun (_, t) => t.blocks.findSome? fun b =>
    let n := t.slotsPerShard * t.stride
    match b.shards.findIdx? fun x => x.base ≤ l && l < x.base + n with
    | some sh => some ⟨f, t, b, sh, l - (b.shards.getD sh default).base, false⟩
    | none =>
      if b.backed ≠ 0 && b.backed ≤ l && l < b.backed + 256 * n then some ⟨f, t, b, (l - b.backed) / n, (l - b.backed) % n, true⟩
      else none

/-- The row that stands in a slot: the one moved there, or the one whose home it is. -/
def Func.rowIn (g : Func) (t : Table) (o sh i : Nat) : Option Nat :=
  let moved := (g.locPending.map (·.2) ++ g.locs).find? fun l =>
    l.table = t.id && l.owner = o && l.shard = sh && t.slotIndex l.row l.slot = i
  match moved with
  | some l => some l.row
  | none =>
    let r := i * 256 * t.N + sh * t.N + o
    if i < t.homeSlots && r < t.rows && g.slotAt t o r = some (sh, i) then some r else none

/-- An uncorrectable line of a table: repaired from the copy that is intact, or its row is poisoned (R158). -/
def State.tableLine (s : State) (l : Nat) (x : SlotLine) : State :=
  let t := x.table
  let b := x.block
  let n := t.slotsPerShard * t.stride
  let other := if x.copy then (b.shards.getD x.shard default).base + x.off else b.backed + x.shard * n + x.off
  if b.backed ≠ 0 && !s.badLines.contains other then
    let s := s.poke l (s.load other 64)
    if x.copy then s else s.cntDie b.server 16
  else if x.copy then s.poke l (zeros 64)
  else
    let half := t.homeSlots + t.migSlots
    let i := x.off / t.stride % half
    let second : Bool := half ≤ x.off / t.stride
    match (s.func x.f).rowIn t b.owner x.shard i with
    | some _ =>
      let s := s.poke l (zeros 64)
      if second = t.isFlipped b.owner x.shard i && !t.poisoned.contains (b.owner, x.shard, i) then
        (s.cntDie b.server 17).modFunc x.f fun g => g.modTable t.id fun t => { t with poisoned := t.poisoned ++ [(b.owner, x.shard, i)] }
      else s
    | none => s.poke l (zeros 64)

/-- The function whose step in work holds working data in a line, in S to B2, and whether that step already re-executes. -/
def State.workingAt (s : State) (l : Nat) : Option (Nat × Bool) :=
  (List.range 4).findSome? fun f =>
    match (s.func f).activePlan, (s.func f).cur with
    | some (slot, p), some st =>
      if st.phase ≠ .r && st.phase ≠ .u && ((s.workRuns f slot p st).any fun r => l < r.1 + r.2 && r.1 < l + 64) then
        some (f, st.reexec)
      else none
    | _, _ => none

/-- The owner block in whose combining area or row-gradient list a line lies (Table 6.2): what stands there are row-gradient messages held
for R. -/
def State.heldAt (s : State) (l : Nat) : Option (Nat × Table × OwnerBlock) :=
  (List.range 4).findSome? fun f => (s.func f).tables.findSome? fun (_, t) => t.blocks.findSome? fun b =>
    let slots := 256 * (t.homeSlots + t.migSlots)
    let inRun (a n : Nat) : Bool := a ≠ 0 && a < l + 64 && l < a + n
    if t.trainable && (inRun b.comb (slots * t.elems * 16) || inRun b.glist (64 + slots * t.gradRecord)) then some (f, t, b) else none

/-- Row-gradient messages lost with a line are resent by their holders for every step that still combines there (Table 13.7, R132). -/
def State.resendHeld (s : State) (f l : Nat) (t : Table) (b : OwnerBlock) : State :=
  ((s.func f).combines.filter fun c => c.table = t.id && c.owner = b.owner).foldl (fun s c => s.restartCombine f t b c.step)
    (s.poke l (zeros 64))

/-- What an uncorrectable line leads to: the first row of Table 13.7 that applies, and the response code of its fault record. Working
data stays uncorrectable until the step meets it at the end of the phase. -/
def State.lineMet (s : State) (l : Nat) : State × Nat :=
  if !(s.trainingAt l).isEmpty then (s.twinLine l, 7)
  else
    match s.slotLine l with
    | some x => (s.tableLine l x, 7)
    | none =>
      match s.workingAt l with
      | some (_, false) => (s, 1)
      | some (f, true) => (s.hostLine f l, 9)
      | none =>
        match s.heldAt l with
        | some (f, t, b) => (s.resendHeld f l t b, 1)
        | none => (s.hostLine (match keyDie l with | some d => s.fnOf d | none => 0) l, 9)

/-- The vault that holds a key of bonded DRAM. -/
def State.keyVault (s : State) (k : Nat) : Option Nat :=
  match keyDie k with
  | some d => if k < dramBase 4 then s.vaultOf d (k - dramBase d) else none
  | none => none

/-- The scrubber, or an access, finds an uncorrectable line (R315, R316, MEM_VAULTSTAT.RETIRE). -/
def State.uncorrectable (s : State) (d l : Nat) : State :=
  let s := s.cntDie d 41
  let s := match s.keyVault l with
    | some v =>
      let (third, s) := s.thirdUe d 0 v
      if third then s.modDie d fun x => { x with retire := if x.retire.contains v then x.retire else x.retire ++ [v] } else s
    | none => s
  let s := { s with badLines := if s.badLines.contains l then s.badLines else s.badLines ++ [l] }
  let (s, r) := s.lineMet l
  s.note d (if l < dramBase 4 then 4 else 5) 2 d r

/-- R315: what the code of a line finds as the line is read. A corrected error is written back and counts MEM_CE, one that cannot be corrected
counts MEM_UE and has the response of R316. -/
def State.lineRead (s : State) (x : EccLine) : State :=
  let l := x.address / 64 * 64
  match keyDie l with
  | none => s
  | some d =>
    let there := s.up d && (dramBase 4 ≤ l || s.dramPresent d (l - dramBase d))
    if !there then s
    else
      match x.outcome with
      | .clean => s
      | .corrected => s.cntDie d 40
      | .uncorrectable => s.uncorrectable d l

/-- The lines that an access met with an error, in the order met. -/
def State.eccMet (s : State) (ls : List EccLine) : State := ls.foldl State.lineRead s

/-- R315: the patrol scrubber reads a line, named by its address in the Unified map. -/
def execPatrolScrub (address : Nat) (o : LineOutcome) (s : State) : Done := .next (s.lineRead ⟨address, o⟩)

/-- R119. -/
def execRowRequest (f : Nat) (q : RowAsk) (s : State) : Done := .next ((s.eccMet q.memory).askRows f 0 q.msg)

/-- R120. -/
def execPoolRequest (f : Nat) (q : RowAsk) (s : State) : Done := .next ((s.eccMet q.memory).askRows f 1 q.msg)

/-- R75, R76, R243, R315: the lines that a descriptor's work read with an error, then its completion. -/
def execDescriptorComplete (f : Nat) (ahead : Bool) (index : Nat) (r : JobEnd) (s : State) : Done :=
  .next ((s.eccMet r.memory).descriptorComplete f ahead index r.lanes)

/-- R85 to R88, R315: the same for U. -/
def execStepComplete (e : StepEnd) (s : State) : Done := .next ((s.eccMet e.memory).stepComplete e.func e.lanes)

/-- Read a run of keys outside a step: uncorrectable lines in it are handled first, and what stays uncorrectable reads as zeros. -/
def State.checkedRead (s : State) (k n : Nat) : List Byte × State :=
  let bad := s.badLines.filter fun l => l < k + n && k < l + 64
  if bad.isEmpty then (s.load k n, s)
  else
    let s := bad.foldl (fun s l => (State.lineMet s l).1) s
    let left := s.badLines
    ((s.load k n).zipIdx.map fun (b, i) => if left.contains ((k + i) / 64 * 64) then 0 else b, s)

/-! ## BAR2 (R308) -/

/-- The size of the BAR2 window of a function: 1 GiB to its full size of Table 1.4 (R432). -/
def State.bar2Size (s : State) (f : Nat) : Nat :=
  GiB * 2 ^ (match s.pcie.spaces[f]? with | some x => x.bar2Log2 | none => if s.quad then 4 else 6)

/-- A function in D3hot answers configuration requests alone (R432; PRESUMED as the PCIe specification has it, log 52). -/
def State.asleep (s : State) (f : Nat) : Bool := match s.pcie.spaces[f]? with | some x => x.d3hot | none => false

/-- R308: host software reads or writes device memory through BAR2. -/
def execBar2Access (f offset : Nat) (write : Bool) (r : BarRead) (data : List Byte) (s : State) : Done :=
  if !s.fns.contains f || !s.ready || s.asleep f then .next s
  else
    let a := GiB * (s.func f).bar2Gib + offset
    let n := if write then data.length else r.len
    let s := s.eccMet r.memory
    if n = 0 then .next s
    else if s.bar2Size f < offset + n || !s.inMemory f a n then
      (let s := s.violOor f
       .next (if write then s else s.put (.readData 0 n)))
    else if write then .next (s.hostWrite f a data)
    else match s.key f a with
      | some k =>
        let (b, s) := s.checkedRead k n
        .next (s.put (.readData (leNat b) n))
      | none => .next s

/-! ## Reservations and the interleaved share (R304, R309) -/

/-- MEM_ILVCFG. -/
def State.ilvCfg (s : State) (d : Nat) : Word :=
  let i := (s.die d).ilvMib
  let p := s.cfg.ilvMib.getD d 4096
  pack [(0, 14, i), (16, 14, p), bitAt (p ≠ i) 30]

/-- Set PENDING of a die (R304). -/
def State.setIlvPending (s : State) (d v : Nat) : State :=
  { s with cfg := { s.cfg with ilvMib := s.cfg.ilvMib.set d (min 9830 v) } }

/-- MEM_HOSTRES. -/
def State.hostres (s : State) (d : Nat) : Word :=
  let x := s.die d
  pack [(0, 14, x.hostLocalMib), (16, 8, x.hostIlvGib), (24, 10, x.hostT2Gib)]

/-- Set the reservations of a die, clamped to what the module has allocated (R309). -/
def State.setHostres (s : State) (d v : Nat) : State :=
  let ilv := dramBase d
  let inRun (lo n a : Nat) : Bool := lo ≤ a && a < lo + n
  let g := s.clampReserve ilv GiB (fld v 16 8) (inRun ilv (s.ilvSize d))
  let t := s.clampReserve (tier2Base d) GiB (min 384 (fld v 24 10)) (inRun (tier2Base d) tier2Size)
  let l := (List.range 20).foldl (fun m w =>
    let (o, n) := s.window d w
    s.clampReserve (dramBase d + o) MiB m (inRun (dramBase d + o) n)) (fld v 0 14)
  s.modDie d fun x => { x with hostLocalMib := l, hostIlvGib := g, hostT2Gib := t }

/-! ## Grants (R313) -/

def Func.granted (g : Func) : Nat := (g.grants.map (·.gib)).sum

/-- MEM_GRANTCTL. -/
def State.grantCtl (s : State) (f : Nat) : Word :=
  let g := s.func f
  pack [(0, 11, g.grantGib), (16, 11, g.granted)]

/-- Set GRANT_GIB: a value above the range acts as its top, and what is granted is not taken back. -/
def State.setGrant (s : State) (f v : Nat) : State :=
  s.modFunc f fun g => { g with grantGib := max g.granted (min (if s.quad then 384 else 1536) v) }

/-- The lowest free GiB above T2_GIB of the module's tier-2 shares, in ascending die order. -/
def State.freeGib (s : State) (f : Nat) : Option Nat :=
  (s.upDies f).findSome? fun d =>
    let (lo, hi) := s.areaRange f (.tier2 d)
    let taken := s.taken
    ((List.range ((hi - lo) / GiB)).map fun i => lo + GiB * i).find? fun b =>
      !taken.any fun (a, l) => b < a + l && a < b + GiB

/-- Grant up to `n` GiB to a peer, one at a time. -/
def State.grant (s : State) (f peer : Nat) : (n : Nat) → State × Nat
  | 0 => (s, 0)
  | n + 1 =>
    let (s, got) := s.grant f peer n
    if (s.func f).grantGib ≤ (s.func f).granted then (s, got)
    else match s.freeGib f with
      | some b => (s.modFunc f fun g => { g with grants := g.grants ++ [⟨peer, 1, b⟩] }, got + 1)
      | none => (s, got)

/-- R313: a peer asks for memory. -/
def execMemGrantRequest (f peer gib : Nat) (s : State) : Done :=
  if !s.fns.contains f || (s.upDies f).isEmpty then .next s
  else
    let s := (s.take f (.grantReq gib)).1
    let base := (s.func f).granted
    let (s, got) := s.grant f peer (min gib 1536)
    .next (s.send f ((s.upDies f).headD 0) peer 0 (.grantReply got base))

/-- What a peer has granted to this module so far, in GiB: a lender counts its grants on and takes none back (log 9). -/
def Func.borrowedFrom (g : Func) (peer : Nat) : Nat := (SMap.find peer g.borrowed).getD 0

/-- Install a grant in the lowest free apertures, at most 64 GiB in each; `fuel` bounds their number. -/
def Func.install (peer : Nat) : (fuel : Nat) → (gib : Nat) → Func → Func
  | 0, _, g => g
  | n + 1, gib, g =>
    if gib = 0 then g
    else
      let had := g.borrowedFrom peer
      match (List.range 256).find? fun a => (SMap.find a g.apertures).isNone with
      | some a => Func.install peer n (gib - 64)
          { g with
            apertures := SMap.insert a ⟨min 64 gib, peer, GiB * had, []⟩ g.apertures
            borrowed := SMap.insert peer (had + min 64 gib) g.borrowed }
      | none => { g with borrowed := SMap.insert peer (had + gib) g.borrowed }

/-- R313: a peer answers with a grant; the next peer is asked for what is missing, and a PLAN_LOAD that waits goes on. -/
def execMemGrantReply (f peer gib : Nat) (s : State) : Done :=
  if !s.fns.contains f then .next s
  else .next ((s.modFunc f (Func.install peer 256 gib)).peerAnswered f peer gib)

/-- MEM_APSTAT of the selected aperture. -/
def State.apStat (s : State) (f : Nat) : Word :=
  match SMap.find (s.func f).apSel (s.func f).apertures with
  | some a => pack [(0, 1, 1), (1, 7, a.size)]
  | none => 0

/-- MEM_APPEER of the selected aperture. -/
def State.apPeer (s : State) (f : Nat) : Word :=
  match SMap.find (s.func f).apSel (s.func f).apertures with
  | some a => BitVec.ofNat 64 a.peer
  | none => 0

/-! ## Peer memory (R314) -/

/-- The keys that a range of a peer's grants covers, in pieces: key and length. Grants count on in the order given (log 9). -/
def pieces : (gs : List Grant) → (off n : Nat) → List (Nat × Nat)
  | [], _, _ => []
  | g :: gs, off, n =>
    let size := GiB * g.gib
    if n = 0 then []
    else if size ≤ off then pieces gs (off - size) n
    else
      let here := min n (size - off)
      (g.base + off, here) :: pieces gs 0 (n - here)

/-- R314: a lender serves an access to what it has granted; outside the grants the access is out of range (R4, R305). -/
def execPeerMemRequest (f : Nat) (m : PeerMem) (s : State) : Done :=
  if !s.fns.contains f || (s.upDies f).isEmpty then .next s
  else
    let s := (s.take f (.peerReq m)).1
    let n := if m.write then m.data.length else m.len
    let ps := pieces ((s.func f).grants.filter fun g => g.peer = m.peer) m.offset n
    let whole := (ps.map (·.2)).sum = n
    let answer (s : State) (b : List Byte) : State := s.send f ((s.upDies f).headD 0) m.peer 0 (.peerResp { m with data := b })
    if !whole then .next (answer (s.violOor f) (if m.write then [] else zeros n))
    else if m.write then
      .next (answer (ps.foldl (fun (x : State × List Byte) (p : Nat × Nat) =>
        (x.1.store p.1 (x.2.take p.2), x.2.drop p.2)) (s, m.data)).1 [])
    else
      let (b, s) := ps.foldl (fun (x : List Byte × State) (p : Nat × Nat) =>
        let (y, s) := x.2.checkedRead p.1 p.2
        (x.1 ++ y, s)) (([] : List Byte), s)
      .next (answer s b)

/-- The key of an offset in an aperture. -/
def apKey (f a off : Nat) : Nat := apBase + apBase * f + apSpan * a + off

def State.modAperture (s : State) (f a : Nat) (h : Aperture → Aperture) : State :=
  s.modFunc f fun g => { g with apertures := g.apertures.map fun x => if x.1 = a then (a, h x.2) else x }

/-- What was read from borrowed memory is at hand: with the bytes answered, or zeros after 10 ms (R314). A phase that waited for its working
memory begins. For a row, writes that waited for the reader go on (R155), and so does a U that waited. -/
def State.rowAnswered (s : State) (f : Nat) (p : PeerAccess) (data : List Byte) : State :=
  if p.table = workTable then (s.workBack f false).workBack f true else
  (((s.modFunc f fun g => { g with fwdRows := g.fwdRows ++ [⟨p.table, p.row, data⟩] }).retryRequests f).releaseWrites f).tryU f

/-- The module's image of borrowed memory after an access: the bytes given, over which the later writes still to be answered stand. -/
def State.apImage (s : State) (f aperture base : Nat) (p : PeerAccess) (rest : List PeerAccess) (b : List Byte) : State :=
  let at' (q : PeerAccess) : Nat := apKey f aperture (q.mem.offset - base)
  (rest.filter fun q => q.mem.write).foldl (fun s q => s.put' (at' q) q.mem.data) (s.put' (at' p) b)

/-- R314: the lender's answer to the oldest access that waits. -/
def execPeerMemResponse (f aperture : Nat) (data : List Byte) (s : State) : Done :=
  match SMap.find aperture (s.func f).apertures with
  | none => .next s
  | some ap =>
    match ap.pending with
    | [] => .next s
    | p :: rest =>
      let s := (s.take f (.peerResp { p.mem with data := data })).1
      let s := s.modAperture f aperture fun x => { x with pending := rest }
      if p.mem.write then .next s
      else
        let b := (data ++ zeros p.mem.len).take p.mem.len
        .next ((s.apImage f aperture ap.base p rest b).rowAnswered f p b)

/-- R314: the oldest access that waits has not been answered within 10 ms: a write is dropped, a read returns zeros, for which the module's
image of the bytes stands until they are read again. -/
def execPeerAccessTimeout (f aperture : Nat) (s : State) : Done :=
  match SMap.find aperture (s.func f).apertures with
  | none => .next s
  | some ap =>
    match ap.pending with
    | [] => .next s
    | p :: rest =>
      let base := ap.base
      let s := s.modAperture f aperture fun x => { x with pending := rest }
      let d := s.lead f
      let s := (s.cntDie d 45).emit d 7 aperture (apBase + apSpan * aperture + (p.mem.offset - base)) 3
      if p.mem.write then .next (s.apImage f aperture base p rest p.old)
      else
        let b := zeros p.mem.len
        .next ((s.apImage f aperture base p rest b).rowAnswered f p b)

end Sys2Proof.Machine
end

