-- ==== Sys2Proof/Machine/Regs.lean ====
section
/-!
DEFINITION. Register space (R4 to R8, R21, R305, R307, Table 13.4): which register an offset names, what it reads, what a write
does, and the rows of the opcode table that are register accesses. A register whose value follows from other state is computed here.
-/
namespace Sys2Proof.Machine

/-! ## Register instances (Table 13.4) -/

/-- A block instance. Dies, clusters, cores and ports have physical numbers. -/
inductive RegBlk where
  | mod | mem | cho | chn | zcp | jrn | cnt | sec
  | door (q : Nat)
  | die (d : Nat) | gko (d : Nat) | pwr (d : Nat) | drn (d : Nat) | axl (d : Nat) | saf (d : Nat) | memDie (d : Nat)
  | fab (p : Nat)
  | clu (d c : Nat) | skk (d c : Nat) | blw (d c : Nat)
  | cor (i : Nat) | mxe (i : Nat) | spe (i : Nat) | vec (i : Nat)
  deriving DecidableEq, Repr

/-- The instance of one core, cluster or die that an offset within its die names. -/
def dieBlk (d y : Nat) : Option (RegBlk × Nat) :=
  if y < 0x70000 then
    let o := y % 0x10000
    match y / 0x10000 with
    | 0 => some (.die d, o) | 1 => some (.gko d, o) | 2 => some (.pwr d, o) | 3 => some (.drn d, o)
    | 4 => some (.axl d, o) | 5 => some (.saf d, o) | _ => some (.memDie d, o)
  else if 0x80000 ≤ y && y < 0xE0000 then some (.fab (6 * d + minus y 0x80000 / 0x10000), y % 0x10000)
  else if 0x100000 ≤ y && y < 0xB00000 then
    let c := minus y 0x100000 / 0x80000
    let w := minus y 0x100000 % 0x80000
    let o := w % 0x1000
    if w < 0x3000 then
      match w / 0x1000 with
      | 0 => some (.clu d c, o) | 1 => some (.skk d c, o) | _ => some (.blw d c, o)
    else if 0x40000 ≤ w then
      let i := coreId d c (minus w 0x40000 / 0x8000)
      let u := minus w 0x40000 % 0x8000
      if u < 0x4000 then
        match u / 0x1000 with
        | 0 => some (.cor i, o) | 1 => some (.mxe i, o) | 2 => some (.spe i, o) | _ => some (.vec i, o)
      else none
    else none
  else none

/-- The block instance and the offset in it that a BAR0 offset of a function names; none when it is unassigned (R307). -/
def State.place (s : State) (f off : Nat) : Option (RegBlk × Nat) :=
  if off < 0x80000 then
    let o := off % 0x10000
    match off / 0x10000 with
    | 0 => some (.mod, o) | 1 => some (.mem, o) | 2 => some (.cho, o) | 3 => some (.chn, o)
    | 4 => some (.zcp, o) | 5 => some (.jrn, o) | 6 => some (.cnt, o) | _ => some (.sec, o)
  else if 0x200000 ≤ off && off < 0x400000 then
    let q := minus off 0x200000 / 0x8000
    if q < (s.func f).queues.length then some (.door q, minus off 0x200000 % 0x8000) else none
  else if 0x400000 ≤ off then
    let d := minus off 0x400000 / 0xC00000
    if d < (if s.quad then 1 else 4) then dieBlk (s.physDie f d) (minus off 0x400000 % 0xC00000) else none
  else none

/-- The die of an instance, when it lies in one. -/
def RegBlk.die? : RegBlk → Option Nat
  | .die d | .gko d | .pwr d | .drn d | .axl d | .saf d | .memDie d => some d
  | .fab p => some (p / 6)
  | .clu d _ | .skk d _ | .blw d _ => some d
  | .cor i | .mxe i | .spe i | .vec i => some (coreDie i)
  | _ => none

/-- An instance of an absent die, cluster or core (R21). -/
def State.absentBlk (s : State) : RegBlk → Bool
  | .clu d c | .skk d c | .blw d c => !s.cluUp d c
  | .cor i | .mxe i | .spe i | .vec i => s.coreState i = 0
  | b => match b.die? with | some d => !s.up d | none => false

/-- COR_CAP, CLU_CAP or DIE_CAP, which absent instances answer too (R21). -/
def isCap : RegBlk → Nat → Bool
  | .die _, 0 | .clu _ _, 0 | .cor _, 0 => true
  | _, _ => false

/-! ## What registers read -/

def lo48 (n : Nat) : Nat := n % 2 ^ 48

/-- MOD_STEPSTAT. -/
def Func.stepStat (g : Func) : Word :=
  let ra := match g.ahead with
    | some st => if st.phase = .s then 1 else if st.jobs.any fun j => j.st = 1 then 2 else 3
    | none => 0
  let slot := match g.activePlan with | some (k, _) => k | none => 0
  match g.cur with
  | some st => pack [(0, 4, phaseNo st.phase), (4, 2, ra), (6, 4, slot), bitAt g.activePlan.isSome 10, (16, 48, st.n)]
  | none => pack [(4, 2, ra), (6, 4, slot), bitAt g.activePlan.isSome 10]

/-- MOD_COMPAT. -/
def State.compat (s : State) : Word :=
  pack [(0, 8, s.cfg.zcpPin), (8, 2, s.cfg.rwPin), bitAt (s.cfg.zcpPin ≠ s.zcpPin || s.cfg.rwPin ≠ s.rwPin) 10, (16, 8, s.zcpPin),
    (24, 2, s.rwPin)]

/-- Every port with EN set has finished its training: it is up, has given up, or waits for a partner with a common version. -/
def State.portsSettled (s : State) : Bool :=
  (List.range 24).all fun p => (s.port p).state ≠ 1 || (s.port p).verFailAt.isSome

/-- The last line of Table 20.10 completed, counted from 1. Lines 4 to 6 run side by side, and the last of them stands. -/
def State.milestone (s : State) : Nat := if s.boot.done = 5 && s.portsSettled then 6 else s.boot.done

/-- MOD_BOOTSTAT. -/
def State.bootStat (s : State) : Word :=
  let b := s.boot
  pack [(0, 4, s.milestone - 1), bitAt b.cold 4, bitAt b.fullDone 5, (8, 8, b.linkResets), (16, 32, b.readyMs), (48, 4, b.diesFailed)]

/-- MEM_TWINSTAT. -/
def State.twinStat (s : State) : Word :=
  let ms := s.mirrorMap
  let spilled := (List.range 4).filter fun d => ms.any fun x => tier2Base d ≤ x.2.2 && x.2.2 < tier2Base d + tier2Size
  pack [bitAt (!ms.isEmpty) 0, bitAt ((List.range 4).any fun d => s.up d && (s.die d).degraded) 1, (8, 4, maskOf spilled),
    (16, 32, ceilDiv (ms.map (·.2.1)).sum MiB)]

/-- ZCP_QCFG of a queue. -/
def Queue.cfg (r : Queue) : Word :=
  pack [bitAt r.en 0, bitAt r.loc 1, (4, 4, r.sqLog2), (8, 4, r.cqLog2), (16, 6, r.vector), bitAt r.irqEn 22]

/-- ZCP_QSTAT of a queue. -/
def Queue.stat (r : Queue) : Word :=
  pack [(0, 12, r.sqHead), (12, 12, if r.en then r.cqTail else r.ring.tail), bitAt (if r.en then r.phase else r.ring.phase) 24, bitAt r.ver.isSome 25, (32, 8, r.ver.getD 0)]

/-- CNT_NOTECFG. -/
def NoteRing.cfg (r : NoteRing) : Word := pack [bitAt r.en 0, (1, 6, r.vector), bitAt r.irqEn 7, (12, 40, r.base / 4096)]

/-- JRN_ENT0 to JRN_ENT2. -/
def Journal.ent (j : Journal) (k : Nat) : Word :=
  match j.latched with
  | some e => BitVec.ofNat 64 (at' e.bytes (8 * k) 8)
  | none => 0

def satAt (w n : Nat) : Nat := min (2 ^ w - 1) n

/-- GKO_CAP, GKO_STAT and GKO_MIGSTAT. -/
def State.gkoCap (s : State) (d : Nat) : Word :=
  pack [(0, 16, 0x8000), (16, 16, satAt 16 ((s.gkPool d).map (·.2)).sum), (32, 4, 8), (36, 12, 12)]

/-- GKO_STAT. SLOTS_FREE is the live count from the moment the die is powered: its reset column says 0, while 32,768 slots are free in an
empty directory (DESIGN CHOICE, log 79). -/
def State.gkoStat (s : State) (d : Nat) : Word :=
  let g := (s.die d).gecko
  let total := ((s.gkPool d).map (·.2)).sum
  let used := (g.entries.map fun x => x.2.nslot).sum
  pack [(0, 16, satAt 16 (g.entries.filter fun x => !x.2.combining).length),
    (16, 16, satAt 16 (g.entries.filter fun x => x.2.combining).length), (32, 16, satAt 16 (total - used)), (48, 16, g.halvings)]

def State.gkoMigstat (s : State) (d : Nat) : Word :=
  let g := s.func (s.fnOf d)
  let here (x : Stub) : Bool := match g.table x.table with
    | some t => (match t.block x.oldOwner with | some b => b.server = d | none => false)
    | none => false
  pack [(0, 16, satAt 16 (s.die d).gecko.lastMoved), (16, 16, satAt 16 (g.stubs.filter here).length), (32, 21, min (2 ^ 20) g.locUsed),
    bitAt (2 ^ 20 ≤ g.locUsed) 53]

/-- SAF_STAT: LOST when both dies of a pair have been lost (R346, R444). -/
def State.pairLost (s : State) : Bool := !s.quad && ((!s.up 0 && !s.up 2) || (!s.up 1 && !s.up 3))

def State.safStat (s : State) (d : Nat) : Word :=
  let x := s.die d
  pack [(0, 2, x.safState), bitAt s.pairLost 2, (8, 8, x.fltHead), (16, 32, x.fltSeq)]

/-- The resources that a die's sequencer tests (Table 15.3). -/
def State.resources (s : State) (d : Nat) : List Resource :=
  let cores := s.coresOf d
  let clus := (List.range 20).filter (s.cluUp d)
  cores.map Resource.array ++ cores.map Resource.drains ++ cores.map Resource.sparse ++ cores.map Resource.vector ++
    cores.map Resource.coreStore ++ clus.map (Resource.clusterBuffer d) ++ clus.map (Resource.skink d) ++ [.gecko d, .monitors d] ++
    ((List.range 6).map fun p => Resource.port (6 * d + p)) ++
    (((List.range 3).filter fun l => s.up (linkPeer d l)).map (Resource.link d)) ++
    (if d = 1 && s.sec.role = 0 && s.sec.alive1 then [.standby] else [])

/-- SAF_BISTSTAT. -/
def State.bistStat (s : State) (d : Nat) : Word :=
  let x := s.die d
  let age (r : Resource) : Nat :=
    match x.bistTimes.find? fun (y : Resource × Nat) => y.1 = r with
    | some y => (x.clk + 2 ^ 64 - y.2) % 2 ^ 64 / 100000
    | none => x.clk / 100000
  let old := satAt 16 ((s.resources d).map age |>.foldl max 0)
  pack [(0, 16, old), bitAt (100 < old) 16, (32, 16, x.bistRuns)]

/-- MEM_VAULTSTAT. -/
def Die.vaultStat (x : Die) : Word :=
  pack (((List.range 20).map fun v => (2 * v, 2, x.refRate.getD v 0)) ++ [(40, 20, maskOf x.retire)])

/-- AXL_MODE and AXL_MON. -/
def State.axlModeReg (s : State) (d : Nat) : Word :=
  pack [(0, 2, s.cfg.axlMode.getD d 0), (8, 8, (s.die d).axl.slackTgt), (16, 8, s.fuses.gv.getD d 0)]

def State.axlMon (s : State) (d : Nat) : Word :=
  let a := (s.die d).axl
  pack [(0, 16, toTwos 16 (a.slack.getD a.monSel 0)), (16, 16, toTwos 16 (a.minSlack.getD a.monSel 0)),
    (32, 16, toTwos 16 ((s.fuses.shipSlack.getD d []).getD a.monSel 0))]

/-- FAB_PORTn_STAT. -/
def State.portStat (s : State) (p : Nat) : Word :=
  let x := s.port p
  let st := if s.up (p / 6) then x.state else 5
  pack [(0, 3, st), (3, 2, x.ver), (8, 4, x.lanesRev), bitAt x.reversed 12, (16, 10, x.replay.length), (32, 7, x.credits.getD 0 0)]

/-- SKK_STAT. -/
def State.skkStat (s : State) (d c : Nat) : Word :=
  let k := (s.clu d c).skink
  let g := s.func (s.fnOf d)
  let st := if k.failed then 3 else if k.disabled then 2 else if k.dealt.isEmpty then 0 else 1
  let (slice, n) := match k.dealt with
    | x :: _ => (x.2.1, match g.step? (x.2.2 = 1) with | some t => t.n | none => 0)
    | [] => (0, match g.cur with | some t => t.n | none => 0)
  pack [(0, 2, st), (2, 2, k.mode), (4, 1, n), bitAt k.spilling 5, (8, 8, k.plan), (16, 16, k.slicesDone), (32, 32, slice)]

/-- BLW_STAT. -/
def State.blwStat (s : State) (d c : Nat) : Word :=
  let b := (s.clu d c).bellows
  let g := s.func (s.fnOf d)
  let mine (m : BellowsMsg) : Bool := match g.table m.table with
    | some t => (match t.block m.owner with | some k => k.server = d && s.serving d m.cluster = c | none => false)
    | none => false
  pack [(0, 2, b.state), bitAt (g.waitReqs.any mine) 2, (8, 16, b.desc), (24, 12, b.inflight)]

/-- MXE_STAT. -/
def Matrix.stat (m : Matrix) (retired : Bool) : Word :=
  let t := (m.cur <|> m.lastTile)
  pack [(0, 3, if retired then 7 else m.state), bitAt m.drainHold 3, bitAt m.loadWait 4, (8, 5, m.queue.length),
    (16, 16, (t.map (·.layer)).getD 0), (32, 32, (t.map (·.seq)).getD 0)]

/-- MXE_TILECFG of the current tile, or of the last one. -/
def State.mxeTile (s : State) (i : Nat) : Word :=
  let m := (s.core i).mxe
  match (m.cur <|> m.lastTile) with
  | none => 0
  | some t =>
    let w := if t.pair then 8 else (Fmt.ofCode t.outFmt).bytes
    pack [(0, 4, t.actFmt), (4, 4, t.wgtFmt), (8, 4, t.outFmt), bitAt t.pair 12, bitAt t.pack 13, bitAt t.transpose 14,
      bitAt t.load 15, bitAt t.zeroMasked 16, (17, 4, cEff (s.descOf t).digits t.colCount w), (21, 10, t.colCount), (31, 8, t.rowValid - 1),
      (39, 13, t.vecCount - s.maskedIn t), (52, 6, t.leaf)]

/-- MXE_BYPMAP0 to MXE_BYPMAP4. -/
def Core.bypMap (c : Core) (k : Nat) : Word :=
  BitVec.ofNat 64 (maskOf ((c.bypassed.filter fun p => p / 64 = k).map (· % 64)))

/-- MXE_LASTCHK. -/
def LastChk.reg (x : LastChk) : Word :=
  pack [(0, 2, x.group), bitAt x.valid 2, (3, 13, x.vector), (16, 9, x.bypCol), (25, 3, x.outcome), (32, 16, x.layer), (48, 16, x.seq)]

/-- SPE_STAT. -/
def Sparse.stat (e : Sparse) : Word :=
  let t := (e.cur <|> e.lastTile)
  pack [(0, 2, e.state), bitAt e.drainHold 2, bitAt e.loadWait 3, (8, 5, e.queue.length), (16, 16, (t.map (·.layer)).getD 0),
    (32, 32, (t.map (·.seq)).getD 0)]

/-- Cycles per vector and stored values of a pass of a sparse tile (R203, R205): of the first while it is in work, of the last after it,
since the pass in work is a matter of time (DESIGN CHOICE, log 32). -/
def State.sparseShape (s : State) (i : Nat) (t : Tile) (over' : Bool) : Nat × Nat :=
  match (s.func t.func).activePlan, (s.func t.func).cur with
  | some (_, p), some st =>
    let x := s.ctx t.func p st.n t.layer
    let D := x.D
    let b := t.colFirst / (64 * D.spcols)
    let ps := passesOf (D.segBytes x.rd t.t b)
    let (s0, n) := (if over' then ps.getLast? else ps.head?).getD (0, 0)
    let hi := min t.colCount (64 * (s0 + n))
    let es := (D.decode x.rd t.t b 0 16384).elems.filter fun e => 64 * s0 ≤ e.col && e.col < hi
    let counts := (List.range t.rowValid).map fun r => (es.filter fun e => e.row = r).length
    let w := if t.pair then 8 else (Fmt.ofCode t.outFmt).bytes
    ((sparseCycles D.wlayout ((hi - 64 * s0) * w) (dealLanes (workItems (heavyEff (s.core i).spe.heavy) counts))).1, es.length)
  | _, _ => (0, 0)

/-- SPE_TILECFG. -/
def State.speTile (s : State) (i : Nat) : Word :=
  let e := (s.core i).spe
  match (e.cur <|> e.lastTile) with
  | none => 0
  | some t =>
    let (p, n) := s.sparseShape i t e.cur.isNone
    pack [(0, 2, (s.descOf t).wlayout), (2, 4, t.actFmt), (6, 4, t.wgtFmt), (10, 4, t.outFmt), bitAt t.pair 14, (15, 15, t.colCount),
      (30, 8, satAt 8 p), (38, 17, satAt 17 n)]

/-- VEC_STAT and VEC_FTSTAT. -/
def Vector.stat (v : Vector) (retired : Bool) : Word :=
  pack [(0, 3, if retired then 5 else v.state), (8, 8, v.opkind), (16, 16, v.layer), (32, 32, v.vec)]

def Vector.ftStat (v : Vector) : Word := pack [(0, 8, v.ftSlot), bitAt v.ftHeld 8, (9, 3, v.ftPresent), (16, 16, v.ftLoads)]

/-- The queue that ZCP_QSEL selects, if the function has it. -/
def Func.selQueue (g : Func) : Option Queue := g.queues[g.qsel]?

def w64 (n : Nat) : Word := BitVec.ofNat 64 n

/-- What a register reads; none where the block has no register (R307). WO fields read zero (R6). -/
def State.regValue (s : State) (f : Nat) : RegBlk → Nat → Option Word
  | .mod, o =>
    match o with
    | 0x00 => some (s.modCap f)
    | 0x08 => some s.presentSel
    | 0x10 => some numCap
    | 0x18 => some (s.func f).stepStat
    | 0x20 => some s.compat
    | 0x28 => some (w64 s.fwSel)
    | 0x30 => some s.fwStat
    | 0x38 => some s.bootStat
    | _ => none
  | .mem, o =>
    match o with
    | 0x00 => some (w64 (s.func f).bar2Gib)
    | 0x08 => some (s.grantCtl f)
    | 0x10 => some (w64 (s.func f).apSel)
    | 0x18 => some (s.apStat f)
    | 0x20 => some (s.apPeer f)
    | 0x100 => some (pack [bitAt s.twinEn 0, (8, 8, s.twinGib)])
    | 0x108 => some s.twinStat
    | _ => none
  | .cho, o =>
    let c := (s.func f).chorus
    match o with
    | 0x00 => some (w64 c.windowUs)
    | 0x08 => some (pack [(0, 8, c.orphanMs), (8, 8, c.missNotify)])
    | 0x10 => some (s.func f).choStat
    | _ => none
  | .chn, o =>
    let g := s.func f
    match o with
    | 0x00 => some g.chnStat
    | 0x08 => some (w64 g.chanter.waitUs)
    | 0x10 => some 0
    | 0x18 => some (pack [(0, 6, g.chanter.selGroup), (6, 4, g.chanter.selPlan)])
    | 0x20 => some g.chnGstat0
    | 0x28 => some g.chnGstat1
    | 0x30 => some g.chnGstat2
    | _ => none
  | .zcp, o =>
    let g := s.func f
    match o with
    | 0x00 => some (pack [bitAt s.ready 0, (8, 7, g.queues.length)])
    | 0x08 => some (w64 g.qsel)
    | 0x10 => g.selQueue.map fun r => w64 r.sqBase
    | 0x18 => g.selQueue.map fun r => w64 r.cqBase
    | 0x20 => g.selQueue.map Queue.cfg
    | 0x28 => g.selQueue.map Queue.stat
    | _ => none
  | .jrn, o =>
    let j := s.journal
    match o with
    | 0x00 => some (pack [(0, 48, j.nextSeq), (48, 12, (j.nextSeq - 1) % 4096)])
    | 0x08 => some (w64 j.pos)
    | 0x10 => some (j.ent 0)
    | 0x18 => some (j.ent 1)
    | 0x20 => some (j.ent 2)
    | _ => none
  | .cnt, o =>
    let g := s.func f
    match o with
    | 0x00 => some (w64 g.cntSel)
    | 0x08 | 0x10 => some (w64 (s.ctrAt f g.cntSel))
    | 0x18 => some g.note.cfg
    | 0x20 => some (w64 g.note.written)
    | _ => none
  | .sec, o =>
    match o with
    | 0x00 => some s.secStat
    | 0x08 => some s.fuses.serialLo
    | 0x10 => some s.fuses.serialHi
    | _ => none
  | .door _, o => if o = 0 || o = 8 then some 0 else none
  | .die d, o =>
    match o with
    | 0x00 => some (s.dieCap d)
    | 0x08 => some (s.dieFwStat d)
    | _ => none
  | .gko d, o =>
    let g := (s.die d).gecko
    match o with
    | 0x00 => some (s.gkoCap d)
    | 0x08 => some (pack [bitAt g.cacheEn 0, (8, 5, 20)])
    | 0x10 => some (s.gkoStat d)
    | 0x18 => some (pack [(0, 16, g.migMax), (16, 4, g.migRatio)])
    | 0x20 => some (s.gkoMigstat d)
    | _ => none
  | .pwr d, o =>
    match o with
    | 0x00 => some (s.pwrCapset d)
    | 0x08 => some (s.pwrModestat d)
    | 0x10 => some (s.pwrInput d)
    | 0x18 => some (s.pwrTemp d)
    | _ => none
  | .drn d, o =>
    match o with
    | 0x00 => some (s.drnCtl d)
    | 0x08 => some (s.drnStat d)
    | _ => none
  | .axl d, o =>
    match o with
    | 0x00 => some (s.axlModeReg d)
    | 0x08 => some (s.axlPlanReg d)
    | 0x10 => some (w64 (s.die d).axl.monSel)
    | 0x18 => some (s.axlMon d)
    | _ => none
  | .saf d, o =>
    match o with
    | 0x00 => some (s.safStat d)
    | 0x08 => some (s.bistStat d)
    | _ => none
  | .memDie d, o =>
    match o with
    | 0x00 => some (s.ilvCfg d)
    | 0x08 => some (s.hostres d)
    | 0x10 => some (s.die d).vaultStat
    | _ => none
  | .fab p, o =>
    match o with
    | 0x00 => some (s.portStat p)
    | 0x08 => some (pack [bitAt (s.port p).en 0])
    | 0x10 => some (w64 (s.port p).partner)
    | 0x18 => some (w64 (s.func f).ep.fabricId)
    | _ => none
  | .clu d c, o => if o = 0 then some (s.cluCap d c) else none
  | .skk d c, o =>
    let k := (s.clu d c).skink
    match o with
    | 0x00 => some (s.skkStat d c)
    | 0x08 => some (w64 k.base0)
    | 0x10 => some (w64 k.base1)
    | 0x18 => some (pack [(0, 13, k.mib), bitAt k.short 13])
    | 0x20 => some (pack [(0, 32, ceilDiv k.used0 4096), (32, 32, ceilDiv k.used1 4096)])
    | _ => none
  | .blw d c, o =>
    match o with
    | 0x00 => some (s.blwStat d c)
    | 0x08 => some (pack [(0, 12, (s.clu d c).bellows.outstanding), (12, 1, 1)])
    | _ => none
  | .cor i, o => if o = 0 then some (s.corCap i) else none
  | .mxe i, o =>
    let c := s.core i
    match o with
    | 0x00 => some (c.mxe.stat (c.state = 2))
    | 0x08 => some (s.mxeTile i)
    | 0x10 => some (pack [(0, 9, c.checkCol), (16, 9, if c.state = 1 then c.pwidth else 0)])
    | 0x18 => some (c.bypMap 0)
    | 0x20 => some (c.bypMap 1)
    | 0x28 => some (c.bypMap 2)
    | 0x30 => some (c.bypMap 3)
    | 0x38 => some (c.bypMap 4)
    | 0x40 => some c.mxe.lastChk.reg
    | 0x48 => some (pack [bitAt c.mxe.selftest 0])
    | _ => none
  | .spe i, o =>
    let c := s.core i
    match o with
    | 0x00 => some c.spe.stat
    | 0x08 => some (pack [(0, 15, c.spe.heavy)])
    | 0x10 => some (s.speTile i)
    | _ => none
  | .vec i, o =>
    let c := s.core i
    match o with
    | 0x00 => some (c.vec.stat (c.state = 2))
    | 0x08 => some c.vec.ftStat
    | 0x10 => some (pack [bitAt c.vec.used 0])
    | _ => none

/-! ## What writes do -/

/-- The bits of a register that are RW fields (R380). -/
def rwMask : RegBlk → Nat → Nat
  | .mod, 0x20 => 0x3FF
  | .mod, 0x28 => 3
  | .mem, 0x00 => 0x3FFFFF
  | .mem, 0x08 => 0x7FF
  | .mem, 0x100 => 0xFF01
  | .cho, 0x00 | .cho, 0x08 => 0xFFFF
  | .chn, 0x08 => 0xFFFFF
  | .zcp, 0x20 => 0x400001
  | .cnt, 0x18 => 0xFFFFFFFFFF0FF
  | .gko _, 0x18 => 0xFFFFF
  | .pwr _, 0x18 => 0xFFFF00000000
  | .drn _, 0x00 => 0x3FFFF01
  | .axl _, 0x00 => 0xFF03
  | .memDie _, 0x00 => 0x3FFF0000
  | .memDie _, 0x08 => 0x3FFFF3FFF
  | .fab _, 0x08 => 1
  | .fab _, 0x18 => 0xFFFFFFFFFFFF
  | _, _ => 0

/-- A write of an RWL field: it takes effect while its block is disabled; a write that would change it otherwise is counted (R6). -/
def State.locked (s : State) (f : Nat) (isOpen : Bool) (differs : Bool) (h : State → State) : State :=
  if isOpen then h s else if differs then s.violLock f else s

/-- ZCP_QCFG (R362): the lock is judged by EN before the write. -/
def State.writeQcfg (s : State) (f v : Nat) : State :=
  let g := s.func f
  match g.selQueue with
  | none => s
  | some r =>
    let q := g.qsel
    let size (n : Nat) : Nat := max 4 (min 12 n)
    let en := bit v 0
    let new : Queue := { r with
      loc := bit v 1
      sqLog2 := size (fld v 4 4)
      cqLog2 := size (fld v 8 4)
      vector := fld v 16 6 }
    let raw := fld v 1 1 ≠ b2n r.loc || fld v 4 4 ≠ r.sqLog2 || fld v 8 4 ≠ r.cqLog2 || fld v 16 6 ≠ r.vector
    let s := s.locked f (!r.en) raw fun s => s.modQueue f q fun _ => new
    let s := s.modQueue f q fun r => { r with en := en, irqEn := bit v 22 }
    if en && !r.en then (s.modQueue f q fun r => r.restart).settleQueue f q
    else if !en && r.en then (s.modQueue f q fun x => { x with old := some r.ring }).settleQueue f q
    else s

/-- CNT_NOTECFG (R453). -/
def State.writeNotecfg (s : State) (f v : Nat) : State :=
  let r := (s.func f).note
  let en := bit v 0
  (s.modFunc f fun g =>
    { g with note := { r with
        en := en
        vector := fld v 1 6
        irqEn := bit v 7
        base := 4096 * fld v 12 40
        written := if en && !r.en then 0 else r.written } }).flushNotes f

/-- Whether every Bellows of a die is disabled, which opens GKO_CTL (log 49). -/
def State.geckoOpen (s : State) (d : Nat) : Bool :=
  (List.range 20).all fun c => !s.cluUp d c || (s.clu d c).bellows.disabled

/-- What a write stores or triggers, the journal apart (R6, R7). -/
def State.regStore (s : State) (f : Nat) : RegBlk → Nat → Nat → State
  | .mod, o, v =>
    match o with
    | 0x20 => { s with cfg := { s.cfg with zcpPin := fld v 0 8, rwPin := fld v 8 2 } }
    | 0x28 => { s with fwSel := fld v 0 2 }
    | _ => s
  | .mem, o, v =>
    match o with
    | 0x00 => s.modFunc f fun g => { g with bar2Gib := fld v 0 22 }
    | 0x08 => s.setGrant f (fld v 0 11)
    | 0x10 => s.modFunc f fun g => { g with apSel := fld v 0 8 }
    | 0x100 => { s with twinEn := bit v 0, twinGib := fld v 8 8 }
    | _ => s
  | .cho, o, v =>
    match o with
    | 0x00 => s.modFunc f fun g => { g with chorus := { g.chorus with windowUs := fld v 0 16 } }
    | 0x08 => s.modFunc f fun g => { g with chorus := { g.chorus with orphanMs := fld v 0 8, missNotify := fld v 8 8 } }
    | _ => s
  | .chn, o, v =>
    match o with
    | 0x08 => s.modFunc f fun g => { g with chanter := { g.chanter with waitUs := fld v 0 20 } }
    | 0x10 => if bit v 0 then s.dropNormsOf f else s
    | 0x18 => s.modFunc f fun g => { g with chanter := { g.chanter with selGroup := fld v 0 6, selPlan := fld v 6 4 } }
    | _ => s
  | .zcp, o, v =>
    let g := s.func f
    match o, g.selQueue with
    | 0x08, _ => s.modFunc f fun g => { g with qsel := fld v 0 6 }
    | 0x10, some r =>
      s.locked f (!r.en) (4096 * fld v 12 52 ≠ r.sqBase) fun s => s.modQueue f g.qsel fun r => { r with sqBase := 4096 * fld v 12 52 }
    | 0x18, some r =>
      s.locked f (!r.en) (4096 * fld v 12 52 ≠ r.cqBase) fun s => s.modQueue f g.qsel fun r => { r with cqBase := 4096 * fld v 12 52 }
    | 0x20, _ => s.writeQcfg f v
    | _, _ => s
  | .jrn, o, v =>
    if o = 0x08 then
      let p := fld v 0 12
      { s with journal := { s.journal with pos := p, latched := SMap.find p s.journal.ring } }
    else s
  | .cnt, o, v =>
    match o with
    | 0x00 => s.modFunc f fun g => { g with cntSel := fld v 0 19 }
    | 0x18 => s.writeNotecfg f v
    | _ => s
  | .sec, _, _ => s
  | .door q, o, v => if o = 0 then s.sqDoorbell f q v else s.cqDoorbell f q v
  | .die _, _, _ => s
  | .gko d, o, v =>
    match o with
    | 0x08 =>
      let s := s.locked f (s.geckoOpen d) (bit v 0 ≠ (s.die d).gecko.cacheEn) fun s => s.modGecko d fun g => { g with cacheEn := bit v 0 }
      if bit v 1 then s.gkFlush d else s
    | 0x18 => s.modGecko d fun g => { g with migMax := fld v 0 16, migRatio := fld v 16 4 }
    | _ => s
  | .pwr d, o, v =>
    if o = 0x18 then s.modPower d fun p => { p with logicTgt := inRange 80 100 (fld v 32 8), dramTgt := inRange 75 90 (fld v 40 8) }
    else s
  | .drn d, o, v =>
    if o = 0 then
      s.modDie d fun x => { x with drone := { x.drone with en := bit v 0, slew := fld v 8 8, floor := fld v 16 10 } }
    else s
  | .axl d, o, v =>
    match o with
    | 0x00 => { s with cfg := { s.cfg with axlMode := s.cfg.axlMode.set d (fld v 0 2) } }.modAxl d fun a => { a with slackTgt := fld v 8 8 }
    | 0x10 => s.modAxl d fun a => { a with monSel := fld v 0 6 }
    | _ => s
  | .saf _, _, _ => s
  | .memDie d, o, v =>
    match o with
    | 0x00 => s.setIlvPending d (fld v 16 14)
    | 0x08 => s.setHostres d v
    | _ => s
  | .fab p, o, v =>
    match o with
    | 0x08 =>
      let s := s.setPortEn p (bit v 0)
      if bit v 1 then s.askRetrain p else s
    | 0x18 => (s.modFunc f fun g => { g with ep := { g.ep with fabricId := fld v 0 48 } }).sendHeld f
    | _ => s
  | .clu _ _, _, _ => s
  | .skk _ _, _, _ => s
  | .blw d c, o, v =>
    if o = 0x08 then
      let b := (s.clu d c).bellows
      s.locked f b.disabled (fld v 0 12 ≠ b.outstanding) fun s =>
        s.modClu d c fun x => { x with bellows := { x.bellows with outstanding := fld v 0 12 } }
    else s
  | .cor _, _, _ => s
  | .mxe i, o, v =>
    let m := (s.core i).mxe
    match o with
    | 0x40 => if bit v 2 then s.modMxe i fun m => { m with lastChk := { m.lastChk with valid := false } } else s
    | 0x48 =>
      s.locked f (m.state = 6) (bit v 0 ≠ m.selftest) fun s => if bit v 0 && !m.selftest then s.startSelftest i else s
    | _ => s
  | .spe i, o, v =>
    let e := (s.core i).spe
    if o = 0x08 then
      s.locked f (e.state = 2) (fld v 0 15 ≠ e.heavy) fun s => s.modSpe i fun e => { e with heavy := fld v 0 15 }
    else s
  | .vec _, _, _ => s

/-- Selector registers and doorbells are not journalled; they have no bits in `rwMask` either. The bytes of a configuration-record
write are measured (R403). -/
def recordMask : RegBlk → Nat → Nat
  | .mod, 0x20 => 0x3FF
  | .memDie _, 0x00 => 0x3FFF0000
  | .axl _, 0x00 => 3
  | _, _ => 0

/-- What a register write of a function from a source does: 97 for the host, 96 for the sideband. A write to a die whose rails are not up yet is
dropped and counts nothing: R437 gives only the read (DESIGN CHOICE, log 79). -/
def State.regPut (s : State) (f src off size v : Nat) : State :=
  if !s.fns.contains f then s
  else if size ≠ 8 || off % 8 ≠ 0 then s.violOor f
  else match s.place f off with
    | none => s.violOor f
    | some (b, o) =>
      if s.absentBlk b then (if isCap b o then s else s.violOor f)
      else match s.regValue f b o with
        | none => s.violOor f
        | some old =>
          if (match b.die? with | some d => !(s.die d).powered | none => false) then s
          else
            let t := s.regStore f b o v
            let new := (t.regValue f b o).getD 0
            let diff (m : Nat) : Bool := ((old ^^^ new).toNat &&& m) ≠ 0
            if diff (rwMask b o) then
              let (t, j) := t.journalize 0xFFFF src f off
              if diff (recordMask b o) then t.measureConfig src j (leBytes 8 off ++ leBytes 8 v) else t
            else t

/-- The register writes that the security core executes, and that waited for it (Table 17.1). -/
def State.heldWrites (s : State) : State :=
  if s.procStops (.security (s.sec.role % 2)) || s.sec.writes.isEmpty then s
  else s.sec.writes.foldl (fun s (src, f, off, v) => s.regPut f src off 8 v) { s with sec := { s.sec with writes := [] } }

/-- A register write; one that the security core executes waits while it restarts or is halted (Tables 17.1 and 17.4). -/
def State.regWrite (s : State) (f src off size v : Nat) : State :=
  let waits := s.procStops (.security (s.sec.role % 2)) && size = 8 && off % 8 = 0 &&
    (match s.place f off with | some (b, o) => recordMask b o ≠ 0 && !s.absentBlk b | none => false)
  if waits then { s with sec := { s.sec with writes := s.sec.writes ++ [(src, f, off, v)] } }
  else s.heldWrites.regPut f src off size v

/-- A register read of a function: the value, and the state after it, which a read changes only by an RC field and by counting an
access that is out of range. -/
def State.regRead (s : State) (f off size : Nat) : Word × State :=
  if !s.fns.contains f then (0, s)
  else if size ≠ 8 || off % 8 ≠ 0 then (0, s.violOor f)
  else match s.place f off with
    | none => (0, s.violOor f)
    | some (b, o) =>
      if s.absentBlk b && !isCap b o then (0, s.violOor f)
      else match s.regValue f b o with
        | none => (0, s.violOor f)
        | some v =>
          if (!s.ready || !isCap b o) && (match b.die? with | some d => !(s.die d).powered | none => false) then (0, s)
          else match b, o with
            | .cnt, 0x10 => (v, s.ctrClear f (s.func f).cntSel)
            | .vec i, 0x10 => (v, s.modVec i fun x => { x with used := false })
            | _, _ => (v, s)

/-! ## PROCESSOR_RESTART_DONE (R387, R388) -/

/-- What waited for a processor goes on (Table 17.4). -/
def State.resumeProc (s : State) (p : Proc) : State :=
  match p with
  | .scheduler d =>
    let f := s.fnOf d
    let s := (s.coresOf d).foldl (fun s i => s.sparseStart i) (s.fillQueues f)
    if s.lead f = d then ((s.startJobs f false).startJobs f true).startSteps f else s
  | .control d _ => s.sendRequests (s.fnOf d)
  | .security _ => (s.heldWrites.heldTokens).actDeadline
  | _ => s

/-- R387: a processor resumes service on its held image. -/
def execProcessorRestartDone (p : Proc) (s : State) : Done :=
  if !s.procs.restarting.contains p then .next s
  else
    let s := { s with procs := { s.procs with restarting := s.procs.restarting.filter (· ≠ p) } }
    .next ((s.actResume p).resumeProc p)

/-! ## Addresses -/

def State.dieBase (s : State) (d : Nat) : Nat := 0x400000 + 0xC00000 * s.locDie d
def State.portBase (s : State) (p : Nat) : Nat := s.dieBase (p / 6) + 0x80000 + 0x10000 * (p % 6)
def State.coreBase (s : State) (i : Nat) : Nat := s.dieBase (coreDie i) + 0x100000 + 0x80000 * coreClu i + 0x40000 + 0x8000 * (i % 8)

/-- Whether the module answers at all: input valid and PERST# not asserted (R446). -/
def State.live (s : State) : Bool := s.boot.pwrGood && !s.boot.perst

/-- A register write by host software. -/
def State.hostReg (s : State) (f off : Nat) (v : Word) : State := if s.live then s.regWrite f 97 off 8 v.toNat else s

/-! ## The rows -/

/-- R4 to R7, R307: a write to register space through BAR0 or the device address. -/
def execRegisterWrite (f offset size : Nat) (value : Word) (s : State) : Done :=
  .next (if s.live && s.pcie.linkUp && !s.pcie.failed && !s.asleep f then s.regWrite f 97 offset size value.toNat else s)

/-- R362: ZCP_QCFG is written with EN 1, for the queue that ZCP_QSEL selects. -/
def execQueueEnable (f : Nat) (value : Word) (s : State) : Done := .next (s.hostReg f 0x40020 (value ||| 1))

/-- R362: ZCP_QCFG is written with EN 0. -/
def execQueueDisable (f : Nat) (value : Word) (s : State) : Done := .next (s.hostReg f 0x40020 (value &&& ~~~1))

/-- R304. The die has the number that the function gives it. -/
def execMemIlvcfgPending (f die : Nat) (value : Word) (s : State) : Done :=
  .next (if die < 4 then s.hostReg f (0x400000 + 0xC00000 * die + 0x60000) value else s)

/-- R356. -/
def execModCompatWrite (f : Nat) (value : Word) (s : State) : Done := .next (s.hostReg f 0x20 value)

/-- R351. -/
def execAxlModeWrite (f die : Nat) (value : Word) (s : State) : Done :=
  .next (if die < 4 then s.hostReg f (0x400000 + 0xC00000 * die + 0x40000) value else s)

/-- R424: FAB_PORTn_CTL.EN is written with 1. -/
def execPortEnable (port : Nat) (s : State) : Done :=
  .next (if port < 24 then s.hostReg (s.fnOf (port / 6)) (s.portBase port + 8) 1 else s)

/-- R419: FAB_PORTn_CTL.EN is written with 0. -/
def execPortDisable (port : Nat) (s : State) : Done :=
  .next (if port < 24 then s.hostReg (s.fnOf (port / 6)) (s.portBase port + 8) 0 else s)

/-- R424: RETRAIN is written with 1, and EN as it stands. -/
def execRetrain (port : Nat) (s : State) : Done :=
  .next (if port < 24 then s.hostReg (s.fnOf (port / 6)) (s.portBase port + 8) (pack [bitAt (s.port port).en 0, (1, 1, 1)]) else s)

/-- R418: a write to FABRIC_ID of any port of the function. -/
def execFabPortEpWrite (f : Nat) (value : Word) (s : State) : Done :=
  .next (s.hostReg f (s.portBase (6 * (s.upDies f).headD (s.physDie f 0)) + 0x18) value)

/-- R453. -/
def execCntNotecfgWrite (f : Nat) (value : Word) (s : State) : Done := .next (s.hostReg f 0x60018 value)

/-- R457. The journal is shared, so any function's JRN_SEL is the same register. -/
def execJrnSelWrite (value : Word) (s : State) : Done := .next (s.hostReg 0 0x50008 value)

/-- R309. -/
def execMemHostresWrite (f die : Nat) (value : Word) (s : State) : Done :=
  .next (if die < 4 then s.hostReg f (0x400000 + 0xC00000 * die + 0x60008) value else s)

/-- R313. -/
def execMemGrantctlWrite (f : Nat) (value : Word) (s : State) : Done := .next (s.hostReg f 0x10008 value)

/-- A register read by host software: the value goes out on the bus. -/
def State.hostRead (s : State) (f off : Nat) : State :=
  if s.live then
    let (v, s) := s.regRead f off 8
    s.put (.readData v.toNat 8)
  else s

/-- R450: a read of CNT_VALRC. -/
def execCntValrcRead (f : Nat) (s : State) : Done := .next (s.hostRead f 0x60010)

/-- R227: a read of VEC_RNGSTAT. -/
def execVecRngstatRead (core : Nat) (s : State) : Done :=
  .next (if core < 640 then s.hostRead (s.fnOf (coreDie core)) (s.coreBase core + 0x3010) else s)

end Sys2Proof.Machine
end

