-- ==== Sys2Proof/Machine/Startup.lean ====
section
/-!
DEFINITION. Input power, PERST#, the start-up sequence, the PCIe link and the sideband (chapter 20).
-/
namespace Sys2Proof.Machine

/-! ## Input power (R429, R430) -/

/-- The module at t0 again: the configuration record, the fuses, the rollback fuses and the flash images are kept (R443); what
stands at the connectors, what is put out and what waits outside the module are not the module's to reset. -/
def State.restart (s : State) (cold : Bool) : State :=
  let t := State.atReset s.cfg s.fuses s.sec.arCount cold
  { t with
    pending := s.pending
    fresh := s.fresh
    out := s.out
    fw := s.fw.map fun k => { k with staged := none, running := none }
    boot := { t.boot with
      pwrEn := s.boot.pwrEn
      mated := s.boot.mated
      lockout := s.boot.lockout
      perst := s.boot.perst
      fabRefclk := s.boot.fabRefclk }
    side := { t.side with slotId := s.side.slotId } }

/-- R429: PWR_EN is high, PRESENT mated and the input above the rising lockout. -/
def execSoftStart (s : State) : Done :=
  let s := { s with boot := { s.boot with pwrEn := true, mated := true } }
  .next (if s.boot.lockout || s.boot.pwrGood then s else { s with boot := { s.boot with softStart := true } })

/-- R429: the rail is within 1 V of the input. -/
def execPwrGood (s : State) : Done :=
  if s.boot.softStart then .next ((s.restart true).put (.pwrGood true)) else .next s

/-- R429, R430: the controller turns off. The breaker and the fast trip keep it off until PWR_EN has been low for 100 ms. -/
def execHotSwapOff (cause : OffCause) (s : State) : Done :=
  let on := s.boot.pwrGood
  let b := s.boot
  let b := match cause with
    | .pwrEnLow ms => { b with pwrEn := false, lockout := b.lockout && ms < 100 }
    | .presentBreak => { b with mated := false }
    | .undervoltage | .overvoltage => b
    | .breaker => { b with lockout := true }
  if !on && !s.boot.softStart then .next (if cause = .breaker then s else { s with boot := b })
  else
    let t := State.restart { s with boot := b } true
    let t := { t with boot := { t.boot with pwrGood := false, softStart := false } }
    .next (if on then t.put (.pwrGood false) else t)

/-! ## PERST# (R446) -/

/-- An engine that PERST# stops: no work, no hold and no test is left in it. -/
def Core.halted (c : Core) : Core :=
  let c := c.emptied
  { c with
    mxe := { c.mxe with selftest := false, disabling := false, draining := false, drainHold := false
                        state := if c.mxe.state = 7 then 7 else if c.mxe.state = 6 then 6 else 0 }
    spe := { c.spe with disabling := false, draining := false, drainHold := false }
    vec := { c.vec with disabling := false } }

/-- A cluster's Skink and Bellows hold no work. -/
def Cluster.halted (x : Cluster) : Cluster :=
  { x with
    skink := { x.skink with dealt := [], inWork := none, spilling := false, retried := false }
    bellows := { x.bellows with outstanding := 0, state := if x.bellows.disabled then x.bellows.state else 0, serving := false, inflight := 0 } }

/-- Everything in work stops and every queue is empty, without completions. -/
def State.dropAll (s : State) : State :=
  let s := s.fns.foldl (fun s f => s.emptyEngines f) s
  let s := { s with cores := s.cores.map Core.halted, clusters := s.clusters.map Cluster.halted }
  { s with
    funcs := s.funcs.map fun g =>
      { g.cleared with
        queues := g.queues.map fun _ => Queue.reset
        done := []
        chanter := { g.chanter with state := 0, group := 0, step := 0 }
        ep := { g.ep with unacked := [], early := [], inbox := [] } }
    ports := s.ports.map fun p => { Port.reset with en := p.en }
    links := []
    act := none }

/-- R446: PERST# has been asserted for 1 ms. The registers keep their values until its deassertion (R8). -/
def execPerstAssert (s : State) : Done :=
  if s.boot.perst then .next s
  else if !s.boot.pwrGood then .next { s with boot := { s.boot with perst := true } }
  else
    let s := s.dropAll
    .next
      { s with
        ready := false
        pcie := { s.pcie with linkUp := false }
        boot := { s.boot with perst := true, perstPending := true } }

/-- R8, R31, R446: deassertion starts the module at ROM boot. The debug port is not reset by it, but its scopes lock (R408). -/
def execPerstDeassert (s : State) : Done :=
  if !s.boot.perst then .next s
  else
    let s := { s with boot := { s.boot with perst := false } }
    if !s.boot.pwrGood then .next s
    else
      let t := s.restart (!s.boot.perstPending && s.boot.cold)
      .next { t with jtag := { s.jtag with driven := none } }

/-! ## The start-up sequence (R442) -/

/-- A line of Table 20.10 is complete. -/
def State.lineDone (s : State) (n : Nat) : State := { s with boot := { s.boot with done := max s.boot.done n } }

/-- The configuration block of Table 18.6 (R404). Its one byte for AXL_MODE.MODE holds the modes of dies 0 to 3 in two bits each
(log 51). -/
def State.configBlock (s : State) : List Byte :=
  let four (h : Nat → List Byte) : List Byte := (List.range 4).flatMap h
  let mask (l : List Bool) : Nat := maskOf ((List.range 4).filter fun d => l.getD d false)
  let modes := ((List.range 4).map fun d => s.cfg.axlMode.getD d 0 % 4 * 4 ^ d).sum
  leBytes 1 1 ++ leBytes 1 (b2n s.quad) ++ leBytes 1 s.zcpPin ++ leBytes 1 s.rwPin ++ leBytes 1 modes ++
    leBytes 1 s.sec.arCount ++ zeros 2 ++ four (fun d => leBytes 2 (s.die d).ilvMib) ++
    four (fun d => leBytes 1 (s.cfg.guard.getD d 0)) ++ four (fun d => leBytes 2 (s.cfg.ceilMhz.getD d 1500)) ++
    leBytes 1 (mask s.cfg.tripped) ++ leBytes 1 (mask s.cfg.exhausted) ++ zeros 34

/-- Set a measurement register outright (R402). -/
def State.setMeas (s : State) (i : Nat) (d : List Byte) : State := { s with sec := { s.sec with meas := s.sec.meas.set i d } }

def State.measureBlock (s : State) : State := s.setMeas 5 (shake256 s.configBlock)

/-- R402, R442: M0 and M5 are set, and the sideband answers. -/
def execRomBoot (s : State) : Done :=
  if !s.live || s.boot.done ≠ 0 then .next s
  else
    let s := (s.setMeas 0 (leBytes 64 Config.romDigest.toNat)).measureBlock.lineDone 1
    .next { s with side := { s.side with hotJoined := true } }

/-- R384, R400: the active overlay of one kind is verified. -/
def State.verifyKind (s : State) (k : Nat) : State :=
  match (s.fwKind k).active with
  | none => s.measureKind k none
  | some im =>
    if overlayHeaderOk im k && (s.overlayFail im).isNone then
      let s := { s with sec := { s.sec with arCount := max s.sec.arCount (min 63 im.secVersion) } }
      (s.modFw k fun x => { x with running := some im }).measureKind k (some im)
    else
      let s := if (s.overlayFail im).isSome then s.secDenied else s
      (s.measureKind k none).emit 15 10 k im.secVersion 0

/-- R384, R400, R402. M5 holds the counter after R400, so it is formed again when the counter has advanced (log 51). -/
def execOverlayVerify (s : State) : Done :=
  if !s.live || s.boot.done ≠ 1 then .next s
  else .next (((List.range 4).foldl (fun s k => s.verifyKind k) s).measureBlock.lineDone 2)

/-- R442: rails and clocks of every die, and the training of the ports with EN set begins. -/
def execDiePowerUp (s : State) : Done :=
  if !s.live || s.boot.done ≠ 2 then .next s
  else
    let s := (List.range 4).foldl (fun s d => s.modDie d fun x => { x with powered := true, power := { x.power with freq := 1250 } }) s
    let s := (List.range 24).foldl (fun s p => if (s.port p).en then s.startTraining p else s) s
    .next (s.lineDone 3)

/-- R433, R442: the link is in L0, at start-up or again after a link reset. -/
def execPcieLinkUp (s : State) : Done :=
  if !s.live || s.boot.done < 3 || s.pcie.failed then .next s
  else .next ({ s with pcie := { s.pcie with linkUp := true } }.lineDone 4)

/-- R442: bonded DRAM and tier 2 are trained and initialised. Memory reads zero from reset on (R443). -/
def execMemoryInit (s : State) : Done :=
  if !s.live || s.boot.done < 3 then .next s else .next (s.lineDone 5)

/-! ### Quick self-test (R444) -/

/-- A core's columns as fuses and test leave them, and whether the core is fit (R20). -/
def Core.tested (c : Core) (failed : Bool) (cols : List Nat) : Core :=
  let byp := sortBy (fun (a b : Nat) => a < b) ((c.bypassed ++ cols.filter (· < 264)).eraseDups)
  let unfit := failed || 264 - byp.length ≤ 240
  let c := { c with bypassed := byp }
  if c.state ≠ 1 || !unfit then c
  else
    { c with
      state := 2
      mxe := { c.mxe with state := 7 }
      vec := { c.vec with state := 5 } }

/-- The quick self-test decides what is present. -/
def State.selfTested (s : State) (t : SelfTest) : State :=
  let cores := s.cores.zipIdx.map fun (c, i) => c.tested (t.cores.contains i) ((t.columns.lookup i).getD [])
  let clusters := s.clusters.zipIdx.map fun (x, i) =>
    { x with
      enabled := !t.clusters.contains (i / 20, i % 20)
      vaultOk := !t.vaults.contains (i / 20, i % 20) }
  let dies := s.dies.zipIdx.map fun (x, d) =>
    { x with
      enabled := !t.dies.contains d
      portsOk := (List.range 6).filter fun p => !t.ports.contains (6 * d + p)
      linksOk := (List.range 3).filter fun l =>
        !(t.links.contains (d, l) || t.links.contains (linkPeer d l, l) || t.dies.contains (linkPeer d l)) }
  let ports := s.ports.zipIdx.map fun (p, i) =>
    if t.ports.contains i || t.dies.contains (i / 6) then { Port.reset with en := p.en } else p
  let failed := maskOf ((List.range 4).filter t.dies.contains)
  { s with
    cores := cores
    clusters := clusters
    dies := dies
    ports := ports
    boot := { s.boot with diesFailed := failed, readyMs := t.readyMs % 2 ^ 32 } }

/-- R433, R442, R444: zero-fill and quick self-test are done. A security core whose die failed is out of service (R383). -/
def execZcpReady (t : SelfTest) (s : State) : Done :=
  if !s.live || s.ready || s.milestone ≠ 6 then .next s
  else
    let s := s.selfTested t
    let s := [0, 1].foldl (fun s d => if t.dies.contains d then s.loseSecurity d else s) s
    let s := { s with ready := true }.lineDone 7
    .next (if s.pcie.linkUp then s.fns.foldl (fun s f => s.put (.readiness f)) s else s)

/-- R445, R352: the full self-test has finished; a plan is formed on it. -/
def execFullSelftestDone (s : State) : Done :=
  if !s.ready || s.boot.fullDone then .next s
  else
    let s := ((List.range 4).filter s.up).foldl (fun s d => s.formPlan d) s
    .next ({ s with boot := { s.boot with fullDone := true } }.lineDone 8)

/-! ## PCIe (R433 to R435) -/

/-- A source whose completion is discarded: its queue number leaves the range of queues, and the journal code stays (R434). -/
def orphanSrc : Src → Src
  | .queue q => .queue (if q < 64 then q + 64 else q)
  | x => x

def orphan (c : Submission) : Submission := { c with src := orphanSrc c.src }

/-- Every PCIe queue of a function resets. Its commands that have not started are gone; what is under way goes on without a
completion. -/
def Func.dropQueues (g : Func) : Func :=
  let keep (l : List Submission) : List Submission := l.filter fun c => match c.src with | .queue _ => false | _ => true
  let step (t : Step) : Step := { t with sub := orphan t.sub }
  { g with
    queues := g.queues.map fun _ => Queue.reset
    lastQ := 0
    fetched := keep g.fetched
    held := keep g.held
    released := keep g.released
    done := g.done.filter fun c => match c.src with | .queue _ => false | _ => true
    jobs := g.jobs.map fun j => { j with sub := orphan j.sub }
    asks := g.asks.map fun a => { a with sub := a.sub.map orphan }
    stops := g.stops.map fun j => { j with sub := orphan j.sub }
    modeJob := g.modeJob.map fun j => (orphan j.1, j.2)
    rowJobs := g.rowJobs.map fun j => { j with sub := orphan j.sub }
    accepted := g.accepted.map fun a => (a.1, orphan a.2)
    cur := g.cur.map step
    ahead := g.ahead.map step }

/-- R434: a Hot Reset, a link-down event and the loss of REFCLK have the same effect, on a link that is down already too. A partition that
fails takes its configuration space and its queues with it, and answers no more (R346). -/
def execPcieLinkReset (e : LinkEvent) (s : State) : Done :=
  if !s.live || s.pcie.failed then .next s
  else
    let s := s.fns.foldl (fun s f => s.modFunc f Func.dropQueues) s
    let act := s.act.map fun a => { a with sub := orphan a.sub }
    .next
      { s with
        act := act
        pcie := ⟨false, e = .partitionLoss, s.pcie.spaces.map fun _ => ConfigSpace.reset s.quad⟩
        boot := { s.boot with linkResets := if e = .partitionLoss then s.boot.linkResets else (s.boot.linkResets + 1) % 256 } }

/-- R33, R435: the command state of the function resets and its step work is quenched. -/
def execFunctionLevelReset (f : Nat) (s : State) : Done :=
  if !s.ready || !s.pcie.linkUp || !s.fns.contains f then .next s
  else
    let s := s.modFunc f Func.dropQueues
    let s := { s with act := s.act.map fun (a : Activation) => if a.sub.func = f then { a with sub := orphan a.sub } else a }
    let s := match (s.func f).cur, (s.func f).activePlan with | some st, some (_, p) => s.stopOwn f p st | _, _ => s
    .next (((s.emptyEngines f).quenchAll f true).startSteps f)

def State.space (s : State) (f : Nat) : ConfigSpace := s.pcie.spaces.getD f (ConfigSpace.reset s.quad)

/-- What an item of configuration space holds (R432, R433). The low bits of a BAR say that it has 64 bits and, for BAR2, that it is
prefetchable, as the PCIe specification places them (PRESUMED, log 52). -/
def State.configValue (s : State) (f : Nat) : ConfigItem → Nat
  | .identity => Config.pciVendor.toNat + 2 ^ 16 * (if s.quad then 0x4011 else 0x4044)
  | .classCode => (if s.quad then 0x80 else Config.pciRevision.toNat) + 2 ^ 8 * 0x120000
  | .bar0 => (s.space f).bar0 + 4
  | .bar2 => (s.space f).bar2 + 12
  | .resize => (s.space f).bar2Log2
  | .power => if (s.space f).d3hot then 3 else 0
  | .readinessTime => 3000
  | .aer => (s.space f).aer

/-- A configuration write: a BAR keeps the address bits above its size, Resizable BAR takes 1 GiB to the full size, and an error bit is
cleared by writing 1. The rest is read only. -/
def State.configWrite (s : State) (f : Nat) (i : ConfigItem) (v : Nat) : State :=
  let full := if s.quad then 4 else 6
  let set (h : ConfigSpace → ConfigSpace) : State := { s with pcie := { s.pcie with spaces := modNth h f s.pcie.spaces } }
  match i with
  | .identity | .classCode | .readinessTime => s
  | .bar0 =>
    let size := if s.quad then 16 * MiB else 64 * MiB
    set fun x => { x with bar0 := v % 2 ^ 64 / size * size }
  | .bar2 => set fun x => { x with bar2 := v % 2 ^ 64 / (GiB * 2 ^ x.bar2Log2) * (GiB * 2 ^ x.bar2Log2) }
  | .resize => set fun x => { x with bar2Log2 := if v ≤ full then v else x.bar2Log2 }
  | .power => set fun x => { x with d3hot := if v % 4 = 0 then false else if v % 4 = 3 then true else x.d3hot }
  | .aer => set fun x => { x with aer := x.aer &&& ((2 ^ 32 - 1) ^^^ (v % 2 ^ 32)) }

/-- R433: Request Retry Status until ZCP is ready; then the request is carried out. -/
def execConfigRequest (r : ConfigRequest) (s : State) : Done :=
  if !s.live || !s.pcie.linkUp || s.pcie.failed || !s.fns.contains r.func then .next s
  else if !s.ready then .next (s.put (.config r.func none))
  else
    let s := match r.write with | some v => s.configWrite r.func r.item v | none => s
    .next (s.put (.config r.func (some (s.configValue r.func r.item))))

/-- R431: every port goes down. -/
def execFabRefclkLoss (s : State) : Done :=
  let on := (List.range 24).filter fun p => s.up (p / 6) && (1 ≤ (s.port p).state && (s.port p).state ≤ 3)
  let s := { s with boot := { s.boot with fabRefclk := false } }
  .next (on.foldl (fun s p => s.portDown p) s)

/-! ## Sideband (R436, R437) -/

/-- The sideband answers from ROM boot on, while input is valid and a security core serves it. -/
def State.sideUp (s : State) : Bool := s.boot.pwrGood && 1 ≤ s.boot.done && s.sec.role ≠ 2

def State.mctp (s : State) (b : List Byte) : State := s.put (.mctp b)

/-- R436: a target that has no dynamic address gives its Provisioned ID, which holds SLOT_ID, and takes the address. -/
def execEntdaa (address : Nat) (s : State) : Done :=
  if s.sideUp && s.side.address.isNone && address < 128 then
    .next ({ s with side := { s.side with address := some address } }.put
      (.provisionedId (s.side.slotId % 64 + 64 * Config.provisionedId.toNat)))
  else .next s

/-- Set Endpoint ID: completion code, assignment status, the ID now set, pool size (log 52). -/
def execSetEndpointId (eid : Nat) (s : State) : Done :=
  if !s.sideUp then .next s
  else if eid = 0 || 255 ≤ eid then .next (s.mctp (leBytes 1 2))
  else .next ({ s with side := { s.side with eid := eid } }.mctp ([0, 0] ++ leBytes 1 eid ++ [0]))

/-- Get Endpoint ID: completion code, ID, types, medium-specific. -/
def execGetEndpointId (s : State) : Done :=
  .next (if s.sideUp then s.mctp ([0] ++ leBytes 1 s.side.eid ++ [0, 0]) else s)

/-- Get MCTP Version Support. -/
def execGetMctpVersionSupport (s : State) : Done := .next (if s.sideUp then s.mctp ([0] ++ Config.mctpVersions) else s)

/-- Get Message Type Support: vendor-defined PCI alone (Table 20.7). -/
def execGetMessageTypeSupport (s : State) : Done := .next (if s.sideUp then s.mctp [0, 1, 0x7E] else s)

/-- ERROR_NOT_READY, as MCTP codes it (log 52). -/
def mctpNotReady : List Byte := [4]

/-- A vendor-defined message of subtypes 0 to 2. -/
def State.vendor (s : State) (f : Nat) (h : State → State) : State :=
  if !s.sideUp || !s.fns.contains f then s else if s.ready then h s else s.mctp mctpNotReady

/-- R437, subtype 0. -/
def execSidebandSubmission (f : Nat) (slot : List Byte) (s : State) : Done :=
  .next (s.vendor f fun s => s.takeUp (parseSubmission .sideband f slot))

/-- The sideband window: 16 MiB of the function's address map. -/
def windowBase : Nat := 0x015FFF000000
def windowSize : Nat := 16 * MiB

def inWindow (offset n : Nat) : Bool := n ≤ 65000 && offset + n ≤ windowSize

/-- R437, subtype 1. A write that does not lie in the window, or is longer than a message may be, has no effect (log 52). -/
def execSidebandWindowWrite (f offset : Nat) (data : List Byte) (s : State) : Done :=
  .next (s.vendor f fun s =>
    if inWindow offset data.length && s.inMemory f (windowBase + offset) data.length then
      s.hostWrite f (windowBase + offset) data
    else s)

/-- R437, subtype 2. -/
def execSidebandWindowRead (f offset len : Nat) (s : State) : Done :=
  .next (s.vendor f fun s =>
    if inWindow offset len then
      match s.key f (windowBase + offset) with
      | some k =>
        let (b, s) := s.checkedRead k len
        s.mctp b
      | none => s.mctp (zeros len)
    else s)

/-- R437, subtype 3. -/
def execSidebandRegRead (f offset : Nat) (s : State) : Done :=
  if s.sideUp && s.fns.contains f then
    (let (v, s) := s.regRead f offset 8
     .next (s.mctp (leBytes 8 v.toNat)))
  else .next s

/-- R437, subtype 4, and R380. -/
def execSidebandRegWrite (f offset : Nat) (value : Word) (s : State) : Done :=
  .next (if s.sideUp && s.fns.contains f then s.regWrite f 96 offset 8 value.toNat else s)

end Sys2Proof.Machine
end

