-- ==== Sys2Proof/Machine/Debug.lean ====
section
/-!
DEFINITION. The JTAG port and the debug paths behind it (R408 to R411, R438 to R440). Each row is one instruction with the scan of
its data register; what the scan gives out is a `readData` of the port.
-/
namespace Sys2Proof.Machine

/-! ## The port (R438, R439) -/

/-- Least significant bit first. -/
def natBits (n v : Nat) : List Bool := (List.range n).map fun i => v / 2 ^ i % 2 = 1

def bitsNat (l : List Bool) : Nat := l.foldr (fun b n => b2n b + 2 * n) 0

/-- An instruction is in the register and its data register has been scanned out. -/
def State.tap (s : State) (code : Nat) (out : List Bool) : State :=
  { s with jtag := { s.jtag with ir := code, dr := out } }.put (.readData (bitsNat out) (ceilDiv out.length 8))

/-- Any instruction but those of R439 takes the pins back. -/
def State.undriven (s : State) : State := { s with jtag := { s.jtag with driven := none } }

/-- An instruction that acts as BYPASS: the one-bit register captures 0. -/
def State.actsBypass (s : State) (code : Nat) : State := s.undriven.tap code [false]

/-- Bits that no rule gives: levels at pins, contents of scan chains (log 3). -/
def State.openBits (s : State) (n : Nat) : List Bool × State :=
  ((List.range n).map fun i => (Config.freeByte (s.fresh + i)).getLsbD 0, s.takeFresh n)

/-- The port works while input is valid. -/
def State.jtagUp (s : State) (h : State → State) : Done := .next (if s.boot.pwrGood then h s else s)

/-- The boundary register is scanned: what the pins show goes out, `pins` goes in. -/
def State.boundaryScan (s : State) (code : Nat) (pins : List Bool) (drive : Bool) : State :=
  let pins := (pins ++ List.replicate boundaryCells false).take boundaryCells
  let (out, s) := s.openBits boundaryCells
  { s with jtag := { s.jtag with boundary := pins, driven := if drive then some pins else none } }.tap code out

/-- An instruction that drives the pins acts only while PERST# is asserted (R439). -/
def State.boardTest (s : State) (code : Nat) (h : State → State) : State := if s.boot.perst then h s else s.actsBypass code

def execExtest (pins : List Bool) (s : State) : Done :=
  s.jtagUp fun s => s.boardTest 0x00 fun s => s.boundaryScan 0x00 pins true

def execExtestPulse (pins : List Bool) (s : State) : Done :=
  s.jtagUp fun s => s.boardTest 0x03 fun s => s.boundaryScan 0x03 pins true

def execExtestTrain (pins : List Bool) (s : State) : Done :=
  s.jtagUp fun s => s.boardTest 0x04 fun s => s.boundaryScan 0x04 pins true

/-- The pins hold what the boundary register has; the bypass register is scanned. -/
def execClamp (s : State) : Done :=
  s.jtagUp fun s => s.boardTest 0x05 fun s =>
    { s with jtag := { s.jtag with driven := some s.jtag.boundary } }.tap 0x05 [false]

/-- Every output is at high impedance; the bypass register is scanned. -/
def execHighz (s : State) : Done :=
  s.jtagUp fun s => s.boardTest 0x06 fun s => { s with jtag := { s.jtag with driven := some [] } }.tap 0x06 [false]

/-- R438: version, part 0x4044, JEDEC identity, 1. -/
def idcodeValue : Nat := 1 + 2 * Config.idcodeManufacturer.toNat + 2 ^ 12 * 0x4044 + 2 ^ 28 * Config.idcodeVersion.toNat

def execIdcode (s : State) : Done := s.jtagUp fun s => s.undriven.tap 0x01 (natBits 32 idcodeValue)

def execSamplePreload (pins : List Bool) (s : State) : Done := s.jtagUp fun s => s.boundaryScan 0x02 pins false

/-- R438: the code 0xFF, and every code not listed. -/
def execBypass (bit : Bool) (s : State) : Done :=
  s.jtagUp fun s =>
    let s := s.actsBypass 0xFF
    { s with jtag := { s.jtag with dr := [bit] } }

/-- R439: Test-Logic-Reset. Unlocked scopes stay unlocked. -/
def execTapReset (s : State) : Done :=
  s.jtagUp fun s =>
    let s := s.undriven
    { s with jtag := { s.jtag with ir := 0x01 } }

/-! ## Unlocking (R409, R410) -/

def bytesBits (b : List Byte) : List Bool := b.flatMap fun x => natBits 8 x.toNat

/-- R409: 32 bytes from the noise source. -/
def execChallenge (s : State) : Done :=
  s.jtagUp fun s =>
    let b := (List.range 32).map fun i => Config.noiseByte (s.fresh + i)
    let s := s.takeFresh 32
    { s with sec := { s.sec with challenge := some b } }.undriven.tap 0xC0 (bytesBits b)

/-- R410: the challenge is spent either way. A token waits while the security core restarts or is halted (Tables 17.1 and 17.4). -/
def execUnlock (token : List Byte) (s : State) : Done :=
  s.jtagUp fun s =>
    let s := { s with sec := { s.sec with tokens := s.sec.tokens ++ [token] } }.actsBypass 0xC1
    if s.procStops (.security (s.sec.role % 2)) then s else s.judgeTokens

/-! ## Debug instructions (R440, Table 20.11) -/

/-- A debug instruction acts while its scope is unlocked, else as BYPASS. -/
def State.scoped (s : State) (code : Nat) (isOpen : Bool) (h : State → State) : Done :=
  s.jtagUp fun s => if isOpen then h s.undriven else s.actsBypass code

def State.scope (s : State) (k : Nat) : Bool := bit s.sec.scopes k

/-- The processor that a value of PROC_SEL names. -/
def procOf (v : Nat) : Proc :=
  let d := fld v 2 2
  match fld v 0 2 with
  | 0 => .security d
  | 1 => .power d
  | 2 => .scheduler d
  | _ => .control d (fld v 4 5)

/-- The scope that a processor's instructions need. -/
def procScope (v : Nat) : Nat := if fld v 0 2 = 0 then 2 else 0

def State.selHalted (s : State) : Bool := s.procs.halted.contains (procOf s.jtag.procSel)

def execDbgStatus (s : State) : Done :=
  s.scoped 0xD0 (s.sec.scopes ≠ 0) fun s => s.tap 0xD0 (natBits 64 (s.sec.scopes + 8 * b2n s.selHalted))

/-- PROC_SEL; the bits scanned out are those held before. -/
def execProcSel (value : Nat) (s : State) : Done :=
  s.scoped 0xD1 (s.scope (procScope value)) fun s =>
    let old := s.jtag.procSel
    { s with jtag := { s.jtag with procSel := value % 512 } }.tap 0xD1 (natBits 16 old)

/-- PROC_CTL with an action on the selected processor, when it exists. -/
def State.procCtl (s : State) (action : Nat) (h : Proc → State → State) : Done :=
  s.scoped 0xD2 (s.scope (procScope s.jtag.procSel)) fun s =>
    let p := procOf s.jtag.procSel
    let t := if s.procUp p then h p s else s
    t.tap 0xD2 (natBits 8 action)

/-- The registers of a processor may hold other values from here on. -/
def State.procMoved (s : State) (p : Proc) : State :=
  { s with procs := { s.procs with regs := s.procs.regs.filter (fun x => x.1 ≠ procCode p), epoch := s.procs.epoch + 1 } }

def execProcHalt (s : State) : Done :=
  s.procCtl 1 fun p s =>
    if s.procs.halted.contains p then s
    else ({ s with procs := { s.procs with halted := s.procs.halted ++ [p] } }.procMoved p).pauseProc p

/-- The processor runs again, and what waited for it goes on (Table 17.4). -/
def execProcRun (s : State) : Done :=
  s.procCtl 2 fun p s =>
    if s.procs.halted.contains p then
      ({ s with procs := { s.procs with halted := s.procs.halted.filter (· ≠ p) } }.procMoved p).resumeProc p
    else s

/-- One instruction of a halted processor. -/
def execProcStep (s : State) : Done :=
  s.procCtl 3 fun p s => if s.procs.halted.contains p then s.procMoved p else s

/-- R440: PROC_REG reads zero and drops writes unless the processor is halted. What a register holds that PROC_REG has not written
since, no rule gives (log 3). -/
def execProcReg (number : Nat) (write : Bool) (data : Word) (s : State) : Done :=
  s.scoped 0xD3 (s.scope (procScope s.jtag.procSel)) fun s =>
    let n := number % 256
    let k := procCode (procOf s.jtag.procSel)
    let held := s.procs.regs.find? fun x => x.1 = k && x.2.1 = n
    let v : Word := match held with | some x => x.2.2 | none => Config.procRegister k n s.procs.epoch
    if !s.selHalted then s.tap 0xD3 (natBits 64 0)
    else if write then
      let regs := s.procs.regs.filter (fun x => !(x.1 = k && x.2.1 = n)) ++ [(k, n, data)]
      { s with procs := { s.procs with regs := regs } }.tap 0xD3 (natBits 64 data.toNat)
    else s.tap 0xD3 (natBits 64 v.toNat)

/-- MEM_ADDR: an 8-byte aligned device address of 52 bits. -/
def execMemAddr (address : Nat) (s : State) : Done :=
  s.scoped 0xD4 (s.scope 1) fun s =>
    let old := s.jtag.memAddr
    { s with jtag := { s.jtag with memAddr := address % 2 ^ 52 / 8 * 8 } }.tap 0xD4 (natBits 52 old)

/-- A debug access of 8 bytes at a device address of function 0, as source 97: memory, or a register (R4, R305). -/
def State.debugAccess (s : State) (a : Nat) (write : Bool) (data : Word) : Word × State :=
  if regBase ≤ a then
    (if write then (0, s.regWrite 0 97 (minus a regBase) 8 data.toNat) else s.regRead 0 (minus a regBase) 8)
  else if !s.inMemory 0 a 8 then (0, s.violOor 0)
  else if write then (0, s.hostWrite 0 a (leBytes 8 data.toNat))
  else match s.key 0 a with
    | some k =>
      let (b, s) := s.checkedRead k 8
      (BitVec.ofNat 64 (leNat b), s)
    | none => (0, s)

/-- MEM_DATA: each access advances MEM_ADDR by 8. -/
def execMemData (write : Bool) (data : Word) (s : State) : Done :=
  s.scoped 0xD5 (s.scope 1) fun s =>
    let a := s.jtag.memAddr
    let (v, s) := s.debugAccess a write data
    { s with jtag := { s.jtag with memAddr := (a + 8) % 2 ^ 52 } }.tap 0xD5 (natBits 64 v.toNat)

/-- REG_ACCESS, as source 97, in the register space of function 0. -/
def execRegAccess (offset : Nat) (write : Bool) (data : Word) (s : State) : Done :=
  s.scoped 0xD6 (s.scope 1) fun s =>
    let o := offset % 2 ^ 26
    let (v, s) := if write then ((0 : Word), s.regWrite 0 97 o 8 data.toNat) else s.regRead 0 o 8
    s.tap 0xD6 (natBits 64 v.toNat)

/-! ### Scan chains -/

/-- The scope that a chain needs: 2 for those of the security cores. -/
def scanScope (v : Nat) : Nat := if bit v 16 then 2 else 1

def execScanSel (value : Nat) (s : State) : Done :=
  s.scoped 0xD7 (s.scope (scanScope value)) fun s =>
    let old := s.jtag.scanSel
    { s with jtag := { s.jtag with scanSel := value % 2 ^ 17 } }.tap 0xD7 (natBits 32 old)

/-- A core whose engines are all disabled (R377). -/
def State.coreOff (s : State) (i : Nat) : Bool :=
  let c := s.core i
  c.mxe.state = 6 && (c.spe.state = 2 || c.spe.state = 3) && c.vec.state = 4

/-- A cluster whose Skink, Bellows and present cores are all disabled (R377). -/
def State.cluOff (s : State) (d c : Nat) : Bool :=
  (s.clu d c).skink.disabled && (s.clu d c).bellows.disabled &&
    (List.range 8).all fun k => s.coreState (coreId d c k) ≠ 1 || s.coreOff (coreId d c k)

/-- The selected chain's domain holds no work (R440). -/
def State.scanRests (s : State) : Bool :=
  let v := s.jtag.scanSel
  let d := fld v 0 2
  let c := fld v 2 5
  s.boot.perst || (!bit v 16 && c < 20 && (s.coreOff (coreId d c (fld v 7 3)) || s.cluOff d c))

/-- SCAN_SHIFT, of as many bits as SCAN_LEN reports. A chain's contents are given by no rule, nor what they do to the domain (log 3,
log 55). -/
def execScanShift (_bits : List Bool) (s : State) : Done :=
  s.scoped 0xD8 (s.scope (scanScope s.jtag.scanSel)) fun s =>
    let n := Config.scanLength s.jtag.scanSel
    if s.scanRests then
      let (out, s) := s.openBits n
      s.tap 0xD8 out
    else s.tap 0xD8 (List.replicate n false)

def execScanLen (s : State) : Done :=
  s.scoped 0xD9 (s.scope (scanScope s.jtag.scanSel)) fun s => s.tap 0xD9 (natBits 32 (Config.scanLength s.jtag.scanSel))

end Sys2Proof.Machine
end

