-- ==== Sys2Proof/Machine/Dispatch.lean ====
section
/-!
DEFINITION. Which meaning belongs to which command: one arm per constructor.
-/
namespace Sys2Proof.Machine

def exec (i : Instr) (s : State) : Host.Outcome State Fault Refusal :=
  match i with
  | .zcpHello c => Sys2Proof.Machine.execZcpHello c s
  | .modPresent c => Sys2Proof.Machine.execModPresent c s
  | .quench c => Sys2Proof.Machine.execQuench c s
  | .disable c => Sys2Proof.Machine.execDisable c s
  | .enable c => Sys2Proof.Machine.execEnable c s
  | .drain c => Sys2Proof.Machine.execDrain c s
  | .drainRelease c => Sys2Proof.Machine.execDrainRelease c s
  | .timeProbe c => Sys2Proof.Machine.execTimeProbe c s
  | .tblCreate c => Sys2Proof.Machine.execTblCreate c s
  | .tblCreateDone f table => Sys2Proof.Machine.execTblCreateDone f table s
  | .tblWriteRows c => Sys2Proof.Machine.execTblWriteRows c s
  | .tblReplaceRows c => Sys2Proof.Machine.execTblReplaceRows c s
  | .tblMigrate c => Sys2Proof.Machine.execTblMigrate c s
  | .tblMigrateDone f table => Sys2Proof.Machine.execTblMigrateDone f table s
  | .graphLoad c => Sys2Proof.Machine.execGraphLoad c s
  | .graphLoadDone f slot => Sys2Proof.Machine.execGraphLoadDone f slot s
  | .skkConfig c => Sys2Proof.Machine.execSkkConfig c s
  | .planLoad c => Sys2Proof.Machine.execPlanLoad c s
  | .stepRun c => Sys2Proof.Machine.execStepRun c s
  | .ftblLoad c => Sys2Proof.Machine.execFtblLoad c s
  | .collGroup c => Sys2Proof.Machine.execCollGroup c s
  | .collEvict c => Sys2Proof.Machine.execCollEvict c s
  | .updProgram c => Sys2Proof.Machine.execUpdProgram c s
  | .updStepSize c => Sys2Proof.Machine.execUpdStepSize c s
  | .updFreeze c => Sys2Proof.Machine.execUpdFreeze c s
  | .pwrCap c => Sys2Proof.Machine.execPwrCap c s
  | .pwrMode c => Sys2Proof.Machine.execPwrMode c s
  | .fltQuery c => Sys2Proof.Machine.execFltQuery c s
  | .cntRead c => Sys2Proof.Machine.execCntRead c s
  | .cntClear c => Sys2Proof.Machine.execCntClear c s
  | .axlReplan c => Sys2Proof.Machine.execAxlReplan c s
  | .secAttest c => Sys2Proof.Machine.execSecAttest c s
  | .fwStage c => Sys2Proof.Machine.execFwStage c s
  | .fwStageDone kind => Sys2Proof.Machine.execFwStageDone kind s
  | .fwActivate c => Sys2Proof.Machine.execFwActivate c s
  | .fwActivateProceed => Sys2Proof.Machine.execFwActivateProceed s
  | .deferredTimeout => Sys2Proof.Machine.execDeferredTimeout s
  | .fwActivateDone => Sys2Proof.Machine.execFwActivateDone s
  | .activationRevert => Sys2Proof.Machine.execActivationRevert s
  | .disableDone f => Sys2Proof.Machine.execDisableDone f s
  | .drainDone f => Sys2Proof.Machine.execDrainDone f s
  | .quenchDone f => Sys2Proof.Machine.execQuenchDone f s
  | .stepTaggedRelease f => Sys2Proof.Machine.execStepTaggedRelease f s
  | .zcpSqtail f q value => Sys2Proof.Machine.execZcpSqtail f q value s
  | .zcpCqhead f q value => Sys2Proof.Machine.execZcpCqhead f q value s
  | .queueEnable f value => Sys2Proof.Machine.execQueueEnable f value s
  | .queueDisable f value => Sys2Proof.Machine.execQueueDisable f value s
  | .commandFetch f q slot => Sys2Proof.Machine.execCommandFetch f q slot s
  | .completionWrite f q => Sys2Proof.Machine.execCompletionWrite f q s
  | .registerWrite f offset size value => Sys2Proof.Machine.execRegisterWrite f offset size value s
  | .bar2Access f offset write r data => Sys2Proof.Machine.execBar2Access f offset write r data s
  | .gkoFlush f die => Sys2Proof.Machine.execGkoFlush f die s
  | .mxeSelftest core => Sys2Proof.Machine.execMxeSelftest core s
  | .chnPrepass f => Sys2Proof.Machine.execChnPrepass f s
  | .memIlvcfgPending f die value => Sys2Proof.Machine.execMemIlvcfgPending f die value s
  | .modCompatWrite f value => Sys2Proof.Machine.execModCompatWrite f value s
  | .axlModeWrite f die value => Sys2Proof.Machine.execAxlModeWrite f die value s
  | .portEnable port => Sys2Proof.Machine.execPortEnable port s
  | .portDisable port => Sys2Proof.Machine.execPortDisable port s
  | .retrain port => Sys2Proof.Machine.execRetrain port s
  | .fabPortEpWrite f value => Sys2Proof.Machine.execFabPortEpWrite f value s
  | .cntNotecfgWrite f value => Sys2Proof.Machine.execCntNotecfgWrite f value s
  | .jrnSelWrite value => Sys2Proof.Machine.execJrnSelWrite value s
  | .memHostresWrite f die value => Sys2Proof.Machine.execMemHostresWrite f die value s
  | .memGrantctlWrite f value => Sys2Proof.Machine.execMemGrantctlWrite f value s
  | .cntValrcRead f => Sys2Proof.Machine.execCntValrcRead f s
  | .vecRngstatRead core => Sys2Proof.Machine.execVecRngstatRead core s
  | .softStart => Sys2Proof.Machine.execSoftStart s
  | .pwrGood => Sys2Proof.Machine.execPwrGood s
  | .hotSwapOff cause => Sys2Proof.Machine.execHotSwapOff cause s
  | .perstAssert => Sys2Proof.Machine.execPerstAssert s
  | .perstDeassert => Sys2Proof.Machine.execPerstDeassert s
  | .romBoot => Sys2Proof.Machine.execRomBoot s
  | .overlayVerify => Sys2Proof.Machine.execOverlayVerify s
  | .diePowerUp => Sys2Proof.Machine.execDiePowerUp s
  | .pcieLinkUp => Sys2Proof.Machine.execPcieLinkUp s
  | .memoryInit => Sys2Proof.Machine.execMemoryInit s
  | .zcpReady t => Sys2Proof.Machine.execZcpReady t s
  | .fullSelftestDone => Sys2Proof.Machine.execFullSelftestDone s
  | .pcieLinkReset e => Sys2Proof.Machine.execPcieLinkReset e s
  | .functionLevelReset f => Sys2Proof.Machine.execFunctionLevelReset f s
  | .configRequest r => Sys2Proof.Machine.execConfigRequest r s
  | .fabRefclkLoss => Sys2Proof.Machine.execFabRefclkLoss s
  | .entdaa address => Sys2Proof.Machine.execEntdaa address s
  | .setEndpointId eid => Sys2Proof.Machine.execSetEndpointId eid s
  | .getEndpointId => Sys2Proof.Machine.execGetEndpointId s
  | .getMctpVersionSupport => Sys2Proof.Machine.execGetMctpVersionSupport s
  | .getMessageTypeSupport => Sys2Proof.Machine.execGetMessageTypeSupport s
  | .sidebandSubmission f slot => Sys2Proof.Machine.execSidebandSubmission f slot s
  | .sidebandWindowWrite f offset data => Sys2Proof.Machine.execSidebandWindowWrite f offset data s
  | .sidebandWindowRead f offset len => Sys2Proof.Machine.execSidebandWindowRead f offset len s
  | .sidebandRegRead f offset => Sys2Proof.Machine.execSidebandRegRead f offset s
  | .sidebandRegWrite f offset value => Sys2Proof.Machine.execSidebandRegWrite f offset value s
  | .extest pins => Sys2Proof.Machine.execExtest pins s
  | .idcode => Sys2Proof.Machine.execIdcode s
  | .samplePreload pins => Sys2Proof.Machine.execSamplePreload pins s
  | .extestPulse pins => Sys2Proof.Machine.execExtestPulse pins s
  | .extestTrain pins => Sys2Proof.Machine.execExtestTrain pins s
  | .clamp => Sys2Proof.Machine.execClamp s
  | .highz => Sys2Proof.Machine.execHighz s
  | .challenge => Sys2Proof.Machine.execChallenge s
  | .unlock token => Sys2Proof.Machine.execUnlock token s
  | .dbgStatus => Sys2Proof.Machine.execDbgStatus s
  | .procSel value => Sys2Proof.Machine.execProcSel value s
  | .procHalt => Sys2Proof.Machine.execProcHalt s
  | .procRun => Sys2Proof.Machine.execProcRun s
  | .procStep => Sys2Proof.Machine.execProcStep s
  | .procReg number write data => Sys2Proof.Machine.execProcReg number write data s
  | .memAddr address => Sys2Proof.Machine.execMemAddr address s
  | .memData write data => Sys2Proof.Machine.execMemData write data s
  | .regAccess offset write data => Sys2Proof.Machine.execRegAccess offset write data s
  | .scanSel value => Sys2Proof.Machine.execScanSel value s
  | .scanShift bits => Sys2Proof.Machine.execScanShift bits s
  | .scanLen => Sys2Proof.Machine.execScanLen s
  | .bypass bit => Sys2Proof.Machine.execBypass bit s
  | .tapReset => Sys2Proof.Machine.execTapReset s
  | .flitTransmit port => Sys2Proof.Machine.execFlitTransmit port s
  | .flitReceive port flit => Sys2Proof.Machine.execFlitReceive port flit s
  | .retry port seq => Sys2Proof.Machine.execRetry port seq s
  | .retryLimit port => Sys2Proof.Machine.execRetryLimit port s
  | .linkTrainDone port p => Sys2Proof.Machine.execLinkTrainDone port p s
  | .linkTrainTimeout port => Sys2Proof.Machine.execLinkTrainTimeout port s
  | .deliveryAck f src seq => Sys2Proof.Machine.execDeliveryAck f src seq s
  | .e2eRetransmit f dest seq => Sys2Proof.Machine.execE2eRetransmit f dest seq s
  | .peerMemRequest f m => Sys2Proof.Machine.execPeerMemRequest f m s
  | .peerMemResponse f aperture data => Sys2Proof.Machine.execPeerMemResponse f aperture data s
  | .peerAccessTimeout f aperture => Sys2Proof.Machine.execPeerAccessTimeout f aperture s
  | .memGrantRequest f peer gib => Sys2Proof.Machine.execMemGrantRequest f peer gib s
  | .memGrantReply f peer gib => Sys2Proof.Machine.execMemGrantReply f peer gib s
  | .chorusContribution f m => Sys2Proof.Machine.execChorusContribution f m s
  | .segmentContribution f m => Sys2Proof.Machine.execSegmentContribution f m s
  | .ack f m => Sys2Proof.Machine.execAck f m s
  | .sent f m => Sys2Proof.Machine.execSent f m s
  | .chorusWindowExpire f => Sys2Proof.Machine.execChorusWindowExpire f s
  | .mask f m => Sys2Proof.Machine.execMask f m s
  | .chorusOwnerAddDone f shard sumFail again a => Sys2Proof.Machine.execChorusOwnerAddDone f shard sumFail again a s
  | .chorusResult f m => Sys2Proof.Machine.execChorusResult f m s
  | .rereq f m => Sys2Proof.Machine.execRereq f m s
  | .evict f m => Sys2Proof.Machine.execEvict f m s
  | .chorusOrphanTimeout f rank => Sys2Proof.Machine.execChorusOrphanTimeout f rank s
  | .rowRequest f q => Sys2Proof.Machine.execRowRequest f q s
  | .poolRequest f q => Sys2Proof.Machine.execPoolRequest f q s
  | .rowReply f m => Sys2Proof.Machine.execRowReply f m s
  | .partialReply f m => Sys2Proof.Machine.execPartialReply f m s
  | .gradient f m => Sys2Proof.Machine.execGradient f m s
  | .endMark f m => Sys2Proof.Machine.execEndMark f m s
  | .resend f m => Sys2Proof.Machine.execResend f m s
  | .geckoHalve die => Sys2Proof.Machine.execGeckoHalve die s
  | .move f m => Sys2Proof.Machine.execMove f m s
  | .reserve f m => Sys2Proof.Machine.execReserve f m s
  | .reserveAck f m => Sys2Proof.Machine.execReserveAck f m s
  | .copy f m => Sys2Proof.Machine.execCopy f m s
  | .migrationRoundEnd f table row => Sys2Proof.Machine.execMigrationRoundEnd f table row s
  | .finalCopy f m => Sys2Proof.Machine.execFinalCopy f m s
  | .fwdWrite f m => Sys2Proof.Machine.execFwdWrite f m s
  | .locUpdate f m => Sys2Proof.Machine.execLocUpdate f m s
  | .fwdEnd f m => Sys2Proof.Machine.execFwdEnd f m s
  | .fwdFetch f m => Sys2Proof.Machine.execFwdFetch f m s
  | .fwdReply f m => Sys2Proof.Machine.execFwdReply f m s
  | .fwdGrad f m => Sys2Proof.Machine.execFwdGrad f m s
  | .phaseComplete f ahead => Sys2Proof.Machine.execPhaseComplete f ahead s
  | .staggerStart die cluster => Sys2Proof.Machine.execStaggerStart die cluster s
  | .descriptorComplete f ahead index r => Sys2Proof.Machine.execDescriptorComplete f ahead index r s
  | .stepComplete f => Sys2Proof.Machine.execStepComplete f s
  | .stepSizeWaitExpire f => Sys2Proof.Machine.execStepSizeWaitExpire f s
  | .tileStart core => Sys2Proof.Machine.execTileStart core s
  | .stationaryFillDone core => Sys2Proof.Machine.execStationaryFillDone core s
  | .tileCommit core r => Sys2Proof.Machine.execTileCommit core r s
  | .columnSelftestDone core failing => Sys2Proof.Machine.execColumnSelftestDone core failing s
  | .sparseTileCommit core r => Sys2Proof.Machine.execSparseTileCommit core r s
  | .skinkSliceDone die cluster parity => Sys2Proof.Machine.execSkinkSliceDone die cluster parity s
  | .progressMonitorFire u => Sys2Proof.Machine.execProgressMonitorFire u s
  | .clockMonitorFire sc => Sys2Proof.Machine.execClockMonitorFire sc s
  | .regulatorMonitorFire die => Sys2Proof.Machine.execRegulatorMonitorFire die s
  | .replanDone => Sys2Proof.Machine.execReplanDone s
  | .watchdogFire p => Sys2Proof.Machine.execWatchdogFire p s
  | .processorRestartDone p => Sys2Proof.Machine.execProcessorRestartDone p s
  | .backgroundSelftest r pass columns => Sys2Proof.Machine.execBackgroundSelftest r pass columns s
  | .patrolScrub address o => Sys2Proof.Machine.execPatrolScrub address o s
  | .twinRebuildDone die => Sys2Proof.Machine.execTwinRebuildDone die s
  | .axlSample die slack => Sys2Proof.Machine.execAxlSample die slack s
  | .axolotlPlan die marginal => Sys2Proof.Machine.execAxolotlPlan die marginal s
  | .sensorWindow die w => Sys2Proof.Machine.execSensorWindow die w s
  | .capLoopPeriod inputW => Sys2Proof.Machine.execCapLoopPeriod inputW s
  | .inputCurrentLimit dies => Sys2Proof.Machine.execInputCurrentLimit dies s
  | .overcapTimeout => Sys2Proof.Machine.execOvercapTimeout s
  | .thermalClamp die logic vaults => Sys2Proof.Machine.execThermalClamp die logic vaults s
  | .clampRelease die => Sys2Proof.Machine.execClampRelease die s
  | .thermalTrip die => Sys2Proof.Machine.execThermalTrip die s
  | .emergencyEnd die => Sys2Proof.Machine.execEmergencyEnd die s
  | .droopDetect die cluster => Sys2Proof.Machine.execDroopDetect die cluster s
  | .droopEnd die cluster cycles => Sys2Proof.Machine.execDroopEnd die cluster cycles s
  | .phLow die => Sys2Proof.Machine.execPhLow die s
  | .reedwayZcpCommand f endpoint port slot => Sys2Proof.Machine.execReedwayZcpCommand f endpoint port slot s
  | .routedRowWrite f m => Sys2Proof.Machine.execRoutedRowWrite f m s
  | .linkPartnerTraining port => Sys2Proof.Machine.execLinkPartnerTraining port s
  | .operandStoreFillDone core => Sys2Proof.Machine.execOperandStoreFillDone core s

end Sys2Proof.Machine
end

