-- ==== Sys2Proof/Safety.lean ====
section
/-!
DEFINITION. What claims about the machine are stated in: the shape every state of the machine has, the invariant that every step
keeps, and what it means that one state follows another without a module reset.
-/
namespace Sys2Proof.Machine

/-- How many functions, dies, clusters, cores, ports and processor kinds there are (R13, R18, R23, Table 17.1). -/
def State.shape (s : State) : List Nat :=
  [s.funcs.length, s.dies.length, s.clusters.length, s.cores.length, s.ports.length, s.fw.length]

/-- The invariant: device memory is in its canonical form, and the module has the units of Table 1.1. -/
def State.Inv (s : State) : Prop := Memory.wf s.mem = true ∧ s.shape = [4, 4, 80, 640, 24, 4]

/-- The flash images of every kind: the active overlay and the one it replaced (R384). -/
def State.flash (s : State) : List (Option Image × Option Image) := s.fw.map fun k => (k.active, k.previous)

/-- A run is safe when every command of it is answered by a next state: nothing stops the module (R381). -/
def answers (c : Instr) (s : State) : Prop := ∃ t, exec c s = .next t

/-- `t` is the module at t0 of a reset of `s` (R8, R31, R430, R443): the presentation and the pins to come are in force, everything that
a reset clears is at its reset value, and the configuration record, the fuses, the rollback counter and the flash are kept. -/
def State.restarted (s t : State) : Prop :=
  t.cfg = s.cfg ∧ t.fuses = s.fuses ∧ t.sec = Security.reset s.sec.arCount ∧ t.flash = s.flash ∧
    (t.quad = true ↔ s.cfg.present = 1) ∧ t.zcpPin = s.cfg.zcpPin ∧ t.rwPin = s.cfg.rwPin ∧ t.ready = false ∧ t.boot.done = 0 ∧
    t.mem = [] ∧ t.act = none ∧ t.journal = Journal.reset ∧ t.pcie = ⟨false, false, List.replicate 4 (ConfigSpace.reset t.quad)⟩ ∧
    t.side = ⟨none, 0, false, 0, s.side.slotId⟩ ∧
    t.shape = [4, 4, 80, 640, 24, s.fw.length] ∧
    (∀ g, g ∈ t.funcs → g = Func.reset (if s.cfg.present = 1 then 16 else 64)) ∧
    (∀ p, p ∈ t.ports → p = Port.reset) ∧ ∀ k, k ∈ t.fw → k.staged = none ∧ k.running = none

/-! ## Commands of the ZCP -/

/-- The command that a row sends: it carries the row's opcode, and names function 0 where there is one function. -/
def State.sent (s : State) (op : Nat) (c : Submission) : Submission := { c with opcode := op, func := if s.quad then c.func else 0 }

/-- The state that the header of a command is checked in (R360, R367). -/
def State.touched (s : State) (c : Submission) : State := s.modFunc c.func (·.touchPeer c.src)

/-- Whether a command starts when its row comes (R363 to R369, R388): it has been fetched and is the next to start, or a release has
let it go in its turn, or it comes from its source, passes the checks of its header, and nothing holds it or stands before it. -/
def State.starts (s : State) (op : Nat) (c : Submission) : Bool :=
  let c := s.sent op c
  let g := s.func c.func
  let t := s.touched c
  s.ready && c.func < 4 &&
    (if g.fetched.contains c then g.nextStart s.execWaits = some c && (s.versionFail c).isNone && !g.holds c
    else if g.released.contains c then s.nextReleased s.execWaits c.func = some c
    else !g.held.contains c && (t.headerFail c).isNone && (t.versionFail c).isNone && !g.holds c && !g.blocked g.fetched c && !t.execWaits c)

/-- The state in which its effect begins: it has left the list it waited in, and an urgent command has been counted (R363). -/
def State.begun (s : State) (op : Nat) (c : Submission) : State :=
  let c := s.sent op c
  let g := s.func c.func
  let t :=
    if g.fetched.contains c then s.modFunc c.func fun g => { g with fetched := eraseOne c g.fetched }
    else if g.released.contains c then s.modFunc c.func fun g => { g with released := eraseOne c g.released }
    else s.touched c
  if urgent c then t.cntMod c.func 20 else t

/-! ## The built-in function tables -/

/-- The function of a built-in table, as the relation of an argument and its value (Table 9.6). -/
def builtinIs (slot : Nat) (x y : ℝ) : Prop :=
  match slot with
  | 1 => y = max x 0
  | 2 => y = x / (1 + Real.exp (-x))
  | 3 => y = x / 2 * (1 + 2 / Real.sqrt Real.pi * ∫ t in (0 : ℝ)..(x / Real.sqrt 2), Real.exp (-(t ^ 2)))
  | 4 => y = Real.tanh x
  | 5 => y = 1 / (1 + Real.exp (-x))
  | 6 => y = Real.log (1 + Real.exp x)
  | 7 => y = Real.log (Real.exp x / 2 + 1 / 2)
  | 8 => y = (Real.cos (Real.pi * x) + 1) / 2
  | _ => False

/-- The interpolation error of Table 9.6 as a power of two; that of ReLU is 0 (`reluCoeff` is exact). -/
def builtinError : Nat → Int
  | 4 => -28
  | 5 => -29
  | 8 => -30
  | _ => -27

/-- `x` is an FP32 value nearest to the real `r`. -/
def nearest32 (x : F32) (r : ℝ) : Prop :=
  match f32 x with
  | .fin n m e => |((sgnd n m : Int) : ℝ) * (2 : ℝ) ^ e - r| ≤ (2 : ℝ) ^ (e - 1)
  | _ => False

/-- What Table 9.6 says of VAL in tables 2 to 8: each segment's coefficients are the FP32 values of a cubic that stays within the table's
interpolation error of the function. DEDUCED (log 6): the error is that of the cubic before its coefficients are stored, since an FP32
c0 of magnitude 4 is already up to 2^-22 away from a value. A claim about what a built-in table computes takes this as a hypothesis:
the coefficients are free values of Config. -/
def BuiltinsFit : Prop :=
  ∀ slot seg : Nat, 2 ≤ slot → slot ≤ 8 → seg < 4096 → ∃ r : Nat → ℝ,
    (∀ k, k < 4 → nearest32 (Config.builtinCoeff slot 0 seg k) (r k)) ∧
      ∀ u x y : ℝ, 0 ≤ u → u < 1 →
        x = ((dyOf (builtinTable slot).lo).1 : ℝ) * (2 : ℝ) ^ (dyOf (builtinTable slot).lo).2 +
          ((seg : ℝ) + u) * (2 : ℝ) ^ (builtinTable slot).hexp →
        builtinIs slot x y → |r 0 + u * (r 1 + u * (r 2 + u * r 3)) - y| ≤ (2 : ℝ) ^ builtinError slot

end Sys2Proof.Machine
end

