-- ==== Sys2Proof/WellFormed.lean ====
section
/-!
DEFINITION. Which operands exist: the numbers of dies, clusters, cores, ports, queues and functions (R13 to R18, R23), the widths of
header and message fields (Tables 5.3, 6.6, 11.2, 16.2), and the lengths of slots, flits and tokens. The machine is total without
it: a command that is not well-formed leaves the state as it is, or is turned away as the rule of its field says.
-/
namespace Sys2Proof

/-- A value that fits in `w` bits. -/
def fits (w n : Nat) : Bool := n < 2 ^ w

/-! ## Places (R13 to R18, R23) -/

def dieOk (d : Nat) : Bool := d < 4
def clusterOk (d c : Nat) : Bool := d < 4 && c < 20
def coreOk (i : Nat) : Bool := i < 640
def portOk (p : Nat) : Bool := p < 24
/-- Ports, then die-to-die links as 24 + 3 × die + link. -/
def lineOk (p : Nat) : Bool := p < 36
def funcOk (f : Nat) : Bool := f < 4
def queueOk (q : Nat) : Bool := q < 64

def EngineUnit.wf : EngineUnit → Bool
  | .matrix i | .sparse i | .vector i | .loadStore i => coreOk i
  | .skink d c | .bellows d c => clusterOk d c
  | .chanter d => dieOk d

def Scope.wf : Scope → Bool
  | .core i => coreOk i
  | .cluster d c => clusterOk d c
  | .die d => dieOk d

/-- Security cores stand on dies 0 and 1 (Table 17.1). -/
def Proc.wf : Proc → Bool
  | .security d => d < 2
  | .power d | .scheduler d => dieOk d
  | .control d c => clusterOk d c

def Resource.wf : Resource → Bool
  | .array i | .drains i | .sparse i | .vector i | .coreStore i => coreOk i
  | .clusterBuffer d c | .skink d c => clusterOk d c
  | .gecko d | .monitors d => dieOk d
  | .port n => portOk n
  | .link d l => dieOk d && l < 3
  | .standby => true

/-! ## Submissions (R359, R366, Table 16.2) -/

def Src.wf : Src → Bool
  | .queue q => queueOk q
  | .peer e p => fits 64 e && portOk p
  | .sideband => true
  | .host => false

/-- Header fields fit their widths; bytes 24 to 63 and the parameter area have their lengths. -/
def Submission.wf (c : Submission) : Bool :=
  c.src.wf && funcOk c.func && fits 16 c.opcode && fits 8 c.version && fits 32 c.tag && fits 32 c.paramLen && fits 4 c.dieMask &&
    fits 20 c.cluMask && fits 64 c.step && c.small.length = 40 && c.params.length = min c.paramLen 448

/-! ## Messages -/

/-- Table 5.3, R120, R123. -/
def BellowsMsg.wf (m : BellowsMsg) : Bool :=
  m.kind < 7 && fits 8 m.op && fits 8 m.fmt && fits 16 m.table && fits 16 m.owner && fits 32 m.req && m.cluster < 20 &&
    fits 16 m.desc && fits 32 m.entry && fits 32 m.count && fits 64 m.step && m.rows.all (fits 64) && m.winners.all (fits 64)

/-- Table 6.6. -/
def TableMsg.wf (m : TableMsg) : Bool :=
  m.kind < 11 && fits 8 m.table && fits 16 m.oldOwner && fits 16 m.newOwner && fits 64 m.row && fits 8 m.shard && fits 24 m.slot &&
    fits 16 m.version && fits 64 m.step

/-- Table 11.2. -/
def ChorusMsg.wf (m : ChorusMsg) : Bool :=
  m.kind < 8 && fits 8 m.fmt && fits 32 m.groupTag && fits 64 m.step && fits 16 m.rank && fits 16 m.subject && fits 32 m.shard &&
    fits 32 m.elems && fits 8 m.pgroup && fits 64 m.checksum && fits 16 m.participating && fits 64 m.maskSum

/-- R314. -/
def PeerMem.wf (m : PeerMem) : Bool := 0 < m.len && (!m.write || m.data.length = m.len)

/-- R315: host writes of a row come as an element range. -/
def RoutedRow.wf (m : RoutedRow) : Bool := fits 8 m.table && fits 32 m.count && fits 32 m.tag

/-! ## Readings -/

def SelfTest.wf (t : SelfTest) : Bool :=
  t.dies.all dieOk && t.clusters.all (fun x => clusterOk x.1 x.2) && t.vaults.all (fun x => clusterOk x.1 x.2) && t.cores.all coreOk &&
    t.columns.all (fun x => coreOk x.1 && x.2.all (· < 264)) && t.ports.all portOk && t.links.all (fun x => dieOk x.1 && x.2 < 3) &&
    fits 32 t.readyMs

def EccLine.wf (x : EccLine) : Bool := x.address % 64 = 0

def VecReport.wf (r : VecReport) : Bool := (r.fails.all fun x => coreOk x.1) && r.combiners.all fun x => dieOk x.1 && x.2.1 < 20

/-- One reading per cluster and per vault (R320). -/
def Window.wf (w : Window) : Bool := w.logic.length = 20 && w.dram.length = 20 && w.nulls.all fun x => x.1 < 160

def Current.wf : Current → Bool
  | .input _ => true
  | .rail d _ => d < 4

def Partner.wf (p : Partner) : Bool := fits 64 p.ident && p.credits.length = 8 && p.lanesRev < 16

/-! ## Commands -/

/-- Whether the operands of a command exist. -/
def Instr.wf : Instr → Bool
  | .zcpHello c | .modPresent c | .quench c | .disable c | .enable c | .drain c | .drainRelease c | .timeProbe c | .tblCreate c
  | .tblWriteRows c | .tblReplaceRows c | .tblMigrate c | .graphLoad c | .skkConfig c | .planLoad c | .stepRun c | .ftblLoad c
  | .collGroup c | .collEvict c | .updProgram c | .updStepSize c | .updFreeze c | .pwrCap c | .pwrMode c | .fltQuery c | .cntRead c
  | .cntClear c | .axlReplan c | .secAttest c | .fwStage c | .fwActivate c => c.wf
  | .tblCreateDone f t | .tblMigrateDone f t => funcOk f && fits 8 t
  | .graphLoadDone f k => funcOk f && k < 16
  | .fwStageDone k => fits 8 k
  | .fwActivateProceed | .deferredTimeout | .fwActivateDone | .activationRevert => true
  | .disableDone f | .drainDone f | .quenchDone f | .stepTaggedRelease f => funcOk f
  | .zcpSqtail f q _ | .zcpCqhead f q _ => funcOk f && queueOk q
  | .queueEnable f _ | .queueDisable f _ => funcOk f
  | .commandFetch f q slot => funcOk f && queueOk q && slot.length = 512
  | .completionWrite f q => funcOk f && queueOk q
  | .registerWrite f _ _ _ => funcOk f
  | .bar2Access f _ w r data => funcOk f && (!w || data.length = r.len) && r.memory.all (·.wf)
  | .gkoFlush f d => funcOk f && dieOk d
  | .mxeSelftest i => coreOk i
  | .chnPrepass f => funcOk f
  | .memIlvcfgPending f d _ | .axlModeWrite f d _ | .memHostresWrite f d _ => funcOk f && dieOk d
  | .modCompatWrite f _ | .fabPortEpWrite f _ | .cntNotecfgWrite f _ | .memGrantctlWrite f _ => funcOk f
  | .portEnable p | .portDisable p | .retrain p => portOk p
  | .jrnSelWrite _ => true
  | .cntValrcRead f => funcOk f
  | .vecRngstatRead i => coreOk i
  | .softStart | .pwrGood | .hotSwapOff _ | .perstAssert | .perstDeassert | .romBoot | .overlayVerify | .diePowerUp | .pcieLinkUp
  | .memoryInit => true
  | .zcpReady t => t.wf
  | .fullSelftestDone | .pcieLinkReset _ | .fabRefclkLoss => true
  | .functionLevelReset f => funcOk f
  | .configRequest r => funcOk r.func
  | .entdaa a => a < 128
  | .setEndpointId e => fits 8 e
  | .getEndpointId | .getMctpVersionSupport | .getMessageTypeSupport => true
  | .sidebandSubmission f slot => funcOk f && slot.length = 512
  | .sidebandWindowWrite f _ data => funcOk f && data.length ≤ 65000
  | .sidebandWindowRead f _ n => funcOk f && n ≤ 65000
  | .sidebandRegRead f _ | .sidebandRegWrite f _ _ => funcOk f
  | .extest _ | .idcode | .samplePreload _ | .extestPulse _ | .extestTrain _ | .clamp | .highz | .challenge => true
  | .unlock t => t.length = 3152
  | .dbgStatus | .procHalt | .procRun | .procStep => true
  | .procSel v => fits 16 v
  | .procReg n _ _ => fits 8 n
  | .memAddr a => fits 52 a && a % 8 = 0
  | .memData _ _ => true
  | .regAccess o _ _ => fits 26 o
  | .scanSel v => fits 32 v
  | .scanShift _ | .scanLen | .bypass _ | .tapReset => true
  | .flitTransmit p => portOk p
  | .flitReceive p b => portOk p && b.bytes.length = 256
  | .retry p q => lineOk p && fits 16 q
  | .retryLimit p | .linkTrainTimeout p => lineOk p
  | .linkTrainDone p x => portOk p && x.wf
  | .deliveryAck f e q | .e2eRetransmit f e q => funcOk f && fits 64 e && fits 32 q
  | .peerMemRequest f m => funcOk f && m.wf
  | .peerMemResponse f a _ | .peerAccessTimeout f a => funcOk f && a < 256
  | .memGrantRequest f e _ | .memGrantReply f e _ => funcOk f && fits 64 e
  | .chorusContribution f m | .segmentContribution f m | .ack f m | .sent f m | .mask f m | .chorusResult f m | .rereq f m
  | .evict f m => funcOk f && m.wf
  | .chorusWindowExpire f => funcOk f
  | .chorusOwnerAddDone f _ _ _ a => funcOk f && coreOk a.core && a.lanes.wf
  | .chorusOrphanTimeout f r => funcOk f && fits 16 r
  | .rowRequest f q | .poolRequest f q => funcOk f && q.msg.wf && q.memory.all (·.wf)
  | .rowReply f m | .partialReply f m | .gradient f m | .endMark f m | .resend f m =>
    funcOk f && m.wf
  | .geckoHalve d => dieOk d
  | .move f m | .reserve f m | .reserveAck f m | .copy f m | .finalCopy f m | .fwdWrite f m | .locUpdate f m | .fwdEnd f m
  | .fwdFetch f m | .fwdReply f m | .fwdGrad f m => funcOk f && m.wf
  | .migrationRoundEnd f t _ => funcOk f && fits 8 t
  | .phaseComplete f _ | .stepSizeWaitExpire f => funcOk f
  | .stepComplete e => funcOk e.func && e.lanes.wf && e.memory.all (·.wf)
  | .staggerStart d c | .droopDetect d c | .skinkSliceDone d c _ => clusterOk d c
  | .droopEnd d c _ => clusterOk d c
  | .descriptorComplete f _ _ r => funcOk f && r.lanes.wf && r.memory.all (·.wf)
  | .tileStart i | .stationaryFillDone i | .operandStoreFillDone i => coreOk i
  | .tileCommit i _ => coreOk i
  | .columnSelftestDone i cols => coreOk i && cols.all (· < 264)
  | .sparseTileCommit i _ => coreOk i
  | .progressMonitorFire u => u.wf
  | .clockMonitorFire sc => sc.wf
  | .regulatorMonitorFire d => dieOk d
  | .replanDone | .overcapTimeout => true
  | .watchdogFire p | .processorRestartDone p => p.wf
  | .backgroundSelftest r _ _ => r.wf
  | .patrolScrub a _ => a % 64 = 0
  | .twinRebuildDone d | .clampRelease d | .thermalTrip d | .emergencyEnd d | .phLow d => dieOk d
  | .axlSample d l => dieOk d && l.length = 64
  | .axolotlPlan d m => dieOk d && m.all fun x => coreOk x.1
  | .sensorWindow d w => dieOk d && w.wf
  | .capLoopPeriod _ => true
  | .inputCurrentLimit m => m.wf
  | .thermalClamp d _ vs => dieOk d && vs.all (· < 20)
  | .reedwayZcpCommand f e p slot => funcOk f && fits 64 e && portOk p && slot.length = 512
  | .routedRowWrite f m => funcOk f && m.wf
  | .linkPartnerTraining p => portOk p

end Sys2Proof
end

