-- ==== Sys2Proof/Certificates/Slice0/Obligations.lean ====
section
/-!
DEFINITION. What is to be proved about the machine. First the rules that hold of every command, then, family by family, what each
command does when the conditions for it are met.
-/
open Sys2Proof Sys2Proof.Machine

/-! ## The whole machine -/

/-- The command at the front of the queue runs on the state with the rest of the queue. -/
def Obligations.StepRunsTheFrontCommand : Prop :=
  ∀ (s : State) (c : Instr) (rest : List Instr), s.pending = c :: rest → step s = exec c { s with pending := rest }

/-- With no command waiting, a step is one count of every time source (the model's choice: log 10). -/
def Obligations.IdleStepIsOneCount : Prop :=
  ∀ s : State, s.pending = [] → ∃ t, step s = .next t ∧ t = { s with clk := t.clk, dies := t.dies } ∧
    t.clk = (s.clk + 1) % 2 ^ 64 ∧ t.dies.length = s.dies.length ∧
    ∀ d, t.die d = if (s.die d).powered then { s.die d with clk := ((s.die d).clk + 1) % 2 ^ 64 } else s.die d

/-- R381: no command stops the module, and none takes another out of the queue. -/
def Obligations.EveryCommandAnswers : Prop :=
  ∀ (c : Instr) (s : State), ∃ t, exec c s = .next t ∧ t.pending = s.pending

/-- The invariant of the machine: device memory is in its canonical form, and there are the units of Table 1.1. -/
def Obligations.StepKeepsInvariant : Prop := ∀ s t : State, s.Inv → step s = .next t → t.Inv

/-- It holds at reset. -/
def Obligations.ResetMeetsInvariant : Prop := State.reset.Inv

/-- R400, R443: no step changes a fuse, and the rollback counter never falls. -/
def Obligations.RollbackCounterNeverFalls : Prop :=
  ∀ s t : State, step s = .next t → t.fuses = s.fuses ∧ s.sec.arCount ≤ t.sec.arCount

/-- R31, R356: outside a module reset the presentation and the pins in force stand. R29, R31: MOD_PRESENT alone changes the
presentation to come. -/
def Obligations.PresentationStandsUntilReset : Prop :=
  (∀ (c : Instr) (s t : State), exec c s = .next t → (c ≠ .pwrGood ∧ c ≠ .perstDeassert ∧ ∀ w, c ≠ .hotSwapOff w) →
     t.quad = s.quad ∧ t.zcpPin = s.zcpPin ∧ t.rwPin = s.rwPin) ∧
  (∀ (c : Instr) (s t : State), exec c s = .next t → (∀ x, c ≠ .modPresent x) → t.cfg.present = s.cfg.present)

/-- R20, R343: outside a module reset a removed die stays removed, and a core that is absent or retired stays so. -/
def Obligations.RemovedStaysRemoved : Prop :=
  ∀ (c : Instr) (s t : State), exec c s = .next t → (c ≠ .pwrGood ∧ c ≠ .perstDeassert ∧ ∀ w, c ≠ .hotSwapOff w) →
    (∀ d, (s.die d).lost = true → (t.die d).lost = true) ∧ ∀ i, (s.core i).state ≠ 1 → (t.core i).state = (s.core i).state

/-- R408, R410: outside a module reset, UNLOCK alone opens a debug scope, and no command closes one. A token that came while the
security core was stopped waits for it (Tables 17.1 and 17.4), so the scopes stand while no token waits. -/
def Obligations.OnlyUnlockOpensAScope : Prop :=
  ∀ (c : Instr) (s t : State), exec c s = .next t → (c ≠ .pwrGood ∧ c ≠ .perstDeassert ∧ ∀ w, c ≠ .hotSwapOff w) →
    ((∀ token, c ≠ .unlock token) → s.sec.tokens = [] → t.sec.scopes = s.sec.scopes ∧ t.sec.tokens = []) ∧
    ∀ k, bit s.sec.scopes k = true → bit t.sec.scopes k = true

/-- R384, R390, R392: what the flash holds changes with an activation and its revert alone. An activation
whose turn came while the security core was stopped writes at the restart of that core. R400: the rollback counter advances at the
end of an activation and at the verification of the overlays alone. -/
def Obligations.OnlyFirmwareWritesFlashAndCounter : Prop :=
  (∀ (c : Instr) (s t : State), exec c s = .next t → (∀ x, c ≠ .fwActivate x) → c ≠ .fwActivateProceed → c ≠ .activationRevert →
     (∀ p a, c = .processorRestartDone p → s.act = some a → a.stage ≠ 1) → t.flash = s.flash) ∧
  (∀ (c : Instr) (s t : State), exec c s = .next t → c ≠ .fwActivateDone → c ≠ .overlayVerify → t.sec.arCount = s.sec.arCount)

/-- R380: outside a module reset the sequence number of the change journal never goes back. -/
def Obligations.JournalNeverGoesBack : Prop :=
  ∀ (c : Instr) (s t : State), exec c s = .next t → (c ≠ .pwrGood ∧ c ≠ .perstDeassert ∧ ∀ w, c ≠ .hotSwapOff w) →
    s.journal.nextSeq ≤ t.journal.nextSeq

/-! ## Commands of the ZCP (chapter 16)

`s.starts op c` says that the command starts when its row comes, `s.begun op c` is the state in which its effect begins, and
`s.sent op c` is the command with the row's opcode. -/

/-- R372: ZCP_HELLO with an acceptable version negotiates it. R360: a new endpoint at the limit releases the oldest one first. R29, R32:
MOD_PRESENT writes the presentation to come and answers OK with the presentation in force and the one to come; a change goes into the
journal (R380) and, with the command, into the record of M5 (R403); the later of two values stands. R455: a probe is numbered, every time source that runs emits its record, and the command answers the
number. -/
def Obligations.ModuleCommandsTakeEffect : Prop :=
  (∀ (s : State) (c : Submission), s.starts 0x0001 c = true →
     let d := s.sent 0x0001 c
     let u := s.begun 0x0001 c
     let V := min d.version u.zcpHigh
     let r := u.modFunc d.func fun g => g.makeRoom (if u.quad then 1024 else 4096) d.src
     let t := r.modFunc d.func fun g => g.negotiate V d.src
     let result := leBytes 1 V ++ leBytes 1 u.zcpLow ++ leBytes 2 (t.func d.func).queues.length ++ leBytes 2 448 ++ zeros 2 ++
       leBytes 8 (t.modCap d.func).toNat
     exec (.zcpHello c) s =
       .next (if V < hb d 24 1 || V < u.zcpLow then r.single d stVersion
         else if (r.func d.func).version d.src = some V then t.single d stOk (leBytes 8 numCap.toNat) result
         else t.okJ d (leBytes 8 numCap.toNat) result)) ∧
  (∀ (s : State) (c : Submission), s.starts 0x0002 c = true → hb (s.sent 0x0002 c) 24 1 ≤ 1 →
     let d := s.sent 0x0002 c
     let u := s.begun 0x0002 c
     let w := { u with cfg := { u.cfg with present := hb d 24 1 } }
     let j := w.journalCmd d
     let detail := leBytes 1 (b2n u.quad) ++ leBytes 1 (hb d 24 1)
     exec (.modPresent c) s = .next (if u.cfg.present = hb d 24 1 then w.single d stOk detail
       else (j.1.measureConfig (srcCode d.src) j.2 (submissionImage d)).single d stOk detail [] j.2) ∧
     ∃ t, exec (.modPresent c) s = .next t ∧ t.cfg = { s.cfg with present := hb (s.sent 0x0002 c) 24 1 } ∧
       t.quad = s.quad ∧ t.cores = s.cores ∧ t.clusters = s.clusters ∧ t.fw = s.fw ∧ t.boot = s.boot) ∧
  (∀ (s : State) (c : Submission), s.starts 0x0013 c = true →
     let d := s.sent 0x0013 c
     let u := s.begun 0x0013 c
     let n := u.probe + 1
     exec (.timeProbe c) s = .next (((((List.range 4).filter u.up).foldl (fun s e => State.emit s e 3 0 n 0) { u with probe := n }).emit
       15 3 0 n 0).single d stOk [] (leBytes 8 n)))

/-- R377, R378, R379: QUENCH stops the step in work and waits; DISABLE turns units off and waits; ENABLE turns units on, DRAIN
requests the boundary and waits, a release lets the engines go on. -/
def Obligations.StopCommandsTakeEffect : Prop :=
  ∀ (s : State) (c : Submission),
    (s.starts 0x0010 c = true →
      let d := s.sent 0x0010 c
      let u := s.begun 0x0010 c
      ((u.func d.func).activePlan = none → exec (.quench c) s = .next (u.single d stOk)) ∧
      ∀ x, (u.func d.func).activePlan = some x → ∃ t, exec (.quench c) s = .next t ∧
        (∀ st, (u.func d.func).cur = some st → d.func < s.funcs.length → ∃ st', (t.func d.func).cur = some st' ∧ st'.quenched = true)) ∧
    (s.starts 0x0011 c = true →
      let d := s.sent 0x0011 c
      let u := s.begun 0x0011 c
      let us := u.targetUnits d (hb d 24 1) (hb d 26 1)
      hb d 24 1 < 64 →
      (hb d 25 1 = 0 →
        let off := us.filter fun x => !u.isOff d.func x
        let v := off.foldl (fun s x => s.turnOff d.func x) (if off.isEmpty then u else u.stopMark d.func)
        exec (.disable c) s = .next (v.modFunc d.func fun g =>
          { g with stops := g.stops ++ [⟨d, us.filter fun x => !v.atBoundary d.func x, off.length, 0, 0⟩] })) ∧
      (hb d 25 1 = 1 →
        let on := (us.filter fun x => u.isOff d.func x).filter fun x => match x with
          | .sparse i => (u.core i).spe.state ≠ 3
          | .skink e k => !(u.clu e k).skink.failed
          | _ => true
        let v := on.foldl (fun s x => s.turnOn d.func x) u
        exec (.enable c) s = .next (if on.isEmpty then v.single d stOk (leBytes 4 0) else v.okJ d (leBytes 4 on.length)))) ∧
    (s.starts 0x0012 c = true →
      let d := s.sent 0x0012 c
      let u := s.begun 0x0012 c
      let cores := u.targetCores d (hb d 26 1)
      (hb d 24 1 = 0 →
        let ms := cores.filter fun i => (u.core i).mxe.canHold
        let es := cores.filter fun i => (u.core i).spe.canHold
        let v := cores.foldl (fun s i => (s.drainMxe i).drainSpe i) u
        exec (.drain c) s = .next (v.modFunc d.func fun g =>
          { g with stops := g.stops ++ [⟨d, ms.map EngineUnit.matrix ++ es.map EngineUnit.sparse, 0,
              b2n (ms.any (fun i => !(u.core i).mxe.drainHold) || es.any fun i => !(u.core i).spe.drainHold), 0⟩] })) ∧
      (hb d 24 1 = 1 →
        let held := cores.filter fun i => (u.core i).mxe.drainHold || (u.core i).spe.drainHold
        let v := held.foldl (fun s i => s.undrain i) u
        exec (.drainRelease c) s = .next (if held.isEmpty then v.single d stOk else v.okJ d)))

/-- R377 to R379, R369: the completions at the boundaries, and the end of a hold, after which a step that waited may begin. -/
def Obligations.StopEventsComplete : Prop :=
  ∀ (s : State) (f : Nat) (j : StopJob),
    ((s.func f).stopReady 0x0011 (fun j => j.units.all (s.atBoundary f)) = some j →
      exec (.disableDone f) s = .next (if j.count = 0 then (s.dropStop f j).single j.sub stOk (leBytes 4 j.count)
        else (s.dropStop f j).okJ j.sub (leBytes 4 j.count))) ∧
    ((s.func f).stopReady 0x0012 (fun j => j.units.all s.drainedUnit) = some j →
      let held := leBytes 2 (j.units.filter s.holdsUnit).length
      exec (.drainDone f) s = .next (if j.step = 0 then (s.dropStop f j).single j.sub stOk held
        else (s.dropStop f j).okJ j.sub held)) ∧
    (((s.func f).stops.filter fun j => j.sub.opcode = 0x0010) = [j] →
      (((s.diesOf f).flatMap s.coresOf).all fun i => !((s.core i).mxe.selftest && (s.core i).mxe.state ≠ 6)) = true →
      exec (.quenchDone f) s = .next ((((s.quenchAll f true).dropStop f j).okJ j.sub []
        (leBytes 8 j.step ++ leBytes 2 (s.func f).accepted.length)).startSteps f)) ∧
    (f < s.funcs.length →
      let u := s.modFunc f fun g =>
        { g with held := g.held.filter g.holds, released := g.released ++ g.held.filter fun c => !g.holds c }
      exec (.stepTaggedRelease f) s = .next (u.startSteps f) ∧ ∀ g, g ≠ f → u.func g = s.func g)

/-- Table 16.7, R375, R437, R450: CNT_READ and FLT_QUERY write what they read and answer OK; CNT_CLEAR clears its counters. -/
def Obligations.CounterAndFaultCommands : Prop :=
  ∀ (s : State) (c : Submission),
    (s.starts 0x0702 c = true →
      let d := s.sent 0x0702 c
      let u := s.begun 0x0702 c
      let first := hb d 24 4
      let n := hb d 28 4
      1 ≤ n → n ≤ 4096 → first + n ≤ 327680 → u.outOk d (hb d 32 8) (8 * n) = true →
      exec (.cntRead c) s = .next (u.outSingle d (hb d 32 8)
        ((List.range n).flatMap fun i => leBytes 8 (u.ctrAt d.func (first + i))) (leBytes 8 u.clk))) ∧
    (s.starts 0x0703 c = true →
      let d := s.sent 0x0703 c
      let u := s.begun 0x0703 c
      let first := hb d 24 4
      let n := hb d 28 4
      let all := bit (hb d 40 1) 0
      (all = true ∨ 1 ≤ n ∧ n ≤ 4096 ∧ first + n ≤ 327680) →
      let v := u.modFunc d.func fun g => { g with ctrs := g.ctrs.filter fun x => !all && !(first ≤ x.1 && x.1 < first + n) }
      exec (.cntClear c) s = .next
        (if (v.func d.func).ctrs.length = (u.func d.func).ctrs.length then v.single d stOk else v.okJ d)) ∧
    (s.starts 0x0701 c = true →
      let d := s.sent 0x0701 c
      let u := s.begun 0x0701 c
      let n := hb d 26 2
      let x := u.die (u.physDie d.func (hb d 24 1))
      hb d 24 1 ≤ (if u.quad then 0 else 3) → 1 ≤ n → n ≤ 256 → u.outOk d (hb d 32 8) (32 * n) = true →
      u.up (u.physDie d.func (hb d 24 1)) = true →
      exec (.fltQuery c) s = .next (u.outSingle d (hb d 32 8)
        ((List.range n).flatMap fun i => match SMap.find ((hb d 25 1 + i) % 256) x.faults with | some r => r.bytes | none => zeros 32)
        (leBytes 2 n ++ leBytes 2 x.fltHead ++ leBytes 4 x.fltSeq)))

/-- R136, R137, R313: TBL_CREATE is accepted and its job is kept; with PEER_SPILL and no room for the shards, or with no room for the
working memory, the peers are asked for memory, one after another, and the command waits for them. R136, R137, R140: the end of TBL_CREATE. A parameter out of range answers reason 1, no room reason 2; otherwise the table is there, in place
of one of the same number. -/
def Obligations.TablesAreCreated : Prop :=
  (∀ (s : State) (c : Submission), s.starts 0x0101 c = true →
     let d := s.sent 0x0101 c
     let u := s.begun 0x0101 c
     let id := at' d.params 0 1
     d.paramLen = 64 → (u.func d.func).tableActive id = false →
     let v := (u.interim d stAccepted).modFunc d.func fun g => { g with jobs := g.jobs ++ [⟨d, id, false, 0, 0⟩] }
     let T := v.readTable d.func d.params
     let n := v.tableLacks d.func T
     exec (.tblCreate c) s = .next
       (if n = 0 then v else v.askPeers d.func (some d) 0 ((v.func d.func).askable T.modules T.myPos) n)) ∧
  (∀ (s : State) (f id : Nat) (j : AsyncJob), (s.func f).job 0x0101 id = some j → s.leadStops f = false →
     ((s.func f).asks.any fun a => a.sub = some j.sub && a.waits.isSome) = false →
     let u := (s.modFunc f fun g => { g with asks := g.asks.filter fun a => a.sub ≠ some j.sub }).endJob f j
     let T := u.readTable f j.sub.params
     (u.tableBad f T = true → exec (.tblCreateDone f id) s = .next (u.final j.sub stBadParam (leBytes 1 1))) ∧
     (u.tableBad f T = false → u.buildTable f (.table (256 + T.id)) T = none →
       exec (.tblCreateDone f id) s = .next (u.final j.sub stBadParam (leBytes 1 2))) ∧
     (u.tableBad f T = false → f < s.funcs.length → ∀ T' v, u.buildTable f (.table (256 + T.id)) T = some (T', v) →
       ∃ t, exec (.tblCreateDone f id) s = .next t ∧ (t.func f).table T'.id = some T'))

/-- R153, R154: TBL_WRITE_ROWS and TBL_REPLACE_ROWS read the rows and send each to its owner; a row outside the table is a violation
and is passed over. -/
def Obligations.RowCommandsRouteTheirRows : Prop :=
  ∀ (s : State) (c : Submission) (replace : Bool) (T : Table),
    let op := if replace then 0x0104 else 0x0103
    s.starts op c = true →
    let d := s.sent op c
    let u := s.begun op c
    let f := d.func
    let n := hb d 28 4
    let first := if replace then 0 else hb d 48 2
    let count := if replace then T.elems else hb d 50 2
    (u.func f).table (hb d 24 1) = some T → 1 ≤ n → n ≤ 2 ^ 20 → 1 ≤ count → first + count ≤ T.elems →
    let w := count * T.width
    let rows := (((List.range n).map fun i => fld (leNat (u.devRead f (hb d 32 8 + 8 * i) 8)) 0 40).zip
      ((List.range n).map fun i => u.devRead f (hb d 40 8 + w * i) w)).filter fun x => x.1 < T.rows
    let v := (u.cntClu ((u.upDies f).headD 0) 0 11 (n - rows.length)).violOor f (n - rows.length)
    let id := (v.func f).nextRowJob
    exec (if replace then .tblReplaceRows c else .tblWriteRows c) s = .next
      (if rows.isEmpty then v.single d stOk
      else rows.foldl (fun z x => State.routeRow z f T ⟨T.id, x.1, replace, first, count, x.2, some id⟩)
        (v.modFunc f fun g => { g with nextRowJob := id + 1, rowJobs := g.rowJobs ++ [⟨id, d, rows.length⟩] }))

/-- R152: TBL_MIGRATE is accepted and kept; its moves begin at once where no plan is active. It ends when the last move the host asked
for has ended, with both counts. -/
def Obligations.HostMigrationRuns : Prop :=
  ∀ (s : State) (c : Submission),
    (s.starts 0x0106 c = true →
      let d := s.sent 0x0106 c
      let u := s.begun 0x0106 c
      let j : AsyncJob := ⟨d, hb d 24 1, false, 0, 0⟩
      let v := (u.interim d stAccepted).modFunc d.func fun g => { g with jobs := g.jobs ++ [j] }
      exec (.tblMigrate c) s = .next
        (if (v.func d.func).accepted.isEmpty && !v.migrateBad d then v.startHostMoves d.func noStep j else v)) ∧
    ∀ (f table : Nat) (j : AsyncJob), (s.func f).job 0x0106 table = some j → s.leadStops f = false → j.started = true →
      ((s.func f).migs.any fun m => m.table = table && m.host) = false →
      ((s.func f).hostMoves.any fun m => m.1 = table) = false →
      exec (.tblMigrateDone f table) s = .next
        (((s.endJob f j).journalCmd j.sub).1.final j.sub stOk [] (leBytes 4 j.n1 ++ leBytes 4 j.n2) ((s.endJob f j).journalCmd j.sub).2)

/-- R89, R91: GRAPH_LOAD is accepted; when the data stands its checks, the graph is in its slot with its work area built. R224:
FTBL_LOAD keeps a table image whose signature verifies, with its key; one that does not verify is counted and denied. -/
def Obligations.GraphsAndFunctionTablesLoad : Prop :=
  (∀ (s : State) (c : Submission),
     (s.starts 0x0201 c = true →
       let d := s.sent 0x0201 c
       let u := s.begun 0x0201 c
       let slot := at' d.params 0 1
       d.paramLen = 64 → (u.func d.func).graphActive slot = false →
       exec (.graphLoad c) s = .next ((u.interim d stAccepted).modFunc d.func fun g => { g with jobs := g.jobs ++ [⟨d, slot, false, 0, 0⟩] })) ∧
     ∀ (f slot : Nat) (j : AsyncJob) (need parts : Nat), (s.func f).job 0x0201 slot = some j → s.leadStops f = false → slot < 16 → f < s.funcs.length →
       let u := s.endJob f j
       u.checkGraph f ⟨j.sub.params, 0⟩ = some (need, parts) →
       let G : Graph := ⟨j.sub.params, parts⟩
       (need = 0 ∨ need ≤ G.workBytes ∧ G.work % 4096 = 0 ∧ u.inMemory f G.work need = true) →
       let v := (u.buildWork f G).modFunc f fun h => { h with graphs := h.graphs.set slot (some G) }
       exec (.graphLoadDone f slot) s = .next ((v.journalCmd j.sub).1.final j.sub stOk [] [] (v.journalCmd j.sub).2)) ∧
  (∀ (s : State) (c : Submission), s.starts 0x0305 c = true →
     let d := s.sent 0x0305 c
     let u := s.begun 0x0305 c
     let f := d.func
     let slot := hb d 24 1
     let n := hb d 40 4
     let im := u.devRead f (hb d 32 8) n
     let key := u.devRead f (hb d 48 8) 1793
     let sig := u.devRead f (hb d 32 8 + n) 1280
     64 ≤ slot → slot ≤ 255 → 64 ≤ n → u.inMemory f (hb d 32 8) (n + 1280) = true → u.inMemory f (hb d 48 8) 1793 = true →
     ftHeaderOk (im.take 64) = true → n = ftBytes (at' (im.take 64) 1 1) (at' (im.take 64) 3 1) →
     (u.func f).ftActive slot = false →
     let v := ((u.ftReplaced f slot).modFunc f fun g => { g with ftables := SMap.insert slot im g.ftables }).modFunc f fun g =>
       { g with ftkeys := SMap.insert slot key g.ftkeys }
     let w := v.journalCmd d
     exec (.ftblLoad c) s = .next (if Config.falconVerify key (shake256 im) sig = true then
       (w.1.measure 1 (srcCode d.src) w.2 (shake256 im) (shake256 key)).single d stOk [] [] w.2
       else u.secDenied.single d stDenied))

/-- R110: SKK_CONFIG places the buffers of the targeted clusters while no plan is active, and answers BUSY while one is. R380: a command
that changes no buffer is not recorded. -/
def Obligations.SkinkBuffersAreConfigured : Prop :=
  ∀ (s : State) (c : Submission), s.starts 0x0202 c = true →
    let d := s.sent 0x0202 c
    let u := s.begun 0x0202 c
    let mib := hb d 24 4
    exec (.skkConfig c) s = .next
      (if !(u.func d.func).accepted.isEmpty then u.single d stBusy
      else if mib = 0 || 4096 < mib then u.single d stBadParam
      else
        let t := (u.maskClusters d).foldl (fun v x => State.placeBuffers v d.func x.1 x.2 mib) u
        if (u.maskClusters d).all fun x => (t.clu x.1 x.2).skink = (u.clu x.1 x.2).skink then t.single d stOk else t.okJ d)

/-- R70, R71: PLAN_LOAD of a plan that passes every check, and for which there is room, fills its slot; where there is none, the peers of its
group are asked for memory first, and with none to ask it is refused with reason 7. Table 3.6, R75: STEP_RUN is
refused with the status of the first line that holds; otherwise it is accepted, and the step begins as soon as it may. -/
def Obligations.PlansLoadAndRun : Prop :=
  (∀ (s : State) (c : Submission), s.starts 0x0301 c = true →
     let d := s.sent 0x0301 c
     let u := s.begun 0x0301 c
     let f := d.func
     let slot := at' d.params 0 1
     let p := u.readPlan f d.params
     ((u.func f).accepted.any fun a => a.1 = slot) = false → Chk.first ⟨u, f, p⟩ d.paramLen = none →
     (∀ q v, u.placePlan f slot p = .ok (q, v) → f < v.funcs.length →
       ∃ t, exec (.planLoad c) s = .next t ∧ (t.func f).plans = (v.func f).plans.set slot (some q) ∧
         q.params = p.params ∧ q.descs = p.descs ∧ q.pgroups = p.pgroups) ∧
     (∀ i n, u.placePlan f slot p = .error (i, n) →
       let peers := (u.func f).groupPeers p
       exec (.planLoad c) s = .next (if n = 0 || peers.isEmpty then u.single d stBadParam (leBytes 2 i ++ leBytes 1 7)
         else u.askPeers f (some d) 0 peers n))) ∧
  (∀ (s : State) (c : Submission), s.starts 0x0302 c = true →
     let d := s.sent 0x0302 c
     let u := s.begun 0x0302 c
     let slot := hb d 24 1
     (∀ st, (u.func d.func).stepRefused d = some st → exec (.stepRun c) s = .next (u.single d st)) ∧
     ((u.func d.func).stepRefused d = none →
       let v := u.interim d stAccepted
       exec (.stepRun c) s = .next ((v.modFunc d.func fun g =>
         { g with
           accepted := g.accepted ++ [(slot, d)]
           plans := g.plans.set slot ((g.plans.getD slot none).map fun p =>
             { p with
               lastStep := some d.step
               firstStep := some (p.firstStep.getD d.step)
               choiceMap := if (v.func d.func).accepted.isEmpty then [] else p.choiceMap }) }).startSteps d.func)))

/-- R256, R276: COLL_GROUP sets a group; COLL_EVICT takes a rank out of it and tells the other members. -/
def Obligations.ChorusGroupsAreSet : Prop :=
  ∀ (s : State) (c : Submission),
    (s.starts 0x0401 c = true →
      let d := s.sent 0x0401 c
      let u := s.begun 0x0401 c
      let f := d.func
      let G : Group := ⟨d.params, [], [], [], false⟩
      let slot := at' d.params 0 1
      let a := at' d.params 16 8
      d.paramLen = 32 → G.bad = false → u.inMemory f a (8 * G.ranks) = true → (u.func f).groupActive slot = false →
      exec (.collGroup c) s = .next ((u.modFunc f fun g =>
        { g with
          groups := g.groups.set slot (some { G with members := (List.range G.ranks).map fun i => leNat (u.devRead f (a + 8 * i) 8) })
          chorus := { g.chorus with
            steps := g.chorus.steps.filter fun x => x.slot ≠ slot
            carried := g.chorus.carried.filter fun x => x.slot ≠ slot } }).okJ d [] (leBytes 4 slot))) ∧
    (s.starts 0x0405 c = true → ∀ G : Group,
      let d := s.sent 0x0405 c
      let u := s.begun 0x0405 c
      let slot := hb d 24 1
      let r := hb d 28 2
      (u.func d.func).groups.getD slot none = some G → r < G.ranks → G.evicted.contains r = false → G.present ≠ [r] →
      let v := u.applyEvict d.func slot r
      exec (.collEvict c) s = .next (((List.range G.ranks).foldl (fun w k => if k = G.me then w
        else State.sendRank w d.func G k 0 { G.msg 6 0 (v.func d.func).stepNow with subject := r }) v).okJ d))

/-- The commands of Chanter. R285, R289: a program that passes its checks fills its slot, and the carried norms of every group of a loaded
plan that names the slot become invalid. R282: step sizes are kept for their step, in place of earlier ones. R284: a freeze takes its
place after the earlier ones; one of no group changes nothing and is not recorded (R380). -/
def Obligations.ChanterCommandsTakeEffect : Prop :=
  ∀ (s : State) (c : Submission),
    (s.starts 0x0501 c = true →
      let d := s.sent 0x0501 c
      let u := s.begun 0x0501 c
      let slot := hb d 24 1
      4 ≤ slot → slot ≤ 31 → progCheck d.params d.paramLen = none → (u.func d.func).progActive slot = false →
      let clear (p : Plan) : Plan :=
        { p with groups := p.groups.zipIdx.map fun x => if (p.pg x.2).prog = slot then { x.1 with normsValid := false } else x.1 }
      exec (.updProgram c) s = .next ((u.modFunc d.func fun g =>
        { g with
          progs := SMap.insert slot d.params g.progs
          plans := g.plans.map fun p => p.map clear }).okJ d)) ∧
    (s.starts 0x0503 c = true → ∀ p : Plan,
      let d := s.sent 0x0503 c
      let u := s.begun 0x0503 c
      let slot := hb d 24 1
      let gs := bitsOf 64 (at' d.params 0 8)
      let v (g : Nat) : F32 := mk32 (at' d.params (8 + 4 * g) 4)
      (u.func d.func).plans.getD slot none = some p → d.stepTagged = true → d.paramLen = 264 →
      (∀ g ∈ gs, g < p.pgroups.length ∧ isFin32 (v g) = true) →
      let n := match p.uBegun, p.firstStep, p.lowStep with
        | some u, _, _ => u + 1 | none, some x, _ => x | none, none, some x => x | none, none, none => d.step
      n ≤ d.step → d.step ≤ n + 7 →
      exec (.updStepSize c) s = .next ((u.setPlan d.func slot { p with
        sizes := (p.sizes.filter fun x => !(x.1 = d.step && gs.contains x.2.1)) ++ gs.map fun g => (d.step, g, v g)
        lowStep := some (p.lowStep.getD d.step) }).single d stOk)) ∧
    (s.starts 0x0504 c = true → ∀ p : Plan,
      let d := s.sent 0x0504 c
      let u := s.begun 0x0504 c
      let slot := hb d 24 1
      let gs := bitsOf 64 (hb d 32 8)
      (u.func d.func).plans.getD slot none = some p → d.stepTagged = true → (∀ g ∈ gs, g < p.pgroups.length) →
      (∀ b, p.b1Begun = some b → b < d.step) →
      let v := u.setPlan d.func slot { p with freezes := p.freezes ++ gs.map fun g => (d.step, g, bit (hb d 40 8) g) }
      exec (.updFreeze c) s = .next (if gs.isEmpty then v.single d stOk else v.okJ d))

/-- R321, R325, R352: the power cap of every die of the function, the mode, and a plan formed anew on every targeted die. -/
def Obligations.PowerCommandsTakeEffect : Prop :=
  ∀ (s : State) (c : Submission),
    (s.starts 0x0601 c = true →
      let d := s.sent 0x0601 c
      let u := s.begun 0x0601 c
      let w := at' d.small 0 4
      (if u.quad then 300 ≤ w ∧ w ≤ 700 else 1200 ≤ w ∧ w ≤ 2800) →
      exec (.pwrCap c) s = .next
        (if (u.diesOf d.func).all fun e => (u.die e).power.capW = w then u.single d stOk
        else ((u.diesOf d.func).foldl (fun v e => State.modPower v e fun p => { p with capW := w }) u).okJ d)) ∧
    (s.starts 0x0602 c = true →
      let d := s.sent 0x0602 c
      let u := s.begun 0x0602 c
      let mode := at' d.small 0 1
      let boost := at' d.small 1 1
      let mhz := at' d.small 2 2
      mode ≤ 1 → boost ≤ 1 → 800 ≤ mhz → mhz ≤ 1250 → mhz % 25 = 0 →
      let same := (u.diesOf d.func).all fun e =>
        let p := (u.die e).power
        p.pitchHold = (mode = 1) && p.boostEn = (boost = 1) && p.phMhz = mhz
      let v := (u.diesOf d.func).foldl (fun v e => State.modPower v e fun p =>
        { p with pitchHold := mode = 1, boostEn := boost = 1, phMhz := mhz }) u
      let w := if same then (v, 0) else v.journalCmd d
      exec (.pwrMode c) s = .next ((w.1.modFunc d.func fun g => { g with modeJob := some (d, w.2) }).settleMode d.func)) ∧
    (s.starts 0x0704 c = true →
      let d := s.sent 0x0704 c
      let u := s.begun 0x0704 c
      exec (.axlReplan c) s = .next (((u.maskDies d.func d.dieMask).foldl (fun v e => State.formPlan v e) u).okJ d))

/-- R405, R411: SEC_ATTEST answers NOT_PRESENT without a security core or while scope 2 is unlocked; otherwise it writes the signed
report of 5,024 bytes. R389, R390: FW_STAGE is accepted where its kind is free and ends with the checks of the image; FW_ACTIVATE of a
staged image is accepted, and goes on at once or is deferred by an emergency. -/
def Obligations.SecurityCommandsTakeEffect : Prop :=
  (∀ (s : State) (c : Submission), s.starts 0x0801 c = true →
     let d := s.sent 0x0801 c
     let u := s.begun 0x0801 c
     ((u.sec.role = 2 ∨ bit u.sec.scopes 2 = true) → exec (.secAttest c) s = .next (u.single d stNotPresent)) ∧
     (u.sec.role ≠ 2 → bit u.sec.scopes 2 = false → u.outOk d (hb d 24 8) 5024 = true →
       let body := u.reportBody (d.small.drop 8)
       exec (.secAttest c) s = .next ((u.cntAll 28).outSingle d (hb d 24 8)
         (body ++ leBytes 1280 (Config.identitySign (shake256 body)).toNat) (leBytes 4 5024)))) ∧
  (∀ (s : State) (c : Submission),
     (s.starts 0x0901 c = true →
       let d := s.sent 0x0901 c
       let u := s.begun 0x0901 c
       let kind := hb d 24 1
       u.sec.role ≠ 2 → (u.funcs.any fun g => g.jobs.any fun j => j.sub.opcode = 0x0901 && j.arg = kind) = false →
       (∀ a, u.act = some a → a.kind ≠ kind) →
       exec (.fwStage c) s = .next ((u.interim d stAccepted).modFunc d.func fun g => { g with jobs := g.jobs ++ [⟨d, kind, true, 0, 0⟩] })) ∧
     (∀ (kind f : Nat) (j : AsyncJob), (s.fns.findSome? fun f => ((s.func f).job 0x0901 kind).map fun j => (f, j)) = some (f, j) →
       s.sec.role ≠ 2 → s.procStops (.security s.sec.role) = false →
       exec (.fwStageDone kind) s = .next (s.fwStageEnd f j)) ∧
     (s.starts 0x0902 c = true → ∀ im : Image,
       let d := s.sent 0x0902 c
       let u := (s.begun 0x0902 c).interim d stAccepted
       let kind := hb d 24 1
       u.act = none → (u.fwKind kind).staged = some im → (kind = 2 → u.maxNegotiated ≤ u.highWith im) → u.sec.role ≠ 2 →
       let v := { u.modFunc d.func fun g => { g with jobs := g.jobs ++ [⟨d, kind, true, 0, 0⟩] } with deferTime := u.clk }
       let a : Activation := ⟨kind, d, 1, false, im, [], [], false⟩
       exec (.fwActivate c) s = .next
         (if v.anyEmerg then ({ v.cntAll 25 with act := some a }).interim d stDeferred else v.actWrite a)))

/-- R390 to R393, R400, R401: an activation goes on when no emergency stands, times out while it is deferred, ends with the image running
and the rollback counter at least its version, or brings back the image before, onto which
the processors of its kind restart one after another. -/
def Obligations.ActivationProceeds : Prop :=
  ∀ (s : State) (a : Activation), s.act = some a →
    (a.stage = 1 → s.anyEmerg = false → s.procStops (.security (s.sec.role % 2)) = false → s.sec.arCount ≤ a.image.secVersion →
      a.kind < s.fw.length → ∃ t, exec .fwActivateProceed s = .next t ∧ (t.fwKind a.kind).active = some a.image ∧
        (t.fwKind a.kind).previous = (s.fwKind a.kind).active ∧ (t.fwKind a.kind).staged = none ∧ t.sec = s.sec ∧ t.mem = s.mem) ∧
    (a.stage = 1 → s.procStops (.security (s.sec.role % 2)) = false →
      exec .deferredTimeout s = .next ((s.actEnd a).actFinal a stDeferredTimeout)) ∧
    (a.stage = 2 → a.waiting = [] → s.procStops (.security (s.sec.role % 2)) = false → a.kind < s.fw.length →
      ∃ t, exec .fwActivateDone s = .next t ∧ t.act = none ∧ (t.fwKind a.kind).running = some a.image ∧
        t.sec.arCount = max s.sec.arCount (min 63 a.image.secVersion) ∧ t.cores = s.cores) ∧
    (a.stage = 2 → a.acting ≠ [] →
      (s.procStops (.security (s.sec.role % 2)) = false ∨ a.acting.contains (.security (s.sec.role % 2)) = true) → a.kind < s.fw.length →
      ∃ t, exec .activationRevert s = .next t ∧ (t.fwKind a.kind).active = (s.fwKind a.kind).previous ∧
        (t.fwKind a.kind).previous = none ∧ t.sec.arCount = s.sec.arCount ∧ t.cores = s.cores) ∧
    (∀ p, a.stage = 3 → a.waiting = [p] → a.acting = [p] → s.procs.restarting.contains p = true → a.kind < s.fw.length →
      ∃ u, exec (.processorRestartDone p) s = .next (State.resumeProc u p) ∧ u.act = none ∧
        (u.fwKind a.kind).running = (s.fwKind a.kind).active ∧ (u.fwKind a.kind).active = (s.fwKind a.kind).active ∧
        u.sec.reverted = true ∧ u.sec.arCount = s.sec.arCount)

/-! ## Queues (R362 to R370) -/

/-- R362: a doorbell moves its index where the value fits; a value at or above the ring size, or past the other index, is an
out-of-range access and moves nothing. A queue that still owes completions of before its disabling takes the doorbell on the ring they go
to. -/
def Obligations.DoorbellsMoveTheirIndex : Prop :=
  ∀ (s : State) (f q : Nat) (v : Word) (r : Queue), (s.func f).queues[q]? = some r →
    (let n := 2 ^ r.sqLog2
     let x := fld v.toNat 0 12
     exec (.zcpSqtail f q v) s = .next
      (if n ≤ x || (r.sqHead + 2 * n - r.sqTail - 1) % n < (x + n - r.sqTail) % n then s.violOor f
      else s.modQueue f q fun r => { r with sqTail := x })) ∧
    (let g := r.ring
     let n := 2 ^ g.log2
     let x := fld v.toNat 0 12
     exec (.zcpCqhead f q v) s = .next
      (if n ≤ x || (g.tail + n - g.head) % n < (x + n - g.head) % n then s.violOor f
      else s.modQueue f q fun r => r.setRing { g with head := x }))

/-- R362, R363: a slot that may be fetched moves the head and its command is taken in, in device memory as on the bus. R359, R360,
R437: a command of a peer leaves the inbox and is taken in, a command of the sideband is taken in, once READY reads 1. -/
def Obligations.CommandsAreTakenIn : Prop :=
  (∀ (s : State) (f q : Nat) (slot : List Byte) (r : Queue), s.ready = true → f < s.funcs.length → (s.func f).queues[q]? = some r →
     r.old = none →
     let a := r.sqBase + 512 * r.sqHead
     let bytes := if r.loc then s.devRead f a 512 else slot
     (s.func f).mayFetch q (at' bytes 0 2) = true →
     let u := if r.loc && !s.reaches f a 512 then s.violOor f else s
     let v := u.modQueue f q fun r => { r with sqHead := (r.sqHead + 1) % 2 ^ r.sqLog2 }
     let w := if q = 0 then v else v.modFunc f fun g => { g with lastQ := q }
     exec (.commandFetch f q slot) s = .next (w.takeUp (parseSubmission (.queue q) f bytes))) ∧
  (∀ (s : State) (f : Nat) (slot : List Byte), s.ready = true →
     (∀ endpoint port : Nat, exec (.reedwayZcpCommand f endpoint port slot) s = .next
       ((s.modFunc f fun g => { g with ep := { g.ep with
         inbox := eraseFirst (fun r => r.proto = 0 && r.src = endpoint && r.data = slot) g.ep.inbox } }).takeUp
           (parseSubmission (.peer endpoint port) f slot))) ∧
     (s.sideUp = true → s.fns.contains f = true →
       exec (.sidebandSubmission f slot) s = .next (s.takeUp (parseSubmission .sideband f slot))))

/-- R370: the entry, then its stamp, then the message of an interrupt; the phase turns over with the ring. R362: the completions of commands
from before the queue was disabled go to the ring of that time. -/
def Obligations.CompletionsAreWritten : Prop :=
  ∀ (s : State) (f q : Nat) (r : Queue) (x : Completion) (l : List Completion), (s.func f).queues[q]? = some r →
    (s.func f).waiting q = x :: l → r.cqFull = false →
    let g := r.ring
    let ea := g.base + 32 * g.tail
    let sa := g.base + 32 * 2 ^ g.log2 + 8 * g.tail
    let stamp := leBytes 8 (x.jrn % 2 ^ 48 + 2 ^ 63 * b2n g.phase)
    let u := s.modFunc f fun g => { g with done := eraseOne x g.done }
    let v := if g.loc then (u.devPut f ea x.bytes).devPut f sa stamp else (u.put (.busWrite ea x.bytes)).put (.busWrite sa stamp)
    let wrap := g.tail + 1 = 2 ^ g.log2
    let w := v.modQueue f q fun r =>
      r.setRing { g with tail := if wrap then 0 else g.tail + 1, phase := if wrap then !g.phase else g.phase }
    exec (.completionWrite f q) s = .next ((if r.irqEn then w.interrupt f r.vector else w).settleQueue f q)

/-! ## Registers (chapters 0, 13 and 16) -/

/-- R4 to R7, R307: a register write through BAR0 is a register write of source 97, and every access with an offset that names no
register is an out-of-range access that does nothing. Tables 17.1 and 17.4: a write that the security core executes waits while that core
is stopped, and the writes that waited come before the next one. -/
def Obligations.RegisterWritesReachTheirRegister : Prop :=
  ∀ (s : State) (f off size : Nat) (v : Word), s.live = true → s.pcie.linkUp = true → s.pcie.failed = false →
    s.asleep f = false →
    exec (.registerWrite f off size v) s = .next (s.regWrite f 97 off size v.toNat) ∧
    (s.fns.contains f = true → (size ≠ 8 ∨ off % 8 ≠ 0 ∨ s.place f off = none) → s.sec.writes = [] →
      exec (.registerWrite f off size v) s = .next (s.violOor f)) ∧
    (s.procStops (.security (s.sec.role % 2)) = false →
      exec (.registerWrite f off size v) s = .next (s.heldWrites.regPut f 97 off size v.toNat)) ∧
    (s.sec.writes = [] → s.heldWrites = s) ∧
    (s.procStops (.security (s.sec.role % 2)) = true → size = 8 → off % 8 = 0 →
      ∀ b o, s.place f off = some (b, o) → recordMask b o ≠ 0 → s.absentBlk b = false →
      exec (.registerWrite f off size v) s = .next { s with sec := { s.sec with writes := s.sec.writes ++ [(97, f, off, v.toNat)] } }) ∧
    (s.fns.contains f = true → size = 8 → off = 0x20 → s.procStops (.security (s.sec.role % 2)) = false → s.sec.writes = [] →
      ∃ t, exec (.registerWrite f off size v) s = .next t ∧
        t.cfg = { s.cfg with zcpPin := fld v.toNat 0 8, rwPin := fld v.toNat 8 2 } ∧ t.mem = s.mem ∧ t.cores = s.cores ∧ t.dies = s.dies ∧
        t.funcs = s.funcs ∧ t.zcpPin = s.zcpPin ∧ t.rwPin = s.rwPin)

/-- R362: a write of ZCP_QCFG enables or disables the queue that ZCP_QSEL selects, and an enabling resets the indices and the phase. A
disabled queue keeps the ring to which it still owes completions, at the positions they had. -/
def Obligations.QueueEnableRestartsTheRing : Prop :=
  ∀ (s : State) (f : Nat) (v : Word) (r : Queue), s.live = true → s.sec.writes = [] → s.fns.contains f = true → f < s.funcs.length →
    (s.func f).queues[(s.func f).qsel]? = some r →
    (∃ t r', exec (.queueEnable f v) s = .next t ∧ (t.func f).queues[(s.func f).qsel]? = some r' ∧ r'.en = true ∧
      r'.irqEn = bit (v ||| 1).toNat 22 ∧
      (r.en = false → r'.sqHead = 0 ∧ r'.sqTail = 0 ∧ r'.cqHead = 0 ∧ r'.cqTail = 0 ∧ r'.phase = true) ∧
      (r.en = true → r'.sqHead = r.sqHead ∧ r'.sqTail = r.sqTail ∧ r'.cqHead = r.cqHead ∧ r'.cqTail = r.cqTail ∧ r'.phase = r.phase)) ∧
    (∃ t r', exec (.queueDisable f v) s = .next t ∧ (t.func f).queues[(s.func f).qsel]? = some r' ∧ r'.en = false ∧
      r'.sqHead = r.sqHead ∧ r'.sqTail = r.sqTail ∧
      (r.old = none → r'.cqHead = r.cqHead ∧ r'.cqTail = r.cqTail ∧ r'.phase = r.phase ∧
        (r.en = true → ((s.func f).waiting (s.func f).qsel).isEmpty = false → r'.old = some r.ring)))

/-- R313, R356, R418, R453, R457: the registers of the module take the fields written to them, and what is in force stands; with FABRIC_ID set, the messages held go
out. R304, R309,
R351: the same for the registers of a die, in the function's numbers. -/
def Obligations.RegistersTakeTheirFields : Prop :=
  (∀ (s : State) (f : Nat) (v : Word), s.live = true → s.sec.writes = [] → s.fns.contains f = true → f < s.funcs.length →
     (s.procStops (.security (s.sec.role % 2)) = false → ∃ t, exec (.modCompatWrite f v) s = .next t ∧ t.cfg = { s.cfg with zcpPin := fld v.toNat 0 8, rwPin := fld v.toNat 8 2 } ∧
       t.zcpPin = s.zcpPin ∧ t.rwPin = s.rwPin ∧ t.funcs = s.funcs ∧ t.mem = s.mem) ∧
     (∃ t, exec (.memGrantctlWrite f v) s = .next t ∧
       (t.func f).grantGib = max (s.func f).granted (min (if s.quad then 384 else 1536) (fld v.toNat 0 11)) ∧
       (t.func f).grants = (s.func f).grants ∧ t.mem = s.mem) ∧
     (∃ t, exec (.cntNotecfgWrite f v) s = .next t ∧ (t.func f).note.en = bit v.toNat 0 ∧ (t.func f).note.vector = fld v.toNat 1 6 ∧
       (t.func f).note.irqEn = bit v.toNat 7 ∧ (t.func f).note.base = 4096 * fld v.toNat 12 40) ∧
     (∃ t, exec (.jrnSelWrite v) s = .next t ∧ t.journal = { s.journal with
       pos := fld v.toNat 0 12, latched := SMap.find (fld v.toNat 0 12) s.journal.ring } ∧ t.funcs = s.funcs ∧ t.mem = s.mem) ∧
     (∀ d l, s.upDies f = d :: l → (s.die d).powered = true → ∃ t, exec (.fabPortEpWrite f v) s = .next t ∧
       (t.func f).ep.fabricId = fld v.toNat 0 48 ∧ t.mem = s.mem ∧
       ((s.func f).ep.unacked.all (fun m => m.port.isSome) = true →
         (t.func f).ep = { (s.func f).ep with fabricId := fld v.toNat 0 48 } ∧ t.ports = s.ports))) ∧
  (∀ (s : State) (f die : Nat) (v : Word), s.live = true → s.sec.writes = [] → s.fns.contains f = true → (die < if s.quad then 1 else 4) →
     let d := s.physDie f die
     s.up d = true → (s.die d).powered = true → d < s.dies.length →
     (s.procStops (.security (s.sec.role % 2)) = false → ∃ t, exec (.memIlvcfgPending f die v) s = .next t ∧
       t.cfg = { s.cfg with ilvMib := s.cfg.ilvMib.set d (min 9830 (fld v.toNat 16 14)) } ∧ t.dies = s.dies ∧ t.mem = s.mem) ∧
     (s.procStops (.security (s.sec.role % 2)) = false → ∃ t, exec (.axlModeWrite f die v) s = .next t ∧ t.cfg = { s.cfg with axlMode := s.cfg.axlMode.set d (fld v.toNat 0 2) } ∧
       (t.die d).axl = { (s.die d).axl with slackTgt := fld v.toNat 8 8 } ∧ t.mem = s.mem) ∧
     (∃ t, exec (.memHostresWrite f die v) s = .next t ∧ t.dies = (s.setHostres d v.toNat).dies ∧ t.cfg = s.cfg ∧ t.mem = s.mem))

/-- R416, R419, R424: a port that is enabled trains where its links are sound, one that is disabled is down, and a retrain of a port in
service starts it again, or takes it down at the third within one second. -/
def Obligations.PortControlActs : Prop :=
  ∀ (s : State) (p : Nat), s.live = true → s.sec.writes = [] → p < 24 → s.Inv → s.up (p / 6) = true → (s.die (p / 6)).powered = true →
    (∃ t, exec (.portEnable p) s = .next t ∧ (t.port p).en = true ∧
      (((s.port p).state = 0 ∨ (s.port p).state = 4) → (s.die (p / 6)).portsOk.contains (p % 6) = true → (t.port p).state = 1) ∧
      t.mem = s.mem ∧ ∀ q, q ≠ p → t.port q = s.port q) ∧
    ((s.port p).en = true → ∃ t, exec (.portDisable p) s = .next t ∧ (t.port p).en = false ∧ (t.port p).state = 0) ∧
    ((s.port p).state = 2 → ∃ t, exec (.retrain p) s = .next t ∧ (t.port p).en = (s.port p).en ∧
      (t.port p).state =
        if 2 ≤ ((s.port p).retrains.filter fun x => ((s.die (p / 6)).clk + 2 ^ 64 - x) % 2 ^ 64 < second).length then 4 else 3)

/-- R227, R450: a read of CNT_VALRC gives the counter and clears it, a read of VEC_RNGSTAT gives its bit and clears it. R185, R296,
R308: the registers that start something: the flush keeps the entries that still combine, the self-test of a disabled engine begins,
and the norms of every group are dropped. -/
def Obligations.ReadsAndTriggersAct : Prop :=
  (∀ s : State, s.live = true →
     (∀ f, s.fns.contains f = true → f < s.funcs.length → ∃ t, exec (.cntValrcRead f) s = .next t ∧
       t.out = s.out ++ [.readData (s.ctrAt f (s.func f).cntSel % 2 ^ 64) 8] ∧
       (t.func f).ctrs = SMap.erase (s.func f).cntSel (s.func f).ctrs ∧ t = { s with out := t.out, funcs := t.funcs }) ∧
     (∀ i, i < 640 → s.Inv → s.coreState i ≠ 0 → (s.die (coreDie i)).powered = true → ∃ t, exec (.vecRngstatRead i) s = .next t ∧
       t.out = s.out ++ [.readData (b2n (s.core i).vec.used) 8] ∧ (t.core i).vec = { (s.core i).vec with used := false } ∧
       t = { s with out := t.out, cores := t.cores })) ∧
  (∀ s : State,
     (∀ f die, (s.quad = true → die = 0) → s.up (s.physDie f die) = true → s.physDie f die < s.dies.length →
       ∃ t, exec (.gkoFlush f die) s = .next t ∧
         (t.die (s.physDie f die)).gecko.entries = (s.die (s.physDie f die)).gecko.entries.filter (fun e => e.2.combining) ∧
         t = { s with dies := t.dies } ∧ ∀ e, e ≠ s.physDie f die → t.die e = s.die e) ∧
     (∀ i, s.coreState i = 1 → (s.core i).mxe.state = 6 → (s.core i).mxe.selftest = false → i < s.cores.length →
       ∃ t, exec (.mxeSelftest i) s = .next t ∧ (t.core i).mxe = { (s.core i).mxe with selftest := true } ∧
         ∀ k, k ≠ i → t.core k = s.core k) ∧
     (∀ f, f < s.funcs.length → ∃ t, exec (.chnPrepass f) s = .next t ∧
       (t.func f).plans = (s.func f).plans.map (fun p => p.map fun p =>
         { p with groups := p.groups.map fun g => { g with normsValid := false } }) ∧
       t = { s with funcs := t.funcs } ∧ ∀ g, g ≠ f → t.func g = s.func g))

/-- R308, R315, R316: host data goes to memory through BAR2 and comes back from it, after the errors that the access meets; an access
outside the window or outside memory reads zero and writes nothing. -/
def Obligations.Bar2ReachesMemory : Prop :=
  ∀ (s : State) (f off : Nat) (r : BarRead) (b : List Byte), s.fns.contains f = true → s.ready = true → s.asleep f = false →
    let a := GiB * (s.func f).bar2Gib + off
    let u := s.eccMet r.memory
    let len := r.len
    (r.memory = [] → u = s) ∧
    (0 < b.length → off + b.length ≤ u.bar2Size f → u.inMemory f a b.length = true →
      exec (.bar2Access f off true r b) s = .next (u.hostWrite f a b)) ∧
    (0 < len → off + len ≤ u.bar2Size f → u.inMemory f a len = true → ∀ k, u.key f a = some k →
      exec (.bar2Access f off false r b) s = .next ((u.checkedRead k len).2.put (.readData (leNat (u.checkedRead k len).1) len))) ∧
    (0 < len → (u.bar2Size f < off + len ∨ u.inMemory f a len = false) →
      exec (.bar2Access f off false r b) s = .next ((u.violOor f).put (.readData 0 len))) ∧
    (0 < b.length → (u.bar2Size f < off + b.length ∨ u.inMemory f a b.length = false) →
      exec (.bar2Access f off true r b) s = .next (u.violOor f))


/-! ## Power, reset and start-up (chapter 20) -/

/-- R8, R31, R429, R430, R446: what takes the module to t0. Input power that becomes valid, and PERST# deasserted, put the
presentation to come and the pins to come into force, and everything else at its reset value, with the configuration record, the fuses, the
rollback counter and the flash kept; PERST# asserted, and the controller turning off, stop it. -/
def Obligations.ResetsRestartTheModule : Prop :=
  ∀ s : State,
    (s.boot.lockout = false → s.boot.pwrGood = false → exec .softStart s = .next
      { s with boot := { s.boot with pwrEn := true, mated := true, softStart := true } }) ∧
    (s.boot.softStart = true → ∃ t, exec .pwrGood s = .next t ∧ s.restarted t ∧ t.boot.pwrGood = true ∧ t.boot.cold = true ∧
      t.out = s.out ++ [.pwrGood true]) ∧
    (s.boot.perst = true → s.boot.pwrGood = true → ∃ t, exec .perstDeassert s = .next t ∧ s.restarted t ∧ t.boot.perst = false ∧
      t.boot.pwrGood = true ∧ t.out = s.out) ∧
    (∀ w, (s.boot.pwrGood || s.boot.softStart) = true → ∃ t, exec (.hotSwapOff w) s = .next t ∧ s.restarted t ∧ t.boot.pwrGood = false ∧
      t.boot.softStart = false ∧ t.boot.lockout = (match w with
        | .pwrEnLow ms => s.boot.lockout && ms < 100
        | .breaker => true
        | _ => s.boot.lockout)) ∧
    (s.boot.perst = false → s.boot.pwrGood = true → ∃ t, exec .perstAssert s = .next t ∧ t.ready = false ∧ t.boot.perst = true ∧
      t.pcie.linkUp = false ∧ t.act = none ∧ t.quad = s.quad ∧ t.cfg = s.cfg ∧
      ∀ g, g ∈ t.funcs → g.fetched = [] ∧ g.done = [] ∧ g.cur = none ∧ g.ahead = none ∧ g.jobs = [])

/-- R384, R400, R402, R433, R442, R444, R445: the lines of Table 20.10, each after the lines before it. -/
def Obligations.StartUpGoesOn : Prop :=
  ∀ s : State, s.live = true →
    (s.boot.done = 0 → ∃ t, exec .romBoot s = .next t ∧ t.boot.done = 1 ∧ t.side.hotJoined = true ∧
      (6 ≤ s.sec.meas.length → t.sec.meas[0]? = some (leBytes 64 Config.romDigest.toNat) ∧
        t.sec.meas[5]? = some (shake256 s.configBlock))) ∧
    (s.boot.done = 1 → s.fw.length = 4 → ∃ t, exec .overlayVerify s = .next t ∧ t.boot.done = 2 ∧ t.flash = s.flash ∧
      s.sec.arCount ≤ t.sec.arCount ∧
      ∀ k, k < 4 → (s.fwKind k).active = none → (t.fwKind k).running = (s.fwKind k).running) ∧
    (s.boot.done = 2 → ∃ t, exec .diePowerUp s = .next t ∧ t.boot.done = 3 ∧ (∀ d, d < s.dies.length → d < 4 → (t.die d).powered = true) ∧
      ∀ p, (t.port p).en = (s.port p).en) ∧
    (3 ≤ s.boot.done → s.pcie.failed = false → exec .pcieLinkUp s = .next
      { s with pcie := { s.pcie with linkUp := true }, boot := { s.boot with done := max s.boot.done 4 } }) ∧
    (3 ≤ s.boot.done → exec .memoryInit s = .next { s with boot := { s.boot with done := max s.boot.done 5 } }) ∧
    (∀ x : SelfTest, s.ready = false → s.milestone = 6 → ∃ t, exec (.zcpReady x) s = .next t ∧ t.ready = true ∧ t.boot.done = max s.boot.done 7 ∧
      t.boot.readyMs = x.readyMs % 2 ^ 32 ∧ (∀ d, d < s.dies.length → (t.die d).enabled = !x.dies.contains d) ∧
      ∀ i, (s.core i).state = 1 → i < s.cores.length → x.cores.contains i = true → (t.core i).state = 2) ∧
    (s.ready = true → s.boot.fullDone = false → ∃ t, exec .fullSelftestDone s = .next t ∧ t.boot.fullDone = true ∧ t.boot.done = max s.boot.done 8 ∧
      t.cores = s.cores ∧ t.clusters = s.clusters ∧ t.fw = s.fw ∧
      ∀ d, d < 4 → d < s.dies.length → s.up d = true → (t.die d).axl.marginDue = s.coresOf d)

/-- R33, R431 to R435, R346: a link reset empties the PCIe queues of every function and resets the configuration spaces; the loss of the
partition does too and is no link reset. A Function Level Reset empties the queues of its own function
and quenches its work, a configuration request reads or writes its item once READY reads 1 and is retried before, and the loss of
FAB_REFCLK takes every port in use down. -/
def Obligations.LinkAndFunctionResets : Prop :=
  ∀ s : State,
    (∀ e, s.live = true → s.pcie.failed = false → ∃ t, exec (.pcieLinkReset e) s = .next t ∧ t.pcie.linkUp = false ∧
      t.pcie.failed = (e = .partitionLoss : Bool) ∧ (∀ x, x ∈ t.pcie.spaces → x = ConfigSpace.reset s.quad) ∧
      t.boot.linkResets = (if e = .partitionLoss then s.boot.linkResets else (s.boot.linkResets + 1) % 256) ∧ (∀ f, s.fns.contains f = true → f < s.funcs.length → t.func f = (s.func f).dropQueues) ∧
      t.cores = s.cores ∧ t.clusters = s.clusters ∧ t.mem = s.mem ∧ t.quad = s.quad ∧ t.ready = s.ready) ∧
    (∀ f, s.ready = true → s.pcie.linkUp = true → s.fns.contains f = true →
      let w := s.modFunc f Func.dropQueues
      let u := { w with act := w.act.map fun (a : Activation) => if a.sub.func = f then { a with sub := orphan a.sub } else a }
      let v := match (u.func f).cur, (u.func f).activePlan with
        | some st, some (_, p) => u.stopOwn f p st
        | _, _ => u
      exec (.functionLevelReset f) s = .next (((v.emptyEngines f).quenchAll f true).startSteps f)) ∧
    (∀ r : ConfigRequest, s.live = true → s.pcie.linkUp = true → s.pcie.failed = false → s.fns.contains r.func = true →
      (s.ready = false → exec (.configRequest r) s = .next { s with out := s.out ++ [.config r.func none] }) ∧
      (s.ready = true → r.write = none →
        exec (.configRequest r) s = .next { s with out := s.out ++ [.config r.func (some (s.configValue r.func r.item))] }) ∧
      (∀ v, s.ready = true → r.write = some v →
        let u := s.configWrite r.func r.item v
        exec (.configRequest r) s = .next { u with out := u.out ++ [.config r.func (some (u.configValue r.func r.item))] })) ∧
    (∃ t, exec .fabRefclkLoss s = .next t ∧ t.boot.fabRefclk = false ∧
      ∀ p, p < 24 → s.ports.length = 24 → s.up (p / 6) = true → 1 ≤ (s.port p).state → (s.port p).state ≤ 3 → (t.port p).state = 4)

/-- R436, R437: the sideband takes its addresses, answers its control messages, and reads and writes the window and the registers. What the answers hold beside the spec's
fields is the model's (log 52). -/
def Obligations.SidebandAnswers : Prop :=
  ∀ s : State, s.sideUp = true →
    (∀ a, s.side.address = none → a < 128 → exec (.entdaa a) s = .next { s with
      side := { s.side with address := some a }
      out := s.out ++ [.provisionedId (s.side.slotId % 64 + 64 * Config.provisionedId.toNat)] }) ∧
    (∀ e, 1 ≤ e → e < 255 → ∃ t b, exec (.setEndpointId e) s = .next t ∧
      t = { s with side := { s.side with eid := e }, out := s.out ++ [.mctp b] }) ∧
    (exec .getEndpointId s = .next { s with out := s.out ++ [.mctp ([0] ++ leBytes 1 s.side.eid ++ [0, 0])] }) ∧
    (exec .getMctpVersionSupport s = .next { s with out := s.out ++ [.mctp ([0] ++ Config.mctpVersions)] }) ∧
    (exec .getMessageTypeSupport s = .next { s with out := s.out ++ [.mctp [0, 1, 0x7E]] }) ∧
    (∀ f, s.fns.contains f = true → s.ready = true →
      (∀ off b, b.length ≤ 65000 → off + b.length ≤ windowSize → s.inMemory f (windowBase + off) b.length = true →
        exec (.sidebandWindowWrite f off b) s = .next (s.hostWrite f (windowBase + off) b)) ∧
      (∀ off n k, n ≤ 65000 → off + n ≤ windowSize → s.key f (windowBase + off) = some k →
        exec (.sidebandWindowRead f off n) s = .next ((s.checkedRead k n).2.put (.mctp (s.checkedRead k n).1)))) ∧
    (∀ f off, s.fns.contains f = true →
      (exec (.sidebandRegRead f off) s = .next ((s.regRead f off 8).2.put (.mctp (leBytes 8 (s.regRead f off 8).1.toNat)))) ∧
      ∀ v, exec (.sidebandRegWrite f off v) s = .next (s.regWrite f 96 off 8 v.toNat))

/-! ## JTAG and debug (R408 to R411, R438 to R440) -/

/-- R438, R439: the boundary-scan instructions. The register has a cell for every signal (log 55).
 Those that drive the pins act while PERST# is asserted, and as BYPASS otherwise; none of
them reads or changes anything of the module. -/
def Obligations.BoundaryScanActs : Prop :=
  ∀ s : State, s.boot.pwrGood = true →
    (∀ pins : List Bool, ∀ c code, (c, code) ∈ [(Instr.extest pins, 0x00), (Instr.extestPulse pins, 0x03), (Instr.extestTrain pins, 0x04)] →
      ∃ t, exec c s = .next t ∧ t = { s with jtag := t.jtag, out := t.out, fresh := t.fresh } ∧
        (s.boot.perst = true → t.jtag.ir = code ∧ t.jtag.boundary = (pins ++ List.replicate boundaryCells false).take boundaryCells ∧
          t.jtag.driven = some t.jtag.boundary ∧ t.jtag.dr.length = boundaryCells) ∧
        (s.boot.perst = false → t.jtag = { s.jtag with ir := code, driven := none, dr := [false] })) ∧
    (∃ t, exec .clamp s = .next t ∧ t = { s with jtag := t.jtag, out := t.out } ∧ t.jtag.ir = 0x05 ∧
      t.jtag.driven = if s.boot.perst then some s.jtag.boundary else none) ∧
    (∃ t, exec .highz s = .next t ∧ t = { s with jtag := t.jtag, out := t.out } ∧ t.jtag.ir = 0x06 ∧
      t.jtag.driven = if s.boot.perst then some [] else none) ∧
    (∀ pins, ∃ t, exec (.samplePreload pins) s = .next t ∧ t = { s with jtag := t.jtag, out := t.out, fresh := t.fresh } ∧
      t.jtag.boundary = (pins ++ List.replicate boundaryCells false).take boundaryCells ∧ t.jtag.driven = none ∧
      t.jtag.dr.length = boundaryCells) ∧
    (exec .idcode s = .next { s with
      jtag := { s.jtag with ir := 0x01, driven := none, dr := natBits 32 idcodeValue }
      out := s.out ++ [.readData (bitsNat (natBits 32 idcodeValue)) 4] }) ∧
    (idcodeValue / 2 ^ 12 % 2 ^ 16 = 0x4044 ∧ idcodeValue % 2 = 1) ∧
    (∀ b, ∃ t, exec (.bypass b) s = .next t ∧ t = { s with jtag := t.jtag, out := t.out } ∧
      t.jtag = { s.jtag with ir := 0xFF, driven := none, dr := [b] }) ∧
    (exec .tapReset s = .next { s with jtag := { s.jtag with ir := 0x01, driven := none } })

/-- R409, R410: CHALLENGE draws a challenge, and UNLOCK spends it; an accepted token opens its scopes and extends M7, and a rejected
one changes no scope. Either is counted on its counter, and neither touches a core, a queue of commands or the configuration. A token that
comes while the security core is stopped waits for it. -/
def Obligations.UnlockTakesAToken : Prop :=
  ∀ s : State, s.boot.pwrGood = true →
    (∃ t b, exec .challenge s = .next t ∧ t.sec = { s.sec with challenge := some b } ∧ b.length = 32 ∧ t.jtag.ir = 0xC0 ∧
      t = { s with sec := t.sec, jtag := t.jtag, out := t.out, fresh := t.fresh }) ∧
    (∀ token, s.procStops (.security (s.sec.role % 2)) = true → ∃ t, exec (.unlock token) s = .next t ∧
      t = { s with sec := { s.sec with tokens := s.sec.tokens ++ [token] }, jtag := t.jtag, out := t.out }) ∧
    ∀ token, s.procStops (.security (s.sec.role % 2)) = false → s.sec.tokens = [] →
      ∃ t, exec (.unlock token) s = .next t ∧ t.sec.challenge = none ∧ t.sec.tokens = [] ∧
      t.sec.scopes = (if s.tokenOk token then s.sec.scopes ||| (at' token 3 1 % 8) else s.sec.scopes) ∧
      (s.tokenOk token = false → t.sec.meas = s.sec.meas) ∧ t.cores = s.cores ∧ t.clusters = s.clusters ∧ t.cfg = s.cfg ∧ t.fw = s.fw

/-- R440, Table 20.11: each debug instruction acts while its scope is open, and acts as BYPASS while it is not. -/
def Obligations.DebugInstructionsNeedTheirScope : Prop :=
  ∀ s : State, s.boot.pwrGood = true →
    let v := s.jtag.procSel
    let p := procOf v
    (∀ c code scope, (c, code, scope) ∈ [(Instr.procHalt, 0xD2, procScope v), (.procRun, 0xD2, procScope v), (.procStep, 0xD2, procScope v),
        (.scanLen, 0xD9, scanScope s.jtag.scanSel)] ∨
      (∃ n w d, (c, code, scope) = (Instr.procReg n w d, 0xD3, procScope v)) ∨ (∃ a, (c, code, scope) = (Instr.memAddr a, 0xD4, 1)) ∨
      (∃ w d, (c, code, scope) = (Instr.memData w d, 0xD5, 1)) ∨ (∃ o w d, (c, code, scope) = (Instr.regAccess o w d, 0xD6, 1)) ∨
      (∃ x, (c, code, scope) = (Instr.procSel x, 0xD1, procScope x)) ∨ (∃ x, (c, code, scope) = (Instr.scanSel x, 0xD7, scanScope x)) ∨
      (∃ l, (c, code, scope) = (Instr.scanShift l, 0xD8, scanScope s.jtag.scanSel)) →
      bit s.sec.scopes scope = false → exec c s = .next (s.actsBypass code)) ∧
    (s.sec.scopes = 0 → exec .dbgStatus s = .next (s.actsBypass 0xD0)) ∧
    (s.sec.scopes ≠ 0 → exec .dbgStatus s = .next (s.undriven.tap 0xD0 (natBits 64 (s.sec.scopes + 8 * b2n s.selHalted)))) ∧
    (∀ x, bit s.sec.scopes (procScope x) = true → ∃ t, exec (.procSel x) s = .next t ∧ t.jtag.procSel = x % 512 ∧
      t.jtag.dr = natBits 16 v ∧ t = { s with jtag := t.jtag, out := t.out }) ∧
    (bit s.sec.scopes (procScope v) = true → s.procUp p = true →
      (s.procs.halted.contains p = false →
        ∃ t, exec .procHalt s = .next t ∧ t.procs.halted = s.procs.halted ++ [p] ∧
          t = { s with procs := t.procs, clusters := t.clusters, jtag := t.jtag, out := t.out } ∧
          ((∀ d c, p ≠ .control d c) → t.clusters = s.clusters)) ∧
      (s.procs.halted.contains p = true →
        (∃ t, exec .procStep s = .next t ∧ t.procs.halted = s.procs.halted ∧ t.procs.epoch = s.procs.epoch + 1 ∧
          t = { s with procs := t.procs, jtag := t.jtag, out := t.out }) ∧
        (exec .procRun s = .next ((State.resumeProc (State.procMoved
          { s.undriven with procs := { s.procs with halted := s.procs.halted.filter (· ≠ p) } } p) p).tap 0xD2 (natBits 8 2))) ∧
        (∀ n d, ∃ t, exec (.procReg n true d) s = .next t ∧ (procCode p, n % 256, d) ∈ t.procs.regs ∧ t.jtag.dr = natBits 64 d.toNat ∧
          t = { s with procs := t.procs, jtag := t.jtag, out := t.out }))) ∧
    (bit s.sec.scopes (procScope v) = true → s.selHalted = false → ∀ n w d, exec (.procReg n w d) s =
      .next (s.undriven.tap 0xD3 (natBits 64 0))) ∧
    (bit s.sec.scopes 1 = true →
      (∀ a, ∃ t, exec (.memAddr a) s = .next t ∧ t.jtag.memAddr = a % 2 ^ 52 / 8 * 8 ∧ t = { s with jtag := t.jtag, out := t.out }) ∧
      (∀ w d, ∃ t, exec (.memData w d) s = .next t ∧ t.jtag.memAddr = (s.jtag.memAddr + 8) % 2 ^ 52 ∧
        t.jtag.dr = natBits 64 (s.undriven.debugAccess s.jtag.memAddr w d).1.toNat ∧
        t.mem = (s.undriven.debugAccess s.jtag.memAddr w d).2.mem) ∧
      (∀ o d, exec (.regAccess o true d) s = .next ((s.undriven.regWrite 0 97 (o % 2 ^ 26) 8 d.toNat).tap 0xD6 (natBits 64 0))) ∧
      (∀ o d, exec (.regAccess o false d) s = .next ((s.undriven.regRead 0 (o % 2 ^ 26) 8).2.tap 0xD6
        (natBits 64 (s.undriven.regRead 0 (o % 2 ^ 26) 8).1.toNat)))) ∧
    (∀ x, bit s.sec.scopes (scanScope x) = true → ∃ t, exec (.scanSel x) s = .next t ∧ t.jtag.scanSel = x % 2 ^ 17 ∧
      t = { s with jtag := t.jtag, out := t.out }) ∧
    (bit s.sec.scopes (scanScope s.jtag.scanSel) = true →
      (∃ t, exec .scanLen s = .next t ∧ t.jtag.dr = natBits 32 (Config.scanLength s.jtag.scanSel) ∧ t = { s with jtag := t.jtag, out := t.out }) ∧
      ∀ l, ∃ t, exec (.scanShift l) s = .next t ∧ t.jtag.dr.length = Config.scanLength s.jtag.scanSel ∧
        (s.scanRests = false → t.jtag.dr = List.replicate (Config.scanLength s.jtag.scanSel) false) ∧ t = { s with jtag := t.jtag, out := t.out, fresh := t.fresh })

/-! ## Reedway (chapter 19) and peer memory (R313, R314) -/

/-- R414, R415, R417, R420: what a port that is up sends next: the RETRY it owes, else the oldest flit to send again, else the next
flit of the virtual channel that R420 picks, numbered, kept for replay and charged one credit, else NULL; a flit sent again carries the
ACK and, where it carried none, the CREDIT of now. R418: a module without FABRIC_ID sends no message. A RETRY that arrives sends
the sender back to the SEQ it names. R415, R420: a flit that fails its check is counted and
recorded, one with another SEQ than the one expected is
not; the first owes a RETRY, the second one where none is under way. A NULL flit brings its ACK and CREDIT, a RETRY flit that and the SEQ to go back to, and a DATA or TRAIN
flit in turn moves the SEQ expected on. -/
def Obligations.FlitsAreSentAndReceived : Prop :=
  (∀ (s : State) (n : Nat),
     let u := s.flushPeer
     let p := u.port n
     let ack := p.fields.1
     let cvc := p.fields.2.1
     let cn := p.fields.2.2.1
     let q := p.fields.2.2.2
     (p.state = 2 → p.retryOwed = true → exec (.flitTransmit n) s = .next
       (((u.modPort n fun _ => { q.slot false with retryOwed := false }).put
         (.flit n (flitBytes 3 0 false false 0 ack cvc cn (leBytes 2 p.rxSeq)))).cntPort n 0)) ∧
     (p.state = 2 → p.retryOwed = false → ∀ i b rest, p.resend = (i, b) :: rest →
       let x := p.refit b
       exec (.flitTransmit n) s = .next ((((u.modPort n fun _ => { x.2.slot (fld (at' x.1 0 1) 4 3 = 0) with
         resend := rest, replay := x.2.replay.map fun y => if y.1 = i then (i, x.1) else y }).put (.flit n x.1)).cntPort n 0).cntPort n 6)) ∧
     (p.state = 2 → p.retryOwed = false → p.resend = [] → p.replay.length < 512 → (u.func (u.fnOf (n / 6))).ep.fabricId ≠ 0 →
       ∀ vc m ms, p.pickVc = some vc →
       p.queues.getD vc [] = m :: ms →
       let last := (m.bytes.drop 240).isEmpty
       let b := flitBytes 1 vc (!m.started) last p.txSeq ack cvc cn (m.bytes.take 240)
       let waits := vc = 0 && (List.range 7).any fun i => p.readyVc (i + 1)
       let q := q.slot (vc = 0)
       let v := (((u.modPort n fun _ => { q with
         txSeq := (p.txSeq + 1) % 4096, replay := q.replay ++ [(p.txSeq, b)], credits := modNth (· - 1) vc q.credits,
         queues := modNth (fun _ => if last then ms else { m with bytes := m.bytes.drop 240, started := true } :: ms) vc q.queues,
         rr := if vc = 0 then q.rr else vc % 7 + 1, delayed := if vc = 0 then q.delayed || waits else false,
         wire := if last then q.wire ++ [(m.sent, p.txSeq)] else q.wire }).put (.flit n b)).cntPort n 0).protect (n / 6)
       exec (.flitTransmit n) s = .next (if waits && !p.delayed then v.cntPort n 13 else v)) ∧
     (p.state = 2 → p.retryOwed = false → p.resend = [] →
       (512 ≤ p.replay.length ∨ (u.func (u.fnOf (n / 6))).ep.fabricId = 0 ∨ p.pickVc = none) →
       exec (.flitTransmit n) s = .next ((u.modPort n fun _ => q.slot false).put (.flit n (flitBytes 0 0 false false 0 ack cvc cn [])))) ∧
     (∀ seq, n < 24 → (s.port n).state = 2 → exec (.retry n seq) s = .next ((s.modPort n fun p =>
       { p with
         resend := p.replay.dropWhile (fun x => x.1 ≠ seq), retrySeq := seq,
         retryCount := if p.retrySeq = seq then p.retryCount + 1 else 1 }).cntPort n 5))) ∧
  (∀ (s : State) (n c x : Nat) (b : List Byte), (s.port n).state = 2 → n < 24 →
     let type := fld (at' b 0 1) 0 4
     let sound := b.length = 256 ∧ crc64 (b.take 248) = at' b 248 8 ∧ type ≤ 3
     let owe (corrupt : Bool) (u : State) : State :=
       u.modPort n fun p => if p.retrying && !corrupt then p else { p with retryOwed := true, retrying := true }
     let w := (s.cntPort n 2 c).cntPort n 3 x
     let u := w.modPort n fun p => (if bit (at' b 4 2) 15 then p.acked (at' b 4 2 % 4096) else p).credited (at' b 6 2 / 2 ^ 13) (at' b 6 2 % 2 ^ 13)
     let run := exec (.flitReceive n ⟨c, x, b⟩) s
     let done (x : State) : State := x.exercised (n / 6) [.port n]
     (¬ sound → run = .next (done (owe true (((w.cntPort n 4).fault ((w.cntPort n 4).witness (n / 6)) 6 4 n 1).1)))) ∧
     (sound → type = 0 → run = .next (done u)) ∧
     (sound → type = 3 → run = .next (done ((u.cntPort n 1).retryFrom n (at' b 8 2 % 4096)))) ∧
     (sound → type = 1 ∨ type = 2 → at' b 2 2 % 4096 ≠ (s.port n).rxSeq → run = .next (done (owe false w))) ∧
     (sound → type = 1 ∨ type = 2 → at' b 2 2 % 4096 = (s.port n).rxSeq →
       let v := (u.cntPort n 1).modPort n fun p => { p with
         rxSeq := (at' b 2 2 % 4096 + 1) % 4096, ackOwed := some (at' b 2 2 % 4096), retrying := false, retryOwed := false }
       run = .next (done (if type = 1 then (v.protect (n / 6)).assemble n b else v))))

/-- R416, R419, R421, R424: eight retries make a port or a die-to-die link retrain, and a partner that trains a port; a training that takes too long takes it down, a
version that both ends have brings it up, an acknowledgement ends the retransmission of a message and settles the row that it
carried, and one that is missing sends it again. -/
def Obligations.PortsTrainAndMessagesAreAcknowledged : Prop :=
  ∀ s : State,
    (∀ n, n < 24 → (s.port n).state = 2 →
      (8 ≤ (s.port n).retryCount → exec (.retryLimit n) s = .next (s.retrainPort n)) ∧
      (s.up (n / 6) = true → exec (.linkPartnerTraining n) s = .next (s.retrainPort n))) ∧
    (∀ n, n < 24 → s.up (n / 6) = true → ((s.port n).state = 3 ∨ (s.port n).state = 1 ∧ (s.port n).noVer = false) →
      exec (.linkTrainTimeout n) s = .next (s.portDown n)) ∧
    (∀ n, 24 ≤ n → n < 36 → s.up (d2dLink n).1 = true → s.up (d2dLink n).2 = true →
      exec (.linkTrainTimeout n) s = .next (s.linkFail n) ∧
      ∀ seq k, s.linkRetries.lookup n = some (seq, k) → 8 ≤ k → exec (.retryLimit n) s = .next (s.linkRetrain n)) ∧
    (∀ n (p : Partner), n < 24 → (s.port n).en = true → ((s.port n).state = 1 ∨ (s.port n).state = 3) →
      let v := min s.rwHigh p.hi
      (1 ≤ v → p.lo ≤ v → ∃ t, exec (.linkTrainDone n p) s = .next t ∧ (s.ports.length = 24 → (t.port n).state = 2 ∧ (t.port n).ver = v ∧
        (t.port n).partner = p.ident ∧ (t.port n).rxSeq = 0) ∧ t.cores = s.cores ∧ t.fw = s.fw) ∧
      (v < 1 ∨ v < p.lo → ∃ t, exec (.linkTrainDone n p) s = .next t ∧ (s.ports.length = 24 → (t.port n).state = 1) ∧ t.cores = s.cores ∧
        t.fw = s.fw)) ∧
    (∀ f src seq,
      let mine (m : Sent) : Bool := m.dest = src && m.seq = seq && m.vc = 0
      let u := s.modFunc f fun g => { g with ep := { g.ep with unacked := g.ep.unacked.filter fun m => !mine m } }
      exec (.deliveryAck f src seq) s = .next (if (u.endpointOf src).isSome then u
        else ((s.func f).ep.unacked.filter mine).foldl (fun v m => State.settle v f src m.msg.bytes) u)) ∧
    (∀ f dest seq m, (s.func f).ep.unacked.find? (fun m => m.dest = dest && m.vc = 0 && m.seq = seq) = some m →
      s.endpointOf dest = none →
      let r := s.queueOut m (s.sentBytes m)
      let u := r.1.modFunc f fun g => { g with ep := { g.ep with unacked := g.ep.unacked.map fun x => if x = m then { m with port := r.2 } else x } }
      exec (.e2eRetransmit f dest seq) s = .next (match r.2 with
        | some p => u.cntPort p 12
        | none => u))

/-- R305, R313, R314: a lender grants what it can and serves what it granted, a borrower installs a grant, asks the next
peer for what is still missing, and takes the answers, and after
10 ms without one a write is dropped and a read gives zeros. -/
def Obligations.PeerMemoryIsLentAndBorrowed : Prop :=
  ∀ (s : State) (f : Nat), s.fns.contains f = true →
    (∀ peer gib, (s.upDies f).isEmpty = false →
      let u := (s.take f (.grantReq gib)).1
      let r := u.grant f peer (min gib 1536)
      exec (.memGrantRequest f peer gib) s = .next (r.1.send f ((r.1.upDies f).headD 0) peer 0 (.grantReply r.2 (u.func f).granted))) ∧
    (∀ peer gib,
      let u := s.modFunc f (Func.install peer 256 gib)
      ((u.func f).asks.find? (fun a => a.waits = some peer) = none → exec (.memGrantReply f peer gib) s = .next u) ∧
      ∀ a, (u.func f).asks.find? (fun a => a.waits = some peer) = some a →
        (∀ e rest, a.rest = e :: rest → gib < a.need → exec (.memGrantReply f peer gib) s = .next
          ((u.send f ((u.upDies f).headD 0) e 0 (.grantReq (a.need - gib))).modFunc f fun g =>
            { g with asks := g.asks.map fun x => if x = a then { a with need := a.need - gib, waits := some e, rest := rest } else x })) ∧
        (a.need ≤ gib → (∀ c, a.sub = some c → c.opcode ≠ 0x0301) → exec (.memGrantReply f peer gib) s = .next
          (u.modFunc f fun g => { g with asks := g.asks.map fun x => if x = a then { a with need := 0, waits := none, rest := [] } else x }))) ∧
    (∀ m : PeerMem, (s.upDies f).isEmpty = false →
      let u := (s.take f (.peerReq m)).1
      let n := if m.write then m.data.length else m.len
      let ps := pieces ((u.func f).grants.filter fun g => g.peer = m.peer) m.offset n
      let answer (v : State) (b : List Byte) : State := v.send f ((v.upDies f).headD 0) m.peer 0 (.peerResp { m with data := b })
      ((ps.map (·.2)).sum ≠ n → exec (.peerMemRequest f m) s = .next (answer (u.violOor f) (if m.write then [] else zeros n))) ∧
      ((ps.map (·.2)).sum = n → m.write = true → exec (.peerMemRequest f m) s = .next (answer (ps.foldl (fun x p =>
        (State.store x.1 p.1 (x.2.take p.2), x.2.drop p.2)) (u, m.data)).1 [])) ∧
      ((ps.map (·.2)).sum = n → m.write = false → ∀ a, ps = [(a, n)] →
        exec (.peerMemRequest f m) s = .next (answer (u.checkedRead a n).2 (u.checkedRead a n).1))) ∧
    (∀ a ap p rest, SMap.find a (s.func f).apertures = some ap → ap.pending = p :: rest →
      (∀ data,
        let u := (s.take f (.peerResp { p.mem with data := data })).1.modAperture f a fun x => { x with pending := rest }
        let b := (data ++ zeros p.mem.len).take p.mem.len
        exec (.peerMemResponse f a data) s = .next (if p.mem.write then u else
          (u.apImage f a ap.base p rest b).rowAnswered f p b)) ∧
      (let base := ap.base
       let u := s.modAperture f a fun x => { x with pending := rest }
       let v := (u.cntDie (u.lead f) 45).emit (u.lead f) 7 a (apBase + apSpan * a + (p.mem.offset - base)) 3
       exec (.peerAccessTimeout f a) s = .next (if p.mem.write then v.apImage f a base p rest p.old
         else (v.apImage f a base p rest (zeros p.mem.len)).rowAnswered f p (zeros p.mem.len))))

/-! ## Chorus (chapter 11) -/

/-- R258, R259, R265, R269, R271: a contribution is checked, held unless the mask excludes its rank or the result has gone out, and
acknowledged to the rank it came from; one that fails its checksum is refused and recorded, and the segment's owner
goes on with what it holds. R36: one whose FMT no contribution has is malformed and has no effect, and one of another format than the
group's is not held (the model's choice: log 22). R260 to R263, R265: the add of a shard whose
contributions are all held broadcasts its result once, after a second add where the first failed its checks, and on another core where
that failed too; the lanes that failed their residue in it go the way of R230, and the die that adds is protected (R336). -/
def Obligations.ContributionsAreHeldAndAdded : Prop :=
  (∀ (s : State) (f : Nat) (seg : Bool) (x : ChorusMsg) (slot r : Nat) (gr : Group),
     let m := { x with kind := if seg then 7 else 0 }
     let u := (s.take f (.chorus m)).1
     let c := (u.func f).chorusStep slot m.step
     let out := seg = false ∧ ∃ k, c.mask = some k ∧ maskHas k m.rank = false
     let ack (nack : Bool) (v : State) : State :=
       (v.handle f).sendRank f gr r 0 { gr.msg 4 0 m.step with nack := nack, subject := r, shard := m.shard, pgroup := m.pgroup }
     let fin (v : State) : State := if seg then v else v.segmentWork f slot m.step (· = m.shard)
     let run := exec (if seg then .segmentContribution f x else .chorusContribution f x) s
     (u.func f).slotOfTag m.groupTag = some slot → (u.func f).groups.getD slot none = some gr → gr.sender seg m = some r →
       (wireCodeOk seg m.fmt = false → run = .next u) ∧
       (wireCodeOk seg m.fmt = true →
       (payloadSum m.fmt m.payload ≠ m.checksum → run = .next (fin (ack true
         ((u.cntMod f 8).note (u.witness (u.liveDie f (u.shardDie gr m.shard))) 7 3 0 1)))) ∧
       (payloadSum m.fmt m.payload = m.checksum → out → run = .next (fin (ack false (u.cntMod f 5)))) ∧
       (payloadSum m.fmt m.payload = m.checksum → ¬ out → run = .next (fin (ack false
         (if c.broadcast.any (fun b => b.shard = m.shard) || m.fmt ≠ gr.wireCode seg then u
         else u.modChorus f slot m.step fun c => { c with held := holdIn c.held seg m })))))) ∧
  (∀ (s : State) (f j : Nat) (a : OwnerAdd) (sumFail again : Bool) (l r : List ChorusStep) (c : ChorusStep) (gr : Group) (k : ChorusMsg)
       (ms : List ChorusMsg),
     (s.func f).chorus.steps = l ++ c :: r →
     (∀ x g, x ∈ l → (s.func f).groups.getD x.slot none = some g → readyShard g x j = none) → (s.func f).groups.getD c.slot none = some gr → readyShard gr c j = some ms → c.mask = some k →
     let u := if sumFail then s.cntMod f 9 (if again then 2 else 1) else s
     let v := if !sumFail || u.fnOf (coreDie a.core) ≠ f then u
       else if again then u.retireCore a.core 7 true else u.note (coreDie a.core) 7 0 a.core 1
     exec (.chorusOwnerAddDone f j sumFail again a) s = .next
       (((v.addShard f c.slot c.step j gr k ms).vecFail a.lanes).protect (v.liveDie f (v.shardDie gr j))))

/-- R254, R259, R262, R266 to R270, R275, R276: what each other Chorus message, and each time-out, does at a member of its group.
Table 17.4: while the control core that handles them is stopped, the messages wait at the die (which cluster it is: log 71). -/
def Obligations.ChorusDecidesAndDelivers : Prop :=
  ∀ (s : State) (f : Nat) (m : ChorusMsg) (slot : Nat) (gr : Group),
    let w := (s.take f (.chorus m)).1
    let u := w.handle f
    (s.comes f (.chorus m) = true → s.chorusStops f = false →
      (u.func f).slotOfTag m.groupTag = some slot → (u.func f).groups.getD slot none = some gr →
      let c := (u.func f).chorusStep slot m.step
      (gr.isIn m.rank = true → c.decided = none → c.mask = none → c.marks.any (fun k => k.rank = m.rank) = false →
        let v (w : Bool) := u.modChorus f slot m.step fun c => { c with marks := c.marks ++ [⟨m.rank, m.nf, m.maskSum⟩], window := w }
        (gr.coordinator = some gr.me → exec (.sent f m) s =
          .next (((v true).cfgCheck f slot gr ⟨m.rank, m.nf, m.maskSum⟩).tryDecide f slot m.step)) ∧
        (gr.coordinator ≠ some gr.me → gr.deputy = some gr.me → exec (.sent f m) s = .next (v false))) ∧
      (exec (.mask f m) s = .next ((if gr.deputy = some gr.me ∧ m.rank ≠ gr.me then
          (List.range gr.ranks).foldl (fun s r => if r = gr.me then s else State.sendRank s f gr r 0 { m with rank := gr.me }) u
        else u).adoptMask f slot gr m)) ∧
      (∀ b, c.broadcast.find? (fun b => b.shard = m.shard) = some b → exec (.rereq f m) s = .next (w.sendRank f gr m.rank 0 b)) ∧
      (exec (.evict f m) s = .next (w.applyEvict f slot m.subject)) ∧
      (∀ x, (c.own.find? fun x => x.shard = m.shard && gr.target m.shard = some m.rank) = some x →
        let v := u.heard f slot
        exec (.ack f m) s = .next (if m.nack then (if c.stopped then v else v.sendOwn f gr { x with resend := true })
          else (v.modChorus f slot m.step fun c => { c with acked := c.acked ++ [m.shard] }).trySent f slot m.step))) ∧
    (s.chorusStops f = true → exec (.sent f m) s = .next s ∧ exec (.mask f m) s = .next s ∧ exec (.ack f m) s = .next s ∧
      exec (.rereq f m) s = .next s ∧ exec (.evict f m) s = .next s) ∧
    ((s.func f).slotOfTag m.groupTag = some slot → (s.func f).groups.getD slot none = some gr →
      ∀ k, ((s.func f).chorusStep slot m.step).mask = some k →
      (payloadSum 0 m.payload = m.checksum → m.maskSum = k.maskSum → exec (.chorusResult f m) s =
        .next ((w.heard f slot).modChorus f slot m.step fun c => { c with
          results := sortBy (fun a b => a.shard < b.shard) (upsert (fun x => x.shard = m.shard) (fun _ => m) m c.results) })) ∧
      ((payloadSum 0 m.payload ≠ m.checksum ∨ m.maskSum ≠ k.maskSum) → exec (.chorusResult f m) s =
        .next ((((w.heard f slot).cntMod f 8).note ((w.heard f slot).witness f) 7 3 0 1).sendRank f gr m.rank ((w.heard f slot).shardDie gr m.shard)
          { gr.msg 5 0 m.step with subject := m.rank, shard := m.shard, pgroup := m.pgroup }))) ∧
    (∀ c, leastBy (fun (a b : ChorusStep) => a.step < b.step) ((s.func f).chorus.steps.filter fun c => c.window && c.decided.isNone && c.mask.isNone) =
      some c → exec (.chorusWindowExpire f) s = .next (s.chorusDecide f c.slot c.step)) ∧
    (∀ c rank, ((s.func f).chorus.steps.find? fun c => (s.func f).chorusWaits c.slot c) = some c →
      exec (.chorusOrphanTimeout f rank) s = .next (((s.modFunc f fun g =>
        { g with groups := modNth (fun x => x.map fun gr => { gr with waiting := true }) c.slot g.groups }).cntMod f 12).emitTo [f] 15 5
          rank c.slot 2))

/-! ## Bellows, Gecko and tables (chapters 5 and 6) -/

/-- R119 to R121, R129 to R132, R126, R315: rows and pools are served at their owner, after the errors that reading them meets, replies
complete their entry, gradients are added once while their combining is open and carried to the next open one or dropped after it, or when Chorus has decided that their requester is absent, an END is noted and may close it, a RESEND sends the kept messages again,
and the frequencies of a directory are halved. Table 17.4:
what a control core handles waits while it is stopped. -/
def Obligations.BellowsMessagesAct : Prop :=
  ∀ (s : State) (f : Nat) (x : BellowsMsg) (t : Table) (b : OwnerBlock),
    (∀ (pool : Bool) (memory : List EccLine),
      let m := { x with kind := if pool then 1 else 0 }
      let e := s.eccMet memory
      let u := (e.take f (.bellows x)).1
      e.ownerStops f x = false → t.fmtOk m = true →
      (u.func f).table x.table = some t → t.block x.owner = some b → ((List.range 20).any (u.bellowsOk b.server)) = true →
      exec (if pool then .poolRequest f ⟨x, memory⟩ else .rowRequest f ⟨x, memory⟩) s = .next
        (if ((u.func f).missing t b m).isEmpty then u.serveReq f t b m
        else (u.fetchMissing f t b ((u.func f).missing t b m)).modFunc f fun g => { g with waitReqs := g.waitReqs ++ [m] })) ∧
    (∀ part : Bool,
      let u := (s.take f (.bellows x)).1
      let hit (e : GatEntry) : Bool := e.step = x.step && e.desc = x.desc && e.entry = x.entry && !e.done
      ∀ e n p, (u.func f).gather.find? hit = some e → (u.func f).activePlan = some (n, p) → (u.func f).table x.table = some t →
      t.fmtOk x = true →
      let e := { e with replies := e.replies ++ [x] }
      let full := e.want ≤ e.replies.length
      let v := (u.modFunc f fun g => { g with gather := g.gather.map fun y => if hit y then { e with done := full } else y }).modClu e.die e.cluster
        fun c => { c with bellows := { c.bellows with inflight := c.bellows.inflight - 1 } }
      exec (if part then .partialReply f x else .rowReply f x) s = .next
        (((if full then v.writeEntry f (p.desc x.desc) t e else v).sendNext f e.die e.cluster).settleBellows f e.die e.cluster)) ∧
    (let m := { x with kind := 4 }
     let u := (s.take f (.bellows x)).1
     t.fmtOk m = true → (u.func f).table x.table = some t → t.block x.owner = some b →
     (match (u.func f).combine t.id x.owner x.step with | some c => c.added.any fun y => y.2 = m | none => false) = false →
     let late := (u.func f).combineClosed t.id x.owner x.step || ((u.func f).absent t x.step).contains x.req
     (late = false → exec (.gradient f x) s = .next (u.addGrad f t b m)) ∧
     (late = true →
       let v := u.cntClu b.server (u.serving b.server x.cluster) 14
       exec (.gradient f x) s = .next (if (v.func f).lateDrop then v
         else v.modFunc f fun g => { g with lateGrads := g.lateGrads ++ [{ m with step := g.foldStep m }] }))) ∧
    (let u := (s.take f (.bellows x)).1
     s.ownerStops f x = false → (∀ c, (u.func f).combine x.table x.owner x.step = some c → c.closed = false) →
     exec (.endMark f x) s = .next ((u.modFunc f fun g => g.modCombine x.table x.owner x.step fun c =>
       { c with ends := c.ends ++ [endKey x.req x.desc] }).tryCloseAll f x.table x.owner x.step)) ∧
    (s.ownerStops f x = true → exec (.rowRequest f ⟨x, []⟩) s = .next s ∧ exec (.poolRequest f ⟨x, []⟩) s = .next s ∧ exec (.endMark f x) s = .next s) ∧
    (let u := (s.take f (.bellows x)).1
     let die := s.physDie f (fld x.req 0 2)
     (s.procStops (.control die (s.serving die x.cluster)) = true → exec (.resend f x) s = .next s) ∧
     (s.procStops (.control die (s.serving die x.cluster)) = false → (u.func f).table x.table = some t → exec (.resend f x) s = .next
       (((u.func f).keptGrads.filter fun y => y.1 = x.owner && y.2.table = x.table && y.2.step = x.step && y.2.req = x.req).foldl
         (fun v y => State.sendOwner v f die t y.1 (.bellows y.2)) u))) ∧
    (∀ d, d < s.dies.length → 2 ^ 20 ≤ (s.die d).gecko.accesses → ∃ v, exec (.geckoHalve d) s = .next v ∧
      (v.die d).gecko.entries = (s.die d).gecko.entries.map (fun e => (e.1, { e.2 with freq := e.2.freq / 2 })) ∧
      (v.die d).gecko.accesses = (s.die d).gecko.accesses - 2 ^ 20 ∧ (v.die d).gecko.halvings = ((s.die d).gecko.halvings + 1) % 2 ^ 16 ∧
      v = { s with dies := v.dies } ∧ ∀ e, e ≠ d → v.die e = s.die e)

/-- R147 to R150, R153: the steps of Table 6.4 and the messages that a row which has moved is served by. -/
def Obligations.MigrationMovesRows : Prop :=
  ∀ (s : State) (f : Nat) (m : TableMsg) (t : Table) (b : OwnerBlock),
    let u := (s.take f (.tableMaint m)).1
    let src := (s.take f (.tableMaint m)).2
    s.comes f (.tableMaint m) = true →
    ((u.func f).table m.table = some t → t.block m.oldOwner = some b →
      ((u.func f).away t m.oldOwner m.row = false → (u.func f).migOf t.id m.oldOwner m.row = none → m.row < t.rows →
        exec (.move f m) s = .next ((u.modFunc f fun g =>
            { g with
              migs := g.migs ++ [⟨t.id, m.row, m.oldOwner, m.newOwner, m.shard, none, 0, false, false, [], (u.func f).hostMoves.contains (t.id, m.row), m.step⟩]
              hostMoves := g.hostMoves.filter (· ≠ (t.id, m.row)) }).sendOwner f b.server t m.newOwner
          (.tableMaint { m with kind := 1, lastRound := false, held := false, payload := [] }))) ∧
      (∀ x, (s.func f).table m.table = some t → (s.func f).migOf m.table m.oldOwner m.row = some x → x.slot = none →
        s.imageWait f t b m.row = none →
        let y := { x with slot := some m.slot, round := 1, dirty := false }
        exec (.reserveAck f m) s = .next ((u.modFunc f fun g => g.modMig t.id m.oldOwner m.row fun _ => y).sendCopy f t b y 3))) ∧
    ((s.func f).table m.table = some t → t.block m.newOwner = some b →
      let i := t.slotIndex m.row m.slot
      let home := (t.home m.row).1 = m.newOwner ∧ (t.home m.row).2.1 = m.shard
      (home → exec (.reserve f m) s = .next (u.sendOwner f b.server t m.oldOwner
        (.tableMaint { m with kind := 2, slot := homeMark, payload := [] }))) ∧
      (¬ home → ∀ k, t.freeMig m.newOwner m.shard = some k →
        exec (.reserve f m) s = .next ((u.modFunc f fun g => g.modTable t.id fun t => { t with migUsed := t.migUsed ++ [(m.newOwner, m.shard, k)] }).sendOwner
          f b.server t m.oldOwner (.tableMaint { m with kind := 2, slot := k, payload := [] }))) ∧
      (¬ home → t.freeMig m.newOwner m.shard = none → exec (.reserve f m) s = .next s) ∧
      (∀ final : Bool, (u.func f).table m.table = some t → exec (if final then .finalCopy f m else .copy f m) s = .next
        ((u.modFunc f fun g => (g.unpoison t.id m.newOwner m.shard i).modTable t.id fun t =>
          { t with flipped := t.flipped.erase (m.newOwner, m.shard, i) }).slotWrite t b m.shard i false 0
          (m.payload.take t.stride))) ∧
      (let w : RowWrite := ⟨t.id, m.row, at' m.payload 4 4 = t.elems, at' m.payload 0 4, at' m.payload 4 4,
         (m.payload.drop 8).take (at' m.payload 4 4 * t.width), none⟩
       ((s.func f).reserved t m = false → exec (.fwdWrite f m) s = .next
         ((u.ownerWrite f t m.newOwner w).settleFrom f src (tableMsgEncode m))) ∧
       ((s.func f).reserved t m = true → (s.func f).uWriting t = true → exec (.fwdWrite f m) s = .next s) ∧
       ((s.func f).reserved t m = true → (s.func f).uWriting t = false →
         (∀ x, (s.func f).migOf t.id m.newOwner m.row = some x → x.holding = false) → s.readBusy f t b m.shard i w = false →
         exec (.fwdWrite f m) s = .next (((u.rowPut f t b m.shard i w).modFunc f fun g =>
           g.modMig t.id m.newOwner m.row fun x => { x with dirty := true }).settleFrom f src (tableMsgEncode m)))) ∧
      ((s.func f).reserved t m = false → (s.func f).away t m.newOwner m.row = true →
        let x := (s.func f).awayAt t m.newOwner m.row
        exec (.fwdFetch f m) s = .next ((u.cntDie b.server 11).sendOwner f b.server t
          x.1 (.tableMaint { m with newOwner := x.1, shard := x.2.1, slot := x.2.2 }))) ∧
      (((s.func f).reserved t m = true ∨ (s.func f).away t m.newOwner m.row = false) →
        let k := t.slotKey b m.shard i (t.isFlipped b.owner m.shard i)
        let r := u.slotRead f t b m.shard i t.rowBytes
        (s.func f).atHand k t.id m.row = true →
        exec (.fwdFetch f m) s = .next ((r.2.modFunc f fun g => if k < apBase then g else g.dropRow t.id m.row).sendOwner f b.server t m.oldOwner
          (.tableMaint { m with kind := 9, payload := r.1 })))) ∧
    (exec (.fwdReply f m) s = .next ((u.modFunc f fun g => { g with fwdRows := g.fwdRows ++ [⟨m.table, m.row, m.payload⟩] }).retryRequests f)) ∧
    (exec (.fwdEnd f m) s = .next ((u.modFunc f fun g => g.modCombine m.table m.newOwner m.step fun c =>
      { c with stubsOwed := c.stubsOwed.erase m.oldOwner }).tryClose f m.table m.newOwner m.step)) ∧
    ((∀ t, (s.func f).table m.table = some t → ∀ r, r ∈ (bellowsParse m.payload).rows →
        ((s.func f).slotAt t m.newOwner r).isSome = true ∨ ((s.func f).stub t.id m.newOwner r).isSome = true) →
      exec (.fwdGrad f m) s = .next ((u.modFunc f fun g => g.modCombine m.table m.newOwner m.step fun c =>
      if c.stubsOwed.contains m.oldOwner then c else { c with stubsOwed := c.stubsOwed ++ [m.oldOwner] }).gradIn f
        { bellowsParse m.payload with owner := m.newOwner, step := m.step } true)) ∧
    (let l := { Loc.parse m.payload with eff := m.step }
     ((u.func f).table l.table).isSome = true → ((u.func f).locPending.contains (m.step, l) || (u.func f).locs.contains l) = false →
     exec (.locUpdate f m) s = .next ((((u.modFunc f fun g => { g with locPending := g.locPending ++ [(m.step, l)] }).retryRequests f).startJobs
       f false).startJobs f true)) ∧
    (∀ x k, (s.func f).table m.table = some t → (s.func f).migs.find? (fun x => x.table = m.table && x.row = m.row) = some x →
      t.block x.oldOwner = some b → x.slot = some k → (x.dirty = true → s.imageWait f t b m.row = none) →
      let change (y : Mig) : State := s.modFunc f fun g => g.modMig m.table x.oldOwner m.row fun _ => y
      exec (.migrationRoundEnd f m.table m.row) s = .next
        (if x.holding || !x.dirty then s.switchRow f t b x
        else if x.round < 3 then
          ((change { x with round := x.round + 1, dirty := false }).cntDie b.server 9).sendCopy f t b { x with round := x.round + 1, dirty := false } 3
        else ((change { x with holding := true, dirty := false }).cntDie b.server 10).sendCopy f t b { x with holding := true, dirty := false } 4)) ∧
    (∀ r : RoutedRow, let v := (s.take f (.routed r)).1
      let o := ((s.func f).locate t r.row).1
      s.comes f (.routed r) = true → (s.func f).table r.table = some t →
        (t.rows ≤ r.row → exec (.routedRowWrite f r) s = .next (v.violOor f)) ∧
        (r.row < t.rows → (t.block o).isSome = true → (s.func f).holdsWrite t o r.row = true → exec (.routedRowWrite f r) s = .next s) ∧
        (r.row < t.rows → ((t.block o).isNone = true ∨ (s.func f).holdsWrite t o r.row = false) → exec (.routedRowWrite f r) s = .next
          (((if (t.block o).isNone then v.cntDie ((v.upDies f).headD 0) 11 else v).routeRow f t
            ⟨r.table, r.row, r.replace, r.first, r.count, r.data, none⟩).settleFrom f (s.take f (.routed r)).2 (WireMsg.routed r).bytes)))

/-! ## The step (chapter 3) -/

/-- R74 to R78, R85 to R88, R97, R107, R112, R283, R315, R316, R333, R334: slices and descriptors complete, after the errors that their
reads met, phases follow behind their barrier once their working memory is at hand, a step ends with its record, and the waits of a step
end. -/
def Obligations.StepsGoOn : Prop :=
  ∀ (s : State) (f slot : Nat) (p : Plan) (st : Step), (s.func f).activePlan = some (slot, p) →
    (∀ ahead i (r : JobEnd) j v,
      let e := s.eccMet r.memory
      (e.func f).activePlan = some (slot, p) → (e.func f).step? ahead = some st →
      st.jobs.find? (fun j => j.index = i && j.st = 1) = some j → st.quenched = false → e.finishJob f p ahead st j r.lanes = some v →
      exec (.descriptorComplete f ahead i r) s = .next ((((j.cores.foldl (fun w c => State.exercised w (coreDie c) [.vector c]) v).modStep f ahead
        fun x => x.setJob j 2 []).startJobs f ahead).fallIdle f ahead)) ∧
    (st.quenched = false → st.away = false → s.leadStops f = false → st.memFull = false → st.jobs.all (fun j => j.st = 2) = true →
      ((s.func f).cur = some st → st.phase ≠ .u → st.phase ≠ .r → s.badLines = [] →
        exec (.phaseComplete f false) s = .next ((((s.modStep f false fun x => x.close (s.leadClk f)).release f).enter f false
          (p.after st.phase)).startSteps f)) ∧
      ((s.func f).cur = some st → st.phase = .r →
        let skip := match ((s.func f).chorusStep p.group st.n).mask with
          | some m => m.skip
          | none => false
        let v := if skip then s else s.closeTables f st.n
        (v.func f).reduced = true → (skip || (v.func f).tablesClosed st.n) = true →
        exec (.phaseComplete f false) s = .next (v.nextPhase f p st)) ∧
      ((s.func f).ahead = some st → st.phase = .s →
        exec (.phaseComplete f true) s = .next ((s.modStep f true fun x => x.close (s.leadClk f)).enter f true .g))) ∧
    (∀ r memory,
      let e := s.eccMet memory
      (e.func f).activePlan = some (slot, p) → (e.func f).cur = some st → st.phase = .u → st.uDone = true → st.quenched = false →
      e.leadStops f = false →
      let w := e.vecFail r
      let x := ((w.func f).cur.getD st).close (w.leadClk f)
      let mask := ((w.func f).chorusStep p.group x.n).mask
      let status := match mask, (w.func f).groups.getD p.group none with
        | some m, some gr => if m.skip then stSkipped else if gr.full m then stOk else stPartial
        | _, _ => stOk
      let v := ((w.modFunc f fun g => { g with cur := none }).endStep f slot p x status mask).boundary f x.n
      exec (.stepComplete ⟨f, r, memory⟩) s = .next ((if (v.func f).accepted.isEmpty then v.idleRamp f else v).startSteps f)) ∧
    ((s.func f).cur = some st → st.phase = .u → st.away = false →
      exec (.stepSizeWaitExpire f) s = .next ((s.modStep f false fun st => { st with waitExpired := true }).tryU f)) ∧
    (∀ d c i q a rest, s.fnOf d = f → (s.clu d c).skink.dealt = (i, q, a) :: rest → (s.func f).step? (a = 1) = some st → st.quenched = false →
      (s.clu d c).skink.takes = true → s.cluUp d c = true → s.earlyStep f d c st.n = false →
      (s.procStops (.control d c) = false ∨ (s.clu d c).skink.inWork = some (i, q, a)) →
      (exec (.skinkSliceDone d c false) s = .next ((s.sliceBuilt f d c slot p st (a = 1) i q).exercised d [.skink d c])) ∧
      (exec (.skinkSliceDone d c true) s = .next (if (s.clu d c).skink.retried then (s.cntClu d c 6).disableCluster d c 8
        else ((s.cntClu d c 6).note d 8 1 c 1).modSkink d c fun k => { k with retried := true })))

/-- R334: the start slot of a cluster takes it from those that wait, and the last one ends the stagger. R165, R168, R179, R184, R185,
R203, R205, R208, R348: a tile starts, its fills end, and it commits or meets a failed check; a column self-test ends in its decisions.
-/
def Obligations.ClustersStartAndTilesRun : Prop :=
  (∀ (s : State) (d c : Nat), d < s.dies.length →
     let left := (s.die d).drone.unstarted.filter (· ≠ c)
     let u := s.modDie d fun x => { x with drone := { x.drone with
       unstarted := left, state := if x.drone.state = 3 && left.isEmpty then 0 else x.drone.state } }
     let v := ((List.range 640).filter fun i => coreDie i = d && coreClu i = c).foldl (fun s i => State.sparseStart s i) u
     exec (.staggerStart d c) s = .next ((v.sendRequests (v.fnOf d)).tryU (v.fnOf d)) ∧ (u.die d).drone.unstarted = left) ∧
  (∀ (s : State) (i : Nat), s.coreState i = 1 →
     let m := (s.core i).mxe
     let e := (s.core i).spe
     (∀ t, (s.core i).nextTile = some t → t.sparse = false → m.drainHold = false → m.selftest = false → (s.core i).mxeOk = true →
       (s.die (coreDie i)).drone.unstarted.contains (coreClu i) = false → s.leafBehind t = false →
       let again := !t.load && m.dirtyWeights
       let load := t.load || again
       let wait := t.load && !m.filled
       let v := s.modMxe i fun m => { m with
         cur := some { t with load := load }, queue := m.queue.drop 1, runs := 0, loadWait := wait, state := if load then 1 else 2 }
       exec (.tileStart i) s = .next (if again then (v.modMxe i fun m =>
           { m with cells := m.halves.getD (1 - m.half) Weights.none, dirtyWeights := false }).cntCore i 5
         else if t.load && !wait then (v.modMxe i fun m =>
           { m with cells := m.halves.getD m.half Weights.none, half := 1 - m.half, filled := false, dirtyWeights := false }).cntCore i 5
         else v)) ∧
     (∀ t, m.toFill = some t → m.filled = false →
       let w := (s.fillFor (.matrix i) i t).1
       let mark (x : Tile) : Tile := if x.seq = t.seq then { x with counted := true } else x
       let u := (s.fillFor (.matrix i) i t).2.modMxe i fun m =>
         { m with halves := m.halves.set m.half w, filled := true, cur := m.cur.map mark, queue := m.queue.map mark }
       let v := (u.modMxe i fun m => { m.loaded with loadWait := false, state := 1 }).cntCore i 5
       exec (.stationaryFillDone i) s = .next (if m.loadWait then
         (if m.draining then (v.holdLoaded i { t with counted := true }).afterTile i else v) else u)) ∧
     (∀ t (r : TileReport), m.cur = some t → m.loadWait = false → m.selftest = false →
       let w := s.exercised (coreDie i) [.array i, .drains i, .coreStore i, .clusterBuffer (coreDie i) (coreClu i)]
       let u := (((((w.cntCore i 6 r.loadWait).cntCore i 7 r.feedDry).cntCore i 8 r.drainBlk).cntCore i 9 r.skewHold).cntCore i 10
         r.throttle).sramMet i r.sram
       let bad := u.tileMismatches i t r.upsets
       exec (.tileCommit i r) s = .next
         (if r.sram.core || r.sram.cluster then u.refillMxe i t
         else if bad.isEmpty && r.shadow.isEmpty then
           (if m.runs = 1 then u.modMxe i fun m => { m with lastChk := { m.lastChk with outcome := 1 } } else u).mxeCommit i t r.upsets
         else u.mismatch i t bad r.shadow)) ∧
     (∀ t, e.filled = false →
       let w := (s.fillFor (.sparse i) i t).1
       let u := (s.fillFor (.sparse i) i t).2
       let mark (x : Tile) : Tile := if x.seq = t.seq then { x with counted := true } else x
       ((e.loadWait && e.cur.isSome) = false → e.queue.head? = some t → exec (.operandStoreFillDone i) s = .next ((u.modSpe i fun e =>
         { e with halves := e.halves.set e.half w, filled := true, queue := e.queue.map mark }).sparseStart i)) ∧
       (e.loadWait = true → e.cur = some t → exec (.operandStoreFillDone i) s = .next (u.modSpe i fun e =>
         { e with halves := e.halves.set e.half w, half := 1 - e.half, loadWait := false, cur := e.cur.map mark }))) ∧
     (∀ t (r : SparseReport), e.cur = some t → e.loadWait = false →
       let w := s.exercised (coreDie i) [.sparse i, .coreStore i, .clusterBuffer (coreDie i) (coreClu i)]
       let u := ((w.cntCore i 41 r.loadWait).sparseRun i t).sramMet i r.sram
       ((r.sram.core || r.sram.cluster) = true → exec (.sparseTileCommit i r) s = .next (u.refillSpe i t e.runs)) ∧
       ((r.sram.core || r.sram.cluster) = false → r.residue = false → r.shadow = [] →
         exec (.sparseTileCommit i r) s = .next (u.speCommit i t)) ∧
       ((r.sram.core || r.sram.cluster) = false → (r.residue = true ∨ r.shadow ≠ []) →
         let v := (u.cntCore i 44).cntDie (coreDie i) 64 r.shadow.eraseDups.length
         let mech := if r.residue then 2 else 1
         (e.runs = 0 → exec (.sparseTileCommit i r) s = .next ((v.refillSpe i t 1).note (coreDie i) mech 0 i 1)) ∧
         (e.runs ≠ 0 →
           let x := (v.modSpe i fun e => { e with
             state := 3, cur := none, queue := [], filled := false, runs := 0, draining := false, disabling := false }).note
               (coreDie i) mech 0 i 1
           exec (.sparseTileCommit i r) s = .next (((x.moveTiles t.func i (t :: e.queue)).flagStep t.func flTileRerun).afterTile i)))) ∧
     (∀ failing, m.selftest = true →
       let u := s.testDecisions i failing
       ((u.core i).state ≠ 1 → exec (.columnSelftestDone i failing) s = .next u) ∧
       ((u.core i).state = 1 →
         let f := u.fnOf (coreDie i)
         let wide := (u.core i).mxe.queue.filter fun t => !u.fits i t
         let v := u.modMxe i (Matrix.without wide.contains)
         ((u.core i).mxe.cur = none → exec (.columnSelftestDone i failing) s = .next
           (((v.modMxe i fun m => { m with state := if m.state = 6 then 6 else 0 }).moveTiles f i wide).afterTile i)) ∧
         (∀ t, (u.core i).mxe.cur = some t → i < u.cores.length → v.fits i t = true →
           exec (.columnSelftestDone i failing) s = .next ((v.rerun i t 2).moveTiles f i wide)) ∧
         (∀ t, (u.core i).mxe.cur = some t → i < u.cores.length → v.fits i t = false →
           exec (.columnSelftestDone i failing) s = .next
             ((((v.modMxe i fun m => { m with cur := none, state := 0, runs := 0 }).moveTiles f i (t :: wide)).flagStep f flTileRerun).afterTile i)))))

/-! ## Fault containment (chapter 15) and memory (R315) -/

/-- R342, R343, Table 15.2: the first firing of a progress monitor on an item re-runs it, the second removes its core or its cluster; a
clock or a regulator that fails removes its core, its cluster or its die. R387, R388: a processor that misses its watchdog restarts
alone, and goes on with its image; the third restart within one second removes what it serves. -/
def Obligations.MonitorsAndWatchdogsContain : Prop :=
  (∀ s : State,
     (∀ u n, s.workItem u = some n →
       let d := unitDie u
       let v := (s.cntDie d 65).modDie d fun x => { x with progress := (u, n) :: x.progress.filter fun y => y.1 ≠ u }
       exec (.progressMonitorFire u) s = .next
         (if (s.die d).progress.any (fun x => x.1 = u && x.2 = n) then
           (match u with
             | .matrix i | .sparse i | .vector i | .loadStore i => v.retireCore i 9 true
             | .skink d c | .bellows d c => v.disableCluster d c 9
             | .chanter _ => v.note d 9 (unitScope u).1 (unitScope u).2 1)
         else (v.note d 9 (unitScope u).1 (unitScope u).2 1).rerunItem u)) ∧
     (∀ i, s.coreState i = 1 → exec (.clockMonitorFire (.core i)) s = .next ((s.cntDie (coreDie i) 66).retireCore i 10 true)) ∧
     (∀ d c, s.cluUp d c = true → exec (.clockMonitorFire (.cluster d c)) s = .next ((s.cntDie d 66).disableCluster d c 10)) ∧
     (∀ d, s.up d = true → exec (.clockMonitorFire (.die d)) s = .next ((s.cntDie d 66).removeDie d 10) ∧
       exec (.regulatorMonitorFire d) s = .next ((s.cntDie d 67).removeDie d 11))) ∧
  (∀ (s : State) (p : Proc),
     (s.procUp p = true → s.procStops p = false →
       let d := procDie p
       let recent := s.procs.times.filter fun x => x.1 = p && ((s.die d).clk + 2 ^ 64 - x.2) % 2 ^ 64 < second
       (recent.length < 2 → ∃ t, exec (.watchdogFire p) s = .next t ∧ p ∈ t.procs.restarting ∧ t.cores = s.cores ∧ t.fw = s.fw ∧ t.cfg = s.cfg ∧
         ((∀ d c, p ≠ .control d c) → t.clusters = s.clusters) ∧
         ∀ d c, p = .control d c → d < 4 → c < 20 → s.clusters.length = 80 →
           (t.clu d c).skink.inWork = (s.clu d c).skink.dealt.head? ∧ (t.clu d c).skink.dealt = (s.clu d c).skink.dealt) ∧
       (2 ≤ recent.length → ∀ d c, p = .control d c → ∃ t, exec (.watchdogFire p) s = .next t ∧
         (d < 4 → c < 20 → s.clusters.length = 80 → (t.clu d c).enabled = false))) ∧
     (s.procs.restarting.contains p = true → exec (.processorRestartDone p) s = .next
       ((State.actResume { s with procs := { s.procs with restarting := s.procs.restarting.filter (· ≠ p) } } p).resumeProc p)))

/-- R84, R250, R315, R344, R347, R348: background tests and the scrubber report to the mechanism of what they found, the re-plan after
a lost die lets its step run again from S, and a twin rebuilt is degraded no longer where every run has found a place. R351, R352,
R355: a set of samples lowers the lowest slack, and a plan is formed on it; the margin test of each array
is then due, and a passed background test of the array, with the plan or after it, brings the columns it found. -/
def Obligations.BackgroundWorkReportsAndPlans : Prop :=
  (∀ s : State,
     (∀ r pass which, s.restingResource r = true →
       let d := resourceDie r
       let u := (s.cntDie d 68).modDie d fun x =>
         { x with
           bistRuns := (x.bistRuns + 1) % 2 ^ 16
           bistTimes := upsert (fun (y : Resource × Nat) => y.1 = r) (fun _ => (r, (s.die d).clk)) (r, (s.die d).clk) x.bistTimes }
       let v := match r with
         | .array i => u.modMxe i fun m => { m with dirtyWeights := true, cells := Weights.none }
         | .coreStore _ | .clusterBuffer _ _ => u.cntDie d 40 which.length
         | _ => u
       exec (.backgroundSelftest r pass which) s = .next (if !pass then (v.cntDie d 69).testFailed r which
         else match r with
           | .array i => if (v.die d).axl.marginDue.contains i then v.marginTest i which else v
           | _ => v)) ∧
     (∀ a d, keyDie (a / 64 * 64) = some d → s.up d = true →
       (dramBase 4 ≤ a / 64 * 64 ∨ s.dramPresent d (a / 64 * 64 - dramBase d) = true) →
       (exec (.patrolScrub a .clean) s = .next s) ∧ (exec (.patrolScrub a .corrected) s = .next (s.cntDie d 40)) ∧
       (exec (.patrolScrub a .uncorrectable) s = .next (s.uncorrectable d (a / 64 * 64)))) ∧
     (s.quad = false → (List.range 4).any (fun d => s.up d && (s.die d).safState = 1) = true →
       let u := ((List.range 16).foldl (fun s k => State.replaceWorking s 0 k) ((List.range 4).foldl (fun s d => State.modDie s d fun x =>
         if x.safState = 1 then { x with safState := 0 } else x) s)).countLeaves 0
       exec .replanDone s = .next (match (u.func 0).cur with
         | some st => if st.quenched && !((u.func 0).stops.any fun j => j.sub.opcode = 0x0010) then
             (u.restartStep 0 flFailover st.reexec).startSteps 0 else u.startSteps 0
         | none => u.startSteps 0)) ∧
     (∀ d, s.up d = true → (s.die d).degraded = true → d < s.dies.length →
       (∀ st, (s.func (s.fnOf d)).cur = some st → bit st.flags flFailover = false) → (∀ k, ((s.func (s.fnOf d)).plans.getD k none) = none) →
       ∃ t, exec (.twinRebuildDone d) s = .next t ∧ (t.die d).degraded = false ∧ t.mem = s.mem ∧ t.cores = s.cores)) ∧
  (∀ (s : State) (d : Nat), s.up d = true →
     (∀ delays : List Int, s.axlMode d ≠ 0 → s.procStops (.power d) = false → d < s.dies.length →
       let slack := (List.range 64).map fun i => s.slackOf d i (delays.getD i 0)
       ∃ t, exec (.axlSample d delays) s = .next t ∧
       (t.die d).axl.slack = slack ∧ (t.die d).axl.sampled = true ∧ ((s.die d).axl.sampled = false → (t.die d).axl.minSlack = slack) ∧
       t.cfg = s.cfg ∧ t.cores = s.cores) ∧
     (∀ found : List (Nat × List Nat), s.procStops (.power d) = false → exec (.axolotlPlan d found) s = .next
       ((found.filter fun x => coreDie x.1 = d).foldl (fun v x => v.backgroundTest (.array x.1) true x.2) (s.formPlan d))) ∧
     (d < s.dies.length → ((s.formPlan d).die d).axl.marginDue = s.coresOf d ∧ ((s.formPlan d).die d).axl.marginal = []) ∧
     (∀ (tgt gv g f : Nat) (slack : Int), g ≤ 8 → 1250 ≤ f →
       g ≤ (axlPlan tgt slack gv g f).1 ∧ (axlPlan tgt slack gv g f).1 ≤ 8 ∧ (axlPlan tgt slack gv g f).2.1 ≤ f))

/-! ## Power (chapter 14) -/

/-- R317, R320, R322, R325, R327, R329, R331, R332: what the sensors, the limits, the clamps and the droop detectors do to a die that
is in service. -/
def Obligations.PowerEventsAct : Prop :=
  ∀ (s : State) (d : Nat), s.Inv → s.up d = true →
    (∀ w : Window, (s.die d).powered = true → ∃ t, exec (.sensorWindow d w) s = .next t ∧
      (t.die d).power.vinMv = w.vinMv ∧ (t.die d).power.dieWins = (s.die d).power.dieWins + 1 ∧
      (t.die d).power.inSum = (s.die d).power.inSum + w.inW ∧
      (t.die d).power.limRail = (decide (800 < w.amps) || ((s.die d).power.limRail && decide (800 ≤ w.amps))) ∧
      (t.die d).power.limIn = (decide (3000000000 < w.inMa * w.vinMv) ||
        ((s.die d).power.limIn && decide (w.inMa * w.vinMv = 3000000000))) ∧
      (∀ c, c < 20 → (t.clu d c).limited = ((t.die d).power.limIn || (t.die d).power.limRail)) ∧
      (t.die d).power.dram = (List.range 20).map (fun v => w.dram.getD v 0) ∧
      (t.die d).drone.amps = (if (s.die d).drone.state = 1 then max w.amps (s.die d).drone.ramp else w.amps) ∧
      (((s.die d).drone.enNow = false ∨ w.nulls = []) → t.cores = s.cores)) ∧
    (∀ ma, 3000000000 < ma * (s.die s.leader).power.vinMv → ∃ t, exec (.inputCurrentLimit (.input ma)) s = .next t ∧
      (t.die d).power = { (s.die d).power with limIn := true } ∧
      (∀ c, c < 20 → (t.clu d c).limited = true) ∧ t = { s with dies := t.dies, clusters := t.clusters }) ∧
    (∀ amps, 800 < amps → ∃ t, exec (.inputCurrentLimit (.rail d amps)) s = .next t ∧
      (t.die d).power = { (s.die d).power with limRail := true } ∧
      (∀ c, c < 20 → (t.clu d c).limited = true) ∧ t = { s with dies := t.dies, clusters := t.clusters }) ∧
    (100 ≤ (s.die d).power.overcap → (s.die d).power.hwLevel = false → ∃ t, exec .overcapTimeout s = .next t ∧
      (t.die d).power.hwLevel = true ∧ (t.die d).power.level = 38 ∧ (t.die d).power.emerg = true ∧ t.cores = s.cores) ∧
    (∀ logic vaults, logic = true → 103 < (s.die d).power.hotLogic → ∃ t, exec (.thermalClamp d logic vaults) s = .next t ∧
      (t.die d).power.clampLogic = true ∧ (t.die d).power.freq = 800 ∧ (t.die d).power.emerg = true ∧ t.cores = s.cores) ∧
    (∃ t, exec (.clampRelease d) s = .next t ∧ (t.die d).power = { (s.die d).power with
        clampLogic := (s.die d).power.clampLogic && decide (100 < (s.die d).power.hotLogic)
        clampVaults := if (s.die d).power.hotDram ≤ 90 then [] else (s.die d).power.clampVaults } ∧ t = { s with dies := t.dies }) ∧
    (110 < (s.die d).power.hotLogic ∨ 98 < (s.die d).power.hotDram → exec (.thermalTrip d) s = .next
      ((State.removeDie { s with cfg := { s.cfg with tripped := s.cfg.tripped.set d true } } d 11).modDie d fun x =>
        { x with powered := false })) ∧
    ((s.die d).power.clampLogic = false → (s.die d).power.clampVaults = [] → ∃ t, exec (.emergencyEnd d) s = .next t ∧
      (t.die d).power.hwLevel = false ∧ (t.die d).power.emerg = false ∧ t = { s with dies := t.dies }) ∧
    (∀ c, s.cluUp d c = true →
      (∃ t, exec (.droopDetect d c) s = .next t ∧ t.clu d c = { s.clu d c with droop := true } ∧ t = { s with clusters := t.clusters }) ∧
      (∀ n, (s.clu d c).droop = true → ∃ t, exec (.droopEnd d c n) s = .next t ∧ (t.clu d c).droop = false ∧ t.cores = s.cores)) ∧
    ((s.die d).power.pitchHold = true → (s.die d).power.phLow = false → 10000 ≤ (s.die d).power.lowPeriods →
      ∃ t, exec (.phLow d) s = .next t ∧ (t.die d).power.phLow = true ∧ t.cores = s.cores)

/-- R323, R324, R326, R328: a loop period moves the level and the thermal offset by the reference procedure, one step at a time, and the
clock by 25 MHz at most toward where it goes. -/
def Obligations.TheLoopRegulatesPower : Prop :=
  (∀ (s : State) (reported : Nat),
     let w := s.periodInput reported
     let cap := s.moduleCap
     let lead := s.leader
     let u := (List.range 4).foldl (fun v d => if State.up v d then State.modPower v d fun p => p.measured w cap else v) s
     let P := (u.die lead).power
     let holds := u.procStops (.power lead) || P.hwLevel
     let r := capLoop w cap (if !P.pitchHold && P.boostEn then 0 else 1) P.level P.under
     let v := if holds then u else u.modPower lead fun p => { p with under := r.2 }
     let z := (List.range 4).foldl (fun x d => State.diePeriod x d (if holds then none else some r.1) (w * 100 < cap * 97)) v
     exec (.capLoopPeriod reported) s = .next (z.fns.foldl (fun x f => State.settleMode x f) z)) ∧
  (∀ s : State, ∀ w : Nat, s.Inv → ∃ t, exec (.capLoopPeriod w) s = .next t ∧ t.cores = s.cores ∧
    ∀ d, s.up d = true → (t.die d).power.inputW = s.periodInput w ∧ (t.die d).power.dieWins = 0) ∧
  (∀ p cap lmin L under, L ≤ 38 → lmin ≤ 1 →
    (capLoop p cap lmin L under).1 ≤ 38 ∧ (cap < p → L ≤ (capLoop p cap lmin L under).1 ∧ (capLoop p cap lmin L under).2 = 0) ∧
    (p ≤ cap → cap * 97 ≤ p * 100 → capLoop p cap lmin L under = (L, 0)) ∧
    (p ≤ cap → lmin ≤ L → (capLoop p cap lmin L under).1 = L ∨ (capLoop p cap lmin L under).1 + 1 = L ∨ (capLoop p cap lmin L under).1 = lmin)) ∧
  (∀ p : Power, p.thermOfs ≤ 63 → p.offset.1 ≤ 63 ∧ p.offset.1 ≤ p.thermOfs + 1 ∧ p.thermOfs ≤ p.offset.1 + 1) ∧
  (∀ now goal, stepToward now goal ≤ now + 25 ∧ now ≤ stepToward now goal + 25 ∧ (now ≤ goal → stepToward now goal ≤ goal) ∧
    (goal ≤ now → goal ≤ stepToward now goal))

/-! ## Encodings -/

/-- R3, R150, R258: a Chorus message and a table-maintenance message read back whole, every field at every value its width holds,
behind the payload they carry. R3, R120, R123: a Bellows message reads back whole when it lists the rows it counts and carries the
winners that its operation calls for. -/
def Obligations.MessagesReadBack : Prop :=
  ((∀ m : ChorusMsg, m.wf = true → chorusParse (chorusEncode m) = m) ∧
   (∀ m : TableMsg, m.wf = true → tableMsgParse (tableMsgEncode m) = m)) ∧
  (∀ m : BellowsMsg, m.wf = true → (bellowsLists m.kind = true → m.rows.length = m.count) → (bellowsLists m.kind = false → m.rows = []) →
     (bellowsHasWinners m.kind m.op = true → m.winners.length = if m.raw then 1 else m.data.length) →
     (bellowsHasWinners m.kind m.op = false → m.winners = []) →
     (∀ x, x ∈ m.data → x < 256 ^ bellowsWidth m.kind m.op m.fmt m.raw) → bellowsParse (bellowsEncode m) = m)

/-- R3, R366: a submission reads back from its slot whole, whatever stands behind its parameters. -/
def Obligations.SubmissionsReadBack : Prop :=
  ∀ (c : Submission) (rest : List Byte), c.wf = true → parseSubmission c.src c.func (submissionImage c ++ rest) = c

/-- R3, R414: a flit is 256 bytes, passes the check of its CRC, and reads back: type, virtual channel, FIRST, LAST, SEQ, ACK, CREDIT and
payload. -/
def Obligations.FlitsReadBack : Prop :=
  ∀ (type vc seq cvc cn : Nat) (first last : Bool) (ack : Option Nat) (payload : List Byte), type < 16 → vc < 8 → seq < 4096 →
    (∀ a, ack = some a → a < 4096) → cvc < 8 → cn < 2 ^ 13 → payload.length ≤ 240 →
    let b := flitBytes type vc first last seq ack cvc cn payload
    b.length = 256 ∧ crc64 (b.take 248) = at' b 248 8 ∧ fld (at' b 0 1) 0 4 = type ∧ fld (at' b 0 1) 4 3 = vc ∧
      bit (at' b 0 1) 7 = first ∧ bit (at' b 1 1) 0 = last ∧ at' b 2 2 = seq ∧ bit (at' b 4 2) 15 = ack.isSome ∧
      at' b 4 2 % 4096 = ack.getD 0 ∧ at' b 6 2 / 2 ^ 13 = cvc ∧ at' b 6 2 % 2 ^ 13 = cn ∧
      (b.drop 8).take 240 = payload ++ zeros (240 - payload.length)

/-! ## Counters and reset values -/

/-- R449: an addition that would take the count beyond 2^48 − 1 leaves it there and sets SAT, and at that moment one notification record
of kind 1 is emitted; later events leave the counter as it is and emit nothing. What a counter reads as (R448) is its count and SAT. -/
def Obligations.CountersSaturate : Prop :=
  (∀ (s : State) (f src i n : Nat), f < s.funcs.length → 0 < n → ((s.func f).ctr i).count < 2 ^ 48 →
    let c := (s.func f).ctr i
    let put (c : Ctr) : State := s.modFunc f fun g => { g with ctrs := SMap.insert i c g.ctrs }
    (c.count + n < 2 ^ 48 → s.count f src i n = put ⟨c.count + n, c.sat⟩) ∧
    (2 ^ 48 ≤ c.count + n → c.sat = false → s.count f src i n = (put ⟨2 ^ 48 - 1, true⟩).emitTo [f] src 1 0 i 0) ∧
    (c.sat = true → c.count = 2 ^ 48 - 1 → s.count f src i n = put c)) ∧
  ∀ c : Ctr, c.count < 2 ^ 48 → fld c.value 0 48 = c.count ∧ fld c.value 48 15 = 0 ∧ bit c.value 63 = c.sat

/-- R443: after a module reset every memory reads zero, the configuration record, the fuses and the flash images are kept, and no job,
table, graph, plan, group or user program is loaded. R31, R402, R447, R456, Tables 0.4 and 1.1: what a reset leaves: nothing counted,
the time sources at 0, the journal about to record number 1, M6 and M7 zero, no scope open, the dies unpowered, the presentation to
come in force, its functions with their queues disabled. -/
def Obligations.ResetRestoresTheModule : Prop :=
  (∀ (s : State) (cold : Bool),
     let t := s.restart cold
     (∀ k n, t.load k n = zeros n) ∧ (∀ f x n, t.devRead f x n = zeros n) ∧ t.cfg = s.cfg ∧ t.fuses = s.fuses ∧ t.flash = s.flash ∧
       ∀ f, (t.func f).jobs = [] ∧ (t.func f).accepted = [] ∧ (t.func f).cur = none ∧ (t.func f).ahead = none ∧ (t.func f).tables = [] ∧
         (t.func f).progs = [] ∧ (t.func f).ftables = [] ∧ ∀ k, (t.func f).graphs.getD k none = none ∧ (t.func f).plans.getD k none = none ∧
           (t.func f).groups.getD k none = none) ∧
  (∀ (s : State) (cold : Bool),
     let t := s.restart cold
     t.clk = 0 ∧ t.journal.nextSeq = 1 ∧ t.probe = 0 ∧ t.sec.scopes = 0 ∧ t.sec.meas[6]? = some (zeros 64) ∧ t.sec.meas[7]? = some (zeros 64) ∧
       t.ready = false ∧ t.boot.done = 0 ∧ (t.quad = true ↔ s.cfg.present = 1) ∧ t.zcpPin = s.cfg.zcpPin ∧ t.rwPin = s.cfg.rwPin ∧
       (∀ d, d < 4 → (t.die d).clk = 0 ∧ (t.die d).powered = false) ∧
       (∀ f, f < 4 → (t.func f).ctrs = [] ∧ (t.func f).queues.length = (if s.cfg.present = 1 then 16 else 64) ∧
         ∀ q, q ∈ (t.func f).queues → q.en = false) ∧
       (∀ p, p < 24 → (t.port p).state = 0) ∧
       ∀ i, i < 640 → (t.core i).state = if s.fuses.absentCores.contains i then 0 else 1)
end

