-- ==== Sys2Proof/Laws/Bytes.lean ====
section
/-!
SUPPORT. Numbers stored as bytes (R3) and read back: how `at'` looks through the concatenation that a record is built as.
-/
namespace Sys2Proof.Machine

@[simp] theorem length_leBytes (n v : Nat) : (leBytes n v).length = n := by
  induction n generalizing v with
  | zero => rfl
  | succ n ih => simp [leBytes, ih]

@[simp] theorem length_zeros (n : Nat) : (zeros n).length = n := List.length_replicate

theorem leNat_leBytes (n v : Nat) : leNat (leBytes n v) = v % 256 ^ n := by
  induction n generalizing v with
  | zero => simp [leBytes, leNat, Nat.mod_one]
  | succ n ih =>
    simp only [leBytes, leNat, ih, BitVec.toNat_ofNat]
    rw [show (2 : Nat) ^ 8 = 256 from rfl, Nat.pow_succ', Nat.mod_mul]

theorem leNat_leBytes_of_lt {n v : Nat} (h : v < 256 ^ n) : leNat (leBytes n v) = v := by rw [leNat_leBytes, Nat.mod_eq_of_lt h]

/-- A field read where it was stored. -/
theorem at'_here {n v : Nat} (b : List Byte) (h : v < 256 ^ n) : at' (leBytes n v ++ b) 0 n = v := by
  unfold at'
  rw [List.drop_zero, List.take_append_of_le_length (by simp), List.take_of_length_le (by simp), leNat_leBytes_of_lt h]

/-- A field read where it was stored, whatever was stored. -/
theorem at'_first (n v : Nat) (b : List Byte) : at' (leBytes n v ++ b) 0 n = v % 256 ^ n := by
  unfold at'
  rw [List.drop_zero, List.take_append_of_le_length (by simp), List.take_of_length_le (by simp), leNat_leBytes]

/-- The fields before it are passed over. -/
theorem at'_after {a : List Byte} {off : Nat} (b : List Byte) (len : Nat) (h : a.length ≤ off) :
    at' (a ++ b) off len = at' b (off - a.length) len := by
  unfold at'
  rw [List.drop_append, List.drop_eq_nil_of_le h, List.nil_append]

theorem drop_after {a : List Byte} {n : Nat} (b : List Byte) (h : a.length ≤ n) : (a ++ b).drop n = b.drop (n - a.length) := by
  rw [List.drop_append, List.drop_eq_nil_of_le h, List.nil_append]

end Sys2Proof.Machine
end

