-- ==== Sys2Proof/Laws/Check.lean ====
section
/-!
SUPPORT. The checksum of the matrix engine (R183, R184): the compare of a vector and group passes when no fault meets it, so a tile that
meets none has no mismatch.
-/
namespace Sys2Proof.Machine

theorem foldl_products (l : List (Int × Int)) (a : Int) :
    l.foldl (fun acc (x, y) => acc + x * y) a = a + l.foldl (fun acc (x, y) => acc + x * y) 0 := by
  induction l generalizing a with
  | nil => simp
  | cons p l ih => simp only [List.foldl_cons]; rw [ih, ih (0 + _)]; omega

theorem dot_cons (x y : Int) (xs ys : List Int) : dot (x :: xs) (y :: ys) = x * y + dot xs ys := by
  unfold dot
  rw [List.zip_cons_cons, List.foldl_cons, foldl_products]
  simp

/-- A product of lists, row by row. -/
theorem dot_rows (xs ys : List Int) : dot xs ys = ((List.range xs.length).map fun k => xs.getD k 0 * ys.getD k 0).sum := by
  induction xs generalizing ys with
  | nil => simp [dot]
  | cons x xs ih =>
    cases ys with
    | nil => simp [dot]
    | cons y ys => rw [dot_cons, ih]; simp [List.range_succ_eq_map, Function.comp_def]

/-- Adding up products with one list is the product with the sums. -/
theorem sum_dots (xs : List Int) (cols : List (List Int)) :
    (cols.map fun ys => dot xs ys).sum = ((List.range xs.length).map fun k => xs.getD k 0 * (cols.map fun ys => ys.getD k 0).sum).sum := by
  induction cols with
  | nil => simp
  | cons ys cols ih =>
    rw [List.map_cons, List.sum_cons, ih, dot_rows, ← List.sum_map_add]
    simp only [List.map_cons, List.sum_cons, Int.mul_add]

theorem sum_map_mod (l : List Nat) (f g : Nat → Int) (h : ∀ k, k ∈ l → f k % 65536 = g k % 65536) :
    (l.map f).sum % 65536 = (l.map g).sum % 65536 := by
  induction l with
  | nil => rfl
  | cons k l ih =>
    rw [List.map_cons, List.map_cons, List.sum_cons, List.sum_cons, Int.add_emod, h k (by simp), ih fun j hj => h j (by simp [hj]),
      ← Int.add_emod]

/-- The checksum weight of a row of group `g`. -/
theorem checkWeights_getD (cols : List (List Blk)) {g k : Nat} (hg : g < 4) (hk : k < 32) :
    (((checkWeights cols).drop (32 * g)).take 32).getD k 0 =
      ((cols.map fun bs => ((bs.getD g ⟨0, []⟩).ms.getD k 0)).sum % 65536).toNat := by
  have e : (32 * g + k) / 32 = g := by omega
  have e' : (32 * g + k) % 32 = k := by omega
  have l : 32 * g + k < 128 := by omega
  simp [checkWeights, List.getD_eq_getElem?_getD, List.getElem?_take, hk, List.getElem?_drop, l, e, e']

/-- R184: with no fault, the group sums of the columns agree with that of the checksum column. -/
theorem checkGroup_sound (act : Blk) (cols : List (List Blk)) {g : Nat} (hg : g < 4) (ha : act.ms.length ≤ 32) :
    checkGroup act (cols.map fun bs => (bs.getD g ⟨0, []⟩, 0)) (((checkWeights cols).drop (32 * g)).take 32, 0) = true := by
  unfold checkGroup
  simp only [List.map_map, Function.comp_def, Int.add_zero, decide_eq_true_eq]
  have h := sum_dots act.ms (cols.map fun bs => (bs.getD g ⟨0, []⟩).ms)
  simp only [List.map_map, Function.comp_def] at h
  rw [h, dot_rows]
  refine sum_map_mod _ _ _ fun k hk => ?_
  have hk : k < 32 := by have := List.mem_range.1 hk; omega
  have e : (List.map Int.ofNat (((checkWeights cols).drop (32 * g)).take 32)).getD k 0 =
      (cols.map fun bs => ((bs.getD g ⟨0, []⟩).ms.getD k 0)).sum % 65536 := by
    rw [show (0 : Int) = Int.ofNat 0 from rfl, List.getD_map, checkWeights_getD cols hg hk]
    exact Int.toNat_of_nonneg (Int.emod_nonneg _ (by decide))
  rw [e]
  exact (Int.ModEq.mul_left _ (Int.mod_modEq _ _)).symm

end Sys2Proof.Machine
end

