-- ==== Sys2Proof/Laws/Mem.lean ====
section
/-!
SUPPORT. Keyed lists and device memory: what a look-up gives after an insertion or a removal, that both keep the keys rising, and that
every memory operation keeps the canonical form and leaves all other addresses alone.
-/
namespace Sys2Proof.Machine

variable {β : Type}

/-! ## Keyed lists -/

/-- Every key of a list lies above `k`. -/
def SMap.above (k : Nat) (m : List (Nat × β)) : Prop := ∀ c ∈ m, k < c.1

theorem SMap.sorted_cons (a : Nat) (v : β) (m : List (Nat × β)) :
    SMap.sorted ((a, v) :: m) = true ↔ SMap.above a m ∧ SMap.sorted m = true := by
  induction m generalizing a v with
  | nil => simp [SMap.sorted, SMap.above]
  | cons c m ih =>
    obtain ⟨b, w⟩ := c
    simp only [SMap.sorted, Bool.and_eq_true, decide_eq_true_eq, ih]
    constructor
    · rintro ⟨h, k, l⟩
      refine ⟨fun c hc => ?_, k, l⟩
      rcases List.mem_cons.1 hc with rfl | hc
      · exact h
      · exact Nat.lt_trans h (k c hc)
    · rintro ⟨h, k, l⟩
      exact ⟨h _ List.mem_cons_self, k, l⟩

theorem SMap.mem_insert (k : Nat) (v : β) (m : List (Nat × β)) (c : Nat × β) (h : c ∈ SMap.insert k v m) : c = (k, v) ∨ c ∈ m := by
  induction m with
  | nil => simpa [SMap.insert] using h
  | cons d m ih =>
    obtain ⟨a, w⟩ := d
    simp only [SMap.insert] at h
    split at h
    · simpa using h
    · split at h
      · rcases List.mem_cons.1 h with h | h
        · exact .inl h
        · exact .inr (List.mem_cons_of_mem _ h)
      · rcases List.mem_cons.1 h with h | h
        · exact .inr (h ▸ List.mem_cons_self)
        · exact (ih h).imp id (List.mem_cons_of_mem _)

theorem SMap.mem_erase (k : Nat) (m : List (Nat × β)) (c : Nat × β) (h : c ∈ SMap.erase k m) : c ∈ m := by
  induction m with
  | nil => simp [SMap.erase] at h
  | cons d m ih =>
    obtain ⟨a, w⟩ := d
    simp only [SMap.erase] at h
    split at h
    · exact List.mem_cons_of_mem _ h
    · split at h
      · exact h
      · rcases List.mem_cons.1 h with h | h
        · exact h ▸ List.mem_cons_self
        · exact List.mem_cons_of_mem _ (ih h)

theorem SMap.sorted_insert (k : Nat) (v : β) (m : List (Nat × β)) (h : SMap.sorted m = true) : SMap.sorted (SMap.insert k v m) = true := by
  induction m with
  | nil => rfl
  | cons d m ih =>
    obtain ⟨a, w⟩ := d
    have h' := (SMap.sorted_cons a w m).1 h
    simp only [SMap.insert]
    split
    case isTrue lt =>
      refine (SMap.sorted_cons _ _ _).2 ⟨fun c hc => ?_, h⟩
      rcases List.mem_cons.1 hc with rfl | hc
      · exact lt
      · exact Nat.lt_trans lt (h'.1 c hc)
    case isFalse nlt =>
      split
      case isTrue e => subst e; exact (SMap.sorted_cons _ _ _).2 h'
      case isFalse ne =>
        refine (SMap.sorted_cons _ _ _).2 ⟨fun c hc => ?_, ih h'.2⟩
        rcases SMap.mem_insert k v m c hc with rfl | hc
        · simp only; omega
        · exact h'.1 c hc

theorem SMap.sorted_erase (k : Nat) (m : List (Nat × β)) (h : SMap.sorted m = true) : SMap.sorted (SMap.erase k m) = true := by
  induction m with
  | nil => rfl
  | cons d m ih =>
    obtain ⟨a, w⟩ := d
    have h' := (SMap.sorted_cons a w m).1 h
    simp only [SMap.erase]
    split
    · exact h'.2
    · split
      · exact h
      · exact (SMap.sorted_cons _ _ _).2 ⟨fun c hc => h'.1 c (SMap.mem_erase k m c hc), ih h'.2⟩

theorem SMap.sorted_filter (p : Nat × β → Bool) (m : List (Nat × β)) (h : SMap.sorted m = true) : SMap.sorted (m.filter p) = true := by
  induction m with
  | nil => rfl
  | cons d m ih =>
    obtain ⟨a, w⟩ := d
    have h' := (SMap.sorted_cons a w m).1 h
    rw [List.filter_cons]
    split
    · exact (SMap.sorted_cons _ _ _).2 ⟨fun c hc => h'.1 c (List.mem_filter.1 hc).1, ih h'.2⟩
    · exact ih h'.2

theorem SMap.find_insert (k j : Nat) (v : β) (m : List (Nat × β)) :
    SMap.find j (SMap.insert k v m) = if k = j then some v else SMap.find j m := by
  induction m with
  | nil =>
    simp only [SMap.insert, SMap.find]
    split
    · rfl
    · split <;> rfl
  | cons d m ih =>
    obtain ⟨a, w⟩ := d
    simp only [SMap.insert]
    by_cases h1 : k < a
    · rw [if_pos h1]
      simp only [SMap.find]
      by_cases e : k = j
      · simp [e]
      · simp only [if_neg e]
        by_cases l : j < k
        · rw [if_pos l, if_neg (by omega), if_pos (by omega)]
        · rw [if_neg l]
    · rw [if_neg h1]
      by_cases h2 : k = a
      · subst h2
        simp only [if_pos, SMap.find]
        by_cases e : k = j
        · simp [e]
        · simp [e]
      · rw [if_neg h2]
        simp only [SMap.find, ih]
        by_cases e : a = j
        · rw [if_pos e, if_pos e, if_neg (by omega)]
        · simp only [if_neg e]
          by_cases l : j < a
          · rw [if_pos l, if_pos l, if_neg (by omega)]
          · rw [if_neg l, if_neg l]

theorem SMap.find_above (k : Nat) (m : List (Nat × β)) (h : SMap.above k m) : SMap.find k m = none := by
  cases m with
  | nil => rfl
  | cons d m =>
    obtain ⟨a, w⟩ := d
    have : k < a := h _ List.mem_cons_self
    simp only [SMap.find]
    rw [if_neg (by omega), if_pos this]

theorem SMap.find_erase (k j : Nat) (m : List (Nat × β)) (h : SMap.sorted m = true) :
    SMap.find j (SMap.erase k m) = if k = j then none else SMap.find j m := by
  induction m with
  | nil => simp [SMap.erase, SMap.find]
  | cons d m ih =>
    obtain ⟨a, w⟩ := d
    have h' := (SMap.sorted_cons a w m).1 h
    simp only [SMap.erase]
    by_cases h1 : a = k
    · subst h1
      rw [if_pos rfl]
      by_cases e : a = j
      · subst e; rw [if_pos rfl]; exact SMap.find_above _ _ h'.1
      · rw [if_neg e]
        simp only [SMap.find, if_neg e]
        split
        case isTrue l =>
          refine SMap.find_above _ _ fun c hc => ?_
          exact Nat.lt_trans l (h'.1 c hc)
        case isFalse l => rfl
    · rw [if_neg h1]
      by_cases h2 : k < a
      · rw [if_pos h2]
        by_cases e : k = j
        · subst e
          rw [if_pos rfl]
          simp only [SMap.find, if_neg h1, if_pos h2]
        · rw [if_neg e]
      · rw [if_neg h2]
        simp only [SMap.find, ih h'.2]
        by_cases e : a = j
        · rw [if_pos e, if_pos e, if_neg (by omega)]
        · simp only [if_neg e]
          split
          case isTrue l => rw [if_neg (by omega)]
          case isFalse l => rfl

/-! ## Device memory -/

theorem Memory.wf_nil : Memory.wf [] = true := rfl

theorem Mem.put_wf (m : List Host.Cell) (a : Nat) (v : Byte) (h : Memory.wf m = true) : Memory.wf (Mem.put m a v) = true := by
  simp only [Memory.wf, Bool.and_eq_true, List.all_eq_true] at h ⊢
  simp only [Mem.put]
  split
  · exact ⟨SMap.sorted_erase a m h.1, fun c hc => h.2 c (SMap.mem_erase a m c hc)⟩
  case isFalse ne =>
    refine ⟨SMap.sorted_insert a v m h.1, fun c hc => ?_⟩
    rcases SMap.mem_insert a v m c hc with rfl | hc
    · simpa using ne
    · exact h.2 c hc

/-- Storing bytes keeps the canonical form. -/
theorem Mem.write_wf (m : List Host.Cell) (a : Nat) (bs : List Byte) (h : Memory.wf m = true) : Memory.wf (Mem.write m a bs) = true := by
  induction bs generalizing m a with
  | nil => exact h
  | cons b bs ih => exact ih _ _ (Mem.put_wf m a b h)

/-- Removing whole addresses keeps it. -/
theorem Mem.filter_wf (m : List Host.Cell) (p : Host.Cell → Bool) (h : Memory.wf m = true) : Memory.wf (m.filter p) = true := by
  simp only [Memory.wf, Bool.and_eq_true, List.all_eq_true] at h ⊢
  exact ⟨SMap.sorted_filter p m h.1, fun c hc => h.2 c (List.mem_filter.1 hc).1⟩

/-- What an address reads after one byte is stored. -/
theorem Mem.get_put (m : List Host.Cell) (a x : Nat) (v : Byte) (h : Memory.wf m = true) :
    Mem.get (Mem.put m a v) x = if a = x then v else Mem.get m x := by
  simp only [Memory.wf, Bool.and_eq_true] at h
  simp only [Mem.get, Mem.put]
  split
  case isTrue e =>
    rw [SMap.find_erase a x m h.1]
    by_cases k : a = x
    · simp [k, e]
    · simp [k]
  case isFalse ne =>
    rw [SMap.find_insert]
    by_cases k : a = x
    · simp [k]
    · simp [k]

/-- A write leaves every address outside its range alone. -/
theorem Mem.get_write_other (m : List Host.Cell) (a x : Nat) (bs : List Byte) (h : Memory.wf m = true)
    (o : x < a ∨ a + bs.length ≤ x) : Mem.get (Mem.write m a bs) x = Mem.get m x := by
  induction bs generalizing m a with
  | nil => rfl
  | cons b bs ih =>
    simp only [List.length_cons] at o
    rw [Mem.write, ih _ _ (Mem.put_wf m a b h) (by omega), Mem.get_put m a x b h, if_neg (by omega)]

/-- A read after a write to the same place gives what was written. -/
theorem Mem.read_write (m : List Host.Cell) (a : Nat) (bs : List Byte) (h : Memory.wf m = true) :
    Mem.read (Mem.write m a bs) a bs.length = bs := by
  induction bs generalizing m a with
  | nil => rfl
  | cons b bs ih =>
    have w := Mem.put_wf m a b h
    rw [Mem.write, List.length_cons, Mem.read, ih _ _ w, Mem.get_write_other _ _ _ _ w (by omega), Mem.get_put m a a b h, if_pos rfl]

end Sys2Proof.Machine
end

