-- ==== Sys2Proof/Laws/Keeps.lean ====
section
/-!
SUPPORT. What almost every operation leaves alone: `Keeps s t` says it of a state `t` reached from `s`. One lemma per operation,
stated for any state that already keeps what `s` has, so that the lemmas chain. Here: the relation, how it passes through the
shapes of a definition, and the operations that change one instance.
-/
namespace Sys2Proof.Machine

/-- What `t` has in common with `s`: the command queue, the fuses, the presentation and pins in force, the pending presentation, the
unlocked scopes while no token waits, and every scope that is open, the rollback counter, the flash images, the start-up state and the module's time. Memory keeps its form, the
journal never goes back, the shape stays, a lost die stays lost, and a core that is absent or retired stays so. -/
structure Keeps (s t : State) : Prop where
  pending : t.pending = s.pending
  fuses : t.fuses = s.fuses
  quad : t.quad = s.quad
  zcpPin : t.zcpPin = s.zcpPin
  rwPin : t.rwPin = s.rwPin
  present : t.cfg.present = s.cfg.present
  scopes : s.sec.tokens = [] → t.sec.scopes = s.sec.scopes ∧ t.sec.tokens = []
  scopesUp : ∀ i, s.sec.scopes.testBit i = true → t.sec.scopes.testBit i = true
  arCount : t.sec.arCount = s.sec.arCount
  flash : t.flash = s.flash
  boot : t.boot = s.boot
  ready : t.ready = s.ready
  clk : t.clk = s.clk
  seq : s.journal.nextSeq ≤ t.journal.nextSeq
  mem : Memory.wf s.mem = true → Memory.wf t.mem = true
  shape : t.shape = s.shape
  lost : ∀ d, (s.die d).lost = true → (t.die d).lost = true
  core : ∀ i, (s.core i).state ≠ 1 → (t.core i).state = (s.core i).state

theorem Keeps.refl (s : State) : Keeps s s where
  pending := rfl
  fuses := rfl
  quad := rfl
  zcpPin := rfl
  rwPin := rfl
  present := rfl
  scopes := fun e => ⟨rfl, e⟩
  scopesUp := fun _ h => h
  arCount := rfl
  flash := rfl
  boot := rfl
  ready := rfl
  clk := rfl
  seq := Nat.le_refl _
  mem := id
  shape := rfl
  lost := fun _ h => h
  core := fun _ _ => rfl

theorem Keeps.trans {s t u : State} (h : Keeps s t) (k : Keeps t u) : Keeps s u where
  pending := k.pending.trans h.pending
  fuses := k.fuses.trans h.fuses
  quad := k.quad.trans h.quad
  zcpPin := k.zcpPin.trans h.zcpPin
  rwPin := k.rwPin.trans h.rwPin
  present := k.present.trans h.present
  scopes := fun e => ⟨(k.scopes (h.scopes e).2).1.trans (h.scopes e).1, (k.scopes (h.scopes e).2).2⟩
  scopesUp := fun i x => k.scopesUp i (h.scopesUp i x)
  arCount := k.arCount.trans h.arCount
  flash := k.flash.trans h.flash
  boot := k.boot.trans h.boot
  ready := k.ready.trans h.ready
  clk := k.clk.trans h.clk
  seq := Nat.le_trans h.seq k.seq
  mem := k.mem ∘ h.mem
  shape := k.shape.trans h.shape
  lost := fun d x => k.lost d (h.lost d x)
  core := fun i x => by
    have e := h.core i x
    exact (k.core i (e ▸ x)).trans e

/-! ## Shapes of definitions -/

theorem Keeps.ite {c : Prop} [Decidable c] {s a b : State} (h : Keeps s a) (k : Keeps s b) : Keeps s (if c then a else b) := by
  split <;> assumption

/-- A state bound to a name and used again. -/
theorem Keeps.letIn {s : State} (t : State) (b : State → State) (h : Keeps s t) (k : ∀ u, Keeps s u → Keeps s (b u)) : Keeps s (b t) :=
  k t h

theorem Keeps.foldl {α : Type} {s : State} {g : State → α → State} {l : List α} {t : State} (h : Keeps s t)
    (k : ∀ u x, Keeps s u → Keeps s (g u x)) : Keeps s (l.foldl g t) := by
  induction l generalizing t with
  | nil => exact h
  | cons x l ih => exact ih (k _ _ h)

/-- A fold that carries a state and something else. -/
theorem Keeps.foldlFst {α β : Type} {s : State} {g : State × β → α → State × β} {l : List α} {t : State × β} (h : Keeps s t.1)
    (k : ∀ u x, Keeps s u.1 → Keeps s (g u x).1) : Keeps s (l.foldl g t).1 := by
  induction l generalizing t with
  | nil => exact h
  | cons x l ih => exact ih (k _ _ h)

theorem Keeps.foldlSnd {α β : Type} {s : State} {g : β × State → α → β × State} {l : List α} {t : β × State} (h : Keeps s t.2)
    (k : ∀ u x, Keeps s u.2 → Keeps s (g u x).2) : Keeps s (l.foldl g t).2 := by
  induction l generalizing t with
  | nil => exact h
  | cons x l ih => exact ih (k _ _ h)

theorem Keeps.fst {β : Type} {s t : State} {p : State × β} {q : β} (e : p = (t, q)) (h : Keeps s p.1) : Keeps s t := by
  subst e; exact h

theorem Keeps.snd {β : Type} {s t : State} {p : β × State} {q : β} (e : p = (q, t)) (h : Keeps s p.2) : Keeps s t := by
  subst e; exact h

/-! ## A state inside an option -/

/-- Whenever there is an answer, its state keeps what `s` has. -/
def KeepsO {α : Type} (s : State) (o : Option (α × State)) : Prop := ∀ a t, o = some (a, t) → Keeps s t

theorem KeepsO.nothing {α : Type} {s : State} : KeepsO (α := α) s none := fun _ _ e => by cases e

theorem KeepsO.pure {α : Type} {s t : State} {a : α} (h : Keeps s t) : KeepsO s (some (a, t)) := fun _ _ e => by cases e; exact h

theorem KeepsO.map {α β : Type} {s : State} {o : Option (α × State)} {g : α × State → β × State} (h : KeepsO s o)
    (k : ∀ a t, Keeps s t → Keeps s (g (a, t)).2) : KeepsO s (o.map g) := by
  intro b u e
  cases o with
  | none => cases e
  | some x =>
    have := k x.1 x.2 (h x.1 x.2 rfl)
    simp only [Option.map_some, Option.some.injEq] at e
    rw [show (x.1, x.2) = x from rfl, e] at this
    exact this

theorem KeepsO.bind {α β : Type} {s : State} {o : Option (α × State)} {g : α × State → Option (β × State)} (h : KeepsO s o)
    (k : ∀ a t, Keeps s t → KeepsO s (g (a, t))) : KeepsO s (o.bind g) := by
  intro b u e
  cases o with
  | none => cases e
  | some x => exact k x.1 x.2 (h x.1 x.2 rfl) b u e

theorem KeepsO.foldl {α β : Type} {s : State} {g : Option (α × State) → β → Option (α × State)} {l : List β} {o : Option (α × State)}
    (h : KeepsO s o) (k : ∀ u x, KeepsO s u → KeepsO s (g u x)) : KeepsO s (l.foldl g o) := by
  induction l generalizing o with
  | nil => exact h
  | cons x l ih => exact ih (k _ _ h)

theorem KeepsO.foldlM {α β : Type} {s : State} {g : α × State → β → Option (α × State)} {l : List β} {a : α} {t : State} (h : Keeps s t)
    (k : ∀ a u x, Keeps s u → KeepsO s (g (a, u) x)) : KeepsO s (l.foldlM g (a, t)) := by
  induction l generalizing a t with
  | nil => exact KeepsO.pure h
  | cons x l ih =>
    rw [List.foldlM_cons]
    exact KeepsO.bind (k _ _ _ h) fun _ _ k => ih k

theorem Keeps.ofSome {α : Type} {s t : State} {o : Option (α × State)} {a : α} (e : o = .some (a, t)) (h : KeepsO s o) : Keeps s t :=
  h a t e

/-- Whenever there is no error, the state that `g` finds in the answer keeps what `s` has. -/
def KeepsE {ε α : Type} (g : α → State) (s : State) (o : Except ε α) : Prop := ∀ a, o = .ok a → Keeps s (g a)

theorem KeepsE.pure {ε α : Type} {g : α → State} {s : State} {a : α} (h : Keeps s (g a)) : KeepsE (ε := ε) g s (.ok a) :=
  fun _ e => by cases e; exact h

theorem KeepsE.bind {ε α β : Type} {g : α → State} {g' : β → State} {s : State} {o : Except ε α} {k : α → Except ε β}
    (h : KeepsE g s o) (hk : ∀ a, Keeps s (g a) → KeepsE g' s (k a)) : KeepsE g' s (o >>= k) := by
  intro b e
  cases o with
  | error => cases e
  | ok a => exact hk a (h a rfl) b e

theorem KeepsE.foldlM {ε α β : Type} {g : α → State} {s : State} {k : α → β → Except ε α} {l : List β} {a : α} (h : Keeps s (g a))
    (hk : ∀ a x, Keeps s (g a) → KeepsE g s (k a x)) : KeepsE g s (l.foldlM k a) := by
  induction l generalizing a with
  | nil => exact KeepsE.pure h
  | cons x l ih =>
    rw [List.foldlM_cons]
    exact KeepsE.bind (hk _ _ h) fun _ k => ih k

/-- A command's answer: a next state that keeps what `s` has. -/
def KeepsD (s : State) (o : Done) : Prop := ∃ t, o = .next t ∧ Keeps s t

theorem KeepsD.next {s t : State} (h : Keeps s t) : KeepsD s (.next t) := ⟨t, rfl, h⟩

/-! ## One instance changed -/

theorem modNth_length {α : Type} (g : α → α) (i : Nat) (l : List α) : (modNth g i l).length = l.length := by
  induction l generalizing i with
  | nil => cases i <;> rfl
  | cons x l ih => cases i <;> simp [modNth, ih]

theorem modNth_getD {α : Type} (g : α → α) (i j : Nat) (l : List α) (d : α) :
    (modNth g i l).getD j d = if i = j ∧ j < l.length then g (l.getD j d) else l.getD j d := by
  induction l generalizing i j with
  | nil => cases i <;> simp [modNth]
  | cons x l ih =>
    cases i with
    | zero => cases j <;> simp [modNth]
    | succ i =>
      cases j with
      | zero => simp [modNth]
      | succ j =>
        have := ih i j
        simp only [modNth, List.getD_cons_succ, this, Nat.succ.injEq, List.length_cons, Nat.succ_lt_succ_iff]

theorem Keeps.modFunc {s t : State} (h : Keeps s t) (f : Nat) (g : Func → Func) : Keeps s (t.modFunc f g) :=
  { h with shape := by rw [← h.shape]; simp [State.shape, State.modFunc, modNth_length] }

theorem Keeps.modDie {s t : State} (h : Keeps s t) (d : Nat) (g : Die → Die) (k : ∀ x, x.lost = true → (g x).lost = true) :
    Keeps s (t.modDie d g) :=
  { h with
    shape := by rw [← h.shape]; simp [State.shape, State.modDie, modNth_length]
    lost := fun e x => by
      have := h.lost e x
      simp only [State.die, State.modDie, modNth_getD] at this ⊢
      split
      · exact k _ this
      · exact this }

theorem Keeps.modClu {s t : State} (h : Keeps s t) (d c : Nat) (g : Cluster → Cluster) : Keeps s (t.modClu d c g) :=
  { h with shape := by rw [← h.shape]; simp [State.shape, State.modClu, modNth_length] }

theorem Keeps.modPort {s t : State} (h : Keeps s t) (p : Nat) (g : Port → Port) : Keeps s (t.modPort p g) :=
  { h with shape := by rw [← h.shape]; simp [State.shape, State.modPort, modNth_length] }

theorem Keeps.modCore {s t : State} (h : Keeps s t) (i : Nat) (g : Core → Core) (k : ∀ c, c.state ≠ 1 → (g c).state = c.state) :
    Keeps s (t.modCore i g) :=
  { h with
    shape := by rw [← h.shape]; simp [State.shape, State.modCore, modNth_length]
    core := fun j x => by
      have e := h.core j x
      simp only [State.core, State.modCore, modNth_getD] at e x ⊢
      split
      · exact (k _ (e ▸ x)).trans e
      · exact e }

/-- A core in service may change its state. -/
theorem Keeps.modCoreFrom {s t : State} (h : Keeps s t) (i : Nat) (g : Core → Core) (k : (t.core i).state = 1) :
    Keeps s (t.modCore i g) :=
  { h with
    shape := by rw [← h.shape]; simp [State.shape, State.modCore, modNth_length]
    core := fun j x => by
      have e := h.core j x
      by_cases w : i = j
      · subst w; rw [k] at e; exact absurd e.symm x
      · simpa only [State.core, State.modCore, modNth_getD, w, false_and, if_false] using e }

/-! ## Fields replaced -/

/-- The fields about which nothing is said may be anything, with a security state and a configuration record that keep theirs. -/
theorem Keeps.upd {σ τ : State} (h : Keeps σ τ) {links : List Local} {linkTrains : List (Nat × Nat)}
    {linkRetries : List (Nat × Nat × Nat)} {badLines : List Nat}
    {cfg : ConfigRecord} {fwSel : Nat} {act : Option Activation} {deferTime : Nat} {procs : Procs} {sec : Security} {jtag : Jtag}
    {side : Sideband} {pcie : Pcie} {twinEn : Bool} {twinGib twinNow noteSeq probe fresh : Nat} {out : List Output}
    (hc : cfg.present = τ.cfg.present) (hs : (sec.scopes, sec.tokens) = (τ.sec.scopes, τ.sec.tokens)) (ha : sec.arCount = τ.sec.arCount) :
    Keeps σ ⟨τ.pending, τ.mem, τ.funcs, τ.dies, τ.clusters, τ.cores, τ.ports, links, linkTrains, linkRetries, badLines,
      τ.fuses, cfg, τ.quad,
      τ.zcpPin, τ.rwPin, fwSel, τ.fw, act, deferTime, procs, sec, jtag, side, pcie, τ.boot, τ.ready, twinEn, twinGib, twinNow,
      τ.journal, τ.clk, noteSeq, probe, fresh, out⟩ :=
  { h with
    present := hc.trans h.present
    scopes := fun e => ⟨(congrArg Prod.fst hs).trans (h.scopes e).1, (congrArg Prod.snd hs).trans (h.scopes e).2⟩
    scopesUp := fun i x => (congrArg (fun y => y.1.testBit i) hs).trans (h.scopesUp i x)
    arCount := ha.trans h.arCount }

/-- The firmware too, while its flash images stand. -/
theorem Keeps.updFw {σ τ : State} (h : Keeps σ τ) {fw : List FwKind} {links : List Local} {linkTrains : List (Nat × Nat)}
    {linkRetries : List (Nat × Nat × Nat)} {badLines : List Nat}
    {cfg : ConfigRecord} {fwSel : Nat} {act : Option Activation} {deferTime : Nat} {procs : Procs} {sec : Security} {jtag : Jtag}
    {side : Sideband} {pcie : Pcie} {twinEn : Bool} {twinGib twinNow noteSeq probe fresh : Nat} {out : List Output}
    (hf : fw.map (fun k => (k.active, k.previous)) = τ.flash)
    (hc : cfg.present = τ.cfg.present) (hs : (sec.scopes, sec.tokens) = (τ.sec.scopes, τ.sec.tokens)) (ha : sec.arCount = τ.sec.arCount) :
    Keeps σ ⟨τ.pending, τ.mem, τ.funcs, τ.dies, τ.clusters, τ.cores, τ.ports, links, linkTrains, linkRetries, badLines,
      τ.fuses, cfg, τ.quad,
      τ.zcpPin, τ.rwPin, fwSel, fw, act, deferTime, procs, sec, jtag, side, pcie, τ.boot, τ.ready, twinEn, twinGib, twinNow,
      τ.journal, τ.clk, noteSeq, probe, fresh, out⟩ :=
  { h with
    present := hc.trans h.present
    scopes := fun e => ⟨(congrArg Prod.fst hs).trans (h.scopes e).1, (congrArg Prod.snd hs).trans (h.scopes e).2⟩
    scopesUp := fun i x => (congrArg (fun y => y.1.testBit i) hs).trans (h.scopesUp i x)
    arCount := ha.trans h.arCount
    flash := hf.trans h.flash
    shape := by
      have e := congrArg List.length hf
      simp only [State.flash, List.length_map] at e
      rw [← h.shape]
      simp [State.shape, e] }

/-- The security state, where a token waited. -/
theorem Keeps.updSec {σ τ : State} (h : Keeps σ τ) {sec : Security} (k : σ.sec.tokens ≠ [])
    (hu : ∀ i, τ.sec.scopes.testBit i = true → sec.scopes.testBit i = true) (ha : sec.arCount = τ.sec.arCount) :
    Keeps σ { τ with sec := sec } :=
  { h with
    scopes := fun e => absurd e k
    scopesUp := fun i x => hu i (h.scopesUp i x)
    arCount := ha.trans h.arCount }

/-- Memory and bad lines replaced. -/
theorem Keeps.updMem {σ τ : State} (h : Keeps σ τ) {mem : List Host.Cell} {badLines : List Nat}
    (k : Memory.wf τ.mem = true → Memory.wf mem = true) : Keeps σ { τ with mem := mem, badLines := badLines } :=
  { h with mem := fun x => k (h.mem x) }

theorem Keeps.updJournal {σ τ : State} (h : Keeps σ τ) {j : Journal} (k : τ.journal.nextSeq ≤ j.nextSeq) :
    Keeps σ { τ with journal := j } :=
  { h with seq := Nat.le_trans h.seq k }

theorem Keeps.updFuncs {σ τ : State} (h : Keeps σ τ) {l : List Func} (k : l.length = τ.funcs.length) :
    Keeps σ { τ with funcs := l } :=
  { h with shape := by rw [← h.shape]; simp [State.shape, k] }

end Sys2Proof.Machine
end

