-- ==== Sys2Proof/Laws/KeepsOps.lean ====
section
/-!
SUPPORT. The operations of Ops, Wire, Operands, Caps, Flags, Zcp, Alloc, Measure, Commands keep what only a module reset or its own command changes (Sys2Proof/Laws/Keeps.lean).
-/
namespace Sys2Proof.Machine

theorem Keeps.put {σ τ : State} (h : Keeps σ τ) (o : Output) : Keeps σ (State.put τ o) := by
  unfold State.put
  try dsimp only
  repeat' first
    | with_reducible assumption
    | with_reducible refine Keeps.upd ?_ rfl rfl rfl

theorem Keeps.interrupt {σ τ : State} (h : Keeps σ τ) (f v : Nat) : Keeps σ (State.interrupt τ f v) := by
  unfold State.interrupt
  repeat' first
    | with_reducible assumption
    | with_reducible apply Keeps.put
    | split

theorem Keeps.takeFresh {σ τ : State} (h : Keeps σ τ) (n : Nat) : Keeps σ (State.takeFresh τ n) := by
  unfold State.takeFresh
  try dsimp only
  repeat' first
    | with_reducible assumption
    | with_reducible refine Keeps.upd ?_ rfl rfl rfl

theorem Keeps.put' {σ τ : State} (h : Keeps σ τ) (k : Nat) (bs : List Byte) : Keeps σ (τ.put' k bs) :=
  h.updMem (Mem.write_wf _ _ _)

theorem Keeps.peerAccess {σ τ : State} (h : Keeps σ τ) (k : Nat) (write : Bool) (len : Nat) (data old : List Byte) (table row : Nat) : Keeps σ (State.peerAccess τ k write len data old table row) := by
  unfold State.peerAccess
  try dsimp only
  repeat' first
    | with_reducible assumption
    | with_reducible apply Keeps.modFunc
    | with_reducible refine Keeps.fst (by with_reducible assumption) ?_
    | with_reducible refine Keeps.snd (by with_reducible assumption) ?_
    | split
    | with_reducible refine Keeps.upd ?_ rfl rfl rfl

theorem Keeps.poke {σ τ : State} (h : Keeps σ τ) (k : Nat) (bs : List Byte) : Keeps σ (State.poke τ k bs) := by
  unfold State.poke
  repeat' first
    | with_reducible assumption
    | with_reducible apply Keeps.put'
    | with_reducible apply Keeps.peerAccess
    | split

theorem Keeps.store {σ τ : State} (h : Keeps σ τ) (k : Nat) (bs : List Byte) : Keeps σ (State.store τ k bs) := by
  unfold State.store
  try dsimp only
  repeat' first
    | with_reducible assumption
    | with_reducible apply Keeps.poke
    | with_reducible refine Keeps.foldl ?_ fun _ _ _ => ?_
    | with_reducible refine Keeps.fst (by with_reducible assumption) ?_
    | with_reducible refine Keeps.snd (by with_reducible assumption) ?_
    | split

theorem Keeps.devWrite {σ τ : State} (h : Keeps σ τ) (f x : Nat) (bs : List Byte) : Keeps σ (State.devWrite τ f x bs) := by
  unfold State.devWrite
  try dsimp only
  repeat' first
    | with_reducible assumption
    | with_reducible apply Keeps.store
    | split
    | with_reducible refine Keeps.upd ?_ rfl rfl rfl

theorem Keeps.ringWrite {σ τ : State} (h : Keeps σ τ) (f : Nat) (n : Note) : Keeps σ (State.ringWrite τ f n) := by
  unfold State.ringWrite
  try dsimp only
  repeat' first
    | with_reducible assumption
    | with_reducible apply Keeps.modFunc
    | with_reducible apply Keeps.put
    | with_reducible apply Keeps.interrupt
    | with_reducible apply Keeps.devWrite
    | split
    | with_reducible refine Keeps.upd ?_ rfl rfl rfl

theorem Keeps.holdNote {σ τ : State} (h : Keeps σ τ) (f : Nat) (n : Note) : Keeps σ (State.holdNote τ f n).1 := by
  unfold State.holdNote
  try dsimp only
  repeat' first
    | with_reducible assumption
    | with_reducible apply Keeps.modFunc
    | with_reducible refine Keeps.upd ?_ rfl rfl rfl

theorem Keeps.giveNote {σ τ : State} (h : Keeps σ τ) (f : Nat) (n : Note) : Keeps σ (State.giveNote τ f n).1 := by
  unfold State.giveNote
  repeat' first
    | with_reducible assumption
    | with_reducible apply Keeps.ringWrite
    | with_reducible apply Keeps.holdNote
    | split

theorem Keeps.stamp {σ τ : State} (h : Keeps σ τ) (src : Nat) : Keeps σ (State.stamp τ src).1 := by
  unfold State.stamp
  try dsimp only
  repeat' first
    | with_reducible assumption
    | with_reducible apply Keeps.modDie
    | exact fun _ h => h
    | exact fun _ _ => rfl
    | (refine fun _ h => ?_; split <;> exact h)
    | split
    | with_reducible refine Keeps.upd ?_ rfl rfl rfl

theorem Keeps.emitTo {σ τ : State} (h : Keeps σ τ) (fs : List Nat) (src kind inst a0 a1 : Nat) : Keeps σ (State.emitTo τ fs src kind inst a0 a1) := by
  unfold State.emitTo
  try dsimp only
  repeat' first
    | with_reducible assumption
    | with_reducible apply Keeps.modFunc
    | with_reducible apply Keeps.giveNote
    | with_reducible apply Keeps.stamp
    | with_reducible refine Keeps.foldl ?_ fun _ _ _ => ?_
    | with_reducible refine Keeps.foldlFst ?_ fun _ _ _ => ?_
    | with_reducible refine Keeps.foldlSnd ?_ fun _ _ _ => ?_
    | with_reducible refine Keeps.fst (by with_reducible assumption) ?_
    | with_reducible refine Keeps.snd (by with_reducible assumption) ?_
    | split

theorem Keeps.emit {σ τ : State} (h : Keeps σ τ) (src kind inst a0 a1 : Nat) : Keeps σ (State.emit τ src kind inst a0 a1) := by
  unfold State.emit
  repeat' first
    | with_reducible assumption
    | with_reducible apply Keeps.emitTo
    | split

theorem Keeps.flushNotes {σ τ : State} (h : Keeps σ τ) (f : Nat) : Keeps σ (State.flushNotes τ f) := by
  unfold State.flushNotes
  try dsimp only
  repeat' first
    | with_reducible assumption
    | with_reducible apply Keeps.modFunc
    | with_reducible apply Keeps.ringWrite
    | with_reducible refine Keeps.foldl ?_ fun _ _ _ => ?_
    | split
    | with_reducible refine Keeps.upd ?_ rfl rfl rfl

theorem Keeps.count {σ τ : State} (h : Keeps σ τ) (f src i n : Nat) : Keeps σ (State.count τ f src i n) := by
  unfold State.count
  try dsimp only
  repeat' first
    | with_reducible assumption
    | with_reducible apply Keeps.modFunc
    | with_reducible apply Keeps.emitTo
    | with_reducible refine Keeps.fst (by with_reducible assumption) ?_
    | with_reducible refine Keeps.snd (by with_reducible assumption) ?_
    | split

theorem Keeps.cntMod {σ τ : State} (h : Keeps σ τ) (f k : Nat) (n : Nat) : Keeps σ (State.cntMod τ f k n) := by
  unfold State.cntMod
  repeat' first
    | with_reducible assumption
    | with_reducible apply Keeps.count

theorem Keeps.cntAll {σ τ : State} (h : Keeps σ τ) (k : Nat) (n : Nat) : Keeps σ (State.cntAll τ k n) := by
  unfold State.cntAll
  repeat' first
    | with_reducible assumption
    | with_reducible apply Keeps.count
    | with_reducible refine Keeps.foldl ?_ fun _ _ _ => ?_
    | split

theorem Keeps.cntDie {σ τ : State} (h : Keeps σ τ) (d k : Nat) (n : Nat) : Keeps σ (State.cntDie τ d k n) := by
  unfold State.cntDie
  repeat' first
    | with_reducible assumption
    | with_reducible apply Keeps.count

theorem Keeps.modPower {σ τ : State} (h : Keeps σ τ) (d : Nat) (h : Power → Power) : Keeps σ (State.modPower τ d h) := by
  unfold State.modPower
  try dsimp only
  repeat' first
    | with_reducible assumption
    | with_reducible apply Keeps.modDie
    | exact fun _ h => h
    | exact fun _ _ => rfl
    | (refine fun _ h => ?_; split <;> exact h)
    | with_reducible refine Keeps.upd ?_ rfl rfl rfl

theorem Keeps.fault {σ τ : State} (h : Keeps σ τ) (d mech scope inst resp : Nat) : Keeps σ (State.fault τ d mech scope inst resp).1 := by
  unfold State.fault
  try dsimp only
  repeat' first
    | with_reducible assumption
    | with_reducible apply Keeps.modDie
    | exact fun _ h => h
    | exact fun _ _ => rfl
    | (refine fun _ h => ?_; split <;> exact h)
    | with_reducible refine Keeps.upd ?_ rfl rfl rfl

theorem Keeps.note {σ τ : State} (h : Keeps σ τ) (d mech scope inst resp : Nat) : Keeps σ (State.note τ d mech scope inst resp) := by
  unfold State.note
  repeat' first
    | with_reducible assumption
    | with_reducible apply Keeps.fault

theorem Keeps.exercised {σ τ : State} (h : Keeps σ τ) (d : Nat) (rs : List Resource) : Keeps σ (State.exercised τ d rs) := by
  unfold State.exercised
  try dsimp only
  repeat' first
    | with_reducible assumption
    | with_reducible apply Keeps.modDie
    | with_reducible refine Keeps.foldl ?_ fun _ _ _ => ?_
    | exact fun _ h => h
    | exact fun _ _ => rfl
    | (refine fun _ h => ?_; split <;> exact h)
    | split
    | with_reducible refine Keeps.upd ?_ rfl rfl rfl

theorem Keeps.protect {σ τ : State} (h : Keeps σ τ) (d : Nat) : Keeps σ (State.protect τ d) := by
  unfold State.protect
  try dsimp only
  repeat' first
    | with_reducible assumption
    | with_reducible apply Keeps.modPower
    | with_reducible refine Keeps.upd ?_ rfl rfl rfl

theorem Keeps.pauseProc {σ τ : State} (h : Keeps σ τ) (p : Proc) : Keeps σ (State.pauseProc τ p) := by
  cases p with
  | control d c => exact h.modClu _ _ _
  | _ => exact h

theorem Keeps.cntPort {σ τ : State} (h : Keeps σ τ) (p k : Nat) (n : Nat) : Keeps σ (State.cntPort τ p k n) := by
  unfold State.cntPort
  repeat' first
    | with_reducible assumption
    | with_reducible apply Keeps.count

theorem Keeps.cntClu {σ τ : State} (h : Keeps σ τ) (d c k : Nat) (n : Nat) : Keeps σ (State.cntClu τ d c k n) := by
  unfold State.cntClu
  repeat' first
    | with_reducible assumption
    | with_reducible apply Keeps.count

theorem Keeps.cntCore {σ τ : State} (h : Keeps σ τ) (i k : Nat) (n : Nat) : Keeps σ (State.cntCore τ i k n) := by
  unfold State.cntCore
  repeat' first
    | with_reducible assumption
    | with_reducible apply Keeps.count

theorem Keeps.violOor {σ τ : State} (h : Keeps σ τ) (f : Nat) (n : Nat) : Keeps σ (State.violOor τ f n) := by
  unfold State.violOor
  repeat' first
    | with_reducible assumption
    | with_reducible apply Keeps.cntMod

theorem Keeps.violDesc {σ τ : State} (h : Keeps σ τ) (f : Nat) (n : Nat) : Keeps σ (State.violDesc τ f n) := by
  unfold State.violDesc
  repeat' first
    | with_reducible assumption
    | with_reducible apply Keeps.cntMod

theorem Keeps.violLock {σ τ : State} (h : Keeps σ τ) (f : Nat) : Keeps σ (State.violLock τ f) := by
  unfold State.violLock
  repeat' first
    | with_reducible assumption
    | with_reducible apply Keeps.cntMod

theorem Keeps.violHdr {σ τ : State} (h : Keeps σ τ) (f : Nat) : Keeps σ (State.violHdr τ f) := by
  unfold State.violHdr
  repeat' first
    | with_reducible assumption
    | with_reducible apply Keeps.cntMod

theorem Keeps.ctrClear {σ τ : State} (h : Keeps σ τ) (f i : Nat) : Keeps σ (State.ctrClear τ f i) := by
  unfold State.ctrClear
  try dsimp only
  repeat' first
    | with_reducible assumption
    | with_reducible apply Keeps.modFunc
    | with_reducible refine Keeps.upd ?_ rfl rfl rfl

theorem Keeps.journalize {σ τ : State} (h : Keeps σ τ) (opcode source func detail : Nat) : Keeps σ (State.journalize τ opcode source func detail).1 := by
  unfold State.journalize
  try dsimp only
  repeat' first
    | with_reducible assumption
    | with_reducible refine Keeps.updJournal ?_ (Nat.le_succ _)
    | with_reducible refine Keeps.updJournal ?_ (Nat.le_refl _)
    | with_reducible refine Keeps.upd ?_ rfl rfl rfl

theorem Keeps.queueOut {σ τ : State} (h : Keeps σ τ) (m : Sent) (bytes : List Byte) : Keeps σ (State.queueOut τ m bytes).1 := by
  unfold State.queueOut
  try dsimp only
  repeat' first
    | with_reducible assumption
    | with_reducible apply Keeps.modPort
    | with_reducible refine Keeps.fst (by with_reducible assumption) ?_
    | with_reducible refine Keeps.snd (by with_reducible assumption) ?_
    | split
    | with_reducible refine Keeps.upd ?_ rfl rfl rfl

theorem Keeps.send {σ τ : State} (h : Keeps σ τ) (f sdie dest ddie : Nat) (msg : WireMsg) : Keeps σ (State.send τ f sdie dest ddie msg) := by
  unfold State.send
  try dsimp only
  repeat' first
    | with_reducible assumption
    | with_reducible apply Keeps.modFunc
    | with_reducible apply Keeps.queueOut
    | with_reducible refine Keeps.fst (by with_reducible assumption) ?_
    | with_reducible refine Keeps.snd (by with_reducible assumption) ?_
    | split
    | with_reducible refine Keeps.upd ?_ rfl rfl rfl

theorem Keeps.sendLocal {σ τ : State} (h : Keeps σ τ) (f src die : Nat) (msg : WireMsg) : Keeps σ (State.sendLocal τ f src die msg) := by
  unfold State.sendLocal
  try dsimp only
  repeat' first
    | with_reducible assumption
    | with_reducible refine Keeps.upd ?_ rfl rfl rfl

theorem Keeps.crossed {σ τ : State} (h : Keeps σ τ) (a b : Nat) : Keeps σ (State.crossed τ a b) := by
  unfold State.crossed
  repeat' first
    | with_reducible assumption
    | with_reducible apply Keeps.exercised
    | split

theorem Keeps.take {σ τ : State} (h : Keeps σ τ) (f : Nat) (msg : WireMsg) : Keeps σ (State.take τ f msg).1 := by
  unfold State.take
  try dsimp only
  repeat' first
    | with_reducible assumption
    | with_reducible apply Keeps.modFunc
    | with_reducible apply Keeps.crossed
    | with_reducible refine Keeps.fst (by with_reducible assumption) ?_
    | with_reducible refine Keeps.snd (by with_reducible assumption) ?_
    | split
    | with_reducible refine Keeps.upd ?_ rfl rfl rfl

theorem Keeps.coreChanged {σ τ : State} (h : Keeps σ τ) (i : Nat) : Keeps σ (State.coreChanged τ i) := by
  unfold State.coreChanged
  repeat' first
    | with_reducible assumption
    | with_reducible apply Keeps.emit

theorem Keeps.cluChanged {σ τ : State} (h : Keeps σ τ) (d c : Nat) : Keeps σ (State.cluChanged τ d c) := by
  unfold State.cluChanged
  repeat' first
    | with_reducible assumption
    | with_reducible apply Keeps.emit

theorem Keeps.dieChanged {σ τ : State} (h : Keeps σ τ) (d : Nat) : Keeps σ (State.dieChanged τ d) := by
  unfold State.dieChanged
  repeat' first
    | with_reducible assumption
    | with_reducible apply Keeps.emit

theorem Keeps.modStep {σ τ : State} (h : Keeps σ τ) (f : Nat) (ahead : Bool) (h : Step → Step) : Keeps σ (State.modStep τ f ahead h) := by
  unfold State.modStep
  repeat' first
    | with_reducible assumption
    | with_reducible apply Keeps.modFunc

theorem Keeps.flagStep {σ τ : State} (h : Keeps σ τ) (f i : Nat) : Keeps σ (State.flagStep τ f i) := by
  unfold State.flagStep
  repeat' first
    | with_reducible assumption
    | with_reducible apply Keeps.modStep

theorem Keeps.addTally {σ τ : State} (h : Keeps σ τ) (b : Block) (t : Tally) : Keeps σ (State.addTally τ b t) := by
  unfold State.addTally
  try dsimp only
  repeat' first
    | with_reducible assumption
    | with_reducible apply Keeps.cntMod
    | with_reducible apply Keeps.cntDie
    | with_reducible apply Keeps.cntClu
    | with_reducible apply Keeps.cntCore
    | split
    | with_reducible refine Keeps.upd ?_ rfl rfl rfl

theorem Keeps.calc {σ τ : State} (h : Keeps σ τ) {α : Type} (b : Block) (f : Nat) (ahead : Bool) (c : N α) : Keeps σ (State.calc τ b f ahead c).2 := by
  unfold State.calc
  try dsimp only
  repeat' first
    | with_reducible assumption
    | with_reducible apply Keeps.modStep
    | with_reducible apply Keeps.addTally
    | with_reducible refine Keeps.fst (by with_reducible assumption) ?_
    | with_reducible refine Keeps.snd (by with_reducible assumption) ?_
    | split
    | with_reducible refine Keeps.upd ?_ rfl rfl rfl

theorem Keeps.deliver {σ τ : State} (h : Keeps σ τ) (f : Nat) (c : Completion) : Keeps σ (State.deliver τ f c) := by
  unfold State.deliver
  try dsimp only
  repeat' first
    | with_reducible assumption
    | with_reducible apply Keeps.modFunc
    | with_reducible apply Keeps.put
    | with_reducible apply Keeps.cntMod
    | with_reducible apply Keeps.send
    | split
    | with_reducible refine Keeps.upd ?_ rfl rfl rfl

theorem Keeps.answer {σ τ : State} (h : Keeps σ τ) (c : Submission) (status : Nat) (detail result : List Byte) (jrn : Nat) (suppressible : Bool) : Keeps σ (State.answer τ c status detail result jrn suppressible) := by
  unfold State.answer
  repeat' first
    | with_reducible assumption
    | with_reducible apply Keeps.deliver
    | split

theorem Keeps.single {σ τ : State} (h : Keeps σ τ) (c : Submission) (status : Nat) (detail : List Byte) (result : List Byte) (jrn : Nat) : Keeps σ (State.single τ c status detail result jrn) := by
  unfold State.single
  repeat' first
    | with_reducible assumption
    | with_reducible apply Keeps.answer

theorem Keeps.interim {σ τ : State} (h : Keeps σ τ) (c : Submission) (status : Nat) : Keeps σ (State.interim τ c status) := by
  unfold State.interim
  repeat' first
    | with_reducible assumption
    | with_reducible apply Keeps.answer

theorem Keeps.final {σ τ : State} (h : Keeps σ τ) (c : Submission) (status : Nat) (detail : List Byte) (result : List Byte) (jrn : Nat) : Keeps σ (State.final τ c status detail result jrn) := by
  unfold State.final
  repeat' first
    | with_reducible assumption
    | with_reducible apply Keeps.answer

theorem Keeps.journalCmd {σ τ : State} (h : Keeps σ τ) (c : Submission) : Keeps σ (State.journalCmd τ c).1 := by
  unfold State.journalCmd
  repeat' first
    | with_reducible assumption
    | with_reducible apply Keeps.journalize

theorem Keeps.okJ {σ τ : State} (h : Keeps σ τ) (c : Submission) (detail : List Byte) (result : List Byte) : Keeps σ (State.okJ τ c detail result) := by
  unfold State.okJ
  try dsimp only
  repeat' first
    | with_reducible assumption
    | with_reducible apply Keeps.single
    | with_reducible apply Keeps.journalCmd
    | with_reducible refine Keeps.fst (by with_reducible assumption) ?_
    | with_reducible refine Keeps.snd (by with_reducible assumption) ?_
    | split

theorem Keeps.takeUp {σ τ : State} (h : Keeps σ τ) (c : Submission) : Keeps σ (State.takeUp τ c) := by
  unfold State.takeUp
  try dsimp only
  repeat' first
    | with_reducible assumption
    | with_reducible apply Keeps.modFunc
    | with_reducible apply Keeps.violHdr
    | with_reducible apply Keeps.single
    | with_reducible refine Keeps.fst (by with_reducible assumption) ?_
    | with_reducible refine Keeps.snd (by with_reducible assumption) ?_
    | split
    | with_reducible refine Keeps.upd ?_ rfl rfl rfl

theorem Keeps.start {σ τ : State} (h : Keeps σ τ) (c : Submission) (k : State → State) (hk : ∀ u, Keeps σ u → Keeps σ (k u)) :
    Keeps σ (τ.start c k) := by
  unfold State.start
  apply hk
  split
  · exact h.cntMod _ _ _
  · exact h

theorem Keeps.zcp {σ τ : State} (h : Keeps σ τ) (op : Nat) (c : Submission) (k : Submission → State → State)
    (hk : ∀ c u, Keeps σ u → Keeps σ (k c u)) : Keeps σ (τ.zcp op c k) := by
  unfold State.zcp
  dsimp only
  repeat' first
    | assumption
    | exact hk _
    | with_reducible apply Keeps.start
    | with_reducible apply Keeps.takeUp
    | with_reducible apply Keeps.single
    | with_reducible apply Keeps.violHdr
    | with_reducible apply Keeps.modFunc
    | split

theorem KeepsO.allocate {σ τ : State} (h : Keeps σ τ) (f : Nat) (o : AllocOwner) (as : List Area) (n al : Nat) :
    KeepsO σ (τ.allocate f o as n al) := by
  intro a t e
  unfold State.allocate at e
  obtain ⟨b, _, e⟩ := Option.map_eq_some_iff.1 e
  cases e
  exact h.modFunc _ _

theorem Keeps.dropApertures {σ τ : State} (h : Keeps σ τ) (f : Nat) (before : List Alloc) : Keeps σ (State.dropApertures τ f before) := by
  unfold State.dropApertures
  try dsimp only
  repeat' first
    | with_reducible assumption
    | with_reducible apply Keeps.modFunc
    | with_reducible refine Keeps.fst (by with_reducible assumption) ?_
    | with_reducible refine Keeps.snd (by with_reducible assumption) ?_
    | split
    | with_reducible refine Keeps.updMem ?_ (Mem.filter_wf _ _)
    | with_reducible refine Keeps.upd ?_ rfl rfl rfl

theorem Keeps.freeOwner {σ τ : State} (h : Keeps σ τ) (f : Nat) (o : AllocOwner) : Keeps σ (State.freeOwner τ f o) := by
  unfold State.freeOwner
  try dsimp only
  repeat' first
    | with_reducible assumption
    | with_reducible apply Keeps.modFunc
    | with_reducible apply Keeps.dropApertures
    | with_reducible refine Keeps.upd ?_ rfl rfl rfl

theorem Keeps.zeroRun {σ τ : State} (h : Keeps σ τ) (k n : Nat) : Keeps σ (State.zeroRun τ k n) := by
  unfold State.zeroRun
  try dsimp only
  repeat' first
    | with_reducible assumption
    | with_reducible apply Keeps.peerAccess
    | split
    | with_reducible refine Keeps.updMem ?_ (Mem.filter_wf _ _)
    | with_reducible refine Keeps.upd ?_ rfl rfl rfl

theorem Keeps.measure {σ τ : State} (h : Keeps σ τ) (type source jrn : Nat) (a b : List Byte) : Keeps σ (State.measure τ type source jrn a b) := by
  unfold State.measure
  try dsimp only
  repeat' first
    | with_reducible assumption
    | split
    | with_reducible refine Keeps.upd ?_ rfl rfl rfl

theorem Keeps.measureConfig {σ τ : State} (h : Keeps σ τ) (source jrn : Nat) (bytes : List Byte) : Keeps σ (State.measureConfig τ source jrn bytes) := by
  unfold State.measureConfig
  repeat' first
    | with_reducible assumption
    | with_reducible apply Keeps.measure

theorem Keeps.measureKind {σ τ : State} (h : Keeps σ τ) (kind : Nat) (im : Option Image) : Keeps σ (State.measureKind τ kind im) := by
  unfold State.measureKind
  try dsimp only
  repeat' first
    | with_reducible assumption
    | split
    | with_reducible refine Keeps.upd ?_ rfl rfl rfl

theorem Keeps.secDenied {σ τ : State} (h : Keeps σ τ) : Keeps σ (State.secDenied τ) := by
  unfold State.secDenied
  repeat' first
    | with_reducible assumption
    | with_reducible apply Keeps.cntAll

theorem Keeps.modQueue {σ τ : State} (h : Keeps σ τ) (f q : Nat) (h : Queue → Queue) : Keeps σ (State.modQueue τ f q h) := by
  unfold State.modQueue
  try dsimp only
  repeat' first
    | with_reducible assumption
    | with_reducible apply Keeps.modFunc
    | with_reducible refine Keeps.upd ?_ rfl rfl rfl

theorem Keeps.settleQueue {σ τ : State} (h : Keeps σ τ) (f q : Nat) : Keeps σ (State.settleQueue τ f q) := by
  unfold State.settleQueue
  try dsimp only
  repeat' first
    | with_reducible assumption
    | with_reducible apply Keeps.modQueue
    | split
    | with_reducible refine Keeps.upd ?_ rfl rfl rfl

theorem Keeps.sqDoorbell {σ τ : State} (h : Keeps σ τ) (f q v : Nat) : Keeps σ (State.sqDoorbell τ f q v) := by
  unfold State.sqDoorbell
  try dsimp only
  repeat' first
    | with_reducible assumption
    | with_reducible apply Keeps.violOor
    | with_reducible apply Keeps.modQueue
    | with_reducible refine Keeps.fst (by with_reducible assumption) ?_
    | with_reducible refine Keeps.snd (by with_reducible assumption) ?_
    | split
    | with_reducible refine Keeps.upd ?_ rfl rfl rfl

theorem Keeps.cqDoorbell {σ τ : State} (h : Keeps σ τ) (f q v : Nat) : Keeps σ (State.cqDoorbell τ f q v) := by
  unfold State.cqDoorbell
  try dsimp only
  repeat' first
    | with_reducible assumption
    | with_reducible apply Keeps.violOor
    | with_reducible apply Keeps.modQueue
    | with_reducible refine Keeps.fst (by with_reducible assumption) ?_
    | with_reducible refine Keeps.snd (by with_reducible assumption) ?_
    | split
    | with_reducible refine Keeps.upd ?_ rfl rfl rfl

theorem Keeps.devPut {σ τ : State} (h : Keeps σ τ) (f a : Nat) (bs : List Byte) : Keeps σ (State.devPut τ f a bs) := by
  unfold State.devPut
  repeat' first
    | with_reducible assumption
    | with_reducible apply Keeps.devWrite
    | with_reducible apply Keeps.violOor
    | split

theorem Keeps.of_hello {σ τ : State} (h : Keeps σ τ) (c : Submission) : Keeps σ (hello c τ) := by
  unfold hello
  try dsimp only
  repeat' first
    | with_reducible assumption
    | with_reducible apply Keeps.modFunc
    | with_reducible apply Keeps.single
    | with_reducible apply Keeps.okJ
    | split

theorem Keeps.of_timeProbe' {σ τ : State} (h : Keeps σ τ) (c : Submission) : Keeps σ (timeProbe' c τ) := by
  unfold timeProbe'
  try dsimp only
  repeat' first
    | with_reducible assumption
    | with_reducible apply Keeps.emit
    | with_reducible apply Keeps.single
    | with_reducible refine Keeps.foldl ?_ fun _ _ _ => ?_
    | split
    | with_reducible refine Keeps.upd ?_ rfl rfl rfl

theorem Keeps.outSingle {σ τ : State} (h : Keeps σ τ) (c : Submission) (dest : Nat) (out result : List Byte) : Keeps σ (State.outSingle τ c dest out result) := by
  unfold State.outSingle
  repeat' first
    | with_reducible assumption
    | with_reducible apply Keeps.put
    | with_reducible apply Keeps.devWrite
    | with_reducible apply Keeps.single
    | split

theorem Keeps.of_cntRead' {σ τ : State} (h : Keeps σ τ) (c : Submission) : Keeps σ (cntRead' c τ) := by
  unfold cntRead'
  try dsimp only
  repeat' first
    | with_reducible assumption
    | with_reducible apply Keeps.single
    | with_reducible apply Keeps.outSingle
    | split

theorem Keeps.of_cntClear' {σ τ : State} (h : Keeps σ τ) (c : Submission) : Keeps σ (cntClear' c τ) := by
  unfold cntClear'
  try dsimp only
  repeat' first
    | with_reducible assumption
    | with_reducible apply Keeps.modFunc
    | with_reducible apply Keeps.single
    | with_reducible apply Keeps.okJ
    | with_reducible refine Keeps.fst (by with_reducible assumption) ?_
    | with_reducible refine Keeps.snd (by with_reducible assumption) ?_
    | split
    | with_reducible refine Keeps.upd ?_ rfl rfl rfl

theorem Keeps.of_fltQuery' {σ τ : State} (h : Keeps σ τ) (c : Submission) : Keeps σ (fltQuery' c τ) := by
  unfold fltQuery'
  try dsimp only
  repeat' first
    | with_reducible assumption
    | with_reducible apply Keeps.single
    | with_reducible apply Keeps.outSingle
    | split
    | with_reducible refine Keeps.upd ?_ rfl rfl rfl

end Sys2Proof.Machine
end

