-- ==== Sys2Proof/Laws/KeepsData.lean ====
section
/-!
SUPPORT. The operations of Tables, Gecko, Bellows, Migrate, Skink, Blocks, Compressed keep what only a module reset or its own command changes (Sys2Proof/Laws/Keeps.lean).
-/
namespace Sys2Proof.Machine

theorem Keeps.slotWrite {σ τ : State} (h : Keeps σ τ) (t : Table) (b : OwnerBlock) (sh i : Nat) (second : Bool) (off : Nat) (bs : List Byte) : Keeps σ (State.slotWrite τ t b sh i second off bs) := by
  unfold State.slotWrite
  try dsimp only
  repeat' first
    | with_reducible assumption
    | with_reducible apply Keeps.store
    | split

theorem Keeps.slotRead {σ τ : State} (h : Keeps σ τ) (f : Nat) (t : Table) (b : OwnerBlock) (sh i n : Nat) : Keeps σ (State.slotRead τ f t b sh i n).2 := by
  unfold State.slotRead
  try dsimp only
  repeat' first
    | with_reducible assumption
    | with_reducible apply Keeps.modFunc
    | with_reducible apply Keeps.poke
    | with_reducible apply Keeps.cntDie
    | with_reducible apply Keeps.take
    | split
    | with_reducible refine Keeps.upd ?_ rfl rfl rfl

theorem Keeps.rowPut {σ τ : State} (h : Keeps σ τ) (f : Nat) (t : Table) (b : OwnerBlock) (sh i : Nat) (w : RowWrite) : Keeps σ (State.rowPut τ f t b sh i w) := by
  unfold State.rowPut
  try dsimp only
  repeat' first
    | with_reducible assumption
    | with_reducible apply Keeps.modFunc
    | with_reducible apply Keeps.count
    | with_reducible apply Keeps.slotWrite
    | split
    | with_reducible refine Keeps.upd ?_ rfl rfl rfl

theorem KeepsO.placeShards {σ τ : State} (h : Keeps σ τ) (f d : Nat) (o : AllocOwner) (t : Table) :
    KeepsO σ (τ.placeShards f d o t) :=
  KeepsO.foldl (KeepsO.pure h) fun _ _ k => KeepsO.bind k fun _ _ k =>
    KeepsO.map (KeepsO.allocate k _ _ _ _ _) fun _ _ k => Keeps.zeroRun k _ _

theorem KeepsO.placeArea {σ τ : State} (h : Keeps σ τ) (f : Nat) (o : AllocOwner) (as : List Area) (n : Nat) :
    KeepsO σ (τ.placeArea f o as n) := by
  unfold State.placeArea
  split
  · exact KeepsO.pure h
  · exact KeepsO.map (KeepsO.allocate h _ _ _ _ _) fun _ _ k => Keeps.zeroRun k _ _

theorem KeepsO.placeOwner {σ τ : State} (h : Keeps σ τ) (f : Nat) (o : AllocOwner) (t : Table) (d i : Nat) :
    KeepsO σ (τ.placeOwner f o t d i) := by
  unfold State.placeOwner
  simp only [Option.bind_eq_bind]
  with_reducible refine KeepsO.bind (KeepsO.placeShards h _ _ _ _) fun _ _ k => ?_
  dsimp only
  iterate 5
    with_reducible refine KeepsO.bind (KeepsO.placeArea (by assumption) _ _ _ _) fun _ _ k => ?_
    dsimp only
  exact KeepsO.pure (Keeps.foldl k fun _ _ k => Keeps.store k _ _)

theorem KeepsO.buildTable {σ τ : State} (h : Keeps σ τ) (f : Nat) (o : AllocOwner) (t : Table) :
    KeepsO σ (τ.buildTable f o t) :=
  KeepsO.bind (KeepsO.foldl (KeepsO.pure h) fun _ _ k => KeepsO.bind k fun _ _ k =>
      KeepsO.map (KeepsO.placeOwner k _ _ _ _ _) fun _ _ k => k) fun _ _ k =>
    KeepsO.bind (KeepsO.placeArea k _ _ _ _) fun _ _ k => KeepsO.pure (Keeps.store k _ _)

theorem Keeps.initRows {σ τ : State} (h : Keeps σ τ) (f : Nat) (t : Table) : Keeps σ (State.initRows τ f t) := by
  unfold State.initRows
  try dsimp only
  repeat' first
    | with_reducible assumption
    | with_reducible apply Keeps.slotWrite
    | with_reducible refine Keeps.foldl ?_ fun _ _ _ => ?_
    | with_reducible refine Keeps.fst (by with_reducible assumption) ?_
    | with_reducible refine Keeps.snd (by with_reducible assumption) ?_
    | split
    | with_reducible refine Keeps.upd ?_ rfl rfl rfl

theorem Keeps.askOn {σ τ : State} (h : Keeps σ τ) (f : Nat) (a : MemAsk) : Keeps σ (State.askOn τ f a).1 := by
  unfold State.askOn
  try dsimp only
  repeat' first
    | with_reducible assumption
    | with_reducible apply Keeps.send
    | split
    | with_reducible refine Keeps.upd ?_ rfl rfl rfl

theorem Keeps.askPeers {σ τ : State} (h : Keeps σ τ) (f : Nat) (c : Option Submission) (par : Nat) (peers : List Nat) (n : Nat) : Keeps σ (State.askPeers τ f c par peers n) := by
  unfold State.askPeers
  try dsimp only
  repeat' first
    | with_reducible assumption
    | with_reducible apply Keeps.modFunc
    | with_reducible apply Keeps.askOn
    | with_reducible refine Keeps.fst (by with_reducible assumption) ?_
    | with_reducible refine Keeps.snd (by with_reducible assumption) ?_
    | split
    | with_reducible refine Keeps.upd ?_ rfl rfl rfl

theorem Keeps.of_tblCreate' {σ τ : State} (h : Keeps σ τ) (c : Submission) : Keeps σ (tblCreate' c τ) := by
  unfold tblCreate'
  try dsimp only
  repeat' first
    | with_reducible assumption
    | with_reducible apply Keeps.modFunc
    | with_reducible apply Keeps.single
    | with_reducible apply Keeps.interim
    | with_reducible apply Keeps.askPeers
    | split
    | with_reducible refine Keeps.upd ?_ rfl rfl rfl

theorem Keeps.endJob {σ τ : State} (h : Keeps σ τ) (f : Nat) (j : AsyncJob) : Keeps σ (State.endJob τ f j) := by
  unfold State.endJob
  try dsimp only
  repeat' first
    | with_reducible assumption
    | with_reducible apply Keeps.modFunc
    | with_reducible refine Keeps.upd ?_ rfl rfl rfl

theorem Keeps.of_tblCreateFinish {σ τ : State} (h : Keeps σ τ) (f : Nat) (j : AsyncJob) : Keeps σ (tblCreateFinish f j τ) := by
  unfold tblCreateFinish
  dsimp only
  split
  · exact (h.endJob _ _).final _ _ _ _ _
  · split
    · exact (h.endJob _ _).final _ _ _ _ _
    · rename_i e
      have k := Keeps.ofSome e (KeepsO.buildTable (h.endJob _ _) _ _ _)
      exact (Keeps.journalCmd ((((k.initRows _ _).modFunc _ _).modFunc _ _).dropApertures _ _) _).final _ _ _ _ _

theorem Keeps.modGecko {σ τ : State} (h : Keeps σ τ) (d : Nat) (h : Gecko → Gecko) : Keeps σ (State.modGecko τ d h) := by
  unfold State.modGecko
  try dsimp only
  repeat' first
    | with_reducible assumption
    | with_reducible apply Keeps.modDie
    | exact fun _ h => h
    | exact fun _ _ => rfl
    | (refine fun _ h => ?_; split <;> exact h)
    | with_reducible refine Keeps.upd ?_ rfl rfl rfl

theorem Keeps.gkInsert {σ τ : State} (h : Keeps σ τ) (d t r n : Nat) (combining : Bool) : Keeps σ (State.gkInsert τ d t r n combining).1 := by
  unfold State.gkInsert
  try dsimp only
  repeat' first
    | with_reducible assumption
    | with_reducible apply Keeps.cntDie
    | with_reducible apply Keeps.modGecko
    | with_reducible refine Keeps.fst (by with_reducible assumption) ?_
    | with_reducible refine Keeps.snd (by with_reducible assumption) ?_
    | split
    | with_reducible refine Keeps.upd ?_ rfl rfl rfl

theorem Keeps.gkLookup {σ τ : State} (h : Keeps σ τ) (d : Nat) (t : Table) (r : Nat) : Keeps σ (State.gkLookup τ d t r) := by
  unfold State.gkLookup
  try dsimp only
  repeat' first
    | with_reducible assumption
    | with_reducible apply Keeps.cntDie
    | with_reducible apply Keeps.exercised
    | with_reducible apply Keeps.modGecko
    | with_reducible apply Keeps.gkInsert
    | with_reducible refine Keeps.fst (by with_reducible assumption) ?_
    | with_reducible refine Keeps.snd (by with_reducible assumption) ?_
    | split
    | with_reducible refine Keeps.upd ?_ rfl rfl rfl

theorem Keeps.gkInvalidate {σ τ : State} (h : Keeps σ τ) (d t r : Nat) : Keeps σ (State.gkInvalidate τ d t r) := by
  unfold State.gkInvalidate
  try dsimp only
  repeat' first
    | with_reducible assumption
    | with_reducible apply Keeps.modGecko
    | with_reducible refine Keeps.fst (by with_reducible assumption) ?_
    | with_reducible refine Keeps.snd (by with_reducible assumption) ?_
    | split
    | with_reducible refine Keeps.upd ?_ rfl rfl rfl

theorem Keeps.gkCombine {σ τ : State} (h : Keeps σ τ) (d : Nat) (t : Table) (r : Nat) : Keeps σ (State.gkCombine τ d t r).1 := by
  unfold State.gkCombine
  try dsimp only
  repeat' first
    | with_reducible assumption
    | with_reducible apply Keeps.exercised
    | with_reducible apply Keeps.modGecko
    | with_reducible apply Keeps.gkInsert
    | with_reducible refine Keeps.fst (by with_reducible assumption) ?_
    | with_reducible refine Keeps.snd (by with_reducible assumption) ?_
    | split
    | with_reducible refine Keeps.upd ?_ rfl rfl rfl

theorem Keeps.gkRelease {σ τ : State} (h : Keeps σ τ) (d : Nat) (t : Option Nat) : Keeps σ (State.gkRelease τ d t) := by
  unfold State.gkRelease
  try dsimp only
  repeat' first
    | with_reducible assumption
    | with_reducible apply Keeps.modGecko
    | with_reducible refine Keeps.fst (by with_reducible assumption) ?_
    | with_reducible refine Keeps.snd (by with_reducible assumption) ?_
    | split
    | with_reducible refine Keeps.upd ?_ rfl rfl rfl

theorem Keeps.gkFlush {σ τ : State} (h : Keeps σ τ) (d : Nat) : Keeps σ (State.gkFlush τ d) := by
  unfold State.gkFlush
  try dsimp only
  repeat' first
    | with_reducible assumption
    | with_reducible apply Keeps.modGecko
    | with_reducible refine Keeps.fst (by with_reducible assumption) ?_
    | with_reducible refine Keeps.snd (by with_reducible assumption) ?_
    | with_reducible refine Keeps.upd ?_ rfl rfl rfl

theorem Keeps.sendOwner {σ τ : State} (h : Keeps σ τ) (f die : Nat) (t : Table) (o : Nat) (msg : WireMsg) : Keeps σ (State.sendOwner τ f die t o msg) := by
  unfold State.sendOwner
  try dsimp only
  repeat' first
    | with_reducible assumption
    | with_reducible apply Keeps.send
    | with_reducible apply Keeps.sendLocal
    | with_reducible refine Keeps.fst (by with_reducible assumption) ?_
    | with_reducible refine Keeps.snd (by with_reducible assumption) ?_
    | split
    | with_reducible refine Keeps.upd ?_ rfl rfl rfl

theorem Keeps.sendReq {σ τ : State} (h : Keeps σ τ) (f die : Nat) (t : Table) (req : Nat) (msg : WireMsg) : Keeps σ (State.sendReq τ f die t req msg) := by
  unfold State.sendReq
  try dsimp only
  repeat' first
    | with_reducible assumption
    | with_reducible apply Keeps.send
    | with_reducible apply Keeps.sendLocal
    | with_reducible refine Keeps.fst (by with_reducible assumption) ?_
    | with_reducible refine Keeps.snd (by with_reducible assumption) ?_
    | split

theorem Keeps.countRead {σ τ : State} (h : Keeps σ τ) (f : Nat) (t : Table) (b : OwnerBlock) (st sh r : Nat) : Keeps σ (State.countRead τ f t b st sh r) := by
  unfold State.countRead
  try dsimp only
  repeat' first
    | with_reducible assumption
    | with_reducible apply Keeps.modFunc
    | split
    | with_reducible refine Keeps.upd ?_ rfl rfl rfl

theorem Keeps.serveRow {σ τ : State} (h : Keeps σ τ) (f : Nat) (t : Table) (b : OwnerBlock) (c st r : Nat) : Keeps σ (State.serveRow τ f t b c st r).2 := by
  unfold State.serveRow
  try dsimp only
  repeat' first
    | with_reducible assumption
    | with_reducible apply Keeps.cntClu
    | with_reducible apply Keeps.slotRead
    | with_reducible apply Keeps.gkLookup
    | with_reducible apply Keeps.countRead
    | with_reducible refine Keeps.fst (by with_reducible assumption) ?_
    | with_reducible refine Keeps.snd (by with_reducible assumption) ?_
    | split
    | with_reducible refine Keeps.upd ?_ rfl rfl rfl

theorem Keeps.serveReq {σ τ : State} (h : Keeps σ τ) (f : Nat) (t : Table) (b : OwnerBlock) (m : BellowsMsg) : Keeps σ (State.serveReq τ f t b m) := by
  unfold State.serveReq
  try dsimp only
  repeat' first
    | with_reducible assumption
    | with_reducible apply Keeps.modFunc
    | with_reducible apply Keeps.count
    | with_reducible apply Keeps.cntClu
    | with_reducible apply Keeps.violOor
    | with_reducible apply Keeps.calc
    | with_reducible apply Keeps.sendReq
    | with_reducible apply Keeps.serveRow
    | with_reducible refine Keeps.foldl ?_ fun _ _ _ => ?_
    | with_reducible refine Keeps.foldlFst ?_ fun _ _ _ => ?_
    | with_reducible refine Keeps.foldlSnd ?_ fun _ _ _ => ?_
    | with_reducible refine Keeps.fst (by with_reducible assumption) ?_
    | with_reducible refine Keeps.snd (by with_reducible assumption) ?_
    | split
    | with_reducible refine Keeps.upd ?_ rfl rfl rfl

theorem Keeps.fetchAway {σ τ : State} (h : Keeps σ τ) (f : Nat) (t : Table) (b : OwnerBlock) (rows : List Nat) : Keeps σ (State.fetchAway τ f t b rows) := by
  unfold State.fetchAway
  try dsimp only
  repeat' first
    | with_reducible assumption
    | with_reducible apply Keeps.cntDie
    | with_reducible apply Keeps.sendOwner
    | with_reducible refine Keeps.foldl ?_ fun _ _ _ => ?_
    | with_reducible refine Keeps.fst (by with_reducible assumption) ?_
    | with_reducible refine Keeps.snd (by with_reducible assumption) ?_
    | split

theorem Keeps.fetchKey {σ τ : State} (h : Keeps σ τ) (f k n t r : Nat) : Keeps σ (State.fetchKey τ f k n t r) := by
  unfold State.fetchKey
  try dsimp only
  repeat' first
    | with_reducible assumption
    | with_reducible apply Keeps.peerAccess
    | split

theorem Keeps.fetchRemote {σ τ : State} (h : Keeps σ τ) (f : Nat) (t : Table) (b : OwnerBlock) (rows : List Nat) : Keeps σ (State.fetchRemote τ f t b rows) := by
  unfold State.fetchRemote
  try dsimp only
  repeat' first
    | with_reducible assumption
    | with_reducible apply Keeps.fetchKey
    | with_reducible refine Keeps.foldl ?_ fun _ _ _ => ?_
    | split
    | with_reducible refine Keeps.upd ?_ rfl rfl rfl

theorem Keeps.fetchMissing {σ τ : State} (h : Keeps σ τ) (f : Nat) (t : Table) (b : OwnerBlock) (rows : List Nat) : Keeps σ (State.fetchMissing τ f t b rows) := by
  unfold State.fetchMissing
  repeat' first
    | with_reducible assumption
    | with_reducible apply Keeps.fetchAway
    | with_reducible apply Keeps.fetchRemote

theorem Keeps.request {σ τ : State} (h : Keeps σ τ) (f : Nat) (m : BellowsMsg) : Keeps σ (State.request τ f m) := by
  unfold State.request
  try dsimp only
  repeat' first
    | with_reducible assumption
    | with_reducible apply Keeps.modFunc
    | with_reducible apply Keeps.serveReq
    | with_reducible apply Keeps.fetchMissing
    | split
    | with_reducible refine Keeps.upd ?_ rfl rfl rfl

theorem Keeps.retryRequests {σ τ : State} (h : Keeps σ τ) (f : Nat) : Keeps σ (State.retryRequests τ f) := by
  unfold State.retryRequests
  try dsimp only
  repeat' first
    | with_reducible assumption
    | with_reducible apply Keeps.modFunc
    | with_reducible apply Keeps.serveReq
    | with_reducible apply Keeps.fetchRemote
    | with_reducible refine Keeps.foldl ?_ fun _ _ _ => ?_
    | split
    | with_reducible refine Keeps.upd ?_ rfl rfl rfl

theorem Keeps.askRows {σ τ : State} (h : Keeps σ τ) (f kind : Nat) (m : BellowsMsg) : Keeps σ (State.askRows τ f kind m) := by
  unfold State.askRows
  try dsimp only
  repeat' first
    | with_reducible assumption
    | with_reducible apply Keeps.take
    | with_reducible apply Keeps.request
    | split
    | with_reducible refine Keeps.upd ?_ rfl rfl rfl

theorem Keeps.writeEntry {σ τ : State} (h : Keeps σ τ) (f : Nat) (D : Desc) (t : Table) (e : GatEntry) : Keeps σ (State.writeEntry τ f D t e) := by
  unfold State.writeEntry
  try dsimp only
  repeat' first
    | with_reducible assumption
    | with_reducible apply Keeps.devWrite
    | with_reducible apply Keeps.count
    | with_reducible apply Keeps.calc
    | with_reducible refine Keeps.fst (by with_reducible assumption) ?_
    | with_reducible refine Keeps.snd (by with_reducible assumption) ?_
    | split

theorem Keeps.settleBellows {σ τ : State} (h : Keeps σ τ) (f d c : Nat) : Keeps σ (State.settleBellows τ f d c) := by
  unfold State.settleBellows
  try dsimp only
  repeat' first
    | with_reducible assumption
    | with_reducible apply Keeps.modClu
    | split
    | with_reducible refine Keeps.upd ?_ rfl rfl rfl

theorem Keeps.sendNext {σ τ : State} (h : Keeps σ τ) (f d c : Nat) : Keeps σ (State.sendNext τ f d c) := by
  unfold State.sendNext
  try dsimp only
  repeat' first
    | with_reducible assumption
    | with_reducible apply Keeps.modFunc
    | with_reducible apply Keeps.modClu
    | with_reducible apply Keeps.cntClu
    | with_reducible apply Keeps.sendOwner
    | with_reducible refine Keeps.fst (by with_reducible assumption) ?_
    | with_reducible refine Keeps.snd (by with_reducible assumption) ?_
    | split
    | with_reducible refine Keeps.upd ?_ rfl rfl rfl

theorem Keeps.sendRequests {σ τ : State} (h : Keeps σ τ) (f : Nat) : Keeps σ (State.sendRequests τ f) := by
  unfold State.sendRequests
  repeat' first
    | with_reducible assumption
    | with_reducible apply Keeps.sendNext
    | with_reducible refine Keeps.foldl ?_ fun _ _ _ => ?_
    | split

theorem Keeps.moveRequests {σ τ : State} (h : Keeps σ τ) (f d c : Nat) : Keeps σ (State.moveRequests τ f d c) := by
  unfold State.moveRequests
  try dsimp only
  repeat' first
    | with_reducible assumption
    | with_reducible apply Keeps.modFunc
    | with_reducible apply Keeps.sendRequests
    | split
    | with_reducible refine Keeps.upd ?_ rfl rfl rfl

theorem Keeps.reply {σ τ : State} (h : Keeps σ τ) (f : Nat) (m : BellowsMsg) : Keeps σ (State.reply τ f m) := by
  unfold State.reply
  try dsimp only
  repeat' first
    | with_reducible assumption
    | with_reducible apply Keeps.modFunc
    | with_reducible apply Keeps.modClu
    | with_reducible apply Keeps.writeEntry
    | with_reducible apply Keeps.settleBellows
    | with_reducible apply Keeps.sendNext
    | with_reducible refine Keeps.fst (by with_reducible assumption) ?_
    | with_reducible refine Keeps.snd (by with_reducible assumption) ?_
    | split
    | with_reducible refine Keeps.upd ?_ rfl rfl rfl

theorem Keeps.spillBytes {σ τ : State} (h : Keeps σ τ) (f : Nat) (t : Table) (b : OwnerBlock) (r : Nat) : Keeps σ (State.spillBytes τ f t b r) := by
  unfold State.spillBytes
  try dsimp only
  repeat' first
    | with_reducible assumption
    | with_reducible apply Keeps.takeFresh
    | with_reducible apply Keeps.poke
    | with_reducible refine Keeps.fst (by with_reducible assumption) ?_
    | with_reducible refine Keeps.snd (by with_reducible assumption) ?_
    | split
    | with_reducible refine Keeps.upd ?_ rfl rfl rfl

theorem Keeps.fanOut {σ τ : State} (h : Keeps σ τ) (f : Nat) (t : Table) (b : OwnerBlock) (m : BellowsMsg) (rows : List Nat) : Keeps σ (State.fanOut τ f t b m rows) := by
  unfold State.fanOut
  try dsimp only
  repeat' first
    | with_reducible assumption
    | with_reducible apply Keeps.modFunc
    | with_reducible apply Keeps.cntClu
    | with_reducible apply Keeps.gkCombine
    | with_reducible apply Keeps.spillBytes
    | with_reducible refine Keeps.foldl ?_ fun _ _ _ => ?_
    | with_reducible refine Keeps.foldlFst ?_ fun _ _ _ => ?_
    | with_reducible refine Keeps.foldlSnd ?_ fun _ _ _ => ?_
    | with_reducible refine Keeps.fst (by with_reducible assumption) ?_
    | with_reducible refine Keeps.snd (by with_reducible assumption) ?_
    | split
    | with_reducible refine Keeps.upd ?_ rfl rfl rfl

theorem Keeps.forwardGrad {σ τ : State} (h : Keeps σ τ) (f : Nat) (t : Table) (b : OwnerBlock) (m : BellowsMsg) (rows : List Nat) : Keeps σ (State.forwardGrad τ f t b m rows) := by
  unfold State.forwardGrad
  try dsimp only
  repeat' first
    | with_reducible assumption
    | with_reducible apply Keeps.modFunc
    | with_reducible apply Keeps.count
    | with_reducible apply Keeps.cntDie
    | with_reducible apply Keeps.sendOwner
    | with_reducible refine Keeps.foldl ?_ fun _ _ _ => ?_
    | with_reducible refine Keeps.fst (by with_reducible assumption) ?_
    | with_reducible refine Keeps.snd (by with_reducible assumption) ?_
    | split
    | with_reducible refine Keeps.upd ?_ rfl rfl rfl

theorem Keeps.addGrad {σ τ : State} (h : Keeps σ τ) (f : Nat) (t : Table) (b : OwnerBlock) (m : BellowsMsg) (passed : Bool) : Keeps σ (State.addGrad τ f t b m passed) := by
  unfold State.addGrad
  try dsimp only
  repeat' first
    | with_reducible assumption
    | with_reducible apply Keeps.modFunc
    | with_reducible apply Keeps.fanOut
    | with_reducible apply Keeps.forwardGrad
    | split
    | with_reducible refine Keeps.upd ?_ rfl rfl rfl

theorem Keeps.gradIn {σ τ : State} (h : Keeps σ τ) (f : Nat) (m : BellowsMsg) (passed : Bool) : Keeps σ (State.gradIn τ f m passed) := by
  unfold State.gradIn
  try dsimp only
  repeat' first
    | with_reducible assumption
    | with_reducible apply Keeps.modFunc
    | with_reducible apply Keeps.cntClu
    | with_reducible apply Keeps.addGrad
    | with_reducible refine Keeps.fst (by with_reducible assumption) ?_
    | with_reducible refine Keeps.snd (by with_reducible assumption) ?_
    | split
    | with_reducible refine Keeps.upd ?_ rfl rfl rfl

theorem Keeps.sendFwdEnds {σ τ : State} (h : Keeps σ τ) (f : Nat) (t : Table) (b : OwnerBlock) (st : Nat) : Keeps σ (State.sendFwdEnds τ f t b st) := by
  unfold State.sendFwdEnds
  try dsimp only
  repeat' first
    | with_reducible assumption
    | with_reducible apply Keeps.modFunc
    | with_reducible apply Keeps.sendOwner
    | with_reducible refine Keeps.foldl ?_ fun _ _ _ => ?_
    | split
    | with_reducible refine Keeps.upd ?_ rfl rfl rfl

theorem Keeps.closeCombine {σ τ : State} (h : Keeps σ τ) (f : Nat) (t : Table) (b : OwnerBlock) (st : Nat) : Keeps σ (State.closeCombine τ f t b st) := by
  unfold State.closeCombine
  try dsimp only
  repeat' first
    | with_reducible assumption
    | with_reducible apply Keeps.modFunc
    | with_reducible apply Keeps.store
    | with_reducible apply Keeps.calc
    | with_reducible apply Keeps.modGecko
    | with_reducible refine Keeps.foldl ?_ fun _ _ _ => ?_
    | with_reducible refine Keeps.foldlFst ?_ fun _ _ _ => ?_
    | with_reducible refine Keeps.foldlSnd ?_ fun _ _ _ => ?_
    | with_reducible refine Keeps.fst (by with_reducible assumption) ?_
    | with_reducible refine Keeps.snd (by with_reducible assumption) ?_
    | split
    | with_reducible refine Keeps.upd ?_ rfl rfl rfl

theorem Keeps.foldLate {σ τ : State} (h : Keeps σ τ) (f : Nat) (t : Table) (b : OwnerBlock) (st : Nat) : Keeps σ (State.foldLate τ f t b st) := by
  unfold State.foldLate
  exact Keeps.foldl (h.modFunc _ _) fun _ _ k => k.addGrad _ _ _ _ _

theorem Keeps.tryClose {σ τ : State} (h : Keeps σ τ) (f t o st : Nat) : Keeps σ (State.tryClose τ f t o st) := by
  unfold State.tryClose
  try dsimp only
  repeat' first
    | with_reducible assumption
    | with_reducible apply Keeps.sendFwdEnds
    | with_reducible apply Keeps.closeCombine
    | with_reducible apply Keeps.foldLate
    | split
    | with_reducible refine Keeps.upd ?_ rfl rfl rfl

theorem Keeps.tryCloseAll {σ τ : State} (h : Keeps σ τ) (f t o st : Nat) : Keeps σ (State.tryCloseAll τ f t o st) := by
  unfold State.tryCloseAll
  try dsimp only
  repeat' first
    | with_reducible assumption
    | with_reducible apply Keeps.tryClose
    | with_reducible refine Keeps.foldl ?_ fun _ _ _ => ?_
    | split
    | with_reducible refine Keeps.upd ?_ rfl rfl rfl

theorem Keeps.restartCombine {σ τ : State} (h : Keeps σ τ) (f : Nat) (t : Table) (b : OwnerBlock) (st : Nat) : Keeps σ (State.restartCombine τ f t b st) := by
  unfold State.restartCombine
  try dsimp only
  repeat' first
    | with_reducible assumption
    | with_reducible apply Keeps.modFunc
    | with_reducible apply Keeps.gkRelease
    | with_reducible apply Keeps.sendReq
    | with_reducible apply Keeps.addGrad
    | with_reducible refine Keeps.foldl ?_ fun _ _ _ => ?_
    | split
    | with_reducible refine Keeps.upd ?_ rfl rfl rfl

theorem Keeps.rowDone {σ τ : State} (h : Keeps σ τ) (f : Nat) (issuer : Option Nat) : Keeps σ (State.rowDone τ f issuer) := by
  unfold State.rowDone
  try dsimp only
  repeat' first
    | with_reducible assumption
    | with_reducible apply Keeps.modFunc
    | with_reducible apply Keeps.single
    | split
    | with_reducible refine Keeps.upd ?_ rfl rfl rfl

theorem Keeps.owe {σ τ : State} (h : Keeps σ τ) (f : Nat) (t : Table) (o : Nat) (msg : WireMsg) (issuer : Option Nat) : Keeps σ (State.owe τ f t o msg issuer) := by
  unfold State.owe
  try dsimp only
  repeat' first
    | with_reducible assumption
    | with_reducible apply Keeps.modFunc
    | with_reducible refine Keeps.fst (by with_reducible assumption) ?_
    | with_reducible refine Keeps.snd (by with_reducible assumption) ?_
    | split
    | with_reducible refine Keeps.upd ?_ rfl rfl rfl

theorem Keeps.settle {σ τ : State} (h : Keeps σ τ) (f dest : Nat) (data : List Byte) : Keeps σ (State.settle τ f dest data) := by
  unfold State.settle
  try dsimp only
  repeat' first
    | with_reducible assumption
    | with_reducible apply Keeps.modFunc
    | with_reducible apply Keeps.rowDone
    | split
    | with_reducible refine Keeps.upd ?_ rfl rfl rfl

theorem Keeps.settleFrom {σ τ : State} (h : Keeps σ τ) (f : Nat) (src : Option Nat) (data : List Byte) : Keeps σ (State.settleFrom τ f src data) := by
  unfold State.settleFrom
  try dsimp only
  repeat' first
    | with_reducible assumption
    | with_reducible apply Keeps.settle
    | split
    | with_reducible refine Keeps.upd ?_ rfl rfl rfl

theorem Keeps.forwardWrite {σ τ : State} (h : Keeps σ τ) (f : Nat) (t : Table) (b : OwnerBlock) (no sh sl : Nat) (w : RowWrite) : Keeps σ (State.forwardWrite τ f t b no sh sl w) := by
  unfold State.forwardWrite
  try dsimp only
  repeat' first
    | with_reducible assumption
    | with_reducible apply Keeps.cntDie
    | with_reducible apply Keeps.sendOwner
    | with_reducible apply Keeps.owe

theorem Keeps.ownerWrite {σ τ : State} (h : Keeps σ τ) (f : Nat) (t : Table) (o : Nat) (w : RowWrite) : Keeps σ (State.ownerWrite τ f t o w) := by
  unfold State.ownerWrite
  try dsimp only
  repeat' first
    | with_reducible assumption
    | with_reducible apply Keeps.modFunc
    | with_reducible apply Keeps.rowPut
    | with_reducible apply Keeps.rowDone
    | with_reducible apply Keeps.forwardWrite
    | with_reducible refine Keeps.fst (by with_reducible assumption) ?_
    | with_reducible refine Keeps.snd (by with_reducible assumption) ?_
    | split
    | with_reducible refine Keeps.upd ?_ rfl rfl rfl

theorem Keeps.routeRow {σ τ : State} (h : Keeps σ τ) (f : Nat) (t : Table) (w : RowWrite) : Keeps σ (State.routeRow τ f t w) := by
  unfold State.routeRow
  try dsimp only
  repeat' first
    | with_reducible assumption
    | with_reducible apply Keeps.count
    | with_reducible apply Keeps.sendOwner
    | with_reducible apply Keeps.owe
    | with_reducible apply Keeps.ownerWrite
    | split
    | with_reducible refine Keeps.upd ?_ rfl rfl rfl

theorem Keeps.of_rowsCommand {σ τ : State} (h : Keeps σ τ) (replace : Bool) (c : Submission) : Keeps σ (rowsCommand replace c τ) := by
  unfold rowsCommand
  try dsimp only
  repeat' first
    | with_reducible assumption
    | with_reducible apply Keeps.modFunc
    | with_reducible apply Keeps.count
    | with_reducible apply Keeps.cntClu
    | with_reducible apply Keeps.violOor
    | with_reducible apply Keeps.single
    | with_reducible apply Keeps.routeRow
    | with_reducible refine Keeps.foldl ?_ fun _ _ _ => ?_
    | with_reducible refine Keeps.fst (by with_reducible assumption) ?_
    | with_reducible refine Keeps.snd (by with_reducible assumption) ?_
    | split
    | with_reducible refine Keeps.upd ?_ rfl rfl rfl

theorem Keeps.releaseWrites {σ τ : State} (h : Keeps σ τ) (f : Nat) : Keeps σ (State.releaseWrites τ f) := by
  unfold State.releaseWrites
  try dsimp only
  repeat' first
    | with_reducible assumption
    | with_reducible apply Keeps.modFunc
    | with_reducible apply Keeps.routeRow
    | with_reducible refine Keeps.foldl ?_ fun _ _ _ => ?_
    | split
    | with_reducible refine Keeps.upd ?_ rfl rfl rfl

theorem Keeps.slotImage {σ τ : State} (h : Keeps σ τ) (f : Nat) (t : Table) (o r : Nat) : Keeps σ (State.slotImage τ f t o r).2 := by
  unfold State.slotImage
  try dsimp only
  repeat' first
    | with_reducible assumption
    | with_reducible apply Keeps.slotRead
    | with_reducible refine Keeps.fst (by with_reducible assumption) ?_
    | with_reducible refine Keeps.snd (by with_reducible assumption) ?_
    | split
    | with_reducible refine Keeps.upd ?_ rfl rfl rfl

theorem Keeps.imageWait {σ τ υ : State} (h : Keeps σ τ) {f : Nat} {t : Table} {b : OwnerBlock} {r : Nat}
    (e : State.imageWait τ f t b r = some υ) : Keeps σ υ := by
  unfold State.imageWait at e
  split at e
  · split at e
    · cases e
    · cases e
      exact h.fetchKey _ _ _ _ _
  · cases e

theorem Keeps.sendCopy {σ τ : State} (h : Keeps σ τ) (f : Nat) (t : Table) (b : OwnerBlock) (m : Mig) (kind : Nat) : Keeps σ (State.sendCopy τ f t b m kind) := by
  unfold State.sendCopy
  try dsimp only
  repeat' first
    | with_reducible assumption
    | with_reducible apply Keeps.modFunc
    | with_reducible apply Keeps.sendOwner
    | with_reducible apply Keeps.slotImage
    | with_reducible refine Keeps.fst (by with_reducible assumption) ?_
    | with_reducible refine Keeps.snd (by with_reducible assumption) ?_
    | split

theorem Keeps.storeCopy {σ τ : State} (h : Keeps σ τ) (f : Nat) (m : TableMsg) : Keeps σ (State.storeCopy τ f m) := by
  unfold State.storeCopy
  try dsimp only
  repeat' first
    | with_reducible assumption
    | with_reducible apply Keeps.modFunc
    | with_reducible apply Keeps.take
    | with_reducible apply Keeps.slotWrite
    | split
    | with_reducible refine Keeps.upd ?_ rfl rfl rfl

theorem Keeps.switchRow {σ τ : State} (h : Keeps σ τ) (f : Nat) (t : Table) (b : OwnerBlock) (m : Mig) : Keeps σ (State.switchRow τ f t b m) := by
  unfold State.switchRow
  try dsimp only
  repeat' first
    | with_reducible assumption
    | with_reducible apply Keeps.modFunc
    | with_reducible apply Keeps.cntDie
    | with_reducible apply Keeps.send
    | with_reducible apply Keeps.sendLocal
    | with_reducible apply Keeps.gkInvalidate
    | with_reducible apply Keeps.forwardWrite
    | with_reducible apply Keeps.sendCopy
    | with_reducible refine Keeps.foldl ?_ fun _ _ _ => ?_
    | with_reducible refine Keeps.fst (by with_reducible assumption) ?_
    | with_reducible refine Keeps.snd (by with_reducible assumption) ?_
    | split
    | with_reducible refine Keeps.upd ?_ rfl rfl rfl

theorem Keeps.locUpdate {σ τ : State} (h : Keeps σ τ) (f : Nat) (m : TableMsg) : Keeps σ (State.locUpdate τ f m) := by
  unfold State.locUpdate
  try dsimp only
  repeat' first
    | with_reducible assumption
    | with_reducible apply Keeps.modFunc
    | with_reducible apply Keeps.take
    | with_reducible refine Keeps.fst (by with_reducible assumption) ?_
    | with_reducible refine Keeps.snd (by with_reducible assumption) ?_
    | split
    | with_reducible refine Keeps.upd ?_ rfl rfl rfl

theorem Keeps.decide {σ τ : State} (h : Keeps σ τ) (f n : Nat) (host : Bool) (m : Decided) : Keeps σ (State.decide τ f n host m) := by
  unfold State.decide
  try dsimp only
  repeat' first
    | with_reducible assumption
    | with_reducible apply Keeps.modFunc
    | with_reducible apply Keeps.sendLocal
    | split
    | with_reducible refine Keeps.upd ?_ rfl rfl rfl

theorem Keeps.startHostMoves {σ τ : State} (h : Keeps σ τ) (f n : Nat) (j : AsyncJob) : Keeps σ (State.startHostMoves τ f n j) := by
  unfold State.startHostMoves
  try dsimp only
  repeat' first
    | with_reducible assumption
    | with_reducible apply Keeps.modFunc
    | with_reducible apply Keeps.decide
    | with_reducible refine Keeps.foldl ?_ fun _ _ _ => ?_
    | with_reducible refine Keeps.fst (by with_reducible assumption) ?_
    | with_reducible refine Keeps.snd (by with_reducible assumption) ?_
    | split
    | with_reducible refine Keeps.upd ?_ rfl rfl rfl

theorem Keeps.of_tblMigrate' {σ τ : State} (h : Keeps σ τ) (c : Submission) : Keeps σ (tblMigrate' c τ) := by
  unfold tblMigrate'
  try dsimp only
  repeat' first
    | with_reducible assumption
    | with_reducible apply Keeps.modFunc
    | with_reducible apply Keeps.interim
    | with_reducible apply Keeps.startHostMoves
    | split
    | with_reducible refine Keeps.upd ?_ rfl rfl rfl

theorem Keeps.publishLoads {σ τ : State} (h : Keeps σ τ) (f n : Nat) : Keeps σ (State.publishLoads τ f n) := by
  unfold State.publishLoads
  try dsimp only
  repeat' first
    | with_reducible assumption
    | with_reducible apply Keeps.modFunc
    | with_reducible apply Keeps.store
    | with_reducible apply Keeps.cntDie
    | with_reducible apply Keeps.take
    | with_reducible apply Keeps.zeroRun
    | with_reducible refine Keeps.foldl ?_ fun _ _ _ => ?_
    | with_reducible refine Keeps.fst (by with_reducible assumption) ?_
    | with_reducible refine Keeps.snd (by with_reducible assumption) ?_
    | split
    | with_reducible refine Keeps.upd ?_ rfl rfl rfl

theorem Keeps.startMigrates {σ τ : State} (h : Keeps σ τ) (f n : Nat) : Keeps σ (State.startMigrates τ f n).1 := by
  unfold State.startMigrates
  try dsimp only
  repeat' first
    | with_reducible assumption
    | with_reducible apply Keeps.startHostMoves
    | with_reducible refine Keeps.foldl ?_ fun _ _ _ => ?_
    | split

theorem Keeps.migrateBoundary {σ τ : State} (h : Keeps σ τ) (f n : Nat) : Keeps σ (State.migrateBoundary τ f n) := by
  unfold State.migrateBoundary
  try dsimp only
  repeat' first
    | with_reducible assumption
    | with_reducible apply Keeps.modFunc
    | with_reducible apply Keeps.cntDie
    | with_reducible apply Keeps.modGecko
    | with_reducible apply Keeps.decide
    | with_reducible apply Keeps.publishLoads
    | with_reducible apply Keeps.startMigrates
    | with_reducible refine Keeps.foldl ?_ fun _ _ _ => ?_
    | with_reducible refine Keeps.foldlFst ?_ fun _ _ _ => ?_
    | with_reducible refine Keeps.foldlSnd ?_ fun _ _ _ => ?_
    | with_reducible refine Keeps.fst (by with_reducible assumption) ?_
    | with_reducible refine Keeps.snd (by with_reducible assumption) ?_
    | split
    | with_reducible refine Keeps.upd ?_ rfl rfl rfl

theorem Keeps.writeBlocks {σ τ : State} (h : Keeps σ τ) (f mode slice n : Nat) (bs : List SBlock) (addrs : List Nat) (spill : List Bool) : Keeps σ (State.writeBlocks τ f mode slice n bs addrs spill) := by
  unfold State.writeBlocks
  try dsimp only
  repeat' first
    | with_reducible assumption
    | with_reducible apply Keeps.devWrite
    | with_reducible refine Keeps.foldl ?_ fun _ _ _ => ?_
    | with_reducible refine Keeps.fst (by with_reducible assumption) ?_
    | with_reducible refine Keeps.snd (by with_reducible assumption) ?_
    | split

theorem Keeps.buildWork {σ τ : State} (h : Keeps σ τ) (f : Nat) (g : Graph) : Keeps σ (State.buildWork τ f g) := by
  unfold State.buildWork
  try dsimp only
  repeat' first
    | with_reducible assumption
    | with_reducible apply Keeps.devWrite
    | with_reducible apply Keeps.count
    | with_reducible apply Keeps.writeBlocks
    | with_reducible refine Keeps.foldl ?_ fun _ _ _ => ?_
    | split

theorem Keeps.of_graphLoad' {σ τ : State} (h : Keeps σ τ) (c : Submission) : Keeps σ (graphLoad' c τ) := by
  unfold graphLoad'
  try dsimp only
  repeat' first
    | with_reducible assumption
    | with_reducible apply Keeps.modFunc
    | with_reducible apply Keeps.single
    | with_reducible apply Keeps.interim
    | split
    | with_reducible refine Keeps.upd ?_ rfl rfl rfl

theorem Keeps.modSkink {σ τ : State} (h : Keeps σ τ) (d c : Nat) (h : Skink → Skink) : Keeps σ (State.modSkink τ d c h) := by
  unfold State.modSkink
  try dsimp only
  repeat' first
    | with_reducible assumption
    | with_reducible apply Keeps.modClu
    | with_reducible refine Keeps.upd ?_ rfl rfl rfl

theorem Keeps.placeBuffers {σ τ : State} (h : Keeps σ τ) (f d c mib : Nat) : Keeps σ (State.placeBuffers τ f d c mib) := by
  unfold State.placeBuffers
  dsimp only
  split
  · rename_i e
    obtain ⟨m, -, e⟩ := List.exists_of_findSome?_eq_some e
    split at e
    · cases e
    · obtain ⟨⟨a, u⟩, e1, e⟩ := Option.bind_eq_some_iff.1 e
      obtain ⟨⟨b, w⟩, e2, e⟩ := Option.bind_eq_some_iff.1 e
      cases e
      exact Keeps.modSkink (Keeps.ofSome e2 (KeepsO.allocate (Keeps.ofSome e1 (KeepsO.allocate (h.freeOwner _ _) _ _ _ _ _)) _ _ _ _ _)) _ _ _
  · exact Keeps.modSkink (h.freeOwner _ _) _ _ _

theorem Keeps.of_skkConfig' {σ τ : State} (h : Keeps σ τ) (c : Submission) : Keeps σ (skkConfig' c τ) := by
  unfold skkConfig'
  try dsimp only
  repeat' first
    | with_reducible assumption
    | with_reducible apply Keeps.single
    | with_reducible apply Keeps.okJ
    | with_reducible apply Keeps.placeBuffers
    | with_reducible refine Keeps.foldl ?_ fun _ _ _ => ?_
    | with_reducible refine Keeps.fst (by with_reducible assumption) ?_
    | with_reducible refine Keeps.snd (by with_reducible assumption) ?_
    | split

theorem Keeps.bufferOf {σ τ : State} (h : Keeps σ τ) (f d c par : Nat) : Keeps σ (State.bufferOf τ f d c par).2 := by
  unfold State.bufferOf
  try dsimp only
  repeat' first
    | with_reducible assumption
    | with_reducible apply Keeps.placeBuffers
    | split

theorem KeepsO.placeSlice {σ τ : State} (h : Keeps σ τ) (f d c par : Nat) (bs : List SBlock) : KeepsO σ (τ.placeSlice f d c par bs) := by
  intro a t e
  unfold State.placeSlice at e
  dsimp only at e
  have loop : ∀ (g : Option (List (Nat × Bool) × Nat × Bool × State) → SBlock → Option (List (Nat × Bool) × Nat × Bool × State))
      (_ : ∀ x b, (∀ l n q u, x = some (l, n, q, u) → Keeps σ u) → ∀ l n q u, g x b = some (l, n, q, u) → Keeps σ u)
      (bs : List SBlock) x, (∀ l n q u, x = some (l, n, q, u) → Keeps σ u) → ∀ l n q u, bs.foldl g x = some (l, n, q, u) → Keeps σ u := by
    intro g hg bs
    induction bs with
    | nil => exact fun _ h => h
    | cons b bs ih => exact fun x hx => ih _ (hg x b hx)
  split at e
  · cases e
  · rename_i e'
    cases e
    refine Keeps.modSkink (loop _ ?_ bs _ ?_ _ _ _ _ e') _ _ _
    · intro x b hx l n q u e
      obtain ⟨⟨l', n', q', u'⟩, e1, e⟩ := Option.bind_eq_some_iff.1 e
      have k := hx _ _ _ _ e1
      dsimp only at e
      split at e
      · cases e; exact k
      · obtain ⟨⟨a, w⟩, e2, e⟩ := Option.map_eq_some_iff.1 e
        cases e
        exact Keeps.ofSome e2 (KeepsO.allocate k _ _ _ _ _)
    · intro l n q u e
      cases e
      exact h.bufferOf _ _ _ _

end Sys2Proof.Machine
end

