-- ==== Sys2Proof/Laws/KeepsSpe.lean ====
section
/-!
SUPPORT. The operations of Tiles, Faults, Matrix, Vector, Backward, Gather, Groups, Chorus, Program, Chanter keep what only a module reset or its own command changes (Sys2Proof/Laws/Keeps.lean).
-/
namespace Sys2Proof.Machine

theorem Keeps.writeOut {σ τ : State} (h : Keeps σ τ) (f : Nat) (D : Desc) (v c bits : Nat) : Keeps σ (State.writeOut τ f D v c bits) := by
  unfold State.writeOut
  repeat' first
    | with_reducible assumption
    | with_reducible apply Keeps.devWrite

theorem Keeps.writeOuts {σ τ : State} (h : Keeps σ τ) (f : Nat) (D : Desc) (l : List (Nat × Nat × Nat)) : Keeps σ (State.writeOuts τ f D l) := by
  unfold State.writeOuts
  repeat' first
    | with_reducible assumption
    | with_reducible apply Keeps.writeOut
    | with_reducible refine Keeps.foldl ?_ fun _ _ _ => ?_
    | split

theorem Keeps.writeLeaves {σ τ : State} (h : Keeps σ τ) (f : Nat) (x : Ctx) (t : Tile) (cells : List (Nat × Nat)) (ls : List LeafCell) : Keeps σ (State.writeLeaves τ f x t cells ls) := by
  unfold State.writeLeaves
  try dsimp only
  repeat' first
    | with_reducible assumption
    | with_reducible apply Keeps.devWrite
    | with_reducible refine Keeps.foldl ?_ fun _ _ _ => ?_
    | with_reducible refine Keeps.fst (by with_reducible assumption) ?_
    | with_reducible refine Keeps.snd (by with_reducible assumption) ?_
    | split
    | with_reducible refine Keeps.upd ?_ rfl rfl rfl

theorem Keeps.commitTile {σ τ : State} (h : Keeps σ τ) (i : Nat) (b : Block) (t : Tile) (held : Weights) (us : List Upset) : Keeps σ (State.commitTile τ i b t held us) := by
  unfold State.commitTile
  try dsimp only
  repeat' first
    | with_reducible assumption
    | with_reducible apply Keeps.cntCore
    | with_reducible apply Keeps.modStep
    | with_reducible apply Keeps.calc
    | with_reducible apply Keeps.writeOut
    | with_reducible apply Keeps.writeOuts
    | with_reducible apply Keeps.writeLeaves
    | with_reducible refine Keeps.foldl ?_ fun _ _ _ => ?_
    | with_reducible refine Keeps.fst (by with_reducible assumption) ?_
    | with_reducible refine Keeps.snd (by with_reducible assumption) ?_
    | split
    | with_reducible refine Keeps.upd ?_ rfl rfl rfl

theorem Keeps.fillQueues {σ τ : State} (h : Keeps σ τ) (f : Nat) : Keeps σ (State.fillQueues τ f) := by
  unfold State.fillQueues
  try dsimp only
  repeat' first
    | with_reducible assumption
    | with_reducible apply Keeps.modCore
    | with_reducible apply Keeps.modStep
    | with_reducible refine Keeps.foldl ?_ fun _ _ _ => ?_
    | with_reducible refine Keeps.foldlFst ?_ fun _ _ _ => ?_
    | with_reducible refine Keeps.foldlSnd ?_ fun _ _ _ => ?_
    | exact fun _ _ => rfl
    | with_reducible refine Keeps.fst (by with_reducible assumption) ?_
    | with_reducible refine Keeps.snd (by with_reducible assumption) ?_
    | split
    | with_reducible refine Keeps.upd ?_ rfl rfl rfl

theorem Keeps.moveTiles {σ τ : State} (h : Keeps σ τ) (f place : Nat) (ts : List Tile) : Keeps σ (State.moveTiles τ f place ts) := by
  unfold State.moveTiles
  try dsimp only
  repeat' first
    | with_reducible assumption
    | with_reducible apply Keeps.modCore
    | with_reducible apply Keeps.modStep
    | with_reducible apply Keeps.fillQueues
    | with_reducible refine Keeps.foldl ?_ fun _ _ _ => ?_
    | with_reducible refine Keeps.foldlFst ?_ fun _ _ _ => ?_
    | with_reducible refine Keeps.foldlSnd ?_ fun _ _ _ => ?_
    | exact fun _ _ => rfl
    | with_reducible refine Keeps.fst (by with_reducible assumption) ?_
    | with_reducible refine Keeps.snd (by with_reducible assumption) ?_
    | split
    | with_reducible refine Keeps.upd ?_ rfl rfl rfl

theorem Keeps.deal {σ τ : State} (h : Keeps σ τ) (f : Nat) (groups : List (Nat × List Tile)) : Keeps σ (State.deal τ f groups) := by
  unfold State.deal
  try dsimp only
  repeat' first
    | with_reducible assumption
    | with_reducible apply Keeps.modStep
    | with_reducible apply Keeps.fillQueues
    | with_reducible apply Keeps.moveTiles
    | with_reducible refine Keeps.foldl ?_ fun _ _ _ => ?_
    | with_reducible refine Keeps.fst (by with_reducible assumption) ?_
    | with_reducible refine Keeps.snd (by with_reducible assumption) ?_
    | split

theorem Keeps.issue {σ τ : State} (h : Keeps σ τ) (f : Nat) (p : Plan) (n i pass : Nat) (shapes : List (Nat × Shape)) : Keeps σ (State.issue τ f p n i pass shapes) := by
  unfold State.issue
  try dsimp only
  repeat' first
    | with_reducible assumption
    | with_reducible apply Keeps.deal
    | with_reducible refine Keeps.foldl ?_ fun _ _ _ => ?_
    | with_reducible refine Keeps.fst (by with_reducible assumption) ?_
    | with_reducible refine Keeps.snd (by with_reducible assumption) ?_
    | split
    | with_reducible refine Keeps.upd ?_ rfl rfl rfl

theorem Keeps.placeWaiting {σ τ : State} (h : Keeps σ τ) (f d : Nat) : Keeps σ (State.placeWaiting τ f d) := by
  unfold State.placeWaiting
  repeat' first
    | with_reducible assumption
    | with_reducible apply Keeps.moveTiles

theorem Keeps.removal {σ τ : State} (h : Keeps σ τ) (d mech scope inst resp : Nat) : Keeps σ (State.removal τ d mech scope inst resp) := by
  unfold State.removal
  try dsimp only
  repeat' first
    | with_reducible assumption
    | with_reducible apply Keeps.emit
    | with_reducible apply Keeps.fault
    | with_reducible refine Keeps.fst (by with_reducible assumption) ?_
    | with_reducible refine Keeps.snd (by with_reducible assumption) ?_
    | split

theorem Keeps.redeal {σ τ : State} (h : Keeps σ τ) (f d c : Nat) (l : List (Nat × Nat × Nat)) : Keeps σ (State.redeal τ f d c l) := by
  unfold State.redeal
  try dsimp only
  repeat' first
    | with_reducible assumption
    | with_reducible apply Keeps.modSkink
    | with_reducible refine Keeps.foldl ?_ fun _ _ _ => ?_
    | with_reducible refine Keeps.fst (by with_reducible assumption) ?_
    | with_reducible refine Keeps.snd (by with_reducible assumption) ?_
    | split
    | with_reducible refine Keeps.upd ?_ rfl rfl rfl

theorem Keeps.dropSlices {σ τ : State} (h : Keeps σ τ) (f d c : Nat) : Keeps σ (State.dropSlices τ f d c) := by
  unfold State.dropSlices
  try dsimp only
  repeat' first
    | with_reducible assumption
    | with_reducible apply Keeps.modSkink
    | with_reducible apply Keeps.redeal
    | with_reducible refine Keeps.upd ?_ rfl rfl rfl

theorem Keeps.evictTiles {σ τ : State} (h : Keeps σ τ) (i : Nat) : Keeps σ (State.evictTiles τ i) := by
  unfold State.evictTiles
  try dsimp only
  repeat' first
    | with_reducible assumption
    | with_reducible apply Keeps.modCore
    | with_reducible apply Keeps.flagStep
    | with_reducible apply Keeps.moveTiles
    | exact fun _ _ => rfl
    | split
    | with_reducible refine Keeps.upd ?_ rfl rfl rfl

theorem Keeps.retireCore {σ τ : State} (h : Keeps σ τ) (i mech : Nat) (escalated : Bool) : Keeps σ (State.retireCore τ i mech escalated) := by
  unfold State.retireCore
  dsimp only
  split
  · exact h
  · rename_i e
    have k : (τ.core i).state = 1 := by
      simp only [State.coreState, ne_eq, Decidable.not_not] at e
      split at e
      · exact e
      · cases e
    have h := h.modCoreFrom i (fun c => { c with state := 2, mxe := { c.mxe with state := 7 }, vec := { c.vec with state := 5 } }) k
    repeat' first
      | assumption
      | with_reducible apply Keeps.cntDie
      | with_reducible apply Keeps.flagStep
      | with_reducible apply Keeps.coreChanged
      | with_reducible apply Keeps.removal
      | with_reducible apply Keeps.evictTiles
      | split

theorem Keeps.disableCluster {σ τ : State} (h : Keeps σ τ) (d c mech : Nat) : Keeps σ (State.disableCluster τ d c mech) := by
  unfold State.disableCluster
  try dsimp only
  repeat' first
    | with_reducible assumption
    | with_reducible apply Keeps.modClu
    | with_reducible apply Keeps.cntDie
    | with_reducible apply Keeps.cluChanged
    | with_reducible apply Keeps.removal
    | with_reducible apply Keeps.dropSlices
    | with_reducible apply Keeps.evictTiles
    | with_reducible refine Keeps.foldl ?_ fun _ _ _ => ?_
    | split
    | with_reducible refine Keeps.upd ?_ rfl rfl rfl

theorem Keeps.bypass {σ τ : State} (h : Keeps σ τ) (i col : Nat) : Keeps σ (State.bypass τ i col) := by
  unfold State.bypass
  try dsimp only
  repeat' first
    | with_reducible assumption
    | with_reducible apply Keeps.modCore
    | with_reducible apply Keeps.cntCore
    | with_reducible apply Keeps.coreChanged
    | with_reducible apply Keeps.retireCore
    | exact fun _ _ => rfl
    | split
    | with_reducible refine Keeps.upd ?_ rfl rfl rfl

theorem Keeps.thirdUe {σ τ : State} (h : Keeps σ τ) (d kind inst : Nat) : Keeps σ (State.thirdUe τ d kind inst).2 := by
  unfold State.thirdUe
  try dsimp only
  repeat' first
    | with_reducible assumption
    | with_reducible apply Keeps.modDie
    | exact fun _ h => h
    | exact fun _ _ => rfl
    | (refine fun _ h => ?_; split <;> exact h)
    | with_reducible refine Keeps.upd ?_ rfl rfl rfl

theorem Keeps.sramMet {σ τ : State} (h : Keeps σ τ) (i : Nat) (r : SramReport) : Keeps σ (State.sramMet τ i r) := by
  unfold State.sramMet
  try dsimp only
  repeat' first
    | with_reducible assumption
    | with_reducible apply Keeps.cntDie
    | with_reducible apply Keeps.note
    | with_reducible apply Keeps.retireCore
    | with_reducible apply Keeps.disableCluster
    | with_reducible apply Keeps.thirdUe
    | with_reducible refine Keeps.fst (by with_reducible assumption) ?_
    | with_reducible refine Keeps.snd (by with_reducible assumption) ?_
    | split

theorem Keeps.vecFail {σ τ : State} (h : Keeps σ τ) (r : VecReport) : Keeps σ (State.vecFail τ r) := by
  unfold State.vecFail
  repeat' first
    | with_reducible assumption
    | with_reducible apply Keeps.note
    | with_reducible apply Keeps.cntCore
    | with_reducible apply Keeps.retireCore
    | with_reducible apply Keeps.disableCluster
    | with_reducible refine Keeps.foldl ?_ fun _ _ _ => ?_
    | with_reducible refine Keeps.fst (by with_reducible assumption) ?_
    | with_reducible refine Keeps.snd (by with_reducible assumption) ?_
    | split

theorem Keeps.modMxe {σ τ : State} (h : Keeps σ τ) (i : Nat) (h : Matrix → Matrix) : Keeps σ (State.modMxe τ i h) := by
  unfold State.modMxe
  try dsimp only
  repeat' first
    | with_reducible assumption
    | with_reducible apply Keeps.modCore
    | exact fun _ _ => rfl
    | with_reducible refine Keeps.upd ?_ rfl rfl rfl

theorem Keeps.modSpe {σ τ : State} (h : Keeps σ τ) (i : Nat) (h : Sparse → Sparse) : Keeps σ (State.modSpe τ i h) := by
  unfold State.modSpe
  try dsimp only
  repeat' first
    | with_reducible assumption
    | with_reducible apply Keeps.modCore
    | exact fun _ _ => rfl
    | with_reducible refine Keeps.upd ?_ rfl rfl rfl

theorem Keeps.sparseStart {σ τ : State} (h : Keeps σ τ) (i : Nat) : Keeps σ (State.sparseStart τ i) := by
  unfold State.sparseStart
  try dsimp only
  repeat' first
    | with_reducible assumption
    | with_reducible apply Keeps.modSpe
    | split
    | with_reducible refine Keeps.upd ?_ rfl rfl rfl

theorem Keeps.settleMxe {σ τ : State} (h : Keeps σ τ) (i : Nat) : Keeps σ (State.settleMxe τ i) := by
  unfold State.settleMxe
  try dsimp only
  repeat' first
    | with_reducible assumption
    | with_reducible apply Keeps.moveTiles
    | with_reducible apply Keeps.modMxe
    | split
    | with_reducible refine Keeps.upd ?_ rfl rfl rfl

theorem Keeps.settleSpe {σ τ : State} (h : Keeps σ τ) (i : Nat) : Keeps σ (State.settleSpe τ i) := by
  unfold State.settleSpe
  try dsimp only
  repeat' first
    | with_reducible assumption
    | with_reducible apply Keeps.moveTiles
    | with_reducible apply Keeps.modSpe
    | split
    | with_reducible refine Keeps.upd ?_ rfl rfl rfl

theorem Keeps.afterTile {σ τ : State} (h : Keeps σ τ) (i : Nat) : Keeps σ (State.afterTile τ i) := by
  unfold State.afterTile
  try dsimp only
  repeat' first
    | with_reducible assumption
    | with_reducible apply Keeps.fillQueues
    | with_reducible apply Keeps.modMxe
    | with_reducible apply Keeps.modSpe
    | with_reducible apply Keeps.sparseStart
    | with_reducible apply Keeps.settleMxe
    | with_reducible apply Keeps.settleSpe
    | with_reducible refine Keeps.upd ?_ rfl rfl rfl

theorem Keeps.wakeSparse {σ τ : State} (h : Keeps σ τ) (t : Tile) : Keeps σ (State.wakeSparse τ t) := by
  unfold State.wakeSparse
  repeat' first
    | with_reducible assumption
    | with_reducible apply Keeps.sparseStart
    | with_reducible refine Keeps.foldl ?_ fun _ _ _ => ?_
    | split

theorem Keeps.fillFor {σ τ : State} (h : Keeps σ τ) (b : Block) (i : Nat) (t : Tile) : Keeps σ (State.fillFor τ b i t).2 := by
  unfold State.fillFor
  try dsimp only
  repeat' first
    | with_reducible assumption
    | with_reducible apply Keeps.cntCore
    | with_reducible apply Keeps.violDesc
    | with_reducible apply Keeps.calc
    | with_reducible refine Keeps.fst (by with_reducible assumption) ?_
    | with_reducible refine Keeps.snd (by with_reducible assumption) ?_
    | split
    | with_reducible refine Keeps.upd ?_ rfl rfl rfl

theorem Keeps.holdLoaded {σ τ : State} (h : Keeps σ τ) (i : Nat) (t : Tile) : Keeps σ (State.holdLoaded τ i t) := by
  unfold State.holdLoaded
  try dsimp only
  repeat' first
    | with_reducible assumption
    | with_reducible apply Keeps.modMxe
    | with_reducible refine Keeps.upd ?_ rfl rfl rfl

theorem Keeps.mispick {σ τ : State} (h : Keeps σ τ) (i : Nat) (t : Tile) : Keeps σ (State.mispick τ i t) := by
  unfold State.mispick
  try dsimp only
  repeat' first
    | with_reducible assumption
    | with_reducible apply Keeps.cntCore
    | with_reducible apply Keeps.flagStep
    | with_reducible refine Keeps.fst (by with_reducible assumption) ?_
    | with_reducible refine Keeps.snd (by with_reducible assumption) ?_
    | split
    | with_reducible refine Keeps.upd ?_ rfl rfl rfl

theorem Keeps.countDraw {σ τ : State} (h : Keeps σ τ) (f : Nat) (ahead : Bool) (i layer : Nat) : Keeps σ (State.countDraw τ f ahead i layer) := by
  unfold State.countDraw
  try dsimp only
  repeat' first
    | with_reducible assumption
    | with_reducible apply Keeps.cntCore
    | with_reducible apply Keeps.modStep
    | split
    | with_reducible refine Keeps.upd ?_ rfl rfl rfl

theorem Keeps.laneUse {σ τ : State} (h : Keeps σ τ) (i : Nat) (t : Tile) : Keeps σ (State.laneUse τ i t) := by
  unfold State.laneUse
  try dsimp only
  repeat' first
    | with_reducible assumption
    | with_reducible apply Keeps.modCore
    | with_reducible apply Keeps.flagStep
    | with_reducible apply Keeps.countDraw
    | exact fun _ _ => rfl
    | with_reducible refine Keeps.fst (by with_reducible assumption) ?_
    | with_reducible refine Keeps.snd (by with_reducible assumption) ?_
    | split
    | with_reducible refine Keeps.upd ?_ rfl rfl rfl

theorem Keeps.mxeCommit {σ τ : State} (h : Keeps σ τ) (i : Nat) (t : Tile) (us : List Upset) : Keeps σ (State.mxeCommit τ i t us) := by
  unfold State.mxeCommit
  try dsimp only
  repeat' first
    | with_reducible assumption
    | with_reducible apply Keeps.cntCore
    | with_reducible apply Keeps.commitTile
    | with_reducible apply Keeps.modMxe
    | with_reducible apply Keeps.afterTile
    | with_reducible apply Keeps.wakeSparse
    | with_reducible apply Keeps.mispick
    | with_reducible apply Keeps.laneUse
    | with_reducible refine Keeps.upd ?_ rfl rfl rfl

theorem Keeps.rerun {σ τ : State} (h : Keeps σ τ) (i : Nat) (t : Tile) (runs : Nat) : Keeps σ (State.rerun τ i t runs) := by
  unfold State.rerun
  try dsimp only
  repeat' first
    | with_reducible assumption
    | with_reducible apply Keeps.cntCore
    | with_reducible apply Keeps.flagStep
    | with_reducible apply Keeps.modMxe
    | with_reducible refine Keeps.upd ?_ rfl rfl rfl

theorem Keeps.refillMxe {σ τ : State} (h : Keeps σ τ) (i : Nat) (t : Tile) : Keeps σ (State.refillMxe τ i t) := by
  unfold State.refillMxe
  try dsimp only
  repeat' first
    | with_reducible assumption
    | with_reducible apply Keeps.cntCore
    | with_reducible apply Keeps.flagStep
    | with_reducible apply Keeps.modMxe
    | split
    | with_reducible refine Keeps.upd ?_ rfl rfl rfl

theorem Keeps.mismatch {σ τ : State} (h : Keeps σ τ) (i : Nat) (t : Tile) (compares : List (Nat × Nat)) (shadow : List Nat) : Keeps σ (State.mismatch τ i t compares shadow) := by
  unfold State.mismatch
  try dsimp only
  repeat' first
    | with_reducible assumption
    | with_reducible apply Keeps.cntDie
    | with_reducible apply Keeps.note
    | with_reducible apply Keeps.cntCore
    | with_reducible apply Keeps.retireCore
    | with_reducible apply Keeps.modMxe
    | with_reducible apply Keeps.rerun
    | with_reducible refine Keeps.fst (by with_reducible assumption) ?_
    | with_reducible refine Keeps.snd (by with_reducible assumption) ?_
    | split
    | with_reducible refine Keeps.upd ?_ rfl rfl rfl

theorem Keeps.testDecisions {σ τ : State} (h : Keeps σ τ) (i : Nat) (failing : List Nat) (mech : Nat) : Keeps σ (State.testDecisions τ i failing mech) := by
  unfold State.testDecisions
  try dsimp only
  repeat' first
    | with_reducible assumption
    | with_reducible apply Keeps.note
    | with_reducible apply Keeps.bypass
    | with_reducible apply Keeps.modMxe
    | with_reducible refine Keeps.foldl ?_ fun _ _ _ => ?_
    | split
    | with_reducible refine Keeps.upd ?_ rfl rfl rfl

theorem Keeps.startSelftest {σ τ : State} (h : Keeps σ τ) (i : Nat) : Keeps σ (State.startSelftest τ i) := by
  unfold State.startSelftest
  try dsimp only
  repeat' first
    | with_reducible assumption
    | with_reducible apply Keeps.cntCore
    | with_reducible apply Keeps.modMxe
    | with_reducible refine Keeps.upd ?_ rfl rfl rfl

theorem Keeps.nullPass {σ τ : State} (h : Keeps σ τ) (i : Nat) (us : List Upset) : Keeps σ (State.nullPass τ i us) := by
  unfold State.nullPass
  try dsimp only
  repeat' first
    | with_reducible assumption
    | with_reducible apply Keeps.cntDie
    | with_reducible apply Keeps.note
    | with_reducible apply Keeps.modMxe
    | with_reducible apply Keeps.startSelftest
    | split
    | with_reducible refine Keeps.upd ?_ rfl rfl rfl

theorem Keeps.sparseRun {σ τ : State} (h : Keeps σ τ) (i : Nat) (t : Tile) : Keeps σ (State.sparseRun τ i t) := by
  unfold State.sparseRun
  try dsimp only
  repeat' first
    | with_reducible assumption
    | with_reducible apply Keeps.cntCore
    | with_reducible refine Keeps.fst (by with_reducible assumption) ?_
    | with_reducible refine Keeps.snd (by with_reducible assumption) ?_
    | split

theorem Keeps.speCommit {σ τ : State} (h : Keeps σ τ) (i : Nat) (t : Tile) : Keeps σ (State.speCommit τ i t) := by
  unfold State.speCommit
  try dsimp only
  repeat' first
    | with_reducible assumption
    | with_reducible apply Keeps.cntCore
    | with_reducible apply Keeps.commitTile
    | with_reducible apply Keeps.modSpe
    | with_reducible apply Keeps.afterTile
    | with_reducible apply Keeps.wakeSparse
    | with_reducible apply Keeps.mispick
    | with_reducible apply Keeps.laneUse
    | split
    | with_reducible refine Keeps.upd ?_ rfl rfl rfl

theorem Keeps.refillSpe {σ τ : State} (h : Keeps σ τ) (i : Nat) (t : Tile) (runs : Nat) : Keeps σ (State.refillSpe τ i t runs) := by
  unfold State.refillSpe
  try dsimp only
  repeat' first
    | with_reducible assumption
    | with_reducible apply Keeps.cntCore
    | with_reducible apply Keeps.flagStep
    | with_reducible apply Keeps.modSpe
    | split
    | with_reducible refine Keeps.upd ?_ rfl rfl rfl

theorem Keeps.onShares {σ τ : State} (h : Keeps σ τ) {α : Type} (f : Nat) (ahead : Bool) (cs : List Nat) (V : Nat) (elems : α → Nat) (m : Nat → N α) : Keeps σ (State.onShares τ f ahead cs V elems m).2 := by
  unfold State.onShares
  try dsimp only
  repeat' first
    | with_reducible assumption
    | with_reducible apply Keeps.cntCore
    | with_reducible apply Keeps.calc
    | with_reducible refine Keeps.foldl ?_ fun _ _ _ => ?_
    | with_reducible refine Keeps.foldlFst ?_ fun _ _ _ => ?_
    | with_reducible refine Keeps.foldlSnd ?_ fun _ _ _ => ?_
    | with_reducible refine Keeps.fst (by with_reducible assumption) ?_
    | with_reducible refine Keeps.snd (by with_reducible assumption) ?_
    | split

theorem Keeps.modVec {σ τ : State} (h : Keeps σ τ) (i : Nat) (h : Vector → Vector) : Keeps σ (State.modVec τ i h) := by
  unfold State.modVec
  try dsimp only
  repeat' first
    | with_reducible assumption
    | with_reducible apply Keeps.modCore
    | exact fun _ _ => rfl
    | with_reducible refine Keeps.upd ?_ rfl rfl rfl

theorem Keeps.ftHold {σ τ : State} (h : Keeps σ τ) (f i slot : Nat) : Keeps σ (State.ftHold τ f i slot) := by
  unfold State.ftHold
  try dsimp only
  repeat' first
    | with_reducible assumption
    | with_reducible apply Keeps.cntCore
    | with_reducible apply Keeps.modVec
    | split
    | with_reducible refine Keeps.upd ?_ rfl rfl rfl

theorem Keeps.loadTables {σ τ : State} (h : Keeps σ τ) (f : Nat) (x : Ctx) (cs : List Nat) : Keeps σ (State.loadTables τ f x cs) := by
  unfold State.loadTables
  repeat' first
    | with_reducible assumption
    | with_reducible apply Keeps.ftHold
    | with_reducible refine Keeps.foldl ?_ fun _ _ _ => ?_
    | split

theorem Keeps.ftReplaced {σ τ : State} (h : Keeps σ τ) (f slot : Nat) : Keeps σ (State.ftReplaced τ f slot) := by
  unfold State.ftReplaced
  try dsimp only
  repeat' first
    | with_reducible assumption
    | with_reducible apply Keeps.modVec
    | with_reducible refine Keeps.foldl ?_ fun _ _ _ => ?_
    | split
    | with_reducible refine Keeps.upd ?_ rfl rfl rfl

theorem Keeps.writeBit {σ τ : State} (h : Keeps σ τ) (f a i : Nat) (b : Bool) : Keeps σ (State.writeBit τ f a i b) := by
  unfold State.writeBit
  try dsimp only
  repeat' first
    | with_reducible assumption
    | with_reducible apply Keeps.devWrite
    | split

theorem Keeps.writeVector {σ τ : State} (h : Keeps σ τ) (f : Nat) (x : Ctx) (v : Nat) (o : VecOut) : Keeps σ (State.writeVector τ f x v o) := by
  unfold State.writeVector
  try dsimp only
  repeat' first
    | with_reducible assumption
    | with_reducible apply Keeps.devWrite
    | with_reducible apply Keeps.writeOut
    | with_reducible apply Keeps.writeBit
    | with_reducible refine Keeps.foldl ?_ fun _ _ _ => ?_
    | with_reducible refine Keeps.fst (by with_reducible assumption) ?_
    | with_reducible refine Keeps.snd (by with_reducible assumption) ?_
    | split
    | with_reducible refine Keeps.upd ?_ rfl rfl rfl

theorem Keeps.drawn {σ τ : State} (h : Keeps σ τ) (f : Nat) (ahead : Bool) (layer : Nat) (cs : List Nat) : Keeps σ (State.drawn τ f ahead layer cs) := by
  unfold State.drawn
  try dsimp only
  repeat' first
    | with_reducible assumption
    | with_reducible apply Keeps.modStep
    | with_reducible apply Keeps.countDraw
    | with_reducible apply Keeps.modVec
    | with_reducible refine Keeps.foldl ?_ fun _ _ _ => ?_
    | split
    | with_reducible refine Keeps.upd ?_ rfl rfl rfl

theorem Keeps.runVectors {σ τ : State} (h : Keeps σ τ) (f : Nat) (ahead : Bool) (x : Ctx) (cs : List Nat) : Keeps σ (State.runVectors τ f ahead x cs) := by
  unfold State.runVectors
  try dsimp only
  repeat' first
    | with_reducible assumption
    | with_reducible apply Keeps.onShares
    | with_reducible apply Keeps.loadTables
    | with_reducible apply Keeps.writeVector
    | with_reducible apply Keeps.drawn
    | with_reducible refine Keeps.foldl ?_ fun _ _ _ => ?_
    | with_reducible refine Keeps.foldlFst ?_ fun _ _ _ => ?_
    | with_reducible refine Keeps.foldlSnd ?_ fun _ _ _ => ?_
    | with_reducible refine Keeps.fst (by with_reducible assumption) ?_
    | with_reducible refine Keeps.snd (by with_reducible assumption) ?_
    | split

theorem Keeps.runLoss {σ τ : State} (h : Keeps σ τ) (f : Nat) (x : Ctx) (cs : List Nat) (pred : Nat → Nat → N F32) : Keeps σ (State.runLoss τ f x cs pred) := by
  unfold State.runLoss
  try dsimp only
  repeat' first
    | with_reducible assumption
    | with_reducible apply Keeps.devWrite
    | with_reducible apply Keeps.modStep
    | with_reducible apply Keeps.calc
    | with_reducible apply Keeps.onShares
    | with_reducible apply Keeps.loadTables
    | with_reducible refine Keeps.foldl ?_ fun _ _ _ => ?_
    | with_reducible refine Keeps.foldlFst ?_ fun _ _ _ => ?_
    | with_reducible refine Keeps.foldlSnd ?_ fun _ _ _ => ?_
    | with_reducible refine Keeps.fst (by with_reducible assumption) ?_
    | with_reducible refine Keeps.snd (by with_reducible assumption) ?_
    | split
    | with_reducible refine Keeps.upd ?_ rfl rfl rfl

theorem Keeps.saveInput {σ τ : State} (h : Keeps σ τ) (f : Nat) (x : Ctx) : Keeps σ (State.saveInput τ f x) := by
  unfold State.saveInput
  try dsimp only
  repeat' first
    | with_reducible assumption
    | with_reducible apply Keeps.devWrite
    | with_reducible refine Keeps.foldl ?_ fun _ _ _ => ?_
    | with_reducible refine Keeps.fst (by with_reducible assumption) ?_
    | with_reducible refine Keeps.snd (by with_reducible assumption) ?_
    | split

theorem Keeps.gatherBack {σ τ : State} (h : Keeps σ τ) (f : Nat) (x : Ctx) (grads : List GradBuf) : Keeps σ (State.gatherBack τ f x grads) := by
  unfold State.gatherBack
  try dsimp only
  repeat' first
    | with_reducible assumption
    | with_reducible apply Keeps.modFunc
    | with_reducible apply Keeps.calc
    | with_reducible apply Keeps.sendOwner
    | with_reducible refine Keeps.foldl ?_ fun _ _ _ => ?_
    | with_reducible refine Keeps.foldlFst ?_ fun _ _ _ => ?_
    | with_reducible refine Keeps.foldlSnd ?_ fun _ _ _ => ?_
    | with_reducible refine Keeps.fst (by with_reducible assumption) ?_
    | with_reducible refine Keeps.snd (by with_reducible assumption) ?_
    | split
    | with_reducible refine Keeps.upd ?_ rfl rfl rfl

theorem Keeps.contributions {σ τ : State} (h : Keeps σ τ) (f : Nat) (x : Ctx) (cs : List Nat) (ls : List LeafCell) (pass : Nat) (part : Nat → N Part) : Keeps σ (State.contributions τ f x cs ls pass part).2 := by
  unfold State.contributions
  try dsimp only
  repeat' first
    | with_reducible assumption
    | with_reducible apply Keeps.cntCore
    | with_reducible apply Keeps.calc
    | with_reducible apply Keeps.onShares
    | with_reducible apply Keeps.loadTables
    | with_reducible refine Keeps.foldl ?_ fun _ _ _ => ?_
    | with_reducible refine Keeps.foldlFst ?_ fun _ _ _ => ?_
    | with_reducible refine Keeps.foldlSnd ?_ fun _ _ _ => ?_
    | with_reducible refine Keeps.fst (by with_reducible assumption) ?_
    | with_reducible refine Keeps.snd (by with_reducible assumption) ?_
    | split

theorem Keeps.weightPairs {σ τ : State} (h : Keeps σ τ) (f : Nat) (x : Ctx) (cs : List Nat) (ls : List LeafCell) (pass : Nat) (wgs : List Nat) (row : Nat → N (List F32)) : Keeps σ (State.weightPairs τ f x cs ls pass wgs row).2 := by
  unfold State.weightPairs
  try dsimp only
  repeat' first
    | with_reducible assumption
    | with_reducible apply Keeps.cntCore
    | with_reducible apply Keeps.calc
    | with_reducible apply Keeps.onShares
    | with_reducible refine Keeps.fst (by with_reducible assumption) ?_
    | with_reducible refine Keeps.snd (by with_reducible assumption) ?_
    | split
    | with_reducible refine Keeps.upd ?_ rfl rfl rfl

theorem Keeps.b1Finish {σ τ : State} (h : Keeps σ τ) (f : Nat) (p : Plan) (st : Step) (i : Nat) (cs : List Nat) : Keeps σ (State.b1Finish τ f p st i cs) := by
  unfold State.b1Finish
  try dsimp only
  repeat' first
    | with_reducible assumption
    | with_reducible apply Keeps.modStep
    | with_reducible apply Keeps.calc
    | with_reducible apply Keeps.gatherBack
    | with_reducible apply Keeps.contributions
    | with_reducible apply Keeps.weightPairs
    | with_reducible refine Keeps.fst (by with_reducible assumption) ?_
    | with_reducible refine Keeps.snd (by with_reducible assumption) ?_
    | split
    | with_reducible refine Keeps.upd ?_ rfl rfl rfl

theorem Keeps.b2First {σ τ : State} (h : Keeps σ τ) (f : Nat) (p : Plan) (st : Step) (i : Nat) (cs : List Nat) : Keeps σ (State.b2First τ f p st i cs) := by
  unfold State.b2First
  try dsimp only
  repeat' first
    | with_reducible assumption
    | with_reducible apply Keeps.modStep
    | with_reducible apply Keeps.calc
    | with_reducible apply Keeps.onShares
    | with_reducible apply Keeps.loadTables
    | with_reducible refine Keeps.fst (by with_reducible assumption) ?_
    | with_reducible refine Keeps.snd (by with_reducible assumption) ?_
    | split
    | with_reducible refine Keeps.upd ?_ rfl rfl rfl

theorem Keeps.b2Second {σ τ : State} (h : Keeps σ τ) (f : Nat) (p : Plan) (st : Step) (i : Nat) (cs : List Nat) : Keeps σ (State.b2Second τ f p st i cs) := by
  unfold State.b2Second
  try dsimp only
  repeat' first
    | with_reducible assumption
    | with_reducible apply Keeps.modStep
    | with_reducible apply Keeps.calc
    | with_reducible apply Keeps.onShares
    | with_reducible apply Keeps.loadTables
    | with_reducible apply Keeps.contributions
    | with_reducible apply Keeps.weightPairs
    | with_reducible refine Keeps.fst (by with_reducible assumption) ?_
    | with_reducible refine Keeps.snd (by with_reducible assumption) ?_
    | split
    | with_reducible refine Keeps.upd ?_ rfl rfl rfl

theorem Keeps.startGather {σ τ : State} (h : Keeps σ τ) (f : Nat) (p : Plan) (n i : Nat) : Keeps σ (State.startGather τ f p n i) := by
  unfold State.startGather
  try dsimp only
  repeat' first
    | with_reducible assumption
    | with_reducible apply Keeps.modFunc
    | with_reducible apply Keeps.devWrite
    | with_reducible apply Keeps.writeEntry
    | with_reducible apply Keeps.sendRequests
    | with_reducible refine Keeps.foldl ?_ fun _ _ _ => ?_
    | with_reducible refine Keeps.foldlFst ?_ fun _ _ _ => ?_
    | with_reducible refine Keeps.foldlSnd ?_ fun _ _ _ => ?_
    | with_reducible refine Keeps.fst (by with_reducible assumption) ?_
    | with_reducible refine Keeps.snd (by with_reducible assumption) ?_
    | split
    | with_reducible refine Keeps.upd ?_ rfl rfl rfl

theorem Keeps.endGather {σ τ : State} (h : Keeps σ τ) (f n i : Nat) : Keeps σ (State.endGather τ f n i) := by
  unfold State.endGather
  try dsimp only
  repeat' first
    | with_reducible assumption
    | with_reducible apply Keeps.modFunc
    | with_reducible apply Keeps.modClu
    | with_reducible refine Keeps.foldl ?_ fun _ _ _ => ?_
    | with_reducible refine Keeps.fst (by with_reducible assumption) ?_
    | with_reducible refine Keeps.snd (by with_reducible assumption) ?_
    | split
    | with_reducible refine Keeps.upd ?_ rfl rfl rfl

theorem Keeps.modChorus {σ τ : State} (h : Keeps σ τ) (f slot n : Nat) (h : ChorusStep → ChorusStep) : Keeps σ (State.modChorus τ f slot n h) := by
  unfold State.modChorus
  try dsimp only
  repeat' first
    | with_reducible assumption
    | with_reducible apply Keeps.modFunc
    | with_reducible refine Keeps.upd ?_ rfl rfl rfl

theorem Keeps.openChorus {σ τ : State} (h : Keeps σ τ) (f plan n : Nat) : Keeps σ (State.openChorus τ f plan n) := by
  unfold State.openChorus
  try dsimp only
  repeat' first
    | with_reducible assumption
    | with_reducible apply Keeps.modFunc
    | split
    | with_reducible refine Keeps.upd ?_ rfl rfl rfl

theorem Keeps.sendRank {σ τ : State} (h : Keeps σ τ) (f : Nat) (gr : Group) (r die : Nat) (m : ChorusMsg) : Keeps σ (State.sendRank τ f gr r die m) := by
  unfold State.sendRank
  repeat' first
    | with_reducible assumption
    | with_reducible apply Keeps.send
    | with_reducible apply Keeps.sendLocal
    | split

theorem Keeps.sendAll {σ τ : State} (h : Keeps σ τ) (f : Nat) (gr : Group) (m : ChorusMsg) : Keeps σ (State.sendAll τ f gr m) := by
  unfold State.sendAll
  repeat' first
    | with_reducible assumption
    | with_reducible apply Keeps.sendRank
    | with_reducible refine Keeps.foldl ?_ fun _ _ _ => ?_
    | split

theorem Keeps.sendOwn {σ τ : State} (h : Keeps σ τ) (f : Nat) (gr : Group) (m : ChorusMsg) : Keeps σ (State.sendOwn τ f gr m) := by
  unfold State.sendOwn
  try dsimp only
  repeat' first
    | with_reducible assumption
    | with_reducible apply Keeps.cntMod
    | with_reducible apply Keeps.sendRank
    | split
    | with_reducible refine Keeps.upd ?_ rfl rfl rfl

theorem Keeps.latePolicy {σ τ : State} (h : Keeps σ τ) (f slot plan n : Nat) (gr : Group) (p : Plan) : Keeps σ (State.latePolicy τ f slot plan n gr p) := by
  unfold State.latePolicy
  try dsimp only
  repeat' first
    | with_reducible assumption
    | with_reducible apply Keeps.modFunc
    | with_reducible apply Keeps.cntMod
    | split
    | with_reducible refine Keeps.upd ?_ rfl rfl rfl

theorem Keeps.trySent {σ τ : State} (h : Keeps σ τ) (f slot n : Nat) : Keeps σ (State.trySent τ f slot n) := by
  unfold State.trySent
  try dsimp only
  repeat' first
    | with_reducible assumption
    | with_reducible apply Keeps.modChorus
    | with_reducible apply Keeps.sendRank
    | with_reducible refine Keeps.foldl ?_ fun _ _ _ => ?_
    | split
    | with_reducible refine Keeps.upd ?_ rfl rfl rfl

theorem Keeps.startReduce {σ τ : State} (h : Keeps σ τ) (f : Nat) : Keeps σ (State.startReduce τ f) := by
  unfold State.startReduce
  try dsimp only
  repeat' first
    | with_reducible assumption
    | with_reducible apply Keeps.modFunc
    | with_reducible apply Keeps.calc
    | with_reducible apply Keeps.modChorus
    | with_reducible apply Keeps.sendOwn
    | with_reducible apply Keeps.latePolicy
    | with_reducible apply Keeps.trySent
    | with_reducible refine Keeps.foldl ?_ fun _ _ _ => ?_
    | with_reducible refine Keeps.foldlFst ?_ fun _ _ _ => ?_
    | with_reducible refine Keeps.foldlSnd ?_ fun _ _ _ => ?_
    | with_reducible refine Keeps.fst (by with_reducible assumption) ?_
    | with_reducible refine Keeps.snd (by with_reducible assumption) ?_
    | split
    | with_reducible refine Keeps.upd ?_ rfl rfl rfl

theorem Keeps.heard {σ τ : State} (h : Keeps σ τ) (f slot : Nat) : Keeps σ (State.heard τ f slot) := by
  unfold State.heard
  try dsimp only
  repeat' first
    | with_reducible assumption
    | with_reducible apply Keeps.modFunc
    | with_reducible refine Keeps.upd ?_ rfl rfl rfl

theorem Keeps.handle {σ τ : State} (h : Keeps σ τ) (f : Nat) : Keeps σ (State.handle τ f) := by
  unfold State.handle
  repeat' first
    | with_reducible assumption
    | with_reducible apply Keeps.protect

theorem Keeps.countMisses {σ τ : State} (h : Keeps σ τ) (f slot : Nat) (gr : Group) (mask : ChorusMsg) : Keeps σ (State.countMisses τ f slot gr mask) := by
  unfold State.countMisses
  try dsimp only
  repeat' first
    | with_reducible assumption
    | with_reducible apply Keeps.modFunc
    | with_reducible apply Keeps.emitTo
    | with_reducible refine Keeps.foldl ?_ fun _ _ _ => ?_
    | with_reducible refine Keeps.fst (by with_reducible assumption) ?_
    | with_reducible refine Keeps.snd (by with_reducible assumption) ?_
    | split
    | with_reducible refine Keeps.upd ?_ rfl rfl rfl

theorem Keeps.chorusDecide {σ τ : State} (h : Keeps σ τ) (f slot n : Nat) : Keeps σ (State.chorusDecide τ f slot n) := by
  unfold State.chorusDecide
  try dsimp only
  repeat' first
    | with_reducible assumption
    | with_reducible apply Keeps.modChorus
    | with_reducible apply Keeps.sendRank
    | with_reducible refine Keeps.fst (by with_reducible assumption) ?_
    | with_reducible refine Keeps.snd (by with_reducible assumption) ?_
    | split
    | with_reducible refine Keeps.upd ?_ rfl rfl rfl

theorem Keeps.tryDecide {σ τ : State} (h : Keeps σ τ) (f slot n : Nat) : Keeps σ (State.tryDecide τ f slot n) := by
  unfold State.tryDecide
  try dsimp only
  repeat' first
    | with_reducible assumption
    | with_reducible apply Keeps.chorusDecide
    | split
    | with_reducible refine Keeps.upd ?_ rfl rfl rfl

theorem Keeps.cfgCheck {σ τ : State} (h : Keeps σ τ) (f slot : Nat) (gr : Group) (k : Mark) : Keeps σ (State.cfgCheck τ f slot gr k) := by
  unfold State.cfgCheck
  repeat' first
    | with_reducible assumption
    | with_reducible apply Keeps.emitTo
    | with_reducible apply Keeps.cntMod
    | split

theorem Keeps.segmentWork {σ τ : State} (h : Keeps σ τ) (f slot n : Nat) (only : Nat → Bool) : Keeps σ (State.segmentWork τ f slot n only) := by
  unfold State.segmentWork
  try dsimp only
  repeat' first
    | with_reducible assumption
    | with_reducible apply Keeps.modFunc
    | with_reducible apply Keeps.cntMod
    | with_reducible apply Keeps.protect
    | with_reducible apply Keeps.calc
    | with_reducible apply Keeps.modChorus
    | with_reducible apply Keeps.sendRank
    | with_reducible refine Keeps.foldl ?_ fun _ _ _ => ?_
    | with_reducible refine Keeps.foldlFst ?_ fun _ _ _ => ?_
    | with_reducible refine Keeps.foldlSnd ?_ fun _ _ _ => ?_
    | with_reducible refine Keeps.fst (by with_reducible assumption) ?_
    | with_reducible refine Keeps.snd (by with_reducible assumption) ?_
    | split
    | with_reducible refine Keeps.upd ?_ rfl rfl rfl

theorem Keeps.contribIn {σ τ : State} (h : Keeps σ τ) (f : Nat) (seg : Bool) (m : ChorusMsg) : Keeps σ (State.contribIn τ f seg m) := by
  unfold State.contribIn
  try dsimp only
  repeat' first
    | with_reducible assumption
    | with_reducible apply Keeps.cntMod
    | with_reducible apply Keeps.note
    | with_reducible apply Keeps.take
    | with_reducible apply Keeps.modChorus
    | with_reducible apply Keeps.sendRank
    | with_reducible apply Keeps.handle
    | with_reducible apply Keeps.segmentWork
    | with_reducible refine Keeps.fst (by with_reducible assumption) ?_
    | with_reducible refine Keeps.snd (by with_reducible assumption) ?_
    | split
    | with_reducible refine Keeps.upd ?_ rfl rfl rfl

theorem Keeps.applyAbsence {σ τ : State} (h : Keeps σ τ) (f n : Nat) : Keeps σ (State.applyAbsence τ f n) := by
  unfold State.applyAbsence
  try dsimp only
  repeat' first
    | with_reducible assumption
    | with_reducible apply Keeps.tryCloseAll
    | with_reducible apply Keeps.restartCombine
    | with_reducible refine Keeps.foldl ?_ fun _ _ _ => ?_
    | split
    | with_reducible refine Keeps.upd ?_ rfl rfl rfl

theorem Keeps.askShards {σ τ : State} (h : Keeps σ τ) (f slot n : Nat) (gr : Group) (own seg : Nat → Bool) : Keeps σ (State.askShards τ f slot n gr own seg) := by
  unfold State.askShards
  try dsimp only
  repeat' first
    | with_reducible assumption
    | with_reducible apply Keeps.sendRank
    | with_reducible refine Keeps.foldl ?_ fun _ _ _ => ?_
    | split
    | with_reducible refine Keeps.upd ?_ rfl rfl rfl

theorem Keeps.askMissing {σ τ : State} (h : Keeps σ τ) (f slot : Nat) (gr : Group) (m : ChorusMsg) : Keeps σ (State.askMissing τ f slot gr m) := by
  unfold State.askMissing
  try dsimp only
  repeat' first
    | with_reducible assumption
    | with_reducible apply Keeps.askShards
    | split

theorem Keeps.adoptMask {σ τ : State} (h : Keeps σ τ) (f slot : Nat) (gr : Group) (m : ChorusMsg) : Keeps σ (State.adoptMask τ f slot gr m) := by
  unfold State.adoptMask
  try dsimp only
  repeat' first
    | with_reducible assumption
    | with_reducible apply Keeps.modFunc
    | with_reducible apply Keeps.cntMod
    | with_reducible apply Keeps.modChorus
    | with_reducible apply Keeps.latePolicy
    | with_reducible apply Keeps.heard
    | with_reducible apply Keeps.countMisses
    | with_reducible apply Keeps.segmentWork
    | with_reducible apply Keeps.applyAbsence
    | with_reducible apply Keeps.askMissing
    | split
    | with_reducible refine Keeps.upd ?_ rfl rfl rfl

theorem Keeps.addShard {σ τ : State} (h : Keeps σ τ) (f slot n j : Nat) (gr : Group) (mask : ChorusMsg) (ms : List ChorusMsg) : Keeps σ (State.addShard τ f slot n j gr mask ms) := by
  unfold State.addShard
  try dsimp only
  repeat' first
    | with_reducible assumption
    | with_reducible apply Keeps.cntMod
    | with_reducible apply Keeps.calc
    | with_reducible apply Keeps.modChorus
    | with_reducible apply Keeps.sendAll
    | with_reducible refine Keeps.fst (by with_reducible assumption) ?_
    | with_reducible refine Keeps.snd (by with_reducible assumption) ?_
    | split
    | with_reducible refine Keeps.upd ?_ rfl rfl rfl

theorem Keeps.applyEvict {σ τ : State} (h : Keeps σ τ) (f slot r : Nat) : Keeps σ (State.applyEvict τ f slot r) := by
  unfold State.applyEvict
  try dsimp only
  repeat' first
    | with_reducible assumption
    | with_reducible apply Keeps.modFunc
    | with_reducible apply Keeps.sendRank
    | with_reducible apply Keeps.chorusDecide
    | with_reducible apply Keeps.tryDecide
    | with_reducible apply Keeps.cfgCheck
    | with_reducible apply Keeps.segmentWork
    | with_reducible apply Keeps.askShards
    | with_reducible refine Keeps.foldl ?_ fun _ _ _ => ?_
    | split
    | with_reducible refine Keeps.upd ?_ rfl rfl rfl

theorem Keeps.of_collEvict' {σ τ : State} (h : Keeps σ τ) (c : Submission) : Keeps σ (collEvict' c τ) := by
  unfold collEvict'
  try dsimp only
  repeat' first
    | with_reducible assumption
    | with_reducible apply Keeps.single
    | with_reducible apply Keeps.okJ
    | with_reducible apply Keeps.sendRank
    | with_reducible apply Keeps.applyEvict
    | with_reducible refine Keeps.foldl ?_ fun _ _ _ => ?_
    | split
    | with_reducible refine Keeps.upd ?_ rfl rfl rfl

theorem Keeps.of_collGroup' {σ τ : State} (h : Keeps σ τ) (c : Submission) : Keeps σ (collGroup' c τ) := by
  unfold collGroup'
  try dsimp only
  repeat' first
    | with_reducible assumption
    | with_reducible apply Keeps.modFunc
    | with_reducible apply Keeps.single
    | with_reducible apply Keeps.okJ
    | split
    | with_reducible refine Keeps.upd ?_ rfl rfl rfl

theorem Keeps.twinRun {σ τ : State} (h : Keeps σ τ) (bad : List Nat) (l f : Nat) (p : Plan) (x : Nat × Nat × Nat × Nat × Bool) : Keeps σ (State.twinRun τ bad l f p x) := by
  unfold State.twinRun
  try dsimp only
  repeat' first
    | with_reducible assumption
    | with_reducible apply Keeps.poke
    | with_reducible apply Keeps.store
    | with_reducible apply Keeps.emit
    | with_reducible apply Keeps.cntDie
    | with_reducible apply Keeps.calc
    | with_reducible refine Keeps.fst (by with_reducible assumption) ?_
    | with_reducible refine Keeps.snd (by with_reducible assumption) ?_
    | split
    | with_reducible refine Keeps.upd ?_ rfl rfl rfl

theorem Keeps.twinLine {σ τ : State} (h : Keeps σ τ) (l : Nat) : Keeps σ (State.twinLine τ l) := by
  unfold State.twinLine
  try dsimp only
  repeat' first
    | with_reducible assumption
    | with_reducible apply Keeps.twinRun
    | with_reducible refine Keeps.foldl ?_ fun _ _ _ => ?_
    | split

theorem Keeps.twinCheck {σ τ : State} (h : Keeps σ τ) (f : Nat) : Keeps σ (State.twinCheck τ f) := by
  unfold State.twinCheck
  try dsimp only
  repeat' first
    | with_reducible assumption
    | with_reducible apply Keeps.twinLine
    | with_reducible refine Keeps.foldl ?_ fun _ _ _ => ?_
    | with_reducible refine Keeps.fst (by with_reducible assumption) ?_
    | with_reducible refine Keeps.snd (by with_reducible assumption) ?_
    | split
    | with_reducible refine Keeps.upd ?_ rfl rfl rfl

theorem Keeps.hostWrite {σ τ : State} (h : Keeps σ τ) (f a : Nat) (bs : List Byte) : Keeps σ (State.hostWrite τ f a bs) := by
  unfold State.hostWrite
  try dsimp only
  repeat' first
    | with_reducible assumption
    | with_reducible apply Keeps.modFunc
    | with_reducible apply Keeps.devWrite
    | with_reducible refine Keeps.fst (by with_reducible assumption) ?_
    | with_reducible refine Keeps.snd (by with_reducible assumption) ?_
    | split
    | with_reducible refine Keeps.upd ?_ rfl rfl rfl

theorem Keeps.of_updProgram' {σ τ : State} (h : Keeps σ τ) (c : Submission) : Keeps σ (updProgram' c τ) := by
  unfold updProgram'
  try dsimp only
  repeat' first
    | with_reducible assumption
    | with_reducible apply Keeps.modFunc
    | with_reducible apply Keeps.single
    | with_reducible apply Keeps.okJ
    | with_reducible refine Keeps.fst (by with_reducible assumption) ?_
    | with_reducible refine Keeps.snd (by with_reducible assumption) ?_
    | split
    | with_reducible refine Keeps.upd ?_ rfl rfl rfl

theorem Keeps.setPlan {σ τ : State} (h : Keeps σ τ) (f slot : Nat) (p : Plan) : Keeps σ (State.setPlan τ f slot p) := by
  unfold State.setPlan
  try dsimp only
  repeat' first
    | with_reducible assumption
    | with_reducible apply Keeps.modFunc
    | with_reducible refine Keeps.upd ?_ rfl rfl rfl

theorem Keeps.of_updStepSize' {σ τ : State} (h : Keeps σ τ) (c : Submission) : Keeps σ (updStepSize' c τ) := by
  unfold updStepSize'
  try dsimp only
  repeat' first
    | with_reducible assumption
    | with_reducible apply Keeps.cntDie
    | with_reducible apply Keeps.single
    | with_reducible apply Keeps.setPlan
    | with_reducible refine Keeps.fst (by with_reducible assumption) ?_
    | with_reducible refine Keeps.snd (by with_reducible assumption) ?_
    | split
    | with_reducible refine Keeps.upd ?_ rfl rfl rfl

theorem Keeps.of_updFreeze' {σ τ : State} (h : Keeps σ τ) (c : Submission) : Keeps σ (updFreeze' c τ) := by
  unfold updFreeze'
  try dsimp only
  repeat' first
    | with_reducible assumption
    | with_reducible apply Keeps.single
    | with_reducible apply Keeps.okJ
    | with_reducible apply Keeps.setPlan
    | split
    | with_reducible refine Keeps.upd ?_ rfl rfl rfl

theorem Keeps.dropNormsOf {σ τ : State} (h : Keeps σ τ) (f : Nat) : Keeps σ (State.dropNormsOf τ f) := by
  unfold State.dropNormsOf
  try dsimp only
  repeat' first
    | with_reducible assumption
    | with_reducible apply Keeps.modFunc
    | with_reducible refine Keeps.upd ?_ rfl rfl rfl

theorem Keeps.writeShard {σ τ : State} (h : Keeps σ τ) (f : Nat) (e : PGroup) (sh : Shard) (o : UOut) : Keeps σ (State.writeShard τ f e sh o) := by
  unfold State.writeShard
  try dsimp only
  repeat' first
    | with_reducible assumption
    | with_reducible apply Keeps.devWrite
    | with_reducible refine Keeps.foldl ?_ fun _ _ _ => ?_
    | with_reducible refine Keeps.fst (by with_reducible assumption) ?_
    | with_reducible refine Keeps.snd (by with_reducible assumption) ?_
    | split
    | with_reducible refine Keeps.upd ?_ rfl rfl rfl

theorem Keeps.denseGroup {σ τ : State} (h : Keeps σ τ) (f : Nat) (p : Plan) (u : UStep) (g : Nat) (gs : GroupState) (ops : List UOp) (lr : F32) : Keeps σ (State.denseGroup τ f p u g gs ops lr).2 := by
  unfold State.denseGroup
  try dsimp only
  repeat' first
    | with_reducible assumption
    | with_reducible apply Keeps.cntDie
    | with_reducible apply Keeps.calc
    | with_reducible apply Keeps.writeShard
    | with_reducible refine Keeps.foldl ?_ fun _ _ _ => ?_
    | with_reducible refine Keeps.foldlFst ?_ fun _ _ _ => ?_
    | with_reducible refine Keeps.foldlSnd ?_ fun _ _ _ => ?_
    | with_reducible refine Keeps.fst (by with_reducible assumption) ?_
    | with_reducible refine Keeps.snd (by with_reducible assumption) ?_
    | split
    | with_reducible refine Keeps.upd ?_ rfl rfl rfl

theorem Keeps.passRow {σ τ : State} (h : Keeps σ τ) (f : Nat) (t : Table) (b : OwnerBlock) (r sh i : Nat) (away : Option Stub) : Keeps σ (State.passRow τ f t b r sh i away) := by
  unfold State.passRow
  try dsimp only
  repeat' first
    | with_reducible assumption
    | with_reducible apply Keeps.modFunc
    | with_reducible apply Keeps.cntDie
    | with_reducible apply Keeps.sendOwner
    | split
    | with_reducible refine Keeps.upd ?_ rfl rfl rfl

theorem Keeps.tableGroup {σ τ : State} (h : Keeps σ τ) (f : Nat) (p : Plan) (u : UStep) (g : Nat) (gs : GroupState) (ops : List UOp) (lr : F32) : Keeps σ (State.tableGroup τ f p u g gs ops lr) := by
  unfold State.tableGroup
  try dsimp only
  repeat' first
    | with_reducible assumption
    | with_reducible apply Keeps.modFunc
    | with_reducible apply Keeps.cntDie
    | with_reducible apply Keeps.calc
    | with_reducible apply Keeps.slotWrite
    | with_reducible apply Keeps.slotRead
    | with_reducible apply Keeps.passRow
    | with_reducible refine Keeps.foldl ?_ fun _ _ _ => ?_
    | with_reducible refine Keeps.foldlFst ?_ fun _ _ _ => ?_
    | with_reducible refine Keeps.foldlSnd ?_ fun _ _ _ => ?_
    | with_reducible refine Keeps.fst (by with_reducible assumption) ?_
    | with_reducible refine Keeps.snd (by with_reducible assumption) ?_
    | split
    | with_reducible refine Keeps.upd ?_ rfl rfl rfl

theorem Keeps.updateGroup {σ τ : State} (h : Keeps σ τ) (f slot : Nat) (u : UStep) (frozen : List Nat) (g : Nat) : Keeps σ (State.updateGroup τ f slot u frozen g) := by
  unfold State.updateGroup
  try dsimp only
  repeat' first
    | with_reducible assumption
    | with_reducible apply Keeps.cntDie
    | with_reducible apply Keeps.flagStep
    | with_reducible apply Keeps.calc
    | with_reducible apply Keeps.setPlan
    | with_reducible apply Keeps.denseGroup
    | with_reducible apply Keeps.tableGroup
    | with_reducible refine Keeps.foldl ?_ fun _ _ _ => ?_
    | with_reducible refine Keeps.foldlFst ?_ fun _ _ _ => ?_
    | with_reducible refine Keeps.foldlSnd ?_ fun _ _ _ => ?_
    | with_reducible refine Keeps.fst (by with_reducible assumption) ?_
    | with_reducible refine Keeps.snd (by with_reducible assumption) ?_
    | split
    | with_reducible refine Keeps.upd ?_ rfl rfl rfl

theorem Keeps.runU {σ τ : State} (h : Keeps σ τ) (f : Nat) : Keeps σ (State.runU τ f) := by
  unfold State.runU
  try dsimp only
  repeat' first
    | with_reducible assumption
    | with_reducible apply Keeps.modFunc
    | with_reducible apply Keeps.modStep
    | with_reducible apply Keeps.calc
    | with_reducible apply Keeps.twinCheck
    | with_reducible apply Keeps.setPlan
    | with_reducible apply Keeps.updateGroup
    | with_reducible refine Keeps.foldl ?_ fun _ _ _ => ?_
    | with_reducible refine Keeps.fst (by with_reducible assumption) ?_
    | with_reducible refine Keeps.snd (by with_reducible assumption) ?_
    | split
    | with_reducible refine Keeps.upd ?_ rfl rfl rfl

theorem Keeps.readRemote {σ τ : State} (h : Keeps σ τ) (f : Nat) (rows : List (Table × OwnerBlock × Nat)) : Keeps σ (State.readRemote τ f rows).2 := by
  unfold State.readRemote
  try dsimp only
  repeat' first
    | with_reducible assumption
    | with_reducible apply Keeps.fetchKey
    | with_reducible refine Keeps.foldl ?_ fun _ _ _ => ?_
    | with_reducible refine Keeps.foldlFst ?_ fun _ _ _ => ?_
    | with_reducible refine Keeps.foldlSnd ?_ fun _ _ _ => ?_
    | with_reducible refine Keeps.fst (by with_reducible assumption) ?_
    | with_reducible refine Keeps.snd (by with_reducible assumption) ?_
    | split
    | with_reducible refine Keeps.upd ?_ rfl rfl rfl

theorem Keeps.tryU {σ τ : State} (h : Keeps σ τ) (f : Nat) : Keeps σ (State.tryU τ f) := by
  unfold State.tryU
  try dsimp only
  repeat' first
    | with_reducible assumption
    | with_reducible apply Keeps.modFunc
    | with_reducible apply Keeps.runU
    | with_reducible apply Keeps.readRemote
    | with_reducible refine Keeps.foldl ?_ fun _ _ _ => ?_
    | with_reducible refine Keeps.foldlFst ?_ fun _ _ _ => ?_
    | with_reducible refine Keeps.foldlSnd ?_ fun _ _ _ => ?_
    | with_reducible refine Keeps.fst (by with_reducible assumption) ?_
    | with_reducible refine Keeps.snd (by with_reducible assumption) ?_
    | split
    | with_reducible refine Keeps.upd ?_ rfl rfl rfl

theorem Keeps.beginU {σ τ : State} (h : Keeps σ τ) (f : Nat) : Keeps σ (State.beginU τ f) := by
  unfold State.beginU
  try dsimp only
  repeat' first
    | with_reducible assumption
    | with_reducible apply Keeps.modFunc
    | with_reducible apply Keeps.modStep
    | with_reducible apply Keeps.setPlan
    | with_reducible apply Keeps.tryU
    | with_reducible refine Keeps.fst (by with_reducible assumption) ?_
    | with_reducible refine Keeps.snd (by with_reducible assumption) ?_
    | split
    | with_reducible refine Keeps.upd ?_ rfl rfl rfl

end Sys2Proof.Machine
end

