-- ==== Sys2Proof/Laws/KeepsExecA.lean ====
section
/-!
SUPPORT. The commands of these families answer a next state that keeps what only a module reset or its own command changes.
-/
namespace Sys2Proof.Machine

theorem KeepsD.of_execGkoFlush (f die : Nat) (s : State) : KeepsD s (execGkoFlush f die s) := by
  have h := Keeps.refl s
  unfold execGkoFlush
  try dsimp only
  repeat' first
    | with_reducible refine KeepsD.next ?_
    | with_reducible assumption
    | with_reducible apply Keeps.violOor
    | with_reducible apply Keeps.gkFlush
    | split

theorem KeepsD.of_execGeckoHalve (die : Nat) (s : State) : KeepsD s (execGeckoHalve die s) := by
  have h := Keeps.refl s
  unfold execGeckoHalve
  try dsimp only
  repeat' first
    | with_reducible refine KeepsD.next ?_
    | with_reducible assumption
    | with_reducible apply Keeps.modGecko
    | with_reducible refine Keeps.fst (by with_reducible assumption) ?_
    | with_reducible refine Keeps.snd (by with_reducible assumption) ?_
    | split
    | with_reducible refine Keeps.upd ?_ rfl rfl rfl

theorem KeepsD.of_execRowReply (f : Nat) (m : BellowsMsg) (s : State) : KeepsD s (execRowReply f m s) := by
  have h := Keeps.refl s
  unfold execRowReply
  repeat' first
    | with_reducible refine KeepsD.next ?_
    | with_reducible assumption
    | with_reducible apply Keeps.take
    | with_reducible apply Keeps.reply

theorem KeepsD.of_execPartialReply (f : Nat) (m : BellowsMsg) (s : State) : KeepsD s (execPartialReply f m s) := by
  have h := Keeps.refl s
  unfold execPartialReply
  repeat' first
    | with_reducible refine KeepsD.next ?_
    | with_reducible assumption
    | with_reducible apply Keeps.take
    | with_reducible apply Keeps.reply

theorem KeepsD.of_execGradient (f : Nat) (m : BellowsMsg) (s : State) : KeepsD s (execGradient f m s) := by
  have h := Keeps.refl s
  unfold execGradient
  try dsimp only
  repeat' first
    | with_reducible refine KeepsD.next ?_
    | with_reducible assumption
    | with_reducible apply Keeps.take
    | with_reducible apply Keeps.gradIn
    | with_reducible refine Keeps.upd ?_ rfl rfl rfl

theorem KeepsD.of_execEndMark (f : Nat) (m : BellowsMsg) (s : State) : KeepsD s (execEndMark f m s) := by
  have h := Keeps.refl s
  unfold execEndMark
  try dsimp only
  repeat' first
    | with_reducible refine KeepsD.next ?_
    | with_reducible assumption
    | with_reducible apply Keeps.modFunc
    | with_reducible apply Keeps.take
    | with_reducible apply Keeps.tryCloseAll
    | split
    | with_reducible refine Keeps.upd ?_ rfl rfl rfl

theorem KeepsD.of_execResend (f : Nat) (m : BellowsMsg) (s : State) : KeepsD s (execResend f m s) := by
  have h := Keeps.refl s
  unfold execResend
  try dsimp only
  repeat' first
    | with_reducible refine KeepsD.next ?_
    | with_reducible assumption
    | with_reducible apply Keeps.take
    | with_reducible apply Keeps.sendOwner
    | with_reducible refine Keeps.foldl ?_ fun _ _ _ => ?_
    | with_reducible refine Keeps.foldlFst ?_ fun _ _ _ => ?_
    | with_reducible refine Keeps.foldlSnd ?_ fun _ _ _ => ?_
    | with_reducible refine Keeps.fst (by with_reducible assumption) ?_
    | with_reducible refine Keeps.snd (by with_reducible assumption) ?_
    | split
    | with_reducible refine Keeps.upd ?_ rfl rfl rfl

theorem KeepsD.of_execTblWriteRows (c : Submission) (s : State) : KeepsD s (execTblWriteRows c s) := by
  have h := Keeps.refl s
  unfold execTblWriteRows
  repeat' first
    | with_reducible refine KeepsD.next ?_
    | with_reducible assumption
    | with_reducible refine Keeps.zcp ?_ _ _ _ fun _ _ _ => ?_
    | with_reducible apply Keeps.of_rowsCommand

theorem KeepsD.of_execTblReplaceRows (c : Submission) (s : State) : KeepsD s (execTblReplaceRows c s) := by
  have h := Keeps.refl s
  unfold execTblReplaceRows
  repeat' first
    | with_reducible refine KeepsD.next ?_
    | with_reducible assumption
    | with_reducible refine Keeps.zcp ?_ _ _ _ fun _ _ _ => ?_
    | with_reducible apply Keeps.of_rowsCommand

theorem KeepsD.of_execRoutedRowWrite (f : Nat) (m : RoutedRow) (s : State) : KeepsD s (execRoutedRowWrite f m s) := by
  have h := Keeps.refl s
  unfold execRoutedRowWrite
  try dsimp only
  repeat' first
    | with_reducible refine KeepsD.next ?_
    | with_reducible assumption
    | with_reducible apply Keeps.count
    | with_reducible apply Keeps.cntDie
    | with_reducible apply Keeps.violOor
    | with_reducible apply Keeps.take
    | with_reducible apply Keeps.settleFrom
    | with_reducible apply Keeps.routeRow
    | with_reducible refine Keeps.fst (by with_reducible assumption) ?_
    | with_reducible refine Keeps.snd (by with_reducible assumption) ?_
    | split
    | with_reducible refine Keeps.upd ?_ rfl rfl rfl

theorem KeepsD.of_execMove (f : Nat) (m : TableMsg) (s : State) : KeepsD s (execMove f m s) := by
  have h := Keeps.refl s
  unfold execMove
  try dsimp only
  repeat' first
    | with_reducible refine KeepsD.next ?_
    | with_reducible assumption
    | with_reducible apply Keeps.modFunc
    | with_reducible apply Keeps.take
    | with_reducible apply Keeps.sendOwner
    | with_reducible refine Keeps.fst (by with_reducible assumption) ?_
    | with_reducible refine Keeps.snd (by with_reducible assumption) ?_
    | split
    | with_reducible refine Keeps.upd ?_ rfl rfl rfl

theorem KeepsD.of_execReserve (f : Nat) (m : TableMsg) (s : State) : KeepsD s (execReserve f m s) := by
  have h := Keeps.refl s
  unfold execReserve
  try dsimp only
  repeat' first
    | with_reducible refine KeepsD.next ?_
    | with_reducible assumption
    | with_reducible apply Keeps.modFunc
    | with_reducible apply Keeps.take
    | with_reducible apply Keeps.sendOwner
    | with_reducible refine Keeps.fst (by with_reducible assumption) ?_
    | with_reducible refine Keeps.snd (by with_reducible assumption) ?_
    | split
    | with_reducible refine Keeps.upd ?_ rfl rfl rfl

theorem KeepsD.of_execReserveAck (f : Nat) (m : TableMsg) (s : State) : KeepsD s (execReserveAck f m s) := by
  have h := Keeps.refl s
  unfold execReserveAck
  dsimp only
  repeat' first
    | with_reducible refine KeepsD.next ?_
    | with_reducible assumption
    | (with_reducible refine Keeps.imageWait ?_ (by with_reducible assumption))
    | with_reducible apply Keeps.sendCopy
    | with_reducible apply Keeps.modFunc
    | with_reducible apply Keeps.take
    | split

theorem KeepsD.of_execCopy (f : Nat) (m : TableMsg) (s : State) : KeepsD s (execCopy f m s) := by
  have h := Keeps.refl s
  unfold execCopy
  repeat' first
    | with_reducible refine KeepsD.next ?_
    | with_reducible assumption
    | with_reducible apply Keeps.take
    | with_reducible apply Keeps.storeCopy
    | split

theorem KeepsD.of_execFinalCopy (f : Nat) (m : TableMsg) (s : State) : KeepsD s (execFinalCopy f m s) := by
  have h := Keeps.refl s
  unfold execFinalCopy
  repeat' first
    | with_reducible refine KeepsD.next ?_
    | with_reducible assumption
    | with_reducible apply Keeps.take
    | with_reducible apply Keeps.storeCopy
    | split

theorem KeepsD.of_execMigrationRoundEnd (f table row : Nat) (s : State) : KeepsD s (execMigrationRoundEnd f table row s) := by
  have h := Keeps.refl s
  unfold execMigrationRoundEnd
  dsimp only
  have read : ∀ t b, Keeps s ((s.imageWait f t b row).getD s) := by
    intro t b
    cases e : s.imageWait f t b row with
    | none => exact h
    | some u => exact h.imageWait e
  repeat' first
    | with_reducible refine KeepsD.next ?_
    | with_reducible assumption
    | exact read _ _
    | exact h
    | with_reducible apply Keeps.switchRow
    | with_reducible apply Keeps.sendCopy
    | with_reducible apply Keeps.cntDie
    | with_reducible apply Keeps.modFunc
    | split

theorem KeepsD.of_execFwdWrite (f : Nat) (m : TableMsg) (s : State) : KeepsD s (execFwdWrite f m s) := by
  have h := Keeps.refl s
  unfold execFwdWrite
  try dsimp only
  repeat' first
    | with_reducible refine KeepsD.next ?_
    | with_reducible assumption
    | with_reducible apply Keeps.modFunc
    | with_reducible apply Keeps.take
    | with_reducible apply Keeps.rowPut
    | with_reducible apply Keeps.settleFrom
    | with_reducible apply Keeps.ownerWrite
    | with_reducible refine Keeps.fst (by with_reducible assumption) ?_
    | with_reducible refine Keeps.snd (by with_reducible assumption) ?_
    | split
    | with_reducible refine Keeps.upd ?_ rfl rfl rfl

theorem KeepsD.of_execFwdEnd (f : Nat) (m : TableMsg) (s : State) : KeepsD s (execFwdEnd f m s) := by
  have h := Keeps.refl s
  unfold execFwdEnd
  try dsimp only
  repeat' first
    | with_reducible refine KeepsD.next ?_
    | with_reducible assumption
    | with_reducible apply Keeps.modFunc
    | with_reducible apply Keeps.take
    | with_reducible apply Keeps.tryClose
    | with_reducible refine Keeps.fst (by with_reducible assumption) ?_
    | with_reducible refine Keeps.snd (by with_reducible assumption) ?_
    | split
    | with_reducible refine Keeps.upd ?_ rfl rfl rfl

theorem KeepsD.of_execFwdFetch (f : Nat) (m : TableMsg) (s : State) : KeepsD s (execFwdFetch f m s) := by
  have h := Keeps.refl s
  unfold execFwdFetch
  try dsimp only
  repeat' first
    | with_reducible refine KeepsD.next ?_
    | with_reducible assumption
    | with_reducible apply Keeps.modFunc
    | with_reducible apply Keeps.cntDie
    | with_reducible apply Keeps.take
    | with_reducible apply Keeps.slotRead
    | with_reducible apply Keeps.sendOwner
    | with_reducible apply Keeps.fetchKey
    | with_reducible refine Keeps.fst (by with_reducible assumption) ?_
    | with_reducible refine Keeps.snd (by with_reducible assumption) ?_
    | split
    | with_reducible refine Keeps.upd ?_ rfl rfl rfl

theorem KeepsD.of_execFwdReply (f : Nat) (m : TableMsg) (s : State) : KeepsD s (execFwdReply f m s) := by
  have h := Keeps.refl s
  unfold execFwdReply
  try dsimp only
  repeat' first
    | with_reducible refine KeepsD.next ?_
    | with_reducible assumption
    | with_reducible apply Keeps.modFunc
    | with_reducible apply Keeps.take
    | with_reducible apply Keeps.retryRequests
    | with_reducible refine Keeps.fst (by with_reducible assumption) ?_
    | with_reducible refine Keeps.snd (by with_reducible assumption) ?_
    | split
    | with_reducible refine Keeps.upd ?_ rfl rfl rfl

theorem KeepsD.of_execFwdGrad (f : Nat) (m : TableMsg) (s : State) : KeepsD s (execFwdGrad f m s) := by
  have h := Keeps.refl s
  unfold execFwdGrad
  try dsimp only
  repeat' first
    | with_reducible refine KeepsD.next ?_
    | with_reducible assumption
    | with_reducible apply Keeps.modFunc
    | with_reducible apply Keeps.take
    | with_reducible apply Keeps.gradIn
    | with_reducible refine Keeps.fst (by with_reducible assumption) ?_
    | with_reducible refine Keeps.snd (by with_reducible assumption) ?_
    | split
    | with_reducible refine Keeps.upd ?_ rfl rfl rfl

theorem KeepsD.of_execTblMigrate (c : Submission) (s : State) : KeepsD s (execTblMigrate c s) :=
  KeepsD.next ((Keeps.refl s).zcp _ _ _ fun _ _ h => h.of_tblMigrate' _)

theorem KeepsD.of_execTblMigrateDone (f table : Nat) (s : State) : KeepsD s (execTblMigrateDone f table s) := by
  have h := Keeps.refl s
  unfold execTblMigrateDone
  try dsimp only
  repeat' first
    | with_reducible refine KeepsD.next ?_
    | with_reducible assumption
    | with_reducible apply Keeps.final
    | with_reducible apply Keeps.journalCmd
    | with_reducible apply Keeps.endJob
    | with_reducible refine Keeps.fst (by with_reducible assumption) ?_
    | with_reducible refine Keeps.snd (by with_reducible assumption) ?_
    | split
    | with_reducible refine Keeps.upd ?_ rfl rfl rfl

theorem KeepsD.of_execTblCreate (c : Submission) (s : State) : KeepsD s (execTblCreate c s) :=
  KeepsD.next ((Keeps.refl s).zcp _ _ _ fun _ _ h => h.of_tblCreate' _)

theorem KeepsD.of_execTblCreateDone (f table : Nat) (s : State) : KeepsD s (execTblCreateDone f table s) := by
  have h := Keeps.refl s
  unfold execTblCreateDone
  try dsimp only
  repeat' first
    | with_reducible refine KeepsD.next ?_
    | with_reducible assumption
    | with_reducible apply Keeps.modFunc
    | with_reducible apply Keeps.of_tblCreateFinish
    | with_reducible refine Keeps.fst (by with_reducible assumption) ?_
    | with_reducible refine Keeps.snd (by with_reducible assumption) ?_
    | split
    | with_reducible refine Keeps.upd ?_ rfl rfl rfl

theorem KeepsD.of_execGraphLoad (c : Submission) (s : State) : KeepsD s (execGraphLoad c s) :=
  KeepsD.next ((Keeps.refl s).zcp _ _ _ fun _ _ h => h.of_graphLoad' _)

theorem KeepsD.of_execGraphLoadDone (f slot : Nat) (s : State) : KeepsD s (execGraphLoadDone f slot s) := by
  have h := Keeps.refl s
  unfold execGraphLoadDone
  try dsimp only
  repeat' first
    | with_reducible refine KeepsD.next ?_
    | with_reducible assumption
    | with_reducible apply Keeps.modFunc
    | with_reducible apply Keeps.final
    | with_reducible apply Keeps.journalCmd
    | with_reducible apply Keeps.endJob
    | with_reducible apply Keeps.buildWork
    | with_reducible refine Keeps.fst (by with_reducible assumption) ?_
    | with_reducible refine Keeps.snd (by with_reducible assumption) ?_
    | split
    | with_reducible refine Keeps.upd ?_ rfl rfl rfl

theorem KeepsD.of_execSkkConfig (c : Submission) (s : State) : KeepsD s (execSkkConfig c s) :=
  KeepsD.next ((Keeps.refl s).zcp _ _ _ fun _ _ h => h.of_skkConfig' _)

theorem KeepsD.of_execTileStart (core : Nat) (s : State) : KeepsD s (execTileStart core s) := by
  have h := Keeps.refl s
  unfold execTileStart
  try dsimp only
  repeat' first
    | with_reducible refine KeepsD.next ?_
    | with_reducible assumption
    | with_reducible apply Keeps.cntCore
    | with_reducible apply Keeps.modMxe
    | split
    | with_reducible refine Keeps.upd ?_ rfl rfl rfl

theorem KeepsD.of_execStationaryFillDone (core : Nat) (s : State) : KeepsD s (execStationaryFillDone core s) := by
  have h := Keeps.refl s
  unfold execStationaryFillDone
  try dsimp only
  repeat' first
    | with_reducible refine KeepsD.next ?_
    | with_reducible assumption
    | with_reducible apply Keeps.cntCore
    | with_reducible apply Keeps.modMxe
    | with_reducible apply Keeps.afterTile
    | with_reducible apply Keeps.fillFor
    | with_reducible apply Keeps.holdLoaded
    | with_reducible refine Keeps.fst (by with_reducible assumption) ?_
    | with_reducible refine Keeps.snd (by with_reducible assumption) ?_
    | split
    | with_reducible refine Keeps.upd ?_ rfl rfl rfl

theorem KeepsD.of_execTileCommit (core : Nat) (r : TileReport) (s : State) : KeepsD s (execTileCommit core r s) := by
  have h := Keeps.refl s
  unfold execTileCommit
  try dsimp only
  repeat' first
    | with_reducible refine KeepsD.next ?_
    | with_reducible assumption
    | with_reducible apply Keeps.exercised
    | with_reducible apply Keeps.cntCore
    | with_reducible apply Keeps.sramMet
    | with_reducible apply Keeps.modMxe
    | with_reducible apply Keeps.mxeCommit
    | with_reducible apply Keeps.refillMxe
    | with_reducible apply Keeps.mismatch
    | split
    | with_reducible refine Keeps.upd ?_ rfl rfl rfl

theorem KeepsD.of_execColumnSelftestDone (core : Nat) (failing : List Nat) (s : State) : KeepsD s (execColumnSelftestDone core failing s) := by
  have h := Keeps.refl s
  unfold execColumnSelftestDone
  try dsimp only
  repeat' first
    | with_reducible refine KeepsD.next ?_
    | with_reducible assumption
    | with_reducible apply Keeps.flagStep
    | with_reducible apply Keeps.moveTiles
    | with_reducible apply Keeps.modMxe
    | with_reducible apply Keeps.afterTile
    | with_reducible apply Keeps.rerun
    | with_reducible apply Keeps.testDecisions
    | split
    | with_reducible refine Keeps.upd ?_ rfl rfl rfl

theorem KeepsD.of_execMxeSelftest (core : Nat) (s : State) : KeepsD s (execMxeSelftest core s) := by
  have h := Keeps.refl s
  unfold execMxeSelftest
  try dsimp only
  repeat' first
    | with_reducible refine KeepsD.next ?_
    | with_reducible assumption
    | with_reducible apply Keeps.startSelftest
    | split

theorem KeepsD.of_execOperandStoreFillDone (core : Nat) (s : State) : KeepsD s (execOperandStoreFillDone core s) := by
  have h := Keeps.refl s
  unfold execOperandStoreFillDone
  try dsimp only
  repeat' first
    | with_reducible refine KeepsD.next ?_
    | with_reducible assumption
    | with_reducible apply Keeps.modSpe
    | with_reducible apply Keeps.sparseStart
    | with_reducible apply Keeps.fillFor
    | with_reducible refine Keeps.fst (by with_reducible assumption) ?_
    | with_reducible refine Keeps.snd (by with_reducible assumption) ?_
    | split
    | with_reducible refine Keeps.upd ?_ rfl rfl rfl

theorem KeepsD.of_execSparseTileCommit (core : Nat) (r : SparseReport) (s : State) : KeepsD s (execSparseTileCommit core r s) := by
  have h := Keeps.refl s
  unfold execSparseTileCommit
  try dsimp only
  repeat' first
    | with_reducible refine KeepsD.next ?_
    | with_reducible assumption
    | with_reducible apply Keeps.cntDie
    | with_reducible apply Keeps.note
    | with_reducible apply Keeps.exercised
    | with_reducible apply Keeps.cntCore
    | with_reducible apply Keeps.flagStep
    | with_reducible apply Keeps.moveTiles
    | with_reducible apply Keeps.sramMet
    | with_reducible apply Keeps.modSpe
    | with_reducible apply Keeps.afterTile
    | with_reducible apply Keeps.sparseRun
    | with_reducible apply Keeps.speCommit
    | with_reducible apply Keeps.refillSpe
    | split
    | with_reducible refine Keeps.upd ?_ rfl rfl rfl

theorem KeepsD.of_execAck (f : Nat) (m : ChorusMsg) (s : State) : KeepsD s (execAck f m s) := by
  have h := Keeps.refl s
  unfold execAck
  try dsimp only
  repeat' first
    | with_reducible refine KeepsD.next ?_
    | with_reducible assumption
    | with_reducible apply Keeps.cntMod
    | with_reducible apply Keeps.take
    | with_reducible apply Keeps.modChorus
    | with_reducible apply Keeps.sendRank
    | with_reducible apply Keeps.sendOwn
    | with_reducible apply Keeps.trySent
    | with_reducible apply Keeps.heard
    | with_reducible apply Keeps.handle
    | split
    | with_reducible refine Keeps.upd ?_ rfl rfl rfl

theorem KeepsD.of_execSent (f : Nat) (m : ChorusMsg) (s : State) : KeepsD s (execSent f m s) := by
  have h := Keeps.refl s
  unfold execSent
  try dsimp only
  repeat' first
    | with_reducible refine KeepsD.next ?_
    | with_reducible assumption
    | with_reducible apply Keeps.take
    | with_reducible apply Keeps.modChorus
    | with_reducible apply Keeps.handle
    | with_reducible apply Keeps.tryDecide
    | with_reducible apply Keeps.cfgCheck
    | split
    | with_reducible refine Keeps.upd ?_ rfl rfl rfl

theorem KeepsD.of_execChorusWindowExpire (f : Nat) (s : State) : KeepsD s (execChorusWindowExpire f s) := by
  have h := Keeps.refl s
  unfold execChorusWindowExpire
  try dsimp only
  repeat' first
    | with_reducible refine KeepsD.next ?_
    | with_reducible assumption
    | with_reducible apply Keeps.chorusDecide
    | split
    | with_reducible refine Keeps.upd ?_ rfl rfl rfl

theorem KeepsD.of_execChorusContribution (f : Nat) (m : ChorusMsg) (s : State) : KeepsD s (execChorusContribution f m s) := by
  have h := Keeps.refl s
  unfold execChorusContribution
  try dsimp only
  repeat' first
    | with_reducible refine KeepsD.next ?_
    | with_reducible assumption
    | with_reducible apply Keeps.contribIn
    | with_reducible refine Keeps.upd ?_ rfl rfl rfl

theorem KeepsD.of_execSegmentContribution (f : Nat) (m : ChorusMsg) (s : State) : KeepsD s (execSegmentContribution f m s) := by
  have h := Keeps.refl s
  unfold execSegmentContribution
  try dsimp only
  repeat' first
    | with_reducible refine KeepsD.next ?_
    | with_reducible assumption
    | with_reducible apply Keeps.contribIn
    | with_reducible refine Keeps.upd ?_ rfl rfl rfl

theorem KeepsD.of_execMask (f : Nat) (m : ChorusMsg) (s : State) : KeepsD s (execMask f m s) := by
  have h := Keeps.refl s
  unfold execMask
  try dsimp only
  repeat' first
    | with_reducible refine KeepsD.next ?_
    | with_reducible assumption
    | with_reducible apply Keeps.take
    | with_reducible apply Keeps.sendRank
    | with_reducible apply Keeps.handle
    | with_reducible apply Keeps.adoptMask
    | with_reducible refine Keeps.foldl ?_ fun _ _ _ => ?_
    | split
    | with_reducible refine Keeps.upd ?_ rfl rfl rfl

theorem KeepsD.of_execChorusOwnerAddDone (f shard : Nat) (sumFail again : Bool) (a : OwnerAdd) (s : State) : KeepsD s (execChorusOwnerAddDone f shard sumFail again a s) := by
  have h := Keeps.refl s
  unfold execChorusOwnerAddDone
  try dsimp only
  repeat' first
    | with_reducible refine KeepsD.next ?_
    | with_reducible assumption
    | with_reducible apply Keeps.cntMod
    | with_reducible apply Keeps.note
    | with_reducible apply Keeps.protect
    | with_reducible apply Keeps.retireCore
    | with_reducible apply Keeps.vecFail
    | with_reducible apply Keeps.addShard
    | with_reducible refine Keeps.fst (by with_reducible assumption) ?_
    | with_reducible refine Keeps.snd (by with_reducible assumption) ?_
    | split
    | with_reducible refine Keeps.upd ?_ rfl rfl rfl

theorem KeepsD.of_execChorusResult (f : Nat) (m : ChorusMsg) (s : State) : KeepsD s (execChorusResult f m s) := by
  have h := Keeps.refl s
  unfold execChorusResult
  try dsimp only
  repeat' first
    | with_reducible refine KeepsD.next ?_
    | with_reducible assumption
    | with_reducible apply Keeps.put
    | with_reducible apply Keeps.cntMod
    | with_reducible apply Keeps.note
    | with_reducible apply Keeps.take
    | with_reducible apply Keeps.modChorus
    | with_reducible apply Keeps.sendRank
    | with_reducible apply Keeps.heard
    | split
    | with_reducible refine Keeps.upd ?_ rfl rfl rfl

theorem KeepsD.of_execRereq (f : Nat) (m : ChorusMsg) (s : State) : KeepsD s (execRereq f m s) := by
  have h := Keeps.refl s
  unfold execRereq
  try dsimp only
  repeat' first
    | with_reducible refine KeepsD.next ?_
    | with_reducible assumption
    | with_reducible apply Keeps.cntMod
    | with_reducible apply Keeps.take
    | with_reducible apply Keeps.sendRank
    | with_reducible refine Keeps.fst (by with_reducible assumption) ?_
    | with_reducible refine Keeps.snd (by with_reducible assumption) ?_
    | split
    | with_reducible refine Keeps.upd ?_ rfl rfl rfl

theorem KeepsD.of_execEvict (f : Nat) (m : ChorusMsg) (s : State) : KeepsD s (execEvict f m s) := by
  have h := Keeps.refl s
  unfold execEvict
  try dsimp only
  repeat' first
    | with_reducible refine KeepsD.next ?_
    | with_reducible assumption
    | with_reducible apply Keeps.take
    | with_reducible apply Keeps.applyEvict
    | with_reducible refine Keeps.fst (by with_reducible assumption) ?_
    | with_reducible refine Keeps.snd (by with_reducible assumption) ?_
    | split
    | with_reducible refine Keeps.upd ?_ rfl rfl rfl

theorem KeepsD.of_execCollEvict (c : Submission) (s : State) : KeepsD s (execCollEvict c s) :=
  KeepsD.next ((Keeps.refl s).zcp _ _ _ fun _ _ h => h.of_collEvict' _)

theorem KeepsD.of_execChorusOrphanTimeout (f rank : Nat) (s : State) : KeepsD s (execChorusOrphanTimeout f rank s) := by
  have h := Keeps.refl s
  unfold execChorusOrphanTimeout
  try dsimp only
  repeat' first
    | with_reducible refine KeepsD.next ?_
    | with_reducible assumption
    | with_reducible apply Keeps.modFunc
    | with_reducible apply Keeps.emitTo
    | with_reducible apply Keeps.cntMod
    | split
    | with_reducible refine Keeps.upd ?_ rfl rfl rfl

theorem KeepsD.of_execCollGroup (c : Submission) (s : State) : KeepsD s (execCollGroup c s) :=
  KeepsD.next ((Keeps.refl s).zcp _ _ _ fun _ _ h => h.of_collGroup' _)

theorem KeepsD.of_execUpdProgram (c : Submission) (s : State) : KeepsD s (execUpdProgram c s) :=
  KeepsD.next ((Keeps.refl s).zcp _ _ _ fun _ _ h => h.of_updProgram' _)

theorem KeepsD.of_execUpdStepSize (c : Submission) (s : State) : KeepsD s (execUpdStepSize c s) :=
  KeepsD.next ((Keeps.refl s).zcp _ _ _ fun _ _ h => h.of_updStepSize' _)

theorem KeepsD.of_execUpdFreeze (c : Submission) (s : State) : KeepsD s (execUpdFreeze c s) :=
  KeepsD.next ((Keeps.refl s).zcp _ _ _ fun _ _ h => h.of_updFreeze' _)

theorem KeepsD.of_execChnPrepass (f : Nat) (s : State) : KeepsD s (execChnPrepass f s) := by
  have h := Keeps.refl s
  unfold execChnPrepass
  repeat' first
    | with_reducible refine KeepsD.next ?_
    | with_reducible assumption
    | with_reducible apply Keeps.dropNormsOf

theorem KeepsD.of_execStepSizeWaitExpire (f : Nat) (s : State) : KeepsD s (execStepSizeWaitExpire f s) := by
  have h := Keeps.refl s
  unfold execStepSizeWaitExpire
  try dsimp only
  repeat' first
    | with_reducible refine KeepsD.next ?_
    | with_reducible assumption
    | with_reducible apply Keeps.modStep
    | with_reducible apply Keeps.tryU
    | split
    | with_reducible refine Keeps.upd ?_ rfl rfl rfl

theorem KeepsD.of_execCommandFetch (f q : Nat) (slot : List Byte) (s : State) : KeepsD s (execCommandFetch f q slot s) := by
  have h := Keeps.refl s
  unfold execCommandFetch
  try dsimp only
  repeat' first
    | with_reducible refine KeepsD.next ?_
    | with_reducible assumption
    | with_reducible apply Keeps.modFunc
    | with_reducible apply Keeps.violOor
    | with_reducible apply Keeps.takeUp
    | with_reducible apply Keeps.modQueue
    | with_reducible apply Keeps.settleQueue
    | split
    | with_reducible refine Keeps.upd ?_ rfl rfl rfl

theorem KeepsD.of_execCompletionWrite (f q : Nat) (s : State) : KeepsD s (execCompletionWrite f q s) := by
  have h := Keeps.refl s
  unfold execCompletionWrite
  try dsimp only
  repeat' first
    | with_reducible refine KeepsD.next ?_
    | with_reducible assumption
    | with_reducible apply Keeps.modFunc
    | with_reducible apply Keeps.put
    | with_reducible apply Keeps.interrupt
    | with_reducible apply Keeps.stamp
    | with_reducible apply Keeps.modQueue
    | with_reducible apply Keeps.settleQueue
    | with_reducible apply Keeps.devPut
    | split
    | with_reducible refine Keeps.upd ?_ rfl rfl rfl

theorem KeepsD.of_execZcpSqtail (f q : Nat) (value : Word) (s : State) : KeepsD s (execZcpSqtail f q value s) := by
  have h := Keeps.refl s
  unfold execZcpSqtail
  repeat' first
    | with_reducible refine KeepsD.next ?_
    | with_reducible assumption
    | with_reducible apply Keeps.sqDoorbell

theorem KeepsD.of_execZcpCqhead (f q : Nat) (value : Word) (s : State) : KeepsD s (execZcpCqhead f q value s) := by
  have h := Keeps.refl s
  unfold execZcpCqhead
  repeat' first
    | with_reducible refine KeepsD.next ?_
    | with_reducible assumption
    | with_reducible apply Keeps.cqDoorbell

theorem KeepsD.of_execReedwayZcpCommand (f endpoint port : Nat) (slot : List Byte) (s : State) : KeepsD s (execReedwayZcpCommand f endpoint port slot s) := by
  have h := Keeps.refl s
  unfold execReedwayZcpCommand
  try dsimp only
  repeat' first
    | with_reducible refine KeepsD.next ?_
    | with_reducible assumption
    | with_reducible apply Keeps.modFunc
    | with_reducible apply Keeps.takeUp
    | split
    | with_reducible refine Keeps.upd ?_ rfl rfl rfl

theorem KeepsD.of_execZcpHello (c : Submission) (s : State) : KeepsD s (execZcpHello c s) :=
  KeepsD.next ((Keeps.refl s).zcp _ _ _ fun _ _ h => h.of_hello _)

theorem KeepsD.of_execTimeProbe (c : Submission) (s : State) : KeepsD s (execTimeProbe c s) :=
  KeepsD.next ((Keeps.refl s).zcp _ _ _ fun _ _ h => h.of_timeProbe' _)

theorem KeepsD.of_execCntRead (c : Submission) (s : State) : KeepsD s (execCntRead c s) :=
  KeepsD.next ((Keeps.refl s).zcp _ _ _ fun _ _ h => h.of_cntRead' _)

theorem KeepsD.of_execCntClear (c : Submission) (s : State) : KeepsD s (execCntClear c s) :=
  KeepsD.next ((Keeps.refl s).zcp _ _ _ fun _ _ h => h.of_cntClear' _)

theorem KeepsD.of_execFltQuery (c : Submission) (s : State) : KeepsD s (execFltQuery c s) :=
  KeepsD.next ((Keeps.refl s).zcp _ _ _ fun _ _ h => h.of_fltQuery' _)

end Sys2Proof.Machine
end

