-- ==== Sys2Proof/Laws/KeepsPlan.lean ====
section
/-!
SUPPORT. The operations of Phases, Steps, PlanLoad, Stops, Fabric keep what only a module reset or its own command changes (Sys2Proof/Laws/Keeps.lean).
-/
namespace Sys2Proof.Machine

theorem Keeps.dealSlices {σ τ : State} (h : Keeps σ τ) (f : Nat) (ahead : Bool) (i : Nat) (D : Desc) : Keeps σ (State.dealSlices τ f ahead i D) := by
  unfold State.dealSlices
  try dsimp only
  repeat' first
    | with_reducible assumption
    | with_reducible apply Keeps.modSkink
    | with_reducible refine Keeps.foldl ?_ fun _ _ _ => ?_
    | with_reducible refine Keeps.fst (by with_reducible assumption) ?_
    | with_reducible refine Keeps.snd (by with_reducible assumption) ?_
    | split
    | with_reducible refine Keeps.upd ?_ rfl rfl rfl

theorem Keeps.clearBuffers {σ τ : State} (h : Keeps σ τ) (f par : Nat) : Keeps σ (State.clearBuffers τ f par) := by
  unfold State.clearBuffers
  try dsimp only
  repeat' first
    | with_reducible assumption
    | with_reducible apply Keeps.modFunc
    | with_reducible apply Keeps.freeOwner
    | with_reducible apply Keeps.modSkink
    | with_reducible refine Keeps.foldl ?_ fun _ _ _ => ?_
    | split
    | with_reducible refine Keeps.upd ?_ rfl rfl rfl

theorem Keeps.writeDirectory {σ τ : State} (h : Keeps σ τ) (f : Nat) (D : Desc) (i n : Nat) : Keeps σ (State.writeDirectory τ f D i n) := by
  unfold State.writeDirectory
  try dsimp only
  repeat' first
    | with_reducible assumption
    | with_reducible apply Keeps.devWrite

theorem Keeps.vecMark {σ τ : State} (h : Keeps σ τ) (x : Ctx) (ph : Phase) (cs : List Nat) (state : Nat) : Keeps σ (State.vecMark τ x ph cs state) := by
  unfold State.vecMark
  try dsimp only
  repeat' first
    | with_reducible assumption
    | with_reducible apply Keeps.modVec
    | with_reducible refine Keeps.foldl ?_ fun _ _ _ => ?_
    | split
    | with_reducible refine Keeps.upd ?_ rfl rfl rfl

theorem Keeps.startJob {σ τ : State} (h : Keeps σ τ) (f : Nat) (p : Plan) (ahead : Bool) (st : Step) (j : Job) (cs : List Nat) : Keeps σ (State.startJob τ f p ahead st j cs) := by
  unfold State.startJob
  try dsimp only
  repeat' first
    | with_reducible assumption
    | with_reducible apply Keeps.issue
    | with_reducible apply Keeps.saveInput
    | with_reducible apply Keeps.startGather
    | with_reducible apply Keeps.dealSlices
    | with_reducible apply Keeps.vecMark
    | split
    | with_reducible refine Keeps.upd ?_ rfl rfl rfl

theorem Keeps.endWaitAt {σ τ : State} (h : Keeps σ τ) (f i d : Nat) : Keeps σ (State.endWaitAt τ f i d) := by
  unfold State.endWaitAt
  try dsimp only
  repeat' first
    | with_reducible assumption
    | with_reducible apply Keeps.modFunc
    | with_reducible apply Keeps.cntDie
    | with_reducible refine Keeps.fst (by with_reducible assumption) ?_
    | with_reducible refine Keeps.snd (by with_reducible assumption) ?_
    | split
    | with_reducible refine Keeps.upd ?_ rfl rfl rfl

theorem Keeps.waitGather {σ τ : State} (h : Keeps σ τ) (f i table n : Nat) : Keeps σ (State.waitGather τ f i table n) := by
  unfold State.waitGather
  try dsimp only
  repeat' first
    | with_reducible assumption
    | with_reducible apply Keeps.modFunc
    | with_reducible apply Keeps.endWaitAt
    | with_reducible refine Keeps.foldl ?_ fun _ _ _ => ?_
    | split
    | with_reducible refine Keeps.upd ?_ rfl rfl rfl

theorem Keeps.endWait {σ τ : State} (h : Keeps σ τ) (f i : Nat) : Keeps σ (State.endWait τ f i) := by
  unfold State.endWait
  repeat' first
    | with_reducible assumption
    | with_reducible apply Keeps.endWaitAt
    | with_reducible refine Keeps.foldl ?_ fun _ _ _ => ?_
    | split

theorem Keeps.startReady {σ τ : State} (h : Keeps σ τ) (f : Nat) (ahead : Bool) (n : Nat) : Keeps σ (State.startReady τ f ahead n) := by
  induction n generalizing τ with
  | zero => exact h
  | succ n ih =>
    unfold State.startReady
    dsimp only
    repeat' first
      | with_reducible assumption
      | with_reducible apply ih
      | with_reducible apply Keeps.startJob
      | with_reducible apply Keeps.waitGather
      | with_reducible apply Keeps.endWait
      | with_reducible apply Keeps.modStep
      | split

theorem Keeps.startJobs {σ τ : State} (h : Keeps σ τ) (f : Nat) (ahead : Bool) : Keeps σ (State.startJobs τ f ahead) := by
  unfold State.startJobs
  try dsimp only
  repeat' first
    | with_reducible assumption
    | with_reducible apply Keeps.startReady
    | split
    | with_reducible refine Keeps.upd ?_ rfl rfl rfl

theorem Keeps.release {σ τ : State} (h : Keeps σ τ) (f : Nat) : Keeps σ (State.release τ f) := by
  unfold State.release
  try dsimp only
  repeat' first
    | with_reducible assumption
    | with_reducible apply Keeps.modDie
    | with_reducible apply Keeps.cntDie
    | with_reducible refine Keeps.foldl ?_ fun _ _ _ => ?_
    | exact fun _ h => h
    | exact fun _ _ => rfl
    | (refine fun _ h => ?_; split <;> exact h)
    | split
    | with_reducible refine Keeps.upd ?_ rfl rfl rfl

theorem Keeps.idleRamp {σ τ : State} (h : Keeps σ τ) (f : Nat) : Keeps σ (State.idleRamp τ f) := by
  unfold State.idleRamp
  try dsimp only
  repeat' first
    | with_reducible assumption
    | with_reducible apply Keeps.modDie
    | with_reducible apply Keeps.decide
    | with_reducible refine Keeps.foldl ?_ fun _ _ _ => ?_
    | exact fun _ h => h
    | exact fun _ _ => rfl
    | (refine fun _ h => ?_; split <;> exact h)
    | split
    | with_reducible refine Keeps.upd ?_ rfl rfl rfl

theorem Keeps.onEnter {σ τ : State} (h : Keeps σ τ) (f : Nat) (slot : Nat) (p : Plan) (st : Step) : Keeps σ (State.onEnter τ f slot p st) := by
  unfold State.onEnter
  try dsimp only
  repeat' first
    | with_reducible assumption
    | with_reducible apply Keeps.modStep
    | with_reducible apply Keeps.startReduce
    | with_reducible apply Keeps.twinCheck
    | with_reducible apply Keeps.setPlan
    | with_reducible apply Keeps.beginU
    | with_reducible apply Keeps.clearBuffers
    | with_reducible refine Keeps.fst (by with_reducible assumption) ?_
    | with_reducible refine Keeps.snd (by with_reducible assumption) ?_
    | split
    | with_reducible refine Keeps.upd ?_ rfl rfl rfl

theorem Keeps.fetchWork {σ τ : State} (h : Keeps σ τ) (f slot : Nat) (p : Plan) (st : Step) : Keeps σ (State.fetchWork τ f slot p st) := by
  unfold State.fetchWork
  try dsimp only
  repeat' first
    | with_reducible assumption
    | with_reducible apply Keeps.peerAccess
    | with_reducible refine Keeps.foldl ?_ fun _ _ _ => ?_
    | split

theorem Keeps.begin {σ τ : State} (h : Keeps σ τ) (f : Nat) (ahead : Bool) : Keeps σ (State.begin τ f ahead) := by
  unfold State.begin
  try dsimp only
  repeat' first
    | with_reducible assumption
    | with_reducible apply Keeps.startJobs
    | with_reducible apply Keeps.onEnter
    | with_reducible refine Keeps.fst (by with_reducible assumption) ?_
    | with_reducible refine Keeps.snd (by with_reducible assumption) ?_
    | split
    | with_reducible refine Keeps.upd ?_ rfl rfl rfl

theorem Keeps.enter {σ τ : State} (h : Keeps σ τ) (f : Nat) (ahead : Bool) (ph : Phase) : Keeps σ (State.enter τ f ahead ph) := by
  unfold State.enter
  try dsimp only
  repeat' first
    | with_reducible assumption
    | with_reducible apply Keeps.modStep
    | with_reducible apply Keeps.fetchWork
    | with_reducible apply Keeps.begin
    | with_reducible refine Keeps.fst (by with_reducible assumption) ?_
    | with_reducible refine Keeps.snd (by with_reducible assumption) ?_
    | split
    | with_reducible refine Keeps.upd ?_ rfl rfl rfl

theorem Keeps.workBack {σ τ : State} (h : Keeps σ τ) (f : Nat) (ahead : Bool) : Keeps σ (State.workBack τ f ahead) := by
  unfold State.workBack
  try dsimp only
  repeat' first
    | with_reducible assumption
    | with_reducible apply Keeps.modStep
    | with_reducible apply Keeps.begin
    | split
    | with_reducible refine Keeps.upd ?_ rfl rfl rfl

theorem Keeps.enterAhead {σ τ : State} (h : Keeps σ τ) (f : Nat) : Keeps σ (State.enterAhead τ f) := by
  unfold State.enterAhead
  try dsimp only
  repeat' first
    | with_reducible assumption
    | with_reducible apply Keeps.modStep
    | with_reducible apply Keeps.clearBuffers
    | with_reducible apply Keeps.startJobs
    | with_reducible refine Keeps.fst (by with_reducible assumption) ?_
    | with_reducible refine Keeps.snd (by with_reducible assumption) ?_
    | split
    | with_reducible refine Keeps.upd ?_ rfl rfl rfl

theorem Keeps.chooseEngines {σ τ : State} (h : Keeps σ τ) (f slot : Nat) : Keeps σ (State.chooseEngines τ f slot) := by
  unfold State.chooseEngines
  try dsimp only
  repeat' first
    | with_reducible assumption
    | with_reducible apply Keeps.setPlan
    | split
    | with_reducible refine Keeps.upd ?_ rfl rfl rfl

theorem Keeps.startSteps {σ τ : State} (h : Keeps σ τ) (f : Nat) : Keeps σ (State.startSteps τ f) := by
  unfold State.startSteps
  try dsimp only
  repeat' first
    | with_reducible assumption
    | with_reducible apply Keeps.modFunc
    | with_reducible apply Keeps.modSkink
    | with_reducible apply Keeps.openChorus
    | with_reducible apply Keeps.startJobs
    | with_reducible apply Keeps.release
    | with_reducible apply Keeps.enter
    | with_reducible apply Keeps.enterAhead
    | with_reducible apply Keeps.chooseEngines
    | with_reducible refine Keeps.foldl ?_ fun _ _ _ => ?_
    | with_reducible refine Keeps.fst (by with_reducible assumption) ?_
    | with_reducible refine Keeps.snd (by with_reducible assumption) ?_
    | split
    | with_reducible refine Keeps.upd ?_ rfl rfl rfl

theorem Keeps.skinkFull {σ τ : State} (h : Keeps σ τ) (f d c : Nat) (ahead : Bool) : Keeps σ (State.skinkFull τ f d c ahead) := by
  unfold State.skinkFull
  try dsimp only
  repeat' first
    | with_reducible assumption
    | with_reducible apply Keeps.emit
    | with_reducible apply Keeps.cntDie
    | with_reducible apply Keeps.modStep
    | with_reducible apply Keeps.modSkink
    | split
    | with_reducible refine Keeps.upd ?_ rfl rfl rfl

theorem Keeps.spillShort {σ τ : State} (h : Keeps σ τ) (f d c : Nat) (p : Plan) (n : Nat) (ahead : Bool) (bytes : Nat) : Keeps σ (State.spillShort τ f d c p n ahead bytes) := by
  unfold State.spillShort
  try dsimp only
  repeat' first
    | with_reducible assumption
    | with_reducible apply Keeps.askPeers
    | with_reducible apply Keeps.skinkFull
    | split
    | with_reducible refine Keeps.upd ?_ rfl rfl rfl

theorem Keeps.sliceBuilt {σ τ : State} (h : Keeps σ τ) (f d c slot : Nat) (p : Plan) (st : Step) (ahead : Bool) (i q : Nat) : Keeps σ (State.sliceBuilt τ f d c slot p st ahead i q) := by
  unfold State.sliceBuilt
  try dsimp only
  repeat' first
    | with_reducible assumption
    | with_reducible apply Keeps.modFunc
    | with_reducible apply Keeps.cntClu
    | with_reducible apply Keeps.violOor
    | with_reducible apply Keeps.writeBlocks
    | with_reducible apply Keeps.modSkink
    | with_reducible refine Keeps.ofSome (by with_reducible assumption) (KeepsO.placeSlice ?_ _ _ _ _ _)
    | with_reducible apply Keeps.spillShort
    | with_reducible refine Keeps.fst (by with_reducible assumption) ?_
    | with_reducible refine Keeps.snd (by with_reducible assumption) ?_
    | split
    | with_reducible refine Keeps.upd ?_ rfl rfl rfl

theorem Keeps.dropLeaves {σ τ : State} (h : Keeps σ τ) (f i pass : Nat) : Keeps σ (State.dropLeaves τ f i pass) := by
  unfold State.dropLeaves
  try dsimp only
  repeat' first
    | with_reducible assumption
    | with_reducible apply Keeps.modStep
    | with_reducible refine Keeps.upd ?_ rfl rfl rfl

theorem Keeps.finishJob {σ τ υ : State} (h : Keeps σ τ) (f : Nat) (p : Plan) (ahead : Bool) (st : Step) (j : Job) (r : VecReport)
    (e : State.finishJob τ f p ahead st j r = some υ) : Keeps σ υ := by
  unfold State.finishJob at e
  dsimp only at e
  repeat' first
    | (cases e; done)
    | split at e
  all_goals
    cases e
    repeat' first
      | with_reducible assumption
      | with_reducible apply Keeps.writeDirectory
      | with_reducible apply Keeps.endGather
      | with_reducible apply Keeps.dropLeaves
      | with_reducible apply Keeps.closeLinear
      | with_reducible apply Keeps.vecMark
      | with_reducible apply Keeps.vecFail
      | with_reducible apply Keeps.runVectors
      | with_reducible apply Keeps.runLoss
      | with_reducible apply Keeps.b1Finish
      | with_reducible apply Keeps.b2First
      | with_reducible apply Keeps.b2Second
      | with_reducible apply Keeps.cntCore
      | split

theorem Keeps.fallIdle {σ τ : State} (h : Keeps σ τ) (f : Nat) (ahead : Bool) : Keeps σ (State.fallIdle τ f ahead) := by
  unfold State.fallIdle
  try dsimp only
  repeat' first
    | with_reducible assumption
    | with_reducible apply Keeps.idleRamp
    | split
    | with_reducible refine Keeps.upd ?_ rfl rfl rfl

theorem Keeps.descriptorComplete {σ τ : State} (h : Keeps σ τ) (f : Nat) (ahead : Bool) (index : Nat) (r : VecReport) :
    Keeps σ (State.descriptorComplete τ f ahead index r) := by
  unfold State.descriptorComplete
  dsimp only
  repeat' first
    | with_reducible assumption
    | with_reducible apply Keeps.fallIdle
    | with_reducible apply Keeps.startJobs
    | with_reducible apply Keeps.modStep
    | with_reducible apply Keeps.exercised
    | with_reducible refine Keeps.foldl ?_ fun _ _ _ => ?_
    | (with_reducible refine Keeps.finishJob ?_ _ _ _ _ _ _ (by with_reducible assumption))
    | split

theorem Keeps.freeRun {σ τ : State} (h : Keeps σ τ) (f a n : Nat) : Keeps σ (State.freeRun τ f a n) := by
  unfold State.freeRun
  try dsimp only
  repeat' first
    | with_reducible assumption
    | with_reducible apply Keeps.takeFresh
    | with_reducible apply Keeps.put'
    | with_reducible apply Keeps.store
    | split
    | with_reducible refine Keeps.upd ?_ rfl rfl rfl

theorem Keeps.freeKey {σ τ : State} (h : Keeps σ τ) (k n : Nat) : Keeps σ (State.freeKey τ k n) := by
  unfold State.freeKey
  repeat' first
    | with_reducible assumption
    | with_reducible apply Keeps.takeFresh
    | with_reducible apply Keeps.put'

theorem Keeps.undefineDesc {σ τ : State} (h : Keeps σ τ) (f : Nat) (p : Plan) (n i : Nat) : Keeps σ (State.undefineDesc τ f p n i) := by
  unfold State.undefineDesc
  try dsimp only
  repeat' first
    | with_reducible assumption
    | with_reducible apply Keeps.freeRun
    | with_reducible refine Keeps.foldl ?_ fun _ _ _ => ?_
    | split
    | with_reducible refine Keeps.upd ?_ rfl rfl rfl

theorem Keeps.undefineLists {σ τ : State} (h : Keeps σ τ) (f : Nat) : Keeps σ (State.undefineLists τ f) := by
  unfold State.undefineLists
  repeat' first
    | with_reducible assumption
    | with_reducible apply Keeps.freeKey
    | with_reducible refine Keeps.foldl ?_ fun _ _ _ => ?_
    | split

theorem Keeps.undefine {σ τ : State} (h : Keeps σ τ) (f slot : Nat) (p : Plan) (st : Step) (ahead training : Bool) : Keeps σ (State.undefine τ f slot p st ahead training) := by
  unfold State.undefine
  try dsimp only
  repeat' first
    | with_reducible assumption
    | with_reducible apply Keeps.freeRun
    | with_reducible apply Keeps.freeKey
    | with_reducible apply Keeps.undefineDesc
    | with_reducible apply Keeps.undefineLists
    | with_reducible refine Keeps.foldl ?_ fun _ _ _ => ?_
    | with_reducible refine Keeps.fst (by with_reducible assumption) ?_
    | with_reducible refine Keeps.snd (by with_reducible assumption) ?_
    | split
    | with_reducible refine Keeps.upd ?_ rfl rfl rfl

theorem Keeps.emptyEngines {σ τ : State} (h : Keeps σ τ) (f : Nat) : Keeps σ (State.emptyEngines τ f) := by
  unfold State.emptyEngines
  try dsimp only
  repeat' first
    | with_reducible assumption
    | with_reducible apply Keeps.modCore
    | with_reducible refine Keeps.foldl ?_ fun _ _ _ => ?_
    | exact fun _ _ => rfl
    | split
    | with_reducible refine Keeps.upd ?_ rfl rfl rfl

theorem Keeps.settleAll {σ τ : State} (h : Keeps σ τ) (f : Nat) : Keeps σ (State.settleAll τ f) := by
  unfold State.settleAll
  repeat' first
    | with_reducible assumption
    | with_reducible apply Keeps.settleBellows
    | with_reducible refine Keeps.foldl ?_ fun _ _ _ => ?_
    | split

theorem Keeps.dropWork {σ τ : State} (h : Keeps σ τ) (f n : Nat) (ahead : Bool) : Keeps σ (State.dropWork τ f n ahead) := by
  unfold State.dropWork
  try dsimp only
  repeat' first
    | with_reducible assumption
    | with_reducible apply Keeps.modFunc
    | with_reducible apply Keeps.modClu
    | with_reducible apply Keeps.settleAll
    | with_reducible refine Keeps.foldl ?_ fun _ _ _ => ?_
    | with_reducible refine Keeps.fst (by with_reducible assumption) ?_
    | with_reducible refine Keeps.snd (by with_reducible assumption) ?_
    | split
    | with_reducible refine Keeps.upd ?_ rfl rfl rfl

theorem Keeps.dropStep {σ τ : State} (h : Keeps σ τ) (f n : Nat) (ahead : Bool) : Keeps σ (State.dropStep τ f n ahead) := by
  unfold State.dropStep
  try dsimp only
  repeat' first
    | with_reducible assumption
    | with_reducible apply Keeps.modFunc
    | with_reducible apply Keeps.dropWork
    | with_reducible refine Keeps.upd ?_ rfl rfl rfl

theorem Keeps.dropCombining {σ τ : State} (h : Keeps σ τ) (f n : Nat) : Keeps σ (State.dropCombining τ f n) := by
  unfold State.dropCombining
  try dsimp only
  repeat' first
    | with_reducible assumption
    | with_reducible apply Keeps.modFunc
    | with_reducible apply Keeps.modGecko
    | with_reducible refine Keeps.foldl ?_ fun _ _ _ => ?_
    | with_reducible refine Keeps.fst (by with_reducible assumption) ?_
    | with_reducible refine Keeps.snd (by with_reducible assumption) ?_
    | split
    | with_reducible refine Keeps.upd ?_ rfl rfl rfl

theorem Keeps.restartStep {σ τ : State} (h : Keeps σ τ) (f flag : Nat) (reexec : Bool) : Keeps σ (State.restartStep τ f flag reexec) := by
  unfold State.restartStep
  try dsimp only
  repeat' first
    | with_reducible assumption
    | with_reducible apply Keeps.modFunc
    | with_reducible apply Keeps.restartCombine
    | with_reducible apply Keeps.enter
    | with_reducible apply Keeps.chooseEngines
    | with_reducible apply Keeps.emptyEngines
    | with_reducible apply Keeps.dropStep
    | with_reducible refine Keeps.foldl ?_ fun _ _ _ => ?_
    | split
    | with_reducible refine Keeps.upd ?_ rfl rfl rfl

theorem Keeps.endStep {σ τ : State} (h : Keeps σ τ) (f : Nat) (slot : Nat) (p : Plan) (st : Step) (status : Nat) (mask : Option ChorusMsg) (begun : Bool) : Keeps σ (State.endStep τ f slot p st status mask begun) := by
  unfold State.endStep
  try dsimp only
  repeat' first
    | with_reducible assumption
    | with_reducible apply Keeps.modFunc
    | with_reducible apply Keeps.takeFresh
    | with_reducible apply Keeps.devWrite
    | with_reducible apply Keeps.final
    | with_reducible apply Keeps.setPlan
    | with_reducible refine Keeps.fst (by with_reducible assumption) ?_
    | with_reducible refine Keeps.snd (by with_reducible assumption) ?_
    | split
    | with_reducible refine Keeps.upd ?_ rfl rfl rfl

theorem Keeps.admitUnits {σ τ : State} (h : Keeps σ τ) (f : Nat) : Keeps σ (State.admitUnits τ f) := by
  unfold State.admitUnits
  try dsimp only
  repeat' first
    | with_reducible assumption
    | with_reducible apply Keeps.modClu
    | with_reducible apply Keeps.modCore
    | with_reducible refine Keeps.foldl ?_ fun _ _ _ => ?_
    | exact fun _ _ => rfl
    | split
    | with_reducible refine Keeps.upd ?_ rfl rfl rfl

theorem Keeps.boundary {σ τ : State} (h : Keeps σ τ) (f n : Nat) : Keeps σ (State.boundary τ f n) := by
  unfold State.boundary
  try dsimp only
  repeat' first
    | with_reducible assumption
    | with_reducible apply Keeps.modFunc
    | with_reducible apply Keeps.releaseWrites
    | with_reducible apply Keeps.migrateBoundary
    | with_reducible apply Keeps.dropWork
    | with_reducible apply Keeps.admitUnits
    | with_reducible refine Keeps.upd ?_ rfl rfl rfl

theorem Keeps.quenchBoundary {σ τ : State} (h : Keeps σ τ) (f n : Nat) : Keeps σ (State.quenchBoundary τ f n) := by
  unfold State.quenchBoundary
  repeat' first
    | with_reducible assumption
    | with_reducible apply Keeps.modFunc
    | with_reducible apply Keeps.releaseWrites
    | with_reducible apply Keeps.startMigrates
    | with_reducible apply Keeps.admitUnits

theorem Keeps.quenchAll {σ τ : State} (h : Keeps σ τ) (f : Nat) (training : Bool) : Keeps σ (State.quenchAll τ f training) := by
  unfold State.quenchAll
  try dsimp only
  repeat' first
    | with_reducible assumption
    | with_reducible apply Keeps.modFunc
    | with_reducible apply Keeps.setPlan
    | with_reducible apply Keeps.idleRamp
    | with_reducible apply Keeps.undefine
    | with_reducible apply Keeps.dropStep
    | with_reducible apply Keeps.dropCombining
    | with_reducible apply Keeps.endStep
    | with_reducible apply Keeps.quenchBoundary
    | with_reducible refine Keeps.foldl ?_ fun _ _ _ => ?_
    | with_reducible refine Keeps.fst (by with_reducible assumption) ?_
    | with_reducible refine Keeps.snd (by with_reducible assumption) ?_
    | split
    | with_reducible refine Keeps.upd ?_ rfl rfl rfl

theorem Keeps.hostLine {σ τ : State} (h : Keeps σ τ) (f l : Nat) : Keeps σ (State.hostLine τ f l) := by
  unfold State.hostLine
  try dsimp only
  repeat' first
    | with_reducible assumption
    | with_reducible apply Keeps.poke
    | with_reducible apply Keeps.emit
    | with_reducible apply Keeps.cntDie

theorem Keeps.checkWork {σ τ : State} (h : Keeps σ τ) (f slot : Nat) (p : Plan) (st : Step) : Keeps σ (State.checkWork τ f slot p st).1 := by
  unfold State.checkWork
  try dsimp only
  repeat' first
    | with_reducible assumption
    | with_reducible apply Keeps.poke
    | with_reducible apply Keeps.cntDie
    | with_reducible apply Keeps.restartStep
    | with_reducible apply Keeps.hostLine
    | with_reducible refine Keeps.foldl ?_ fun _ _ _ => ?_
    | with_reducible refine Keeps.foldlFst ?_ fun _ _ _ => ?_
    | with_reducible refine Keeps.foldlSnd ?_ fun _ _ _ => ?_
    | with_reducible refine Keeps.fst (by with_reducible assumption) ?_
    | with_reducible refine Keeps.snd (by with_reducible assumption) ?_
    | split

theorem Keeps.closeTables {σ τ : State} (h : Keeps σ τ) (f n : Nat) : Keeps σ (State.closeTables τ f n) := by
  unfold State.closeTables
  repeat' first
    | with_reducible assumption
    | with_reducible apply Keeps.modFunc
    | with_reducible apply Keeps.tryCloseAll
    | with_reducible refine Keeps.foldl ?_ fun _ _ _ => ?_
    | split

theorem Keeps.nextPhase {σ τ : State} (h : Keeps σ τ) (f : Nat) (p : Plan) (st : Step) : Keeps σ (State.nextPhase τ f p st) := by
  unfold State.nextPhase
  try dsimp only
  repeat' first
    | with_reducible assumption
    | with_reducible apply Keeps.modStep
    | with_reducible apply Keeps.release
    | with_reducible apply Keeps.enter
    | with_reducible apply Keeps.startSteps

theorem Keeps.phaseComplete {σ τ : State} (h : Keeps σ τ) (f : Nat) (ahead : Bool) : Keeps σ (State.phaseComplete τ f ahead) := by
  unfold State.phaseComplete
  try dsimp only
  repeat' first
    | with_reducible assumption
    | with_reducible apply Keeps.modFunc
    | with_reducible apply Keeps.modStep
    | with_reducible apply Keeps.enter
    | with_reducible apply Keeps.startSteps
    | with_reducible apply Keeps.undefine
    | with_reducible apply Keeps.emptyEngines
    | with_reducible apply Keeps.dropStep
    | with_reducible apply Keeps.dropCombining
    | with_reducible apply Keeps.endStep
    | with_reducible apply Keeps.quenchAll
    | with_reducible apply Keeps.checkWork
    | with_reducible apply Keeps.closeTables
    | with_reducible apply Keeps.nextPhase
    | with_reducible refine Keeps.fst (by with_reducible assumption) ?_
    | with_reducible refine Keeps.snd (by with_reducible assumption) ?_
    | split
    | with_reducible refine Keeps.upd ?_ rfl rfl rfl

theorem Keeps.stepComplete {σ τ : State} (h : Keeps σ τ) (f : Nat) (r : VecReport) : Keeps σ (State.stepComplete τ f r) := by
  unfold State.stepComplete
  try dsimp only
  repeat' first
    | with_reducible assumption
    | with_reducible apply Keeps.modFunc
    | with_reducible apply Keeps.vecFail
    | with_reducible apply Keeps.idleRamp
    | with_reducible apply Keeps.startSteps
    | with_reducible apply Keeps.endStep
    | with_reducible apply Keeps.boundary
    | with_reducible refine Keeps.fst (by with_reducible assumption) ?_
    | with_reducible refine Keeps.snd (by with_reducible assumption) ?_
    | split
    | with_reducible refine Keeps.upd ?_ rfl rfl rfl

theorem Keeps.of_stepRun' {σ τ : State} (h : Keeps σ τ) (c : Submission) : Keeps σ (stepRun' c τ) := by
  unfold stepRun'
  try dsimp only
  repeat' first
    | with_reducible assumption
    | with_reducible apply Keeps.modFunc
    | with_reducible apply Keeps.single
    | with_reducible apply Keeps.interim
    | with_reducible apply Keeps.startSteps
    | with_reducible refine Keeps.fst (by with_reducible assumption) ?_
    | with_reducible refine Keeps.snd (by with_reducible assumption) ?_
    | split
    | with_reducible refine Keeps.upd ?_ rfl rfl rfl

theorem KeepsO.placeWant {σ τ : State} (h : Keeps σ τ) (f : Nat) (o : AllocOwner) (g : Given) (w : Want) : KeepsO σ (τ.placeWant f o g w) := by
  unfold State.placeWant
  dsimp only
  generalize (match w.use with | .leaf _ _ => _ | _ => _ : Option (Nat × Nat)) = x
  split
  · exact KeepsO.pure h
  · exact KeepsO.map (KeepsO.allocate h _ _ _ _ _) fun _ _ k => k

theorem KeepsE.planMemory {σ τ : State} (h : Keeps σ τ) (f : Nat) (o : AllocOwner) (ws : List Want) (g : Given) :
    KeepsE (·.2) σ (τ.planMemory f o ws g) := by
  induction ws generalizing τ g with
  | nil => exact KeepsE.pure h
  | cons w ws ih =>
    unfold State.planMemory
    split
    · rename_i e
      exact ih (Keeps.ofSome e (KeepsO.placeWant h _ _ _ _)) _
    · intro _ e; cases e

theorem Keeps.replaceWorking {σ τ : State} (h : Keeps σ τ) (f slot : Nat) : Keeps σ (State.replaceWorking τ f slot) := by
  unfold State.replaceWorking
  split
  · exact h
  · dsimp only
    refine Keeps.modFunc (Keeps.foldlSnd h fun u w k => ?_) _ _
    split
    · exact k
    · split
      · exact k
      · rename_i x _ _
        cases e : u.2.placeWant f (.plan slot) u.1 w with
        | none => exact k
        | some y => exact Keeps.ofSome (a := y.1) e (KeepsO.placeWant k _ _ _ _)

theorem Keeps.countLeaves {σ τ : State} (h : Keeps σ τ) (f : Nat) : Keeps σ (State.countLeaves τ f) := by
  unfold State.countLeaves
  try dsimp only
  repeat' first
    | with_reducible assumption
    | with_reducible apply Keeps.modClu
    | with_reducible refine Keeps.foldl ?_ fun _ _ _ => ?_
    | with_reducible refine Keeps.fst (by with_reducible assumption) ?_
    | with_reducible refine Keeps.snd (by with_reducible assumption) ?_
    | split
    | with_reducible refine Keeps.upd ?_ rfl rfl rfl

theorem Keeps.growTwin {σ τ : State} (h : Keeps σ τ) (d : Nat) : Keeps σ (State.growTwin τ d) := by
  unfold State.growTwin
  try dsimp only
  repeat' first
    | with_reducible assumption
    | with_reducible refine Keeps.ofSome (by with_reducible assumption) (KeepsO.allocate ?_ _ _ _ _ _)
    | with_reducible refine Keeps.fst (by with_reducible assumption) ?_
    | with_reducible refine Keeps.snd (by with_reducible assumption) ?_
    | split
    | with_reducible refine Keeps.upd ?_ rfl rfl rfl

theorem KeepsO.mirrorPlace {σ τ : State} (h : Keeps σ τ) (f d : Nat) (o : AllocOwner) (n : Nat) : KeepsO σ (τ.mirrorPlace f d o n) := by
  unfold State.mirrorPlace
  dsimp only
  split
  · exact KeepsO.pure (h.modFunc _ _)
  · exact KeepsO.map (KeepsO.allocate h _ _ _ _ _) fun _ _ k => k

theorem KeepsO.mirrorPlan {σ τ : State} (h : Keeps σ τ) (f : Nat) (o : AllocOwner) (p : Plan) : KeepsO σ (τ.mirrorPlan f o p) := by
  unfold State.mirrorPlan
  refine KeepsO.foldlM h fun l u x k => ?_
  dsimp only
  split
  · exact KeepsO.pure k
  · split
    · exact KeepsO.pure k
    · split
      · exact KeepsO.pure k
      · exact KeepsO.map (KeepsO.mirrorPlace k _ _ _ _) fun _ _ k => Keeps.poke k _ _

theorem Keeps.sizeTwin {σ τ : State} (h : Keeps σ τ) (f : Nat) : Keeps σ (State.sizeTwin τ f) := by
  unfold State.sizeTwin
  try dsimp only
  repeat' first
    | with_reducible assumption
    | with_reducible apply Keeps.growTwin
    | with_reducible refine Keeps.foldl ?_ fun _ _ _ => ?_
    | split
    | with_reducible refine Keeps.upd ?_ rfl rfl rfl

theorem KeepsE.placePlan {σ τ : State} (h : Keeps σ τ) (f slot : Nat) (p : Plan) : KeepsE (·.2) σ (τ.placePlan f slot p) := by
  unfold State.placePlan
  dsimp only
  split
  · intro _ e; cases e
  · rename_i e
    have k : Keeps σ _ := KeepsE.planMemory (h.sizeTwin _) _ _ _ _ _ e
    dsimp only at k
    split
    · intro _ e; cases e
    · rename_i e
      refine KeepsE.pure (Keeps.ofSome e ?_)
      split
      · exact KeepsO.mirrorPlan k _ _ _
      · exact KeepsO.pure k

theorem Keeps.installPlan {σ τ : State} (h : Keeps σ τ) (f slot : Nat) (p : Plan) : Keeps σ (State.installPlan τ f slot p) := by
  unfold State.installPlan
  try dsimp only
  repeat' first
    | with_reducible assumption
    | with_reducible apply Keeps.modFunc
    | with_reducible apply Keeps.dropApertures
    | with_reducible apply Keeps.countLeaves
    | with_reducible refine Keeps.upd ?_ rfl rfl rfl

theorem Keeps.of_planLoadWith {σ τ : State} (h : Keeps σ τ) (asked : Bool) (c : Submission) : Keeps σ (planLoadWith asked c τ) := by
  unfold planLoadWith
  dsimp only
  split
  · exact h.single _ _ _ _ _
  · split
    · exact (h.violDesc _ _).single _ _ _ _ _
    · split
      · rename_i e
        have k : Keeps σ _ := KeepsE.placePlan h _ _ _ _ e
        exact (k.installPlan _ _ _).okJ _ _ _
      · split
        · exact h.single _ _ _ _ _
        · exact h.askPeers _ _ _ _ _

theorem Keeps.of_planLoad' {σ τ : State} (h : Keeps σ τ) (c : Submission) : Keeps σ (planLoad' c τ) := h.of_planLoadWith _ _

theorem Keeps.peerAnswered {σ τ : State} (h : Keeps σ τ) (f peer gib : Nat) : Keeps σ (State.peerAnswered τ f peer gib) := by
  unfold State.peerAnswered
  try dsimp only
  repeat' first
    | with_reducible assumption
    | with_reducible apply Keeps.modFunc
    | with_reducible apply Keeps.askOn
    | with_reducible apply Keeps.of_planLoadWith
    | with_reducible refine Keeps.fst (by with_reducible assumption) ?_
    | with_reducible refine Keeps.snd (by with_reducible assumption) ?_
    | split
    | with_reducible refine Keeps.upd ?_ rfl rfl rfl

theorem Keeps.of_ftblLoad' {σ τ : State} (h : Keeps σ τ) (c : Submission) : Keeps σ (ftblLoad' c τ) := by
  unfold ftblLoad'
  try dsimp only
  repeat' first
    | with_reducible assumption
    | with_reducible apply Keeps.modFunc
    | with_reducible apply Keeps.take
    | with_reducible apply Keeps.single
    | with_reducible apply Keeps.journalCmd
    | with_reducible apply Keeps.measure
    | with_reducible apply Keeps.secDenied
    | with_reducible apply Keeps.ftReplaced
    | with_reducible refine Keeps.fst (by with_reducible assumption) ?_
    | with_reducible refine Keeps.snd (by with_reducible assumption) ?_
    | split
    | with_reducible refine Keeps.upd ?_ rfl rfl rfl

theorem Keeps.turnOff {σ τ : State} (h : Keeps σ τ) (f : Nat) (u : EngineUnit) : Keeps σ (State.turnOff τ f u) := by
  cases u <;> unfold State.turnOff <;> dsimp only
  all_goals
    repeat' first
      | with_reducible assumption
      | with_reducible apply Keeps.settleMxe
      | with_reducible apply Keeps.settleSpe
      | with_reducible apply Keeps.dropSlices
      | with_reducible apply Keeps.settleBellows
      | with_reducible apply Keeps.moveRequests
      | with_reducible apply Keeps.modMxe
      | with_reducible apply Keeps.modSpe
      | with_reducible apply Keeps.modVec
      | with_reducible apply Keeps.modSkink
      | with_reducible apply Keeps.modClu
      | with_reducible apply Keeps.modFunc
      | split

theorem Keeps.stopMark {σ τ : State} (h : Keeps σ τ) (f : Nat) : Keeps σ (State.stopMark τ f) := by
  unfold State.stopMark
  try dsimp only
  repeat' first
    | with_reducible assumption
    | with_reducible apply Keeps.modFunc
    | with_reducible refine Keeps.fst (by with_reducible assumption) ?_
    | with_reducible refine Keeps.snd (by with_reducible assumption) ?_
    | split
    | with_reducible refine Keeps.upd ?_ rfl rfl rfl

theorem Keeps.turnOn {σ τ : State} (h : Keeps σ τ) (f : Nat) (u : EngineUnit) : Keeps σ (State.turnOn τ f u) := by
  unfold State.turnOn
  try dsimp only
  repeat' first
    | with_reducible assumption
    | with_reducible apply Keeps.modFunc
    | with_reducible apply Keeps.modClu
    | with_reducible apply Keeps.retryRequests
    | with_reducible apply Keeps.sendRequests
    | with_reducible apply Keeps.modSkink
    | with_reducible apply Keeps.placeWaiting
    | with_reducible apply Keeps.dropSlices
    | with_reducible apply Keeps.modMxe
    | with_reducible apply Keeps.modSpe
    | with_reducible apply Keeps.modVec
    | with_reducible apply Keeps.tryU
    | with_reducible apply Keeps.startJobs
    | with_reducible refine Keeps.foldl ?_ fun _ _ _ => ?_
    | split
    | with_reducible refine Keeps.upd ?_ rfl rfl rfl

theorem Keeps.of_disableCmd {σ τ : State} (h : Keeps σ τ) (c : Submission) : Keeps σ (disableCmd c τ) := by
  unfold disableCmd
  try dsimp only
  repeat' first
    | with_reducible assumption
    | with_reducible apply Keeps.modFunc
    | with_reducible apply Keeps.single
    | with_reducible apply Keeps.okJ
    | with_reducible apply Keeps.turnOff
    | with_reducible apply Keeps.stopMark
    | with_reducible apply Keeps.turnOn
    | with_reducible refine Keeps.foldl ?_ fun _ _ _ => ?_
    | split
    | with_reducible refine Keeps.upd ?_ rfl rfl rfl

theorem Keeps.dropStop {σ τ : State} (h : Keeps σ τ) (f : Nat) (j : StopJob) : Keeps σ (State.dropStop τ f j) := by
  unfold State.dropStop
  try dsimp only
  repeat' first
    | with_reducible assumption
    | with_reducible apply Keeps.modFunc
    | with_reducible refine Keeps.upd ?_ rfl rfl rfl

theorem Keeps.splitAt {σ τ : State} (h : Keeps σ τ) (lo n : Nat) : Keeps σ (State.splitAt τ lo n).2 := by
  unfold State.splitAt
  repeat' first
    | with_reducible assumption
    | with_reducible apply Keeps.takeFresh

theorem Keeps.drainMxe {σ τ : State} (h : Keeps σ τ) (i : Nat) : Keeps σ (State.drainMxe τ i) := by
  unfold State.drainMxe
  try dsimp only
  repeat' first
    | with_reducible assumption
    | with_reducible apply Keeps.cntCore
    | with_reducible apply Keeps.modMxe
    | with_reducible apply Keeps.holdLoaded
    | with_reducible apply Keeps.splitAt
    | with_reducible refine Keeps.fst (by with_reducible assumption) ?_
    | with_reducible refine Keeps.snd (by with_reducible assumption) ?_
    | split
    | with_reducible refine Keeps.upd ?_ rfl rfl rfl

theorem Keeps.drainSpe {σ τ : State} (h : Keeps σ τ) (i : Nat) : Keeps σ (State.drainSpe τ i) := by
  unfold State.drainSpe
  try dsimp only
  repeat' first
    | with_reducible assumption
    | with_reducible apply Keeps.modSpe
    | with_reducible apply Keeps.splitAt
    | with_reducible refine Keeps.fst (by with_reducible assumption) ?_
    | with_reducible refine Keeps.snd (by with_reducible assumption) ?_
    | split
    | with_reducible refine Keeps.upd ?_ rfl rfl rfl

theorem Keeps.undrain {σ τ : State} (h : Keeps σ τ) (i : Nat) : Keeps σ (State.undrain τ i) := by
  unfold State.undrain
  try dsimp only
  repeat' first
    | with_reducible assumption
    | with_reducible apply Keeps.modMxe
    | with_reducible apply Keeps.modSpe
    | with_reducible apply Keeps.sparseStart
    | with_reducible refine Keeps.upd ?_ rfl rfl rfl

theorem Keeps.of_drainCmd {σ τ : State} (h : Keeps σ τ) (c : Submission) : Keeps σ (drainCmd c τ) := by
  unfold drainCmd
  try dsimp only
  repeat' first
    | with_reducible assumption
    | with_reducible apply Keeps.modFunc
    | with_reducible apply Keeps.single
    | with_reducible apply Keeps.okJ
    | with_reducible apply Keeps.drainMxe
    | with_reducible apply Keeps.drainSpe
    | with_reducible apply Keeps.undrain
    | with_reducible refine Keeps.foldl ?_ fun _ _ _ => ?_
    | with_reducible refine Keeps.fst (by with_reducible assumption) ?_
    | with_reducible refine Keeps.snd (by with_reducible assumption) ?_
    | split
    | with_reducible refine Keeps.upd ?_ rfl rfl rfl

theorem Keeps.stopOwn {σ τ : State} (h : Keeps σ τ) (f : Nat) (p : Plan) (st : Step) : Keeps σ (State.stopOwn τ f p st) := by
  unfold State.stopOwn
  try dsimp only
  repeat' first
    | with_reducible assumption
    | with_reducible apply Keeps.modFunc
    | split
    | with_reducible refine Keeps.upd ?_ rfl rfl rfl

theorem Keeps.of_quench' {σ τ : State} (h : Keeps σ τ) (c : Submission) : Keeps σ (quench' c τ) := by
  unfold quench'
  try dsimp only
  repeat' first
    | with_reducible assumption
    | with_reducible apply Keeps.modFunc
    | with_reducible apply Keeps.modStep
    | with_reducible apply Keeps.single
    | with_reducible apply Keeps.emptyEngines
    | with_reducible apply Keeps.stopOwn
    | with_reducible refine Keeps.fst (by with_reducible assumption) ?_
    | with_reducible refine Keeps.snd (by with_reducible assumption) ?_
    | split
    | with_reducible refine Keeps.upd ?_ rfl rfl rfl

theorem Keeps.portFault {σ τ : State} (h : Keeps σ τ) (d inst resp : Nat) : Keeps σ (State.portFault τ d inst resp).1 := by
  unfold State.portFault
  repeat' first
    | with_reducible assumption
    | with_reducible apply Keeps.fault

theorem Keeps.flushPeer {σ τ : State} (h : Keeps σ τ) : Keeps σ (State.flushPeer τ) := by
  unfold State.flushPeer
  try dsimp only
  repeat' first
    | with_reducible assumption
    | with_reducible apply Keeps.modFunc
    | with_reducible apply Keeps.send
    | with_reducible refine Keeps.foldl ?_ fun _ _ _ => ?_
    | with_reducible refine Keeps.fst (by with_reducible assumption) ?_
    | with_reducible refine Keeps.snd (by with_reducible assumption) ?_
    | split
    | with_reducible refine Keeps.upd ?_ rfl rfl rfl

theorem Keeps.transmit {σ τ : State} (h : Keeps σ τ) (port : Nat) : Keeps σ (State.transmit τ port) := by
  unfold State.transmit
  try dsimp only
  repeat' first
    | with_reducible assumption
    | with_reducible apply Keeps.modPort
    | with_reducible apply Keeps.put
    | with_reducible apply Keeps.protect
    | with_reducible apply Keeps.cntPort
    | with_reducible apply Keeps.send
    | with_reducible apply Keeps.take
    | with_reducible apply Keeps.flushPeer
    | with_reducible refine Keeps.fst (by with_reducible assumption) ?_
    | with_reducible refine Keeps.snd (by with_reducible assumption) ?_
    | split
    | with_reducible refine Keeps.upd ?_ rfl rfl rfl

theorem Keeps.retryFrom {σ τ : State} (h : Keeps σ τ) (port seq : Nat) : Keeps σ (State.retryFrom τ port seq) := by
  unfold State.retryFrom
  try dsimp only
  repeat' first
    | with_reducible assumption
    | with_reducible apply Keeps.modPort
    | with_reducible apply Keeps.cntPort
    | split
    | with_reducible refine Keeps.upd ?_ rfl rfl rfl

theorem Keeps.linkRetry {σ τ : State} (h : Keeps σ τ) (port seq : Nat) : Keeps σ (State.linkRetry τ port seq) := by
  unfold State.linkRetry
  try dsimp only
  repeat' first
    | with_reducible assumption
    | with_reducible refine Keeps.fst (by with_reducible assumption) ?_
    | with_reducible refine Keeps.snd (by with_reducible assumption) ?_
    | split
    | with_reducible refine Keeps.upd ?_ rfl rfl rfl

theorem Keeps.deliveryAcked {σ τ : State} (h : Keeps σ τ) (f src seq : Nat) : Keeps σ (State.deliveryAcked τ f src seq) := by
  unfold State.deliveryAcked
  try dsimp only
  repeat' first
    | with_reducible assumption
    | with_reducible apply Keeps.modFunc
    | with_reducible apply Keeps.settle
    | with_reducible refine Keeps.foldl ?_ fun _ _ _ => ?_
    | split
    | with_reducible refine Keeps.upd ?_ rfl rfl rfl

theorem Keeps.sendDeliveryAck {σ τ : State} (h : Keeps σ τ) (f : Nat) (m : Received) : Keeps σ (State.sendDeliveryAck τ f m) := by
  unfold State.sendDeliveryAck
  try dsimp only
  repeat' first
    | with_reducible assumption
    | with_reducible apply Keeps.queueOut

theorem Keeps.deliverEarly {σ τ : State} (h : Keeps σ τ) (f src n : Nat) : Keeps σ (State.deliverEarly τ f src n) := by
  induction n generalizing τ with
  | zero => exact h
  | succ n ih =>
    unfold State.deliverEarly
    dsimp only
    repeat' first
      | with_reducible assumption
      | with_reducible apply ih
      | with_reducible apply Keeps.sendDeliveryAck
      | with_reducible apply Keeps.modFunc
      | split

theorem Keeps.arrive {σ τ : State} (h : Keeps σ τ) (port vc : Nat) (b : List Byte) : Keeps σ (State.arrive τ port vc b) := by
  unfold State.arrive
  try dsimp only
  repeat' first
    | with_reducible assumption
    | with_reducible apply Keeps.modFunc
    | with_reducible apply Keeps.cntPort
    | with_reducible apply Keeps.take
    | with_reducible apply Keeps.deliveryAcked
    | with_reducible apply Keeps.sendDeliveryAck
    | with_reducible apply Keeps.deliverEarly
    | split
    | with_reducible refine Keeps.upd ?_ rfl rfl rfl

theorem Keeps.assemble {σ τ : State} (h : Keeps σ τ) (port : Nat) (b : List Byte) : Keeps σ (State.assemble τ port b) := by
  unfold State.assemble
  try dsimp only
  repeat' first
    | with_reducible assumption
    | with_reducible apply Keeps.modPort
    | with_reducible apply Keeps.take
    | with_reducible apply Keeps.arrive
    | split
    | with_reducible refine Keeps.upd ?_ rfl rfl rfl

theorem Keeps.rejectFlit {σ τ : State} (h : Keeps σ τ) (port : Nat) (corrupt : Bool) : Keeps σ (State.rejectFlit τ port corrupt) := by
  unfold State.rejectFlit
  try dsimp only
  repeat' first
    | with_reducible assumption
    | with_reducible apply Keeps.modPort
    | split
    | with_reducible refine Keeps.upd ?_ rfl rfl rfl

theorem Keeps.receive {σ τ : State} (h : Keeps σ τ) (port : Nat) (b : List Byte) : Keeps σ (State.receive τ port b) := by
  unfold State.receive
  try dsimp only
  repeat' first
    | with_reducible assumption
    | with_reducible apply Keeps.modPort
    | with_reducible apply Keeps.protect
    | with_reducible apply Keeps.cntPort
    | with_reducible apply Keeps.take
    | with_reducible apply Keeps.portFault
    | with_reducible apply Keeps.retryFrom
    | with_reducible apply Keeps.assemble
    | with_reducible apply Keeps.rejectFlit
    | split
    | with_reducible refine Keeps.upd ?_ rfl rfl rfl

theorem Keeps.fecCount {σ τ : State} (h : Keeps σ τ) (port c x : Nat) : Keeps σ (State.fecCount τ port c x) := by
  unfold State.fecCount
  repeat' first
    | with_reducible assumption
    | with_reducible apply Keeps.cntPort

theorem Keeps.resendWhole {σ τ : State} (h : Keeps σ τ) (m : Sent) : Keeps σ (State.resendWhole τ m) := by
  unfold State.resendWhole
  try dsimp only
  repeat' first
    | with_reducible assumption
    | with_reducible apply Keeps.modFunc
    | with_reducible apply Keeps.queueOut
    | with_reducible refine Keeps.fst (by with_reducible assumption) ?_
    | with_reducible refine Keeps.snd (by with_reducible assumption) ?_
    | split
    | with_reducible refine Keeps.upd ?_ rfl rfl rfl

theorem Keeps.stopPort {σ τ : State} (h : Keeps σ τ) (port state : Nat) : Keeps σ (State.stopPort τ port state) := by
  unfold State.stopPort
  try dsimp only
  repeat' first
    | with_reducible assumption
    | with_reducible apply Keeps.modPort
    | with_reducible apply Keeps.cntPort
    | with_reducible apply Keeps.resendWhole
    | with_reducible refine Keeps.foldl ?_ fun _ _ _ => ?_
    | split
    | with_reducible refine Keeps.upd ?_ rfl rfl rfl

theorem Keeps.portDown {σ τ : State} (h : Keeps σ τ) (port : Nat) : Keeps σ (State.portDown τ port) := by
  unfold State.portDown
  try dsimp only
  repeat' first
    | with_reducible assumption
    | with_reducible apply Keeps.emitTo
    | with_reducible apply Keeps.portFault
    | with_reducible apply Keeps.stopPort
    | with_reducible refine Keeps.fst (by with_reducible assumption) ?_
    | with_reducible refine Keeps.snd (by with_reducible assumption) ?_
    | split

theorem Keeps.startTraining {σ τ : State} (h : Keeps σ τ) (port : Nat) : Keeps σ (State.startTraining τ port) := by
  unfold State.startTraining
  try dsimp only
  repeat' first
    | with_reducible assumption
    | with_reducible apply Keeps.modPort
    | with_reducible refine Keeps.upd ?_ rfl rfl rfl

theorem Keeps.retrainPort {σ τ : State} (h : Keeps σ τ) (port : Nat) : Keeps σ (State.retrainPort τ port) := by
  unfold State.retrainPort
  try dsimp only
  repeat' first
    | with_reducible assumption
    | with_reducible apply Keeps.modPort
    | with_reducible apply Keeps.cntPort
    | with_reducible apply Keeps.portDown
    | split
    | with_reducible refine Keeps.upd ?_ rfl rfl rfl

theorem Keeps.sendHeld {σ τ : State} (h : Keeps σ τ) (f : Nat) : Keeps σ (State.sendHeld τ f) := by
  unfold State.sendHeld
  try dsimp only
  repeat' first
    | with_reducible assumption
    | with_reducible apply Keeps.modFunc
    | with_reducible apply Keeps.queueOut
    | with_reducible refine Keeps.foldl ?_ fun _ _ _ => ?_
    | with_reducible refine Keeps.foldlFst ?_ fun _ _ _ => ?_
    | with_reducible refine Keeps.foldlSnd ?_ fun _ _ _ => ?_
    | with_reducible refine Keeps.fst (by with_reducible assumption) ?_
    | with_reducible refine Keeps.snd (by with_reducible assumption) ?_
    | split
    | with_reducible refine Keeps.upd ?_ rfl rfl rfl

theorem Keeps.trained {σ τ : State} (h : Keeps σ τ) (port : Nat) (p : Partner) : Keeps σ (State.trained τ port p) := by
  unfold State.trained
  try dsimp only
  repeat' first
    | with_reducible assumption
    | with_reducible apply Keeps.modPort
    | with_reducible apply Keeps.put
    | with_reducible apply Keeps.cntPort
    | with_reducible apply Keeps.sendHeld
    | split
    | with_reducible refine Keeps.upd ?_ rfl rfl rfl

theorem Keeps.setPortEn {σ τ : State} (h : Keeps σ τ) (port : Nat) (en : Bool) : Keeps σ (State.setPortEn τ port en) := by
  unfold State.setPortEn
  try dsimp only
  repeat' first
    | with_reducible assumption
    | with_reducible apply Keeps.modPort
    | with_reducible apply Keeps.stopPort
    | with_reducible apply Keeps.startTraining
    | split
    | with_reducible refine Keeps.upd ?_ rfl rfl rfl

theorem Keeps.askRetrain {σ τ : State} (h : Keeps σ τ) (port : Nat) : Keeps σ (State.askRetrain τ port) := by
  unfold State.askRetrain
  repeat' first
    | with_reducible assumption
    | with_reducible apply Keeps.retrainPort
    | split

end Sys2Proof.Machine
end

