-- ==== Sys2Proof/Laws/KeepsExecB.lean ====
section
/-!
SUPPORT. The commands of these families answer a next state that keeps what only a module reset or its own command changes.
-/
namespace Sys2Proof.Machine

theorem KeepsD.of_execStaggerStart (die cluster : Nat) (s : State) : KeepsD s (execStaggerStart die cluster s) := by
  have h := Keeps.refl s
  unfold execStaggerStart
  try dsimp only
  repeat' first
    | with_reducible refine KeepsD.next ?_
    | with_reducible assumption
    | with_reducible apply Keeps.modDie
    | with_reducible apply Keeps.sendRequests
    | with_reducible apply Keeps.sparseStart
    | with_reducible apply Keeps.tryU
    | with_reducible refine Keeps.foldl ?_ fun _ _ _ => ?_
    | exact fun _ h => h
    | exact fun _ _ => rfl
    | (refine fun _ h => ?_; split <;> exact h)
    | split
    | with_reducible refine Keeps.upd ?_ rfl rfl rfl

theorem KeepsD.of_execStepTaggedRelease (f : Nat) (s : State) : KeepsD s (execStepTaggedRelease f s) := by
  have h := Keeps.refl s
  unfold execStepTaggedRelease
  try dsimp only
  repeat' first
    | with_reducible refine KeepsD.next ?_
    | with_reducible assumption
    | with_reducible apply Keeps.modFunc
    | with_reducible apply Keeps.startSteps
    | with_reducible refine Keeps.upd ?_ rfl rfl rfl

theorem KeepsD.of_execLocUpdate (f : Nat) (m : TableMsg) (s : State) : KeepsD s (execLocUpdate f m s) := by
  have h := Keeps.refl s
  unfold execLocUpdate
  repeat' first
    | with_reducible refine KeepsD.next ?_
    | with_reducible assumption
    | with_reducible apply Keeps.retryRequests
    | with_reducible apply Keeps.locUpdate
    | with_reducible apply Keeps.startJobs
    | split

theorem KeepsD.of_execSkinkSliceDone (die cluster : Nat) (parity : Bool) (s : State) : KeepsD s (execSkinkSliceDone die cluster parity s) := by
  have h := Keeps.refl s
  unfold execSkinkSliceDone
  try dsimp only
  repeat' first
    | with_reducible refine KeepsD.next ?_
    | with_reducible assumption
    | with_reducible apply Keeps.note
    | with_reducible apply Keeps.exercised
    | with_reducible apply Keeps.cntClu
    | with_reducible apply Keeps.modSkink
    | with_reducible apply Keeps.disableCluster
    | with_reducible apply Keeps.sliceBuilt
    | with_reducible refine Keeps.fst (by with_reducible assumption) ?_
    | with_reducible refine Keeps.snd (by with_reducible assumption) ?_
    | split
    | with_reducible refine Keeps.upd ?_ rfl rfl rfl

theorem KeepsD.of_execPhaseComplete (f : Nat) (ahead : Bool) (s : State) : KeepsD s (execPhaseComplete f ahead s) := by
  have h := Keeps.refl s
  unfold execPhaseComplete
  repeat' first
    | with_reducible refine KeepsD.next ?_
    | with_reducible assumption
    | with_reducible apply Keeps.phaseComplete

theorem KeepsD.of_execStepRun (c : Submission) (s : State) : KeepsD s (execStepRun c s) :=
  KeepsD.next ((Keeps.refl s).zcp _ _ _ fun _ _ h => h.of_stepRun' _)

theorem KeepsD.of_execPlanLoad (c : Submission) (s : State) : KeepsD s (execPlanLoad c s) :=
  KeepsD.next ((Keeps.refl s).zcp _ _ _ fun _ _ h => h.of_planLoad' _)

theorem KeepsD.of_execFtblLoad (c : Submission) (s : State) : KeepsD s (execFtblLoad c s) :=
  KeepsD.next ((Keeps.refl s).zcp _ _ _ fun _ _ h => h.of_ftblLoad' _)

theorem KeepsD.of_execDisable (c : Submission) (s : State) : KeepsD s (execDisable c s) :=
  KeepsD.next ((Keeps.refl s).zcp _ _ _ fun _ _ h => h.of_disableCmd _)

theorem KeepsD.of_execEnable (c : Submission) (s : State) : KeepsD s (execEnable c s) :=
  KeepsD.next ((Keeps.refl s).zcp _ _ _ fun _ _ h => h.of_disableCmd _)

theorem KeepsD.of_execDisableDone (f : Nat) (s : State) : KeepsD s (execDisableDone f s) := by
  have h := Keeps.refl s
  unfold execDisableDone
  try dsimp only
  repeat' first
    | with_reducible refine KeepsD.next ?_
    | with_reducible assumption
    | with_reducible apply Keeps.count
    | with_reducible apply Keeps.single
    | with_reducible apply Keeps.okJ
    | with_reducible apply Keeps.dropStop
    | split
    | with_reducible refine Keeps.upd ?_ rfl rfl rfl

theorem KeepsD.of_execDrain (c : Submission) (s : State) : KeepsD s (execDrain c s) :=
  KeepsD.next ((Keeps.refl s).zcp _ _ _ fun _ _ h => h.of_drainCmd _)

theorem KeepsD.of_execDrainRelease (c : Submission) (s : State) : KeepsD s (execDrainRelease c s) :=
  KeepsD.next ((Keeps.refl s).zcp _ _ _ fun _ _ h => h.of_drainCmd _)

theorem KeepsD.of_execDrainDone (f : Nat) (s : State) : KeepsD s (execDrainDone f s) := by
  have h := Keeps.refl s
  unfold execDrainDone
  try dsimp only
  repeat' first
    | with_reducible refine KeepsD.next ?_
    | with_reducible assumption
    | with_reducible apply Keeps.single
    | with_reducible apply Keeps.okJ
    | with_reducible apply Keeps.dropStop
    | split
    | with_reducible refine Keeps.upd ?_ rfl rfl rfl

theorem KeepsD.of_execQuench (c : Submission) (s : State) : KeepsD s (execQuench c s) :=
  KeepsD.next ((Keeps.refl s).zcp _ _ _ fun _ _ h => h.of_quench' _)

theorem KeepsD.of_execQuenchDone (f : Nat) (s : State) : KeepsD s (execQuenchDone f s) := by
  have h := Keeps.refl s
  unfold execQuenchDone
  try dsimp only
  repeat' first
    | with_reducible refine KeepsD.next ?_
    | with_reducible assumption
    | with_reducible apply Keeps.count
    | with_reducible apply Keeps.okJ
    | with_reducible apply Keeps.startSteps
    | with_reducible apply Keeps.quenchAll
    | with_reducible apply Keeps.dropStop
    | with_reducible refine Keeps.foldl ?_ fun _ _ _ => ?_
    | split

theorem KeepsD.of_execFlitTransmit (port : Nat) (s : State) : KeepsD s (execFlitTransmit port s) := by
  have h := Keeps.refl s
  unfold execFlitTransmit
  repeat' first
    | with_reducible refine KeepsD.next ?_
    | with_reducible assumption
    | with_reducible apply Keeps.transmit

theorem KeepsD.of_execRetry (port seq : Nat) (s : State) : KeepsD s (execRetry port seq s) := by
  have h := Keeps.refl s
  unfold execRetry
  repeat' first
    | with_reducible refine KeepsD.next ?_
    | with_reducible assumption
    | with_reducible apply Keeps.retryFrom
    | with_reducible apply Keeps.linkRetry
    | split

theorem KeepsD.of_execDeliveryAck (f src seq : Nat) (s : State) : KeepsD s (execDeliveryAck f src seq s) := by
  have h := Keeps.refl s
  unfold execDeliveryAck
  repeat' first
    | with_reducible refine KeepsD.next ?_
    | with_reducible assumption
    | with_reducible apply Keeps.deliveryAcked

theorem KeepsD.of_execFlitReceive (port : Nat) (flit : FlitIn) (s : State) : KeepsD s (execFlitReceive port flit s) := by
  have h := Keeps.refl s
  unfold execFlitReceive
  repeat' first
    | with_reducible refine KeepsD.next ?_
    | with_reducible assumption
    | with_reducible apply Keeps.exercised
    | with_reducible apply Keeps.receive
    | with_reducible apply Keeps.fecCount
    | split

theorem KeepsD.of_execLinkTrainDone (port : Nat) (p : Partner) (s : State) : KeepsD s (execLinkTrainDone port p s) := by
  have h := Keeps.refl s
  unfold execLinkTrainDone
  repeat' first
    | with_reducible refine KeepsD.next ?_
    | with_reducible assumption
    | with_reducible apply Keeps.trained

theorem KeepsD.of_execLinkPartnerTraining (port : Nat) (s : State) : KeepsD s (execLinkPartnerTraining port s) := by
  have h := Keeps.refl s
  unfold execLinkPartnerTraining
  repeat' first
    | with_reducible refine KeepsD.next ?_
    | with_reducible assumption
    | with_reducible apply Keeps.retrainPort
    | split

theorem KeepsD.of_execE2eRetransmit (f dest seq : Nat) (s : State) : KeepsD s (execE2eRetransmit f dest seq s) := by
  have h := Keeps.refl s
  unfold execE2eRetransmit
  try dsimp only
  repeat' first
    | with_reducible refine KeepsD.next ?_
    | with_reducible assumption
    | with_reducible apply Keeps.modFunc
    | with_reducible apply Keeps.cntPort
    | with_reducible apply Keeps.queueOut
    | with_reducible refine Keeps.fst (by with_reducible assumption) ?_
    | with_reducible refine Keeps.snd (by with_reducible assumption) ?_
    | split
    | with_reducible refine Keeps.upd ?_ rfl rfl rfl

end Sys2Proof.Machine
end

