-- ==== Sys2Proof/Laws/KeepsModule.lean ====
section
/-!
SUPPORT. The operations of Firmware, Failover, Monitors, Power, Memory, Regs, Startup, Debug keep what only a module reset or its own command changes (Sys2Proof/Laws/Keeps.lean).
-/
namespace Sys2Proof.Machine

theorem Keeps.modFw {σ τ : State} (h : Keeps σ τ) (k : Nat) (g : FwKind → FwKind)
    (hg : ∀ x, ((g x).active, (g x).previous) = (x.active, x.previous)) : Keeps σ (State.modFw τ k g) := by
  have e : ∀ (l : List FwKind) i, (modNth g i l).map (fun k => (k.active, k.previous)) = l.map fun k => (k.active, k.previous) := by
    intro l
    induction l with
    | nil => intro i; cases i <;> rfl
    | cons x l ih => intro i; cases i <;> simp [modNth, ih, hg]
  exact Keeps.updFw h (e _ _) rfl rfl rfl

theorem Keeps.of_fwStage' {σ τ : State} (h : Keeps σ τ) (c : Submission) : Keeps σ (fwStage' c τ) := by
  unfold fwStage'
  try dsimp only
  repeat' first
    | with_reducible assumption
    | with_reducible apply Keeps.modFunc
    | with_reducible apply Keeps.interim
    | with_reducible apply Keeps.final
    | split
    | with_reducible refine Keeps.upd ?_ rfl rfl rfl

theorem Keeps.fwStageEnd {σ τ : State} (h : Keeps σ τ) (f : Nat) (j : AsyncJob) : Keeps σ (State.fwStageEnd τ f j) := by
  unfold State.fwStageEnd
  try dsimp only
  repeat' first
    | with_reducible assumption
    | with_reducible apply Keeps.final
    | with_reducible apply Keeps.journalCmd
    | with_reducible apply Keeps.secDenied
    | with_reducible apply Keeps.endJob
    | with_reducible apply Keeps.modFw
    | with_reducible refine Keeps.fst (by with_reducible assumption) ?_
    | with_reducible refine Keeps.snd (by with_reducible assumption) ?_
    | split
    | with_reducible exact fun _ => rfl
    | with_reducible refine Keeps.updFw ?_ (by simp [State.flash, Function.comp_def]) rfl rfl rfl
    | with_reducible refine Keeps.upd ?_ rfl rfl rfl

theorem Keeps.actEnd {σ τ : State} (h : Keeps σ τ) (a : Activation) : Keeps σ (State.actEnd τ a) := by
  unfold State.actEnd
  try dsimp only
  repeat' first
    | with_reducible assumption
    | with_reducible apply Keeps.modFunc
    | with_reducible refine Keeps.upd ?_ rfl rfl rfl

theorem Keeps.actFinal {σ τ : State} (h : Keeps σ τ) (a : Activation) (status : Nat) (detail : List Byte) (jrn : Nat) : Keeps σ (State.actFinal τ a status detail jrn) := by
  unfold State.actFinal
  repeat' first
    | with_reducible assumption
    | with_reducible apply Keeps.final
    | split

theorem Keeps.actRestart {σ τ : State} (h : Keeps σ τ) (a : Activation) : Keeps σ (State.actRestart τ a) := by
  unfold State.actRestart
  try dsimp only
  repeat' first
    | with_reducible assumption
    | with_reducible apply Keeps.pauseProc
    | with_reducible refine Keeps.foldl ?_ fun _ _ _ => ?_
    | split
    | with_reducible refine Keeps.upd ?_ rfl rfl rfl

theorem Keeps.actDeadline {σ τ : State} (h : Keeps σ τ) : Keeps σ (State.actDeadline τ) := by
  unfold State.actDeadline
  try dsimp only
  repeat' first
    | with_reducible assumption
    | with_reducible apply Keeps.actEnd
    | with_reducible apply Keeps.actFinal
    | split
    | with_reducible refine Keeps.upd ?_ rfl rfl rfl

theorem Keeps.revertEnd {σ τ : State} (h : Keeps σ τ) (a : Activation) : Keeps σ (State.revertEnd τ a) := by
  unfold State.revertEnd
  try dsimp only
  repeat' first
    | with_reducible assumption
    | with_reducible apply Keeps.cntAll
    | with_reducible apply Keeps.journalCmd
    | with_reducible apply Keeps.measure
    | with_reducible apply Keeps.measureKind
    | with_reducible apply Keeps.modFw
    | with_reducible apply Keeps.actEnd
    | with_reducible apply Keeps.actFinal
    | with_reducible refine Keeps.fst (by with_reducible assumption) ?_
    | with_reducible refine Keeps.snd (by with_reducible assumption) ?_
    | split
    | with_reducible exact fun _ => rfl
    | with_reducible refine Keeps.updFw ?_ (by simp [State.flash, Function.comp_def]) rfl rfl rfl
    | with_reducible refine Keeps.upd ?_ rfl rfl rfl

theorem Keeps.revertNext {σ τ : State} (h : Keeps σ τ) (a : Activation) : Keeps σ (State.revertNext τ a) := by
  unfold State.revertNext
  repeat' first
    | with_reducible assumption
    | with_reducible apply Keeps.actRestart
    | with_reducible apply Keeps.revertEnd
    | split

theorem Keeps.actPrune {σ τ : State} (h : Keeps σ τ) : Keeps σ (State.actPrune τ) := by
  unfold State.actPrune
  try dsimp only
  repeat' first
    | with_reducible assumption
    | with_reducible apply Keeps.actRestart
    | with_reducible apply Keeps.revertNext
    | split
    | with_reducible refine Keeps.upd ?_ rfl rfl rfl

theorem Keeps.judgeToken {σ τ : State} (h : Keeps σ τ) (k : σ.sec.tokens ≠ []) (token : List Byte) : Keeps σ (State.judgeToken τ token) := by
  unfold State.judgeToken
  extract_lets ok u t1 v t2
  have h1 : Keeps σ t1 := h.updSec k (fun _ x => x) rfl
  clear_value t1
  split
  · have h2 : Keeps σ t2 := h1.updSec k (fun i x => by simp [x]) rfl
    clear_value t2
    exact (h2.measure _ _ _ _ _).cntAll _ _
  · exact h1.cntAll _ _

theorem Keeps.judgeTokens {σ τ : State} (h : Keeps σ τ) : Keeps σ (State.judgeTokens τ) := by
  unfold State.judgeTokens
  cases e : τ.sec.tokens with
  | nil => exact Keeps.upd h rfl (by simp [e]) rfl
  | cons t l =>
    have k : σ.sec.tokens ≠ [] := fun x => by simp [(h.scopes x).2] at e
    exact Keeps.foldl (h.updSec k (fun _ x => x) rfl) fun _ _ j => j.judgeToken k _

theorem Keeps.heldTokens {σ τ : State} (h : Keeps σ τ) : Keeps σ (State.heldTokens τ) := by
  unfold State.heldTokens
  repeat' first
    | with_reducible assumption
    | with_reducible apply Keeps.judgeTokens
    | split

theorem Keeps.loseSecurity {σ τ : State} (h : Keeps σ τ) (die : Nat) : Keeps σ (State.loseSecurity τ die) := by
  unfold State.loseSecurity
  try dsimp only
  repeat' first
    | with_reducible assumption
    | with_reducible apply Keeps.measure
    | with_reducible apply Keeps.actEnd
    | with_reducible apply Keeps.actFinal
    | with_reducible apply Keeps.actRestart
    | with_reducible apply Keeps.judgeTokens
    | with_reducible apply Keeps.heldTokens
    | split
    | with_reducible exact fun _ => rfl
    | with_reducible refine Keeps.updFw ?_ (by simp [State.flash, Function.comp_def]) rfl rfl rfl
    | with_reducible refine Keeps.upd ?_ rfl rfl rfl

theorem Keeps.of_secAttest' {σ τ : State} (h : Keeps σ τ) (c : Submission) : Keeps σ (secAttest' c τ) := by
  unfold secAttest'
  try dsimp only
  repeat' first
    | with_reducible assumption
    | with_reducible apply Keeps.cntAll
    | with_reducible apply Keeps.single
    | with_reducible apply Keeps.outSingle
    | split

theorem Keeps.loseMemory {σ τ : State} (h : Keeps σ τ) (d : Nat) : Keeps σ (State.loseMemory τ d) := by
  unfold State.loseMemory
  exact Keeps.updFuncs (Keeps.updMem h (Mem.filter_wf _ _)) (List.length_map _)

theorem Keeps.copyRun {σ τ : State} (h : Keeps σ τ) (src dst n : Nat) : Keeps σ (State.copyRun τ src dst n) := by
  have e : ∀ (l : List Host.Cell) m, Memory.wf m = true →
      Memory.wf (l.foldl (fun m c => Mem.write m (dst + (c.1 - src)) [c.2]) m) = true := by
    intro l
    induction l with
    | nil => exact fun _ h => h
    | cons x l ih => exact fun m h => ih _ (Mem.write_wf _ _ _ h)
  exact Keeps.updMem h (e _ _)

theorem Keeps.shardCopy {σ τ : State} (h : Keeps σ τ) (t : Table) (b : OwnerBlock) (toBacked : Bool) : Keeps σ (State.shardCopy τ t b toBacked) := by
  unfold State.shardCopy
  try dsimp only
  repeat' first
    | with_reducible assumption
    | with_reducible apply Keeps.copyRun
    | with_reducible refine Keeps.foldl ?_ fun _ _ _ => ?_
    | with_reducible refine Keeps.fst (by with_reducible assumption) ?_
    | with_reducible refine Keeps.snd (by with_reducible assumption) ?_
    | split

theorem Keeps.adopt {σ τ : State} (h : Keeps σ τ) (f e : Nat) (t : Table) (b : OwnerBlock) : Keeps σ (State.adopt τ f e t b).2 := by
  unfold State.adopt
  try dsimp only
  repeat' first
    | with_reducible assumption
    | with_reducible apply Keeps.modFunc
    | with_reducible apply Keeps.emit
    | with_reducible apply Keeps.cntDie
    | with_reducible refine Keeps.ofSome (by with_reducible assumption) (KeepsO.placeOwner ?_ _ _ _ _ _)
    | with_reducible apply Keeps.shardCopy
    | with_reducible refine Keeps.fst (by with_reducible assumption) ?_
    | with_reducible refine Keeps.snd (by with_reducible assumption) ?_
    | split
    | with_reducible refine Keeps.upd ?_ rfl rfl rfl

theorem Keeps.blockFailover {σ τ : State} (h : Keeps σ τ) (f d : Nat) (t : Table) (b : OwnerBlock) : Keeps σ (State.blockFailover τ f d t b).2 := by
  unfold State.blockFailover
  try dsimp only
  repeat' first
    | with_reducible assumption
    | with_reducible refine Keeps.ofSome (by with_reducible assumption) (KeepsO.placeArea ?_ _ _ _ _)
    | with_reducible apply Keeps.shardCopy
    | with_reducible apply Keeps.adopt
    | with_reducible refine Keeps.fst (by with_reducible assumption) ?_
    | with_reducible refine Keeps.snd (by with_reducible assumption) ?_
    | split
    | with_reducible refine Keeps.upd ?_ rfl rfl rfl

theorem Keeps.recordFailover {σ τ : State} (h : Keeps σ τ) (f d : Nat) (t : Table) : Keeps σ (State.recordFailover τ f d t).2 := by
  unfold State.recordFailover
  extract_lets lost
  clear_value lost
  cases lost
  · exact h
  · simp only [if_true]
    split
    · rename_i e
      exact Keeps.ofSome e (KeepsO.placeArea h _ _ _ _)
    · exact h

theorem Keeps.tableFailover {σ τ : State} (h : Keeps σ τ) (f d : Nat) (t : Table) : Keeps σ (State.tableFailover τ f d t) := by
  unfold State.tableFailover
  try dsimp only
  repeat' first
    | with_reducible assumption
    | with_reducible apply Keeps.modFunc
    | with_reducible apply Keeps.devWrite
    | with_reducible apply Keeps.blockFailover
    | with_reducible apply Keeps.recordFailover
    | with_reducible refine Keeps.foldl ?_ fun _ _ _ => ?_
    | with_reducible refine Keeps.foldlFst ?_ fun _ _ _ => ?_
    | with_reducible refine Keeps.foldlSnd ?_ fun _ _ _ => ?_
    | with_reducible refine Keeps.fst (by with_reducible assumption) ?_
    | with_reducible refine Keeps.snd (by with_reducible assumption) ?_
    | split
    | with_reducible refine Keeps.upd ?_ rfl rfl rfl

theorem Keeps.purgeMoves {σ τ : State} (h : Keeps σ τ) (f : Nat) : Keeps σ (State.purgeMoves τ f) := by
  unfold State.purgeMoves
  try dsimp only
  repeat' first
    | with_reducible assumption
    | with_reducible apply Keeps.modFunc
    | with_reducible refine Keeps.foldl ?_ fun _ _ _ => ?_
    | split
    | with_reducible refine Keeps.upd ?_ rfl rfl rfl

theorem Keeps.cancelMoves {σ τ : State} (h : Keeps σ τ) (f : Nat) : Keeps σ (State.cancelMoves τ f) := by
  unfold State.cancelMoves
  try dsimp only
  repeat' first
    | with_reducible assumption
    | with_reducible apply Keeps.modFunc
    | with_reducible apply Keeps.ownerWrite
    | with_reducible apply Keeps.purgeMoves
    | with_reducible refine Keeps.foldl ?_ fun _ _ _ => ?_
    | split
    | with_reducible refine Keeps.upd ?_ rfl rfl rfl

theorem Keeps.loseChorusMemory {σ τ : State} (h : Keeps σ τ) (f d : Nat) : Keeps σ (State.loseChorusMemory τ f d) := by
  unfold State.loseChorusMemory
  try dsimp only
  repeat' first
    | with_reducible assumption
    | with_reducible apply Keeps.cntMod
    | with_reducible apply Keeps.setPlan
    | with_reducible refine Keeps.foldl ?_ fun _ _ _ => ?_
    | split
    | with_reducible refine Keeps.upd ?_ rfl rfl rfl

theorem Keeps.chorusFailover {σ τ : State} (h : Keeps σ τ) (f d : Nat) : Keeps σ (State.chorusFailover τ f d) := by
  unfold State.chorusFailover
  try dsimp only
  repeat' first
    | with_reducible assumption
    | with_reducible apply Keeps.modChorus
    | with_reducible apply Keeps.askShards
    | with_reducible refine Keeps.foldl ?_ fun _ _ _ => ?_
    | split
    | with_reducible refine Keeps.upd ?_ rfl rfl rfl

theorem Keeps.stepFailover {σ τ : State} (h : Keeps σ τ) (f : Nat) : Keeps σ (State.stepFailover τ f) := by
  unfold State.stepFailover
  try dsimp only
  repeat' first
    | with_reducible assumption
    | with_reducible apply Keeps.modFunc
    | with_reducible apply Keeps.modStep
    | with_reducible apply Keeps.flagStep
    | with_reducible apply Keeps.emptyEngines
    | with_reducible apply Keeps.dropStep
    | with_reducible apply Keeps.dropCombining
    | with_reducible refine Keeps.fst (by with_reducible assumption) ?_
    | with_reducible refine Keeps.snd (by with_reducible assumption) ?_
    | split
    | with_reducible refine Keeps.upd ?_ rfl rfl rfl

theorem Keeps.stopUnits {σ τ : State} (h : Keeps σ τ) (d : Nat) : Keeps σ (State.stopUnits τ d) := by
  unfold State.stopUnits
  try dsimp only
  repeat' first
    | with_reducible assumption
    | with_reducible apply Keeps.modCore
    | with_reducible refine Keeps.foldl ?_ fun _ _ _ => ?_
    | exact fun _ _ => rfl
    | split
    | with_reducible refine Keeps.upd ?_ rfl rfl rfl

theorem Keeps.losePair {σ τ : State} (h : Keeps σ τ) (f d mech : Nat) : Keeps σ (State.losePair τ f d mech) := by
  unfold State.losePair
  try dsimp only
  repeat' first
    | with_reducible assumption
    | with_reducible apply Keeps.modFunc
    | with_reducible apply Keeps.emitTo
    | with_reducible apply Keeps.fault
    | with_reducible apply Keeps.emptyEngines
    | with_reducible apply Keeps.quenchAll
    | with_reducible apply Keeps.countLeaves
    | with_reducible refine Keeps.foldl ?_ fun _ _ _ => ?_
    | with_reducible refine Keeps.foldlFst ?_ fun _ _ _ => ?_
    | with_reducible refine Keeps.foldlSnd ?_ fun _ _ _ => ?_
    | with_reducible refine Keeps.fst (by with_reducible assumption) ?_
    | with_reducible refine Keeps.snd (by with_reducible assumption) ?_
    | split
    | with_reducible refine Keeps.upd ?_ rfl rfl rfl

theorem Keeps.loseFunction {σ τ : State} (h : Keeps σ τ) (f : Nat) : Keeps σ (State.loseFunction τ f) := by
  unfold State.loseFunction
  try dsimp only
  repeat' first
    | with_reducible assumption
    | with_reducible apply Keeps.modFunc
    | with_reducible apply Keeps.single
    | with_reducible apply Keeps.final
    | with_reducible apply Keeps.countLeaves
    | with_reducible refine Keeps.foldl ?_ fun _ _ _ => ?_
    | split
    | with_reducible refine Keeps.upd ?_ rfl rfl rfl

theorem Keeps.dropLinks {σ τ : State} (h : Keeps σ τ) (d : Nat) (partner : Option Nat) : Keeps σ (State.dropLinks τ d partner) := by
  unfold State.dropLinks
  try dsimp only
  repeat' first
    | with_reducible assumption
    | split
    | with_reducible refine Keeps.upd ?_ rfl rfl rfl

theorem Keeps.removeDie {σ τ : State} (h : Keeps σ τ) (d mech : Nat) : Keeps σ (State.removeDie τ d mech) := by
  unfold State.removeDie
  split
  · exact h
  · extract_lets f e s1 s2 w
    have h1 : Keeps σ s1 := h.modDie _ _ fun _ _ => rfl
    have h2 : Keeps σ s2 := by
      refine Keeps.foldl h1 fun _ _ k => ?_
      exact k.modDie _ _ fun _ h => h
    clear_value s2
    have h3 := h2.fault w mech 2 d 5
    generalize s2.fault w mech 2 d 5 = p at h3 ⊢
    obtain ⟨s3, q⟩ := p
    dsimp -zeta only at h3 ⊢
    extract_lets s4 s5 s7 s8 s9 s10 sd s11 s12 s13 m s14
    have h4 : Keeps σ s4 := ((Keeps.emitTo h3 _ _ _ _ _ _).cntDie _ _ _).cntDie _ _ _
    clear_value s4
    have h5 : Keeps σ s5 := Keeps.foldl h4 fun _ _ k => k.stopPort _ _
    clear_value s5
    have h7 : Keeps σ s7 := (h5.stopUnits _).emitTo _ _ _ _ _ _
    clear_value s7
    have h8 : Keeps σ s8 := Keeps.ite (h7.loseSecurity _) h7
    clear_value s8
    have h9 : Keeps σ s9 := h8.actPrune
    clear_value s9
    split
    · exact ((h9.dropLinks _ _).loseMemory _).loseFunction _
    · have h10 : Keeps σ s10 := by
        refine Keeps.cancelMoves (Keeps.foldl h9 fun _ _ k => ?_) _
        exact k.modDie _ _ fun _ h => h
      clear_value s10
      have hd : Keeps σ sd := h10.dropLinks _ _
      clear_value sd
      split
      · exact (hd.loseMemory _).losePair _ _ _
      · have h11 : Keeps σ s11 := (hd.stepFailover _).chorusFailover _ _
        clear_value s11
        have h12 : Keeps σ s12 := Keeps.foldl h11 fun _ _ k => k.tableFailover _ _ _
        clear_value s12
        have h13 : Keeps σ s13 := (h12.loseChorusMemory _ _).loseMemory _
        clear_value s13
        have h14 : Keeps σ s14 := Keeps.ite (h13.modDie _ _ fun _ h => h) h13
        clear_value s14
        split
        · split
          · exact h14
          · exact Keeps.foldl h14 fun _ _ k => Keeps.foldl k fun _ _ k => k.restartCombine _ _ _ _
        · exact h14

theorem Keeps.linkFail {σ τ : State} (h : Keeps σ τ) (port : Nat) : Keeps σ (State.linkFail τ port) := by
  unfold State.linkFail
  repeat' first
    | with_reducible assumption
    | with_reducible apply Keeps.removeDie

theorem Keeps.linkRetrain {σ τ : State} (h : Keeps σ τ) (port : Nat) : Keeps σ (State.linkRetrain τ port) := by
  unfold State.linkRetrain
  try dsimp only
  repeat' first
    | with_reducible assumption
    | with_reducible apply Keeps.note
    | with_reducible apply Keeps.linkFail
    | with_reducible refine Keeps.fst (by with_reducible assumption) ?_
    | with_reducible refine Keeps.snd (by with_reducible assumption) ?_
    | split
    | with_reducible refine Keeps.upd ?_ rfl rfl rfl

theorem Keeps.rerunItem {σ τ : State} (h : Keeps σ τ) (u : EngineUnit) : Keeps σ (State.rerunItem τ u) := by
  cases u <;> unfold State.rerunItem <;> dsimp only
  all_goals
    repeat' first
      | with_reducible assumption
      | with_reducible apply Keeps.rerun
      | with_reducible apply Keeps.refillSpe
      | with_reducible apply Keeps.flagStep
      | with_reducible apply Keeps.cntCore
      | split

theorem Keeps.escalate {σ τ : State} (h : Keeps σ τ) (p : Proc) : Keeps σ (State.escalate τ p) := by
  unfold State.escalate
  try dsimp only
  repeat' first
    | with_reducible assumption
    | with_reducible apply Keeps.cntDie
    | with_reducible apply Keeps.disableCluster
    | with_reducible apply Keeps.actPrune
    | with_reducible apply Keeps.loseSecurity
    | with_reducible apply Keeps.removeDie
    | split
    | with_reducible refine Keeps.upd ?_ rfl rfl rfl

theorem Keeps.modAxl {σ τ : State} (h : Keeps σ τ) (d : Nat) (h : Axolotl → Axolotl) : Keeps σ (State.modAxl τ d h) := by
  unfold State.modAxl
  try dsimp only
  repeat' first
    | with_reducible assumption
    | with_reducible apply Keeps.modDie
    | exact fun _ h => h
    | exact fun _ _ => rfl
    | (refine fun _ h => ?_; split <;> exact h)
    | with_reducible refine Keeps.upd ?_ rfl rfl rfl

theorem Keeps.geckoParity {σ τ : State} (h : Keeps σ τ) (d key : Nat) : Keeps σ (State.geckoParity τ d key) := by
  unfold State.geckoParity
  try dsimp only
  repeat' first
    | with_reducible assumption
    | with_reducible apply Keeps.cntDie
    | with_reducible apply Keeps.note
    | with_reducible apply Keeps.modGecko
    | with_reducible apply Keeps.restartCombine
    | with_reducible refine Keeps.foldl ?_ fun _ _ _ => ?_
    | split
    | with_reducible refine Keeps.upd ?_ rfl rfl rfl

theorem Keeps.monitorScope {σ τ : State} (h : Keeps σ τ) (d n : Nat) : Keeps σ (State.monitorScope τ d n) := by
  unfold State.monitorScope
  repeat' first
    | with_reducible assumption
    | with_reducible apply Keeps.retireCore
    | with_reducible apply Keeps.disableCluster
    | with_reducible apply Keeps.removeDie
    | split

theorem Keeps.testFailed {σ τ : State} (h : Keeps σ τ) (r : Resource) (which : List Nat) : Keeps σ (State.testFailed τ r which) := by
  unfold State.testFailed
  try dsimp only
  repeat' first
    | with_reducible assumption
    | with_reducible apply Keeps.cntDie
    | with_reducible apply Keeps.note
    | with_reducible apply Keeps.cntClu
    | with_reducible apply Keeps.retireCore
    | with_reducible apply Keeps.disableCluster
    | with_reducible apply Keeps.thirdUe
    | with_reducible apply Keeps.testDecisions
    | with_reducible apply Keeps.portFault
    | with_reducible apply Keeps.askRetrain
    | with_reducible apply Keeps.loseSecurity
    | with_reducible apply Keeps.linkRetrain
    | with_reducible apply Keeps.geckoParity
    | with_reducible apply Keeps.monitorScope
    | with_reducible refine Keeps.foldl ?_ fun _ _ _ => ?_
    | with_reducible refine Keeps.foldlFst ?_ fun _ _ _ => ?_
    | with_reducible refine Keeps.foldlSnd ?_ fun _ _ _ => ?_
    | with_reducible refine Keeps.fst (by with_reducible assumption) ?_
    | with_reducible refine Keeps.snd (by with_reducible assumption) ?_
    | split
    | with_reducible refine Keeps.upd ?_ rfl rfl rfl

theorem Keeps.marginTest {σ τ : State} (h : Keeps σ τ) (i : Nat) (cols : List Nat) : Keeps σ (State.marginTest τ i cols) := by
  unfold State.marginTest
  try dsimp only
  repeat' first
    | with_reducible assumption
    | with_reducible apply Keeps.cntDie
    | with_reducible apply Keeps.bypass
    | with_reducible apply Keeps.modAxl
    | with_reducible refine Keeps.foldl ?_ fun _ _ _ => ?_
    | with_reducible refine Keeps.fst (by with_reducible assumption) ?_
    | with_reducible refine Keeps.snd (by with_reducible assumption) ?_
    | split
    | with_reducible refine Keeps.upd ?_ rfl rfl rfl

theorem Keeps.backgroundTest {σ τ : State} (h : Keeps σ τ) (r : Resource) (pass : Bool) (which : List Nat) : Keeps σ (State.backgroundTest τ r pass which) := by
  unfold State.backgroundTest
  try dsimp only
  repeat' first
    | with_reducible assumption
    | with_reducible apply Keeps.modDie
    | with_reducible apply Keeps.cntDie
    | with_reducible apply Keeps.modMxe
    | with_reducible apply Keeps.testFailed
    | with_reducible apply Keeps.marginTest
    | exact fun _ h => h
    | exact fun _ _ => rfl
    | (refine fun _ h => ?_; split <;> exact h)
    | with_reducible refine Keeps.fst (by with_reducible assumption) ?_
    | with_reducible refine Keeps.snd (by with_reducible assumption) ?_
    | split
    | with_reducible refine Keeps.upd ?_ rfl rfl rfl

theorem Keeps.formPlan {σ τ : State} (h : Keeps σ τ) (d : Nat) : Keeps σ (State.formPlan τ d) := by
  unfold State.formPlan
  try dsimp only
  repeat' first
    | with_reducible assumption
    | with_reducible apply Keeps.emit
    | with_reducible apply Keeps.cntDie
    | with_reducible apply Keeps.modAxl
    | with_reducible refine Keeps.foldl ?_ fun _ _ _ => ?_
    | with_reducible refine Keeps.fst (by with_reducible assumption) ?_
    | with_reducible refine Keeps.snd (by with_reducible assumption) ?_
    | split
    | with_reducible refine Keeps.upd ?_ rfl rfl rfl

theorem Keeps.planTests {σ τ : State} (h : Keeps σ τ) (d : Nat) (marginal : List (Nat × List Nat)) : Keeps σ (State.planTests τ d marginal) :=
  Keeps.foldl h fun _ _ k => k.backgroundTest _ _ _

theorem Keeps.of_axlReplan' {σ τ : State} (h : Keeps σ τ) (c : Submission) : Keeps σ (axlReplan' c τ) := by
  unfold axlReplan'
  repeat' first
    | with_reducible assumption
    | with_reducible apply Keeps.okJ
    | with_reducible apply Keeps.formPlan
    | with_reducible refine Keeps.foldl ?_ fun _ _ _ => ?_
    | split

theorem Keeps.of_pwrCap' {σ τ : State} (h : Keeps σ τ) (c : Submission) : Keeps σ (pwrCap' c τ) := by
  unfold pwrCap'
  try dsimp only
  repeat' first
    | with_reducible assumption
    | with_reducible apply Keeps.modPower
    | with_reducible apply Keeps.single
    | with_reducible apply Keeps.okJ
    | with_reducible refine Keeps.foldl ?_ fun _ _ _ => ?_
    | split
    | with_reducible refine Keeps.upd ?_ rfl rfl rfl

theorem Keeps.settleMode {σ τ : State} (h : Keeps σ τ) (f : Nat) : Keeps σ (State.settleMode τ f) := by
  unfold State.settleMode
  try dsimp only
  repeat' first
    | with_reducible assumption
    | with_reducible apply Keeps.modFunc
    | with_reducible apply Keeps.single
    | with_reducible refine Keeps.fst (by with_reducible assumption) ?_
    | with_reducible refine Keeps.snd (by with_reducible assumption) ?_
    | split
    | with_reducible refine Keeps.upd ?_ rfl rfl rfl

theorem Keeps.of_pwrMode' {σ τ : State} (h : Keeps σ τ) (c : Submission) : Keeps σ (pwrMode' c τ) := by
  unfold pwrMode'
  try dsimp only
  repeat' first
    | with_reducible assumption
    | with_reducible apply Keeps.modFunc
    | with_reducible apply Keeps.modPower
    | with_reducible apply Keeps.single
    | with_reducible apply Keeps.journalCmd
    | with_reducible apply Keeps.settleMode
    | with_reducible refine Keeps.foldl ?_ fun _ _ _ => ?_
    | with_reducible refine Keeps.foldlFst ?_ fun _ _ _ => ?_
    | with_reducible refine Keeps.foldlSnd ?_ fun _ _ _ => ?_
    | with_reducible refine Keeps.fst (by with_reducible assumption) ?_
    | with_reducible refine Keeps.snd (by with_reducible assumption) ?_
    | split
    | with_reducible refine Keeps.upd ?_ rfl rfl rfl

theorem Keeps.stretch {σ τ : State} (h : Keeps σ τ) (d : Nat) : Keeps σ (State.stretch τ d) := by
  unfold State.stretch
  try dsimp only
  repeat' first
    | with_reducible assumption
    | with_reducible apply Keeps.modClu
    | with_reducible refine Keeps.foldl ?_ fun _ _ _ => ?_
    | with_reducible refine Keeps.fst (by with_reducible assumption) ?_
    | with_reducible refine Keeps.snd (by with_reducible assumption) ?_
    | split
    | with_reducible refine Keeps.upd ?_ rfl rfl rfl

theorem Keeps.limitInput {σ τ : State} (h : Keeps σ τ) : Keeps σ (State.limitInput τ) := by
  unfold State.limitInput
  try dsimp only
  repeat' first
    | with_reducible assumption
    | with_reducible apply Keeps.modPower
    | with_reducible apply Keeps.stretch
    | with_reducible refine Keeps.foldl ?_ fun _ _ _ => ?_
    | split
    | with_reducible refine Keeps.upd ?_ rfl rfl rfl

theorem Keeps.diePeriod {σ τ : State} (h : Keeps σ τ) (d : Nat) (L : Option Nat) (below : Bool) : Keeps σ (State.diePeriod τ d L below) := by
  unfold State.diePeriod
  try dsimp only
  repeat' first
    | with_reducible assumption
    | with_reducible apply Keeps.cntDie
    | with_reducible apply Keeps.modPower
    | split

theorem Keeps.tableLine {σ τ : State} (h : Keeps σ τ) (l : Nat) (x : SlotLine) : Keeps σ (State.tableLine τ l x) := by
  unfold State.tableLine
  try dsimp only
  repeat' first
    | with_reducible assumption
    | with_reducible apply Keeps.modFunc
    | with_reducible apply Keeps.poke
    | with_reducible apply Keeps.cntDie
    | split
    | with_reducible refine Keeps.upd ?_ rfl rfl rfl

theorem Keeps.resendHeld {σ τ : State} (h : Keeps σ τ) (f l : Nat) (t : Table) (b : OwnerBlock) : Keeps σ (State.resendHeld τ f l t b) := by
  unfold State.resendHeld
  repeat' first
    | with_reducible assumption
    | with_reducible apply Keeps.poke
    | with_reducible apply Keeps.restartCombine
    | with_reducible refine Keeps.foldl ?_ fun _ _ _ => ?_
    | split

theorem Keeps.lineMet {σ τ : State} (h : Keeps σ τ) (l : Nat) : Keeps σ (State.lineMet τ l).1 := by
  unfold State.lineMet
  try dsimp only
  repeat' first
    | with_reducible assumption
    | with_reducible apply Keeps.twinLine
    | with_reducible apply Keeps.hostLine
    | with_reducible apply Keeps.tableLine
    | with_reducible apply Keeps.resendHeld
    | with_reducible refine Keeps.fst (by with_reducible assumption) ?_
    | with_reducible refine Keeps.snd (by with_reducible assumption) ?_
    | split
    | with_reducible refine Keeps.upd ?_ rfl rfl rfl

theorem Keeps.uncorrectable {σ τ : State} (h : Keeps σ τ) (d l : Nat) : Keeps σ (State.uncorrectable τ d l) := by
  unfold State.uncorrectable
  try dsimp only
  repeat' first
    | with_reducible assumption
    | with_reducible apply Keeps.modDie
    | with_reducible apply Keeps.cntDie
    | with_reducible apply Keeps.note
    | with_reducible apply Keeps.thirdUe
    | with_reducible apply Keeps.lineMet
    | exact fun _ h => h
    | exact fun _ _ => rfl
    | (refine fun _ h => ?_; split <;> exact h)
    | with_reducible refine Keeps.fst (by with_reducible assumption) ?_
    | with_reducible refine Keeps.snd (by with_reducible assumption) ?_
    | split
    | with_reducible refine Keeps.upd ?_ rfl rfl rfl

theorem Keeps.lineRead {σ τ : State} (h : Keeps σ τ) (x : EccLine) : Keeps σ (State.lineRead τ x) := by
  unfold State.lineRead
  try dsimp only
  repeat' first
    | with_reducible assumption
    | with_reducible apply Keeps.cntDie
    | with_reducible apply Keeps.uncorrectable
    | split
    | with_reducible refine Keeps.upd ?_ rfl rfl rfl

theorem Keeps.eccMet {σ τ : State} (h : Keeps σ τ) (ls : List EccLine) : Keeps σ (State.eccMet τ ls) := by
  unfold State.eccMet
  repeat' first
    | with_reducible assumption
    | with_reducible apply Keeps.lineRead
    | with_reducible refine Keeps.foldl ?_ fun _ _ _ => ?_
    | split

theorem Keeps.checkedRead {σ τ : State} (h : Keeps σ τ) (k n : Nat) : Keeps σ (State.checkedRead τ k n).2 := by
  unfold State.checkedRead
  try dsimp only
  repeat' first
    | with_reducible assumption
    | with_reducible apply Keeps.lineMet
    | with_reducible refine Keeps.foldl ?_ fun _ _ _ => ?_
    | with_reducible refine Keeps.fst (by with_reducible assumption) ?_
    | with_reducible refine Keeps.snd (by with_reducible assumption) ?_
    | split

theorem Keeps.setIlvPending {σ τ : State} (h : Keeps σ τ) (d v : Nat) : Keeps σ (State.setIlvPending τ d v) := by
  unfold State.setIlvPending
  try dsimp only
  repeat' first
    | with_reducible assumption
    | with_reducible refine Keeps.upd ?_ rfl rfl rfl

theorem Keeps.setHostres {σ τ : State} (h : Keeps σ τ) (d v : Nat) : Keeps σ (State.setHostres τ d v) := by
  unfold State.setHostres
  try dsimp only
  repeat' first
    | with_reducible assumption
    | with_reducible apply Keeps.modDie
    | with_reducible refine Keeps.foldl ?_ fun _ _ _ => ?_
    | exact fun _ h => h
    | exact fun _ _ => rfl
    | (refine fun _ h => ?_; split <;> exact h)
    | with_reducible refine Keeps.fst (by with_reducible assumption) ?_
    | with_reducible refine Keeps.snd (by with_reducible assumption) ?_
    | split
    | with_reducible refine Keeps.upd ?_ rfl rfl rfl

theorem Keeps.setGrant {σ τ : State} (h : Keeps σ τ) (f v : Nat) : Keeps σ (State.setGrant τ f v) := by
  unfold State.setGrant
  try dsimp only
  repeat' first
    | with_reducible assumption
    | with_reducible apply Keeps.modFunc
    | split
    | with_reducible refine Keeps.upd ?_ rfl rfl rfl

theorem Keeps.grant {σ τ : State} (h : Keeps σ τ) (f peer n : Nat) : Keeps σ (State.grant τ f peer n).1 := by
  induction n with
  | zero => exact h
  | succ n ih =>
    unfold State.grant
    dsimp only
    repeat' first
      | with_reducible assumption
      | with_reducible apply Keeps.modFunc
      | split

theorem Keeps.modAperture {σ τ : State} (h : Keeps σ τ) (f a : Nat) (h : Aperture → Aperture) : Keeps σ (State.modAperture τ f a h) := by
  unfold State.modAperture
  try dsimp only
  repeat' first
    | with_reducible assumption
    | with_reducible apply Keeps.modFunc
    | split
    | with_reducible refine Keeps.upd ?_ rfl rfl rfl

theorem Keeps.rowAnswered {σ τ : State} (h : Keeps σ τ) (f : Nat) (p : PeerAccess) (data : List Byte) : Keeps σ (State.rowAnswered τ f p data) := by
  unfold State.rowAnswered
  try dsimp only
  repeat' first
    | with_reducible assumption
    | with_reducible apply Keeps.modFunc
    | with_reducible apply Keeps.retryRequests
    | with_reducible apply Keeps.releaseWrites
    | with_reducible apply Keeps.tryU
    | with_reducible apply Keeps.workBack
    | split
    | with_reducible refine Keeps.upd ?_ rfl rfl rfl

theorem Keeps.apImage {σ τ : State} (h : Keeps σ τ) (f aperture base : Nat) (p : PeerAccess) (rest : List PeerAccess) (b : List Byte) : Keeps σ (State.apImage τ f aperture base p rest b) := by
  unfold State.apImage
  try dsimp only
  repeat' first
    | with_reducible assumption
    | with_reducible apply Keeps.put'
    | with_reducible refine Keeps.foldl ?_ fun _ _ _ => ?_
    | split

theorem Keeps.locked {σ τ : State} (h : Keeps σ τ) (f : Nat) (a b : Bool) (k : State → State) (hk : ∀ u, Keeps σ u → Keeps σ (k u)) :
    Keeps σ (State.locked τ f a b k) := by
  unfold State.locked
  repeat' first
    | with_reducible assumption
    | exact hk _ h
    | with_reducible apply Keeps.violLock
    | with_reducible apply Keeps.violOor
    | split

theorem Keeps.writeQcfg {σ τ : State} (h : Keeps σ τ) (f v : Nat) : Keeps σ (State.writeQcfg τ f v) := by
  unfold State.writeQcfg
  try dsimp only
  repeat' first
    | with_reducible assumption
    | with_reducible apply Keeps.modQueue
    | with_reducible apply Keeps.settleQueue
    | with_reducible refine Keeps.locked ?_ _ _ _ _ fun _ _ => ?_
    | split
    | with_reducible refine Keeps.upd ?_ rfl rfl rfl

theorem Keeps.writeNotecfg {σ τ : State} (h : Keeps σ τ) (f v : Nat) : Keeps σ (State.writeNotecfg τ f v) := by
  unfold State.writeNotecfg
  try dsimp only
  repeat' first
    | with_reducible assumption
    | with_reducible apply Keeps.modFunc
    | with_reducible apply Keeps.flushNotes
    | with_reducible apply Keeps.note
    | split
    | with_reducible refine Keeps.upd ?_ rfl rfl rfl

theorem Keeps.regStore_mod {σ τ : State} (h : Keeps σ τ) (f : Nat) (o v : Nat) : Keeps σ (State.regStore τ f (.mod) o v) := by
  unfold State.regStore
  dsimp only
  repeat' first
    | with_reducible assumption
    | split
    | with_reducible refine Keeps.upd ?_ rfl rfl rfl

theorem Keeps.regStore_mem {σ τ : State} (h : Keeps σ τ) (f : Nat) (o v : Nat) : Keeps σ (State.regStore τ f (.mem) o v) := by
  unfold State.regStore
  dsimp only
  repeat' first
    | with_reducible assumption
    | with_reducible apply Keeps.setGrant
    | with_reducible apply Keeps.modFunc
    | split
    | with_reducible refine Keeps.upd ?_ rfl rfl rfl

theorem Keeps.regStore_cho {σ τ : State} (h : Keeps σ τ) (f : Nat) (o v : Nat) : Keeps σ (State.regStore τ f (.cho) o v) := by
  unfold State.regStore
  dsimp only
  repeat' first
    | with_reducible assumption
    | with_reducible apply Keeps.modFunc
    | split

theorem Keeps.regStore_chn {σ τ : State} (h : Keeps σ τ) (f : Nat) (o v : Nat) : Keeps σ (State.regStore τ f (.chn) o v) := by
  unfold State.regStore
  dsimp only
  repeat' first
    | with_reducible assumption
    | with_reducible apply Keeps.dropNormsOf
    | with_reducible apply Keeps.modFunc
    | split

theorem Keeps.regStore_zcp {σ τ : State} (h : Keeps σ τ) (f : Nat) (o v : Nat) : Keeps σ (State.regStore τ f (.zcp) o v) := by
  unfold State.regStore
  dsimp only
  repeat' first
    | with_reducible assumption
    | with_reducible refine Keeps.locked ?_ _ _ _ _ fun _ _ => ?_
    | with_reducible apply Keeps.modQueue
    | with_reducible apply Keeps.writeQcfg
    | with_reducible apply Keeps.modFunc
    | split

theorem Keeps.regStore_jrn {σ τ : State} (h : Keeps σ τ) (f : Nat) (o v : Nat) : Keeps σ (State.regStore τ f (.jrn) o v) := by
  unfold State.regStore
  dsimp only
  repeat' first
    | with_reducible assumption
    | split
    | with_reducible refine Keeps.updJournal ?_ (Nat.le_refl _)
    | with_reducible refine Keeps.upd ?_ rfl rfl rfl

theorem Keeps.regStore_cnt {σ τ : State} (h : Keeps σ τ) (f : Nat) (o v : Nat) : Keeps σ (State.regStore τ f (.cnt) o v) := by
  unfold State.regStore
  dsimp only
  repeat' first
    | with_reducible assumption
    | with_reducible apply Keeps.writeNotecfg
    | with_reducible apply Keeps.modFunc
    | split

theorem Keeps.regStore_sec {σ τ : State} (h : Keeps σ τ) (f : Nat) (o v : Nat) : Keeps σ (State.regStore τ f (.sec) o v) := by
  unfold State.regStore
  dsimp only
  repeat' first
    | with_reducible assumption

theorem Keeps.regStore_door {σ τ : State} (h : Keeps σ τ) (f : Nat) (q : Nat) (o v : Nat) : Keeps σ (State.regStore τ f (.door q) o v) := by
  unfold State.regStore
  dsimp only
  repeat' first
    | with_reducible assumption
    | with_reducible apply Keeps.sqDoorbell
    | with_reducible apply Keeps.cqDoorbell
    | split

theorem Keeps.regStore_die {σ τ : State} (h : Keeps σ τ) (f : Nat) (d : Nat) (o v : Nat) : Keeps σ (State.regStore τ f (.die d) o v) := by
  unfold State.regStore
  dsimp only
  repeat' first
    | with_reducible assumption

theorem Keeps.regStore_gko {σ τ : State} (h : Keeps σ τ) (f : Nat) (d : Nat) (o v : Nat) : Keeps σ (State.regStore τ f (.gko d) o v) := by
  unfold State.regStore
  dsimp only
  repeat' first
    | with_reducible assumption
    | with_reducible refine Keeps.locked ?_ _ _ _ _ fun _ _ => ?_
    | with_reducible apply Keeps.modGecko
    | with_reducible apply Keeps.gkFlush
    | split

theorem Keeps.regStore_pwr {σ τ : State} (h : Keeps σ τ) (f : Nat) (d : Nat) (o v : Nat) : Keeps σ (State.regStore τ f (.pwr d) o v) := by
  unfold State.regStore
  dsimp only
  repeat' first
    | with_reducible assumption
    | with_reducible apply Keeps.modPower
    | split

theorem Keeps.regStore_drn {σ τ : State} (h : Keeps σ τ) (f : Nat) (d : Nat) (o v : Nat) : Keeps σ (State.regStore τ f (.drn d) o v) := by
  unfold State.regStore
  dsimp only
  repeat' first
    | with_reducible assumption
    | with_reducible refine Keeps.modDie ?_ _ _ fun _ h => h
    | split

theorem Keeps.regStore_axl {σ τ : State} (h : Keeps σ τ) (f : Nat) (d : Nat) (o v : Nat) : Keeps σ (State.regStore τ f (.axl d) o v) := by
  unfold State.regStore
  dsimp only
  repeat' first
    | with_reducible assumption
    | with_reducible apply Keeps.modAxl
    | split
    | with_reducible refine Keeps.upd ?_ rfl rfl rfl

theorem Keeps.regStore_saf {σ τ : State} (h : Keeps σ τ) (f : Nat) (d : Nat) (o v : Nat) : Keeps σ (State.regStore τ f (.saf d) o v) := by
  unfold State.regStore
  dsimp only
  repeat' first
    | with_reducible assumption

theorem Keeps.regStore_memDie {σ τ : State} (h : Keeps σ τ) (f : Nat) (d : Nat) (o v : Nat) : Keeps σ (State.regStore τ f (.memDie d) o v) := by
  unfold State.regStore
  dsimp only
  repeat' first
    | with_reducible assumption
    | with_reducible apply Keeps.setIlvPending
    | with_reducible apply Keeps.setHostres
    | split

theorem Keeps.regStore_fab {σ τ : State} (h : Keeps σ τ) (f : Nat) (p : Nat) (o v : Nat) : Keeps σ (State.regStore τ f (.fab p) o v) := by
  unfold State.regStore
  dsimp only
  repeat' first
    | with_reducible assumption
    | with_reducible apply Keeps.setPortEn
    | with_reducible apply Keeps.askRetrain
    | with_reducible apply Keeps.modFunc
    | with_reducible apply Keeps.sendHeld
    | split

theorem Keeps.regStore_clu {σ τ : State} (h : Keeps σ τ) (f : Nat) (d c : Nat) (o v : Nat) : Keeps σ (State.regStore τ f (.clu d c) o v) := by
  unfold State.regStore
  dsimp only
  repeat' first
    | with_reducible assumption

theorem Keeps.regStore_skk {σ τ : State} (h : Keeps σ τ) (f : Nat) (d c : Nat) (o v : Nat) : Keeps σ (State.regStore τ f (.skk d c) o v) := by
  unfold State.regStore
  dsimp only
  repeat' first
    | with_reducible assumption

theorem Keeps.regStore_blw {σ τ : State} (h : Keeps σ τ) (f : Nat) (d c : Nat) (o v : Nat) : Keeps σ (State.regStore τ f (.blw d c) o v) := by
  unfold State.regStore
  dsimp only
  repeat' first
    | with_reducible assumption
    | with_reducible refine Keeps.locked ?_ _ _ _ _ fun _ _ => ?_
    | with_reducible apply Keeps.modClu
    | split

theorem Keeps.regStore_cor {σ τ : State} (h : Keeps σ τ) (f : Nat) (i : Nat) (o v : Nat) : Keeps σ (State.regStore τ f (.cor i) o v) := by
  unfold State.regStore
  dsimp only
  repeat' first
    | with_reducible assumption

theorem Keeps.regStore_mxe {σ τ : State} (h : Keeps σ τ) (f : Nat) (i : Nat) (o v : Nat) : Keeps σ (State.regStore τ f (.mxe i) o v) := by
  unfold State.regStore
  dsimp only
  repeat' first
    | with_reducible assumption
    | with_reducible refine Keeps.locked ?_ _ _ _ _ fun _ _ => ?_
    | with_reducible apply Keeps.modMxe
    | with_reducible apply Keeps.startSelftest
    | split

theorem Keeps.regStore_spe {σ τ : State} (h : Keeps σ τ) (f : Nat) (i : Nat) (o v : Nat) : Keeps σ (State.regStore τ f (.spe i) o v) := by
  unfold State.regStore
  dsimp only
  repeat' first
    | with_reducible assumption
    | with_reducible refine Keeps.locked ?_ _ _ _ _ fun _ _ => ?_
    | with_reducible apply Keeps.modSpe
    | split

theorem Keeps.regStore_vec {σ τ : State} (h : Keeps σ τ) (f : Nat) (i : Nat) (o v : Nat) : Keeps σ (State.regStore τ f (.vec i) o v) := by
  unfold State.regStore
  dsimp only
  repeat' first
    | with_reducible assumption

theorem Keeps.regStore {σ τ : State} (h : Keeps σ τ) (f : Nat) (b : RegBlk) (o v : Nat) : Keeps σ (State.regStore τ f b o v) := by
  cases b with
  | mod => exact h.regStore_mod f o v
  | mem => exact h.regStore_mem f o v
  | cho => exact h.regStore_cho f o v
  | chn => exact h.regStore_chn f o v
  | zcp => exact h.regStore_zcp f o v
  | jrn => exact h.regStore_jrn f o v
  | cnt => exact h.regStore_cnt f o v
  | sec => exact h.regStore_sec f o v
  | door q => exact h.regStore_door f q o v
  | die d => exact h.regStore_die f d o v
  | gko d => exact h.regStore_gko f d o v
  | pwr d => exact h.regStore_pwr f d o v
  | drn d => exact h.regStore_drn f d o v
  | axl d => exact h.regStore_axl f d o v
  | saf d => exact h.regStore_saf f d o v
  | memDie d => exact h.regStore_memDie f d o v
  | fab p => exact h.regStore_fab f p o v
  | clu d c => exact h.regStore_clu f d c o v
  | skk d c => exact h.regStore_skk f d c o v
  | blw d c => exact h.regStore_blw f d c o v
  | cor i => exact h.regStore_cor f i o v
  | mxe i => exact h.regStore_mxe f i o v
  | spe i => exact h.regStore_spe f i o v
  | vec i => exact h.regStore_vec f i o v

theorem Keeps.regPut {σ τ : State} (h : Keeps σ τ) (f src off size v : Nat) : Keeps σ (State.regPut τ f src off size v) := by
  unfold State.regPut
  try dsimp only
  repeat' first
    | with_reducible assumption
    | with_reducible apply Keeps.violOor
    | with_reducible apply Keeps.journalize
    | with_reducible apply Keeps.measureConfig
    | with_reducible apply Keeps.regStore
    | with_reducible refine Keeps.fst (by with_reducible assumption) ?_
    | with_reducible refine Keeps.snd (by with_reducible assumption) ?_
    | split
    | with_reducible refine Keeps.upd ?_ rfl rfl rfl

theorem Keeps.heldWrites {σ τ : State} (h : Keeps σ τ) : Keeps σ (State.heldWrites τ) := by
  unfold State.heldWrites
  try dsimp only
  repeat' first
    | with_reducible assumption
    | with_reducible apply Keeps.regPut
    | with_reducible refine Keeps.foldl ?_ fun _ _ _ => ?_
    | split
    | with_reducible refine Keeps.upd ?_ rfl rfl rfl

theorem Keeps.regWrite {σ τ : State} (h : Keeps σ τ) (f src off size v : Nat) : Keeps σ (State.regWrite τ f src off size v) := by
  unfold State.regWrite
  try dsimp only
  repeat' first
    | with_reducible assumption
    | with_reducible apply Keeps.regPut
    | with_reducible apply Keeps.heldWrites
    | with_reducible refine Keeps.fst (by with_reducible assumption) ?_
    | with_reducible refine Keeps.snd (by with_reducible assumption) ?_
    | split
    | with_reducible refine Keeps.upd ?_ rfl rfl rfl

theorem Keeps.regRead {σ τ : State} (h : Keeps σ τ) (f off size : Nat) : Keeps σ (State.regRead τ f off size).2 := by
  unfold State.regRead
  try dsimp only
  repeat' first
    | with_reducible assumption
    | with_reducible apply Keeps.violOor
    | with_reducible apply Keeps.ctrClear
    | with_reducible apply Keeps.modVec
    | with_reducible refine Keeps.fst (by with_reducible assumption) ?_
    | with_reducible refine Keeps.snd (by with_reducible assumption) ?_
    | split
    | with_reducible refine Keeps.upd ?_ rfl rfl rfl

theorem Keeps.resumeProc {σ τ : State} (h : Keeps σ τ) (p : Proc) : Keeps σ (State.resumeProc τ p) := by
  unfold State.resumeProc
  try dsimp only
  repeat' first
    | with_reducible assumption
    | with_reducible apply Keeps.sendRequests
    | with_reducible apply Keeps.fillQueues
    | with_reducible apply Keeps.sparseStart
    | with_reducible apply Keeps.startJobs
    | with_reducible apply Keeps.startSteps
    | with_reducible apply Keeps.actDeadline
    | with_reducible apply Keeps.heldTokens
    | with_reducible apply Keeps.heldWrites
    | with_reducible refine Keeps.foldl ?_ fun _ _ _ => ?_
    | split
    | with_reducible refine Keeps.upd ?_ rfl rfl rfl

theorem Keeps.hostReg {σ τ : State} (h : Keeps σ τ) (f off : Nat) (v : Word) : Keeps σ (State.hostReg τ f off v) := by
  unfold State.hostReg
  repeat' first
    | with_reducible assumption
    | with_reducible apply Keeps.regWrite
    | split

theorem Keeps.hostRead {σ τ : State} (h : Keeps σ τ) (f off : Nat) : Keeps σ (State.hostRead τ f off) := by
  unfold State.hostRead
  try dsimp only
  repeat' first
    | with_reducible assumption
    | with_reducible apply Keeps.put
    | with_reducible apply Keeps.regRead
    | with_reducible refine Keeps.fst (by with_reducible assumption) ?_
    | with_reducible refine Keeps.snd (by with_reducible assumption) ?_
    | split

theorem Keeps.setMeas {σ τ : State} (h : Keeps σ τ) (i : Nat) (d : List Byte) : Keeps σ (State.setMeas τ i d) := by
  unfold State.setMeas
  try dsimp only
  repeat' first
    | with_reducible assumption
    | with_reducible refine Keeps.upd ?_ rfl rfl rfl

theorem Keeps.measureBlock {σ τ : State} (h : Keeps σ τ) : Keeps σ (State.measureBlock τ) := by
  unfold State.measureBlock
  repeat' first
    | with_reducible assumption
    | with_reducible apply Keeps.setMeas

theorem Keeps.configWrite {σ τ : State} (h : Keeps σ τ) (f : Nat) (i : ConfigItem) (v : Nat) : Keeps σ (State.configWrite τ f i v) := by
  unfold State.configWrite
  try dsimp only
  repeat' first
    | with_reducible assumption
    | split
    | with_reducible refine Keeps.upd ?_ rfl rfl rfl

theorem Keeps.mctp {σ τ : State} (h : Keeps σ τ) (b : List Byte) : Keeps σ (State.mctp τ b) := by
  unfold State.mctp
  repeat' first
    | with_reducible assumption
    | with_reducible apply Keeps.put

theorem Keeps.vendor {σ τ : State} (h : Keeps σ τ) (f : Nat) (k : State → State) (hk : ∀ u, Keeps σ u → Keeps σ (k u)) :
    Keeps σ (State.vendor τ f k) := by
  unfold State.vendor
  repeat' first
    | with_reducible assumption
    | exact hk _ h
    | with_reducible apply Keeps.mctp
    | split

theorem Keeps.tap {σ τ : State} (h : Keeps σ τ) (code : Nat) (out : List Bool) : Keeps σ (State.tap τ code out) := by
  unfold State.tap
  try dsimp only
  repeat' first
    | with_reducible assumption
    | with_reducible apply Keeps.put
    | with_reducible refine Keeps.upd ?_ rfl rfl rfl

theorem Keeps.undriven {σ τ : State} (h : Keeps σ τ) : Keeps σ (State.undriven τ) := by
  unfold State.undriven
  try dsimp only
  repeat' first
    | with_reducible assumption
    | with_reducible refine Keeps.upd ?_ rfl rfl rfl

theorem Keeps.actsBypass {σ τ : State} (h : Keeps σ τ) (code : Nat) : Keeps σ (State.actsBypass τ code) := by
  unfold State.actsBypass
  repeat' first
    | with_reducible assumption
    | with_reducible apply Keeps.tap
    | with_reducible apply Keeps.undriven

theorem Keeps.openBits {σ τ : State} (h : Keeps σ τ) (n : Nat) : Keeps σ (State.openBits τ n).2 := by
  unfold State.openBits
  repeat' first
    | with_reducible assumption
    | with_reducible apply Keeps.takeFresh

theorem Keeps.boundaryScan {σ τ : State} (h : Keeps σ τ) (code : Nat) (pins : List Bool) (drive : Bool) : Keeps σ (State.boundaryScan τ code pins drive) := by
  unfold State.boundaryScan
  try dsimp only
  repeat' first
    | with_reducible assumption
    | with_reducible apply Keeps.take
    | with_reducible apply Keeps.boundary
    | with_reducible apply Keeps.tap
    | with_reducible apply Keeps.openBits
    | with_reducible refine Keeps.fst (by with_reducible assumption) ?_
    | with_reducible refine Keeps.snd (by with_reducible assumption) ?_
    | split
    | with_reducible refine Keeps.upd ?_ rfl rfl rfl

theorem Keeps.boardTest {σ τ : State} (h : Keeps σ τ) (code : Nat) (k : State → State) (hk : ∀ u, Keeps σ u → Keeps σ (k u)) :
    Keeps σ (State.boardTest τ code k) := by
  unfold State.boardTest
  repeat' first
    | exact hk _ h
    | with_reducible assumption
    | with_reducible apply Keeps.actsBypass
    | split

theorem Keeps.procMoved {σ τ : State} (h : Keeps σ τ) (p : Proc) : Keeps σ (State.procMoved τ p) := by
  unfold State.procMoved
  try dsimp only
  repeat' first
    | with_reducible assumption
    | with_reducible refine Keeps.upd ?_ rfl rfl rfl

theorem Keeps.debugAccess {σ τ : State} (h : Keeps σ τ) (a : Nat) (write : Bool) (data : Word) : Keeps σ (State.debugAccess τ a write data).2 := by
  unfold State.debugAccess
  try dsimp only
  repeat' first
    | with_reducible assumption
    | with_reducible apply Keeps.violOor
    | with_reducible apply Keeps.hostWrite
    | with_reducible apply Keeps.checkedRead
    | with_reducible apply Keeps.regWrite
    | with_reducible apply Keeps.regRead
    | with_reducible refine Keeps.fst (by with_reducible assumption) ?_
    | with_reducible refine Keeps.snd (by with_reducible assumption) ?_
    | split
    | with_reducible refine Keeps.upd ?_ rfl rfl rfl

end Sys2Proof.Machine
end

