-- ==== Sys2Proof/Laws/KeepsExecC.lean ====
section
/-!
SUPPORT. The commands of these families answer a next state that keeps what only a module reset or its own command changes.
-/
namespace Sys2Proof.Machine

theorem KeepsD.of_execFwStage (c : Submission) (s : State) : KeepsD s (execFwStage c s) :=
  KeepsD.next ((Keeps.refl s).zcp _ _ _ fun _ _ h => h.of_fwStage' _)

theorem KeepsD.of_execFwStageDone (kind : Nat) (s : State) : KeepsD s (execFwStageDone kind s) := by
  have h := Keeps.refl s
  unfold execFwStageDone
  try dsimp only
  repeat' first
    | with_reducible refine KeepsD.next ?_
    | with_reducible assumption
    | with_reducible apply Keeps.final
    | with_reducible apply Keeps.endJob
    | with_reducible apply Keeps.fwStageEnd
    | with_reducible refine Keeps.fst (by with_reducible assumption) ?_
    | with_reducible refine Keeps.snd (by with_reducible assumption) ?_
    | split
    | with_reducible refine Keeps.upd ?_ rfl rfl rfl

theorem KeepsD.of_execDeferredTimeout (s : State) : KeepsD s (execDeferredTimeout s) := by
  have h := Keeps.refl s
  unfold execDeferredTimeout
  try dsimp only
  repeat' first
    | with_reducible refine KeepsD.next ?_
    | with_reducible assumption
    | with_reducible apply Keeps.actEnd
    | with_reducible apply Keeps.actFinal
    | split
    | with_reducible refine Keeps.upd ?_ rfl rfl rfl

theorem KeepsD.of_execSecAttest (c : Submission) (s : State) : KeepsD s (execSecAttest c s) :=
  KeepsD.next ((Keeps.refl s).zcp _ _ _ fun _ _ h => h.of_secAttest' _)

theorem KeepsD.of_execReplanDone (s : State) : KeepsD s (execReplanDone s) := by
  have h := Keeps.refl s
  unfold execReplanDone
  try dsimp only
  repeat' first
    | with_reducible refine KeepsD.next ?_
    | with_reducible assumption
    | with_reducible apply Keeps.modDie
    | with_reducible apply Keeps.startSteps
    | with_reducible apply Keeps.restartStep
    | with_reducible apply Keeps.replaceWorking
    | with_reducible apply Keeps.countLeaves
    | with_reducible refine Keeps.foldl ?_ fun _ _ _ => ?_
    | exact fun _ h => h
    | exact fun _ _ => rfl
    | (refine fun _ h => ?_; split <;> exact h)
    | split
    | with_reducible refine Keeps.upd ?_ rfl rfl rfl

theorem KeepsD.of_execTwinRebuildDone (die : Nat) (s : State) : KeepsD s (execTwinRebuildDone die s) := by
  have h := Keeps.refl s
  unfold execTwinRebuildDone
  try dsimp only
  repeat' first
    | with_reducible refine KeepsD.next ?_
    | with_reducible assumption
    | with_reducible apply Keeps.modFunc
    | with_reducible apply Keeps.modDie
    | with_reducible refine Keeps.ofSome (by with_reducible assumption) (KeepsO.allocate ?_ _ _ _ _ _)
    | with_reducible apply Keeps.copyRun
    | with_reducible refine Keeps.foldl ?_ fun _ _ _ => ?_
    | with_reducible refine Keeps.foldlFst ?_ fun _ _ _ => ?_
    | with_reducible refine Keeps.foldlSnd ?_ fun _ _ _ => ?_
    | exact fun _ h => h
    | exact fun _ _ => rfl
    | (refine fun _ h => ?_; split <;> exact h)
    | with_reducible refine Keeps.fst (by with_reducible assumption) ?_
    | with_reducible refine Keeps.snd (by with_reducible assumption) ?_
    | split
    | with_reducible refine Keeps.upd ?_ rfl rfl rfl

theorem KeepsD.of_execRetryLimit (port : Nat) (s : State) : KeepsD s (execRetryLimit port s) := by
  have h := Keeps.refl s
  unfold execRetryLimit
  try dsimp only
  repeat' first
    | with_reducible refine KeepsD.next ?_
    | with_reducible assumption
    | with_reducible apply Keeps.retrainPort
    | with_reducible apply Keeps.linkRetrain
    | with_reducible refine Keeps.fst (by with_reducible assumption) ?_
    | with_reducible refine Keeps.snd (by with_reducible assumption) ?_
    | split
    | with_reducible refine Keeps.upd ?_ rfl rfl rfl

theorem KeepsD.of_execLinkTrainTimeout (port : Nat) (s : State) : KeepsD s (execLinkTrainTimeout port s) := by
  have h := Keeps.refl s
  unfold execLinkTrainTimeout
  try dsimp only
  repeat' first
    | with_reducible refine KeepsD.next ?_
    | with_reducible assumption
    | with_reducible apply Keeps.portDown
    | with_reducible apply Keeps.linkFail
    | with_reducible refine Keeps.fst (by with_reducible assumption) ?_
    | with_reducible refine Keeps.snd (by with_reducible assumption) ?_
    | split

theorem KeepsD.of_execProgressMonitorFire (u : EngineUnit) (s : State) : KeepsD s (execProgressMonitorFire u s) := by
  have h := Keeps.refl s
  unfold execProgressMonitorFire
  try dsimp only
  repeat' first
    | with_reducible refine KeepsD.next ?_
    | with_reducible assumption
    | with_reducible apply Keeps.modDie
    | with_reducible apply Keeps.cntDie
    | with_reducible apply Keeps.note
    | with_reducible apply Keeps.retireCore
    | with_reducible apply Keeps.disableCluster
    | with_reducible apply Keeps.rerunItem
    | exact fun _ h => h
    | exact fun _ _ => rfl
    | (refine fun _ h => ?_; split <;> exact h)
    | with_reducible refine Keeps.fst (by with_reducible assumption) ?_
    | with_reducible refine Keeps.snd (by with_reducible assumption) ?_
    | split
    | with_reducible refine Keeps.upd ?_ rfl rfl rfl

theorem KeepsD.of_execClockMonitorFire (sc : Scope) (s : State) : KeepsD s (execClockMonitorFire sc s) := by
  have h := Keeps.refl s
  unfold execClockMonitorFire
  try dsimp only
  repeat' first
    | with_reducible refine KeepsD.next ?_
    | with_reducible assumption
    | with_reducible apply Keeps.cntDie
    | with_reducible apply Keeps.retireCore
    | with_reducible apply Keeps.disableCluster
    | with_reducible apply Keeps.removeDie
    | split
    | with_reducible refine Keeps.upd ?_ rfl rfl rfl

theorem KeepsD.of_execRegulatorMonitorFire (die : Nat) (s : State) : KeepsD s (execRegulatorMonitorFire die s) := by
  have h := Keeps.refl s
  unfold execRegulatorMonitorFire
  repeat' first
    | with_reducible refine KeepsD.next ?_
    | with_reducible assumption
    | with_reducible apply Keeps.cntDie
    | with_reducible apply Keeps.removeDie
    | split

theorem KeepsD.of_execWatchdogFire (p : Proc) (s : State) : KeepsD s (execWatchdogFire p s) := by
  have h := Keeps.refl s
  unfold execWatchdogFire
  try dsimp only
  repeat' first
    | with_reducible refine KeepsD.next ?_
    | with_reducible assumption
    | with_reducible apply Keeps.cntDie
    | with_reducible apply Keeps.note
    | with_reducible apply Keeps.pauseProc
    | with_reducible apply Keeps.escalate
    | with_reducible refine Keeps.fst (by with_reducible assumption) ?_
    | with_reducible refine Keeps.snd (by with_reducible assumption) ?_
    | split
    | with_reducible refine Keeps.upd ?_ rfl rfl rfl

theorem KeepsD.of_execBackgroundSelftest (r : Resource) (pass : Bool) (which : List Nat) (s : State) : KeepsD s (execBackgroundSelftest r pass which s) := by
  have h := Keeps.refl s
  unfold execBackgroundSelftest
  repeat' first
    | with_reducible refine KeepsD.next ?_
    | with_reducible assumption
    | with_reducible apply Keeps.backgroundTest

theorem KeepsD.of_execAxlSample (die : Nat) (slack : List Int) (s : State) : KeepsD s (execAxlSample die slack s) := by
  have h := Keeps.refl s
  unfold execAxlSample
  try dsimp only
  repeat' first
    | with_reducible refine KeepsD.next ?_
    | with_reducible assumption
    | with_reducible apply Keeps.cntDie
    | with_reducible apply Keeps.modAxl
    | split
    | with_reducible refine Keeps.upd ?_ rfl rfl rfl

theorem KeepsD.of_execAxolotlPlan (die : Nat) (marginal : List (Nat × List Nat)) (s : State) : KeepsD s (execAxolotlPlan die marginal s) := by
  unfold execAxolotlPlan
  split
  · exact KeepsD.next (((Keeps.refl s).formPlan die).planTests die marginal)
  · exact KeepsD.next (Keeps.refl s)

theorem KeepsD.of_execAxlReplan (c : Submission) (s : State) : KeepsD s (execAxlReplan c s) :=
  KeepsD.next ((Keeps.refl s).zcp _ _ _ fun _ _ h => h.of_axlReplan' _)

theorem KeepsD.of_execPwrCap (c : Submission) (s : State) : KeepsD s (execPwrCap c s) :=
  KeepsD.next ((Keeps.refl s).zcp _ _ _ fun _ _ h => h.of_pwrCap' _)

theorem KeepsD.of_execPwrMode (c : Submission) (s : State) : KeepsD s (execPwrMode c s) :=
  KeepsD.next ((Keeps.refl s).zcp _ _ _ fun _ _ h => h.of_pwrMode' _)

theorem KeepsD.of_execSensorWindow (die : Nat) (w : Window) (s : State) : KeepsD s (execSensorWindow die w s) := by
  have h := Keeps.refl s
  unfold execSensorWindow
  try dsimp only
  repeat' first
    | with_reducible refine KeepsD.next ?_
    | with_reducible assumption
    | with_reducible apply Keeps.modDie
    | with_reducible apply Keeps.cntDie
    | with_reducible apply Keeps.decide
    | with_reducible apply Keeps.nullPass
    | with_reducible apply Keeps.stretch
    | with_reducible apply Keeps.limitInput
    | with_reducible refine Keeps.foldl ?_ fun _ _ _ => ?_
    | exact fun _ h => h
    | exact fun _ _ => rfl
    | (refine fun _ h => ?_; split <;> exact h)
    | with_reducible refine Keeps.fst (by with_reducible assumption) ?_
    | with_reducible refine Keeps.snd (by with_reducible assumption) ?_
    | split
    | with_reducible refine Keeps.upd ?_ rfl rfl rfl

theorem KeepsD.of_execCapLoopPeriod (reported : Nat) (s : State) : KeepsD s (execCapLoopPeriod reported s) := by
  have h := Keeps.refl s
  unfold execCapLoopPeriod
  try dsimp only
  repeat' first
    | with_reducible refine KeepsD.next ?_
    | with_reducible assumption
    | with_reducible apply Keeps.modPower
    | with_reducible apply Keeps.send
    | with_reducible apply Keeps.settleMode
    | with_reducible apply Keeps.diePeriod
    | with_reducible refine Keeps.foldl ?_ fun _ _ _ => ?_
    | with_reducible refine Keeps.fst (by with_reducible assumption) ?_
    | with_reducible refine Keeps.snd (by with_reducible assumption) ?_
    | split
    | with_reducible refine Keeps.upd ?_ rfl rfl rfl

theorem KeepsD.of_execInputCurrentLimit (met : Current) (s : State) : KeepsD s (execInputCurrentLimit met s) := by
  have h := Keeps.refl s
  unfold execInputCurrentLimit
  try dsimp only
  repeat' first
    | with_reducible refine KeepsD.next ?_
    | with_reducible assumption
    | with_reducible apply Keeps.modPower
    | with_reducible apply Keeps.decide
    | with_reducible apply Keeps.stretch
    | with_reducible apply Keeps.limitInput
    | split
    | with_reducible refine Keeps.upd ?_ rfl rfl rfl

theorem KeepsD.of_execOvercapTimeout (s : State) : KeepsD s (execOvercapTimeout s) := by
  have h := Keeps.refl s
  unfold execOvercapTimeout
  try dsimp only
  repeat' first
    | with_reducible refine KeepsD.next ?_
    | with_reducible assumption
    | with_reducible apply Keeps.cntDie
    | with_reducible apply Keeps.modPower
    | with_reducible refine Keeps.foldl ?_ fun _ _ _ => ?_
    | split
    | with_reducible refine Keeps.upd ?_ rfl rfl rfl

theorem KeepsD.of_execEmergencyEnd (die : Nat) (s : State) : KeepsD s (execEmergencyEnd die s) := by
  have h := Keeps.refl s
  unfold execEmergencyEnd
  try dsimp only
  repeat' first
    | with_reducible refine KeepsD.next ?_
    | with_reducible assumption
    | with_reducible apply Keeps.modPower
    | split
    | with_reducible refine Keeps.upd ?_ rfl rfl rfl

theorem KeepsD.of_execThermalClamp (die : Nat) (logic : Bool) (vaults : List Nat) (s : State) : KeepsD s (execThermalClamp die logic vaults s) := by
  have h := Keeps.refl s
  unfold execThermalClamp
  try dsimp only
  repeat' first
    | with_reducible refine KeepsD.next ?_
    | with_reducible assumption
    | with_reducible apply Keeps.cntDie
    | with_reducible apply Keeps.modPower
    | with_reducible refine Keeps.fst (by with_reducible assumption) ?_
    | with_reducible refine Keeps.snd (by with_reducible assumption) ?_
    | split
    | with_reducible refine Keeps.upd ?_ rfl rfl rfl

theorem KeepsD.of_execClampRelease (die : Nat) (s : State) : KeepsD s (execClampRelease die s) := by
  have h := Keeps.refl s
  unfold execClampRelease
  try dsimp only
  repeat' first
    | with_reducible refine KeepsD.next ?_
    | with_reducible assumption
    | with_reducible apply Keeps.modPower
    | split
    | with_reducible refine Keeps.upd ?_ rfl rfl rfl

theorem KeepsD.of_execThermalTrip (die : Nat) (s : State) : KeepsD s (execThermalTrip die s) := by
  have h := Keeps.refl s
  unfold execThermalTrip
  try dsimp only
  repeat' first
    | with_reducible refine KeepsD.next ?_
    | with_reducible assumption
    | with_reducible apply Keeps.modDie
    | with_reducible apply Keeps.removeDie
    | exact fun _ h => h
    | exact fun _ _ => rfl
    | (refine fun _ h => ?_; split <;> exact h)
    | with_reducible refine Keeps.fst (by with_reducible assumption) ?_
    | with_reducible refine Keeps.snd (by with_reducible assumption) ?_
    | split
    | with_reducible refine Keeps.upd ?_ rfl rfl rfl

theorem KeepsD.of_execDroopDetect (die cluster : Nat) (s : State) : KeepsD s (execDroopDetect die cluster s) := by
  have h := Keeps.refl s
  unfold execDroopDetect
  try dsimp only
  repeat' first
    | with_reducible refine KeepsD.next ?_
    | with_reducible assumption
    | with_reducible apply Keeps.modClu
    | split
    | with_reducible refine Keeps.upd ?_ rfl rfl rfl

theorem KeepsD.of_execDroopEnd (die cluster cycles : Nat) (s : State) : KeepsD s (execDroopEnd die cluster cycles s) := by
  have h := Keeps.refl s
  unfold execDroopEnd
  try dsimp only
  repeat' first
    | with_reducible refine KeepsD.next ?_
    | with_reducible assumption
    | with_reducible apply Keeps.modClu
    | with_reducible apply Keeps.cntDie
    | split
    | with_reducible refine Keeps.upd ?_ rfl rfl rfl

theorem KeepsD.of_execPhLow (die : Nat) (s : State) : KeepsD s (execPhLow die s) := by
  have h := Keeps.refl s
  unfold execPhLow
  try dsimp only
  repeat' first
    | with_reducible refine KeepsD.next ?_
    | with_reducible assumption
    | with_reducible apply Keeps.emit
    | with_reducible apply Keeps.cntDie
    | with_reducible apply Keeps.modPower
    | split
    | with_reducible refine Keeps.upd ?_ rfl rfl rfl

theorem KeepsD.of_execPatrolScrub (address : Nat) (o : LineOutcome) (s : State) : KeepsD s (execPatrolScrub address o s) := by
  have h := Keeps.refl s
  unfold execPatrolScrub
  repeat' first
    | with_reducible refine KeepsD.next ?_
    | with_reducible assumption
    | with_reducible apply Keeps.lineRead

theorem KeepsD.of_execRowRequest (f : Nat) (q : RowAsk) (s : State) : KeepsD s (execRowRequest f q s) := by
  have h := Keeps.refl s
  unfold execRowRequest
  repeat' first
    | with_reducible refine KeepsD.next ?_
    | with_reducible assumption
    | with_reducible apply Keeps.askRows
    | with_reducible apply Keeps.eccMet

theorem KeepsD.of_execPoolRequest (f : Nat) (q : RowAsk) (s : State) : KeepsD s (execPoolRequest f q s) := by
  have h := Keeps.refl s
  unfold execPoolRequest
  repeat' first
    | with_reducible refine KeepsD.next ?_
    | with_reducible assumption
    | with_reducible apply Keeps.askRows
    | with_reducible apply Keeps.eccMet

theorem KeepsD.of_execDescriptorComplete (f : Nat) (ahead : Bool) (index : Nat) (r : JobEnd) (s : State) : KeepsD s (execDescriptorComplete f ahead index r s) := by
  have h := Keeps.refl s
  unfold execDescriptorComplete
  repeat' first
    | with_reducible refine KeepsD.next ?_
    | with_reducible assumption
    | with_reducible apply Keeps.descriptorComplete
    | with_reducible apply Keeps.eccMet

theorem KeepsD.of_execStepComplete (e : StepEnd) (s : State) : KeepsD s (execStepComplete e s) := by
  have h := Keeps.refl s
  unfold execStepComplete
  repeat' first
    | with_reducible refine KeepsD.next ?_
    | with_reducible assumption
    | with_reducible apply Keeps.stepComplete
    | with_reducible apply Keeps.eccMet

theorem KeepsD.of_execBar2Access (f offset : Nat) (write : Bool) (r : BarRead) (data : List Byte) (s : State) : KeepsD s (execBar2Access f offset write r data s) := by
  have h := Keeps.refl s
  unfold execBar2Access
  try dsimp only
  repeat' first
    | with_reducible refine KeepsD.next ?_
    | with_reducible assumption
    | with_reducible apply Keeps.put
    | with_reducible apply Keeps.violOor
    | with_reducible apply Keeps.hostWrite
    | with_reducible apply Keeps.eccMet
    | with_reducible apply Keeps.checkedRead
    | with_reducible refine Keeps.fst (by with_reducible assumption) ?_
    | with_reducible refine Keeps.snd (by with_reducible assumption) ?_
    | split
    | with_reducible refine Keeps.upd ?_ rfl rfl rfl

theorem KeepsD.of_execMemGrantRequest (f peer gib : Nat) (s : State) : KeepsD s (execMemGrantRequest f peer gib s) := by
  have h := Keeps.refl s
  unfold execMemGrantRequest
  try dsimp only
  repeat' first
    | with_reducible refine KeepsD.next ?_
    | with_reducible assumption
    | with_reducible apply Keeps.send
    | with_reducible apply Keeps.take
    | with_reducible apply Keeps.grant
    | with_reducible refine Keeps.fst (by with_reducible assumption) ?_
    | with_reducible refine Keeps.snd (by with_reducible assumption) ?_
    | split

theorem KeepsD.of_execMemGrantReply (f peer gib : Nat) (s : State) : KeepsD s (execMemGrantReply f peer gib s) := by
  have h := Keeps.refl s
  unfold execMemGrantReply
  repeat' first
    | with_reducible refine KeepsD.next ?_
    | with_reducible assumption
    | with_reducible apply Keeps.modFunc
    | with_reducible apply Keeps.peerAnswered
    | split

theorem KeepsD.of_execPeerMemRequest (f : Nat) (m : PeerMem) (s : State) : KeepsD s (execPeerMemRequest f m s) := by
  have h := Keeps.refl s
  unfold execPeerMemRequest
  try dsimp only
  repeat' first
    | with_reducible refine KeepsD.next ?_
    | with_reducible assumption
    | with_reducible apply Keeps.store
    | with_reducible apply Keeps.violOor
    | with_reducible apply Keeps.send
    | with_reducible apply Keeps.take
    | with_reducible apply Keeps.answer
    | with_reducible apply Keeps.checkedRead
    | with_reducible refine Keeps.foldl ?_ fun _ _ _ => ?_
    | with_reducible refine Keeps.foldlFst ?_ fun _ _ _ => ?_
    | with_reducible refine Keeps.foldlSnd ?_ fun _ _ _ => ?_
    | with_reducible refine Keeps.fst (by with_reducible assumption) ?_
    | with_reducible refine Keeps.snd (by with_reducible assumption) ?_
    | split
    | with_reducible refine Keeps.upd ?_ rfl rfl rfl

theorem KeepsD.of_execPeerMemResponse (f aperture : Nat) (data : List Byte) (s : State) : KeepsD s (execPeerMemResponse f aperture data s) := by
  have h := Keeps.refl s
  unfold execPeerMemResponse
  try dsimp only
  repeat' first
    | with_reducible refine KeepsD.next ?_
    | with_reducible assumption
    | with_reducible apply Keeps.take
    | with_reducible apply Keeps.modAperture
    | with_reducible apply Keeps.rowAnswered
    | with_reducible apply Keeps.apImage
    | split
    | with_reducible refine Keeps.upd ?_ rfl rfl rfl

theorem KeepsD.of_execPeerAccessTimeout (f aperture : Nat) (s : State) : KeepsD s (execPeerAccessTimeout f aperture s) := by
  have h := Keeps.refl s
  unfold execPeerAccessTimeout
  try dsimp only
  repeat' first
    | with_reducible refine KeepsD.next ?_
    | with_reducible assumption
    | with_reducible apply Keeps.emit
    | with_reducible apply Keeps.cntDie
    | with_reducible apply Keeps.modAperture
    | with_reducible apply Keeps.rowAnswered
    | with_reducible apply Keeps.apImage
    | split
    | with_reducible refine Keeps.upd ?_ rfl rfl rfl

theorem KeepsD.of_execRegisterWrite (f offset size : Nat) (value : Word) (s : State) : KeepsD s (execRegisterWrite f offset size value s) := by
  have h := Keeps.refl s
  unfold execRegisterWrite
  repeat' first
    | with_reducible refine KeepsD.next ?_
    | with_reducible assumption
    | with_reducible apply Keeps.regWrite
    | split

theorem KeepsD.of_execQueueEnable (f : Nat) (value : Word) (s : State) : KeepsD s (execQueueEnable f value s) := by
  have h := Keeps.refl s
  unfold execQueueEnable
  repeat' first
    | with_reducible refine KeepsD.next ?_
    | with_reducible assumption
    | with_reducible apply Keeps.hostReg

theorem KeepsD.of_execQueueDisable (f : Nat) (value : Word) (s : State) : KeepsD s (execQueueDisable f value s) := by
  have h := Keeps.refl s
  unfold execQueueDisable
  repeat' first
    | with_reducible refine KeepsD.next ?_
    | with_reducible assumption
    | with_reducible apply Keeps.hostReg

theorem KeepsD.of_execMemIlvcfgPending (f die : Nat) (value : Word) (s : State) : KeepsD s (execMemIlvcfgPending f die value s) := by
  have h := Keeps.refl s
  unfold execMemIlvcfgPending
  repeat' first
    | with_reducible refine KeepsD.next ?_
    | with_reducible assumption
    | with_reducible apply Keeps.hostReg
    | split

theorem KeepsD.of_execModCompatWrite (f : Nat) (value : Word) (s : State) : KeepsD s (execModCompatWrite f value s) := by
  have h := Keeps.refl s
  unfold execModCompatWrite
  repeat' first
    | with_reducible refine KeepsD.next ?_
    | with_reducible assumption
    | with_reducible apply Keeps.hostReg

theorem KeepsD.of_execAxlModeWrite (f die : Nat) (value : Word) (s : State) : KeepsD s (execAxlModeWrite f die value s) := by
  have h := Keeps.refl s
  unfold execAxlModeWrite
  repeat' first
    | with_reducible refine KeepsD.next ?_
    | with_reducible assumption
    | with_reducible apply Keeps.hostReg
    | split

theorem KeepsD.of_execPortEnable (port : Nat) (s : State) : KeepsD s (execPortEnable port s) := by
  have h := Keeps.refl s
  unfold execPortEnable
  repeat' first
    | with_reducible refine KeepsD.next ?_
    | with_reducible assumption
    | with_reducible apply Keeps.hostReg
    | split

theorem KeepsD.of_execPortDisable (port : Nat) (s : State) : KeepsD s (execPortDisable port s) := by
  have h := Keeps.refl s
  unfold execPortDisable
  repeat' first
    | with_reducible refine KeepsD.next ?_
    | with_reducible assumption
    | with_reducible apply Keeps.hostReg
    | split

theorem KeepsD.of_execRetrain (port : Nat) (s : State) : KeepsD s (execRetrain port s) := by
  have h := Keeps.refl s
  unfold execRetrain
  repeat' first
    | with_reducible refine KeepsD.next ?_
    | with_reducible assumption
    | with_reducible apply Keeps.hostReg
    | split

theorem KeepsD.of_execFabPortEpWrite (f : Nat) (value : Word) (s : State) : KeepsD s (execFabPortEpWrite f value s) := by
  have h := Keeps.refl s
  unfold execFabPortEpWrite
  repeat' first
    | with_reducible refine KeepsD.next ?_
    | with_reducible assumption
    | with_reducible apply Keeps.hostReg

theorem KeepsD.of_execCntNotecfgWrite (f : Nat) (value : Word) (s : State) : KeepsD s (execCntNotecfgWrite f value s) := by
  have h := Keeps.refl s
  unfold execCntNotecfgWrite
  repeat' first
    | with_reducible refine KeepsD.next ?_
    | with_reducible assumption
    | with_reducible apply Keeps.hostReg

theorem KeepsD.of_execJrnSelWrite (value : Word) (s : State) : KeepsD s (execJrnSelWrite value s) := by
  have h := Keeps.refl s
  unfold execJrnSelWrite
  repeat' first
    | with_reducible refine KeepsD.next ?_
    | with_reducible assumption
    | with_reducible apply Keeps.hostReg

theorem KeepsD.of_execMemHostresWrite (f die : Nat) (value : Word) (s : State) : KeepsD s (execMemHostresWrite f die value s) := by
  have h := Keeps.refl s
  unfold execMemHostresWrite
  repeat' first
    | with_reducible refine KeepsD.next ?_
    | with_reducible assumption
    | with_reducible apply Keeps.hostReg
    | split

theorem KeepsD.of_execMemGrantctlWrite (f : Nat) (value : Word) (s : State) : KeepsD s (execMemGrantctlWrite f value s) := by
  have h := Keeps.refl s
  unfold execMemGrantctlWrite
  repeat' first
    | with_reducible refine KeepsD.next ?_
    | with_reducible assumption
    | with_reducible apply Keeps.hostReg

theorem KeepsD.of_execCntValrcRead (f : Nat) (s : State) : KeepsD s (execCntValrcRead f s) := by
  have h := Keeps.refl s
  unfold execCntValrcRead
  repeat' first
    | with_reducible refine KeepsD.next ?_
    | with_reducible assumption
    | with_reducible apply Keeps.hostRead

theorem KeepsD.of_execVecRngstatRead (core : Nat) (s : State) : KeepsD s (execVecRngstatRead core s) := by
  have h := Keeps.refl s
  unfold execVecRngstatRead
  repeat' first
    | with_reducible refine KeepsD.next ?_
    | with_reducible assumption
    | with_reducible apply Keeps.hostRead
    | split

theorem KeepsD.of_execFunctionLevelReset (f : Nat) (s : State) : KeepsD s (execFunctionLevelReset f s) := by
  have h := Keeps.refl s
  unfold execFunctionLevelReset
  try dsimp only
  repeat' first
    | with_reducible refine KeepsD.next ?_
    | with_reducible assumption
    | with_reducible apply Keeps.modFunc
    | with_reducible apply Keeps.startSteps
    | with_reducible apply Keeps.emptyEngines
    | with_reducible apply Keeps.quenchAll
    | with_reducible apply Keeps.stopOwn
    | with_reducible refine Keeps.fst (by with_reducible assumption) ?_
    | with_reducible refine Keeps.snd (by with_reducible assumption) ?_
    | split
    | with_reducible refine Keeps.upd ?_ rfl rfl rfl

theorem KeepsD.of_execConfigRequest (r : ConfigRequest) (s : State) : KeepsD s (execConfigRequest r s) := by
  have h := Keeps.refl s
  unfold execConfigRequest
  try dsimp only
  repeat' first
    | with_reducible refine KeepsD.next ?_
    | with_reducible assumption
    | with_reducible apply Keeps.put
    | with_reducible apply Keeps.configWrite
    | with_reducible refine Keeps.fst (by with_reducible assumption) ?_
    | with_reducible refine Keeps.snd (by with_reducible assumption) ?_
    | split
    | with_reducible refine Keeps.upd ?_ rfl rfl rfl

theorem KeepsD.of_execEntdaa (address : Nat) (s : State) : KeepsD s (execEntdaa address s) := by
  have h := Keeps.refl s
  unfold execEntdaa
  try dsimp only
  repeat' first
    | with_reducible refine KeepsD.next ?_
    | with_reducible assumption
    | with_reducible apply Keeps.put
    | split
    | with_reducible refine Keeps.upd ?_ rfl rfl rfl

theorem KeepsD.of_execSetEndpointId (eid : Nat) (s : State) : KeepsD s (execSetEndpointId eid s) := by
  have h := Keeps.refl s
  unfold execSetEndpointId
  try dsimp only
  repeat' first
    | with_reducible refine KeepsD.next ?_
    | with_reducible assumption
    | with_reducible apply Keeps.mctp
    | split
    | with_reducible refine Keeps.upd ?_ rfl rfl rfl

theorem KeepsD.of_execGetEndpointId (s : State) : KeepsD s (execGetEndpointId s) := by
  have h := Keeps.refl s
  unfold execGetEndpointId
  repeat' first
    | with_reducible refine KeepsD.next ?_
    | with_reducible assumption
    | with_reducible apply Keeps.mctp
    | split

theorem KeepsD.of_execGetMctpVersionSupport (s : State) : KeepsD s (execGetMctpVersionSupport s) := by
  have h := Keeps.refl s
  unfold execGetMctpVersionSupport
  repeat' first
    | with_reducible refine KeepsD.next ?_
    | with_reducible assumption
    | with_reducible apply Keeps.mctp
    | split

theorem KeepsD.of_execGetMessageTypeSupport (s : State) : KeepsD s (execGetMessageTypeSupport s) := by
  have h := Keeps.refl s
  unfold execGetMessageTypeSupport
  repeat' first
    | with_reducible refine KeepsD.next ?_
    | with_reducible assumption
    | with_reducible apply Keeps.mctp
    | split

theorem KeepsD.of_execSidebandSubmission (f : Nat) (slot : List Byte) (s : State) : KeepsD s (execSidebandSubmission f slot s) := by
  have h := Keeps.refl s
  unfold execSidebandSubmission
  repeat' first
    | with_reducible refine KeepsD.next ?_
    | with_reducible assumption
    | with_reducible apply Keeps.takeUp
    | with_reducible refine Keeps.vendor ?_ _ _ fun _ _ => ?_

theorem KeepsD.of_execSidebandWindowWrite (f offset : Nat) (data : List Byte) (s : State) : KeepsD s (execSidebandWindowWrite f offset data s) := by
  have h := Keeps.refl s
  unfold execSidebandWindowWrite
  repeat' first
    | with_reducible refine KeepsD.next ?_
    | with_reducible assumption
    | with_reducible apply Keeps.hostWrite
    | with_reducible refine Keeps.vendor ?_ _ _ fun _ _ => ?_
    | split

theorem KeepsD.of_execSidebandWindowRead (f offset len : Nat) (s : State) : KeepsD s (execSidebandWindowRead f offset len s) := by
  have h := Keeps.refl s
  unfold execSidebandWindowRead
  try dsimp only
  repeat' first
    | with_reducible refine KeepsD.next ?_
    | with_reducible assumption
    | with_reducible apply Keeps.checkedRead
    | with_reducible apply Keeps.mctp
    | with_reducible refine Keeps.vendor ?_ _ _ fun _ _ => ?_
    | with_reducible refine Keeps.fst (by with_reducible assumption) ?_
    | with_reducible refine Keeps.snd (by with_reducible assumption) ?_
    | split
    | with_reducible refine Keeps.upd ?_ rfl rfl rfl

theorem KeepsD.of_execSidebandRegRead (f offset : Nat) (s : State) : KeepsD s (execSidebandRegRead f offset s) := by
  have h := Keeps.refl s
  unfold execSidebandRegRead
  try dsimp only
  repeat' first
    | with_reducible refine KeepsD.next ?_
    | with_reducible assumption
    | with_reducible apply Keeps.regRead
    | with_reducible apply Keeps.mctp
    | with_reducible refine Keeps.fst (by with_reducible assumption) ?_
    | with_reducible refine Keeps.snd (by with_reducible assumption) ?_
    | split

theorem KeepsD.of_execSidebandRegWrite (f offset : Nat) (value : Word) (s : State) : KeepsD s (execSidebandRegWrite f offset value s) := by
  have h := Keeps.refl s
  unfold execSidebandRegWrite
  repeat' first
    | with_reducible refine KeepsD.next ?_
    | with_reducible assumption
    | with_reducible apply Keeps.regWrite
    | split

theorem KeepsD.jtagUp {s : State} (k : State → State) (hk : ∀ u, Keeps s u → Keeps s (k u)) : KeepsD s (s.jtagUp k) := by
  unfold State.jtagUp
  refine KeepsD.next ?_
  split
  · exact hk _ (Keeps.refl s)
  · exact Keeps.refl s

theorem KeepsD.of_execExtest (pins : List Bool) (s : State) : KeepsD s (execExtest pins s) := by
  have h := Keeps.refl s
  unfold execExtest
  repeat' first
    | with_reducible refine KeepsD.next ?_
    | with_reducible refine KeepsD.jtagUp _ fun _ _ => ?_
    | with_reducible assumption
    | with_reducible apply Keeps.boundaryScan
    | with_reducible refine Keeps.boardTest ?_ _ _ fun _ _ => ?_

theorem KeepsD.of_execExtestPulse (pins : List Bool) (s : State) : KeepsD s (execExtestPulse pins s) := by
  have h := Keeps.refl s
  unfold execExtestPulse
  repeat' first
    | with_reducible refine KeepsD.next ?_
    | with_reducible refine KeepsD.jtagUp _ fun _ _ => ?_
    | with_reducible assumption
    | with_reducible apply Keeps.boundaryScan
    | with_reducible refine Keeps.boardTest ?_ _ _ fun _ _ => ?_

theorem KeepsD.of_execExtestTrain (pins : List Bool) (s : State) : KeepsD s (execExtestTrain pins s) := by
  have h := Keeps.refl s
  unfold execExtestTrain
  repeat' first
    | with_reducible refine KeepsD.next ?_
    | with_reducible refine KeepsD.jtagUp _ fun _ _ => ?_
    | with_reducible assumption
    | with_reducible apply Keeps.boundaryScan
    | with_reducible refine Keeps.boardTest ?_ _ _ fun _ _ => ?_

theorem KeepsD.of_execClamp (s : State) : KeepsD s (execClamp s) := by
  have h := Keeps.refl s
  unfold execClamp
  try dsimp only
  repeat' first
    | with_reducible refine KeepsD.next ?_
    | with_reducible refine KeepsD.jtagUp _ fun _ _ => ?_
    | with_reducible assumption
    | with_reducible apply Keeps.boundary
    | with_reducible apply Keeps.tap
    | with_reducible refine Keeps.boardTest ?_ _ _ fun _ _ => ?_
    | with_reducible refine Keeps.upd ?_ rfl rfl rfl

theorem KeepsD.of_execHighz (s : State) : KeepsD s (execHighz s) := by
  have h := Keeps.refl s
  unfold execHighz
  try dsimp only
  repeat' first
    | with_reducible refine KeepsD.next ?_
    | with_reducible refine KeepsD.jtagUp _ fun _ _ => ?_
    | with_reducible assumption
    | with_reducible apply Keeps.tap
    | with_reducible refine Keeps.boardTest ?_ _ _ fun _ _ => ?_
    | with_reducible refine Keeps.upd ?_ rfl rfl rfl

theorem KeepsD.of_execIdcode (s : State) : KeepsD s (execIdcode s) := by
  have h := Keeps.refl s
  unfold execIdcode
  repeat' first
    | with_reducible refine KeepsD.next ?_
    | with_reducible refine KeepsD.jtagUp _ fun _ _ => ?_
    | with_reducible assumption
    | with_reducible apply Keeps.tap
    | with_reducible apply Keeps.undriven

theorem KeepsD.of_execSamplePreload (pins : List Bool) (s : State) : KeepsD s (execSamplePreload pins s) := by
  have h := Keeps.refl s
  unfold execSamplePreload
  repeat' first
    | with_reducible refine KeepsD.next ?_
    | with_reducible refine KeepsD.jtagUp _ fun _ _ => ?_
    | with_reducible assumption
    | with_reducible apply Keeps.boundaryScan

theorem KeepsD.of_execBypass (bit : Bool) (s : State) : KeepsD s (execBypass bit s) := by
  have h := Keeps.refl s
  unfold execBypass
  try dsimp only
  repeat' first
    | with_reducible refine KeepsD.next ?_
    | with_reducible refine KeepsD.jtagUp _ fun _ _ => ?_
    | with_reducible assumption
    | with_reducible apply Keeps.actsBypass
    | with_reducible refine Keeps.upd ?_ rfl rfl rfl

theorem KeepsD.of_execTapReset (s : State) : KeepsD s (execTapReset s) := by
  have h := Keeps.refl s
  unfold execTapReset
  try dsimp only
  repeat' first
    | with_reducible refine KeepsD.next ?_
    | with_reducible refine KeepsD.jtagUp _ fun _ _ => ?_
    | with_reducible assumption
    | with_reducible apply Keeps.undriven
    | with_reducible refine Keeps.upd ?_ rfl rfl rfl

theorem KeepsD.of_execChallenge (s : State) : KeepsD s (execChallenge s) := by
  have h := Keeps.refl s
  unfold execChallenge
  try dsimp only
  repeat' first
    | with_reducible refine KeepsD.next ?_
    | with_reducible refine KeepsD.jtagUp _ fun _ _ => ?_
    | with_reducible assumption
    | with_reducible apply Keeps.takeFresh
    | with_reducible apply Keeps.tap
    | with_reducible apply Keeps.undriven
    | with_reducible refine Keeps.upd ?_ rfl rfl rfl

theorem KeepsD.scoped {s : State} (code : Nat) (isOpen : Bool) (k : State → State) (hk : ∀ u, Keeps s u → Keeps s (k u)) :
    KeepsD s (s.scoped code isOpen k) := by
  have h := Keeps.refl s
  unfold State.scoped
  refine KeepsD.jtagUp _ fun _ h => ?_
  repeat' first
    | with_reducible assumption
    | exact hk _ (h.undriven)
    | with_reducible apply Keeps.actsBypass
    | split

theorem KeepsD.of_execDbgStatus (s : State) : KeepsD s (execDbgStatus s) := by
  have h := Keeps.refl s
  unfold execDbgStatus
  repeat' first
    | with_reducible refine KeepsD.next ?_
    | with_reducible refine KeepsD.scoped _ _ _ fun _ _ => ?_
    | with_reducible assumption
    | with_reducible apply Keeps.tap

theorem KeepsD.of_execProcSel (value : Nat) (s : State) : KeepsD s (execProcSel value s) := by
  have h := Keeps.refl s
  unfold execProcSel
  try dsimp only
  repeat' first
    | with_reducible refine KeepsD.next ?_
    | with_reducible refine KeepsD.scoped _ _ _ fun _ _ => ?_
    | with_reducible assumption
    | with_reducible apply Keeps.tap
    | with_reducible refine Keeps.upd ?_ rfl rfl rfl

theorem KeepsD.procCtl {s : State} (action : Nat) (k : Proc → State → State) (hk : ∀ p u, Keeps s u → Keeps s (k p u)) :
    KeepsD s (s.procCtl action k) := by
  unfold State.procCtl
  refine KeepsD.scoped _ _ _ fun _ h => ?_
  repeat' first
    | with_reducible assumption
    | (with_reducible refine hk _ _ ?_)
    | with_reducible apply Keeps.tap
    | split

theorem KeepsD.of_execProcHalt (s : State) : KeepsD s (execProcHalt s) := by
  have h := Keeps.refl s
  unfold execProcHalt
  try dsimp only
  repeat' first
    | with_reducible refine KeepsD.next ?_
    | with_reducible refine KeepsD.procCtl _ _ fun _ _ _ => ?_
    | with_reducible assumption
    | with_reducible apply Keeps.pauseProc
    | with_reducible apply Keeps.procMoved
    | split
    | with_reducible refine Keeps.upd ?_ rfl rfl rfl

theorem KeepsD.of_execProcRun (s : State) : KeepsD s (execProcRun s) := by
  have h := Keeps.refl s
  unfold execProcRun
  try dsimp only
  repeat' first
    | with_reducible refine KeepsD.next ?_
    | with_reducible refine KeepsD.procCtl _ _ fun _ _ _ => ?_
    | with_reducible assumption
    | with_reducible apply Keeps.resumeProc
    | with_reducible apply Keeps.procMoved
    | split
    | with_reducible refine Keeps.upd ?_ rfl rfl rfl

theorem KeepsD.of_execProcStep (s : State) : KeepsD s (execProcStep s) := by
  have h := Keeps.refl s
  unfold execProcStep
  repeat' first
    | with_reducible refine KeepsD.next ?_
    | with_reducible refine KeepsD.procCtl _ _ fun _ _ _ => ?_
    | with_reducible assumption
    | with_reducible apply Keeps.procMoved
    | split

theorem KeepsD.of_execProcReg (number : Nat) (write : Bool) (data : Word) (s : State) : KeepsD s (execProcReg number write data s) := by
  have h := Keeps.refl s
  unfold execProcReg
  try dsimp only
  repeat' first
    | with_reducible refine KeepsD.next ?_
    | with_reducible refine KeepsD.scoped _ _ _ fun _ _ => ?_
    | with_reducible assumption
    | with_reducible apply Keeps.tap
    | split
    | with_reducible refine Keeps.upd ?_ rfl rfl rfl

theorem KeepsD.of_execMemAddr (address : Nat) (s : State) : KeepsD s (execMemAddr address s) := by
  have h := Keeps.refl s
  unfold execMemAddr
  try dsimp only
  repeat' first
    | with_reducible refine KeepsD.next ?_
    | with_reducible refine KeepsD.scoped _ _ _ fun _ _ => ?_
    | with_reducible assumption
    | with_reducible apply Keeps.tap
    | with_reducible refine Keeps.upd ?_ rfl rfl rfl

theorem KeepsD.of_execMemData (write : Bool) (data : Word) (s : State) : KeepsD s (execMemData write data s) := by
  have h := Keeps.refl s
  unfold execMemData
  try dsimp only
  repeat' first
    | with_reducible refine KeepsD.next ?_
    | with_reducible refine KeepsD.scoped _ _ _ fun _ _ => ?_
    | with_reducible assumption
    | with_reducible apply Keeps.tap
    | with_reducible apply Keeps.debugAccess
    | with_reducible refine Keeps.fst (by with_reducible assumption) ?_
    | with_reducible refine Keeps.snd (by with_reducible assumption) ?_
    | split
    | with_reducible refine Keeps.upd ?_ rfl rfl rfl

theorem KeepsD.of_execRegAccess (offset : Nat) (write : Bool) (data : Word) (s : State) : KeepsD s (execRegAccess offset write data s) := by
  have h := Keeps.refl s
  unfold execRegAccess
  try dsimp only
  repeat' first
    | with_reducible refine KeepsD.next ?_
    | with_reducible refine KeepsD.scoped _ _ _ fun _ _ => ?_
    | with_reducible assumption
    | with_reducible apply Keeps.regWrite
    | with_reducible apply Keeps.regRead
    | with_reducible apply Keeps.tap
    | with_reducible refine Keeps.fst (by with_reducible assumption) ?_
    | with_reducible refine Keeps.snd (by with_reducible assumption) ?_
    | split

theorem KeepsD.of_execScanSel (value : Nat) (s : State) : KeepsD s (execScanSel value s) := by
  have h := Keeps.refl s
  unfold execScanSel
  try dsimp only
  repeat' first
    | with_reducible refine KeepsD.next ?_
    | with_reducible refine KeepsD.scoped _ _ _ fun _ _ => ?_
    | with_reducible assumption
    | with_reducible apply Keeps.tap
    | with_reducible refine Keeps.upd ?_ rfl rfl rfl

theorem KeepsD.of_execScanShift (_bits : List Bool) (s : State) : KeepsD s (execScanShift _bits s) := by
  have h := Keeps.refl s
  unfold execScanShift
  try dsimp only
  repeat' first
    | with_reducible refine KeepsD.next ?_
    | with_reducible refine KeepsD.scoped _ _ _ fun _ _ => ?_
    | with_reducible assumption
    | with_reducible apply Keeps.tap
    | with_reducible apply Keeps.openBits
    | with_reducible refine Keeps.fst (by with_reducible assumption) ?_
    | with_reducible refine Keeps.snd (by with_reducible assumption) ?_
    | split

theorem KeepsD.of_execScanLen (s : State) : KeepsD s (execScanLen s) := by
  have h := Keeps.refl s
  unfold execScanLen
  repeat' first
    | with_reducible refine KeepsD.next ?_
    | with_reducible refine KeepsD.scoped _ _ _ fun _ _ => ?_
    | with_reducible assumption
    | with_reducible apply Keeps.tap

end Sys2Proof.Machine
end

