-- ==== Sys2Proof/Laws/State.lean ====
section
/-!
SUPPORT. State after one named update, field by field.
-/
namespace Sys2Proof.Machine

/-! ## modFunc -/

@[simp] theorem State.modFunc_pending (s : State) (f : Nat) (g : Func → Func) : (s.modFunc f g).pending = s.pending := rfl
@[simp] theorem State.modFunc_mem (s : State) (f : Nat) (g : Func → Func) : (s.modFunc f g).mem = s.mem := rfl
@[simp] theorem State.modFunc_funcs (s : State) (f : Nat) (g : Func → Func) : (s.modFunc f g).funcs = modNth g f s.funcs := rfl
@[simp] theorem State.modFunc_dies (s : State) (f : Nat) (g : Func → Func) : (s.modFunc f g).dies = s.dies := rfl
@[simp] theorem State.modFunc_clusters (s : State) (f : Nat) (g : Func → Func) : (s.modFunc f g).clusters = s.clusters := rfl
@[simp] theorem State.modFunc_cores (s : State) (f : Nat) (g : Func → Func) : (s.modFunc f g).cores = s.cores := rfl
@[simp] theorem State.modFunc_ports (s : State) (f : Nat) (g : Func → Func) : (s.modFunc f g).ports = s.ports := rfl
@[simp] theorem State.modFunc_links (s : State) (f : Nat) (g : Func → Func) : (s.modFunc f g).links = s.links := rfl
@[simp] theorem State.modFunc_linkTrains (s : State) (f : Nat) (g : Func → Func) : (s.modFunc f g).linkTrains = s.linkTrains := rfl
@[simp] theorem State.modFunc_linkRetries (s : State) (f : Nat) (g : Func → Func) : (s.modFunc f g).linkRetries = s.linkRetries := rfl
@[simp] theorem State.modFunc_badLines (s : State) (f : Nat) (g : Func → Func) : (s.modFunc f g).badLines = s.badLines := rfl
@[simp] theorem State.modFunc_fuses (s : State) (f : Nat) (g : Func → Func) : (s.modFunc f g).fuses = s.fuses := rfl
@[simp] theorem State.modFunc_cfg (s : State) (f : Nat) (g : Func → Func) : (s.modFunc f g).cfg = s.cfg := rfl
@[simp] theorem State.modFunc_quad (s : State) (f : Nat) (g : Func → Func) : (s.modFunc f g).quad = s.quad := rfl
@[simp] theorem State.modFunc_zcpPin (s : State) (f : Nat) (g : Func → Func) : (s.modFunc f g).zcpPin = s.zcpPin := rfl
@[simp] theorem State.modFunc_rwPin (s : State) (f : Nat) (g : Func → Func) : (s.modFunc f g).rwPin = s.rwPin := rfl
@[simp] theorem State.modFunc_fwSel (s : State) (f : Nat) (g : Func → Func) : (s.modFunc f g).fwSel = s.fwSel := rfl
@[simp] theorem State.modFunc_fw (s : State) (f : Nat) (g : Func → Func) : (s.modFunc f g).fw = s.fw := rfl
@[simp] theorem State.modFunc_act (s : State) (f : Nat) (g : Func → Func) : (s.modFunc f g).act = s.act := rfl
@[simp] theorem State.modFunc_deferTime (s : State) (f : Nat) (g : Func → Func) : (s.modFunc f g).deferTime = s.deferTime := rfl
@[simp] theorem State.modFunc_procs (s : State) (f : Nat) (g : Func → Func) : (s.modFunc f g).procs = s.procs := rfl
@[simp] theorem State.modFunc_sec (s : State) (f : Nat) (g : Func → Func) : (s.modFunc f g).sec = s.sec := rfl
@[simp] theorem State.modFunc_jtag (s : State) (f : Nat) (g : Func → Func) : (s.modFunc f g).jtag = s.jtag := rfl
@[simp] theorem State.modFunc_side (s : State) (f : Nat) (g : Func → Func) : (s.modFunc f g).side = s.side := rfl
@[simp] theorem State.modFunc_pcie (s : State) (f : Nat) (g : Func → Func) : (s.modFunc f g).pcie = s.pcie := rfl
@[simp] theorem State.modFunc_boot (s : State) (f : Nat) (g : Func → Func) : (s.modFunc f g).boot = s.boot := rfl
@[simp] theorem State.modFunc_ready (s : State) (f : Nat) (g : Func → Func) : (s.modFunc f g).ready = s.ready := rfl
@[simp] theorem State.modFunc_twinEn (s : State) (f : Nat) (g : Func → Func) : (s.modFunc f g).twinEn = s.twinEn := rfl
@[simp] theorem State.modFunc_twinGib (s : State) (f : Nat) (g : Func → Func) : (s.modFunc f g).twinGib = s.twinGib := rfl
@[simp] theorem State.modFunc_twinNow (s : State) (f : Nat) (g : Func → Func) : (s.modFunc f g).twinNow = s.twinNow := rfl
@[simp] theorem State.modFunc_journal (s : State) (f : Nat) (g : Func → Func) : (s.modFunc f g).journal = s.journal := rfl
@[simp] theorem State.modFunc_clk (s : State) (f : Nat) (g : Func → Func) : (s.modFunc f g).clk = s.clk := rfl
@[simp] theorem State.modFunc_noteSeq (s : State) (f : Nat) (g : Func → Func) : (s.modFunc f g).noteSeq = s.noteSeq := rfl
@[simp] theorem State.modFunc_probe (s : State) (f : Nat) (g : Func → Func) : (s.modFunc f g).probe = s.probe := rfl
@[simp] theorem State.modFunc_fresh (s : State) (f : Nat) (g : Func → Func) : (s.modFunc f g).fresh = s.fresh := rfl
@[simp] theorem State.modFunc_out (s : State) (f : Nat) (g : Func → Func) : (s.modFunc f g).out = s.out := rfl

/-! ## modDie -/

@[simp] theorem State.modDie_pending (s : State) (d : Nat) (g : Die → Die) : (s.modDie d g).pending = s.pending := rfl
@[simp] theorem State.modDie_mem (s : State) (d : Nat) (g : Die → Die) : (s.modDie d g).mem = s.mem := rfl
@[simp] theorem State.modDie_funcs (s : State) (d : Nat) (g : Die → Die) : (s.modDie d g).funcs = s.funcs := rfl
@[simp] theorem State.modDie_dies (s : State) (d : Nat) (g : Die → Die) : (s.modDie d g).dies = modNth g d s.dies := rfl
@[simp] theorem State.modDie_clusters (s : State) (d : Nat) (g : Die → Die) : (s.modDie d g).clusters = s.clusters := rfl
@[simp] theorem State.modDie_cores (s : State) (d : Nat) (g : Die → Die) : (s.modDie d g).cores = s.cores := rfl
@[simp] theorem State.modDie_ports (s : State) (d : Nat) (g : Die → Die) : (s.modDie d g).ports = s.ports := rfl
@[simp] theorem State.modDie_links (s : State) (d : Nat) (g : Die → Die) : (s.modDie d g).links = s.links := rfl
@[simp] theorem State.modDie_linkTrains (s : State) (d : Nat) (g : Die → Die) : (s.modDie d g).linkTrains = s.linkTrains := rfl
@[simp] theorem State.modDie_linkRetries (s : State) (d : Nat) (g : Die → Die) : (s.modDie d g).linkRetries = s.linkRetries := rfl
@[simp] theorem State.modDie_badLines (s : State) (d : Nat) (g : Die → Die) : (s.modDie d g).badLines = s.badLines := rfl
@[simp] theorem State.modDie_fuses (s : State) (d : Nat) (g : Die → Die) : (s.modDie d g).fuses = s.fuses := rfl
@[simp] theorem State.modDie_cfg (s : State) (d : Nat) (g : Die → Die) : (s.modDie d g).cfg = s.cfg := rfl
@[simp] theorem State.modDie_quad (s : State) (d : Nat) (g : Die → Die) : (s.modDie d g).quad = s.quad := rfl
@[simp] theorem State.modDie_zcpPin (s : State) (d : Nat) (g : Die → Die) : (s.modDie d g).zcpPin = s.zcpPin := rfl
@[simp] theorem State.modDie_rwPin (s : State) (d : Nat) (g : Die → Die) : (s.modDie d g).rwPin = s.rwPin := rfl
@[simp] theorem State.modDie_fwSel (s : State) (d : Nat) (g : Die → Die) : (s.modDie d g).fwSel = s.fwSel := rfl
@[simp] theorem State.modDie_fw (s : State) (d : Nat) (g : Die → Die) : (s.modDie d g).fw = s.fw := rfl
@[simp] theorem State.modDie_act (s : State) (d : Nat) (g : Die → Die) : (s.modDie d g).act = s.act := rfl
@[simp] theorem State.modDie_deferTime (s : State) (d : Nat) (g : Die → Die) : (s.modDie d g).deferTime = s.deferTime := rfl
@[simp] theorem State.modDie_procs (s : State) (d : Nat) (g : Die → Die) : (s.modDie d g).procs = s.procs := rfl
@[simp] theorem State.modDie_sec (s : State) (d : Nat) (g : Die → Die) : (s.modDie d g).sec = s.sec := rfl
@[simp] theorem State.modDie_jtag (s : State) (d : Nat) (g : Die → Die) : (s.modDie d g).jtag = s.jtag := rfl
@[simp] theorem State.modDie_side (s : State) (d : Nat) (g : Die → Die) : (s.modDie d g).side = s.side := rfl
@[simp] theorem State.modDie_pcie (s : State) (d : Nat) (g : Die → Die) : (s.modDie d g).pcie = s.pcie := rfl
@[simp] theorem State.modDie_boot (s : State) (d : Nat) (g : Die → Die) : (s.modDie d g).boot = s.boot := rfl
@[simp] theorem State.modDie_ready (s : State) (d : Nat) (g : Die → Die) : (s.modDie d g).ready = s.ready := rfl
@[simp] theorem State.modDie_twinEn (s : State) (d : Nat) (g : Die → Die) : (s.modDie d g).twinEn = s.twinEn := rfl
@[simp] theorem State.modDie_twinGib (s : State) (d : Nat) (g : Die → Die) : (s.modDie d g).twinGib = s.twinGib := rfl
@[simp] theorem State.modDie_twinNow (s : State) (d : Nat) (g : Die → Die) : (s.modDie d g).twinNow = s.twinNow := rfl
@[simp] theorem State.modDie_journal (s : State) (d : Nat) (g : Die → Die) : (s.modDie d g).journal = s.journal := rfl
@[simp] theorem State.modDie_clk (s : State) (d : Nat) (g : Die → Die) : (s.modDie d g).clk = s.clk := rfl
@[simp] theorem State.modDie_noteSeq (s : State) (d : Nat) (g : Die → Die) : (s.modDie d g).noteSeq = s.noteSeq := rfl
@[simp] theorem State.modDie_probe (s : State) (d : Nat) (g : Die → Die) : (s.modDie d g).probe = s.probe := rfl
@[simp] theorem State.modDie_fresh (s : State) (d : Nat) (g : Die → Die) : (s.modDie d g).fresh = s.fresh := rfl
@[simp] theorem State.modDie_out (s : State) (d : Nat) (g : Die → Die) : (s.modDie d g).out = s.out := rfl

/-! ## modClu -/

@[simp] theorem State.modClu_pending (s : State) (d c : Nat) (g : Cluster → Cluster) : (s.modClu d c g).pending = s.pending := rfl
@[simp] theorem State.modClu_mem (s : State) (d c : Nat) (g : Cluster → Cluster) : (s.modClu d c g).mem = s.mem := rfl
@[simp] theorem State.modClu_funcs (s : State) (d c : Nat) (g : Cluster → Cluster) : (s.modClu d c g).funcs = s.funcs := rfl
@[simp] theorem State.modClu_dies (s : State) (d c : Nat) (g : Cluster → Cluster) : (s.modClu d c g).dies = s.dies := rfl
@[simp] theorem State.modClu_clusters (s : State) (d c : Nat) (g : Cluster → Cluster) : (s.modClu d c g).clusters = modNth g (d * 20 + c) s.clusters := rfl
@[simp] theorem State.modClu_cores (s : State) (d c : Nat) (g : Cluster → Cluster) : (s.modClu d c g).cores = s.cores := rfl
@[simp] theorem State.modClu_ports (s : State) (d c : Nat) (g : Cluster → Cluster) : (s.modClu d c g).ports = s.ports := rfl
@[simp] theorem State.modClu_links (s : State) (d c : Nat) (g : Cluster → Cluster) : (s.modClu d c g).links = s.links := rfl
@[simp] theorem State.modClu_linkTrains (s : State) (d c : Nat) (g : Cluster → Cluster) : (s.modClu d c g).linkTrains = s.linkTrains := rfl
@[simp] theorem State.modClu_linkRetries (s : State) (d c : Nat) (g : Cluster → Cluster) : (s.modClu d c g).linkRetries = s.linkRetries := rfl
@[simp] theorem State.modClu_badLines (s : State) (d c : Nat) (g : Cluster → Cluster) : (s.modClu d c g).badLines = s.badLines := rfl
@[simp] theorem State.modClu_fuses (s : State) (d c : Nat) (g : Cluster → Cluster) : (s.modClu d c g).fuses = s.fuses := rfl
@[simp] theorem State.modClu_cfg (s : State) (d c : Nat) (g : Cluster → Cluster) : (s.modClu d c g).cfg = s.cfg := rfl
@[simp] theorem State.modClu_quad (s : State) (d c : Nat) (g : Cluster → Cluster) : (s.modClu d c g).quad = s.quad := rfl
@[simp] theorem State.modClu_zcpPin (s : State) (d c : Nat) (g : Cluster → Cluster) : (s.modClu d c g).zcpPin = s.zcpPin := rfl
@[simp] theorem State.modClu_rwPin (s : State) (d c : Nat) (g : Cluster → Cluster) : (s.modClu d c g).rwPin = s.rwPin := rfl
@[simp] theorem State.modClu_fwSel (s : State) (d c : Nat) (g : Cluster → Cluster) : (s.modClu d c g).fwSel = s.fwSel := rfl
@[simp] theorem State.modClu_fw (s : State) (d c : Nat) (g : Cluster → Cluster) : (s.modClu d c g).fw = s.fw := rfl
@[simp] theorem State.modClu_act (s : State) (d c : Nat) (g : Cluster → Cluster) : (s.modClu d c g).act = s.act := rfl
@[simp] theorem State.modClu_deferTime (s : State) (d c : Nat) (g : Cluster → Cluster) : (s.modClu d c g).deferTime = s.deferTime := rfl
@[simp] theorem State.modClu_procs (s : State) (d c : Nat) (g : Cluster → Cluster) : (s.modClu d c g).procs = s.procs := rfl
@[simp] theorem State.modClu_sec (s : State) (d c : Nat) (g : Cluster → Cluster) : (s.modClu d c g).sec = s.sec := rfl
@[simp] theorem State.modClu_jtag (s : State) (d c : Nat) (g : Cluster → Cluster) : (s.modClu d c g).jtag = s.jtag := rfl
@[simp] theorem State.modClu_side (s : State) (d c : Nat) (g : Cluster → Cluster) : (s.modClu d c g).side = s.side := rfl
@[simp] theorem State.modClu_pcie (s : State) (d c : Nat) (g : Cluster → Cluster) : (s.modClu d c g).pcie = s.pcie := rfl
@[simp] theorem State.modClu_boot (s : State) (d c : Nat) (g : Cluster → Cluster) : (s.modClu d c g).boot = s.boot := rfl
@[simp] theorem State.modClu_ready (s : State) (d c : Nat) (g : Cluster → Cluster) : (s.modClu d c g).ready = s.ready := rfl
@[simp] theorem State.modClu_twinEn (s : State) (d c : Nat) (g : Cluster → Cluster) : (s.modClu d c g).twinEn = s.twinEn := rfl
@[simp] theorem State.modClu_twinGib (s : State) (d c : Nat) (g : Cluster → Cluster) : (s.modClu d c g).twinGib = s.twinGib := rfl
@[simp] theorem State.modClu_twinNow (s : State) (d c : Nat) (g : Cluster → Cluster) : (s.modClu d c g).twinNow = s.twinNow := rfl
@[simp] theorem State.modClu_journal (s : State) (d c : Nat) (g : Cluster → Cluster) : (s.modClu d c g).journal = s.journal := rfl
@[simp] theorem State.modClu_clk (s : State) (d c : Nat) (g : Cluster → Cluster) : (s.modClu d c g).clk = s.clk := rfl
@[simp] theorem State.modClu_noteSeq (s : State) (d c : Nat) (g : Cluster → Cluster) : (s.modClu d c g).noteSeq = s.noteSeq := rfl
@[simp] theorem State.modClu_probe (s : State) (d c : Nat) (g : Cluster → Cluster) : (s.modClu d c g).probe = s.probe := rfl
@[simp] theorem State.modClu_fresh (s : State) (d c : Nat) (g : Cluster → Cluster) : (s.modClu d c g).fresh = s.fresh := rfl
@[simp] theorem State.modClu_out (s : State) (d c : Nat) (g : Cluster → Cluster) : (s.modClu d c g).out = s.out := rfl

/-! ## modCore -/

@[simp] theorem State.modCore_pending (s : State) (i : Nat) (g : Core → Core) : (s.modCore i g).pending = s.pending := rfl
@[simp] theorem State.modCore_mem (s : State) (i : Nat) (g : Core → Core) : (s.modCore i g).mem = s.mem := rfl
@[simp] theorem State.modCore_funcs (s : State) (i : Nat) (g : Core → Core) : (s.modCore i g).funcs = s.funcs := rfl
@[simp] theorem State.modCore_dies (s : State) (i : Nat) (g : Core → Core) : (s.modCore i g).dies = s.dies := rfl
@[simp] theorem State.modCore_clusters (s : State) (i : Nat) (g : Core → Core) : (s.modCore i g).clusters = s.clusters := rfl
@[simp] theorem State.modCore_cores (s : State) (i : Nat) (g : Core → Core) : (s.modCore i g).cores = modNth g i s.cores := rfl
@[simp] theorem State.modCore_ports (s : State) (i : Nat) (g : Core → Core) : (s.modCore i g).ports = s.ports := rfl
@[simp] theorem State.modCore_links (s : State) (i : Nat) (g : Core → Core) : (s.modCore i g).links = s.links := rfl
@[simp] theorem State.modCore_linkTrains (s : State) (i : Nat) (g : Core → Core) : (s.modCore i g).linkTrains = s.linkTrains := rfl
@[simp] theorem State.modCore_linkRetries (s : State) (i : Nat) (g : Core → Core) : (s.modCore i g).linkRetries = s.linkRetries := rfl
@[simp] theorem State.modCore_badLines (s : State) (i : Nat) (g : Core → Core) : (s.modCore i g).badLines = s.badLines := rfl
@[simp] theorem State.modCore_fuses (s : State) (i : Nat) (g : Core → Core) : (s.modCore i g).fuses = s.fuses := rfl
@[simp] theorem State.modCore_cfg (s : State) (i : Nat) (g : Core → Core) : (s.modCore i g).cfg = s.cfg := rfl
@[simp] theorem State.modCore_quad (s : State) (i : Nat) (g : Core → Core) : (s.modCore i g).quad = s.quad := rfl
@[simp] theorem State.modCore_zcpPin (s : State) (i : Nat) (g : Core → Core) : (s.modCore i g).zcpPin = s.zcpPin := rfl
@[simp] theorem State.modCore_rwPin (s : State) (i : Nat) (g : Core → Core) : (s.modCore i g).rwPin = s.rwPin := rfl
@[simp] theorem State.modCore_fwSel (s : State) (i : Nat) (g : Core → Core) : (s.modCore i g).fwSel = s.fwSel := rfl
@[simp] theorem State.modCore_fw (s : State) (i : Nat) (g : Core → Core) : (s.modCore i g).fw = s.fw := rfl
@[simp] theorem State.modCore_act (s : State) (i : Nat) (g : Core → Core) : (s.modCore i g).act = s.act := rfl
@[simp] theorem State.modCore_deferTime (s : State) (i : Nat) (g : Core → Core) : (s.modCore i g).deferTime = s.deferTime := rfl
@[simp] theorem State.modCore_procs (s : State) (i : Nat) (g : Core → Core) : (s.modCore i g).procs = s.procs := rfl
@[simp] theorem State.modCore_sec (s : State) (i : Nat) (g : Core → Core) : (s.modCore i g).sec = s.sec := rfl
@[simp] theorem State.modCore_jtag (s : State) (i : Nat) (g : Core → Core) : (s.modCore i g).jtag = s.jtag := rfl
@[simp] theorem State.modCore_side (s : State) (i : Nat) (g : Core → Core) : (s.modCore i g).side = s.side := rfl
@[simp] theorem State.modCore_pcie (s : State) (i : Nat) (g : Core → Core) : (s.modCore i g).pcie = s.pcie := rfl
@[simp] theorem State.modCore_boot (s : State) (i : Nat) (g : Core → Core) : (s.modCore i g).boot = s.boot := rfl
@[simp] theorem State.modCore_ready (s : State) (i : Nat) (g : Core → Core) : (s.modCore i g).ready = s.ready := rfl
@[simp] theorem State.modCore_twinEn (s : State) (i : Nat) (g : Core → Core) : (s.modCore i g).twinEn = s.twinEn := rfl
@[simp] theorem State.modCore_twinGib (s : State) (i : Nat) (g : Core → Core) : (s.modCore i g).twinGib = s.twinGib := rfl
@[simp] theorem State.modCore_twinNow (s : State) (i : Nat) (g : Core → Core) : (s.modCore i g).twinNow = s.twinNow := rfl
@[simp] theorem State.modCore_journal (s : State) (i : Nat) (g : Core → Core) : (s.modCore i g).journal = s.journal := rfl
@[simp] theorem State.modCore_clk (s : State) (i : Nat) (g : Core → Core) : (s.modCore i g).clk = s.clk := rfl
@[simp] theorem State.modCore_noteSeq (s : State) (i : Nat) (g : Core → Core) : (s.modCore i g).noteSeq = s.noteSeq := rfl
@[simp] theorem State.modCore_probe (s : State) (i : Nat) (g : Core → Core) : (s.modCore i g).probe = s.probe := rfl
@[simp] theorem State.modCore_fresh (s : State) (i : Nat) (g : Core → Core) : (s.modCore i g).fresh = s.fresh := rfl
@[simp] theorem State.modCore_out (s : State) (i : Nat) (g : Core → Core) : (s.modCore i g).out = s.out := rfl

/-! ## modPort -/

@[simp] theorem State.modPort_pending (s : State) (p : Nat) (g : Port → Port) : (s.modPort p g).pending = s.pending := rfl
@[simp] theorem State.modPort_mem (s : State) (p : Nat) (g : Port → Port) : (s.modPort p g).mem = s.mem := rfl
@[simp] theorem State.modPort_funcs (s : State) (p : Nat) (g : Port → Port) : (s.modPort p g).funcs = s.funcs := rfl
@[simp] theorem State.modPort_dies (s : State) (p : Nat) (g : Port → Port) : (s.modPort p g).dies = s.dies := rfl
@[simp] theorem State.modPort_clusters (s : State) (p : Nat) (g : Port → Port) : (s.modPort p g).clusters = s.clusters := rfl
@[simp] theorem State.modPort_cores (s : State) (p : Nat) (g : Port → Port) : (s.modPort p g).cores = s.cores := rfl
@[simp] theorem State.modPort_ports (s : State) (p : Nat) (g : Port → Port) : (s.modPort p g).ports = modNth g p s.ports := rfl
@[simp] theorem State.modPort_links (s : State) (p : Nat) (g : Port → Port) : (s.modPort p g).links = s.links := rfl
@[simp] theorem State.modPort_linkTrains (s : State) (p : Nat) (g : Port → Port) : (s.modPort p g).linkTrains = s.linkTrains := rfl
@[simp] theorem State.modPort_linkRetries (s : State) (p : Nat) (g : Port → Port) : (s.modPort p g).linkRetries = s.linkRetries := rfl
@[simp] theorem State.modPort_badLines (s : State) (p : Nat) (g : Port → Port) : (s.modPort p g).badLines = s.badLines := rfl
@[simp] theorem State.modPort_fuses (s : State) (p : Nat) (g : Port → Port) : (s.modPort p g).fuses = s.fuses := rfl
@[simp] theorem State.modPort_cfg (s : State) (p : Nat) (g : Port → Port) : (s.modPort p g).cfg = s.cfg := rfl
@[simp] theorem State.modPort_quad (s : State) (p : Nat) (g : Port → Port) : (s.modPort p g).quad = s.quad := rfl
@[simp] theorem State.modPort_zcpPin (s : State) (p : Nat) (g : Port → Port) : (s.modPort p g).zcpPin = s.zcpPin := rfl
@[simp] theorem State.modPort_rwPin (s : State) (p : Nat) (g : Port → Port) : (s.modPort p g).rwPin = s.rwPin := rfl
@[simp] theorem State.modPort_fwSel (s : State) (p : Nat) (g : Port → Port) : (s.modPort p g).fwSel = s.fwSel := rfl
@[simp] theorem State.modPort_fw (s : State) (p : Nat) (g : Port → Port) : (s.modPort p g).fw = s.fw := rfl
@[simp] theorem State.modPort_act (s : State) (p : Nat) (g : Port → Port) : (s.modPort p g).act = s.act := rfl
@[simp] theorem State.modPort_deferTime (s : State) (p : Nat) (g : Port → Port) : (s.modPort p g).deferTime = s.deferTime := rfl
@[simp] theorem State.modPort_procs (s : State) (p : Nat) (g : Port → Port) : (s.modPort p g).procs = s.procs := rfl
@[simp] theorem State.modPort_sec (s : State) (p : Nat) (g : Port → Port) : (s.modPort p g).sec = s.sec := rfl
@[simp] theorem State.modPort_jtag (s : State) (p : Nat) (g : Port → Port) : (s.modPort p g).jtag = s.jtag := rfl
@[simp] theorem State.modPort_side (s : State) (p : Nat) (g : Port → Port) : (s.modPort p g).side = s.side := rfl
@[simp] theorem State.modPort_pcie (s : State) (p : Nat) (g : Port → Port) : (s.modPort p g).pcie = s.pcie := rfl
@[simp] theorem State.modPort_boot (s : State) (p : Nat) (g : Port → Port) : (s.modPort p g).boot = s.boot := rfl
@[simp] theorem State.modPort_ready (s : State) (p : Nat) (g : Port → Port) : (s.modPort p g).ready = s.ready := rfl
@[simp] theorem State.modPort_twinEn (s : State) (p : Nat) (g : Port → Port) : (s.modPort p g).twinEn = s.twinEn := rfl
@[simp] theorem State.modPort_twinGib (s : State) (p : Nat) (g : Port → Port) : (s.modPort p g).twinGib = s.twinGib := rfl
@[simp] theorem State.modPort_twinNow (s : State) (p : Nat) (g : Port → Port) : (s.modPort p g).twinNow = s.twinNow := rfl
@[simp] theorem State.modPort_journal (s : State) (p : Nat) (g : Port → Port) : (s.modPort p g).journal = s.journal := rfl
@[simp] theorem State.modPort_clk (s : State) (p : Nat) (g : Port → Port) : (s.modPort p g).clk = s.clk := rfl
@[simp] theorem State.modPort_noteSeq (s : State) (p : Nat) (g : Port → Port) : (s.modPort p g).noteSeq = s.noteSeq := rfl
@[simp] theorem State.modPort_probe (s : State) (p : Nat) (g : Port → Port) : (s.modPort p g).probe = s.probe := rfl
@[simp] theorem State.modPort_fresh (s : State) (p : Nat) (g : Port → Port) : (s.modPort p g).fresh = s.fresh := rfl
@[simp] theorem State.modPort_out (s : State) (p : Nat) (g : Port → Port) : (s.modPort p g).out = s.out := rfl

/-! ## put -/

@[simp] theorem State.put_pending (s : State) (o : Output) : (s.put o).pending = s.pending := rfl
@[simp] theorem State.put_mem (s : State) (o : Output) : (s.put o).mem = s.mem := rfl
@[simp] theorem State.put_funcs (s : State) (o : Output) : (s.put o).funcs = s.funcs := rfl
@[simp] theorem State.put_dies (s : State) (o : Output) : (s.put o).dies = s.dies := rfl
@[simp] theorem State.put_clusters (s : State) (o : Output) : (s.put o).clusters = s.clusters := rfl
@[simp] theorem State.put_cores (s : State) (o : Output) : (s.put o).cores = s.cores := rfl
@[simp] theorem State.put_ports (s : State) (o : Output) : (s.put o).ports = s.ports := rfl
@[simp] theorem State.put_links (s : State) (o : Output) : (s.put o).links = s.links := rfl
@[simp] theorem State.put_linkTrains (s : State) (o : Output) : (s.put o).linkTrains = s.linkTrains := rfl
@[simp] theorem State.put_linkRetries (s : State) (o : Output) : (s.put o).linkRetries = s.linkRetries := rfl
@[simp] theorem State.put_badLines (s : State) (o : Output) : (s.put o).badLines = s.badLines := rfl
@[simp] theorem State.put_fuses (s : State) (o : Output) : (s.put o).fuses = s.fuses := rfl
@[simp] theorem State.put_cfg (s : State) (o : Output) : (s.put o).cfg = s.cfg := rfl
@[simp] theorem State.put_quad (s : State) (o : Output) : (s.put o).quad = s.quad := rfl
@[simp] theorem State.put_zcpPin (s : State) (o : Output) : (s.put o).zcpPin = s.zcpPin := rfl
@[simp] theorem State.put_rwPin (s : State) (o : Output) : (s.put o).rwPin = s.rwPin := rfl
@[simp] theorem State.put_fwSel (s : State) (o : Output) : (s.put o).fwSel = s.fwSel := rfl
@[simp] theorem State.put_fw (s : State) (o : Output) : (s.put o).fw = s.fw := rfl
@[simp] theorem State.put_act (s : State) (o : Output) : (s.put o).act = s.act := rfl
@[simp] theorem State.put_deferTime (s : State) (o : Output) : (s.put o).deferTime = s.deferTime := rfl
@[simp] theorem State.put_procs (s : State) (o : Output) : (s.put o).procs = s.procs := rfl
@[simp] theorem State.put_sec (s : State) (o : Output) : (s.put o).sec = s.sec := rfl
@[simp] theorem State.put_jtag (s : State) (o : Output) : (s.put o).jtag = s.jtag := rfl
@[simp] theorem State.put_side (s : State) (o : Output) : (s.put o).side = s.side := rfl
@[simp] theorem State.put_pcie (s : State) (o : Output) : (s.put o).pcie = s.pcie := rfl
@[simp] theorem State.put_boot (s : State) (o : Output) : (s.put o).boot = s.boot := rfl
@[simp] theorem State.put_ready (s : State) (o : Output) : (s.put o).ready = s.ready := rfl
@[simp] theorem State.put_twinEn (s : State) (o : Output) : (s.put o).twinEn = s.twinEn := rfl
@[simp] theorem State.put_twinGib (s : State) (o : Output) : (s.put o).twinGib = s.twinGib := rfl
@[simp] theorem State.put_twinNow (s : State) (o : Output) : (s.put o).twinNow = s.twinNow := rfl
@[simp] theorem State.put_journal (s : State) (o : Output) : (s.put o).journal = s.journal := rfl
@[simp] theorem State.put_clk (s : State) (o : Output) : (s.put o).clk = s.clk := rfl
@[simp] theorem State.put_noteSeq (s : State) (o : Output) : (s.put o).noteSeq = s.noteSeq := rfl
@[simp] theorem State.put_probe (s : State) (o : Output) : (s.put o).probe = s.probe := rfl
@[simp] theorem State.put_fresh (s : State) (o : Output) : (s.put o).fresh = s.fresh := rfl
@[simp] theorem State.put_out (s : State) (o : Output) : (s.put o).out = s.out ++ [o] := rfl

/-! ## takeFresh -/

@[simp] theorem State.takeFresh_pending (s : State) (n : Nat) : (s.takeFresh n).pending = s.pending := rfl
@[simp] theorem State.takeFresh_mem (s : State) (n : Nat) : (s.takeFresh n).mem = s.mem := rfl
@[simp] theorem State.takeFresh_funcs (s : State) (n : Nat) : (s.takeFresh n).funcs = s.funcs := rfl
@[simp] theorem State.takeFresh_dies (s : State) (n : Nat) : (s.takeFresh n).dies = s.dies := rfl
@[simp] theorem State.takeFresh_clusters (s : State) (n : Nat) : (s.takeFresh n).clusters = s.clusters := rfl
@[simp] theorem State.takeFresh_cores (s : State) (n : Nat) : (s.takeFresh n).cores = s.cores := rfl
@[simp] theorem State.takeFresh_ports (s : State) (n : Nat) : (s.takeFresh n).ports = s.ports := rfl
@[simp] theorem State.takeFresh_links (s : State) (n : Nat) : (s.takeFresh n).links = s.links := rfl
@[simp] theorem State.takeFresh_linkTrains (s : State) (n : Nat) : (s.takeFresh n).linkTrains = s.linkTrains := rfl
@[simp] theorem State.takeFresh_linkRetries (s : State) (n : Nat) : (s.takeFresh n).linkRetries = s.linkRetries := rfl
@[simp] theorem State.takeFresh_badLines (s : State) (n : Nat) : (s.takeFresh n).badLines = s.badLines := rfl
@[simp] theorem State.takeFresh_fuses (s : State) (n : Nat) : (s.takeFresh n).fuses = s.fuses := rfl
@[simp] theorem State.takeFresh_cfg (s : State) (n : Nat) : (s.takeFresh n).cfg = s.cfg := rfl
@[simp] theorem State.takeFresh_quad (s : State) (n : Nat) : (s.takeFresh n).quad = s.quad := rfl
@[simp] theorem State.takeFresh_zcpPin (s : State) (n : Nat) : (s.takeFresh n).zcpPin = s.zcpPin := rfl
@[simp] theorem State.takeFresh_rwPin (s : State) (n : Nat) : (s.takeFresh n).rwPin = s.rwPin := rfl
@[simp] theorem State.takeFresh_fwSel (s : State) (n : Nat) : (s.takeFresh n).fwSel = s.fwSel := rfl
@[simp] theorem State.takeFresh_fw (s : State) (n : Nat) : (s.takeFresh n).fw = s.fw := rfl
@[simp] theorem State.takeFresh_act (s : State) (n : Nat) : (s.takeFresh n).act = s.act := rfl
@[simp] theorem State.takeFresh_deferTime (s : State) (n : Nat) : (s.takeFresh n).deferTime = s.deferTime := rfl
@[simp] theorem State.takeFresh_procs (s : State) (n : Nat) : (s.takeFresh n).procs = s.procs := rfl
@[simp] theorem State.takeFresh_sec (s : State) (n : Nat) : (s.takeFresh n).sec = s.sec := rfl
@[simp] theorem State.takeFresh_jtag (s : State) (n : Nat) : (s.takeFresh n).jtag = s.jtag := rfl
@[simp] theorem State.takeFresh_side (s : State) (n : Nat) : (s.takeFresh n).side = s.side := rfl
@[simp] theorem State.takeFresh_pcie (s : State) (n : Nat) : (s.takeFresh n).pcie = s.pcie := rfl
@[simp] theorem State.takeFresh_boot (s : State) (n : Nat) : (s.takeFresh n).boot = s.boot := rfl
@[simp] theorem State.takeFresh_ready (s : State) (n : Nat) : (s.takeFresh n).ready = s.ready := rfl
@[simp] theorem State.takeFresh_twinEn (s : State) (n : Nat) : (s.takeFresh n).twinEn = s.twinEn := rfl
@[simp] theorem State.takeFresh_twinGib (s : State) (n : Nat) : (s.takeFresh n).twinGib = s.twinGib := rfl
@[simp] theorem State.takeFresh_twinNow (s : State) (n : Nat) : (s.takeFresh n).twinNow = s.twinNow := rfl
@[simp] theorem State.takeFresh_journal (s : State) (n : Nat) : (s.takeFresh n).journal = s.journal := rfl
@[simp] theorem State.takeFresh_clk (s : State) (n : Nat) : (s.takeFresh n).clk = s.clk := rfl
@[simp] theorem State.takeFresh_noteSeq (s : State) (n : Nat) : (s.takeFresh n).noteSeq = s.noteSeq := rfl
@[simp] theorem State.takeFresh_probe (s : State) (n : Nat) : (s.takeFresh n).probe = s.probe := rfl
@[simp] theorem State.takeFresh_fresh (s : State) (n : Nat) : (s.takeFresh n).fresh = s.fresh + n := rfl
@[simp] theorem State.takeFresh_out (s : State) (n : Nat) : (s.takeFresh n).out = s.out := rfl

/-! ## One instance after a change of one -/

theorem modNth_getD_self {α : Type} (g : α → α) (i : Nat) (l : List α) (d : α) (h : i < l.length) :
    (modNth g i l).getD i d = g (l.getD i d) := by
  rw [modNth_getD, if_pos ⟨rfl, h⟩]

theorem modNth_getD_ne {α : Type} (g : α → α) {i j : Nat} (l : List α) (d : α) (h : i ≠ j) : (modNth g i l).getD j d = l.getD j d := by
  rw [modNth_getD, if_neg fun k => h k.1]

theorem State.func_modFunc (s : State) (f : Nat) (g : Func → Func) (h : f < s.funcs.length) : (s.modFunc f g).func f = g (s.func f) :=
  modNth_getD_self g f _ _ h

theorem State.func_modFunc_ne (s : State) {f k : Nat} (g : Func → Func) (h : f ≠ k) : (s.modFunc f g).func k = s.func k :=
  modNth_getD_ne g _ _ h

theorem State.die_modDie (s : State) (d : Nat) (g : Die → Die) (h : d < s.dies.length) : (s.modDie d g).die d = g (s.die d) :=
  modNth_getD_self g d _ _ h

theorem State.die_modDie_ne (s : State) {d k : Nat} (g : Die → Die) (h : d ≠ k) : (s.modDie d g).die k = s.die k :=
  modNth_getD_ne g _ _ h

theorem State.core_modCore (s : State) (i : Nat) (g : Core → Core) (h : i < s.cores.length) : (s.modCore i g).core i = g (s.core i) :=
  modNth_getD_self g i _ _ h

theorem State.core_modCore_ne (s : State) {i k : Nat} (g : Core → Core) (h : i ≠ k) : (s.modCore i g).core k = s.core k :=
  modNth_getD_ne g _ _ h

theorem State.port_modPort (s : State) (p : Nat) (g : Port → Port) (h : p < s.ports.length) : (s.modPort p g).port p = g (s.port p) :=
  modNth_getD_self g p _ _ h

theorem State.port_modPort_ne (s : State) {p k : Nat} (g : Port → Port) (h : p ≠ k) : (s.modPort p g).port k = s.port k :=
  modNth_getD_ne g _ _ h

theorem State.clu_modClu (s : State) (d c : Nat) (g : Cluster → Cluster) (h : d * 20 + c < s.clusters.length) :
    (s.modClu d c g).clu d c = g (s.clu d c) := modNth_getD_self g _ _ _ h

/-! ## The units of a state that has the module's shape -/

theorem State.Inv.lengths {s : State} (h : s.Inv) :
    s.funcs.length = 4 ∧ s.dies.length = 4 ∧ s.clusters.length = 80 ∧ s.cores.length = 640 ∧ s.ports.length = 24 ∧ s.fw.length = 4 := by
  have := h.2
  simp only [State.shape, List.cons.injEq, and_true] at this
  exact this

end Sys2Proof.Machine
end

