-- ==== Sys2Proof/Laws/Regs.lean ====
section
/-!
SUPPORT. A register write at a register that is there: what it stores, and besides that the journal entry and the measurement alone.
-/
namespace Sys2Proof.Machine

/-- `t` is `u` with a change of the journal and of the measurements. -/
def Recorded (u t : State) : Prop :=
  ∃ j m n, t = { u with journal := j, sec := { u.sec with meas := m, m6Events := n } }

theorem Recorded.refl (u : State) : Recorded u u := ⟨u.journal, u.sec.meas, u.sec.m6Events, rfl⟩

theorem Recorded.journalize {u t : State} (h : Recorded u t) (o c f d : Nat) : Recorded u (t.journalize o c f d).1 := by
  obtain ⟨j, m, n, rfl⟩ := h
  exact ⟨_, m, n, rfl⟩

theorem Recorded.measureConfig {u t : State} (h : Recorded u t) (c j : Nat) (b : List Byte) : Recorded u (t.measureConfig c j b) := by
  unfold State.measureConfig State.measure
  dsimp only
  obtain ⟨j, m, n, rfl⟩ := h
  split
  · exact ⟨j, m, n, rfl⟩
  · exact ⟨j, _, _, rfl⟩

/-- A register write that the security core does not hold up takes place after those that waited for it. -/
theorem State.regWrite_put {s : State} {f src off size v : Nat} (h : s.procStops (.security (s.sec.role % 2)) = false) :
    s.regWrite f src off size v = s.heldWrites.regPut f src off size v := by
  unfold State.regWrite
  rw [if_neg (by simp [h])]

theorem State.heldWrites_nil {s : State} (h : s.sec.writes = []) : s.heldWrites = s := by
  unfold State.heldWrites
  rw [if_pos (by simp [h])]

/-- A register write at a register that is there (R4 to R7). -/
theorem State.regPut_at {s : State} {f src off v : Nat} {b : RegBlk} {o : Nat} {old : Word} (hf : s.fns.contains f = true)
    (h8 : off % 8 = 0) (hp : s.place f off = some (b, o)) (ha : s.absentBlk b = false) (hv : s.regValue f b o = some old)
    (hd : ∀ d, b.die? = some d → (s.die d).powered = true) : Recorded (s.regStore f b o v) (s.regPut f src off 8 v) := by
  unfold State.regPut
  rw [if_neg (by simp only [hf, Bool.not_true, Bool.false_eq_true, not_false_eq_true]), if_neg (by simp [h8]), hp]
  dsimp only
  rw [if_neg (by simp only [ha, Bool.false_eq_true, not_false_eq_true]), hv]
  dsimp only
  rw [if_neg (by
    cases e : b.die? with
    | none => exact Bool.false_ne_true
    | some d => simp [hd d e])]
  have h := Recorded.refl (s.regStore f b o v)
  split
  · split
    · exact (h.journalize _ _ _ _).measureConfig _ _ _
    · exact h.journalize _ _ _ _
  · exact h

theorem State.regWrite_at {s : State} {f src off v : Nat} {b : RegBlk} {o : Nat} {old : Word} (hf : s.fns.contains f = true)
    (h8 : off % 8 = 0) (hp : s.place f off = some (b, o)) (ha : s.absentBlk b = false) (hv : s.regValue f b o = some old)
    (hd : ∀ d, b.die? = some d → (s.die d).powered = true) (hs : s.procStops (.security (s.sec.role % 2)) = false)
    (hw : s.sec.writes = []) : Recorded (s.regStore f b o v) (s.regWrite f src off 8 v) := by
  rw [State.regWrite_put hs, State.heldWrites_nil hw]
  exact State.regPut_at hf h8 hp ha hv hd

theorem minus_eq (x c : Nat) : minus x c = x - c := by
  unfold minus
  split
  · exact (Nat.zero_sub c).symm
  · rfl

/-- The instance of a die that an offset names, in the function's numbers (R24, Table 13.4). -/
theorem State.place_die {s : State} {f d k : Nat} (hd : d < if s.quad then 1 else 4) (hk : k < 0xC00000) :
    s.place f (0x400000 + 0xC00000 * d + k) = dieBlk (s.physDie f d) k := by
  have e : 0x400000 + 0xC00000 * d + k - 0x400000 = k + 0xC00000 * d := by omega
  unfold State.place
  simp only [minus_eq]
  rw [if_neg (by omega), if_neg (by simp only [Bool.and_eq_true, decide_eq_true_eq]; omega), if_pos (by omega)]
  rw [e, Nat.add_mul_div_left _ _ (by decide : 0 < 0xC00000), Nat.div_eq_of_lt hk, Nat.zero_add, if_pos hd, Nat.add_mul_mod_self_left,
    Nat.mod_eq_of_lt hk]

end Sys2Proof.Machine
end

