-- ==== Sys2Proof/Laws/Start.lean ====
section
/-!
SUPPORT. A ZCP command that starts runs its effect, and nothing else happens.
-/
namespace Sys2Proof.Machine

/-- Whether a version is acceptable does not depend on what else waits. -/
theorem State.versionFail_fetched (s : State) (c d : Submission) (h : List Submission → List Submission) :
    (s.modFunc d.func fun g => { g with fetched := h g.fetched }).versionFail c = s.versionFail c := by
  have e : ((s.modFunc d.func fun g => { g with fetched := h g.fetched }).func c.func).version c.src = (s.func c.func).version c.src := by
    simp only [State.func, State.modFunc, modNth_getD]
    split <;> cases c.src <;> rfl
  unfold State.versionFail
  rw [e]
  rfl

theorem State.zcp_starts {s : State} {op : Nat} {c : Submission} (h : s.starts op c = true) (k : Submission → State → State) :
    s.zcp op c k = k (s.sent op c) (s.begun op c) := by
  have e : s.zcp op c k =
      (let c := s.sent op c
       let g := s.func c.func
       if !s.ready || 4 ≤ c.func then s
       else if g.fetched.contains c then
         if g.nextStart s.execWaits = some c then
           let s := s.modFunc c.func fun g => { g with fetched := eraseOne c g.fetched }
           match s.versionFail c with
           | some r => (s.violHdr c.func).single c stVersion (reason7 r)
           | none => if g.holds c then s.modFunc c.func fun g => { g with held := g.held ++ [c] } else s.start c (k c)
         else s
       else if g.released.contains c then
         if s.nextReleased s.execWaits c.func ≠ some c then s
         else (s.modFunc c.func fun g => { g with released := eraseOne c g.released }).start c (k c)
       else if g.held.contains c then s
       else
         let t := s.touched c
         match t.headerFail c with
         | some (st, r) => (t.violHdr c.func).single c st (reason7 r)
         | none =>
           if g.holds c || g.blocked g.fetched c || t.execWaits c then t.takeUp c
           else match t.versionFail c with
             | some r => (t.violHdr c.func).single c stVersion (reason7 r)
             | none => t.start c (k c)) := rfl
  rw [e]
  clear e
  unfold State.starts at h
  unfold State.begun
  generalize s.sent op c = d at h ⊢
  dsimp only at h ⊢
  unfold State.start
  simp only [Bool.and_eq_true, decide_eq_true_eq] at h
  obtain ⟨⟨hr, hf⟩, h⟩ := h
  have hb : (!s.ready || Decidable.decide (4 ≤ d.func)) = false := by simp [hr, hf]
  simp only [hb, Bool.false_eq_true, if_false]
  by_cases h1 : (s.func d.func).fetched.contains d = true
  · simp only [h1, if_true, Bool.and_eq_true, decide_eq_true_eq, Bool.not_eq_true', Option.isNone_iff_eq_none] at h ⊢
    obtain ⟨⟨h2, h3⟩, h4⟩ := h
    have e := s.versionFail_fetched d d (eraseOne d)
    rw [h3] at e
    simp only [h2, if_true, e, h4, if_false, Bool.false_eq_true]
  · by_cases h2 : (s.func d.func).released.contains d = true
    · simp only [h1, h2, if_true, if_false, Bool.false_eq_true, decide_eq_true_eq] at h ⊢
      simp only [h, ne_eq, not_true_eq_false, if_false]
    · simp only [h1, h2, if_false, Bool.false_eq_true] at h ⊢
      simp only [Bool.and_eq_true, Bool.not_eq_true', Option.isNone_iff_eq_none] at h
      obtain ⟨⟨⟨⟨⟨h3, h4⟩, h8⟩, h5⟩, h6⟩, h7⟩ := h
      simp only [h3, h4, h5, h6, h7, h8, Bool.or_self, Bool.false_eq_true, if_false]

end Sys2Proof.Machine
end

