-- ==== Sys2Proof/Laws/Stays.lean ====
section
/-!
SUPPORT. What the other twenty commands leave alone: those that change the presentation to come, the firmware, the scopes, or where
the module stands in its start-up (`Stays`), and the three at which a module reset takes place (`Rests`).
-/
namespace Sys2Proof.Machine

/-- What stands across every command: the command queue, the fuses and the shape; memory keeps its form and the rollback counter
does not fall. -/
structure Rests (s t : State) : Prop where
  pending : t.pending = s.pending
  fuses : t.fuses = s.fuses
  arCount : s.sec.arCount ≤ t.sec.arCount
  inv : s.Inv → t.Inv

/-- What stands between two module resets. -/
structure Stays (s t : State) : Prop where
  pending : t.pending = s.pending
  fuses : t.fuses = s.fuses
  quad : t.quad = s.quad
  zcpPin : t.zcpPin = s.zcpPin
  rwPin : t.rwPin = s.rwPin
  scopesUp : ∀ i, s.sec.scopes.testBit i = true → t.sec.scopes.testBit i = true
  arCount : s.sec.arCount ≤ t.sec.arCount
  seq : s.journal.nextSeq ≤ t.journal.nextSeq
  mem : Memory.wf s.mem = true → Memory.wf t.mem = true
  shape : t.shape = s.shape
  lost : ∀ d, (s.die d).lost = true → (t.die d).lost = true
  core : ∀ i, (s.core i).state ≠ 1 → (t.core i).state = (s.core i).state

theorem Keeps.stays {s t : State} (h : Keeps s t) : Stays s t :=
  ⟨h.pending, h.fuses, h.quad, h.zcpPin, h.rwPin, h.scopesUp, Nat.le_of_eq h.arCount.symm, h.seq, h.mem, h.shape, h.lost, h.core⟩

theorem Stays.rests {s t : State} (h : Stays s t) : Rests s t :=
  ⟨h.pending, h.fuses, h.arCount, fun k => ⟨h.mem k.1, h.shape.trans k.2⟩⟩

theorem Stays.trans {s t u : State} (h : Stays s t) (k : Stays t u) : Stays s u where
  pending := k.pending.trans h.pending
  fuses := k.fuses.trans h.fuses
  quad := k.quad.trans h.quad
  zcpPin := k.zcpPin.trans h.zcpPin
  rwPin := k.rwPin.trans h.rwPin
  scopesUp := fun i x => k.scopesUp i (h.scopesUp i x)
  arCount := Nat.le_trans h.arCount k.arCount
  seq := Nat.le_trans h.seq k.seq
  mem := k.mem ∘ h.mem
  shape := k.shape.trans h.shape
  lost := fun d x => k.lost d (h.lost d x)
  core := fun i x => by
    have e := h.core i x
    exact (k.core i (e ▸ x)).trans e

theorem Stays.refl (s : State) : Stays s s := (Keeps.refl s).stays

/-- After a state that stays, an operation that keeps. -/
theorem Stays.keeps {s t u : State} (h : Stays s t) (k : Keeps t u) : Stays s u := h.trans k.stays

theorem Stays.ite {c : Prop} [Decidable c] {s a b : State} (h : Stays s a) (k : Stays s b) : Stays s (if c then a else b) := by
  split <;> assumption

theorem Stays.foldl {α : Type} {s : State} {g : State → α → State} {l : List α} {t : State} (h : Stays s t)
    (k : ∀ u x, Stays s u → Stays s (g u x)) : Stays s (l.foldl g t) := by
  induction l generalizing t with
  | nil => exact h
  | cons x l ih => exact ih (k _ _ h)

/-- What a command of these may write besides: firmware of as many kinds, a rollback counter that does not fall, and anything in
the configuration record, the start-up state and the rest of the security state. -/
theorem Stays.upd {σ τ : State} (h : Stays σ τ) {fw : List FwKind} {cfg : ConfigRecord} {act : Option Activation} {sec : Security}
    {jtag : Jtag} {side : Sideband} {pcie : Pcie} {boot : Boot} {ready : Bool} {links : List Local}
    (hf : fw.length = τ.fw.length) (ha : τ.sec.arCount ≤ sec.arCount)
    (hu : ∀ i, τ.sec.scopes.testBit i = true → sec.scopes.testBit i = true := by exact fun _ x => x) :
    Stays σ ⟨τ.pending, τ.mem, τ.funcs, τ.dies, τ.clusters, τ.cores, τ.ports, links, τ.linkTrains, τ.linkRetries, τ.badLines, τ.fuses, cfg, τ.quad,
      τ.zcpPin, τ.rwPin, τ.fwSel, fw, act, τ.deferTime, τ.procs, sec, jtag, side, pcie, boot, ready, τ.twinEn, τ.twinGib, τ.twinNow,
      τ.journal, τ.clk, τ.noteSeq, τ.probe, τ.fresh, τ.out⟩ :=
  { h with
    arCount := Nat.le_trans h.arCount ha
    scopesUp := fun i x => hu i (h.scopesUp i x)
    shape := by rw [← h.shape]; simp [State.shape, hf] }

theorem Stays.modFw {σ τ : State} (h : Stays σ τ) (k : Nat) (g : FwKind → FwKind) : Stays σ (τ.modFw k g) :=
  h.upd (modNth_length _ _ _) (Nat.le_refl _)

/-- A command's answer. -/
def StaysD (s : State) (o : Done) : Prop := ∃ t, o = .next t ∧ Stays s t
def RestsD (s : State) (o : Done) : Prop := ∃ t, o = .next t ∧ Rests s t

theorem StaysD.next {s t : State} (h : Stays s t) : StaysD s (.next t) := ⟨t, rfl, h⟩
theorem RestsD.next {s t : State} (h : Rests s t) : RestsD s (.next t) := ⟨t, rfl, h⟩
theorem KeepsD.stays {s : State} {o : Done} (h : KeepsD s o) : StaysD s o := let ⟨t, e, k⟩ := h; ⟨t, e, k.stays⟩
theorem StaysD.rests {s : State} {o : Done} (h : StaysD s o) : RestsD s o := let ⟨t, e, k⟩ := h; ⟨t, e, k.rests⟩

/-! ## The presentation to come (R29) -/

theorem Stays.of_modPresent' {s τ : State} (h : Stays s τ) (c : Submission) : Stays s (modPresent' c τ) := by
  unfold modPresent'
  extract_lets v old src t detail
  split
  · exact h.keeps ((Keeps.refl _).single _ _ _ _ _)
  · have k : Stays s t := h.upd rfl (Nat.le_refl _)
    clear_value t
    split
    · exact k.keeps ((Keeps.refl _).single _ _ _ _ _)
    · exact k.keeps ((((Keeps.refl _).journalCmd _).measureConfig _ _ _).single _ _ _ _ _)

/-- A command that the ZCP may hold, refuse or start. -/
theorem Stays.start {s τ : State} (h : Stays s τ) (c : Submission) (k : State → State) (hk : ∀ u, Stays s u → Stays s (k u)) :
    Stays s (τ.start c k) := by
  unfold State.start
  apply hk
  split
  · exact h.keeps ((Keeps.refl _).cntMod _ _ _)
  · exact h

theorem Stays.zcp {τ : State} (op : Nat) (c : Submission) (k : Submission → State → State)
    (hk : ∀ c u, Stays τ u → Stays τ (k c u)) : Stays τ (τ.zcp op c k) := by
  have g := Keeps.refl τ
  have h := g.stays
  unfold State.zcp
  dsimp only
  repeat' first
    | with_reducible assumption
    | with_reducible exact hk _
    | with_reducible refine Stays.start ?_ _ _ ?_
    | with_reducible exact (g.modFunc _ _).stays
    | with_reducible exact ((g.modFunc _ _).modFunc _ _).stays
    | (with_reducible refine Keeps.stays ?_; with_reducible apply Keeps.takeUp)
    | (with_reducible refine Keeps.stays ?_; with_reducible apply Keeps.single)
    | with_reducible apply Keeps.violHdr
    | with_reducible apply Keeps.modFunc
    | split

theorem StaysD.of_execModPresent (c : Submission) (s : State) : StaysD s (execModPresent c s) :=
  StaysD.next (Stays.zcp _ _ _ fun _ _ h => h.of_modPresent' _)

/-! ## Activation (R390 to R393) -/

theorem Stays.actWrite {s τ : State} (h : Stays s τ) (a : Activation) : Stays s (τ.actWrite a) := by
  unfold State.actWrite
  split
  · exact h.keeps (((Keeps.refl _).actEnd _).actFinal _ _ _ _)
  · exact (h.modFw _ _).keeps ((Keeps.refl _).actRestart _)

theorem Stays.of_fwActivate' {s τ : State} (h : Stays s τ) (c : Submission) : Stays s (fwActivate' c τ) := by
  unfold fwActivate'
  extract_lets kind f t reason t1 t2 src
  have h1 : Stays s t := h.keeps ((Keeps.refl _).interim _ _)
  have fin : ∀ st d, Stays s (t.final c st d) := fun st d => h1.keeps ((Keeps.refl _).final _ _ _ _ _)
  split
  · exact fin _ _
  · split
    · exact fin _ _
    · split
      · exact fin _ _
      · split
        · exact fin _ _
        · extract_lets a
          have h2 : Stays s t2 := (h1.keeps ((Keeps.refl _).modFunc _ _)).keeps (Keeps.upd (Keeps.refl _) rfl rfl rfl)
          clear_value t2
          split
          · exact h2.keeps (Keeps.interim (Keeps.upd ((Keeps.refl t2).cntAll _ _) rfl rfl rfl) _ _)
          · exact h2.actWrite _

theorem StaysD.of_execFwActivate (c : Submission) (s : State) : StaysD s (execFwActivate c s) :=
  StaysD.next (Stays.zcp _ _ _ fun _ _ h => h.of_fwActivate' _)

theorem StaysD.of_execFwActivateProceed (s : State) : StaysD s (execFwActivateProceed s) := by
  unfold execFwActivateProceed
  split
  · split
    · exact StaysD.next ((Stays.refl s).actWrite _)
    · exact StaysD.next (Stays.refl s)
  · exact StaysD.next (Stays.refl s)

theorem StaysD.of_execFwActivateDone (s : State) : StaysD s (execFwActivateDone s) := by
  unfold execFwActivateDone
  split
  · rename_i a _
    split
    · exact StaysD.next (Stays.refl s)
    · extract_lets t1 src t2 t3
      have h1 : Stays s t1 := (Stays.refl s).keeps ((Keeps.refl _).actEnd _)
      clear_value t1
      have h2 : Stays s t2 := h1.upd rfl (Nat.le_max_left _ _)
      clear_value t2
      have h3 : Stays s t3 := (h2.modFw _ _).keeps ((Keeps.refl _).measureKind _ _)
      clear_value t3
      exact StaysD.next (h3.keeps (((((Keeps.refl _).journalCmd _).measure _ _ _ _ _).cntAll _ _).actFinal _ _ _ _))
  · exact StaysD.next (Stays.refl s)

theorem StaysD.of_execActivationRevert (s : State) : StaysD s (execActivationRevert s) := by
  unfold execActivationRevert
  extract_lets core
  split
  · split
    · exact StaysD.next (Stays.refl s)
    · extract_lets t1 p t2
      have h1 : Stays s t1 := (Stays.refl s).modFw _ _
      have h2 : Stays s t2 := h1.keeps (Keeps.upd (Keeps.refl t1) rfl rfl rfl)
      clear_value t2
      exact StaysD.next (h2.keeps ((Keeps.refl _).revertNext _))
  · exact StaysD.next (Stays.refl s)

/-! ## Unlock (R410) -/

/-- Judging a token opens what it names, and closes nothing. -/
theorem Stays.judgeToken {s τ : State} (h : Stays s τ) (token : List Byte) : Stays s (τ.judgeToken token) := by
  unfold State.judgeToken
  extract_lets ok u t1 v t2
  have h1 : Stays s t1 := h.upd rfl (Nat.le_refl _)
  clear_value t1
  split
  · have h2 : Stays s t2 := h1.upd rfl (Nat.le_refl _) (fun i x => by simp [x])
    clear_value t2
    exact h2.keeps (((Keeps.refl _).measure _ _ _ _ _).cntAll _ _)
  · exact h1.keeps ((Keeps.refl _).cntAll _ _)

theorem StaysD.of_execUnlock (token : List Byte) (s : State) : StaysD s (execUnlock token s) := by
  unfold execUnlock State.jtagUp
  refine StaysD.next ?_
  split
  · dsimp -zeta only
    extract_lets v t
    have h : Stays s t := Stays.keeps (t := { s with sec := { s.sec with tokens := s.sec.tokens ++ [token] } })
      ((Stays.refl s).upd rfl (Nat.le_refl _)) ((Keeps.refl _).actsBypass _)
    clear_value t
    split
    · exact h
    · unfold State.judgeTokens
      exact Stays.foldl (h.upd rfl (Nat.le_refl _)) fun _ _ k => k.judgeToken _
  · exact Stays.refl s

/-! ## A processor resumes (R387, R393) -/

theorem Stays.actResume {s τ : State} (h : Stays s τ) (p : Proc) : Stays s (τ.actResume p) := by
  unfold State.actResume
  split
  · exact h
  · dsimp only
    exact Stays.ite
      (Stays.ite (h.keeps (Keeps.upd (Keeps.refl _) rfl rfl rfl))
        (Stays.ite (h.keeps ((Keeps.refl _).revertNext _)) (h.keeps ((Keeps.refl _).actRestart _))))
      (Stays.ite
        (Stays.ite (h.keeps ((Keeps.refl _).actRestart _))
          (Stays.ite (h.keeps (((Keeps.refl _).actEnd _).actFinal _ _ _ _)) (h.actWrite _))) h)

theorem StaysD.of_execProcessorRestartDone (p : Proc) (s : State) : StaysD s (execProcessorRestartDone p s) := by
  unfold execProcessorRestartDone
  split
  · exact StaysD.next (Stays.refl s)
  · extract_lets v t
    have h : Stays s t := Keeps.stays (Keeps.upd (Keeps.refl s) rfl rfl rfl)
    clear_value t
    exact StaysD.next ((h.actResume p).keeps ((Keeps.refl _).resumeProc p))

/-! ## Start-up (R442 to R446) -/

theorem Stays.lineDone {s τ : State} (h : Stays s τ) (n : Nat) : Stays s (τ.lineDone n) := h.upd rfl (Nat.le_refl _)

theorem StaysD.of_execSoftStart (s : State) : StaysD s (execSoftStart s) := by
  unfold execSoftStart
  refine StaysD.next (Stays.ite ?_ ?_)
  · exact (Stays.refl s).upd rfl (Nat.le_refl _)
  · exact (Stays.refl s).upd rfl (Nat.le_refl _)

theorem Core.halted_state (c : Core) : c.halted.state = c.state := rfl

theorem Stays.dropAll {s τ : State} (h : Stays s τ) : Stays s τ.dropAll := by
  unfold State.dropAll
  extract_lets t1 t2
  have h1 : Stays s t1 := h.keeps (Keeps.foldl (Keeps.refl _) fun _ _ k => k.emptyEngines _)
  clear_value t1
  have h2 : Stays s t2 :=
    { h1 with
      shape := by rw [← h1.shape]; simp [State.shape, t2]
      core := fun i x => by
        have e := h1.core i x
        by_cases n : i < t1.cores.length
        · simpa [State.core, t2, n, Core.halted_state] using e
        · simpa [State.core, t2, n] using e }
  clear_value t2
  exact { h2 with shape := by rw [← h2.shape]; simp [State.shape] }

theorem StaysD.of_execPerstAssert (s : State) : StaysD s (execPerstAssert s) := by
  unfold execPerstAssert
  split
  · exact StaysD.next (Stays.refl s)
  · split
    · exact StaysD.next ((Stays.refl s).upd rfl (Nat.le_refl _))
    · extract_lets t
      have h : Stays s t := (Stays.refl s).dropAll
      clear_value t
      exact StaysD.next (h.upd rfl (Nat.le_refl _))

theorem StaysD.of_execRomBoot (s : State) : StaysD s (execRomBoot s) := by
  unfold execRomBoot
  split
  · exact StaysD.next (Stays.refl s)
  · extract_lets t
    have h : Stays s t := ((Stays.refl s).keeps (((Keeps.refl _).setMeas _ _).measureBlock)).lineDone 1
    clear_value t
    exact StaysD.next (h.upd rfl (Nat.le_refl _))

theorem Stays.verifyKind {s τ : State} (h : Stays s τ) (k : Nat) : Stays s (τ.verifyKind k) := by
  unfold State.verifyKind
  split
  · exact h.keeps ((Keeps.refl _).measureKind _ _)
  · split
    · extract_lets src t
      have h1 : Stays s t := h.upd rfl (Nat.le_max_left _ _)
      clear_value t
      exact (h1.modFw _ _).keeps ((Keeps.refl _).measureKind _ _)
    · extract_lets t
      have h1 : Stays s t := Stays.ite (h.keeps (Keeps.refl _).secDenied) h
      clear_value t
      exact h1.keeps (((Keeps.refl _).measureKind _ _).emit _ _ _ _ _)

theorem StaysD.of_execOverlayVerify (s : State) : StaysD s (execOverlayVerify s) := by
  unfold execOverlayVerify
  split
  · exact StaysD.next (Stays.refl s)
  · exact StaysD.next (((Stays.foldl (Stays.refl s) fun _ _ k => k.verifyKind _).keeps (Keeps.refl _).measureBlock).lineDone 2)

theorem StaysD.of_execDiePowerUp (s : State) : StaysD s (execDiePowerUp s) := by
  unfold execDiePowerUp
  split
  · exact StaysD.next (Stays.refl s)
  · extract_lets t1 t2
    have h1 : Keeps s t1 := by
      refine Keeps.foldl (Keeps.refl s) fun _ _ k => ?_
      exact k.modDie _ _ fun _ h => h
    clear_value t1
    have h2 : Keeps s t2 := Keeps.foldl h1 fun _ _ k => Keeps.ite (k.startTraining _) k
    exact StaysD.next (h2.stays.lineDone 3)

theorem StaysD.of_execPcieLinkUp (s : State) : StaysD s (execPcieLinkUp s) := by
  unfold execPcieLinkUp
  split
  · exact StaysD.next (Stays.refl s)
  · exact StaysD.next (Stays.lineDone ((Stays.refl s).upd rfl (Nat.le_refl _)) 4)

theorem StaysD.of_execMemoryInit (s : State) : StaysD s (execMemoryInit s) := by
  unfold execMemoryInit
  split
  · exact StaysD.next (Stays.refl s)
  · exact StaysD.next ((Stays.refl s).lineDone 5)

theorem Core.tested_state (c : Core) (failed : Bool) (cols : List Nat) (h : c.state ≠ 1) : (c.tested failed cols).state = c.state := by
  unfold Core.tested
  simp [h]

theorem getD_zipIdx_map {α β : Type} (l : List α) (g : α × Nat → β) (i : Nat) (d : β) (e : α) (k : l.length ≤ i → d = g (e, i)) :
    (l.zipIdx.map g).getD i d = g (l.getD i e, i) := by
  by_cases h : i < l.length
  · simp [h]
  · simp [h, k (Nat.le_of_not_lt h)]

theorem Stays.selfTested {s τ : State} (h : Stays s τ) (t : SelfTest) : Stays s (τ.selfTested t) := by
  unfold State.selfTested
  extract_lets cores clusters dies src ports failed
  exact
    { h with
      shape := by rw [← h.shape]; simp [State.shape, cores, clusters, dies, ports]
      lost := fun d x => by
        have := h.lost d x
        by_cases k : d < τ.dies.length
        · simpa [State.die, dies, k] using this
        · simpa [State.die, dies, k] using this
      core := fun i x => by
        have e := h.core i x
        rw [← e] at x ⊢
        by_cases k : i < τ.cores.length
        · simp only [State.core, cores, List.getD_eq_getElem?_getD, List.getElem?_map, List.getElem?_zipIdx,
            List.getElem?_eq_getElem k, Option.map_some, Option.getD_some] at x ⊢
          exact Core.tested_state _ _ _ x
        · simp [State.core, cores, k] }

theorem StaysD.of_execZcpReady (t : SelfTest) (s : State) : StaysD s (execZcpReady t s) := by
  unfold execZcpReady
  split
  · exact StaysD.next (Stays.refl s)
  · extract_lets t1 t2 t3
    have h1 : Stays s t1 := (Stays.refl s).selfTested t
    clear_value t1
    have h2 : Stays s t2 := h1.keeps (Keeps.foldl (Keeps.refl _) fun _ _ k => Keeps.ite (k.loseSecurity _) k)
    clear_value t2
    have h3 : Stays s t3 := Stays.lineDone (h2.upd rfl (Nat.le_refl _)) 7
    clear_value t3
    exact StaysD.next (Stays.ite (h3.keeps (Keeps.foldl (Keeps.refl _) fun _ _ k => k.put _)) h3)

theorem StaysD.of_execFullSelftestDone (s : State) : StaysD s (execFullSelftestDone s) := by
  unfold execFullSelftestDone
  split
  · exact StaysD.next (Stays.refl s)
  · extract_lets t1
    have h1 : Stays s t1 := (Keeps.foldl (Keeps.refl s) fun _ _ k => k.formPlan _).stays
    clear_value t1
    exact StaysD.next (Stays.lineDone (h1.upd rfl (Nat.le_refl _)) 8)

theorem StaysD.of_execPcieLinkReset (e : LinkEvent) (s : State) : StaysD s (execPcieLinkReset e s) := by
  unfold execPcieLinkReset
  split
  · exact StaysD.next (Stays.refl s)
  · extract_lets t1 a
    have h1 : Stays s t1 := (Keeps.foldl (Keeps.refl s) fun _ _ k => k.modFunc _ _).stays
    clear_value t1
    exact StaysD.next (h1.upd rfl (Nat.le_refl _))

theorem StaysD.of_execFabRefclkLoss (s : State) : StaysD s (execFabRefclkLoss s) := by
  unfold execFabRefclkLoss
  extract_lets on src t1
  have h1 : Stays s t1 := (Stays.refl s).upd rfl (Nat.le_refl _)
  clear_value t1
  exact StaysD.next (h1.keeps (Keeps.foldl (Keeps.refl _) fun _ _ k => k.portDown _))

/-! ## Module reset (R8, R429, R446) -/

theorem Rests.refl (s : State) : Rests s s := (Stays.refl s).rests

/-- A state with the memory and the units of another. -/
theorem Inv.of_eq {s t : State} (hm : t.mem = s.mem) (hs : t.shape = s.shape) (h : s.Inv) : t.Inv := ⟨hm ▸ h.1, hs.trans h.2⟩

theorem State.atReset_inv (cfg : ConfigRecord) (fuses : Fuses) (ar : Nat) (cold : Bool) : (State.atReset cfg fuses ar cold).Inv :=
  ⟨rfl, by simp [State.shape, State.atReset]⟩

/-- After a module reset there are the units of Table 1.1 and empty memory. -/
theorem State.restart_inv {s : State} (cold : Bool) (h : s.Inv) : (s.restart cold).Inv := by
  refine ⟨rfl, ?_⟩
  have e : s.fw.length = 4 := by
    have := congrArg (fun l => l.getD 5 0) h.2
    exact this
  simp [State.shape, State.restart, State.atReset, e]

theorem Rests.restart {s : State} (cold : Bool) : Rests s (s.restart cold) where
  pending := rfl
  fuses := rfl
  arCount := Nat.le_refl _
  inv := State.restart_inv cold

theorem Rests.upd {s t : State} (h : Rests s t) {boot : Boot} {out : List Output} {jtag : Jtag} :
    Rests s { t with boot := boot, out := out, jtag := jtag } :=
  ⟨h.pending, h.fuses, h.arCount, fun k => Inv.of_eq rfl rfl (h.inv k)⟩

theorem RestsD.of_execPwrGood (s : State) : RestsD s (execPwrGood s) := by
  unfold execPwrGood
  split
  · exact RestsD.next ((Rests.restart true).upd)
  · exact RestsD.next (Rests.refl s)

theorem RestsD.of_execPerstDeassert (s : State) : RestsD s (execPerstDeassert s) := by
  unfold execPerstDeassert
  extract_lets src t
  have h : Rests s t := (Rests.refl s).upd
  split
  · exact RestsD.next (Rests.refl s)
  · split
    · exact RestsD.next h
    · have k : Rests s (t.restart (!t.boot.perstPending && t.boot.cold)) :=
        ⟨rfl, rfl, Nat.le_refl _, fun x => State.restart_inv _ (h.inv x)⟩
      exact RestsD.next k.upd

theorem RestsD.of_execHotSwapOff (cause : OffCause) (s : State) : RestsD s (execHotSwapOff cause s) := by
  unfold execHotSwapOff
  extract_lets on b b' t1 src t2
  have h : ∀ b, Rests s { s with boot := b } := fun b => (Rests.refl s).upd
  split
  · split
    · exact RestsD.next (Rests.refl s)
    · exact RestsD.next (h _)
  · have k1 : Rests s t1 := ⟨rfl, rfl, Nat.le_refl _, fun x => State.restart_inv _ ((h b').inv x)⟩
    have k2 : Rests s t2 := k1.upd
    clear_value t2
    refine RestsD.next ?_
    split
    · exact k2.upd
    · exact k2

/-! ## The time sources -/

/-- A tick changes time alone. -/
theorem tick_inv {s : State} (h : s.Inv) : (tick s).Inv := by
  refine ⟨h.1, ?_⟩
  rw [← h.2]
  simp [State.shape, tick]

end Sys2Proof.Machine
end

