-- ==== Sys2Proof/Tests/Slice0.lean ====
section
/-!
SUPPORT. Tests of the model: the checks of WellFormed on ill-formed terms, worked examples of the spec, and for every statement of
Sys2Proof/Certificates/Slice0/Obligations.lean a state and operands that meet the hypotheses of each of its clauses together.
-/
namespace Sys2Proof.Tests
open Sys2Proof Sys2Proof.Machine

-- One test after another, so that no more memory is used than one of them needs.
set_option Elab.async false

/-! ## Small states -/

/-- The module in operation: reset over, every die powered, READY set, version 1.4 negotiated on the sideband. -/
def ready : State :=
  { State.reset with
    ready := true
    boot := { State.reset.boot with softStart := true, pwrGood := true, perst := false, done := 8, fullDone := true }
    pcie := ⟨true, false, State.reset.pcie.spaces⟩
    dies := State.reset.dies.map fun d => { d with powered := true }
    funcs := State.reset.funcs.map fun g => { g with sideVer := some 0x14 } }

/-- The same module presented as four. -/
def quad : State :=
  { ready with
    quad := true
    funcs := ready.funcs.map fun g => { g with queues := List.replicate 16 Queue.reset } }

/-- `n` bytes with little-endian fields: offset, length, value. -/
def record (n : Nat) (l : List (Nat × Nat × Nat)) : List Byte :=
  l.foldl (fun b x => b.take x.1 ++ leBytes x.2.1 x.2.2 ++ b.drop (x.1 + x.2.1)) (zeros n)

/-- A command on the sideband: fields of its header by their offset in the slot (24 to 63), and its parameters. -/
def cmd (op : Nat) (fields : List (Nat × Nat × Nat)) (params : List Byte) : Submission :=
  ⟨.sideband, 0, op, 0x14, false, false, false, 1, params.length, 0xF, 0xFFFFF, 0,
    record 40 (fields.map fun x => (x.1 - 24, x.2)), params⟩

/-- The same, tagged with a step. -/
def tagged (step op : Nat) (fields : List (Nat × Nat × Nat)) (params : List Byte) : Submission :=
  { cmd op fields params with stepTagged := true, step := step }

/-- One EXPAND-free descriptor: a vector descriptor of kind MAP, one vector of one column, without a gradient. -/
def descMap : List Byte :=
  record 128 [(0, 2, 0x30), (2, 1, 2), (3, 1, 2), (4, 1, 0xFF), (5, 1, 1), (8, 2, 0xFFFF), (10, 2, 0xFFFF), (12, 4, 1), (16, 4, 1),
    (20, 4, 1), (24, 8, 0x10000), (40, 8, 0x20000), (64, 1, 10), (68, 4, 4), (72, 4, 4)]

/-- The parameters of PLAN_LOAD for that descriptor in slot 0 with group 0. -/
def planParams : List Byte := record 48 [(0, 1, 0), (2, 2, 1), (8, 8, 0x1000), (24, 4, 0), (28, 2, 0), (30, 2, 1), (32, 8, 0x40000)]

/-- A group of two ranks, this module being rank 0. -/
def group0 : Group := ⟨record 32 [(1, 1, 1), (4, 2, 2), (6, 2, 0), (8, 2, 1), (10, 2, 100), (12, 4, 7), (16, 8, 0x50000)], [11, 22], [], [], false⟩

/-- A module with the descriptor in memory and the group set. -/
def grouped : State :=
  (ready.devWrite 0 0x1000 descMap).modFunc 0 fun g => { g with groups := g.groups.set 0 (some group0) }

def plan0 : Plan := grouped.readPlan 0 planParams

/-- The plan is loaded. -/
def loaded : State := grouped.modFunc 0 fun g => { g with plans := g.plans.set 0 (some plan0) }

def step0 : Step := { (default : Step) with sub := tagged 5 0x0302 [] [], n := 5, phase := .f, tileSeq := [0, 0, 0, 0] }

/-- Step 5 of the plan is in work. -/
def running : State := loaded.modFunc 0 fun g => { g with accepted := [(0, step0.sub)], cur := some step0 }

/-- A table of four rows of 16 FP32 elements, whose one owner is die 0 of this module. -/
def tblParams : List Byte :=
  record 64 [(0, 1, 3), (1, 1, 0), (2, 1, 1), (4, 2, 16), (6, 1, 12), (8, 8, 4), (16, 4, 64), (20, 2, 1), (22, 2, 0), (24, 4, 1),
    (32, 8, 0x60000), (40, 8, 0x61000)]

def table0 : Table :=
  { params := tblParams, modules := [11], owners := [0], record := 0x70000
    blocks := [⟨0, 0, 0, 0x71000, List.replicate 256 ⟨0x100000, 17, 0⟩, 0, 0, 0, 0⟩], flipped := [], poisoned := [], migUsed := [] }

def tabled : State := loaded.modFunc 0 fun g => { g with tables := [(3, table0)] }

/-- The value that an option holds. -/
theorem some_of {α : Type} {o : Option α} (h : o.isSome = true) : ∃ x, o = some x := Option.isSome_iff_exists.mp h

/-! ## Witnesses: the whole machine -/

theorem wit_step_front : ({ ready with pending := [Instr.clamp] } : State).pending = Instr.clamp :: [] := rfl

theorem wit_step_idle : ready.pending = [] := rfl

theorem wit_inv : ready.Inv ∧ ∃ t, step ready = .next t := ⟨⟨by decide +kernel, by decide +kernel⟩, _, rfl⟩

theorem wit_exec : (∃ t, exec .softStart ready = .next t) ∧ Instr.softStart ≠ .pwrGood ∧ Instr.softStart ≠ .perstDeassert ∧
    (∀ w, Instr.softStart ≠ .hotSwapOff w) ∧ (∀ x, Instr.softStart ≠ .modPresent x) ∧ (∀ x, Instr.softStart ≠ .unlock x) ∧
    (∀ p, Instr.softStart ≠ .processorRestartDone p) ∧ ready.sec.tokens = [] ∧
    bit ({ ready with sec := { ready.sec with scopes := 4 } } : State).sec.scopes 2 = true ∧ (∀ x, Instr.softStart ≠ .fwActivate x) ∧ Instr.softStart ≠ .fwActivateProceed ∧ Instr.softStart ≠ .activationRevert ∧
    Instr.softStart ≠ .fwActivateDone ∧ Instr.softStart ≠ .overlayVerify := by
  refine ⟨⟨_, rfl⟩, by simp, by simp, by simp, by simp, by simp, by simp, by decide +kernel, by decide, by simp, by simp, by simp, by simp,
    by simp⟩

theorem wit_removed : ((ready.modDie 2 fun x => { x with lost := true }).die 2).lost = true ∧ ((ready.modCore 9 fun x => { x with state := 2 }).core 9).state ≠ 1 := by
  decide +kernel

/-! ## Witnesses: commands of the ZCP -/

/-- Every command can start in the module in operation. -/
theorem wit_starts : ∀ op ∈ [0x0001, 0x0002, 0x0010, 0x0011, 0x0012, 0x0013, 0x0101, 0x0103, 0x0104, 0x0106, 0x0201, 0x0202, 0x0301,
    0x0302, 0x0305, 0x0401, 0x0405, 0x0501, 0x0503, 0x0504, 0x0601, 0x0602, 0x0701, 0x0702, 0x0703, 0x0704, 0x0801, 0x0901, 0x0902],
    ready.starts op (cmd op [] []) = true := by decide +kernel

theorem wit_mod_present : ∀ v ∈ [0, 1], let c := cmd 2 [(24, 1, v)] []; ready.starts 2 c = true ∧ hb (ready.sent 2 c) 24 1 ≤ 1 := by decide +kernel

theorem wit_quench : let c := cmd 0x10 [] []
    ready.starts 0x10 c = true ∧ ((ready.begun 0x10 c).func 0).activePlan = none ∧ running.starts 0x10 c = true ∧
      ((running.begun 0x10 c).func 0).activePlan.isSome = true ∧ ((running.begun 0x10 c).func 0).cur = some step0 ∧ 0 < running.funcs.length := by
  decide +kernel

theorem wit_disable : ∀ v ∈ [0, 1], let c := cmd 0x11 [(24, 1, 0x3F), (25, 1, v)] []
    ready.starts 0x11 c = true ∧ hb (ready.sent 0x11 c) 24 1 < 64 ∧ hb (ready.sent 0x11 c) 25 1 = v := by decide +kernel

theorem wit_drain : ∀ v ∈ [0, 1], let c := cmd 0x12 [(24, 1, v)] []
    ready.starts 0x12 c = true ∧ hb (ready.sent 0x12 c) 24 1 = v := by decide +kernel

/-- A stop of no unit waits, in function 0 of four with one cluster in service. -/
def stopping (op : Nat) : State := { quad with clusters := (List.range 80).map fun k => { Cluster.reset with enabled := k = 0 } }.modFunc 0 fun g => { g with stops := [⟨cmd op [] [], [], 2, 0, 0⟩] }

theorem wit_stop_events : let j (op : Nat) : StopJob := ⟨cmd op [] [], [], 2, 0, 0⟩
    (((stopping 0x11).func 0).stopReady 0x11 (fun j => j.units.all ((stopping 0x11).atBoundary 0)) = some (j 0x11)) ∧
      (((stopping 0x12).func 0).stopReady 0x12 (fun j => j.units.all (stopping 0x12).drainedUnit) = some (j 0x12)) ∧
      (((stopping 0x10).func 0).stops.filter fun j => j.sub.opcode = 0x10) = [j 0x10] ∧
      ((((stopping 0x10).diesOf 0).flatMap (stopping 0x10).coresOf).all fun i =>
        !(((stopping 0x10).core i).mxe.selftest && ((stopping 0x10).core i).mxe.state ≠ 6)) = true ∧ 0 < ready.funcs.length := by
  decide +kernel

theorem wit_cnt : let c := cmd 0x0702 [(24, 4, 327679), (28, 4, 1), (32, 8, 0x1000)] []
    (ready.starts 0x0702 c = true ∧ 1 ≤ hb (ready.sent 0x0702 c) 28 4 ∧ hb (ready.sent 0x0702 c) 28 4 ≤ 4096 ∧
      hb (ready.sent 0x0702 c) 24 4 + hb (ready.sent 0x0702 c) 28 4 ≤ 327680 ∧
      (ready.begun 0x0702 c).outOk (ready.sent 0x0702 c) (hb (ready.sent 0x0702 c) 32 8) (8 * hb (ready.sent 0x0702 c) 28 4) = true) ∧
    (ready.starts 0x0703 c = true ∧ 1 ≤ hb (ready.sent 0x0703 c) 28 4 ∧ hb (ready.sent 0x0703 c) 28 4 ≤ 4096 ∧
      hb (ready.sent 0x0703 c) 24 4 + hb (ready.sent 0x0703 c) 28 4 ≤ 327680) ∧
    let a := cmd 0x0703 [(40, 1, 1)] []
    ready.starts 0x0703 a = true ∧ bit (hb (ready.sent 0x0703 a) 40 1) 0 = true := by decide +kernel

theorem wit_flt_query : let c := cmd 0x0701 [(24, 1, 3), (25, 1, 255), (26, 2, 256), (32, 8, 0x1000)] []
    let d := ready.sent 0x0701 c
    let u := ready.begun 0x0701 c
    ready.starts 0x0701 c = true ∧ hb d 24 1 ≤ (if u.quad then 0 else 3) ∧ 1 ≤ hb d 26 2 ∧ hb d 26 2 ≤ 256 ∧
      u.outOk d (hb d 32 8) (32 * hb d 26 2) = true ∧ u.up (u.physDie d.func (hb d 24 1)) = true := by decide +kernel

theorem wit_tbl_create : let c := cmd 0x0101 [] tblParams
    ready.starts 0x0101 c = true ∧ (ready.sent 0x0101 c).paramLen = 64 ∧ ((ready.begun 0x0101 c).func 0).tableActive 3 = false := by
  decide +kernel

/-- TBL_CREATE of a table of two modules at work, with its lists in memory; its one owner is of module `m`. -/
def creating (fmt rows m : Nat) : State × AsyncJob :=
  let j : AsyncJob := ⟨cmd 0x0101 [] (record 64 [(0, 1, 3), (1, 1, fmt), (2, 1, 1), (4, 2, 16), (6, 1, 12), (8, 8, rows), (16, 4, 64), (20, 2, 2),
    (24, 4, 1), (32, 8, 0x60000), (40, 8, 0x61000)]), 3, false, 0, 0⟩
  (((ready.devWrite 0 0x60000 (leBytes 8 11 ++ leBytes 8 12)).devWrite 0 0x61000 (leBytes 4 (4 * m))).modFunc 0 fun g => { g with jobs := [j] }, j)

theorem wit_tbl_create_done : ∀ x ∈ [(3, 64, 1, true, true), (0, 64, 1, false, true), (0, 2 ^ 39, 0, false, false)],
    let s := (creating x.1 x.2.1 x.2.2.1).1
    let j := (creating x.1 x.2.1 x.2.2.1).2
    let u := (s.modFunc 0 fun g => { g with asks := g.asks.filter fun a => a.sub ≠ some j.sub }).endJob 0 j
    let T := u.readTable 0 j.sub.params
    (s.func 0).job 0x0101 3 = some j ∧ s.leadStops 0 = false ∧ ((s.func 0).asks.any fun a => a.sub = some j.sub && a.waits.isSome) = false ∧ u.tableBad 0 T = x.2.2.2.1 ∧
      (x.2.2.2.1 = false → (u.buildTable 0 (.table (256 + T.id)) T).isSome = x.2.2.2.2) ∧ 0 < s.funcs.length := by decide +kernel

theorem wit_row_commands : ∀ replace ∈ [false, true],
    let op := if replace then 0x0104 else 0x0103
    let c := cmd op [(24, 1, 3), (28, 4, 1), (32, 8, 0x62000), (40, 8, 0x63000), (48, 2, 15), (50, 2, 1)] []
    let d := tabled.sent op c
    let u := tabled.begun op c
    let first := if replace then 0 else hb d 48 2
    let count := if replace then table0.elems else hb d 50 2
    tabled.starts op c = true ∧ (u.func d.func).table (hb d 24 1) = some table0 ∧ 1 ≤ hb d 28 4 ∧ hb d 28 4 ≤ 2 ^ 20 ∧ 1 ≤ count ∧
      first + count ≤ table0.elems := by decide +kernel

theorem wit_migrate_done : let j : AsyncJob := ⟨cmd 0x0106 [] [], 3, true, 0, 0⟩
    let s := tabled.modFunc 0 fun g => { g with jobs := [j] }
    (s.func 0).job 0x0106 3 = some j ∧ s.leadStops 0 = false ∧ j.started = true ∧
      ((s.func 0).migs.any fun m => m.table = 3 && m.host) = false ∧ ((s.func 0).hostMoves.any fun m => m.1 = 3) = false := by
  decide +kernel

/-- A graph of one node with one edge, in slot 2. -/
def graphing (weighted : Bool) : State × AsyncJob :=
  let p := record 64 [(0, 1, 2), (1, 1, b2n weighted), (8, 8, 1), (16, 8, 1), (24, 8, 0x8000), (32, 8, 0x9000), (40, 8, 0xA000), (48, 8, 0xB000),
    (56, 8, 4096)]
  let j : AsyncJob := ⟨cmd 0x0201 [] p, 2, false, 0, 0⟩
  ((ready.devWrite 0 0x8008 (leBytes 8 1)).modFunc 0 fun g => { g with jobs := [j] }, j)

theorem wit_graph_load : let c := cmd 0x0201 [] (zeros 64)
    ready.starts 0x0201 c = true ∧ (ready.sent 0x0201 c).paramLen = 64 ∧ ((ready.begun 0x0201 c).func 0).graphActive 0 = false := by
  decide +kernel

theorem wit_graph_load_done : ∀ x ∈ [(false, 0), (true, 8)],
    let s := (graphing x.1).1
    let j := (graphing x.1).2
    let u := s.endJob 0 j
    let G : Graph := ⟨j.sub.params, 0⟩
    (s.func 0).job 0x0201 2 = some j ∧ s.leadStops 0 = false ∧ 0 < s.funcs.length ∧ u.checkGraph 0 ⟨j.sub.params, 0⟩ = some (x.2, 0) ∧
      (x.2 = 0 ∨ x.2 ≤ G.workBytes ∧ G.work % 4096 = 0 ∧ u.inMemory 0 G.work x.2 = true) := by decide +kernel

theorem wit_ftbl_load : let c := cmd 0x0305 [(24, 1, 255), (32, 8, 0x80000), (40, 4, 64), (48, 8, 0x90000)] []
    let s := ready.devWrite 0 0x80000 (record 64 [(0, 1, 1), (1, 1, 6)])
    let d := s.sent 0x0305 c
    let u := s.begun 0x0305 c
    let n := hb d 40 4
    let im := u.devRead 0 (hb d 32 8) n
    s.starts 0x0305 c = true ∧ 64 ≤ hb d 24 1 ∧ hb d 24 1 ≤ 255 ∧ 64 ≤ n ∧ u.inMemory 0 (hb d 32 8) (n + 1280) = true ∧
      u.inMemory 0 (hb d 48 8) 1793 = true ∧ ftHeaderOk (im.take 64) = true ∧ n = ftBytes (at' (im.take 64) 1 1) (at' (im.take 64) 3 1) ∧
      (u.func 0).ftActive (hb d 24 1) = false := by decide +kernel

/-- A plan that passes every check, with room for its memory and its mirrors. -/
theorem wit_plan_load : let c := cmd 0x0301 [] planParams
    let u := grouped.begun 0x0301 c
    let p := u.readPlan 0 planParams
    grouped.starts 0x0301 c = true ∧ ((u.func 0).accepted.any fun a => a.1 = 0) = false ∧ Chk.first ⟨u, 0, p⟩ 48 = none ∧
      (match u.placePlan 0 0 p with
        | .ok (_, v) => decide (0 < v.funcs.length)
        | .error _ => false) = true := by decide +kernel

/-- A module of a Fabric ID whose plan saves its input and which has no memory left. -/
def saving (id : Nat) : State :=
  (grouped.devWrite 0 0x1003 [3]).modFunc 0 fun g => { g with
    ep := { g.ep with fabricId := id }
    allocs := (List.range 4).flatMap fun d => [⟨.table 0, .ilv d, dramBase d, 2 ^ 40⟩, ⟨.table 0, .tier2 d, 0, 2 ^ 60⟩] }

/-- A plan that passes every check and finds no room: descriptor 0 is named, and a module with a Fabric ID has a peer to ask. -/
theorem wit_plan_load_full : ∀ x ∈ [(0, []), (11, [22])], let c := cmd 0x0301 [] planParams
    let s := saving x.1
    let u := s.begun 0x0301 c
    let p := u.readPlan 0 planParams
    s.starts 0x0301 c = true ∧ ((u.func 0).accepted.any fun a => a.1 = 0) = false ∧ Chk.first ⟨u, 0, p⟩ 48 = none ∧
      (match u.placePlan 0 0 p with
        | .ok _ => false
        | .error (i, n) => i = 0 && 0 < n) = true ∧ (u.func 0).groupPeers p = x.2 := by decide +kernel

theorem wit_step_run : let c := tagged 5 0x0302 [] []
    loaded.starts 0x0302 c = true ∧ ((loaded.begun 0x0302 c).func 0).stepRefused (loaded.sent 0x0302 c) = none ∧
      ready.starts 0x0302 c = true ∧ ((ready.begun 0x0302 c).func 0).stepRefused (ready.sent 0x0302 c) = some stBadParam := by decide +kernel

theorem wit_coll_group : let c := cmd 0x0401 [] group0.params
    let d := ready.sent 0x0401 c
    let G : Group := ⟨d.params, [], [], [], false⟩
    ready.starts 0x0401 c = true ∧ d.paramLen = 32 ∧ G.bad = false ∧
      (ready.begun 0x0401 c).inMemory 0 (at' d.params 16 8) (8 * G.ranks) = true ∧
      ((ready.begun 0x0401 c).func 0).groupActive (at' d.params 0 1) = false := by decide +kernel

theorem wit_coll_evict : let c := cmd 0x0405 [(28, 2, 1)] []
    grouped.starts 0x0405 c = true ∧ ((grouped.begun 0x0405 c).func 0).groups.getD 0 none = some group0 ∧ 1 < group0.ranks ∧
      group0.evicted.contains 1 = false ∧ group0.present ≠ [1] := by decide +kernel

/-- LD G, ST D. -/
def prog0 : List Byte := record 32 [(0, 1, 1), (1, 1, 2), (16, 1, 1), (24, 1, 2), (28, 1, 6)]

theorem wit_upd_program : ∀ slot ∈ [4, 31], let c := cmd 0x0501 [(24, 1, slot)] prog0
    ready.starts 0x0501 c = true ∧ hb (ready.sent 0x0501 c) 24 1 = slot ∧ progCheck prog0 32 = none ∧
      ((ready.begun 0x0501 c).func 0).progActive slot = false ∧ 0 < ready.funcs.length := by decide +kernel

/-- A plan with one parameter group. -/
def plan1 : Plan := { plan0 with pgroups := [zeros 128], firstStep := some 5 }
def loaded1 : State := grouped.modFunc 0 fun g => { g with plans := g.plans.set 0 (some plan1) }

theorem wit_upd_step_size : ∀ n ∈ [5, 12], let c := tagged n 0x0503 [] (record 264 [(0, 8, 1), (8, 4, 0x3F800000)])
    let d := loaded1.sent 0x0503 c
    let gs := bitsOf 64 (at' d.params 0 8)
    loaded1.starts 0x0503 c = true ∧ ((loaded1.begun 0x0503 c).func 0).plans.getD 0 none = some plan1 ∧ d.stepTagged = true ∧ d.paramLen = 264 ∧
      (∀ g ∈ gs, g < plan1.pgroups.length ∧ isFin32 (mk32 (at' d.params (8 + 4 * g) 4)) = true) ∧ 5 ≤ d.step ∧ d.step ≤ 5 + 7 := by
  decide +kernel

theorem wit_upd_freeze : let c := tagged 5 0x0504 [(32, 8, 1), (40, 8, 1)] []
    let d := loaded1.sent 0x0504 c
    loaded1.starts 0x0504 c = true ∧ ((loaded1.begun 0x0504 c).func 0).plans.getD 0 none = some plan1 ∧ d.stepTagged = true ∧
      (∀ g ∈ bitsOf 64 (hb d 32 8), g < plan1.pgroups.length) ∧ plan1.b1Begun = none := by decide +kernel

theorem wit_pwr_cap : (∀ w ∈ [1200, 2800], let c := cmd 0x0601 [(24, 4, w)] []
    ready.starts 0x0601 c = true ∧ at' (ready.sent 0x0601 c).small 0 4 = w) ∧
    ∀ w ∈ [300, 700], let c := cmd 0x0601 [(24, 4, w)] []
    quad.starts 0x0601 c = true ∧ at' (quad.sent 0x0601 c).small 0 4 = w := by decide +kernel

theorem wit_pwr_mode : ∀ mhz ∈ [800, 1250], let c := cmd 0x0602 [(24, 1, 1), (25, 1, 0), (26, 2, mhz)] []
    let d := ready.sent 0x0602 c
    ready.starts 0x0602 c = true ∧ at' d.small 0 1 ≤ 1 ∧ at' d.small 1 1 ≤ 1 ∧ at' d.small 2 2 = mhz ∧ mhz % 25 = 0 := by decide +kernel

theorem wit_attest : let c := cmd 0x0801 [(24, 8, 0x1000)] []
    let gone : State := { ready with sec := { ready.sec with role := 2 } }
    let open2 : State := { ready with sec := { ready.sec with scopes := 4 } }
    gone.starts 0x0801 c = true ∧ (gone.begun 0x0801 c).sec.role = 2 ∧ open2.starts 0x0801 c = true ∧
      bit (open2.begun 0x0801 c).sec.scopes 2 = true ∧ ready.starts 0x0801 c = true ∧ (ready.begun 0x0801 c).sec.role ≠ 2 ∧
      bit (ready.begun 0x0801 c).sec.scopes 2 = false ∧
      (ready.begun 0x0801 c).outOk (ready.sent 0x0801 c) (hb (ready.sent 0x0801 c) 24 8) 5024 = true := by decide +kernel

/-- A power image of security version 3, and activations of it. -/
def image0 : Image := record 64 [(0, 1, 1)]
def activating (stage : Nat) : State × Activation :=
  let a : Activation := ⟨1, cmd 0x0902 [(24, 1, 1)] [], stage, false, image0, [], [], false⟩
  ({ ready with act := some a, fw := ready.fw.map fun k => { k with staged := some image0 } }, a)

theorem wit_fw_stage : let c := cmd 0x0901 [(24, 1, 1)] []
    let j : AsyncJob := ⟨c, 1, true, 0, 0⟩
    let s := ready.modFunc 0 fun g => { g with jobs := [j] }
    ready.starts 0x0901 c = true ∧ (ready.begun 0x0901 c).sec.role ≠ 2 ∧
      ((ready.begun 0x0901 c).funcs.any fun g => g.jobs.any fun j => j.sub.opcode = 0x0901 && j.arg = 1) = false ∧
      (ready.begun 0x0901 c).act = none ∧
      (s.fns.findSome? fun f => ((s.func f).job 0x0901 1).map fun j => (f, j)) = some (0, j) ∧ s.sec.role ≠ 2 ∧
      s.procStops (.security s.sec.role) = false := by decide +kernel

theorem wit_fw_activate : let c := cmd 0x0902 [(24, 1, 1)] []
    let s : State := { ready with fw := ready.fw.map fun k => { k with staged := some image0 } }
    let u := (s.begun 0x0902 c).interim (s.sent 0x0902 c) stAccepted
    s.starts 0x0902 c = true ∧ u.act = none ∧ (u.fwKind 1).staged = some image0 ∧ u.sec.role ≠ 2 ∧ hb (s.sent 0x0902 c) 24 1 ≠ 2 := by
  decide +kernel

theorem wit_activation : ∀ stage ∈ [1, 2], let s := (activating stage).1
    let a := (activating stage).2
    s.act = some a ∧ a.stage = stage ∧ a.waiting = [] ∧ s.anyEmerg = false ∧ s.procStops (.security (s.sec.role % 2)) = false ∧
      s.sec.arCount ≤ a.image.secVersion ∧ a.kind < s.fw.length := by decide +kernel

/-- An activation and a revert whose last processor, the power processor of die 3, is restarting. -/
theorem wit_revert : ∀ stage ∈ [2, 3], let a : Activation := { (activating stage).2 with waiting := [.power 3], acting := [.power 3] }
    let s : State := { (activating stage).1 with act := some a, procs := { ready.procs with restarting := [.power 3] } }
    s.act = some a ∧ a.stage = stage ∧ a.waiting = [.power 3] ∧ a.acting = [.power 3] ∧
      s.procStops (.security (s.sec.role % 2)) = false ∧ s.procs.restarting.contains (.power 3) = true ∧ a.kind < s.fw.length := by decide +kernel

/-! ## Witnesses: queues -/

/-- A module whose queues 0 and 1 are enabled in device memory, with two slots to fetch and one completion to write. -/
def queued : State :=
  ready.modFunc 0 fun g =>
    { g with
      queues := (g.queues.set 0 { Queue.reset with en := true, loc := true, sqTail := 2, cqBase := 0x4000 }).set 1
        { Queue.reset with en := true, loc := true, sqTail := 2, cqBase := 0x4000 }
      done := [⟨.queue 1, 7, stOk, 2, [], [], 0⟩] }

theorem wit_doorbells : ∀ q ∈ [0, 1, 63], (ready.func 0).queues[q]? = some Queue.reset := by decide +kernel

theorem wit_fetch : ∀ q ∈ [0, 1], queued.ready = true ∧ 0 < queued.funcs.length ∧ ((queued.func 0).queues[q]?).isSome = true ∧
    (queued.func 0).mayFetch q 0 = true ∧ (((queued.func 0).queues[q]?).all fun r => r.old.isNone && r.loc && r.sqHead = 0) = true := by
  decide +kernel

theorem wit_sideband_submission : ready.ready = true ∧ 0 < ready.funcs.length ∧ ready.sideUp = true ∧ ready.fns.contains 0 = true := by
  decide +kernel

theorem wit_completion : ((queued.func 0).queues[1]?.all fun r => !r.cqFull) = true ∧
    (queued.func 0).waiting 1 = [⟨.queue 1, 7, stOk, 2, [], [], 0⟩] := by decide +kernel

/-! ## Witnesses: registers -/

theorem wit_register_write : ready.live = true ∧ ready.pcie.linkUp = true ∧ ready.pcie.failed = false ∧ ready.asleep 0 = false ∧
    ready.fns.contains 0 = true ∧ ready.place 0 0x80000 = none ∧ (4 : Nat) ≠ 8 ∧ 0x24 % 8 ≠ 0 ∧ ready.sec.writes = [] ∧
    ready.procStops (.security (ready.sec.role % 2)) = false := by decide +kernel

/-- The active security core is restarting: a write of MOD_COMPAT waits. -/
theorem wit_register_held : let s : State := { ready with procs := { ready.procs with restarting := [.security (ready.sec.role % 2)] } }
    s.live = true ∧ s.pcie.linkUp = true ∧ s.pcie.failed = false ∧ s.asleep 0 = false ∧ s.procStops (.security (s.sec.role % 2)) = true ∧
      (match s.place 0 0x20 with
        | some (b, o) => recordMask b o ≠ 0 && !s.absentBlk b
        | none => false) = true := by decide +kernel

theorem wit_queue_enable : queued.live = true ∧ queued.sec.writes = [] ∧ queued.fns.contains 0 = true ∧ 0 < queued.funcs.length ∧
    (queued.func 0).queues[(queued.func 0).qsel]?.isSome = true ∧ (ready.func 0).queues[(ready.func 0).qsel]? = some Queue.reset ∧
    Queue.reset.en = false ∧ Queue.reset.old = none ∧
    (let s := queued.modFunc 0 fun g => { g with qsel := 1 }
     ((s.func 0).waiting (s.func 0).qsel).isEmpty = false ∧ (s.func 0).queues[(s.func 0).qsel]?.all (fun r => r.en && r.old.isNone) = true) ∧
    (queued.func 0).queues[(queued.func 0).qsel]?.all (·.en) = true := by decide +kernel

theorem wit_module_registers : ready.live = true ∧ ready.sec.writes = [] ∧ ready.procStops (.security (ready.sec.role % 2)) = false ∧ ready.fns.contains 0 = true ∧ 0 < ready.funcs.length ∧ ready.upDies 0 = [0, 1, 2, 3] ∧
    (ready.die 0).powered = true := by decide +kernel

theorem wit_die_registers : ∀ x ∈ [(ready, 0, 3), (quad, 3, 0)], x.1.live = true ∧ x.1.sec.writes = [] ∧ x.1.procStops (.security (x.1.sec.role % 2)) = false ∧ x.1.fns.contains x.2.1 = true ∧
    (x.2.2 < if x.1.quad then 1 else 4) ∧ x.1.physDie x.2.1 x.2.2 = 3 ∧ x.1.up 3 = true ∧ (x.1.die 3).powered = true ∧ 3 < x.1.dies.length := by
  decide +kernel

/-- Port 23 in a state. -/
def port23 (state : Nat) : State := ready.modPort 23 fun p => { p with en := true, state := state }

theorem wit_ports : ∀ st ∈ [0, 2, 4], ((port23 st).port 23).state = st ∧ ((port23 st).port 23).en = true ∧ (port23 st).live = true ∧ (port23 st).sec.writes = [] ∧
    (Memory.wf (port23 st).mem = true ∧ (port23 st).shape = [4, 4, 80, 640, 24, 4]) ∧ (port23 st).up (23 / 6) = true ∧
    ((port23 st).die (23 / 6)).powered = true ∧ ((port23 st).die (23 / 6)).portsOk.contains (23 % 6) = true := by decide +kernel

theorem wit_reads : ready.live = true ∧ ready.fns.contains 0 = true ∧ 0 < ready.funcs.length ∧ ready.coreState 639 ≠ 0 ∧
    (ready.die (coreDie 639)).powered = true ∧ ready.up (ready.physDie 0 3) = true ∧ ready.physDie 0 3 < ready.dies.length := by
  decide +kernel

theorem wit_selftest : let s := ready.modMxe 639 fun m => { m with state := 6 }
    s.coreState 639 = 1 ∧ (s.core 639).mxe.state = 6 ∧ (s.core 639).mxe.selftest = false ∧ 639 < s.cores.length := by decide +kernel

theorem wit_bar2 : ready.fns.contains 0 = true ∧ ready.ready = true ∧ ready.asleep 0 = false ∧ ready.eccMet [] = ready ∧
    ready.inMemory 0 (0 + 0x1000) 8 = true ∧ 0x1000 + 8 ≤ ready.bar2Size 0 ∧
    (ready.key 0 0x1000).isSome = true ∧ ready.bar2Size 0 < ready.bar2Size 0 + 8 := by decide +kernel

/-- An access that ends with the window is inside it, and one past the last byte of bonded DRAM is outside memory. -/
theorem wit_bar2_edge : ready.bar2Size 0 - 8 + 8 ≤ ready.bar2Size 0 ∧ ready.inMemory 0 (ready.bar2Size 0 - 8) 8 = true ∧
    (let s := ready.modFunc 0 fun g => { g with bar2Gib := 767 }
     s.inMemory 0 (GiB * (s.func 0).bar2Gib + (GiB - 8)) 8 = true ∧ s.inMemory 0 (GiB * (s.func 0).bar2Gib + (GiB - 8)) 16 = false) := by decide +kernel

/-! ## Witnesses: power, reset, start-up, links and the sideband -/

/-- The module with fields of its start-up state set. -/
def booted (k : Boot → Boot) : State := { ready with boot := k ready.boot }

theorem wit_resets : ((booted fun b => { b with pwrGood := false }).boot.lockout = false ∧ (booted fun b => { b with pwrGood := false }).boot.pwrGood = false) ∧
    ready.boot.softStart = true ∧ ((booted fun b => { b with perst := true }).boot.perst = true ∧ (booted fun b => { b with perst := true }).boot.pwrGood = true) ∧
    (ready.boot.pwrGood || ready.boot.softStart) = true ∧ ready.boot.perst = false ∧ ready.boot.pwrGood = true := by decide +kernel

theorem wit_startup : (∀ n ∈ [0, 1, 2, 3], (booted fun b => { b with done := n }).live = true ∧ (booted fun b => { b with done := n }).boot.done = n) ∧
    ready.fw.length = 4 ∧ ready.pcie.failed = false ∧
    (let s : State := { booted (fun b => { b with done := 5, fullDone := false }) with ready := false }
     s.live = true ∧ s.ready = false ∧ s.milestone = 6) ∧
    (let s := booted fun b => { b with fullDone := false }
     s.live = true ∧ s.ready = true ∧ s.boot.fullDone = false) ∧
    (6 ≤ ready.sec.meas.length ∧ (ready.fwKind 0).active = none ∧ 3 < ready.dies.length ∧ (ready.core 639).state = 1 ∧ 639 < ready.cores.length) := by
  decide +kernel

theorem wit_links : ready.pcie.linkUp = true ∧ ready.ready = true ∧ ready.fns.contains 0 = true ∧ ready.live = true ∧ ready.pcie.failed = false ∧
    (let s : State := { ready with ready := false }
     s.ready = false ∧ s.live = true ∧ s.pcie.linkUp = true ∧ s.pcie.failed = false ∧ s.fns.contains 0 = true) ∧
    0 < ready.funcs.length ∧ ready.ports.length = 24 ∧ (∀ st ∈ [1, 3], ((port23 st).port 23).state = st ∧ (port23 st).ports.length = 24 ∧
      (port23 st).up 3 = true) := by decide +kernel

theorem wit_sideband : ready.sideUp = true ∧ ready.side.address = none ∧ ready.fns.contains 0 = true ∧ ready.ready = true ∧
    ([] : List Byte).length ≤ 65000 ∧ 0 + 8 ≤ windowSize ∧ ready.inMemory 0 windowBase 8 = true ∧ (ready.key 0 windowBase).isSome = true := by
  decide +kernel

/-! ## Witnesses: JTAG and debug -/

/-- The module with debug scopes open, a processor selected and processors halted. -/
def debugged (scopes sel : Nat) (halted : List Proc) : State :=
  { ready with
    sec := { ready.sec with scopes := scopes }
    jtag := { ready.jtag with procSel := sel }
    procs := { ready.procs with halted := halted } }

theorem wit_scan : ready.boot.pwrGood = true ∧ ready.boot.perst = false ∧ (booted fun b => { b with perst := true }).boot.pwrGood = true ∧
    (booted fun b => { b with perst := true }).boot.perst = true := by decide +kernel

/-- A token of the wrong length is not accepted. -/
theorem wit_unlock : ready.boot.pwrGood = true ∧ ready.tokenOk [] = false ∧ ready.procStops (.security (ready.sec.role % 2)) = false ∧
    ready.sec.tokens = [] ∧
    (let s : State := { ready with procs := { ready.procs with restarting := [.security (ready.sec.role % 2)] } }
     s.boot.pwrGood = true ∧ s.procStops (.security (s.sec.role % 2)) = true) := by decide +kernel

theorem wit_debug : (debugged 0 1 []).boot.pwrGood = true ∧ (debugged 0 1 []).sec.scopes = 0 ∧
    (∀ v ∈ [0, 1, 2, 3], bit (debugged 0 v []).sec.scopes (procScope v) = false) ∧ bit (debugged 0 0 []).sec.scopes 1 = false ∧
    (∀ v ∈ [0, 65536], bit (debugged 0 0 []).sec.scopes (scanScope v) = false) ∧ (debugged 7 1 []).sec.scopes ≠ 0 ∧
    (∀ v ∈ [0, 1, 2, 3], bit (debugged 7 v []).sec.scopes (procScope v) = true) ∧ bit (debugged 7 0 []).sec.scopes 1 = true ∧
    (∀ v ∈ [0, 65536], bit (debugged 7 0 []).sec.scopes (scanScope v) = true) := by decide +kernel

theorem wit_halt : ∀ v ∈ [0, 1, 2, 3], let s := debugged 7 v []
    let h := debugged 7 v [procOf v]
    s.boot.pwrGood = true ∧ bit s.sec.scopes (procScope v) = true ∧ s.procUp (procOf v) = true ∧ s.procs.halted.contains (procOf v) = false ∧
      s.selHalted = false ∧ bit h.sec.scopes (procScope v) = true ∧ h.procUp (procOf v) = true ∧ h.procs.halted.contains (procOf v) = true := by
  decide +kernel

theorem wit_scan_shift : (debugged 7 0 []).scanRests = false ∧ bit (debugged 7 0 []).sec.scopes (scanScope (debugged 7 0 []).jtag.scanSel) = true := by
  decide +kernel

/-! ## Witnesses: Reedway and peer memory -/

def noSent : Sent := ⟨0, 22, 0, 0, 1, 0, some 0, .delivered 0⟩

/-- Port 0 up, as a change of a port at reset leaves it. -/
def linked (k : Port → Port) : State := ready.modPort 0 fun p => k { p with en := true, state := 2 }
def oneMessage (p : Port) : Port := { p with queues := modNth (fun _ => [⟨zeros 300, false, noSent⟩]) 1 p.queues, credits := modNth (fun _ => 1) 1 p.credits }

theorem wit_transmit : ((linked fun p => { p with retryOwed := true }).flushPeer.port 0).retryOwed = true ∧
    ((linked fun p => { p with resend := [(3, zeros 256)] }).flushPeer.port 0).resend = [(3, zeros 256)] ∧
    ((((linked oneMessage).modFunc 0 fun g => { g with ep := { g.ep with fabricId := 11 } }).flushPeer.func 0).ep.fabricId ≠ 0 ∧
     ((linked id).flushPeer.func 0).ep.fabricId = 0) ∧
    (let p := ((linked oneMessage).modFunc 0 fun g => { g with ep := { g.ep with fabricId := 11 } }).flushPeer.port 0
     p.state = 2 ∧ p.retryOwed = false ∧ p.resend = [] ∧ p.replay.length < 512 ∧ p.pickVc = some 1 ∧ p.queues.getD 1 [] = [⟨zeros 300, false, noSent⟩]) ∧
    (let p := (linked id).flushPeer.port 0
     p.state = 2 ∧ p.retryOwed = false ∧ p.resend = [] ∧ p.pickVc = none) ∧
    ((linked id).port 0).state = 2 := by decide +kernel

theorem crcBit_lt {c : Nat} (h : c < 2 ^ 64) : crcBit c < 2 ^ 64 := by
  unfold crcBit
  split
  · omega
  · exact Nat.xor_lt_two_pow (Nat.mod_lt _ (by decide)) (by decide)

theorem crcStep_lt (n : Nat) : ∀ c : Nat, c < 2 ^ 64 → crcStep n c < 2 ^ 64 := by
  induction n with
  | zero => exact fun c h => h
  | succ n ih => exact fun c h => ih _ (crcBit_lt h)

theorem foldl_lt (N : Nat) (k : Nat → Byte → Nat) (hk : ∀ (c : Nat) (x : Byte), c < N → k c x < N) (b : List Byte) :
    ∀ c : Nat, c < N → b.foldl k c < N := by
  induction b with
  | nil => exact fun c h => h
  | cons x b ih => exact fun c h => ih _ (hk c x h)

theorem crc64_lt (b : List Byte) : crc64 b < 2 ^ 64 := by
  refine Nat.xor_lt_two_pow (by decide) (foldl_lt _ _ (fun c x h => crcStep_lt 8 _ (Nat.xor_lt_two_pow h ?_)) b _ (by decide))
  have := x.isLt
  omega

/-- A flit of 256 bytes carries the CRC of its first 248. -/
theorem flit_sound (type vc seq cvc cn : Nat) (first last : Bool) (ack : Option Nat) (payload : List Byte)
    (h : (flitBytes type vc first last seq ack cvc cn payload).length = 256) :
    crc64 ((flitBytes type vc first last seq ack cvc cn payload).take 248) = at' (flitBytes type vc first last seq ack cvc cn payload) 248 8 := by
  have key (body : List Byte) (h : (body ++ leBytes 8 (crc64 body)).length = 256) :
      crc64 ((body ++ leBytes 8 (crc64 body)).take 248) = at' (body ++ leBytes 8 (crc64 body)) 248 8 := by
    have hb : body.length = 248 := by simpa using h
    have hc : crc64 body < 256 ^ 8 := Nat.lt_of_lt_of_eq (crc64_lt body) (by decide)
    have e : ∀ c : Nat, c < 256 ^ 8 → at' (leBytes 8 c) 0 8 = c := fun c hc => by simpa using at'_here [] hc
    rw [List.take_left' hb, at'_after _ _ (by omega), hb, Nat.sub_self]
    exact (e _ hc).symm
  exact key _ h

/-- A flit of each kind, in turn and out of turn, and one that fails its check. -/
theorem wit_receive : ((linked id).port 0).state = 2 ∧ ((linked id).port 0).rxSeq = 0 ∧
    (∀ x ∈ [(0, 0), (1, 0), (1, 5), (2, 0), (3, 0)], let b := flitBytes x.1 1 true true x.2 none 0 0 [1, 2, 3]
      b.length = 256 ∧ fld (at' b 0 1) 0 4 = x.1 ∧ at' b 2 2 % 4096 = x.2) ∧ (zeros 255).length ≠ 256 := by
  decide +kernel

def partner (hi lo : Nat) : Partner := ⟨hi, lo, 22, 0, List.replicate 8 4, 0, false⟩

theorem wit_train : ((linked fun p => { p with retryCount := 8 }).port 0).retryCount = 8 ∧ (linked id).up (0 / 6) = true ∧
    (∀ st ∈ [1, 3], ((linked fun p => { p with state := st }).port 0).state = st ∧ ((linked fun p => { p with state := st }).port 0).en = true ∧
      ((linked fun p => { p with state := st }).port 0).noVer = false) ∧
    (let s : State := { ready with linkRetries := [(24, 5, 8)] }
     s.linkRetries.lookup 24 = some (5, 8)) ∧
    ready.up (d2dLink 24).1 = true ∧ ready.up (d2dLink 24).2 = true ∧ ready.up (d2dLink 35).1 = true ∧ ready.up (d2dLink 35).2 = true ∧
    1 ≤ min ready.rwHigh (partner 1 1).hi ∧ (partner 1 1).lo ≤ min ready.rwHigh (partner 1 1).hi ∧ min ready.rwHigh (partner 0 0).hi < 1 ∧
    ready.ports.length = 24 := by decide +kernel

theorem wit_retransmit : let m : Sent := ⟨0, 22, 0, 0, 0, 9, some 0, .delivered 0⟩
    let s := ready.modFunc 0 fun g => { g with ep := { g.ep with unacked := [m] } }
    0 < s.funcs.length ∧ (s.func 0).ep.unacked.find? (fun m => m.dest = 22 && m.vc = 0 && m.seq = 9) = some m ∧ s.endpointOf 22 = none := by decide +kernel

/-- A module that has lent 1 GiB to peer 22 at die 0, and borrowed 1 GiB of it. -/
def peered : State := ready.modFunc 0 fun g =>
  { g with
    grants := [⟨22, 1, 0x40000000⟩]
    apertures := [(2, ⟨1, 22, 0, [⟨⟨22, 8, true, 4, [1, 2, 3, 4]⟩, [0, 0, 0, 0], true, 0, 0⟩]⟩), (3, ⟨1, 22, 0, [⟨⟨22, 8, false, 4, []⟩, [], true, 3, 0⟩]⟩)] }

theorem wit_peer_memory : ready.fns.contains 0 = true ∧ (ready.upDies 0).isEmpty = false ∧ 0 < ready.funcs.length ∧
    (∀ x ∈ [(true, 0, 4), (false, GiB - 4, 0)],
      let m : PeerMem := ⟨22, x.2.1, x.1, 4, zeros x.2.2⟩
      let u := (peered.take 0 (.peerReq m)).1
      ((pieces ((u.func 0).grants.filter fun g => g.peer = m.peer) m.offset 4).map (·.2)).sum = 4 ∧ m.write = x.1) ∧
    (let m : PeerMem := ⟨22, GiB - 4, false, 8, []⟩
     let u := (peered.take 0 (.peerReq m)).1
     ((pieces ((u.func 0).grants.filter fun g => g.peer = m.peer) m.offset 8).map (·.2)).sum ≠ 8) ∧
    (let u := (peered.take 0 (.peerReq ⟨22, 0, false, 8, []⟩)).1
     pieces ((u.func 0).grants.filter fun g => g.peer = 22) 0 8 = [(0x40000000, 8)]) ∧
    (∀ a ∈ [2, 3], (SMap.find a (peered.func 0).apertures).any (fun x => !x.pending.isEmpty) = true) := by decide +kernel

/-- A command that waits for peer 22, with peer 33 still to ask. -/
theorem wit_grant_reply : let a : MemAsk := ⟨some (cmd 0x0101 [] tblParams), 0, some 22, [33], 4⟩
    let s := ready.modFunc 0 fun g => { g with asks := [a] }
    ∀ gib ∈ [3, 4], let u := s.modFunc 0 (Func.install 22 256 gib)
      (u.func 0).asks.find? (fun a => a.waits = some 22) = some a ∧ (u.func 0).asks.find? (fun a => a.waits = some 33) = none ∧
        a.rest = [33] ∧ a.need = 4 ∧ (∀ c, a.sub = some c → c.opcode ≠ 0x0301) := by
  intro a s gib h
  refine ⟨?_, ?_, rfl, rfl, ?_⟩
  · revert gib; decide +kernel
  · revert gib; decide +kernel
  · intro c h; cases h; decide +kernel

/-! ## Witnesses: Chorus -/

/-- A contribution of rank 1 to shard 0 of step 5, of one element. -/
def contribution : ChorusMsg :=
  { (group0.msg 0 1 5) with rank := 1, payload := [0x80, 0x3F], elems := 1, checksum := payloadSum 1 [0x80, 0x3F] }

def maskMsg : ChorusMsg := { (group0.msg 2 0 5) with participating := 2, payload := [3] }

/-- The group, with a state of its step 5. -/
def chorused (k : ChorusStep → ChorusStep) : State := grouped.modFunc 0 fun g =>
  { g with chorus := { g.chorus with steps := [k (ChorusStep.new 0 5)] } }

theorem wit_contribution :
    (∀ m ∈ [contribution, { contribution with checksum := contribution.checksum + 1 }],
      let u := (grouped.take 0 (.chorus m)).1
      (u.func 0).slotOfTag 7 = some 0 ∧ (u.func 0).groups.getD 0 none = some group0 ∧ group0.sender false m = some 1 ∧ group0.sender true m = some 1) ∧
    wireCodeOk false contribution.fmt = true ∧ wireCodeOk false 9 = false ∧ contribution.fmt = group0.wireCode false ∧
    payloadSum contribution.fmt contribution.payload = contribution.checksum ∧
    (let c := ((chorused fun c => { c with mask := some { maskMsg with payload := [1] } }).func 0).chorusStep 0 5
     (c.mask.all fun k => maskHas k 1 = false) = true ∧ c.mask.isSome = true) ∧ ((grouped.func 0).chorusStep 0 5).mask = none := by decide +kernel

theorem wit_owner_add : let c := { ChorusStep.new 0 5 with mask := some maskMsg, held := [⟨false, contribution⟩, ⟨false, { contribution with rank := 0 }⟩] }
    let s := chorused fun _ => c
    (s.func 0).chorus.steps = [] ++ c :: [] ∧ (s.func 0).groups.getD 0 none = some group0 ∧ (readyShard group0 c 0).isSome = true ∧
      c.mask = some maskMsg := by decide +kernel

theorem wit_chorus : let m : ChorusMsg := { (group0.msg 1 0 5) with rank := 1 }
    let u := ((grouped.take 0 (.chorus m)).1).handle 0
    let c := (u.func 0).chorusStep 0 5
    grouped.comes 0 (.chorus m) = true ∧ grouped.chorusStops 0 = false ∧
      (let s : State := { grouped with procs := { grouped.procs with restarting := [.control 0 0] } }
       s.chorusStops 0 = true) ∧
      (u.func 0).slotOfTag m.groupTag = some 0 ∧ (u.func 0).groups.getD 0 none = some group0 ∧ group0.isIn m.rank = true ∧ c.decided = none ∧ c.mask = none ∧
      c.marks.any (fun k => k.rank = m.rank) = false ∧ group0.coordinator = some group0.me ∧
      (let g1 : Group := { group0 with params := record 32 [(1, 1, 1), (4, 2, 2), (6, 2, 1), (8, 2, 1), (12, 4, 7)] }
       g1.coordinator ≠ some g1.me ∧ g1.deputy = some g1.me) := by decide +kernel

theorem wit_chorus_answers : let r : ChorusMsg := { (group0.msg 3 0 5) with shard := 1, maskSum := maskMsg.maskSum, checksum := payloadSum 0 [] }
    let s := chorused fun c => { c with mask := some maskMsg, broadcast := [r], own := [{ contribution with shard := 1 }] }
    let u := ((s.take 0 (.chorus r)).1).handle 0
    let c := (u.func 0).chorusStep 0 5
    s.comes 0 (.chorus r) = true ∧ s.chorusStops 0 = false ∧ (s.func 0).slotOfTag 7 = some 0 ∧ (s.func 0).groups.getD 0 none = some group0 ∧
      (u.func 0).slotOfTag 7 = some 0 ∧ (u.func 0).groups.getD 0 none = some group0 ∧ c.broadcast.find? (fun b => b.shard = 1) = some r ∧
      (c.own.find? fun x => x.shard = 1 && group0.target 1 = some 1) = some { contribution with shard := 1 } ∧ c.mask = some maskMsg ∧
      payloadSum 0 r.payload = r.checksum ∧ r.maskSum = maskMsg.maskSum ∧ payloadSum 0 r.payload ≠ r.checksum + 1 := by decide +kernel

theorem wit_chorus_timeouts : let c := { ChorusStep.new 0 5 with window := true }
    leastBy (fun (a b : ChorusStep) => a.step < b.step) (((chorused fun _ => c).func 0).chorus.steps.filter fun c => c.window && c.decided.isNone && c.mask.isNone) =
      some c ∧
    (let c := { ChorusStep.new 0 5 with own := [contribution], formed := true }
     let s := (chorused fun _ => c).modFunc 0 fun g => { g with plans := g.plans.set 0 (some plan0), accepted := [(0, step0.sub)], cur := some step0 }
     ((s.func 0).chorus.steps.find? fun c => (s.func 0).chorusWaits c.slot c) = some c) := by decide +kernel

/-! ## Witnesses: Bellows, Gecko and tables -/

def request : BellowsMsg := { (default : BellowsMsg) with table := 3, fmt := table0.fmt, step := 5, rows := [0], count := 1 }

theorem wit_bellows_request : let u := (tabled.take 0 (.bellows request)).1
    tabled.ownerStops 0 request = false ∧ (∀ k ∈ [0, 1, 2, 3], table0.fmtOk { request with kind := k } = true) ∧
      table0.fmtOk { request with kind := 4, fmt := 2 } = true ∧
      tabled.procStops (.control (tabled.physDie 0 (fld request.req 0 2)) (tabled.serving (tabled.physDie 0 (fld request.req 0 2)) request.cluster)) = false ∧
      (u.func 0).table 3 = some table0 ∧ (table0.block 0).isSome = true ∧ ((List.range 20).any (u.bellowsOk 0)) = true ∧
      (∀ c, (u.func 0).combine 3 0 5 = some c → c.closed = false) ∧
      (match (u.func 0).combine 3 0 5 with | some c => c.added.any fun y => y.2 = { request with kind := 4 } | none => false) = false ∧
      ((u.func 0).combineClosed 3 0 5 || ((u.func 0).absent table0 5).contains request.req) = false := by
  refine ⟨by decide +kernel, by decide +kernel, by decide +kernel, by decide +kernel, by decide +kernel, by decide +kernel, by decide +kernel,
    ?_, by decide +kernel, by decide +kernel⟩
  intro c h
  rw [show (((tabled.take 0 (.bellows request)).1).func 0).combine 3 0 5 = none by decide +kernel] at h
  cases h

/-- The control core that serves the request is restarting. -/
theorem wit_bellows_stopped : let s : State := { tabled with procs := { tabled.procs with restarting := [.control 0 0] } }
    s.ownerStops 0 request = true ∧
      s.procStops (.control (s.physDie 0 (fld request.req 0 2)) (s.serving (s.physDie 0 (fld request.req 0 2)) request.cluster)) = true := by
  decide +kernel

theorem wit_bellows_closed : let s := tabled.modFunc 0 fun g => { g with combines := [⟨3, 0, 5, [], [], [], [], [], true, [], []⟩] }
    let u := (s.take 0 (.bellows { request with kind := 4 })).1
    ((u.func 0).combineClosed 3 0 5 || ((u.func 0).absent table0 5).contains request.req) = true ∧
    (match (u.func 0).combine 3 0 5 with | some c => c.added.any fun y => y.2 = { request with kind := 4 } | none => false) = false := by decide +kernel

theorem wit_bellows_reply : let e : GatEntry := ⟨5, 0, 0, 0, 0, 0, 0, 1, [], false⟩
    let s := running.modFunc 0 fun g => { g with tables := [(3, table0)], gather := [e] }
    let u := (s.take 0 (.bellows request)).1
    (u.func 0).gather.find? (fun e => e.step = request.step && e.desc = request.desc && e.entry = request.entry && !e.done) = some e ∧
      (u.func 0).activePlan.isSome = true ∧ (u.func 0).table 3 = some table0 := by decide +kernel

theorem wit_gecko_halve : let s := ready.modDie 3 fun x => { x with gecko := { x.gecko with accesses := 2 ^ 20 } }
    3 < s.dies.length ∧ 2 ^ 20 ≤ (s.die 3).gecko.accesses := by decide +kernel

def moveMsg : TableMsg := { (default : TableMsg) with table := 3, row := 0, oldOwner := 0, newOwner := 0, shard := 1, slot := 2, payload := zeros 8 }
def mig0 (slot : Option Nat) : Mig := ⟨3, 0, 0, 0, 1, slot, 1, false, false, [], false, 5⟩

theorem wit_migration : let u := (tabled.take 0 (.tableMaint moveMsg)).1
    tabled.comes 0 (.tableMaint moveMsg) = true ∧ (tabled.func 0).table 3 = some table0 ∧ (u.func 0).table 3 = some table0 ∧ (table0.block 0).isSome = true ∧ (u.func 0).away table0 0 0 = false ∧ (u.func 0).migOf table0.id 0 0 = none ∧
      moveMsg.row < table0.rows ∧ ¬ ((table0.home 0).1 = 0 ∧ (table0.home 0).2.1 = 1) ∧ (table0.home 0).1 = 0 ∧ (table0.home 0).2.1 = 0 ∧
      (table0.freeMig 0 1).isSome = true ∧ ((u.func 0).table (Loc.parse [0, 0, 0, 0, 0, 3]).table).isSome = true ∧
      ((u.func 0).locPending.contains (0, Loc.parse [0, 0, 0, 0, 0, 3]) || (u.func 0).locs.contains (Loc.parse [0, 0, 0, 0, 0, 3])) = false := by decide +kernel

/-- At the new owner: the row's home, a full migration area, a stub, and none while U writes the table. -/
theorem wit_migration_new : ((table0.home 0).1 = 0 ∧ (table0.home 0).2.1 = 0) ∧
    (let t : Table := { table0 with migUsed := (List.range 16).map fun k => (0, 1, k) }
     t.freeMig 0 1 = none) ∧
    (let s := tabled.modFunc 0 fun g => { g with stubs := [⟨3, 0, 0, 0, 0, 0, 1, 2, 0, []⟩] }
     (s.func 0).reserved table0 { moveMsg with slot := homeMark } = false ∧ (s.func 0).away table0 0 0 = true) ∧
    (tabled.func 0).reserved table0 { moveMsg with slot := homeMark } = true ∧ (tabled.func 0).away table0 0 0 = false ∧ (tabled.func 0).uWriting table0 = false ∧ (tabled.func 0).migOf 3 0 0 = none ∧
    tabled.readBusy 0 table0 ⟨0, 0, 0, 0x71000, List.replicate 256 ⟨0x100000, 17, 0⟩, 0, 0, 0, 0⟩ 1 2 ⟨3, 0, false, 0, 0, [], none⟩ = false ∧
    (tabled.func 0).atHand 0x100000 3 0 = true ∧
    (bellowsParse (bellowsEncode request)).rows = [0] ∧ ((tabled.func 0).slotAt table0 0 0).isSome = true ∧
    (let p : Plan := { plan0 with descs := [record 128 [(0, 2, 0x10), (2, 1, 2), (32, 2, 3)]] }
     let s := tabled.modFunc 0 fun g =>
       { g with plans := g.plans.set 0 (some p), accepted := [(0, step0.sub)], cur := some { step0 with phase := .u } }
     (s.func 0).gradDescs 3 ≠ [] ∧ (s.func 0).uWriting table0 = true) := by decide +kernel

theorem wit_migration_round : ∀ k ∈ [none, some 2], let s := tabled.modFunc 0 fun g => { g with migs := [mig0 k] }
    (((s.take 0 (.tableMaint moveMsg)).1).func 0).migOf 3 0 0 = some (mig0 k) ∧ (mig0 k).slot = k ∧
      (s.func 0).migs.find? (fun x => x.table = 3 && x.row = 0) = some (mig0 k) ∧ (s.func 0).table 3 = some table0 ∧
      (mig0 k).dirty = false ∧ (match table0.block 0 with | some b => (s.imageWait 0 table0 b 0).isNone | none => false) = true := by decide +kernel

theorem wit_routed : let r : RoutedRow := { (default : RoutedRow) with table := 3 }
    tabled.comes 0 (.routed r) = true ∧ (tabled.func 0).table 3 = some table0 ∧ r.row < table0.rows ∧ ¬ table0.rows ≤ r.row ∧ table0.rows ≤ 4 ∧
      (table0.block ((tabled.func 0).locate table0 0).1).isSome = true ∧
      (tabled.func 0).holdsWrite table0 ((tabled.func 0).locate table0 0).1 0 = false ∧ (table0.block 1).isNone = true ∧
      (let s := tabled.modFunc 0 fun g => { g with migs := [{ mig0 (some 2) with holding := true }] }
       (s.func 0).holdsWrite table0 ((s.func 0).locate table0 0).1 0 = true) := by decide +kernel

/-! ## Witnesses: the step -/

/-- Step 5 of the plan, changed. -/
def stepping (k : Step → Step) : State := loaded.modFunc 0 fun g => { g with accepted := [(0, step0.sub)], cur := some (k step0) }

theorem wit_descriptor : let s := stepping fun x => { x with jobs := [⟨0, 1, false, []⟩] }
    let st := { step0 with jobs := [⟨0, 1, false, []⟩] }
    (s.func 0).activePlan = some (0, plan0) ∧ (s.func 0).step? false = some st ∧ st.jobs.find? (fun j => j.index = 0 && j.st = 1) = some ⟨0, 1, false, []⟩ ∧
      st.quenched = false ∧ (s.vecCores [(0, 1)]).isEmpty = false ∧ (plan0.desc 0).isLinear = false ∧ st.phase = .f := by decide +kernel

/-- A descriptor of S whose slices are all built completes. -/
theorem wit_descriptor_done : let st := { step0 with phase := .s, jobs := [⟨0, 1, false, []⟩] }
    let s := stepping fun _ => st
    (s.finishJob 0 plan0 false st ⟨0, 1, false, []⟩ ⟨[], []⟩).isSome = true := by decide +kernel

theorem wit_phase : ∀ ph ∈ [Phase.s, .g, .f, .l, .b1, .b2], let s := stepping fun x => { x with phase := ph }
    (s.func 0).activePlan = some (0, plan0) ∧ (s.func 0).cur = some { step0 with phase := ph } ∧ step0.quenched = false ∧ s.leadStops 0 = false ∧
      step0.away = false ∧ step0.memFull = false ∧ step0.jobs.all (fun j => j.st = 2) = true ∧ s.badLines = [] := by decide +kernel

theorem wit_phase_r : let s := (chorused fun c => { c with formed := true, mask := some { maskMsg with skip := true } }).modFunc 0 fun g =>
      { g with plans := g.plans.set 0 (some plan0), accepted := [(0, step0.sub)], cur := some { step0 with phase := .r } }
    (s.func 0).activePlan = some (0, plan0) ∧ (s.func 0).cur = some { step0 with phase := .r } ∧
      ((s.func 0).chorusStep plan0.group 5).mask.any (·.skip) = true ∧ (s.func 0).reduced = true := by decide +kernel

theorem wit_phase_ahead : let s := loaded.modFunc 0 fun g =>
      { g with accepted := [(0, step0.sub)], ahead := some { step0 with phase := .s } }
    (s.func 0).activePlan = some (0, plan0) ∧ (s.func 0).ahead = some { step0 with phase := .s } := by decide +kernel

theorem wit_step_complete : let s := stepping fun x => { x with phase := .u, uDone := true }
    (s.func 0).activePlan = some (0, plan0) ∧ (s.func 0).cur = some { step0 with phase := .u, uDone := true } ∧ s.leadStops 0 = false := by decide +kernel

theorem wit_slice : let s := (stepping fun x => { x with phase := .s }).modSkink 0 3 fun k => { k with dealt := [(0, 0, 0)] }
    s.fnOf 0 = 0 ∧ (s.clu 0 3).skink.dealt = [(0, 0, 0)] ∧ (s.func 0).step? (0 = 1) = some { step0 with phase := .s } ∧ (s.clu 0 3).skink.takes = true ∧
      s.cluUp 0 3 = true ∧ s.earlyStep 0 0 3 5 = false ∧ s.procStops (.control 0 3) = false ∧
      (let s : State := (s.modSkink 0 3 fun k => { k with inWork := some (0, 0, 0) })
       let h : State := { s with procs := { s.procs with restarting := [.control 0 3] } }
       h.procStops (.control 0 3) = true ∧ (h.clu 0 3).skink.inWork = some (0, 0, 0)) := by decide +kernel

def tile0 : Tile := { (default : Tile) with step := 5, colCount := 8, load := true }

/-- A core with its engines' state changed. -/
def cored (m : Matrix → Matrix) (e : Sparse → Sparse) : State := (running.modMxe 5 m).modSpe 5 e

theorem wit_tiles :
    (let s := cored (fun m => { m with queue := [tile0] }) id
     s.coreState 5 = 1 ∧ (s.core 5).nextTile = some tile0 ∧ tile0.sparse = false ∧ (s.core 5).mxe.drainHold = false ∧ (s.core 5).mxe.selftest = false ∧
      (s.core 5).mxeOk = true ∧ (s.die (coreDie 5)).drone.unstarted.contains (coreClu 5) = false ∧ (s.core 5).mxe.toFill = some tile0 ∧
      (s.core 5).mxe.filled = false ∧ s.leafBehind tile0 = false) ∧
    (let s := cored (fun m => { m with cur := some tile0 }) id
     (s.core 5).mxe.cur = some tile0 ∧ (s.core 5).mxe.loadWait = false ∧ (s.core 5).mxe.selftest = false) ∧
    (let s := cored id fun e => { e with queue := [{ tile0 with sparse := true }] }
     (s.core 5).spe.queue.head? = some { tile0 with sparse := true } ∧ (s.core 5).spe.filled = false ∧
      ((s.core 5).spe.loadWait && (s.core 5).spe.cur.isSome) = false) ∧
    (let s := cored id fun e => { e with cur := some { tile0 with sparse := true }, loadWait := true }
     (s.core 5).spe.cur = some { tile0 with sparse := true } ∧ (s.core 5).spe.filled = false ∧ (s.core 5).spe.loadWait = true) ∧
    (let s := cored id fun e => { e with cur := some { tile0 with sparse := true } }
     (s.core 5).spe.cur = some { tile0 with sparse := true } ∧ (s.core 5).spe.loadWait = false ∧ (s.core 5).spe.runs = 0) ∧
    (let s := cored id fun e => { e with cur := some { tile0 with sparse := true }, runs := 1 }
     (s.core 5).spe.cur = some { tile0 with sparse := true } ∧ (s.core 5).spe.loadWait = false ∧ (s.core 5).spe.runs ≠ 0) := by decide +kernel

theorem wit_column_selftest :
    (let s := cored (fun m => { m with selftest := true, cur := some tile0 }) id
     let u := s.testDecisions 5 []
     (s.core 5).mxe.selftest = true ∧ (u.core 5).state = 1 ∧ (u.core 5).mxe.cur = some tile0 ∧ u.fits 5 tile0 = true ∧ (u.core 5).mxe.queue = []) ∧
    (let wide : Tile := { tile0 with colCount := 256 }
     let u := (cored (fun m => { m with selftest := true, cur := some wide }) id).testDecisions 5 (List.range 9)
     (u.core 5).state = 1 ∧ (u.core 5).mxe.cur = some wide ∧ u.fits 5 wide = false ∧ (u.core 5).mxe.queue = []) ∧
    (let u := (cored (fun m => { m with selftest := true }) id).testDecisions 5 []
     (u.core 5).state = 1 ∧ (u.core 5).mxe.cur = none) ∧
    ((((cored (fun m => { m with selftest := true }) id).modCore 5 fun x => { x with state := 2 }).testDecisions 5 []).core 5).state ≠ 1 := by decide +kernel

theorem wit_stagger : let s := ready.modDie 2 fun x => { x with drone := { x.drone with state := 3, unstarted := [7] } }
    2 < s.dies.length ∧ (s.die 2).drone.state = 3 ∧ (s.die 2).drone.unstarted = [7] := by decide +kernel

/-! ## Witnesses: fault containment, memory, power -/

theorem wit_monitors : (cored (fun m => { m with cur := some tile0 }) id).workItem (.matrix 5) = some (2 ^ 32 * 5 + 0) ∧ ready.coreState 639 = 1 ∧
    ready.cluUp 3 19 = true ∧ ready.up 3 = true := by decide +kernel

theorem wit_watchdog : ∀ p ∈ [Proc.security 0, .power 3, .scheduler 0, .control 3 19],
    ready.procUp p = true ∧ ready.procStops p = false ∧ (ready.procs.times.filter fun x => x.1 = p).length < 2 ∧
      (let s : State := { ready with procs := { ready.procs with times := [(p, 0), (p, 0)] } }
       s.procUp p = true ∧ s.procStops p = false ∧ 2 ≤ (s.procs.times.filter fun x => x.1 = p && ((s.die (procDie p)).clk + 2 ^ 64 - x.2) % 2 ^ 64 < second).length) ∧
      (let s : State := { ready with procs := { ready.procs with restarting := [p] } }
       s.procs.restarting.contains p = true) := by decide +kernel

theorem wit_background : ready.restingResource (.array 639) = true ∧ ready.restingResource .standby = true ∧ keyDie (0x1000 / 64 * 64) = some 0 ∧
    ready.dramPresent 0 (0x1000 / 64 * 64 - dramBase 0) = true ∧
    (let s := ready.modDie 1 fun x => { x with safState := 1 }
     s.quad = false ∧ (List.range 4).any (fun d => s.up d && (s.die d).safState = 1) = true) ∧
    (let s := ready.modDie 1 fun x => { x with degraded := true }
     s.up 1 = true ∧ (s.die 1).degraded = true ∧ 1 < s.dies.length ∧ (s.func (s.fnOf 1)).plans = List.replicate 16 none) := by decide +kernel

theorem wit_axolotl : let s : State := { ready with cfg := { ready.cfg with axlMode := [1, 1, 1, 1] } }
    s.up 3 = true ∧ s.axlMode 3 ≠ 0 ∧ (List.replicate 64 (0 : Int)).length = 64 ∧ 3 < s.dies.length ∧ s.procStops (.power 3) = false := by decide +kernel

/-- The module with a change of die 2's power state. -/
def powered (k : Power → Power) : State := ready.modDie 2 fun x => { x with power := k x.power }

theorem wit_power : ((Memory.wf (powered id).mem = true ∧ (powered id).shape = [4, 4, 80, 640, 24, 4]) ∧ (powered id).up 2 = true ∧ ((powered id).die 2).powered = true ∧
      (default : Window).nulls = []) ∧
    (let s := (powered id).modPower (powered id).leader fun p => { p with vinMv := 48000 }
     3000000000 < 62501 * (s.die s.leader).power.vinMv) ∧ (800 : Nat) < 801 ∧
    (100 ≤ ((powered fun p => { p with overcap := 100 }).die 2).power.overcap ∧ ((powered fun p => { p with overcap := 100 }).die 2).power.hwLevel = false) ∧
    103 < ((powered fun p => { p with logic := List.replicate 20 104 }).die 2).power.hotLogic ∧
    110 < ((powered fun p => { p with logic := List.replicate 20 111 }).die 2).power.hotLogic ∧
    98 < ((powered fun p => { p with dram := List.replicate 20 99 }).die 2).power.hotDram ∧
    (((powered id).die 2).power.clampLogic = false ∧ ((powered id).die 2).power.clampVaults = []) ∧ (powered id).cluUp 2 19 = true ∧
    (((powered id).modClu 2 19 fun c => { c with droop := true }).clu 2 19).droop = true ∧
    (let p := ((powered fun p => { p with pitchHold := true, lowPeriods := 10000 }).die 2).power
     p.pitchHold = true ∧ p.phLow = false ∧ 10000 ≤ p.lowPeriods) := by decide +kernel

theorem wit_cap_loop : ((2500 : Nat) < 2501 ∧ (2425 : Nat) ≤ 2500 ∧ 2500 * 97 ≤ 2425 * 100 ∧ (0 : Nat) ≤ 38) ∧ ((powered id).die 2).power.thermOfs ≤ 63 ∧
    (800 : Nat) ≤ 1250 := by decide +kernel

/-! ## Witnesses: encodings, counters, reset -/

theorem wit_messages : contribution.wf = true ∧ moveMsg.wf = true ∧
    (∀ m ∈ [request, { request with kind := 3, rows := [], data := [5], winners := [] }], m.wf = true ∧
      (bellowsLists m.kind = true → m.rows.length = m.count) ∧ (bellowsLists m.kind = false → m.rows = []) ∧
      (bellowsHasWinners m.kind m.op = true → m.winners.length = if m.raw then 1 else m.data.length) ∧
      (bellowsHasWinners m.kind m.op = false → m.winners = []) ∧ ∀ x, x ∈ m.data → x < 256 ^ bellowsWidth m.kind m.op m.fmt m.raw) := by decide +kernel

theorem wit_submission : (cmd 0x0301 [] planParams).wf = true ∧ (cmd 0x0801 [(24, 8, 2 ^ 64 - 1)] []).wf = true := by decide +kernel

theorem wit_flit : (15 : Nat) < 16 ∧ (7 : Nat) < 8 ∧ (4095 : Nat) < 4096 ∧ (∀ a, some 4095 = some a → a < 4096) ∧ (8191 : Nat) < 2 ^ 13 ∧
    (zeros 240).length ≤ 240 := by
  refine ⟨by decide, by decide, by decide, ?_, by decide, by decide +kernel⟩
  intro a h
  injection h with h
  omega

theorem wit_counter : 0 < ready.funcs.length ∧ ((ready.func 0).ctr 7).count = 0 ∧ ((ready.func 0).ctr 7).sat = false ∧
    (let s := ready.modFunc 0 fun g => { g with ctrs := [(7, ⟨2 ^ 48 - 1, true⟩)] }
     ((s.func 0).ctr 7).count = 2 ^ 48 - 1 ∧ ((s.func 0).ctr 7).sat = true) := by decide +kernel

/-! ## WellFormed: for each check an ill-formed term that it refuses, and one that it admits -/

def goodCmd : Submission := cmd 0x0301 [] planParams

/-- Places: one past the last die, cluster, core, port, line, function, queue. -/
theorem test_places_refused : [dieOk 4, clusterOk 4 0, clusterOk 0 20, coreOk 640, portOk 24, lineOk 36, funcOk 4, queueOk 64].all (· = false) = true := by decide

theorem test_places_admitted : [dieOk 3, clusterOk 3 19, coreOk 639, portOk 23, lineOk 35, funcOk 3, queueOk 63].all id = true := by decide

theorem test_units_refused : [EngineUnit.matrix 640, .sparse 640, .vector 640, .loadStore 640, .skink 4 0, .bellows 0 20, .chanter 4].all (fun u => u.wf = false) = true ∧
    [Scope.core 640, .cluster 0 20, .die 4].all (fun u => u.wf = false) = true ∧
    [Proc.security 2, .power 4, .scheduler 4, .control 0 20].all (fun u => u.wf = false) = true ∧
    [Resource.array 640, .drains 640, .sparse 640, .vector 640, .coreStore 640, .clusterBuffer 4 0, .gecko 4, .skink 0 20, .port 24, .link 0 3,
      .monitors 4].all (fun u => u.wf = false) = true := by decide

theorem test_submission_refused : [{ goodCmd with src := .host }, { goodCmd with src := .queue 64 }, { goodCmd with src := .peer 1 24 },
    { goodCmd with func := 4 }, { goodCmd with opcode := 2 ^ 16 }, { goodCmd with version := 256 }, { goodCmd with tag := 2 ^ 32 },
    { goodCmd with paramLen := 2 ^ 32 }, { goodCmd with dieMask := 16 }, { goodCmd with cluMask := 2 ^ 20 }, { goodCmd with step := 2 ^ 64 },
    { goodCmd with small := [] }, { goodCmd with params := [] }].all (fun c => c.wf = false) = true ∧ goodCmd.wf = true := by decide +kernel

def goodBellows : BellowsMsg := default
def goodTable : TableMsg := default
def goodChorus : ChorusMsg := default

theorem test_messages_refused : [{ goodBellows with kind := 7 }, { goodBellows with op := 256 }, { goodBellows with fmt := 256 },
      { goodBellows with table := 2 ^ 16 }, { goodBellows with owner := 2 ^ 16 }, { goodBellows with req := 2 ^ 32 },
      { goodBellows with cluster := 20 }, { goodBellows with desc := 2 ^ 16 }, { goodBellows with entry := 2 ^ 32 },
      { goodBellows with count := 2 ^ 32 }, { goodBellows with step := 2 ^ 64 }, { goodBellows with rows := [2 ^ 64] },
      { goodBellows with winners := [2 ^ 64] }].all (fun m => m.wf = false) = true ∧
    [{ goodTable with kind := 11 }, { goodTable with table := 256 }, { goodTable with oldOwner := 2 ^ 16 }, { goodTable with newOwner := 2 ^ 16 },
      { goodTable with row := 2 ^ 64 }, { goodTable with shard := 256 }, { goodTable with slot := 2 ^ 24 }, { goodTable with version := 2 ^ 16 },
      { goodTable with step := 2 ^ 64 }].all (fun m => m.wf = false) = true ∧
    [{ goodChorus with kind := 8 }, { goodChorus with fmt := 256 }, { goodChorus with groupTag := 2 ^ 32 }, { goodChorus with step := 2 ^ 64 },
      { goodChorus with rank := 2 ^ 16 }, { goodChorus with subject := 2 ^ 16 }, { goodChorus with shard := 2 ^ 32 },
      { goodChorus with elems := 2 ^ 32 }, { goodChorus with pgroup := 256 }, { goodChorus with checksum := 2 ^ 64 },
      { goodChorus with participating := 2 ^ 16 }, { goodChorus with maskSum := 2 ^ 64 }].all (fun m => m.wf = false) = true ∧
    goodBellows.wf = true ∧ goodTable.wf = true ∧ goodChorus.wf = true := by decide +kernel

theorem test_others_refused : [(⟨0, 0, false, 0, []⟩ : PeerMem), ⟨0, 0, true, 4, []⟩].all (fun m => m.wf = false) = true ∧
    [{ (default : RoutedRow) with table := 256 }, { (default : RoutedRow) with count := 2 ^ 32 }, { (default : RoutedRow) with tag := 2 ^ 32 }].all
      (fun m => m.wf = false) = true ∧
    [({ (default : SelfTest) with dies := [4] }), { (default : SelfTest) with clusters := [(0, 20)] }, { (default : SelfTest) with vaults := [(4, 0)] },
      { (default : SelfTest) with cores := [640] }, { (default : SelfTest) with columns := [(0, [264])] }, { (default : SelfTest) with ports := [24] },
      { (default : SelfTest) with links := [(0, 3)] }, { (default : SelfTest) with readyMs := 2 ^ 32 }].all (fun m => m.wf = false) = true ∧
    (default : Window).wf = false ∧ (Current.rail 4 0).wf = false ∧ (EccLine.wf ⟨1, .clean⟩) = false ∧ [partner (2 ^ 8) 0, partner 1 1].all (·.wf) = true ∧
    [{ partner 1 1 with ident := 2 ^ 64 }, { partner 1 1 with credits := [] }, { partner 1 1 with lanesRev := 16 }].all (fun m => m.wf = false) = true := by
  decide +kernel

/-- One ill-formed command for each operand check of `Instr.wf`. -/
theorem test_commands_refused : [Instr.zcpHello { goodCmd with func := 4 }, .tblCreateDone 4 0, .tblMigrateDone 0 256, .graphLoadDone 0 16, .fwStageDone 256,
    .disableDone 4, .zcpSqtail 0 64 0, .zcpCqhead 4 0 0, .queueEnable 4 0, .commandFetch 0 0 [], .completionWrite 0 64, .registerWrite 4 0 8 0,
    .bar2Access 0 0 true ⟨4, []⟩ [], .bar2Access 0 0 true ⟨4, [⟨1, .clean⟩]⟩ [0], .gkoFlush 0 4, .mxeSelftest 640, .chnPrepass 4, .memIlvcfgPending 0 4 0, .modCompatWrite 4 0, .portEnable 24,
    .cntValrcRead 4, .vecRngstatRead 640, .zcpReady { (default : SelfTest) with dies := [4] }, .functionLevelReset 4, .configRequest ⟨4, .bar0, none⟩, .entdaa 128,
    .setEndpointId 256, .sidebandSubmission 0 [], .sidebandWindowRead 0 0 65001, .sidebandRegRead 4 0, .unlock [], .procSel (2 ^ 16), .procReg 256 false 0,
    .memAddr 4, .regAccess (2 ^ 26) false 0, .scanSel (2 ^ 32), .flitTransmit 24, .flitReceive 0 ⟨0, 0, []⟩, .retry 0 (2 ^ 16), .retryLimit 36,
    .linkTrainDone 0 { partner 1 1 with credits := [] }, .deliveryAck 0 (2 ^ 64) 0, .peerMemRequest 0 ⟨0, 0, false, 0, []⟩, .peerMemResponse 0 256 [],
    .memGrantRequest 4 0 0, .ack 0 { goodChorus with kind := 8 }, .chorusWindowExpire 4, .chorusOwnerAddDone 0 0 false false ⟨640, ⟨[], []⟩⟩, .rowRequest 0 ⟨{ goodBellows with kind := 7 }, []⟩,
    .chorusOrphanTimeout 0 (2 ^ 16), .gradient 0 { goodBellows with kind := 7 }, .geckoHalve 4, .move 0 { goodTable with kind := 11 },
    .migrationRoundEnd 0 256 0, .stepComplete ⟨4, ⟨[], []⟩, []⟩, .staggerStart 0 20, .droopEnd 4 0 0, .descriptorComplete 0 false 0 ⟨⟨[(640, false)], []⟩, []⟩,
    .stepComplete ⟨0, ⟨[], [(0, 20, true)]⟩, []⟩, .stepComplete ⟨0, ⟨[], []⟩, [⟨1, .clean⟩]⟩, .tileStart 640,
    .tileCommit 640 default, .columnSelftestDone 0 [264], .sparseTileCommit 640 default, .progressMonitorFire (.chanter 4), .clockMonitorFire (.die 4),
    .regulatorMonitorFire 4, .watchdogFire (.security 2), .backgroundSelftest (.port 24) true [], .patrolScrub 1 .clean, .phLow 4, .axlSample 0 [],
    .axolotlPlan 4 [], .axolotlPlan 0 [(640, [])], .sensorWindow 0 default, .inputCurrentLimit (.rail 4 0), .thermalClamp 0 true [20], .reedwayZcpCommand 0 0 24 (zeros 512),
    .routedRowWrite 4 default, .linkPartnerTraining 24].all (fun i => i.wf = false) = true := by decide +kernel

/-! ## Worked examples of the spec -/

/-- Table 11.4: the checksums of three contributions, and that of their sums. -/
theorem test_table_11_4 :
    payloadSum 2 ([0x3800, 0xB400, 0x3C00, 0x3000].flatMap (leBytes 2)) = 23068672 ∧
    payloadSum 2 ([0xBA00, 0x3800, 0x3400, 0xB000].flatMap (leBytes 2)) = 2305843009213693951 - 2097152 ∧
    payloadSum 2 ([0x3400, 0x3400, 0xC000, 0x2C00].flatMap (leBytes 2)) = 2305843009213693951 - 24117248 ∧
    checksum [0, 8388608, -12582912, 1048576] = 2305843009213693951 - 3145728 ∧
    (23068672 + (2305843009213693951 - 2097152) + (2305843009213693951 - 24117248)) % 2305843009213693951 = 2305843009213693951 - 3145728 := by
  decide +kernel

/-- SHAKE256 of the empty message, as FIPS 202's published examples give it. -/
theorem test_shake256 : (shake256 []).take 8 = [0x46, 0xB9, 0xDD, 0x2B, 0x0B, 0xA8, 0x8D, 0x13] ∧ (shake256 []).length = 64 := by decide +kernel

/-- Table 12.10, step 10,923: the residue carries into the high half. -/
theorem test_table_12_10 : ((carryOut 0x3F80 (-32769) (-22)).run default).1 = (0x3F7E, -1) := by decide +kernel

/-- Table 15.5: one plan of Axolotl; the slack is in 0.25 ps and the guard gain in 0.1 ps. -/
theorem test_table_15_5 : axlPlan 20 28 40 6 1500 = (8, 1475, false) := by decide +kernel

/-- Chapter 13: MXE_LASTCHK of core 5 of cluster 13 on die 2 lies at offset 0x23E_9040 of BAR0, and its core ID is 429 (chapter 1). -/
theorem test_register_place : ready.place 0 0x23E9040 = some (.mxe 429, 0x40) ∧ coreId 2 13 5 = 429 := by decide +kernel

/-- Chapter 21: MXE_RERUN of core 429 is counter 31,566. -/
theorem test_counter_index : ready.ixCore 429 14 = 31566 := by decide +kernel

/-- Table 18.3, line 2: the counter is 5, and an image of version 7 takes it to 7. -/
theorem test_table_18_3 : (match exec .fwActivateDone
      { (activating 2).1 with
        act := some { (activating 2).2 with kind := 2, image := record 64 [(0, 1, 1), (8, 4, 7)] }
        sec := { ready.sec with arCount := 5 } } with
    | .next t => t.sec.arCount
    | _ => 0) = max 5 (min 63 (Image.secVersion (record 64 [(0, 1, 1), (8, 4, 7)]))) := by decide +kernel

/-! ## Single steps -/

/-- The state after one step on a command. -/
def after (s : State) (c : Instr) : State :=
  match step { s with pending := [c] } with
  | .next t => t
  | _ => s

/-- R29: the presentation written stays to come until a module reset; R31: PERST# deasserted puts it in force. -/
theorem test_present : let s := after ready (.modPresent (cmd 2 [(24, 1, 1)] []))
    s.cfg.present = 1 ∧ s.quad = false ∧ (after (after s .perstAssert) .perstDeassert).quad = true := by decide +kernel

/-- R362: a tail that the ring does not hold is an out-of-range access and moves nothing. -/
theorem test_doorbell_out_of_range : let s := after ready (.zcpSqtail 0 3 16)
    ((s.func 0).queues.getD 3 Queue.reset).sqTail = 0 ∧ ((s.func 0).ctr (ixMod 16)).count = 1 := by decide +kernel

theorem test_doorbell : ((after ready (.zcpSqtail 0 3 15)).func 0).queues.getD 3 Queue.reset = { Queue.reset with sqTail := 15 } := by decide +kernel

/-- R450: reading CNT_VALRC clears the counter it reads. -/
theorem test_read_clears : let s := after (ready.modFunc 0 fun g => { g with cntSel := 7, ctrs := [(7, ⟨9, false⟩)] }) (.cntValrcRead 0)
    s.out = ready.out ++ [.readData 9 8] ∧ ((s.func 0).ctr 7).count = 0 := by decide +kernel

/-- R449: a counter stays at 2^48 − 1 with SAT. -/
theorem test_saturates : let s := (ready.modFunc 0 fun g => { g with ctrs := [(7, ⟨2 ^ 48 - 2, false⟩)] }).count 0 15 7 2
    (s.func 0).ctr 7 = ⟨2 ^ 48 - 1, true⟩ := by decide +kernel

/-- R437: what is written through the sideband window reads back. -/
theorem test_window : (after (after ready (.sidebandWindowWrite 0 8 [1, 2, 3])) (.sidebandWindowRead 0 8 3)).out = ready.out ++ [.mctp [1, 2, 3]] := by
  decide +kernel

/-- R408, R440: with no scope open a debug instruction acts as BYPASS. -/
theorem test_bypass : (after ready .procHalt).procs = ready.procs ∧ (after ready .procHalt).jtag.dr = [false] := by decide +kernel

/-- R425, R430: PERST# asserted stops the PCIe link and READY. -/
theorem test_perst : (after ready .perstAssert).ready = false ∧ (after ready .perstAssert).pcie.linkUp = false := by decide +kernel

/-- R447: a step with nothing to do is one count of every source that runs. -/
theorem test_idle : (match step ready with | .next t => (t.clk, (t.die 3).clk) | _ => (0, 0)) = (1, 1) := by decide +kernel

/-- R410: a token that is not accepted spends the challenge and opens nothing. -/
theorem test_unlock : let s : State := { ready with sec := { ready.sec with challenge := some (zeros 32) } }
    (after s (.unlock [])).sec.challenge = none ∧ (after s (.unlock [])).sec.scopes = 0 := by decide +kernel

end Sys2Proof.Tests
end

section
/-!
PROOFS. What is written as bytes reads back: messages (O56), submissions (O57) and flits (O58).
-/
namespace Sys2Proof.Machine

/-! ## Fields of a record -/

theorem at'_skip {n off : Nat} (v len : Nat) (b : List Byte) (h : n ≤ off) : at' (leBytes n v ++ b) off len = at' b (off - n) len := by
  rw [at'_after _ _ (by simpa using h), length_leBytes]

theorem at'_skip_zeros {n off : Nat} (len : Nat) (b : List Byte) (h : n ≤ off) : at' (zeros n ++ b) off len = at' b (off - n) len := by
  rw [at'_after _ _ (by simpa using h), length_zeros]

theorem bits_of_two_flags : ∀ a b : Bool,
    bit (flag a 0 + flag b 1) 0 = a ∧ bit (flag a 0 + flag b 1) 1 = b ∧ flag a 0 + flag b 1 < 256 := by
  decide

theorem bits_of_three_flags : ∀ a b c : Bool,
    let n := flag a 0 + flag b 1 + flag c 2
    bit n 0 = a ∧ bit n 1 = b ∧ bit n 2 = c ∧ n < 256 := by
  decide

theorem bits_of_five_flags : ∀ a b c d e : Bool,
    let n := flag a 0 + flag b 1 + flag c 2 + flag d 3 + flag e 4
    bit n 0 = a ∧ bit n 1 = b ∧ bit n 2 = c ∧ bit n 3 = d ∧ bit n 4 = e ∧ n < 256 := by
  decide

/-! ## Chorus messages (Table 11.2) -/

theorem length_chorusHeader (m : ChorusMsg) : (chorusHeader m).length = 64 := by simp [chorusHeader]

theorem chorusMsg_wf_iff (m : ChorusMsg) : m.wf = true ↔ m.kind < 8 ∧ m.fmt < 2 ^ 8 ∧ m.groupTag < 2 ^ 32 ∧ m.step < 2 ^ 64 ∧
    m.rank < 2 ^ 16 ∧ m.subject < 2 ^ 16 ∧ m.shard < 2 ^ 32 ∧ m.elems < 2 ^ 32 ∧ m.pgroup < 2 ^ 8 ∧ m.checksum < 2 ^ 64 ∧
    m.participating < 2 ^ 16 ∧ m.maskSum < 2 ^ 64 := by
  simp only [ChorusMsg.wf, fits, Bool.and_eq_true, decide_eq_true_eq, and_assoc]

theorem chorusParse_chorusEncode (m : ChorusMsg) (h : m.wf = true) : chorusParse (chorusEncode m) = m := by
  obtain ⟨hkind, hfmt, htag, hstep, hrank, hsubject, hshard, helems, hpgroup, hsum, hpart, hmask⟩ := (chorusMsg_wf_iff m).1 h
  obtain ⟨nf, carry, resend, skip, nack, hflags⟩ := bits_of_five_flags m.nf m.carry m.resend m.skip m.nack
  have hs : m.normS.toNat < 2 ^ 32 := m.normS.isLt
  have he : m.normE.toNat < 2 ^ 32 := m.normE.isLt
  have payload : (chorusEncode m).drop 64 = m.payload := List.drop_left' (length_chorusHeader m)
  unfold chorusParse
  rw [payload]
  simp (disch := omega) only [chorusEncode, chorusHeader, List.append_assoc, at'_here, at'_skip, at'_skip_zeros, Nat.reduceSub,
    nf, carry, resend, skip, nack, BitVec.ofNat_toNat, BitVec.setWidth_eq]

/-! ## Table-maintenance messages (Table 6.6) -/

theorem length_tableMsgHeader (m : TableMsg) : (tableMsgHeader m).length = 32 := by simp [tableMsgHeader]

theorem tableMsg_wf_iff (m : TableMsg) : m.wf = true ↔ m.kind < 11 ∧ m.table < 2 ^ 8 ∧ m.oldOwner < 2 ^ 16 ∧ m.newOwner < 2 ^ 16 ∧
    m.row < 2 ^ 64 ∧ m.shard < 2 ^ 8 ∧ m.slot < 2 ^ 24 ∧ m.version < 2 ^ 16 ∧ m.step < 2 ^ 64 := by
  simp only [TableMsg.wf, fits, Bool.and_eq_true, decide_eq_true_eq, and_assoc]

theorem tableMsgParse_tableMsgEncode (m : TableMsg) (h : m.wf = true) : tableMsgParse (tableMsgEncode m) = m := by
  obtain ⟨hkind, htable, hold, hnew, hrow, hshard, hslot, hversion, hstep⟩ := (tableMsg_wf_iff m).1 h
  obtain ⟨lastRound, held, hflags⟩ := bits_of_two_flags m.lastRound m.held
  have payload : (tableMsgEncode m).drop 32 = m.payload := List.drop_left' (length_tableMsgHeader m)
  unfold tableMsgParse
  rw [payload]
  simp (disch := omega) only [tableMsgEncode, tableMsgHeader, List.append_assoc, at'_here, at'_skip, at'_skip_zeros, Nat.reduceSub,
    lastRound, held]

/-! ## Bellows messages (Table 5.3) -/

theorem length_bellowsHeader (m : BellowsMsg) : (bellowsHeader m).length = 32 := by simp [bellowsHeader]

theorem bellowsMsg_wf_iff (m : BellowsMsg) : m.wf = true ↔ m.kind < 7 ∧ m.op < 2 ^ 8 ∧ m.fmt < 2 ^ 8 ∧ m.table < 2 ^ 16 ∧
    m.owner < 2 ^ 16 ∧ m.req < 2 ^ 32 ∧ m.cluster < 20 ∧ m.desc < 2 ^ 16 ∧ m.entry < 2 ^ 32 ∧ m.count < 2 ^ 32 ∧ m.step < 2 ^ 64 ∧
    (∀ x ∈ m.rows, x < 2 ^ 64) ∧ ∀ x ∈ m.winners, x < 2 ^ 64 := by
  simp only [BellowsMsg.wf, fits, Bool.and_eq_true, decide_eq_true_eq, List.all_eq_true, and_assoc]

theorem bellowsWidth_pos (kind op fmt : Nat) (raw : Bool) : 0 < bellowsWidth kind op fmt raw := by
  unfold bellowsWidth
  split_ifs <;> decide

theorem length_flatMap_leBytes (w : Nat) (l : List Nat) : (l.flatMap (leBytes w)).length = w * l.length := by
  simp [List.length_flatMap, Nat.mul_comm]

/-- Numbers of one width read back in front of whatever follows them. -/
theorem natsOf_flatMap_append {w : Nat} {l : List Nat} (b : List Byte) (h : ∀ x ∈ l, x < 256 ^ w) :
    natsOf w l.length (l.flatMap (leBytes w) ++ b) = l := by
  induction l with
  | nil => rfl
  | cons x l ih =>
    rw [List.flatMap_cons, List.append_assoc, List.length_cons, natsOf, List.take_left' (length_leBytes w x),
      List.drop_left' (length_leBytes w x), ih fun y hy => h y (List.mem_cons_of_mem x hy),
      leNat_leBytes_of_lt (h x List.mem_cons_self)]

theorem natsOf_flatMap {w : Nat} {l : List Nat} (h : ∀ x ∈ l, x < 256 ^ w) : natsOf w l.length (l.flatMap (leBytes w)) = l := by
  simpa using natsOf_flatMap_append [] h

/-- The number of elements that follows from the bytes behind the rows: with winners, each element takes 8 bytes more, or a raw row 8
bytes in all. -/
theorem bellows_elements {win raw : Bool} {w k n : Nat} (hw : 0 < w) (hwin : win = true → k = if raw then 1 else n)
    (hno : win = false → k = 0) :
    (if win && raw then (8 * k + w * n - 8) / w else (8 * k + w * n) / (if win then w + 8 else w)) = n := by
  cases win with
  | false =>
    have hk : k = 0 := hno rfl
    simp [hk, Nat.mul_div_cancel_left n hw]
  | true =>
    cases raw with
    | true =>
      have hk : k = 1 := hwin rfl
      simp [hk, Nat.mul_div_cancel_left n hw]
    | false =>
      have hk : k = n := hwin rfl
      have total : 8 * k + w * n = (w + 8) * n := by rw [hk, Nat.add_mul, Nat.add_comm]
      simp only [Bool.and_false, Bool.false_eq_true, if_false, if_true, total]
      exact Nat.mul_div_cancel_left n (by omega)

/-- The bytes of a Bellows message behind its rows: the winners, then the elements. -/
def bellowsTail (m : BellowsMsg) : List Byte :=
  m.winners.flatMap (leBytes 8) ++ m.data.flatMap (leBytes (bellowsWidth m.kind m.op m.fmt m.raw))

theorem bellowsEncode_eq (m : BellowsMsg) :
    bellowsEncode m = bellowsHeader m ++ (m.rows.flatMap (leBytes 8) ++ bellowsTail m) := by
  simp only [bellowsEncode, bellowsTail, List.append_assoc]

theorem length_bellowsTail (m : BellowsMsg) :
    (bellowsTail m).length = 8 * m.winners.length + bellowsWidth m.kind m.op m.fmt m.raw * m.data.length := by
  simp only [bellowsTail, List.length_append, length_flatMap_leBytes]

theorem drop_bellowsEncode (m : BellowsMsg) : (bellowsEncode m).drop 32 = m.rows.flatMap (leBytes 8) ++ bellowsTail m := by
  rw [bellowsEncode_eq, List.drop_left' (length_bellowsHeader m)]

theorem drop_bellowsEncode_rows (m : BellowsMsg) : (bellowsEncode m).drop (32 + 8 * m.rows.length) = bellowsTail m := by
  rw [← List.drop_drop, drop_bellowsEncode, List.drop_left' (length_flatMap_leBytes 8 m.rows)]

theorem drop_bellowsTail (m : BellowsMsg) :
    (bellowsTail m).drop (8 * m.winners.length) = m.data.flatMap (leBytes (bellowsWidth m.kind m.op m.fmt m.raw)) :=
  List.drop_left' (length_flatMap_leBytes 8 m.winners)

theorem bellowsParse_bellowsEncode (m : BellowsMsg) (h : m.wf = true) (hlist : bellowsLists m.kind = true → m.rows.length = m.count)
    (hnone : bellowsLists m.kind = false → m.rows = [])
    (hwin : bellowsHasWinners m.kind m.op = true → m.winners.length = if m.raw then 1 else m.data.length)
    (hno : bellowsHasWinners m.kind m.op = false → m.winners = [])
    (hdata : ∀ x ∈ m.data, x < 256 ^ bellowsWidth m.kind m.op m.fmt m.raw) : bellowsParse (bellowsEncode m) = m := by
  obtain ⟨hkind, hop, hfmt, htable, howner, hreq, hcluster, hdesc, hentry, hcount, hstep, hrows, hwinners⟩ := (bellowsMsg_wf_iff m).1 h
  obtain ⟨raw, nf, hflags⟩ := bits_of_two_flags m.raw m.nf
  have nrows : (if bellowsLists m.kind then m.count else 0) = m.rows.length := by
    cases e : bellowsLists m.kind with
    | true => exact (hlist e).symm
    | false => simp [hnone e]
  have nwin : (if bellowsHasWinners m.kind m.op then (if m.raw then 1 else m.data.length) else 0) = m.winners.length := by
    cases e : bellowsHasWinners m.kind m.op with
    | true => exact (hwin e).symm
    | false => simp [hno e]
  have elements := bellows_elements (bellowsWidth_pos m.kind m.op m.fmt m.raw) hwin fun e => by rw [hno e]; rfl
  have rows : natsOf 8 m.rows.length (m.rows.flatMap (leBytes 8) ++ bellowsTail m) = m.rows := natsOf_flatMap_append _ hrows
  have winners : natsOf 8 m.winners.length (bellowsTail m) = m.winners := natsOf_flatMap_append _ hwinners
  have fields (off len : Nat) : at' (bellowsEncode m) off len =
      at' (bellowsHeader m ++ (m.rows.flatMap (leBytes 8) ++ bellowsTail m)) off len := by rw [bellowsEncode_eq]
  unfold bellowsParse
  simp (disch := omega) only [fields, bellowsHeader, List.append_assoc, at'_here, at'_skip, at'_skip_zeros, Nat.reduceSub, raw, nf,
    nrows, drop_bellowsEncode, drop_bellowsEncode_rows, length_bellowsTail, elements, nwin, rows, winners, drop_bellowsTail,
    natsOf_flatMap hdata]

/-- Settles O56: each message of Tables 5.3, 6.6 and 11.2 is read field by field behind the fields before it. -/
theorem messagesReadBack : Obligations.MessagesReadBack :=
  ⟨⟨chorusParse_chorusEncode, tableMsgParse_tableMsgEncode⟩, bellowsParse_bellowsEncode⟩

/-! ## Submissions (Table 16.2) -/

theorem submission_wf_fields {c : Submission} (h : c.wf = true) : c.opcode < 2 ^ 16 ∧ c.version < 2 ^ 8 ∧ c.tag < 2 ^ 32 ∧
    c.paramLen < 2 ^ 32 ∧ c.dieMask < 2 ^ 4 ∧ c.cluMask < 2 ^ 20 ∧ c.step < 2 ^ 64 ∧ c.small.length = 40 ∧
    c.params.length = min c.paramLen 448 := by
  simp only [Submission.wf, fits, Bool.and_eq_true, decide_eq_true_eq, and_assoc] at h
  exact h.2.2

/-- Bytes 0 to 23 of a slot. -/
def submissionHeader (c : Submission) : List Byte :=
  leBytes 2 c.opcode ++ leBytes 1 c.version ++ leBytes 1 (flag c.fence 0 + flag c.noReply 1 + flag c.stepTagged 2) ++
    leBytes 4 c.tag ++ leBytes 4 c.paramLen ++ leBytes 4 (c.dieMask + c.cluMask * 16) ++ leBytes 8 c.step

theorem length_submissionHeader (c : Submission) : (submissionHeader c).length = 24 := by simp [submissionHeader]

theorem submissionImage_append {c : Submission} (h : c.small.length = 40) (rest : List Byte) :
    submissionImage c ++ rest = submissionHeader c ++ (c.small ++ (c.params ++ rest)) := by
  simp only [submissionImage, List.take_left' h, submissionHeader, List.append_assoc]

theorem drop_submissionImage_small {c : Submission} (h : c.small.length = 40) (rest : List Byte) :
    (submissionImage c ++ rest).drop 24 = c.small ++ (c.params ++ rest) := by
  rw [submissionImage_append h, List.drop_left' (length_submissionHeader c)]

theorem drop_submissionImage_params {c : Submission} (h : c.small.length = 40) (rest : List Byte) :
    (submissionImage c ++ rest).drop 64 = c.params ++ rest := by
  rw [← List.drop_drop (i := 40) (j := 24), drop_submissionImage_small h, List.drop_left' h]

/-- The two masks that share bytes 12 to 15 read apart. -/
theorem masks_apart {d c : Nat} (hd : d < 2 ^ 4) (hc : c < 2 ^ 20) :
    d + c * 16 < 2 ^ 32 ∧ fld (d + c * 16) 0 4 = d ∧ fld (d + c * 16) 4 20 = c := by
  unfold fld
  omega

theorem parseSubmission_submissionImage (c : Submission) (rest : List Byte) (h : c.wf = true) :
    parseSubmission c.src c.func (submissionImage c ++ rest) = c := by
  obtain ⟨hop, hversion, htag, hlen, hdie, hclu, hstep, hsmall, hparams⟩ := submission_wf_fields h
  obtain ⟨fence, noReply, stepTagged, hflags⟩ := bits_of_three_flags c.fence c.noReply c.stepTagged
  obtain ⟨hmasks, dieMask, cluMask⟩ := masks_apart hdie hclu
  have fields (off len : Nat) : at' (submissionImage c ++ rest) off len =
      at' (submissionHeader c ++ (c.small ++ (c.params ++ rest))) off len := by rw [submissionImage_append hsmall]
  unfold parseSubmission
  simp (disch := omega) only [fields, submissionHeader, List.append_assoc, at'_here, at'_skip, Nat.reduceSub, fence, noReply,
    stepTagged, dieMask, cluMask, drop_submissionImage_small hsmall, drop_submissionImage_params hsmall, List.take_left' hsmall,
    List.take_left' hparams]

/-- Settles O57: the header is read field by field, and PARAM_LEN bounds what is taken of the bytes behind it. -/
theorem submissionsReadBack : Obligations.SubmissionsReadBack := parseSubmission_submissionImage

/-! ## Flits (Table 19.2) -/

/-- Bytes 4 and 5 of a flit: what it acknowledges, and bit 15 when it does. -/
def ackField : Option Nat → Nat
  | some a => a + 2 ^ 15
  | none => 0

/-- The eight bytes in front of the payload. -/
def flitHeader (type vc : Nat) (first last : Bool) (seq : Nat) (ack : Option Nat) (cvc cn : Nat) : List Byte :=
  leBytes 1 (type + vc * 16 + flag first 7) ++ leBytes 1 (flag last 0) ++ leBytes 2 seq ++ leBytes 2 (ackField ack) ++
    leBytes 2 (2 ^ 13 * cvc + cn)

section
variable {type vc seq cvc cn : Nat} {first last : Bool} {ack : Option Nat} {payload : List Byte}

theorem flitBytes_eq (hp : payload.length ≤ 240) : let padded := payload ++ zeros (240 - payload.length)
    let header := flitHeader type vc first last seq ack cvc cn
    flitBytes type vc first last seq ack cvc cn payload = header ++ (padded ++ leBytes 8 (crc64 (header ++ padded))) := by
  unfold flitBytes flitHeader
  rw [List.take_of_length_le hp]
  cases ack <;> simp only [ackField, List.append_assoc]

theorem length_flitHeader : (flitHeader type vc first last seq ack cvc cn).length = 8 := by simp [flitHeader]

theorem length_flitBytes (hp : payload.length ≤ 240) : (flitBytes type vc first last seq ack cvc cn payload).length = 256 := by
  rw [flitBytes_eq hp]
  simp only [List.length_append, length_flitHeader, length_zeros, length_leBytes]
  omega

theorem flit_payload (hp : payload.length ≤ 240) :
    ((flitBytes type vc first last seq ack cvc cn payload).drop 8).take 240 = payload ++ zeros (240 - payload.length) := by
  rw [flitBytes_eq hp, List.drop_left' length_flitHeader, List.take_left' (by simp; omega)]

theorem typeField_reads (ht : type < 16) (hv : vc < 8) : let n := type + vc * 16 + flag first 7
    n < 256 ∧ fld n 0 4 = type ∧ fld n 4 3 = vc ∧ bit n 7 = first := by
  cases first <;> simp [flag, b2n, fld, bit, Nat.testBit_eq_decide_div_mod_eq] <;> omega

theorem ackField_reads (h : ∀ a, ack = some a → a < 4096) :
    ackField ack < 2 ^ 16 ∧ bit (ackField ack) 15 = ack.isSome ∧ ackField ack % 4096 = ack.getD 0 := by
  cases ack with
  | none => decide
  | some a =>
    have ha : a < 4096 := h a rfl
    simp only [ackField, bit, Nat.testBit_eq_decide_div_mod_eq, Option.isSome_some, Option.getD_some, decide_eq_true_eq]
    omega

theorem lastField_reads : flag last 0 < 256 ∧ bit (flag last 0) 0 = last := by cases last <;> decide

/-- A flit reads back: each field from the place of Table 19.2. -/
theorem flit_reads (ht : type < 16) (hv : vc < 8) (hseq : seq < 4096) (hack : ∀ a, ack = some a → a < 4096) (hcvc : cvc < 8)
    (hcn : cn < 2 ^ 13) (hp : payload.length ≤ 240) :
    let b := flitBytes type vc first last seq ack cvc cn payload
    at' b 0 1 = type + vc * 16 + flag first 7 ∧ at' b 1 1 = flag last 0 ∧ at' b 2 2 = seq ∧ at' b 4 2 = ackField ack ∧
      at' b 6 2 = 2 ^ 13 * cvc + cn := by
  have htype := (typeField_reads (first := first) ht hv).1
  have hlast := (lastField_reads (last := last)).1
  have hackField := (ackField_reads hack).1
  dsimp only
  rw [flitBytes_eq hp]
  simp (disch := omega) only [flitHeader, List.append_assoc, at'_here, at'_skip, Nat.reduceSub, and_self]

end

/-- Settles O58: the header, the payload and the CRC each stand at their place, and the fields that share a byte read apart. -/
theorem flitsReadBack : Obligations.FlitsReadBack := by
  intro type vc seq cvc cn first last ack payload ht hv hseq hack hcvc hcn hp b
  obtain ⟨h0, h1, h2, h4, h6⟩ := flit_reads (first := first) (last := last) ht hv hseq hack hcvc hcn hp
  obtain ⟨-, htype, hvc, hfirst⟩ := typeField_reads (first := first) ht hv
  obtain ⟨-, hlast⟩ := lastField_reads (last := last)
  obtain ⟨-, hsome, hget⟩ := ackField_reads hack
  have hlen : b.length = 256 := length_flitBytes hp
  refine ⟨hlen, Tests.flit_sound _ _ _ _ _ _ _ _ _ hlen, ?_⟩
  rw [h0, h1, h2, h4, h6]
  exact ⟨htype, hvc, hfirst, hlast, rfl, hsome, hget, by omega, by omega, flit_payload hp⟩

end Sys2Proof.Machine
end

section
/-!
PROOFS. A register write reaches its register (O30) and the resets restart the module (O36).
-/
namespace Sys2Proof.Machine

/-! ## Register writes (R4 to R7, R307) -/

section
variable {s : State} {f src off size v : Nat}

theorem exec_registerWrite {v : Word} (hlive : s.live = true) (hup : s.pcie.linkUp = true) (hok : s.pcie.failed = false)
    (hawake : s.asleep f = false) : exec (.registerWrite f off size v) s = .next (s.regWrite f 97 off size v.toNat) := by
  change execRegisterWrite f off size v s = _
  unfold execRegisterWrite
  rw [if_pos (by simp [hlive, hup, hok, hawake])]

/-- R307: an access of another size, misaligned or at no register counts as out of range and does nothing else. -/
theorem State.regPut_outOfRange (hf : s.fns.contains f = true) (h : size ≠ 8 ∨ off % 8 ≠ 0 ∨ s.place f off = none) :
    s.regPut f src off size v = s.violOor f := by
  unfold State.regPut
  rw [if_neg (by simp only [hf, Bool.not_true, Bool.false_eq_true, not_false_eq_true])]
  split
  next => rfl
  next hshape =>
    have hplace : s.place f off = none := by
      simp only [Bool.or_eq_true, decide_eq_true_eq, not_or] at hshape
      exact (h.resolve_left hshape.1).resolve_left hshape.2
    rw [hplace]

/-- Tables 17.1 and 17.4: a write of the configuration record waits behind the earlier ones while the security core is stopped. -/
theorem State.regWrite_waits {b : RegBlk} {o : Nat} (hstop : s.procStops (.security (s.sec.role % 2)) = true) (h8 : off % 8 = 0)
    (hp : s.place f off = some (b, o)) (hrec : recordMask b o ≠ 0) (ha : s.absentBlk b = false) :
    s.regWrite f src off 8 v = { s with sec := { s.sec with writes := s.sec.writes ++ [(src, f, off, v)] } } := by
  unfold State.regWrite
  rw [if_pos (by simp [hstop, h8, hp, hrec, ha])]

/-- A write at no register waits for nothing. -/
theorem State.regWrite_outOfRange (hf : s.fns.contains f = true) (h : size ≠ 8 ∨ off % 8 ≠ 0 ∨ s.place f off = none)
    (hw : s.sec.writes = []) : s.regWrite f src off size v = s.violOor f := by
  unfold State.regWrite
  rw [if_neg, State.heldWrites_nil hw, State.regPut_outOfRange hf h]
  rcases h with h | h | h <;> simp [h]

/-- R356: MOD_COMPAT takes the pins to come; the record, the journal and the measurements alone change. -/
theorem State.regWrite_compat (hf : s.fns.contains f = true) (hs : s.procStops (.security (s.sec.role % 2)) = false)
    (hw : s.sec.writes = []) :
    Recorded { s with cfg := { s.cfg with zcpPin := fld v 0 8, rwPin := fld v 8 2 } } (s.regWrite f src 0x20 8 v) :=
  State.regWrite_at (b := .mod) (o := 0x20) (old := s.compat) hf rfl rfl rfl rfl (fun _ e => nomatch e) hs hw

end

/-- Settles O30: by the two answers of a register write, that it waits and that it takes place after those that waited. -/
theorem registerWritesReachTheirRegister : Obligations.RegisterWritesReachTheirRegister := by
  intro s f off size v hlive hup hok hawake
  rw [exec_registerWrite hlive hup hok hawake]
  refine ⟨rfl, fun hf hout hw => ?_, fun hs => ?_, State.heldWrites_nil, fun hstop h8 hoff b o hp hrec ha => ?_,
    fun hf h8 hoff hs hw => ?_⟩
  · rw [State.regWrite_outOfRange hf hout hw]
  · rw [State.regWrite_put hs]
  · rw [h8, State.regWrite_waits hstop hoff hp hrec ha]
  · subst h8 hoff
    obtain ⟨j, m, n, h⟩ := State.regWrite_compat (src := 97) (v := v.toNat) hf hs hw
    rw [h]
    exact ⟨_, rfl, rfl, rfl, rfl, rfl, rfl, rfl, rfl⟩

/-! ## Module reset (R8, R31, R429, R430, R446) -/

/-- R443: a restart is the module at t0, whatever stands at the connectors before and after it, and whatever is put out. -/
theorem State.restart_restarted (s : State) (before after : Boot) (cold : Bool) (out : List Output) (jtag : Jtag)
    (h : after.done = 0) :
    s.restarted { ({ s with boot := before } : State).restart cold with boot := after, out := out, jtag := jtag } := by
  refine ⟨rfl, rfl, rfl, ?flash, ?quad, rfl, rfl, rfl, h, rfl, rfl, rfl, rfl, rfl, ?shape, ?funcs, ?ports, ?fw⟩
  case flash => simp [State.flash, State.restart]
  case quad => simp [State.restart, State.atReset]
  case shape => simp [State.shape, State.restart, State.atReset]
  case funcs => exact fun g hg => List.eq_of_mem_replicate hg
  case ports => exact fun p hp => List.eq_of_mem_replicate hp
  case fw =>
    intro k hk
    obtain ⟨x, -, rfl⟩ := List.mem_map.1 hk
    exact ⟨rfl, rfl⟩

section
variable {s : State}

/-- R429: with no lock-out and the rail down, the controller begins to turn on. -/
theorem exec_softStart (hlock : s.boot.lockout = false) (hoff : s.boot.pwrGood = false) :
    exec .softStart s = .next { s with boot := { s.boot with pwrEn := true, mated := true, softStart := true } } := by
  change execSoftStart s = _
  simp [execSoftStart, hlock, hoff]

theorem exec_pwrGood (h : s.boot.softStart = true) : exec .pwrGood s = .next ((s.restart true).put (.pwrGood true)) := by
  change execPwrGood s = _
  simp [execPwrGood, h]

theorem exec_perstDeassert (hperst : s.boot.perst = true) (hon : s.boot.pwrGood = true) : exec .perstDeassert s = .next
    { ({ s with boot := { s.boot with perst := false } } : State).restart (!s.boot.perstPending && s.boot.cold) with
      jtag := { s.jtag with driven := none } } := by
  change execPerstDeassert s = _
  simp [execPerstDeassert, hperst, hon]

/-- The connectors after the controller has turned off (R429, R430). -/
def Boot.turnedOff (b : Boot) : OffCause → Boot
  | .pwrEnLow ms => { b with pwrEn := false, lockout := b.lockout && ms < 100 }
  | .presentBreak => { b with mated := false }
  | .undervoltage | .overvoltage => b
  | .breaker => { b with lockout := true }

theorem exec_hotSwapOff (cause : OffCause) (h : (s.boot.pwrGood || s.boot.softStart) = true) : ∃ out, exec (.hotSwapOff cause) s = .next
    (let t := ({ s with boot := s.boot.turnedOff cause } : State).restart true
     { t with boot := { t.boot with pwrGood := false, softStart := false }, out := out }) := by
  have hon : ¬(!s.boot.pwrGood && !s.boot.softStart) = true := by
    rw [← Bool.not_or, h]
    decide
  change ∃ out, execHotSwapOff cause s = _
  cases cause <;>
    · simp only [execHotSwapOff, Boot.turnedOff, if_neg hon, State.put]
      split <;> exact ⟨_, rfl⟩

end

/-! ## PERST# asserted (R446) -/

/-- A fold of which each step changes the cores alone changes the cores alone. -/
theorem foldl_changes_cores {α : Type} {g : State → α → State} (hg : ∀ u x, ∃ cs, g u x = { u with cores := cs }) (l : List α)
    (s : State) : ∃ cs, l.foldl g s = { s with cores := cs } := by
  induction l generalizing s with
  | nil => exact ⟨s.cores, rfl⟩
  | cons x l ih =>
    obtain ⟨cs, first⟩ := hg s x
    obtain ⟨ds, rest⟩ := ih (g s x)
    exact ⟨ds, by rw [List.foldl_cons, rest, first]⟩

theorem State.emptyEngines_changes_cores (s : State) (f : Nat) : ∃ cs, s.emptyEngines f = { s with cores := cs } :=
  foldl_changes_cores (fun _ _ => ⟨_, rfl⟩) _ s

/-- Every queue is empty and nothing is in work; the presentation and the record stand. -/
theorem State.dropAll_spec (s : State) : s.dropAll.quad = s.quad ∧ s.dropAll.cfg = s.cfg ∧ s.dropAll.act = none ∧
    ∀ g ∈ s.dropAll.funcs, g.fetched = [] ∧ g.done = [] ∧ g.cur = none ∧ g.ahead = none ∧ g.jobs = [] := by
  obtain ⟨cs, emptied⟩ := foldl_changes_cores State.emptyEngines_changes_cores s.fns s
  unfold State.dropAll
  rw [emptied]
  refine ⟨rfl, rfl, rfl, fun g hg => ?_⟩
  obtain ⟨x, -, rfl⟩ := List.mem_map.1 hg
  exact ⟨rfl, rfl, rfl, rfl, rfl⟩

theorem exec_perstAssert {s : State} (hperst : s.boot.perst = false) (hon : s.boot.pwrGood = true) :
    exec .perstAssert s = .next { s.dropAll with
      ready := false
      pcie := { s.dropAll.pcie with linkUp := false }
      boot := { s.dropAll.boot with perst := true, perstPending := true } } := by
  change execPerstAssert s = _
  simp [execPerstAssert, hperst, hon]

/-- Settles O36: the three events that take the module to t0 each restart it, and PERST# asserted drops all work. -/
theorem resetsRestartTheModule : Obligations.ResetsRestartTheModule := by
  intro s
  refine ⟨exec_softStart, fun h => ?_, fun hperst hon => ?_, fun cause h => ?_, fun hperst hon => ?_⟩
  · exact ⟨_, exec_pwrGood h, State.restart_restarted s s.boot _ true _ _ rfl, rfl, rfl, rfl⟩
  · exact ⟨_, exec_perstDeassert hperst hon, State.restart_restarted s _ _ _ _ _ rfl, rfl, rfl, rfl⟩
  · obtain ⟨out, e⟩ := exec_hotSwapOff cause h
    refine ⟨_, e, State.restart_restarted s _ _ true _ _ rfl, rfl, rfl, ?_⟩
    cases cause <;> rfl
  · obtain ⟨quad, cfg, act, dropped⟩ := State.dropAll_spec s
    exact ⟨_, exec_perstAssert hperst hon, rfl, rfl, rfl, act, quad, cfg, dropped⟩

end Sys2Proof.Machine
end

section
/-!
PROOFS. What every command leaves alone: one case split of the commands into those that keep everything, those that move the module on,
and those at which a module reset takes place. The invariant (O4, O5) and what stands until a reset (O7, O8) follow from it.
-/
namespace Sys2Proof.Machine

/-! ## The commands by what they leave alone -/

/-- The commands that, between two module resets, change the presentation to come, the firmware, the scopes, or where the module
stands in its start-up. -/
inductive Advances : Instr → Prop
  | modPresent (c : Submission) : Advances (.modPresent c)
  | fwActivate (c : Submission) : Advances (.fwActivate c)
  | fwActivateProceed : Advances .fwActivateProceed
  | fwActivateDone : Advances .fwActivateDone
  | activationRevert : Advances .activationRevert
  | softStart : Advances .softStart
  | perstAssert : Advances .perstAssert
  | romBoot : Advances .romBoot
  | overlayVerify : Advances .overlayVerify
  | diePowerUp : Advances .diePowerUp
  | pcieLinkUp : Advances .pcieLinkUp
  | memoryInit : Advances .memoryInit
  | zcpReady (t : SelfTest) : Advances (.zcpReady t)
  | fullSelftestDone : Advances .fullSelftestDone
  | pcieLinkReset (e : LinkEvent) : Advances (.pcieLinkReset e)
  | fabRefclkLoss : Advances .fabRefclkLoss
  | unlock (token : List Byte) : Advances (.unlock token)
  | processorRestartDone (p : Proc) : Advances (.processorRestartDone p)

/-- The commands at which a module reset takes place (R8, R429, R430, R446). -/
inductive Resets : Instr → Prop
  | pwrGood : Resets .pwrGood
  | perstDeassert : Resets .perstDeassert
  | hotSwapOff (cause : OffCause) : Resets (.hotSwapOff cause)

/-- Every command keeps what `Keeps` names, or is one of the others. -/
theorem exec_keeps_or (s : State) : ∀ c : Instr, KeepsD s (exec c s) ∨ Advances c ∨ Resets c
  | .zcpHello c => .inl (.of_execZcpHello c s)
  | .modPresent c => .inr (.inl (.modPresent c))
  | .quench c => .inl (.of_execQuench c s)
  | .disable c => .inl (.of_execDisable c s)
  | .enable c => .inl (.of_execEnable c s)
  | .drain c => .inl (.of_execDrain c s)
  | .drainRelease c => .inl (.of_execDrainRelease c s)
  | .timeProbe c => .inl (.of_execTimeProbe c s)
  | .tblCreate c => .inl (.of_execTblCreate c s)
  | .tblCreateDone f table => .inl (.of_execTblCreateDone f table s)
  | .tblWriteRows c => .inl (.of_execTblWriteRows c s)
  | .tblReplaceRows c => .inl (.of_execTblReplaceRows c s)
  | .tblMigrate c => .inl (.of_execTblMigrate c s)
  | .tblMigrateDone f table => .inl (.of_execTblMigrateDone f table s)
  | .graphLoad c => .inl (.of_execGraphLoad c s)
  | .graphLoadDone f slot => .inl (.of_execGraphLoadDone f slot s)
  | .skkConfig c => .inl (.of_execSkkConfig c s)
  | .planLoad c => .inl (.of_execPlanLoad c s)
  | .stepRun c => .inl (.of_execStepRun c s)
  | .ftblLoad c => .inl (.of_execFtblLoad c s)
  | .collGroup c => .inl (.of_execCollGroup c s)
  | .collEvict c => .inl (.of_execCollEvict c s)
  | .updProgram c => .inl (.of_execUpdProgram c s)
  | .updStepSize c => .inl (.of_execUpdStepSize c s)
  | .updFreeze c => .inl (.of_execUpdFreeze c s)
  | .pwrCap c => .inl (.of_execPwrCap c s)
  | .pwrMode c => .inl (.of_execPwrMode c s)
  | .fltQuery c => .inl (.of_execFltQuery c s)
  | .cntRead c => .inl (.of_execCntRead c s)
  | .cntClear c => .inl (.of_execCntClear c s)
  | .axlReplan c => .inl (.of_execAxlReplan c s)
  | .secAttest c => .inl (.of_execSecAttest c s)
  | .fwStage c => .inl (.of_execFwStage c s)
  | .fwStageDone kind => .inl (.of_execFwStageDone kind s)
  | .fwActivate c => .inr (.inl (.fwActivate c))
  | .fwActivateProceed => .inr (.inl .fwActivateProceed)
  | .deferredTimeout => .inl (.of_execDeferredTimeout s)
  | .fwActivateDone => .inr (.inl .fwActivateDone)
  | .activationRevert => .inr (.inl .activationRevert)
  | .disableDone f => .inl (.of_execDisableDone f s)
  | .drainDone f => .inl (.of_execDrainDone f s)
  | .quenchDone f => .inl (.of_execQuenchDone f s)
  | .stepTaggedRelease f => .inl (.of_execStepTaggedRelease f s)
  | .zcpSqtail f q value => .inl (.of_execZcpSqtail f q value s)
  | .zcpCqhead f q value => .inl (.of_execZcpCqhead f q value s)
  | .queueEnable f value => .inl (.of_execQueueEnable f value s)
  | .queueDisable f value => .inl (.of_execQueueDisable f value s)
  | .commandFetch f q slot => .inl (.of_execCommandFetch f q slot s)
  | .completionWrite f q => .inl (.of_execCompletionWrite f q s)
  | .registerWrite f offset size value => .inl (.of_execRegisterWrite f offset size value s)
  | .bar2Access f offset write r data => .inl (.of_execBar2Access f offset write r data s)
  | .gkoFlush f die => .inl (.of_execGkoFlush f die s)
  | .mxeSelftest core => .inl (.of_execMxeSelftest core s)
  | .chnPrepass f => .inl (.of_execChnPrepass f s)
  | .memIlvcfgPending f die value => .inl (.of_execMemIlvcfgPending f die value s)
  | .modCompatWrite f value => .inl (.of_execModCompatWrite f value s)
  | .axlModeWrite f die value => .inl (.of_execAxlModeWrite f die value s)
  | .portEnable port => .inl (.of_execPortEnable port s)
  | .portDisable port => .inl (.of_execPortDisable port s)
  | .retrain port => .inl (.of_execRetrain port s)
  | .fabPortEpWrite f value => .inl (.of_execFabPortEpWrite f value s)
  | .cntNotecfgWrite f value => .inl (.of_execCntNotecfgWrite f value s)
  | .jrnSelWrite value => .inl (.of_execJrnSelWrite value s)
  | .memHostresWrite f die value => .inl (.of_execMemHostresWrite f die value s)
  | .memGrantctlWrite f value => .inl (.of_execMemGrantctlWrite f value s)
  | .cntValrcRead f => .inl (.of_execCntValrcRead f s)
  | .vecRngstatRead core => .inl (.of_execVecRngstatRead core s)
  | .softStart => .inr (.inl .softStart)
  | .pwrGood => .inr (.inr .pwrGood)
  | .hotSwapOff cause => .inr (.inr (.hotSwapOff cause))
  | .perstAssert => .inr (.inl .perstAssert)
  | .perstDeassert => .inr (.inr .perstDeassert)
  | .romBoot => .inr (.inl .romBoot)
  | .overlayVerify => .inr (.inl .overlayVerify)
  | .diePowerUp => .inr (.inl .diePowerUp)
  | .pcieLinkUp => .inr (.inl .pcieLinkUp)
  | .memoryInit => .inr (.inl .memoryInit)
  | .zcpReady t => .inr (.inl (.zcpReady t))
  | .fullSelftestDone => .inr (.inl .fullSelftestDone)
  | .pcieLinkReset e => .inr (.inl (.pcieLinkReset e))
  | .functionLevelReset f => .inl (.of_execFunctionLevelReset f s)
  | .configRequest r => .inl (.of_execConfigRequest r s)
  | .fabRefclkLoss => .inr (.inl .fabRefclkLoss)
  | .entdaa address => .inl (.of_execEntdaa address s)
  | .setEndpointId eid => .inl (.of_execSetEndpointId eid s)
  | .getEndpointId => .inl (.of_execGetEndpointId s)
  | .getMctpVersionSupport => .inl (.of_execGetMctpVersionSupport s)
  | .getMessageTypeSupport => .inl (.of_execGetMessageTypeSupport s)
  | .sidebandSubmission f slot => .inl (.of_execSidebandSubmission f slot s)
  | .sidebandWindowWrite f offset data => .inl (.of_execSidebandWindowWrite f offset data s)
  | .sidebandWindowRead f offset len => .inl (.of_execSidebandWindowRead f offset len s)
  | .sidebandRegRead f offset => .inl (.of_execSidebandRegRead f offset s)
  | .sidebandRegWrite f offset value => .inl (.of_execSidebandRegWrite f offset value s)
  | .extest pins => .inl (.of_execExtest pins s)
  | .idcode => .inl (.of_execIdcode s)
  | .samplePreload pins => .inl (.of_execSamplePreload pins s)
  | .extestPulse pins => .inl (.of_execExtestPulse pins s)
  | .extestTrain pins => .inl (.of_execExtestTrain pins s)
  | .clamp => .inl (.of_execClamp s)
  | .highz => .inl (.of_execHighz s)
  | .challenge => .inl (.of_execChallenge s)
  | .unlock token => .inr (.inl (.unlock token))
  | .dbgStatus => .inl (.of_execDbgStatus s)
  | .procSel value => .inl (.of_execProcSel value s)
  | .procHalt => .inl (.of_execProcHalt s)
  | .procRun => .inl (.of_execProcRun s)
  | .procStep => .inl (.of_execProcStep s)
  | .procReg number write data => .inl (.of_execProcReg number write data s)
  | .memAddr address => .inl (.of_execMemAddr address s)
  | .memData write data => .inl (.of_execMemData write data s)
  | .regAccess offset write data => .inl (.of_execRegAccess offset write data s)
  | .scanSel value => .inl (.of_execScanSel value s)
  | .scanShift bits => .inl (.of_execScanShift bits s)
  | .scanLen => .inl (.of_execScanLen s)
  | .bypass bit => .inl (.of_execBypass bit s)
  | .tapReset => .inl (.of_execTapReset s)
  | .flitTransmit port => .inl (.of_execFlitTransmit port s)
  | .flitReceive port flit => .inl (.of_execFlitReceive port flit s)
  | .retry port seq => .inl (.of_execRetry port seq s)
  | .retryLimit port => .inl (.of_execRetryLimit port s)
  | .linkTrainDone port p => .inl (.of_execLinkTrainDone port p s)
  | .linkTrainTimeout port => .inl (.of_execLinkTrainTimeout port s)
  | .deliveryAck f src seq => .inl (.of_execDeliveryAck f src seq s)
  | .e2eRetransmit f dest seq => .inl (.of_execE2eRetransmit f dest seq s)
  | .peerMemRequest f m => .inl (.of_execPeerMemRequest f m s)
  | .peerMemResponse f aperture data => .inl (.of_execPeerMemResponse f aperture data s)
  | .peerAccessTimeout f aperture => .inl (.of_execPeerAccessTimeout f aperture s)
  | .memGrantRequest f peer gib => .inl (.of_execMemGrantRequest f peer gib s)
  | .memGrantReply f peer gib => .inl (.of_execMemGrantReply f peer gib s)
  | .chorusContribution f m => .inl (.of_execChorusContribution f m s)
  | .segmentContribution f m => .inl (.of_execSegmentContribution f m s)
  | .ack f m => .inl (.of_execAck f m s)
  | .sent f m => .inl (.of_execSent f m s)
  | .chorusWindowExpire f => .inl (.of_execChorusWindowExpire f s)
  | .mask f m => .inl (.of_execMask f m s)
  | .chorusOwnerAddDone f shard sumFail again a => .inl (.of_execChorusOwnerAddDone f shard sumFail again a s)
  | .chorusResult f m => .inl (.of_execChorusResult f m s)
  | .rereq f m => .inl (.of_execRereq f m s)
  | .evict f m => .inl (.of_execEvict f m s)
  | .chorusOrphanTimeout f rank => .inl (.of_execChorusOrphanTimeout f rank s)
  | .rowRequest f q => .inl (.of_execRowRequest f q s)
  | .poolRequest f q => .inl (.of_execPoolRequest f q s)
  | .rowReply f m => .inl (.of_execRowReply f m s)
  | .partialReply f m => .inl (.of_execPartialReply f m s)
  | .gradient f m => .inl (.of_execGradient f m s)
  | .endMark f m => .inl (.of_execEndMark f m s)
  | .resend f m => .inl (.of_execResend f m s)
  | .geckoHalve die => .inl (.of_execGeckoHalve die s)
  | .move f m => .inl (.of_execMove f m s)
  | .reserve f m => .inl (.of_execReserve f m s)
  | .reserveAck f m => .inl (.of_execReserveAck f m s)
  | .copy f m => .inl (.of_execCopy f m s)
  | .migrationRoundEnd f table row => .inl (.of_execMigrationRoundEnd f table row s)
  | .finalCopy f m => .inl (.of_execFinalCopy f m s)
  | .fwdWrite f m => .inl (.of_execFwdWrite f m s)
  | .locUpdate f m => .inl (.of_execLocUpdate f m s)
  | .fwdEnd f m => .inl (.of_execFwdEnd f m s)
  | .fwdFetch f m => .inl (.of_execFwdFetch f m s)
  | .fwdReply f m => .inl (.of_execFwdReply f m s)
  | .fwdGrad f m => .inl (.of_execFwdGrad f m s)
  | .phaseComplete f ahead => .inl (.of_execPhaseComplete f ahead s)
  | .staggerStart die cluster => .inl (.of_execStaggerStart die cluster s)
  | .descriptorComplete f ahead index r => .inl (.of_execDescriptorComplete f ahead index r s)
  | .stepComplete f => .inl (.of_execStepComplete f s)
  | .stepSizeWaitExpire f => .inl (.of_execStepSizeWaitExpire f s)
  | .tileStart core => .inl (.of_execTileStart core s)
  | .stationaryFillDone core => .inl (.of_execStationaryFillDone core s)
  | .tileCommit core r => .inl (.of_execTileCommit core r s)
  | .columnSelftestDone core failing => .inl (.of_execColumnSelftestDone core failing s)
  | .sparseTileCommit core r => .inl (.of_execSparseTileCommit core r s)
  | .skinkSliceDone die cluster parity => .inl (.of_execSkinkSliceDone die cluster parity s)
  | .progressMonitorFire u => .inl (.of_execProgressMonitorFire u s)
  | .clockMonitorFire sc => .inl (.of_execClockMonitorFire sc s)
  | .regulatorMonitorFire die => .inl (.of_execRegulatorMonitorFire die s)
  | .replanDone => .inl (.of_execReplanDone s)
  | .watchdogFire p => .inl (.of_execWatchdogFire p s)
  | .processorRestartDone p => .inr (.inl (.processorRestartDone p))
  | .backgroundSelftest r pass columns => .inl (.of_execBackgroundSelftest r pass columns s)
  | .patrolScrub address o => .inl (.of_execPatrolScrub address o s)
  | .twinRebuildDone die => .inl (.of_execTwinRebuildDone die s)
  | .axlSample die slack => .inl (.of_execAxlSample die slack s)
  | .axolotlPlan die marginal => .inl (.of_execAxolotlPlan die marginal s)
  | .sensorWindow die w => .inl (.of_execSensorWindow die w s)
  | .capLoopPeriod inputW => .inl (.of_execCapLoopPeriod inputW s)
  | .inputCurrentLimit dies => .inl (.of_execInputCurrentLimit dies s)
  | .overcapTimeout => .inl (.of_execOvercapTimeout s)
  | .thermalClamp die logic vaults => .inl (.of_execThermalClamp die logic vaults s)
  | .clampRelease die => .inl (.of_execClampRelease die s)
  | .thermalTrip die => .inl (.of_execThermalTrip die s)
  | .emergencyEnd die => .inl (.of_execEmergencyEnd die s)
  | .droopDetect die cluster => .inl (.of_execDroopDetect die cluster s)
  | .droopEnd die cluster cycles => .inl (.of_execDroopEnd die cluster cycles s)
  | .phLow die => .inl (.of_execPhLow die s)
  | .reedwayZcpCommand f endpoint port slot => .inl (.of_execReedwayZcpCommand f endpoint port slot s)
  | .routedRowWrite f m => .inl (.of_execRoutedRowWrite f m s)
  | .linkPartnerTraining port => .inl (.of_execLinkPartnerTraining port s)
  | .operandStoreFillDone core => .inl (.of_execOperandStoreFillDone core s)

theorem Advances.stays {c : Instr} (h : Advances c) (s : State) : StaysD s (exec c s) :=
  match h with
  | .modPresent c => .of_execModPresent c s
  | .fwActivate c => .of_execFwActivate c s
  | .fwActivateProceed => .of_execFwActivateProceed s
  | .fwActivateDone => .of_execFwActivateDone s
  | .activationRevert => .of_execActivationRevert s
  | .softStart => .of_execSoftStart s
  | .perstAssert => .of_execPerstAssert s
  | .romBoot => .of_execRomBoot s
  | .overlayVerify => .of_execOverlayVerify s
  | .diePowerUp => .of_execDiePowerUp s
  | .pcieLinkUp => .of_execPcieLinkUp s
  | .memoryInit => .of_execMemoryInit s
  | .zcpReady t => .of_execZcpReady t s
  | .fullSelftestDone => .of_execFullSelftestDone s
  | .pcieLinkReset e => .of_execPcieLinkReset e s
  | .fabRefclkLoss => .of_execFabRefclkLoss s
  | .unlock token => .of_execUnlock token s
  | .processorRestartDone p => .of_execProcessorRestartDone p s

theorem Resets.rests {c : Instr} (h : Resets c) (s : State) : RestsD s (exec c s) :=
  match h with
  | .pwrGood => .of_execPwrGood s
  | .perstDeassert => .of_execPerstDeassert s
  | .hotSwapOff cause => .of_execHotSwapOff cause s

/-- Outside a module reset. -/
theorem exec_stays {c : Instr} (h : ¬ Resets c) (s : State) : StaysD s (exec c s) := by
  obtain keeps | advances | resets := exec_keeps_or s c
  · exact keeps.stays
  · exact advances.stays s
  · exact absurd resets h

theorem exec_rests (c : Instr) (s : State) : RestsD s (exec c s) := by
  by_cases h : Resets c
  · exact h.rests s
  · exact (exec_stays h s).rests

/-! ## The invariant (R13, R14, R18, R23, R305, R443) -/

/-- The command queue is not part of the invariant. -/
theorem State.Inv.pending {s : State} (h : s.Inv) (rest : List Instr) : { s with pending := rest }.Inv := h

theorem RestsD.inv {s t : State} {o : Done} (h : RestsD s o) (e : o = .next t) (hs : s.Inv) : t.Inv := by
  obtain ⟨u, rfl, rests⟩ := h
  cases e
  exact rests.inv hs

/-- Settles O4: a step is a count of time or a command on the state with the rest of the queue, and each keeps the invariant. -/
theorem stepKeepsInvariant : Obligations.StepKeepsInvariant := by
  intro s t inv e
  unfold step at e
  split at e
  next =>
    cases e
    exact tick_inv inv
  next c rest _ => exact (exec_rests c _).inv e (inv.pending rest)

/-- Settles O5: the state after reset is the module at t0 with a record as it ships. -/
theorem resetMeetsInvariant : Obligations.ResetMeetsInvariant := State.atReset_inv _ _ _ _


/-! ## Between two module resets (R20, R29, R31, R343, R356) -/

theorem StaysD.stays {s t : State} {o : Done} (h : StaysD s o) (e : o = .next t) : Stays s t := by
  obtain ⟨u, rfl, stays⟩ := h
  cases e
  exact stays

theorem not_resets {c : Instr} (h : c ≠ .pwrGood ∧ c ≠ .perstDeassert ∧ ∀ w, c ≠ .hotSwapOff w) : ¬ Resets c := by
  obtain ⟨good, deassert, off⟩ := h
  rintro (_ | _ | cause)
  · exact good rfl
  · exact deassert rfl
  · exact off cause rfl

/-- Settles O8: outside a module reset a lost die stays lost and a core out of service keeps its state. -/
theorem removedStaysRemoved : Obligations.RemovedStaysRemoved := by
  intro c s t e h
  have stays := (exec_stays (not_resets h) s).stays e
  exact ⟨stays.lost, stays.core⟩

/-! ## The presentation to come (R29, R31) -/

/-- A command's answer has the presentation to come of `s`. -/
def PresentD (s : State) (o : Done) : Prop := ∃ t, o = .next t ∧ t.cfg.present = s.cfg.present

theorem PresentD.next {s t : State} (h : t.cfg.present = s.cfg.present) : PresentD s (.next t) := ⟨t, rfl, h⟩

theorem KeepsD.present {s : State} {o : Done} (h : KeepsD s o) : PresentD s o := by
  obtain ⟨t, e, keeps⟩ := h
  exact ⟨t, e, keeps.present⟩

theorem foldl_present {α : Type} {g : State → α → State} (hg : ∀ u x, (g u x).cfg.present = u.cfg.present) (l : List α) (s : State) :
    (l.foldl g s).cfg.present = s.cfg.present :=
  List.foldlRecOn (motive := fun u => u.cfg.present = s.cfg.present) l g rfl fun u h x _ => (hg u x).trans h

/-- What the frame of a ZCP command answers: the command waits or is refused, which keeps everything, or its effect `k` runs on a state
that has kept everything. -/
def Framed (s : State) (k : Submission → State → State) (t : State) : Prop := Keeps s t ∨ ∃ d u, Keeps s u ∧ t = k d u

theorem Framed.start {s u : State} (k : Submission → State → State) (d : Submission) (h : Keeps s u) : Framed s k (u.start d (k d)) :=
  .inr ⟨d, _, Keeps.ite (h.cntMod _ _ _) h, rfl⟩

theorem Framed.ite {p : Prop} [Decidable p] {s a b : State} {k : Submission → State → State} (ha : Framed s k a) (hb : Framed s k b) :
    Framed s k (if p then a else b) := by
  split <;> assumption

theorem State.zcp_framed (s : State) (op : Nat) (c : Submission) (k : Submission → State → State) : Framed s k (s.zcp op c k) := by
  have h := Keeps.refl s
  have stands : Framed s k s := .inl h
  unfold State.zcp
  extract_lets d g
  clear_value d
  have refused (u : State) (st : Nat) (detail : List Byte) (hu : Keeps s u) :
      Framed s k ((u.violHdr d.func).single d st detail) := .inl ((hu.violHdr _).single _ _ _ _ _)
  refine .ite stands (.ite (.ite ?fetched stands) (.ite (.ite stands (.start k d (h.modFunc _ _))) (.ite stands ?direct)))
  case fetched =>
    split
    · exact refused _ _ _ (h.modFunc _ _)
    · exact .ite (.inl ((h.modFunc _ _).modFunc _ _)) (.start k d (h.modFunc _ _))
  case direct =>
    split
    · exact refused _ _ _ (h.modFunc _ _)
    · refine .ite (.inl ((h.modFunc _ _).takeUp _)) ?_
      split
      · exact refused _ _ _ (h.modFunc _ _)
      · exact .start k d (h.modFunc _ _)

theorem State.zcp_present {s : State} {op : Nat} {c : Submission} {k : Submission → State → State}
    (hk : ∀ d u, (k d u).cfg.present = u.cfg.present) : (s.zcp op c k).cfg.present = s.cfg.present := by
  obtain keeps | ⟨d, u, keeps, e⟩ := s.zcp_framed op c k
  · exact keeps.present
  · rw [e, hk, keeps.present]

/-! ### Activation (R390 to R393) -/

theorem State.actWrite_present (s : State) (a : Activation) : (s.actWrite a).cfg.present = s.cfg.present := by
  unfold State.actWrite
  split
  · exact (((Keeps.refl s).actEnd a).actFinal _ _ _ _).present
  · exact ((Keeps.refl (s.modFw a.kind _)).actRestart _).present

theorem fwActivate'_present (c : Submission) (s : State) : (fwActivate' c s).cfg.present = s.cfg.present := by
  unfold fwActivate'
  extract_lets kind f t reason t1 t2 src
  have h : Keeps s t := (Keeps.refl s).interim _ _
  have final (st : Nat) (d : List Byte) : (t.final c st d).cfg.present = s.cfg.present := (h.final _ _ _ _ _).present
  have h2 : t2.cfg.present = s.cfg.present := h.present
  clear_value t t2
  split
  · exact final _ _
  split
  · exact final _ _
  split
  · exact final _ _
  split
  · exact final _ _
  extract_lets a
  split
  · have counted : Keeps t2 { t2.cntAll 25 with act := some a } := Keeps.upd ((Keeps.refl t2).cntAll 25 1) rfl rfl rfl
    exact (counted.interim _ _).present.trans h2
  · exact (t2.actWrite_present a).trans h2

theorem PresentD.of_execFwActivate (c : Submission) (s : State) : PresentD s (execFwActivate c s) :=
  PresentD.next (State.zcp_present fwActivate'_present)

theorem PresentD.of_execFwActivateProceed (s : State) : PresentD s (execFwActivateProceed s) := by
  unfold execFwActivateProceed
  split
  · split
    · exact PresentD.next (s.actWrite_present _)
    · exact PresentD.next rfl
  · exact PresentD.next rfl

theorem PresentD.of_execFwActivateDone (s : State) : PresentD s (execFwActivateDone s) := by
  unfold execFwActivateDone
  split
  next a _ =>
    split
    · exact PresentD.next rfl
    · extract_lets t1 src t2 t3
      have h1 : Keeps s t1 := (Keeps.refl s).actEnd a
      have h3 : t3.cfg.present = t1.cfg.present := ((Keeps.refl (t2.modFw a.kind _)).measureKind _ _).present
      clear_value t1 t3
      refine PresentD.next (Eq.trans ?_ (h3.trans h1.present))
      exact (((((Keeps.refl t3).journalCmd a.sub).measure _ _ _ _ _).cntAll _ _).actFinal a _ _ _).present
  next => exact PresentD.next rfl

theorem PresentD.of_execActivationRevert (s : State) : PresentD s (execActivationRevert s) := by
  unfold execActivationRevert
  extract_lets core
  split
  next a _ =>
    split
    · exact PresentD.next rfl
    · extract_lets t1 p t2
      exact PresentD.next ((Keeps.refl t2).revertNext _).present
  next => exact PresentD.next rfl

theorem State.actResume_present (s : State) (p : Proc) : (s.actResume p).cfg.present = s.cfg.present := by
  unfold State.actResume
  split
  next => rfl
  next a _ =>
    have restarts (b : Activation) : (s.actRestart b).cfg.present = s.cfg.present := ((Keeps.refl s).actRestart b).present
    have ends (st : Nat) : ((s.actEnd a).actFinal a st).cfg.present = s.cfg.present :=
      (((Keeps.refl s).actEnd a).actFinal a st _ _).present
    have reverts (b : Activation) : (s.revertNext b).cfg.present = s.cfg.present := ((Keeps.refl s).revertNext b).present
    dsimp only
    split
    · split
      · rfl
      · split
        · exact reverts _
        · exact restarts _
    · split
      · split
        · exact restarts _
        · split
          · exact ends _
          · exact s.actWrite_present a
      · rfl

theorem PresentD.of_execProcessorRestartDone (p : Proc) (s : State) : PresentD s (execProcessorRestartDone p s) := by
  unfold execProcessorRestartDone
  split
  · exact PresentD.next rfl
  · extract_lets v t
    exact PresentD.next (((Keeps.refl (t.actResume p)).resumeProc p).present.trans (t.actResume_present p))

/-! ### Unlock (R410) -/

theorem State.judgeToken_present (s : State) (token : List Byte) : (s.judgeToken token).cfg.present = s.cfg.present := by
  unfold State.judgeToken
  extract_lets ok u t1 v t2
  split
  · exact (((Keeps.refl t2).measure _ _ _ _ _).cntAll _ _).present
  · exact ((Keeps.refl t1).cntAll _ _).present

theorem PresentD.of_execUnlock (token : List Byte) (s : State) : PresentD s (execUnlock token s) := by
  unfold execUnlock State.jtagUp
  refine PresentD.next ?_
  split
  · dsimp -zeta only
    extract_lets v t
    have h : t.cfg.present = s.cfg.present :=
      ((Keeps.refl { s with sec := { s.sec with tokens := s.sec.tokens ++ [token] } }).actsBypass _).present
    clear_value t
    split
    · exact h
    · exact (foldl_present State.judgeToken_present _ _).trans h
  · rfl

/-! ### Start-up (R442 to R446) -/

theorem PresentD.of_execSoftStart (s : State) : PresentD s (execSoftStart s) := by
  unfold execSoftStart
  refine PresentD.next ?_
  split <;> rfl

theorem PresentD.of_execPerstAssert (s : State) : PresentD s (execPerstAssert s) := by
  unfold execPerstAssert
  split
  · exact PresentD.next rfl
  · split
    · exact PresentD.next rfl
    · obtain ⟨_, cfg, _⟩ := s.dropAll_spec
      exact PresentD.next (congrArg ConfigRecord.present cfg)

theorem PresentD.of_execRomBoot (s : State) : PresentD s (execRomBoot s) := by
  unfold execRomBoot
  split <;> exact PresentD.next rfl

theorem State.verifyKind_present (s : State) (k : Nat) : (s.verifyKind k).cfg.present = s.cfg.present := by
  unfold State.verifyKind
  split
  · rfl
  · split
    · rfl
    · extract_lets t
      have h : Keeps s t := Keeps.ite (Keeps.refl s).secDenied (Keeps.refl s)
      exact ((h.measureKind _ _).emit _ _ _ _ _).present

theorem PresentD.of_execOverlayVerify (s : State) : PresentD s (execOverlayVerify s) := by
  unfold execOverlayVerify
  split
  · exact PresentD.next rfl
  · have h : ((List.range 4).foldl (fun s k => s.verifyKind k) s).cfg.present = s.cfg.present :=
      foldl_present State.verifyKind_present _ s
    exact PresentD.next h

theorem PresentD.of_execDiePowerUp (s : State) : PresentD s (execDiePowerUp s) := by
  unfold execDiePowerUp
  split
  · exact PresentD.next rfl
  · extract_lets t1 t2
    have h1 : Keeps s t1 := Keeps.foldl (Keeps.refl s) fun _ _ k => k.modDie _ _ fun _ h => h
    have h2 : Keeps s t2 := Keeps.foldl h1 fun _ _ k => Keeps.ite (k.startTraining _) k
    clear_value t2
    exact PresentD.next h2.present

theorem PresentD.of_execPcieLinkUp (s : State) : PresentD s (execPcieLinkUp s) := by
  unfold execPcieLinkUp
  split <;> exact PresentD.next rfl

theorem PresentD.of_execMemoryInit (s : State) : PresentD s (execMemoryInit s) := by
  unfold execMemoryInit
  split <;> exact PresentD.next rfl

theorem PresentD.of_execZcpReady (x : SelfTest) (s : State) : PresentD s (execZcpReady x s) := by
  unfold execZcpReady
  split
  · exact PresentD.next rfl
  · extract_lets t1 t2 t3
    have h2 : Keeps t1 t2 := Keeps.foldl (Keeps.refl t1) fun _ _ k => Keeps.ite (k.loseSecurity _) k
    have h3 : t3.cfg.present = s.cfg.present := h2.present
    clear_value t3
    refine PresentD.next ?_
    split
    · exact (Keeps.foldl (Keeps.refl t3) fun _ _ k => k.put _).present.trans h3
    · exact h3

theorem PresentD.of_execFullSelftestDone (s : State) : PresentD s (execFullSelftestDone s) := by
  unfold execFullSelftestDone
  split
  · exact PresentD.next rfl
  · extract_lets t
    have h : Keeps s t := Keeps.foldl (Keeps.refl s) fun _ _ k => k.formPlan _
    exact PresentD.next h.present

/-! ### Links -/

theorem PresentD.of_execPcieLinkReset (e : LinkEvent) (s : State) : PresentD s (execPcieLinkReset e s) := by
  unfold execPcieLinkReset
  split
  · exact PresentD.next rfl
  · extract_lets t act
    have h : Keeps s t := Keeps.foldl (Keeps.refl s) fun _ _ k => k.modFunc _ _
    exact PresentD.next h.present

theorem PresentD.of_execFabRefclkLoss (s : State) : PresentD s (execFabRefclkLoss s) := by
  unfold execFabRefclkLoss
  extract_lets on src t
  exact PresentD.next (Keeps.foldl (Keeps.refl t) fun _ _ k => k.portDown _).present

/-! ### Module reset (R31, R443) -/

theorem PresentD.of_execPwrGood (s : State) : PresentD s (execPwrGood s) := by
  unfold execPwrGood
  split <;> exact PresentD.next rfl

theorem PresentD.of_execPerstDeassert (s : State) : PresentD s (execPerstDeassert s) := by
  unfold execPerstDeassert
  split
  · exact PresentD.next rfl
  · extract_lets src t
    split <;> exact PresentD.next rfl

theorem PresentD.of_execHotSwapOff (cause : OffCause) (s : State) : PresentD s (execHotSwapOff cause s) := by
  unfold execHotSwapOff
  extract_lets on b b' t1 src t2
  split
  · refine PresentD.next ?_
    split <;> rfl
  · refine PresentD.next ?_
    split <;> rfl

/-! ### Every command -/

theorem Advances.present {c : Instr} (h : Advances c) (hc : ∀ x, c ≠ .modPresent x) (s : State) : PresentD s (exec c s) :=
  match h with
  | .modPresent c => absurd rfl (hc c)
  | .fwActivate c => .of_execFwActivate c s
  | .fwActivateProceed => .of_execFwActivateProceed s
  | .fwActivateDone => .of_execFwActivateDone s
  | .activationRevert => .of_execActivationRevert s
  | .softStart => .of_execSoftStart s
  | .perstAssert => .of_execPerstAssert s
  | .romBoot => .of_execRomBoot s
  | .overlayVerify => .of_execOverlayVerify s
  | .diePowerUp => .of_execDiePowerUp s
  | .pcieLinkUp => .of_execPcieLinkUp s
  | .memoryInit => .of_execMemoryInit s
  | .zcpReady t => .of_execZcpReady t s
  | .fullSelftestDone => .of_execFullSelftestDone s
  | .pcieLinkReset e => .of_execPcieLinkReset e s
  | .fabRefclkLoss => .of_execFabRefclkLoss s
  | .unlock token => .of_execUnlock token s
  | .processorRestartDone p => .of_execProcessorRestartDone p s

theorem Resets.present {c : Instr} (h : Resets c) (s : State) : PresentD s (exec c s) :=
  match h with
  | .pwrGood => .of_execPwrGood s
  | .perstDeassert => .of_execPerstDeassert s
  | .hotSwapOff cause => .of_execHotSwapOff cause s

theorem exec_present {c : Instr} (hc : ∀ x, c ≠ .modPresent x) (s : State) : PresentD s (exec c s) := by
  obtain keeps | advances | resets := exec_keeps_or s c
  · exact keeps.present
  · exact advances.present hc s
  · exact resets.present s

/-- Settles O7: what is in force stands between two resets, and each command but MOD_PRESENT keeps the presentation to come. -/
theorem presentationStandsUntilReset : Obligations.PresentationStandsUntilReset := by
  refine ⟨fun c s t e h => ?_, fun c s t e hc => ?_⟩
  · have stays := (exec_stays (not_resets h) s).stays e
    exact ⟨stays.quad, stays.zcpPin, stays.rwPin⟩
  · obtain ⟨u, eu, present⟩ := exec_present hc s
    cases e.symm.trans eu
    exact present

end Sys2Proof.Machine
end

section
/-!
PROOFS. What counting, recording and sending change, and with it the commands of the module (O12).
-/
namespace Sys2Proof.Machine

/-! ## Counting, recording and sending -/

/-- `s` with the fields of `t` that counters, records and messages write. -/
def State.withReports (s t : State) : State :=
  { s with
    mem := t.mem
    badLines := t.badLines
    funcs := t.funcs
    dies := t.dies
    ports := t.ports
    side := t.side
    noteSeq := t.noteSeq
    out := t.out }

/-- `t` is `s` with what counters, records and messages change: memory, the functions, the dies, the ports short of their states, and
what is put out. -/
structure Reports (s t : State) : Prop where
  rest : t = s.withReports t
  states : t.ports.map Port.state = s.ports.map Port.state

/-- A change of one element that leaves what `k` reads of it. -/
theorem modNth_map {α β : Type} (k : α → β) {g : α → α} (hg : ∀ x, k (g x) = k x) (i : Nat) (l : List α) :
    (modNth g i l).map k = l.map k := by
  induction l generalizing i with
  | nil => cases i <;> rfl
  | cons x l ih =>
    cases i with
    | zero => simp [modNth, hg]
    | succ i => simp [modNth, ih]

theorem Reports.refl (s : State) : Reports s s := ⟨rfl, rfl⟩

theorem Reports.trans {s t u : State} (h : Reports s t) (k : Reports t u) : Reports s u where
  rest := k.rest.trans (congrArg (fun x => x.withReports u) h.rest)
  states := k.states.trans h.states

/-- What stands of the record, the presentation in force, the units and the start-up state. -/
theorem Reports.serves {s t : State} (h : Reports s t) :
    t.cfg = s.cfg ∧ t.quad = s.quad ∧ t.cores = s.cores ∧ t.clusters = s.clusters ∧ t.fw = s.fw ∧ t.boot = s.boot := by
  rw [h.rest]
  exact ⟨rfl, rfl, rfl, rfl, rfl, rfl⟩

theorem Reports.portState {s t : State} (h : Reports s t) (p : Nat) : (t.port p).state = (s.port p).state := by
  unfold State.port
  rw [← List.getD_map (f := Port.state), h.states, List.getD_map]

theorem Reports.fst {β : Type} {s t : State} {p : State × β} {q : β} (e : p = (t, q)) (h : Reports s p.1) : Reports s t := by
  subst e
  exact h

theorem Reports.ite {c : Prop} [Decidable c] {s a b : State} (h : Reports s a) (k : Reports s b) : Reports s (if c then a else b) := by
  split <;> assumption

theorem Reports.foldl {α : Type} {s t : State} {g : State → α → State} (l : List α) (h : Reports s t)
    (hg : ∀ u x, Reports u (g u x)) : Reports s (l.foldl g t) :=
  List.foldlRecOn (motive := Reports s) l g h fun u k x _ => k.trans (hg u x)

section
variable {s t : State} (h : Reports s t)
include h

theorem Reports.modFunc (f : Nat) (g : Func → Func) : Reports s (t.modFunc f g) := h.trans ⟨rfl, rfl⟩
theorem Reports.modDie (d : Nat) (g : Die → Die) : Reports s (t.modDie d g) := h.trans ⟨rfl, rfl⟩
theorem Reports.put (o : Output) : Reports s (t.put o) := h.trans ⟨rfl, rfl⟩
theorem Reports.setSide (x : Sideband) : Reports s { t with side := x } := h.trans ⟨rfl, rfl⟩
theorem Reports.put' (k : Nat) (bs : List Byte) : Reports s (t.put' k bs) := h.trans ⟨rfl, rfl⟩

theorem Reports.interrupt (f v : Nat) : Reports s (t.interrupt f v) := (h.put _).ite h

theorem Reports.peerAccess (k : Nat) (write : Bool) (len : Nat) (data old : List Byte) (table row : Nat) :
    Reports s (t.peerAccess k write len data old table row) := by
  unfold State.peerAccess
  split
  · exact h
  · split
    · exact h
    · exact h.modFunc _ _

theorem Reports.poke (k : Nat) (bs : List Byte) : Reports s (t.poke k bs) :=
  (h.put' k bs).ite ((h.peerAccess _ _ _ _ _ _ _).put' k bs)

theorem Reports.store (k : Nat) (bs : List Byte) : Reports s (t.store k bs) :=
  Reports.foldl _ (h.poke k bs) fun u _ => (Reports.refl u).ite ((Reports.refl u).poke _ _)

theorem Reports.devWrite (f x : Nat) (bs : List Byte) : Reports s (t.devWrite f x bs) := by
  unfold State.devWrite
  split
  · exact h.store _ _
  · exact h

theorem Reports.ringWrite (f : Nat) (n : Note) : Reports s (t.ringWrite f n) := by
  have written := (h.devWrite f ((t.func f).note.base + 32 * ((t.func f).note.written % 4096)) n.bytes).modFunc f
    fun g => { g with note := { g.note with written := (g.note.written + 1) % 2 ^ 32 } }
  unfold State.ringWrite
  dsimp only
  exact (((written.setSide _).put _).interrupt _ _).ite ((written.setSide _).put _)

theorem Reports.giveNote (f : Nat) (n : Note) : Reports s (t.giveNote f n).1 := by
  unfold State.giveNote
  split
  · exact h.ringWrite f n
  · exact h.modFunc f _

theorem Reports.stamp (src : Nat) : Reports s (t.stamp src).1 := by
  unfold State.stamp
  split
  · exact h.modDie src _
  · exact h.trans ⟨rfl, rfl⟩

theorem Reports.emitTo (fs : List Nat) (src kind inst a0 a1 : Nat) : Reports s (t.emitTo fs src kind inst a0 a1) := by
  unfold State.emitTo
  split
  next stamped q c e =>
    refine Reports.foldl _ (.fst e (h.stamp src)) fun u f => ?_
    split
    next given lost e =>
      have counted (g : Func → Func) : Reports u (given.modFunc f g) := .modFunc (.fst e ((Reports.refl u).giveNote f _)) f g
      exact (((counted _).stamp 15).giveNote f _).ite (counted _)

theorem Reports.count (f src i n : Nat) : Reports s (t.count f src i n) :=
  ((h.modFunc f _).emitTo _ _ _ _ _ _).ite (h.modFunc f _)

theorem Reports.cntMod (f k n : Nat) : Reports s (t.cntMod f k n) := h.count _ _ _ _

theorem Reports.cntPort (p k n : Nat) : Reports s (t.cntPort p k n) := h.count _ _ _ _

theorem Reports.fault (d mech scope inst resp : Nat) : Reports s (t.fault d mech scope inst resp).1 := h.modDie d _

/-- A change of a port that leaves its state. -/
theorem Reports.modPort (p : Nat) (g : Port → Port) (hg : ∀ x, (g x).state = x.state) : Reports s (t.modPort p g) :=
  h.trans ⟨rfl, modNth_map Port.state hg p t.ports⟩

theorem Reports.queueOut (m : Sent) (bytes : List Byte) : Reports s (t.queueOut m bytes).1 := by
  unfold State.queueOut
  dsimp only
  split
  · exact h.modPort _ _ fun _ => rfl
  · exact h

theorem Reports.send (f sdie dest ddie : Nat) (msg : WireMsg) : Reports s (t.send f sdie dest ddie msg) := by
  unfold State.send
  dsimp only
  split
  · exact h
  · split
    · refine Reports.ite ?listed (Reports.modFunc ?listed _ _)
      exact ((h.modFunc f _).modFunc f _).ite (h.modFunc f _)
    · exact ((h.modFunc f _).queueOut _ _).modFunc f _

theorem Reports.deliver (f : Nat) (c : Completion) : Reports s (t.deliver f c) := by
  unfold State.deliver
  split
  · dsimp only
    split
    · exact h
    · exact ((h.modFunc f _).cntMod _ _ _).ite (h.modFunc f _)
  · exact h.send _ _ _ _ _
  · exact h.put _
  · exact h

theorem Reports.answer (c : Submission) (status : Nat) (detail result : List Byte) (jrn : Nat) (suppressible : Bool) :
    Reports s (t.answer c status detail result jrn suppressible) := h.ite (h.deliver _ _)

theorem Reports.single (c : Submission) (status : Nat) (detail result : List Byte) (jrn : Nat) :
    Reports s (t.single c status detail result jrn) := h.answer _ _ _ _ _ _

end

/-- The effect of a command begins in a state from which it has left its list and which has counted it. -/
theorem State.begun_reports (s : State) (op : Nat) (c : Submission) : Reports s (s.begun op c) := by
  have h := Reports.refl s
  have counted (u : State) (hu : Reports s u) : Reports s (if urgent (s.sent op c) then u.cntMod (s.sent op c).func 20 else u) :=
    (hu.cntMod _ _ _).ite hu
  exact counted _ ((h.modFunc _ _).ite ((h.modFunc _ _).ite (h.modFunc _ _)))


/-! ## The commands of the module (R29 to R32, R372, R455) -/

section
variable {s : State} {c : Submission}

theorem exec_zcpHello (h : s.starts 0x0001 c = true) : exec (.zcpHello c) s = .next (hello (s.sent 0x0001 c) (s.begun 0x0001 c)) :=
  congrArg Host.Outcome.next (State.zcp_starts h hello)

theorem exec_modPresent (h : s.starts 0x0002 c = true) :
    exec (.modPresent c) s = .next (modPresent' (s.sent 0x0002 c) (s.begun 0x0002 c)) :=
  congrArg Host.Outcome.next (State.zcp_starts h modPresent')

theorem exec_timeProbe (h : s.starts 0x0013 c = true) :
    exec (.timeProbe c) s = .next (timeProbe' (s.sent 0x0013 c) (s.begun 0x0013 c)) :=
  congrArg Host.Outcome.next (State.zcp_starts h timeProbe')

end

/-- MOD_PRESENT with a presentation that there is: a change is journalled and measured, and the answer is OK. -/
theorem modPresent'_eq {c : Submission} (u : State) (h : hb c 24 1 ≤ 1) :
    let w := { u with cfg := { u.cfg with present := hb c 24 1 } }
    let j := w.journalCmd c
    let detail := leBytes 1 (b2n u.quad) ++ leBytes 1 (hb c 24 1)
    modPresent' c u = if u.cfg.present = hb c 24 1 then w.single c stOk detail
      else (j.1.measureConfig (srcCode c.src) j.2 (submissionImage c)).single c stOk detail [] j.2 :=
  if_neg (Nat.not_lt.2 h)

/-- MOD_PRESENT writes the presentation to come, and besides it the journal, the measurements and what the completion changes. -/
theorem modPresent'_changes (c : Submission) (u : State) (h : hb c 24 1 ≤ 1) :
    ∃ v, Recorded { u with cfg := { u.cfg with present := hb c 24 1 } } v ∧ Reports v (modPresent' c u) := by
  rw [modPresent'_eq u h]
  dsimp only
  split
  · exact ⟨_, Recorded.refl _, (Reports.refl _).single _ _ _ _ _⟩
  · exact ⟨_, ((Recorded.refl _).journalize _ _ _ _).measureConfig _ _ _, (Reports.refl _).single _ _ _ _ _⟩

/-- Settles O12: each command starts, and its effect on the state in which it begins is what the statement writes out. -/
theorem moduleCommandsTakeEffect : Obligations.ModuleCommandsTakeEffect := by
  refine ⟨fun s c h => exec_zcpHello h, fun s c h hv => ?_, fun s c h => exec_timeProbe h⟩
  intro d u w j detail
  have e : exec (.modPresent c) s = .next (modPresent' d u) := exec_modPresent h
  refine ⟨by rw [e, modPresent'_eq u hv], _, e, ?_⟩
  obtain ⟨cfg, quad, cores, clusters, fw, boot⟩ := (s.begun_reports 0x0002 c).serves
  obtain ⟨v, ⟨jrn, meas, events, rfl⟩, answered⟩ := modPresent'_changes d u hv
  obtain ⟨cfg', quad', cores', clusters', fw', boot'⟩ := answered.serves
  exact ⟨cfg'.trans (congrArg (fun x : ConfigRecord => { x with present := hb d 24 1 }) cfg), quad'.trans quad, cores'.trans cores,
    clusters'.trans clusters, fw'.trans fw, boot'.trans boot⟩

end Sys2Proof.Machine
end

section
/-!
PROOFS. Link reset, Function Level Reset, configuration requests and the loss of FAB_REFCLK (O38).
-/
namespace Sys2Proof.Machine

/-! ## Link reset and Function Level Reset (R33, R346, R434, R435) -/

theorem foldl_modFunc_func_ne (g : Func → Func) {l : List Nat} (s : State) {f : Nat} (hf : f ∉ l) :
    (l.foldl (fun s f => s.modFunc f g) s).func f = s.func f := by
  induction l generalizing s with
  | nil => rfl
  | cons k l ih =>
    obtain ⟨hne, hf⟩ := not_or.1 (mt List.mem_cons.2 hf)
    rw [List.foldl_cons, ih _ hf, State.func_modFunc_ne _ _ (Ne.symm hne)]

/-- A function that a fold over different functions reaches is changed once. -/
theorem foldl_modFunc_func (g : Func → Func) {l : List Nat} (hl : l.Nodup) (s : State) {f : Nat} (hf : f ∈ l)
    (hlen : f < s.funcs.length) : (l.foldl (fun s f => s.modFunc f g) s).func f = g (s.func f) := by
  induction l generalizing s with
  | nil => cases hf
  | cons k l ih =>
    obtain ⟨hk, hl⟩ := List.nodup_cons.1 hl
    rw [List.foldl_cons]
    rcases List.mem_cons.1 hf with rfl | hf
    · rw [← State.func_modFunc s f g hlen]
      exact foldl_modFunc_func_ne g _ hk
    · have hne : k ≠ f := fun e => hk (e ▸ hf)
      rw [ih hl _ hf (by rwa [State.modFunc_funcs, modNth_length]), State.func_modFunc_ne _ _ hne]

theorem State.fns_nodup (s : State) : s.fns.Nodup := by
  unfold State.fns
  split <;> decide

/-- A fold that changes functions leaves everything else. -/
theorem foldl_modFunc_rest (g : Func → Func) (l : List Nat) (s : State) :
    ∃ funcs, l.foldl (fun s f => s.modFunc f g) s = { s with funcs := funcs } := by
  induction l generalizing s with
  | nil => exact ⟨s.funcs, rfl⟩
  | cons k l ih =>
    obtain ⟨funcs, e⟩ := ih (s.modFunc k g)
    exact ⟨funcs, e⟩

theorem exec_pcieLinkReset {s : State} (e : LinkEvent) (hlive : s.live = true) (hok : s.pcie.failed = false) :
    ∃ funcs act, exec (.pcieLinkReset e) s = .next
      { s with
        funcs := funcs
        act := act
        pcie := ⟨false, e = .partitionLoss, s.pcie.spaces.map fun _ => ConfigSpace.reset s.quad⟩
        boot := { s.boot with linkResets := if e = .partitionLoss then s.boot.linkResets else (s.boot.linkResets + 1) % 256 } } ∧
      funcs = (s.fns.foldl (fun s f => s.modFunc f Func.dropQueues) s).funcs := by
  change ∃ funcs act, execPcieLinkReset e s = _ ∧ _
  unfold execPcieLinkReset
  rw [if_neg (by simp [hlive, hok])]
  obtain ⟨funcs, dropped⟩ := foldl_modFunc_rest Func.dropQueues s.fns s
  rw [dropped]
  exact ⟨_, _, rfl, rfl⟩

theorem exec_functionLevelReset {s : State} {f : Nat} (hready : s.ready = true) (hup : s.pcie.linkUp = true)
    (hf : s.fns.contains f = true) :
    let w := s.modFunc f Func.dropQueues
    let u := { w with act := w.act.map fun (a : Activation) => if a.sub.func = f then { a with sub := orphan a.sub } else a }
    let v := match (u.func f).cur, (u.func f).activePlan with
      | some st, some (_, p) => u.stopOwn f p st
      | _, _ => u
    exec (.functionLevelReset f) s = .next (((v.emptyEngines f).quenchAll f true).startSteps f) :=
  if_neg (by rw [hready, hup, hf]; decide)

/-! ## Configuration requests (R432, R433) -/

section
variable {s : State} {r : ConfigRequest} (hlive : s.live = true) (hup : s.pcie.linkUp = true) (hok : s.pcie.failed = false)
  (hf : s.fns.contains r.func = true)
include hlive hup hok hf

theorem exec_configRequest_retried (hready : s.ready = false) :
    exec (.configRequest r) s = .next { s with out := s.out ++ [.config r.func none] } := by
  change execConfigRequest r s = _
  unfold execConfigRequest
  rw [if_neg (by rw [hlive, hup, hok, hf]; decide), if_pos (by simp [hready])]
  rfl

theorem exec_configRequest_read (hready : s.ready = true) (hw : r.write = none) :
    exec (.configRequest r) s = .next { s with out := s.out ++ [.config r.func (some (s.configValue r.func r.item))] } := by
  change execConfigRequest r s = _
  unfold execConfigRequest
  rw [if_neg (by rw [hlive, hup, hok, hf]; decide), if_neg (by simp [hready]), hw]
  rfl

theorem exec_configRequest_written {v : Nat} (hready : s.ready = true) (hw : r.write = some v) :
    let u := s.configWrite r.func r.item v
    exec (.configRequest r) s = .next { u with out := u.out ++ [.config r.func (some (u.configValue r.func r.item))] } := by
  change execConfigRequest r s = _
  unfold execConfigRequest
  rw [if_neg (by rw [hlive, hup, hok, hf]; decide), if_neg (by simp [hready]), hw]
  rfl

end

/-! ## Ports that go down (R416, R419, R431) -/

theorem Reports.resendWhole {s t : State} (h : Reports s t) (m : Sent) : Reports s (t.resendWhole m) := by
  unfold State.resendWhole
  split
  next v p e => exact .modFunc (.fst e (h.queueOut m _)) _ _

/-- A port that has stopped: it keeps its enable, its retrains and its version failure, and reads the state given. -/
def Port.stopped (state : Nat) (q : Port) : Port :=
  { Port.reset with en := q.en, state := state, retrains := q.retrains, verFailAt := q.verFailAt }

theorem Port.stopped_state (state : Nat) (q : Port) : (q.stopped state).state = state := rfl

/-- What a stop changes besides its port is counted or sent. -/
theorem State.stopPort_reports (s : State) (port state : Nat) : Reports (s.modPort port (Port.stopped state)) (s.stopPort port state) := by
  have h := Reports.refl (s.modPort port (Port.stopped state))
  exact Reports.foldl _ ((h.cntPort _ _ _).ite h) fun u m => (Reports.refl u).resendWhole m

theorem State.portDown_reports (s : State) (port : Nat) : Reports (s.modPort port (Port.stopped 4)) (s.portDown port) := by
  unfold State.portDown
  exact ((s.stopPort_reports port 4).fault _ _ _ _ _).emitTo _ _ _ _ _ _

theorem State.portDown_boot (s : State) (port : Nat) : (s.portDown port).boot = s.boot := by
  obtain ⟨_, _, _, _, _, boot⟩ := (s.portDown_reports port).serves
  exact boot

theorem State.portDown_length (s : State) (port : Nat) : (s.portDown port).ports.length = s.ports.length := by
  have states := congrArg List.length (s.portDown_reports port).states
  simpa [modNth_length] using states

/-- Port `port` is down after it has gone down, and so is every port that was. -/
theorem State.portDown_state (s : State) {port p : Nat} (hp : p < s.ports.length) (h : p = port ∨ (s.port p).state = 4) :
    ((s.portDown port).port p).state = 4 := by
  rw [(s.portDown_reports port).portState]
  by_cases e : port = p
  · subst e
    rw [State.port_modPort s port _ hp, Port.stopped_state]
  · rw [State.port_modPort_ne s _ e]
    exact h.resolve_left (Ne.symm e)

theorem foldl_portDown_boot (l : List Nat) (s : State) : (l.foldl (fun s p => s.portDown p) s).boot = s.boot :=
  List.foldlRecOn (motive := fun u : State => u.boot = s.boot) l _ rfl fun u h p _ => (u.portDown_boot p).trans h

theorem foldl_portDown_state (l : List Nat) (s : State) {p : Nat} (hp : p < s.ports.length) (h : p ∈ l ∨ (s.port p).state = 4) :
    ((l.foldl (fun s p => s.portDown p) s).port p).state = 4 := by
  induction l generalizing s with
  | nil => exact h.resolve_left (List.not_mem_nil)
  | cons k l ih =>
    rw [List.foldl_cons]
    refine ih _ (by rwa [State.portDown_length]) ?_
    rcases h with h | h
    · rcases List.mem_cons.1 h with rfl | h
      · exact .inr (s.portDown_state hp (.inl rfl))
      · exact .inl h
    · exact .inr (s.portDown_state hp (.inr h))

/-- The ports that go down without FAB_REFCLK: those in use on a die in service. -/
theorem exec_fabRefclkLoss (s : State) : exec .fabRefclkLoss s = .next
    (((List.range 24).filter fun p => s.up (p / 6) && (1 ≤ (s.port p).state && (s.port p).state ≤ 3)).foldl (fun s p => s.portDown p)
      { s with boot := { s.boot with fabRefclk := false } }) := rfl

theorem exec_fabRefclkLoss_spec (s : State) : ∃ t, exec .fabRefclkLoss s = .next t ∧ t.boot.fabRefclk = false ∧
    ∀ p, p < 24 → s.ports.length = 24 → s.up (p / 6) = true → 1 ≤ (s.port p).state → (s.port p).state ≤ 3 → (t.port p).state = 4 := by
  refine ⟨_, exec_fabRefclkLoss s, by rw [foldl_portDown_boot], fun p hp hlen hup hlo hhi => ?_⟩
  refine foldl_portDown_state _ _ (hlen ▸ hp) (.inl ?_)
  simp [hp, hup, hlo, hhi]

/-- Settles O38: each of the four events, one after another. -/
theorem linkAndFunctionResets : Obligations.LinkAndFunctionResets := by
  intro s
  refine ⟨fun e hlive hok => ?_, fun f hready hup hf => exec_functionLevelReset hready hup hf, fun r hlive hup hok hf => ?_,
    exec_fabRefclkLoss_spec s⟩
  · obtain ⟨funcs, act, e', hfuncs⟩ := exec_pcieLinkReset e hlive hok
    refine ⟨_, e', rfl, rfl, fun x hx => ?_, rfl, fun f hf hlen => ?_, rfl, rfl, rfl, rfl, rfl⟩
    · obtain ⟨_, -, rfl⟩ := List.mem_map.1 hx
      rfl
    · have dropped := foldl_modFunc_func Func.dropQueues s.fns_nodup s (List.contains_iff_mem.1 hf) hlen
      unfold State.func at dropped ⊢
      rwa [← hfuncs] at dropped
  · exact ⟨exec_configRequest_retried hlive hup hok hf, exec_configRequest_read hlive hup hok hf,
      fun v => exec_configRequest_written hlive hup hok hf⟩

end Sys2Proof.Machine
end

section
/-!
PROOFS. A step goes from descriptor to descriptor and phase to phase (O50).
-/
namespace Sys2Proof.Machine

section
variable {s : State} {f slot : Nat} {p : Plan} {st : Step}

/-- A running job that can end completes, and those that waited for it start (R75). -/
theorem State.descriptorComplete_ended {ahead : Bool} {i : Nat} {r : VecReport} {j : Job} {v : State}
    (hplan : (s.func f).activePlan = some (slot, p)) (hstep : (s.func f).step? ahead = some st)
    (hjob : st.jobs.find? (fun j => j.index = i && j.st = 1) = some j) (hquench : st.quenched = false)
    (hend : s.finishJob f p ahead st j r = some v) :
    s.descriptorComplete f ahead i r = (((j.cores.foldl (fun w c => State.exercised w (coreDie c) [.vector c]) v).modStep f ahead
      fun x => x.setJob j 2 []).startJobs f ahead).fallIdle f ahead := by
  unfold State.descriptorComplete
  simp only [hplan, hstep, hjob, hquench, hend, Bool.false_eq_true, if_false]

/-! ## The end of a phase (R74, R78, R107) -/

section
variable (hplan : (s.func f).activePlan = some (slot, p)) (hquench : st.quenched = false) (haway : st.away = false)
  (hlead : s.leadStops f = false) (hfull : st.memFull = false) (hdone : st.jobs.all (fun j => j.st = 2) = true)
include hplan hquench haway hlead hfull hdone

/-- A phase from S to B2 gives way to the next when no line of its working data is uncorrectable. -/
theorem State.phaseComplete_next (hcur : (s.func f).cur = some st) (hu : st.phase ≠ .u) (hr : st.phase ≠ .r) (hbad : s.badLines = []) :
    s.phaseComplete f false = s.nextPhase f p st := by
  have good : s.checkWork f slot p st = (s, false) := if_pos (by rw [hbad]; rfl)
  unfold State.phaseComplete
  simp only [hplan, Func.step?, hcur, hquench, haway, hlead, hfull, hdone, Bool.or_self, Bool.not_true, Bool.false_eq_true, if_false]
  cases h : st.phase with
  | u => exact absurd h hu
  | r => exact absurd h hr
  | s | g | f | l | b1 | b2 => simp only [good, Bool.false_eq_true, if_false]

/-- R gives way to U when the reduction and, in a step that is not skipped, the tables are closed. -/
theorem State.phaseComplete_reduced (hcur : (s.func f).cur = some st) (hr : st.phase = .r) :
    let skip := match ((s.func f).chorusStep p.group st.n).mask with
      | some m => m.skip
      | none => false
    let v := if skip then s else s.closeTables f st.n
    (v.func f).reduced = true → (skip || (v.func f).tablesClosed st.n) = true → s.phaseComplete f false = v.nextPhase f p st := by
  intro skip v hreduced hclosed
  unfold State.phaseComplete
  simp only [hplan, Func.step?, hcur, hquench, haway, hlead, hfull, hdone, hr, Bool.or_self, Bool.not_true, Bool.false_eq_true, if_false]
  exact if_pos (by rw [Bool.and_eq_true]; exact ⟨hreduced, hclosed⟩)

/-- S of the step that runs ahead gives way to its frozen gathers (R78). -/
theorem State.phaseComplete_ahead (hrun : (s.func f).ahead = some st) (hs : st.phase = .s) :
    s.phaseComplete f true = (s.modStep f true fun x => x.close (s.leadClk f)).enter f true .g := by
  unfold State.phaseComplete
  simp only [hplan, Func.step?, hrun, hquench, haway, hlead, hfull, hdone, hs, Bool.or_self, Bool.not_true, Bool.false_eq_true, if_false,
    if_true]

end

/-- A step whose U is done ends with its record, its boundary follows, and the next step starts (R85 to R88). -/
theorem State.stepComplete_ended (r : VecReport) (hplan : (s.func f).activePlan = some (slot, p)) (hcur : (s.func f).cur = some st)
    (hu : st.phase = .u) (hdone : st.uDone = true) (hquench : st.quenched = false) (hlead : s.leadStops f = false) :
    let w := s.vecFail r
    let x := ((w.func f).cur.getD st).close (w.leadClk f)
    let mask := ((w.func f).chorusStep p.group x.n).mask
    let status := match mask, (w.func f).groups.getD p.group none with
      | some m, some gr => if m.skip then stSkipped else if gr.full m then stOk else stPartial
      | _, _ => stOk
    let v := ((w.modFunc f fun g => { g with cur := none }).endStep f slot p x status mask).boundary f x.n
    s.stepComplete f r = (if (v.func f).accepted.isEmpty then v.idleRamp f else v).startSteps f := by
  unfold State.stepComplete
  simp only [hplan, hcur]
  exact if_neg (by simp [hu, hdone, hquench, hlead])

/-- The wait for a step size that U holds ends (R283). -/
theorem exec_stepSizeWaitExpire (hcur : (s.func f).cur = some st) (hu : st.phase = .u) (haway : st.away = false) :
    exec (.stepSizeWaitExpire f) s = .next ((s.modStep f false fun st => { st with waitExpired := true }).tryU f) := by
  change execStepSizeWaitExpire f s = _
  unfold execStepSizeWaitExpire
  simp only [hcur, hu, haway, decide_true, Bool.not_false, Bool.and_self, if_true]

/-- The first slice dealt to a Skink that takes work ends: it is placed, or, where parity failed, its cluster tries it again or is
disabled (R97, R107, R112). -/
theorem exec_skinkSliceDone {d c i q a : Nat} {rest : List (Nat × Nat × Nat)} (hf : s.fnOf d = f)
    (hplan : (s.func f).activePlan = some (slot, p)) (hdealt : (s.clu d c).skink.dealt = (i, q, a) :: rest)
    (hstep : (s.func f).step? (a = 1) = some st) (hquench : st.quenched = false) (htakes : (s.clu d c).skink.takes = true)
    (hup : s.cluUp d c = true) (hearly : s.earlyStep f d c st.n = false)
    (hproc : s.procStops (.control d c) = false ∨ (s.clu d c).skink.inWork = some (i, q, a)) (parity : Bool) :
    exec (.skinkSliceDone d c parity) s = .next
      (if !parity then (s.sliceBuilt f d c slot p st (a = 1) i q).exercised d [.skink d c]
      else if (s.clu d c).skink.retried then (s.cntClu d c 6).disableCluster d c 8
      else ((s.cntClu d c 6).note d 8 1 c 1).modSkink d c fun k => { k with retried := true }) := by
  have runs : (s.procStops (.control d c) && (s.clu d c).skink.inWork ≠ ((i, q, a) :: rest).head?) = false := by
    rcases hproc with h | h <;> simp [h]
  change execSkinkSliceDone d c parity s = _
  subst hf
  unfold execSkinkSliceDone
  simp only [hdealt, hplan, hstep]
  rw [if_neg (by rw [htakes, hup, hquench, hearly, runs]; decide)]
  simp only [apply_ite Host.Outcome.next]

end

/-- Settles O50: each event of a step, one after another. -/
theorem stepsGoOn : Obligations.StepsGoOn := by
  intro s f slot p st hplan
  refine ⟨fun ahead i r j v he hst hj hq hv => congrArg Host.Outcome.next (State.descriptorComplete_ended he hst hj hq hv),
    fun hq ha hl hm hd => ⟨fun hc hu hr hb => ?_, fun hc hr hred hcl => ?_, fun hr hs => ?_⟩,
    fun r memory he hc hu hd hq hl => congrArg Host.Outcome.next (State.stepComplete_ended r he hc hu hd hq hl),
    exec_stepSizeWaitExpire, fun d c i q a rest hf hdealt hst hq ht hup he hp => ?_⟩
  · exact congrArg Host.Outcome.next (State.phaseComplete_next hplan hq ha hl hm hd hc hu hr hb)
  · exact congrArg Host.Outcome.next (State.phaseComplete_reduced hplan hq ha hl hm hd hc hr hred hcl)
  · exact congrArg Host.Outcome.next (State.phaseComplete_ahead hplan hq ha hl hm hd hr hs)
  · have ends := exec_skinkSliceDone hf hplan hdealt hst hq ht hup he hp
    exact ⟨ends false, ends true⟩

end Sys2Proof.Machine
end

section
/-!
PROOFS. What counting, recording and completing a command leave of the functions and of the units, and with it PLAN_LOAD and
STEP_RUN (O21).
-/
namespace Sys2Proof.Machine

/-! ## What counters, records, completions and accesses of borrowed memory leave -/

/-- A function without what counters, records, completions and accesses of borrowed memory write. -/
def Func.unreported (g : Func) : Func :=
  { g with
    note := (Func.reset 0).note
    ctrs := []
    ep := (Func.reset 0).ep
    done := []
    apertures := [] }

/-- A die without the number of its last notification record. -/
def Die.unstamped (x : Die) : Die := { x with noteSeq := 0 }

/-- `t` has the functions, dies, clusters and cores of `s`, but for what counters, records, completions and accesses of borrowed memory
write. -/
structure SameUnits (s t : State) : Prop where
  funcs : t.funcs.map Func.unreported = s.funcs.map Func.unreported
  dies : t.dies.map Die.unstamped = s.dies.map Die.unstamped
  clusters : t.clusters = s.clusters
  cores : t.cores = s.cores

/-- A change of one element that leaves what `k` reads of that element. -/
theorem modNth_map_at {α β : Type} (k : α → β) {g : α → α} {i : Nat} {l : List α} {d : α} (hg : k (g (l.getD i d)) = k (l.getD i d)) :
    (modNth g i l).map k = l.map k := by
  induction l generalizing i with
  | nil => cases i <;> rfl
  | cons x l ih =>
    cases i with
    | zero => exact congrArg (· :: l.map k) hg
    | succ i => exact congrArg (k x :: ·) (ih hg)

theorem SameUnits.refl (s : State) : SameUnits s s := ⟨rfl, rfl, rfl, rfl⟩

theorem SameUnits.trans {s t u : State} (h : SameUnits s t) (k : SameUnits t u) : SameUnits s u :=
  ⟨k.funcs.trans h.funcs, k.dies.trans h.dies, k.clusters.trans h.clusters, k.cores.trans h.cores⟩

theorem SameUnits.fst {β : Type} {s t : State} {p : State × β} {q : β} (e : p = (t, q)) (h : SameUnits s p.1) : SameUnits s t := by
  subst e
  exact h

theorem SameUnits.ite {c : Prop} [Decidable c] {s a b : State} (h : SameUnits s a) (k : SameUnits s b) :
    SameUnits s (if c then a else b) := by
  split <;> assumption

theorem SameUnits.foldl {α : Type} {s t : State} {g : State → α → State} (l : List α) (h : SameUnits s t)
    (hg : ∀ u x, SameUnits u (g u x)) : SameUnits s (l.foldl g t) :=
  List.foldlRecOn (motive := SameUnits s) l g h fun u k x _ => k.trans (hg u x)

/-! ### What is read of them -/

section
variable {s t : State} (h : SameUnits s t)
include h

theorem SameUnits.func (f : Nat) : (t.func f).unreported = (s.func f).unreported := by
  unfold State.func
  rw [← List.getD_map (f := Func.unreported), h.funcs, List.getD_map]

theorem SameUnits.die (d : Nat) : (t.die d).unstamped = (s.die d).unstamped := by
  unfold State.die
  rw [← List.getD_map (f := Die.unstamped), h.dies, List.getD_map]

theorem SameUnits.plans (f : Nat) : (t.func f).plans = (s.func f).plans :=
  (congrArg Func.plans (h.func f) :)

theorem SameUnits.axl (d : Nat) : (t.die d).axl = (s.die d).axl := (congrArg Die.axl (h.die d) :)

theorem SameUnits.dies_length : t.dies.length = s.dies.length := by
  simpa using congrArg List.length h.dies

theorem SameUnits.up (d : Nat) : t.up d = s.up d :=
  (congrArg (fun x : Die => x.enabled && !x.lost && decide (d < 4)) (h.die d) :)

theorem SameUnits.coresOf (d : Nat) : t.coresOf d = s.coresOf d := by
  unfold State.coresOf State.coreState State.cluUp State.clu State.core
  simp only [h.up, h.clusters, h.cores]

/-! ### The operations -/

/-- A change of a function that leaves the rest of it. -/
theorem SameUnits.modFunc {f : Nat} {g : Func → Func} (hg : (g (t.func f)).unreported = (t.func f).unreported) :
    SameUnits s (t.modFunc f g) :=
  h.trans ⟨modNth_map_at Func.unreported hg, rfl, rfl, rfl⟩

/-- A change of a die that leaves the rest of it. -/
theorem SameUnits.modDie (d : Nat) {g : Die → Die} (hg : ∀ x, (g x).unstamped = x.unstamped) : SameUnits s (t.modDie d g) :=
  h.trans ⟨rfl, modNth_map Die.unstamped hg d t.dies, rfl, rfl⟩

theorem SameUnits.put (o : Output) : SameUnits s (t.put o) := h.trans ⟨rfl, rfl, rfl, rfl⟩
theorem SameUnits.setSide (x : Sideband) : SameUnits s { t with side := x } := h.trans ⟨rfl, rfl, rfl, rfl⟩
theorem SameUnits.setMem (m : List Host.Cell) : SameUnits s { t with mem := m } := h.trans ⟨rfl, rfl, rfl, rfl⟩
theorem SameUnits.setCfg (c : ConfigRecord) : SameUnits s { t with cfg := c } := h.trans ⟨rfl, rfl, rfl, rfl⟩
theorem SameUnits.put' (k : Nat) (bs : List Byte) : SameUnits s (t.put' k bs) := h.trans ⟨rfl, rfl, rfl, rfl⟩
theorem SameUnits.journalCmd (c : Submission) : SameUnits s (t.journalCmd c).1 := h.trans ⟨rfl, rfl, rfl, rfl⟩
theorem SameUnits.modPort (p : Nat) (g : Port → Port) : SameUnits s (t.modPort p g) := h.trans ⟨rfl, rfl, rfl, rfl⟩

theorem SameUnits.interrupt (f v : Nat) : SameUnits s (t.interrupt f v) := (h.put _).ite h

theorem SameUnits.peerAccess (k : Nat) (write : Bool) (len : Nat) (data old : List Byte) (table row : Nat) :
    SameUnits s (t.peerAccess k write len data old table row) := by
  unfold State.peerAccess
  split
  · exact h
  · split
    · exact h
    · exact h.modFunc rfl

theorem SameUnits.poke (k : Nat) (bs : List Byte) : SameUnits s (t.poke k bs) :=
  (h.put' k bs).ite ((h.peerAccess _ _ _ _ _ _ _).put' k bs)

theorem SameUnits.store (k : Nat) (bs : List Byte) : SameUnits s (t.store k bs) :=
  .foldl _ (h.poke k bs) fun u _ => (SameUnits.refl u).ite ((SameUnits.refl u).poke _ _)

theorem SameUnits.devWrite (f x : Nat) (bs : List Byte) : SameUnits s (t.devWrite f x bs) := by
  unfold State.devWrite
  split
  · exact h.store _ _
  · exact h

theorem SameUnits.ringWrite (f : Nat) (n : Note) : SameUnits s (t.ringWrite f n) :=
  have written := ((((h.devWrite f _ n.bytes).modFunc rfl).setSide _).put _)
  (written.interrupt _ _).ite written

theorem SameUnits.giveNote (f : Nat) (n : Note) : SameUnits s (t.giveNote f n).1 := by
  unfold State.giveNote
  split
  · exact h.ringWrite f n
  · exact h.modFunc rfl

theorem SameUnits.stamp (src : Nat) : SameUnits s (t.stamp src).1 := by
  unfold State.stamp
  split
  · exact h.modDie src fun _ => rfl
  · exact h.trans ⟨rfl, rfl, rfl, rfl⟩

theorem SameUnits.addCtr (f i n : Nat) : SameUnits s (t.modFunc f fun _ => ((t.func f).addCtr i n).1) :=
  h.modFunc (by
    unfold Func.addCtr
    dsimp only
    split <;> rfl)

theorem SameUnits.emitTo (fs : List Nat) (src kind inst a0 a1 : Nat) : SameUnits s (t.emitTo fs src kind inst a0 a1) := by
  unfold State.emitTo
  split
  next stamped q c e =>
    refine .foldl _ (.fst e (h.stamp src)) fun u f => ?_
    split
    next given lost e =>
      have counted : SameUnits u (given.modFunc f fun _ => ((given.func f).addCtr 32 lost).1) :=
        .addCtr (.fst e ((SameUnits.refl u).giveNote f _)) f 32 lost
      exact ((counted.stamp 15).giveNote f _).ite counted

theorem SameUnits.emit (src kind inst a0 a1 : Nat) : SameUnits s (t.emit src kind inst a0 a1) := h.emitTo _ _ _ _ _ _

theorem SameUnits.count (f src i n : Nat) : SameUnits s (t.count f src i n) :=
  ((h.addCtr f i n).emitTo _ _ _ _ _ _).ite (h.addCtr f i n)

theorem SameUnits.cntMod (f k n : Nat) : SameUnits s (t.cntMod f k n) := h.count _ _ _ _
theorem SameUnits.cntDie (d k n : Nat) : SameUnits s (t.cntDie d k n) := h.count _ _ _ _

theorem SameUnits.queueOut (m : Sent) (bytes : List Byte) : SameUnits s (t.queueOut m bytes).1 := by
  unfold State.queueOut
  dsimp only
  split
  · exact h.modPort _ _
  · exact h

theorem SameUnits.send (f sdie dest ddie : Nat) (msg : WireMsg) : SameUnits s (t.send f sdie dest ddie msg) := by
  unfold State.send
  dsimp only
  split
  · exact h
  · split
    · refine SameUnits.ite ?listed (SameUnits.modFunc ?listed rfl)
      exact ((h.modFunc rfl).modFunc rfl).ite (h.modFunc rfl)
    · exact ((h.modFunc rfl).queueOut _ _).modFunc rfl

theorem SameUnits.deliver (f : Nat) (c : Completion) : SameUnits s (t.deliver f c) := by
  unfold State.deliver
  split
  · dsimp only
    split
    · exact h
    · exact ((h.modFunc rfl).cntMod _ _ _).ite (h.modFunc rfl)
  · exact h.send _ _ _ _ _
  · exact h.put _
  · exact h

theorem SameUnits.single (c : Submission) (status : Nat) (detail result : List Byte) (jrn : Nat) :
    SameUnits s (t.single c status detail result jrn) := h.ite (h.deliver _ _)

theorem SameUnits.okJ (c : Submission) : SameUnits s (t.okJ c) := (h.journalCmd c).single _ _ _ _ _

theorem SameUnits.dropApertures (f : Nat) (before : List Alloc) : SameUnits s (t.dropApertures f before) :=
  h.ite ((h.setMem _).modFunc rfl)

end

/-! ## PLAN_LOAD (R70, R71, R312, R313) -/

theorem foldl_funcs {α : Type} {g : State → α → State} (hg : ∀ u x, (g u x).funcs = u.funcs) (l : List α) (s : State) :
    (l.foldl g s).funcs = s.funcs :=
  List.foldlRecOn (motive := fun u : State => u.funcs = s.funcs) l g rfl fun u h x _ => (hg u x).trans h

theorem State.countLeaves_funcs (s : State) (f : Nat) : (s.countLeaves f).funcs = s.funcs := by
  unfold State.countLeaves
  refine foldl_funcs (fun u d => ?_) _ s
  refine foldl_funcs (fun v c => ?_) _ u
  rfl

/-- A plan that is installed is in its slot, and the other slots stand. -/
theorem State.installPlan_plans (s : State) {f : Nat} (slot : Nat) (p : Plan) (hf : f < s.funcs.length) :
    ((s.installPlan f slot p).func f).plans = (s.func f).plans.set slot (some p) := by
  unfold State.installPlan
  dsimp only
  rw [((SameUnits.refl _).dropApertures f _).plans, State.func, State.countLeaves_funcs]
  exact congrArg Func.plans (s.func_modFunc f _ hf)

/-- Placing a plan leaves its parameters, descriptors and parameter groups. -/
theorem State.placePlan_reads {s v : State} {f slot : Nat} {p q : Plan} (h : s.placePlan f slot p = .ok (q, v)) :
    q.params = p.params ∧ q.descs = p.descs ∧ q.pgroups = p.pgroups := by
  unfold State.placePlan at h
  dsimp only at h
  split at h
  · cases h
  · split at h
    · cases h
    · cases h
      exact ⟨rfl, rfl, rfl⟩

section
variable {u : State} {d : Submission}
  (hidle : ((u.func d.func).accepted.any fun a => a.1 = at' d.params 0 1) = false)
  (hcheck : Chk.first ⟨u, d.func, u.readPlan d.func d.params⟩ d.paramLen = none)
include hidle hcheck

/-- A plan that passes its checks and finds room is installed. -/
theorem planLoad'_placed {q : Plan} {v : State}
    (h : u.placePlan d.func (at' d.params 0 1) (u.readPlan d.func d.params) = .ok (q, v)) :
    planLoad' d u = (v.installPlan d.func (at' d.params 0 1) q).okJ d := by
  unfold planLoad' planLoadWith
  simp only [hidle, hcheck, h, Bool.and_false, Bool.false_eq_true, if_false]

/-- A plan that passes its checks and finds no room asks the peers of its group for it, or is refused. -/
theorem planLoad'_short {i n : Nat} (h : u.placePlan d.func (at' d.params 0 1) (u.readPlan d.func d.params) = .error (i, n)) :
    let peers := (u.func d.func).groupPeers (u.readPlan d.func d.params)
    planLoad' d u = if n = 0 || peers.isEmpty then u.single d stBadParam (leBytes 2 i ++ leBytes 1 7)
      else u.askPeers d.func (some d) 0 peers n := by
  unfold planLoad' planLoadWith
  simp only [hidle, hcheck, h, Bool.and_false, Bool.false_or, Bool.false_eq_true, if_false]

end

theorem exec_planLoad {s : State} {c : Submission} (h : s.starts 0x0301 c = true) :
    exec (.planLoad c) s = .next (planLoad' (s.sent 0x0301 c) (s.begun 0x0301 c)) :=
  congrArg Host.Outcome.next (State.zcp_starts h planLoad')

/-! ## STEP_RUN (R75, R81) -/

theorem exec_stepRun {s : State} {c : Submission} (h : s.starts 0x0302 c = true) :
    exec (.stepRun c) s = .next (stepRun' (s.sent 0x0302 c) (s.begun 0x0302 c)) :=
  congrArg Host.Outcome.next (State.zcp_starts h stepRun')

theorem stepRun'_refused {u : State} {d : Submission} {st : Nat} (h : (u.func d.func).stepRefused d = some st) :
    stepRun' d u = u.single d st := by
  unfold stepRun'
  rw [h]

/-- A step that nothing refuses is the last of the steps accepted, and begins as soon as it may. -/
theorem stepRun'_accepted {u : State} {d : Submission} (h : (u.func d.func).stepRefused d = none) :
    let slot := hb d 24 1
    let v := u.interim d stAccepted
    stepRun' d u = (v.modFunc d.func fun g =>
      { g with
        accepted := g.accepted ++ [(slot, d)]
        plans := g.plans.set slot ((g.plans.getD slot none).map fun p =>
          { p with
            lastStep := some d.step
            firstStep := some (p.firstStep.getD d.step)
            choiceMap := if (v.func d.func).accepted.isEmpty then [] else p.choiceMap }) }).startSteps d.func := by
  unfold stepRun'
  rw [h]

/-- Settles O21: each command starts, and its effect is that of the case which the checks of the plan or of the step select. -/
theorem plansLoadAndRun : Obligations.PlansLoadAndRun := by
  refine ⟨fun s c h => ?_, fun s c h => ⟨fun st hst => ?_, fun hst => ?_⟩⟩
  · intro d u f slot p hidle hcheck
    refine ⟨fun q v hplace hf => ?_, fun i n hplace => ?_⟩
    · refine ⟨_, (exec_planLoad h).trans (congrArg Host.Outcome.next (planLoad'_placed hidle hcheck hplace)), ?_,
        State.placePlan_reads hplace⟩
      rw [((SameUnits.refl _).okJ d).plans]
      exact v.installPlan_plans slot q hf
    · exact (exec_planLoad h).trans (congrArg Host.Outcome.next (planLoad'_short hidle hcheck hplace))
  · exact (exec_stepRun h).trans (congrArg Host.Outcome.next (stepRun'_refused hst))
  · exact (exec_stepRun h).trans (congrArg Host.Outcome.next (stepRun'_accepted hst))

end Sys2Proof.Machine
end

section
/-!
PROOFS. Background tests, scrubbing, the re-plan, the rebuilding of mirrors, and Axolotl (O53).
-/
namespace Sys2Proof.Machine

/-! ## Background tests and scrubbing (R315, R347, R348) -/

/-- A background test of a resource that holds no work runs, and a failed one leads to the mechanism of the resource. -/
theorem State.backgroundTest_resting (s : State) (r : Resource) (pass : Bool) (which : List Nat) : s.restingResource r = true →
    let d := resourceDie r
    let u := (s.cntDie d 68).modDie d fun x =>
      { x with
        bistRuns := (x.bistRuns + 1) % 2 ^ 16
        bistTimes := upsert (fun (y : Resource × Nat) => y.1 = r) (fun _ => (r, (s.die d).clk)) (r, (s.die d).clk) x.bistTimes }
    let v := match r with
      | .array i => u.modMxe i fun m => { m with dirtyWeights := true, cells := Weights.none }
      | .coreStore _ | .clusterBuffer _ _ => u.cntDie d 40 which.length
      | _ => u
    s.backgroundTest r pass which = if !pass then (v.cntDie d 69).testFailed r which
      else match r with
        | .array i => if (v.die d).axl.marginDue.contains i then v.marginTest i which else v
        | _ => v :=
  fun h => if_neg (by rw [h]; decide)

/-- The scrubber reads a line that is there: a corrected error is counted, and one that cannot be corrected has its response. -/
theorem exec_patrolScrub {s : State} {a d : Nat} (hdie : keyDie (a / 64 * 64) = some d) (hup : s.up d = true)
    (hthere : dramBase 4 ≤ a / 64 * 64 ∨ s.dramPresent d (a / 64 * 64 - dramBase d) = true) (o : LineOutcome) :
    exec (.patrolScrub a o) s = .next (match o with
      | .clean => s
      | .corrected => s.cntDie d 40
      | .uncorrectable => s.uncorrectable d (a / 64 * 64)) := by
  have there : (s.up d && (decide (dramBase 4 ≤ a / 64 * 64) || s.dramPresent d (a / 64 * 64 - dramBase d))) = true := by
    simpa [hup] using hthere
  change Host.Outcome.next (s.lineRead ⟨a, o⟩) = _
  unfold State.lineRead
  cases o with
  | clean | corrected | uncorrectable => simp only [hdie, there, Bool.not_true, Bool.false_eq_true, if_false]

/-! ## The re-plan and the mirrors (R84, R250, R344) -/

/-- The state after a re-plan: no die waits for one, and the working memory of the plans is placed anew. -/
def State.replanned (s : State) : State :=
  ((List.range 16).foldl (fun s k => State.replaceWorking s 0 k) ((List.range 4).foldl (fun s d => State.modDie s d fun x =>
    if x.safState = 1 then { x with safState := 0 } else x) s)).countLeaves 0

section
variable {s : State} (hquad : s.quad = false) (hopen : (List.range 4).any (fun d => s.up d && (s.die d).safState = 1) = true)
include hquad hopen

theorem exec_replanDone_idle (h : (s.replanned.func 0).cur = none) : exec .replanDone s = .next (s.replanned.startSteps 0) := by
  change execReplanDone s = _
  unfold execReplanDone
  rw [if_neg (by rw [hquad, hopen]; decide)]
  unfold State.replanned at h ⊢
  simp only [h]

/-- A step that waited for the re-plan runs again from S, unless a QUENCH has stopped it. -/
theorem exec_replanDone_step {st : Step} (h : (s.replanned.func 0).cur = some st) :
    exec .replanDone s = .next (if st.quenched && !((s.replanned.func 0).stops.any fun j => j.sub.opcode = 0x0010) then
      (s.replanned.restartStep 0 flFailover st.reexec).startSteps 0 else s.replanned.startSteps 0) := by
  change execReplanDone s = _
  unfold execReplanDone
  rw [if_neg (by rw [hquad, hopen]; decide)]
  unfold State.replanned at h ⊢
  simp only [h, apply_ite Host.Outcome.next]

end

/-- A twin is rebuilt at once when no plan has training state. -/
theorem exec_twinRebuildDone {s : State} {d : Nat} (hup : s.up d = true) (hdeg : (s.die d).degraded = true)
    (hcur : ∀ st, (s.func (s.fnOf d)).cur = some st → bit st.flags flFailover = false)
    (hplans : ∀ k, (s.func (s.fnOf d)).plans.getD k none = none) :
    exec (.twinRebuildDone d) s = .next (s.modDie d fun x => { x with degraded := false }) := by
  have early : (!s.up d || !(s.die d).degraded || match (s.func (s.fnOf d)).cur with
      | some st => bit st.flags flFailover
      | none => false) = false := by
    rw [hup, hdeg]
    cases h : (s.func (s.fnOf d)).cur with
    | none => rfl
    | some st => exact hcur st h
  change execTwinRebuildDone d s = _
  unfold execTwinRebuildDone
  dsimp only
  refine (if_neg (ne_true_of_eq_false early)).trans ?_
  rw [List.foldl_fixed']
  · rfl
  · intro slot
    simp only [hplans]

/-! ## Axolotl (R351, R352, R355) -/

/-- A set of samples gives the slack of each monitor; the first after a plan sets the least one. -/
theorem exec_axlSample {s : State} {d : Nat} (hup : s.up d = true) (hmode : s.axlMode d ≠ 0) (hproc : s.procStops (.power d) = false)
    (hd : d < s.dies.length) (delays : List Int) :
    let slack := (List.range 64).map fun i => s.slackOf d i (delays.getD i 0)
    ∃ t, exec (.axlSample d delays) s = .next t ∧
      (t.die d).axl.slack = slack ∧ (t.die d).axl.sampled = true ∧ ((s.die d).axl.sampled = false → (t.die d).axl.minSlack = slack) ∧
      t.cfg = s.cfg ∧ t.cores = s.cores := by
  intro slack
  have counted := (SameUnits.refl s).cntDie d 72 1
  have reported := (Reports.refl s).count (s.fnOf d) d (s.ixDie d 72) 1
  have hlen : d < (s.cntDie d 72).dies.length := counted.dies_length ▸ hd
  refine ⟨_, if_neg (by simp [hup, hmode, hproc]), ?_⟩
  unfold State.modAxl
  rw [State.die_modDie _ _ _ hlen]
  refine ⟨rfl, rfl, fun h => ?_, reported.serves.1, counted.cores⟩
  rw [← counted.axl] at h
  exact if_neg (by rw [h]; decide)

/-- A plan is formed on a state that has counted it, and the margin tests of the cores of the die are then due. -/
theorem State.formPlan_margins (s : State) (d : Nat) : ∃ (u : State) (h : Axolotl → Axolotl), SameUnits s u ∧
    (∀ a, (h a).marginDue = u.coresOf d ∧ (h a).marginal = []) ∧ SameUnits (u.modAxl d h) (s.formPlan d) := by
  have counted := (SameUnits.refl s).cntDie d 73 1
  unfold State.formPlan
  dsimp only
  refine ⟨_, _, ?_, fun _ => ⟨rfl, rfl⟩, .ite (.emit (.ite (.emit (.refl _) _ _ _ _ _) (.refl _)) _ _ _ _ _)
    (.ite (.emit (.refl _) _ _ _ _ _) (.refl _))⟩
  exact .setCfg (.ite (.setCfg (.cntDie (.cntDie counted _ _ _) _ _ _) _) counted) _

theorem State.formPlan_due {s : State} {d : Nat} (hd : d < s.dies.length) :
    ((s.formPlan d).die d).axl.marginDue = s.coresOf d ∧ ((s.formPlan d).die d).axl.marginal = [] := by
  obtain ⟨u, h, counted, due, noted⟩ := s.formPlan_margins d
  have hlen : d < u.dies.length := counted.dies_length ▸ hd
  have e : ((s.formPlan d).die d).axl = h (u.die d).axl := by
    rw [noted.axl]
    unfold State.modAxl
    rw [State.die_modDie _ _ _ hlen]
  rw [e, ← counted.coresOf]
  exact due _

/-- The guard never falls, and stays within its 8 steps. -/
theorem guardLoop_bounds (gv : Int) (fuel g : Nat) (short : Int) (h : g ≤ 8) :
    g ≤ (guardLoop gv fuel g short).1 ∧ (guardLoop gv fuel g short).1 ≤ 8 := by
  induction fuel generalizing g short with
  | zero => exact ⟨Nat.le_refl g, h⟩
  | succ n ih =>
    unfold guardLoop
    split
    next more =>
      have hg : g < 8 := by
        simp only [Bool.and_eq_true, decide_eq_true_eq] at more
        exact more.2
      exact ⟨Nat.le_of_succ_le (ih _ _ hg).1, (ih _ _ hg).2⟩
    · exact ⟨Nat.le_refl g, h⟩

/-- The ceiling never rises. -/
theorem binLoop_le (fuel f : Nat) (short : Int) : (binLoop fuel f short).1 ≤ f := by
  induction fuel generalizing f short with
  | zero => exact Nat.le_refl f
  | succ n ih =>
    unfold binLoop
    split
    · exact (ih _ _).trans (Nat.sub_le f 25)
    · exact Nat.le_refl f

/-- Settles O53: each event of the background, and the bounds of the reference procedure. -/
theorem backgroundWorkReportsAndPlans : Obligations.BackgroundWorkReportsAndPlans := by
  refine ⟨fun s => ⟨fun r pass which hr => ?_, fun a d hdie hup hthere => ?_, fun hquad hopen => ?_, fun d hup hdeg hd hcur hplans => ?_⟩,
    fun s d hup => ⟨fun delays hmode hproc hd => exec_axlSample hup hmode hproc hd delays, fun found hproc => ?_,
      State.formPlan_due, fun tgt gv g f slack hg hf => ?_⟩⟩
  · exact congrArg Host.Outcome.next (State.backgroundTest_resting s r pass which hr)
  · have read := exec_patrolScrub hdie hup hthere
    exact ⟨read .clean, read .corrected, read .uncorrectable⟩
  · intro u
    cases h : (u.func 0).cur with
    | none => exact exec_replanDone_idle hquad hopen h
    | some st => exact exec_replanDone_step hquad hopen h
  · refine ⟨_, exec_twinRebuildDone hup hdeg hcur hplans, ?_, rfl, rfl⟩
    rw [State.die_modDie _ _ _ hd]
  · exact if_pos (by rw [hup, hproc]; decide)
  · obtain ⟨raised, within⟩ := guardLoop_bounds (gv * 10) 8 g (tgt * 100 - slack * 25) hg
    exact ⟨raised, within, binLoop_le 64 f _⟩

end Sys2Proof.Machine
end

section
/-!
PROOFS. Graphs and function tables load (O19), and SKK_CONFIG configures the step buffers (O20).
-/
namespace Sys2Proof.Machine

section
variable {s : State} {c : Submission}

theorem exec_graphLoad (h : s.starts 0x0201 c = true) :
    exec (.graphLoad c) s = .next (graphLoad' (s.sent 0x0201 c) (s.begun 0x0201 c)) :=
  congrArg Host.Outcome.next (State.zcp_starts h graphLoad')

theorem exec_ftblLoad (h : s.starts 0x0305 c = true) :
    exec (.ftblLoad c) s = .next (ftblLoad' (s.sent 0x0305 c) (s.begun 0x0305 c)) :=
  congrArg Host.Outcome.next (State.zcp_starts h ftblLoad')

theorem exec_skkConfig (h : s.starts 0x0202 c = true) :
    exec (.skkConfig c) s = .next (skkConfig' (s.sent 0x0202 c) (s.begun 0x0202 c)) :=
  congrArg Host.Outcome.next (State.zcp_starts h skkConfig')

end

/-! ## GRAPH_LOAD (R89, R91, R93) -/

/-- A graph whose slot no active plan names is accepted, and the load is then in work. -/
theorem graphLoad'_accepted {u : State} {d : Submission} (hlen : d.paramLen = 64)
    (hidle : (u.func d.func).graphActive (at' d.params 0 1) = false) :
    graphLoad' d u = (u.interim d stAccepted).modFunc d.func fun g =>
      { g with jobs := g.jobs ++ [⟨d, at' d.params 0 1, false, 0, 0⟩] } := by
  unfold graphLoad'
  dsimp only
  rw [if_neg (not_not_intro hlen), if_neg (ne_true_of_eq_false hidle)]

/-- A load whose graph passes its checks, with a WORK region that holds what it needs, puts the graph into its slot. -/
theorem exec_graphLoadDone_loaded {s : State} {f slot : Nat} {j : AsyncJob} {need parts : Nat}
    (hjob : (s.func f).job 0x0201 slot = some j) (hlead : s.leadStops f = false) (hslot : slot < 16)
    (hcheck : (s.endJob f j).checkGraph f ⟨j.sub.params, 0⟩ = some (need, parts)) :
    let u := s.endJob f j
    let G : Graph := ⟨j.sub.params, parts⟩
    (need = 0 ∨ need ≤ G.workBytes ∧ G.work % 4096 = 0 ∧ u.inMemory f G.work need = true) →
    let v := (u.buildWork f G).modFunc f fun h => { h with graphs := h.graphs.set slot (some G) }
    exec (.graphLoadDone f slot) s = .next ((v.journalCmd j.sub).1.final j.sub stOk [] [] (v.journalCmd j.sub).2) := by
  intro u G hfits v
  have large : (need ≠ 0 && (G.workBytes < need)) = false := by
    rcases hfits with h | ⟨h, -, -⟩ <;> simp [h]
  have placed : (need ≠ 0 && (G.work % 4096 ≠ 0 || !u.inMemory f G.work need)) = false := by
    rcases hfits with h | ⟨-, aligned, inside⟩
    · simp [h]
    · simp [aligned, inside]
  change execGraphLoadDone f slot s = _
  unfold execGraphLoadDone
  simp only [hjob, hlead, hslot, hcheck, Bool.false_eq_true, if_false, if_true]
  exact (if_neg (ne_true_of_eq_false large)).trans (if_neg (ne_true_of_eq_false placed))

/-! ## FTBL_LOAD (R224, R395) -/

/-- An image of a user slot that lies in memory with its signature and its key, and is as long as its header says. -/
structure FtImageOk (u : State) (d : Submission) : Prop where
  slotLow : 64 ≤ hb d 24 1
  slotHigh : hb d 24 1 ≤ 255
  long : 64 ≤ hb d 40 4
  signed : u.inMemory d.func (hb d 32 8) (hb d 40 4 + 1280) = true
  keyed : u.inMemory d.func (hb d 48 8) 1793 = true
  header : ftHeaderOk ((u.devRead d.func (hb d 32 8) (hb d 40 4)).take 64) = true
  size : let head := (u.devRead d.func (hb d 32 8) (hb d 40 4)).take 64
    hb d 40 4 = ftBytes (at' head 1 1) (at' head 3 1)

section
variable {u : State} {d : Submission}

/-- An image that passes its checks is kept with its key where its signature verifies, and is otherwise refused. -/
theorem ftblLoad'_checked (h : FtImageOk u d) (hidle : (u.func d.func).ftActive (hb d 24 1) = false) :
    let im := u.devRead d.func (hb d 32 8) (hb d 40 4)
    let key := u.devRead d.func (hb d 48 8) 1793
    let sig := u.devRead d.func (hb d 32 8 + hb d 40 4) 1280
    let v := ((u.ftReplaced d.func (hb d 24 1)).modFunc d.func fun g =>
      { g with ftables := SMap.insert (hb d 24 1) im g.ftables }).modFunc d.func fun g =>
      { g with ftkeys := SMap.insert (hb d 24 1) key g.ftkeys }
    let w := v.journalCmd d
    ftblLoad' d u = if Config.falconVerify key (shake256 im) sig = true then
      (w.1.measure 1 (srcCode d.src) w.2 (shake256 im) (shake256 key)).single d stOk [] [] w.2
      else u.secDenied.single d stDenied := by
  intro im key sig v w
  obtain ⟨low, high, long, signed, keyed, header, size⟩ := h
  have checked : ¬(hb d 24 1 < 64 || 255 < hb d 24 1 || hb d 40 4 < 64 || !u.inMemory d.func (hb d 32 8) (hb d 40 4 + 1280) ||
      !u.inMemory d.func (hb d 48 8) 1793 || !ftHeaderOk (im.take 64) ||
      hb d 40 4 ≠ ftBytes (at' (im.take 64) 1 1) (at' (im.take 64) 3 1)) = true := by
    simp [im, signed, keyed, header, ← size, low, high, long]
  refine (if_neg checked).trans ?_
  cases verified : Config.falconVerify key (shake256 im) sig with
  | false => rfl
  | true => exact if_neg (ne_true_of_eq_false hidle)

end

/-- Settles O19: each command starts, and a load whose checks pass takes the branch in which its slot is filled. -/
theorem graphsAndFunctionTablesLoad : Obligations.GraphsAndFunctionTablesLoad := by
  refine ⟨fun s c => ⟨fun h => ?_, fun f slot j need parts hjob hlead hslot hf => ?_⟩, fun s c h => ?_⟩
  · intro d u slot hlen hidle
    exact (exec_graphLoad h).trans (congrArg Host.Outcome.next (graphLoad'_accepted hlen hidle))
  · intro u hcheck G hfits
    exact exec_graphLoadDone_loaded hjob hlead hslot hcheck hfits
  · intro d u f slot n im key sig low high long signed keyed header size hidle
    exact (exec_ftblLoad h).trans
      (congrArg Host.Outcome.next (ftblLoad'_checked ⟨low, high, long, signed, keyed, header, size⟩ hidle))

/-! ## SKK_CONFIG (R110, R380) -/

section
variable {u : State} {d : Submission}

theorem skkConfig'_busy (h : (u.func d.func).accepted.isEmpty = false) : skkConfig' d u = u.single d stBusy :=
  if_pos (by rw [h]; rfl)

theorem skkConfig'_badSize (hidle : (u.func d.func).accepted.isEmpty = true) (hsize : hb d 24 4 = 0 ∨ 4096 < hb d 24 4) :
    skkConfig' d u = u.single d stBadParam := by
  refine (if_neg (by rw [hidle]; decide)).trans (if_pos ?_)
  simpa using hsize

/-- A size in range is placed in every targeted cluster, and the command is recorded where a buffer changed. -/
theorem skkConfig'_placed (hidle : (u.func d.func).accepted.isEmpty = true) (hsize : ¬(hb d 24 4 = 0 ∨ 4096 < hb d 24 4)) :
    let t := (u.maskClusters d).foldl (fun v x => State.placeBuffers v d.func x.1 x.2 (hb d 24 4)) u
    skkConfig' d u = if (u.maskClusters d).all fun x => (t.clu x.1 x.2).skink = (u.clu x.1 x.2).skink then t.single d stOk
      else t.okJ d := by
  refine (if_neg (by rw [hidle]; decide)).trans (if_neg ?_)
  simpa using hsize

end

/-- Settles O20: by whether a plan is active, and then by the size. -/
theorem skinkBuffersAreConfigured : Obligations.SkinkBuffersAreConfigured := by
  intro s c h d u mib
  refine (exec_skkConfig h).trans (congrArg Host.Outcome.next ?_)
  cases active : (u.func d.func).accepted.isEmpty with
  | false => exact skkConfig'_busy active
  | true =>
    by_cases size : mib = 0 ∨ 4096 < mib
    · refine (skkConfig'_badSize active size).trans (if_pos ?_).symm
      simpa using size
    · refine (skkConfig'_placed active size).trans (if_neg ?_).symm
      simpa using size

end Sys2Proof.Machine
end

section
/-!
PROOFS. Bellows messages act at their owner and at their requester, and Gecko halves its frequencies (O48).
-/
namespace Sys2Proof.Machine

/-! ## Requests at the owner (R119, R120, R315) -/

section
variable {s : State} {f : Nat} {m : BellowsMsg} {t : Table} {b : OwnerBlock}

/-- A request at an owner block with a Bellows that takes work is served when none of its rows is missing, and otherwise waits for
those that are. -/
theorem State.request_atBlock (htable : (s.func f).table m.table = some t) (hfmt : t.fmtOk m = true) (hblock : t.block m.owner = some b)
    (hok : (List.range 20).any (s.bellowsOk b.server) = true) :
    s.request f m = if ((s.func f).missing t b m).isEmpty then s.serveReq f t b m
      else (s.fetchMissing f t b ((s.func f).missing t b m)).modFunc f fun g => { g with waitReqs := g.waitReqs ++ [m] } := by
  unfold State.request
  simp only [htable, hfmt, hblock, hok, Bool.not_true, Bool.false_eq_true, if_false, if_true]

theorem State.askRows_running (kind : Nat) (h : s.ownerStops f m = false) :
    s.askRows f kind m = (s.take f (.bellows m)).1.request f { m with kind := kind } :=
  if_neg (ne_true_of_eq_false h)

theorem State.askRows_stopped (kind : Nat) (h : s.ownerStops f m = true) : s.askRows f kind m = s := if_pos h

/-! ## Replies at the requester (R121) -/

/-- Whether an entry of a gather is open and waits for the owners' replies to which a message belongs. -/
def GatEntry.awaits (e : GatEntry) (m : BellowsMsg) : Bool := e.step = m.step && e.desc = m.desc && e.entry = m.entry && !e.done

/-- A reply to an open entry is held there, frees its place in flight, and writes the entry when it is the last. -/
theorem State.reply_held {e : GatEntry} {n : Nat} {p : Plan} (hentry : (s.func f).gather.find? (·.awaits m) = some e)
    (hplan : (s.func f).activePlan = some (n, p)) (htable : (s.func f).table m.table = some t) (hfmt : t.fmtOk m = true) :
    let e := { e with replies := e.replies ++ [m] }
    let full := e.want ≤ e.replies.length
    let v := (s.modFunc f fun g => { g with gather := g.gather.map fun y => if y.awaits m then { e with done := full } else y }).modClu
      e.die e.cluster fun c => { c with bellows := { c.bellows with inflight := c.bellows.inflight - 1 } }
    s.reply f m =
      ((if full then v.writeEntry f (p.desc m.desc) t e else v).sendNext f e.die e.cluster).settleBellows f e.die e.cluster := by
  have accepted : ((s.func f).table m.table).filter (·.fmtOk m) = some t := by rw [htable, Option.filter_some, if_pos hfmt]
  unfold GatEntry.awaits at hentry ⊢
  unfold State.reply
  simp only [hentry, hplan, accepted]

/-! ## Gradients at the owner (R129 to R131) -/

/-- Whether a gradient comes after the close of its combining, or from a requester that Chorus has decided is absent (R131). -/
def Func.isLate (g : Func) (t : Table) (m : BellowsMsg) : Bool :=
  g.combineClosed t.id m.owner m.step || (g.absent t m.step).contains m.req

/-- Whether a combining has added a gradient already. -/
def Func.hasAdded (g : Func) (t : Table) (m : BellowsMsg) : Bool :=
  match g.combine t.id m.owner m.step with
  | some c => c.added.any fun y => y.2 = m
  | none => false

section
variable (htable : (s.func f).table m.table = some t) (hfmt : t.fmtOk m = true) (hblock : t.block m.owner = some b)
  (hnew : (s.func f).hasAdded t m = false)
include htable hfmt hblock hnew

theorem State.gradIn_new :
    s.gradIn f m = if (s.func f).isLate t m then
        let v := s.cntClu b.server (s.serving b.server m.cluster) 14
        if (v.func f).lateDrop then v
        else v.modFunc f fun g => { g with lateGrads := g.lateGrads ++ [{ m with step := g.foldStep m }] }
      else s.addGrad f t b m := by
  unfold State.gradIn
  simp only [htable, hfmt, hblock, if_true]
  exact if_neg (ne_true_of_eq_false hnew)

theorem State.gradIn_inTime (h : (s.func f).isLate t m = false) : s.gradIn f m = s.addGrad f t b m :=
  (State.gradIn_new htable hfmt hblock hnew).trans (if_neg (ne_true_of_eq_false h))

theorem State.gradIn_late (h : (s.func f).isLate t m = true) :
    let v := s.cntClu b.server (s.serving b.server m.cluster) 14
    s.gradIn f m = if (v.func f).lateDrop then v
      else v.modFunc f fun g => { g with lateGrads := g.lateGrads ++ [{ m with step := g.foldStep m }] } :=
  (State.gradIn_new htable hfmt hblock hnew).trans (if_pos h)

end

/-! ## END and RESEND (R130, R132) -/

theorem exec_endMark_stopped (h : s.ownerStops f m = true) : exec (.endMark f m) s = .next s := if_pos h

/-- An END for a combining that has not closed is noted, and what it lets close closes. -/
theorem exec_endMark_noted (hruns : s.ownerStops f m = false)
    (hopen : ∀ c, ((s.take f (.bellows m)).1.func f).combine m.table m.owner m.step = some c → c.closed = false) :
    exec (.endMark f m) s = .next (((s.take f (.bellows m)).1.modFunc f fun g => g.modCombine m.table m.owner m.step fun c =>
      { c with ends := c.ends ++ [endKey m.req m.desc] }).tryCloseAll f m.table m.owner m.step) := by
  refine (if_neg (ne_true_of_eq_false hruns)).trans (if_neg ?_)
  cases found : ((s.take f (.bellows m)).1.func f).combine m.table m.owner m.step with
  | none => exact Bool.false_ne_true
  | some c => exact ne_true_of_eq_false (hopen c found)

theorem exec_resend_stopped
    (h : s.procStops (.control (s.physDie f (fld m.req 0 2)) (s.serving (s.physDie f (fld m.req 0 2)) m.cluster)) = true) :
    exec (.resend f m) s = .next s := if_pos h

/-- A RESEND sends the kept messages of its owner, table, step and requester again. -/
theorem exec_resend_again
    (hruns : s.procStops (.control (s.physDie f (fld m.req 0 2)) (s.serving (s.physDie f (fld m.req 0 2)) m.cluster)) = false)
    (htable : ((s.take f (.bellows m)).1.func f).table m.table = some t) :
    let u := (s.take f (.bellows m)).1
    exec (.resend f m) s = .next
      (((u.func f).keptGrads.filter fun y => y.1 = m.owner && y.2.table = m.table && y.2.step = m.step && y.2.req = m.req).foldl
        (fun v y => State.sendOwner v f (s.physDie f (fld m.req 0 2)) t y.1 (.bellows y.2)) u) := by
  change execResend f m s = _
  unfold execResend
  rcases htake : s.take f (.bellows m) with ⟨u, src⟩
  rw [htake] at htable
  simp only [hruns, htable, Bool.false_eq_true, if_false]

end

/-! ## Gecko (R126) -/

/-- A directory with every frequency halved, 2^20 of its accesses accounted for. -/
def Gecko.halved (g : Gecko) : Gecko :=
  { g with
    entries := g.entries.map fun e => (e.1, { e.2 with freq := e.2.freq / 2 })
    accesses := minus g.accesses (2 ^ 20)
    halvings := (g.halvings + 1) % 2 ^ 16 }

theorem exec_geckoHalve_full {s : State} {d : Nat} (h : 2 ^ 20 ≤ (s.die d).gecko.accesses) :
    exec (.geckoHalve d) s = .next (s.modGecko d Gecko.halved) :=
  congrArg Host.Outcome.next (if_pos h)

theorem State.gecko_modGecko (s : State) {d : Nat} (h : Gecko → Gecko) (hd : d < s.dies.length) :
    ((s.modGecko d h).die d).gecko = h (s.die d).gecko := congrArg Die.gecko (s.die_modDie d _ hd)

/-- Settles O48: each message, one after another, and the halving. -/
theorem bellowsMessagesAct : Obligations.BellowsMessagesAct := by
  intro s f x t b
  refine ⟨fun pool memory => ?_, fun part => ?_, ?_, fun hruns hopen => exec_endMark_noted hruns hopen, fun h => ?_,
    ⟨exec_resend_stopped, exec_resend_again⟩, fun d hd hfull => ?_⟩
  · intro m e u hruns hfmt htable hblock hok
    have served := (State.askRows_running (m := x) m.kind hruns).trans (State.request_atBlock (m := m) htable hfmt hblock hok)
    cases pool <;> exact congrArg Host.Outcome.next served
  · intro u hit e n p hentry hplan htable hfmt
    have held := State.reply_held hentry hplan htable hfmt
    cases part <;> exact congrArg Host.Outcome.next held
  · intro m u hfmt htable hblock hnew late
    exact ⟨fun h => congrArg Host.Outcome.next (State.gradIn_inTime htable hfmt hblock hnew h),
      fun h => congrArg Host.Outcome.next (State.gradIn_late htable hfmt hblock hnew h)⟩
  · exact ⟨congrArg Host.Outcome.next (State.askRows_stopped 0 h), congrArg Host.Outcome.next (State.askRows_stopped 1 h),
      exec_endMark_stopped h⟩
  · have halved := State.gecko_modGecko s Gecko.halved hd
    exact ⟨_, exec_geckoHalve_full hfull, congrArg Gecko.entries halved, (congrArg Gecko.accesses halved).trans (minus_eq _ _),
      congrArg Gecko.halvings halved, rfl, fun e he => State.die_modDie_ne _ _ (Ne.symm he)⟩

end Sys2Proof.Machine
end

section
/-!
PROOFS. Tables are created (O16), their rows written (O17) and moved (O18) by the commands of the host.
-/
namespace Sys2Proof.Machine

section
variable {s : State} {c : Submission}

theorem exec_tblCreate (h : s.starts 0x0101 c = true) :
    exec (.tblCreate c) s = .next (tblCreate' (s.sent 0x0101 c) (s.begun 0x0101 c)) :=
  congrArg Host.Outcome.next (State.zcp_starts h tblCreate')

theorem exec_rowsCommand (replace : Bool) (h : s.starts (if replace then 0x0104 else 0x0103) c = true) :
    let op := if replace then 0x0104 else 0x0103
    exec (if replace then .tblReplaceRows c else .tblWriteRows c) s = .next (rowsCommand replace (s.sent op c) (s.begun op c)) := by
  cases replace with
  | false => exact congrArg Host.Outcome.next (State.zcp_starts h (rowsCommand false))
  | true => exact congrArg Host.Outcome.next (State.zcp_starts h (rowsCommand true))

theorem exec_tblMigrate (h : s.starts 0x0106 c = true) :
    exec (.tblMigrate c) s = .next (tblMigrate' (s.sent 0x0106 c) (s.begun 0x0106 c)) :=
  congrArg Host.Outcome.next (State.zcp_starts h tblMigrate')

end

/-! ## TBL_CREATE (R136, R137, R140, R313) -/

/-- A table that the active plan does not gather from is accepted; peers are asked for the memory that it lacks. -/
theorem tblCreate'_accepted {u : State} {d : Submission} (hlen : d.paramLen = 64)
    (hidle : (u.func d.func).tableActive (at' d.params 0 1) = false) :
    let v := (u.interim d stAccepted).modFunc d.func fun g => { g with jobs := g.jobs ++ [⟨d, at' d.params 0 1, false, 0, 0⟩] }
    let T := v.readTable d.func d.params
    let n := v.tableLacks d.func T
    tblCreate' d u = if n = 0 then v else v.askPeers d.func (some d) 0 ((v.func d.func).askable T.modules T.myPos) n := by
  unfold tblCreate'
  dsimp only
  rw [if_neg (not_not_intro hlen), if_neg (ne_true_of_eq_false hidle)]

/-- The creation ends once no peer has still to answer and the scheduler runs. -/
theorem exec_tblCreateDone_finishes {s : State} {f id : Nat} {j : AsyncJob} (hjob : (s.func f).job 0x0101 id = some j)
    (hlead : s.leadStops f = false) (hasks : ((s.func f).asks.any fun a => a.sub = some j.sub && a.waits.isSome) = false) :
    exec (.tblCreateDone f id) s = .next
      (tblCreateFinish f j (s.modFunc f fun g => { g with asks := g.asks.filter fun a => a.sub ≠ some j.sub })) := by
  change execTblCreateDone f id s = _
  unfold execTblCreateDone
  simp only [hjob]
  exact if_neg (by simp [hlead, hasks])

theorem SameUnits.tables {s t : State} (h : SameUnits s t) (f : Nat) : (t.func f).tables = (s.func f).tables :=
  (congrArg Func.tables (h.func f) :)

theorem SameUnits.final {s t : State} (h : SameUnits s t) (c : Submission) (status : Nat) (detail result : List Byte) (jrn : Nat) :
    SameUnits s (t.final c status detail result jrn) := h.ite (h.deliver _ _)

/-- A table put under its number is found there. -/
theorem Func.table_inserted (g : Func) (t : Table) (l : List (Nat × Table)) (h : g.tables = SMap.insert t.id t l) :
    g.table t.id = some t := by
  unfold Func.table
  rw [h, SMap.find_insert, if_pos rfl]

section
variable {s : State} {f : Nat} {j : AsyncJob}

theorem tblCreateFinish_outOfRange (h : (s.endJob f j).tableBad f ((s.endJob f j).readTable f j.sub.params) = true) :
    tblCreateFinish f j s = (s.endJob f j).final j.sub stBadParam (leBytes 1 1) := if_pos h

variable (hok : (s.endJob f j).tableBad f ((s.endJob f j).readTable f j.sub.params) = false)
include hok

theorem tblCreateFinish_noRoom
    (hbuild : let T := (s.endJob f j).readTable f j.sub.params
      (s.endJob f j).buildTable f (.table (256 + T.id)) T = none) :
    tblCreateFinish f j s = (s.endJob f j).final j.sub stBadParam (leBytes 1 2) := by
  unfold tblCreateFinish
  simp only [hok, hbuild, Bool.false_eq_true, if_false]

/-- A table for which there is room stands under its number. -/
theorem tblCreateFinish_built {t : Table} {v : State} (hf : f < s.funcs.length)
    (hbuild : let T := (s.endJob f j).readTable f j.sub.params
      (s.endJob f j).buildTable f (.table (256 + T.id)) T = some (t, v)) :
    ((tblCreateFinish f j s).func f).table t.id = some t := by
  have kept : Keeps s (v.initRows f t) :=
    (Keeps.ofSome hbuild (.buildTable ((Keeps.refl s).endJob _ _) _ _ _)).initRows _ _
  have hlen : f < (v.initRows f t).funcs.length := by
    have shape := (List.cons.inj kept.shape).1
    omega
  unfold tblCreateFinish
  simp only [hok, hbuild, Bool.false_eq_true, if_false]
  refine Func.table_inserted _ _ (((v.initRows f t).func f).forgetTable t.id).tables ?_
  rw [((((SameUnits.refl _).dropApertures _ _).journalCmd _).final _ _ _ _ _).tables f, State.func_modFunc,
    State.func_modFunc _ _ _ hlen]
  simpa [State.modFunc, modNth_length] using hlen

end

/-- Settles O16: the command starts; its end takes the branch that the parameters and the room for the table select. -/
theorem tablesAreCreated : Obligations.TablesAreCreated := by
  refine ⟨fun s c h => ?_, fun s f id j hjob hlead hasks => ?_⟩
  · intro d u id hlen hidle
    exact (exec_tblCreate h).trans (congrArg Host.Outcome.next (tblCreate'_accepted hlen hidle))
  · have finishes := exec_tblCreateDone_finishes hjob hlead hasks
    refine ⟨fun hbad => ?_, fun hok hbuild => ?_, fun hok hf t v hbuild => ⟨_, finishes, ?_⟩⟩
    · exact finishes.trans (congrArg Host.Outcome.next (tblCreateFinish_outOfRange hbad))
    · exact finishes.trans (congrArg Host.Outcome.next (tblCreateFinish_noRoom hok hbuild))
    · exact tblCreateFinish_built hok (by simpa [State.modFunc, modNth_length] using hf) hbuild

/-! ## TBL_WRITE_ROWS and TBL_REPLACE_ROWS (R153, R154) -/

/-- The rows of a list that lie in the table go each to its owner; the others are violations. -/
theorem rowsCommand_routes {u : State} {d : Submission} {T : Table} (replace : Bool)
    (htable : (u.func d.func).table (hb d 24 1) = some T) (hpos : 1 ≤ hb d 28 4) (hmax : hb d 28 4 ≤ 2 ^ 20) :
    let f := d.func
    let n := hb d 28 4
    let first := if replace then 0 else hb d 48 2
    let count := if replace then T.elems else hb d 50 2
    1 ≤ count → first + count ≤ T.elems →
    let w := count * T.width
    let rows := (((List.range n).map fun i => fld (leNat (u.devRead f (hb d 32 8 + 8 * i) 8)) 0 40).zip
      ((List.range n).map fun i => u.devRead f (hb d 40 8 + w * i) w)).filter fun x => x.1 < T.rows
    let v := (u.cntClu ((u.upDies f).headD 0) 0 11 (n - rows.length)).violOor f (n - rows.length)
    let id := (v.func f).nextRowJob
    rowsCommand replace d u = if rows.isEmpty then v.single d stOk
      else rows.foldl (fun z x => State.routeRow z f T ⟨T.id, x.1, replace, first, count, x.2, some id⟩)
        (v.modFunc f fun g => { g with nextRowJob := id + 1, rowJobs := g.rowJobs ++ [⟨id, d, rows.length⟩] }) := by
  intro f n first count hcount hlast w rows v id
  have inRange : ¬(n = 0 || 2 ^ 20 < n || count = 0 || T.elems < first + count) = true := by
    simp only [Bool.or_eq_true, decide_eq_true_eq]
    omega
  unfold rowsCommand
  simp only [htable]
  exact if_neg inRange

/-- Settles O17: the command starts, and with its counts in range it routes its rows. -/
theorem rowCommandsRouteTheirRows : Obligations.RowCommandsRouteTheirRows := by
  intro s c replace T op h d u f n first count htable hpos hmax hcount hlast
  exact (exec_rowsCommand replace h).trans
    (congrArg Host.Outcome.next (rowsCommand_routes replace htable hpos hmax hcount hlast))

/-! ## TBL_MIGRATE (R152) -/

/-- A host migration of which no move is left ends with both its counts. -/
theorem exec_tblMigrateDone_ends {s : State} {f table : Nat} {j : AsyncJob} (hjob : (s.func f).job 0x0106 table = some j)
    (hlead : s.leadStops f = false) (hstarted : j.started = true)
    (hmigs : ((s.func f).migs.any fun m => m.table = table && m.host) = false)
    (hmoves : ((s.func f).hostMoves.any fun m => m.1 = table) = false) :
    exec (.tblMigrateDone f table) s = .next
      (((s.endJob f j).journalCmd j.sub).1.final j.sub stOk [] (leBytes 4 j.n1 ++ leBytes 4 j.n2) ((s.endJob f j).journalCmd j.sub).2) := by
  change execTblMigrateDone f table s = _
  unfold execTblMigrateDone
  simp only [hjob, hlead, hstarted, hmigs, hmoves, Bool.not_true, Bool.or_self, Bool.false_eq_true, if_false]

/-- Settles O18: the command starts, and it ends when its moves have ended. -/
theorem hostMigrationRuns : Obligations.HostMigrationRuns :=
  fun _ _ => ⟨exec_tblMigrate, fun _ _ _ => exec_tblMigrateDone_ends⟩

end Sys2Proof.Machine
end

section
/-!
PROOFS. Ports and die-to-die links retry and train, and messages are acknowledged end to end (O44).
-/
namespace Sys2Proof.Machine

/-! ## Retries and time-outs (R416, R424) -/

section
variable {s : State} {n : Nat}

theorem exec_retryLimit_port (hn : n < 24) (hup : (s.port n).state = 2) (hcount : 8 ≤ (s.port n).retryCount) :
    exec (.retryLimit n) s = .next (s.retrainPort n) :=
  (if_pos hn).trans (if_pos (by simp [hup, hcount]))

theorem exec_linkPartnerTraining (hn : n < 24) (hup : (s.port n).state = 2) (hdie : s.up (n / 6) = true) :
    exec (.linkPartnerTraining n) s = .next (s.retrainPort n) := if_pos (by simp [hn, hup, hdie])

theorem exec_linkTrainTimeout_port (hn : n < 24) (hdie : s.up (n / 6) = true)
    (htrains : (s.port n).state = 3 ∨ (s.port n).state = 1 ∧ (s.port n).noVer = false) :
    exec (.linkTrainTimeout n) s = .next (s.portDown n) := by
  refine (if_pos hn).trans (if_pos ?_)
  rcases htrains with h | ⟨h, hver⟩
  · simp [hdie, h]
  · simp [hdie, h, hver]

variable (hlo : 24 ≤ n) (hhi : n < 36)
include hlo hhi

theorem exec_retryLimit_link {seq k : Nat} (hretries : s.linkRetries.lookup n = some (seq, k)) (hk : 8 ≤ k) :
    exec (.retryLimit n) s = .next (s.linkRetrain n) :=
  (if_neg (Nat.not_lt.2 hlo)).trans (if_pos (by simp [hhi, hretries, hk]))

theorem exec_linkTrainTimeout_link (hlow : s.up (d2dLink n).1 = true) (hhigh : s.up (d2dLink n).2 = true) :
    exec (.linkTrainTimeout n) s = .next (s.linkFail n) :=
  (if_neg (Nat.not_lt.2 hlo)).trans ((if_pos hhi).trans (if_pos (Bool.and_eq_true_iff.2 ⟨hlow, hhigh⟩)))

end

/-! ## The end of a training (R419, R423, R424) -/

theorem Reports.ports_length {s t : State} (h : Reports s t) : t.ports.length = s.ports.length := by
  simpa using congrArg List.length h.states

theorem Reports.sendHeld {s t : State} (h : Reports s t) (f : Nat) : Reports s (t.sendHeld f) := by
  unfold State.sendHeld
  refine .foldl _ h fun u m => ?_
  split
  next v p e =>
    have queued : Reports u v := .fst e ((Reports.refl u).queueOut m _)
    exact queued.ite (queued.modFunc f _)

/-- A port without the messages that wait at it. -/
def Port.unqueued (p : Port) : Port := { p with queues := [] }

theorem State.modPort_unqueued (s : State) (n : Nat) {g : Port → Port} (hg : ∀ q, (g q).unqueued = q.unqueued) :
    (s.modPort n g).ports.map Port.unqueued = s.ports.map Port.unqueued := modNth_map Port.unqueued hg n s.ports

theorem State.queueOut_unqueued (s : State) (m : Sent) (b : List Byte) :
    (s.queueOut m b).1.ports.map Port.unqueued = s.ports.map Port.unqueued := by
  unfold State.queueOut
  dsimp only
  split
  · exact s.modPort_unqueued _ fun _ => rfl
  · rfl

/-- Messages that were held are queued at ports, which change in nothing else. -/
theorem State.sendHeld_unqueued (s : State) (f n : Nat) : ((s.sendHeld f).port n).unqueued = (s.port n).unqueued := by
  have ports : (s.sendHeld f).ports.map Port.unqueued = s.ports.map Port.unqueued := by
    unfold State.sendHeld
    refine List.foldlRecOn (motive := fun u : State => u.ports.map Port.unqueued = s.ports.map Port.unqueued) _ _ rfl fun u h m _ => ?_
    have queued := (u.queueOut_unqueued m (u.sentBytes m)).trans h
    split
    next v p e =>
      rw [e] at queued
      split <;> exact queued
  unfold State.port
  rw [← List.getD_map (f := Port.unqueued), ports, List.getD_map]

/-- After a change of a port and the leaving of what was held, the port is as the change makes it, but for its queues. -/
theorem State.port_sendHeld (s : State) (f : Nat) {n : Nat} (g : Port → Port) (hn : n < s.ports.length) :
    (((s.modPort n g).sendHeld f).port n).unqueued = (g (s.port n)).unqueued :=
  ((s.modPort n g).sendHeld_unqueued f n).trans (congrArg Port.unqueued (s.port_modPort n g hn))

/-- A port that has come up with a version and a partner. -/
def Port.joined (v : Nat) (p : Partner) (q : Port) : Port :=
  { q with
    state := 2, ver := v, lanesRev := p.lanesRev % 16, reversed := p.reversed, partner := p.ident
    credits := (List.range 8).map (p.credits.getD · 0), creditOwed := List.replicate 8 0
    ackOwed := none, noVer := false, retryOwed := false, retrying := false, retryCount := 0 : Port }.renumber

section
variable {s : State} {n : Nat} {p : Partner} (hn : n < 24) (hen : (s.port n).en = true)
  (htrains : (s.port n).state = 1 ∨ (s.port n).state = 3)
include hn hen htrains

theorem State.trained_runs : (!(s.port n).en || !((s.port n).state = 1 || (s.port n).state = 3) || 24 ≤ n) = false := by
  rcases htrains with h | h <;> simp [hen, hn, h]

/-- A version that both ends have brings the port up, and what was held for it leaves. -/
theorem State.trained_joins (hone : 1 ≤ min s.rwHigh p.hi) (hlo : p.lo ≤ min s.rwHigh p.hi) :
    let v := ((s.put (.flit n (s.trainFlit n))).cntPort n 0).modPort n (.joined (min s.rwHigh p.hi) p)
    s.trained n p = v.sendHeld (v.fnOf (n / 6)) := by
  have common : ¬((min s.rwHigh p.hi < 1 || min s.rwHigh p.hi < p.lo) = true) := by
    simp only [Bool.or_eq_true, decide_eq_true_eq]
    omega
  unfold State.trained
  dsimp only
  rw [if_neg (ne_true_of_eq_false (State.trained_runs hn hen htrains)), if_neg common]
  rfl

theorem exec_linkTrainDone_joins (hone : 1 ≤ min s.rwHigh p.hi) (hlo : p.lo ≤ min s.rwHigh p.hi) :
    ∃ t, exec (.linkTrainDone n p) s = .next t ∧ (s.ports.length = 24 → (t.port n).state = 2 ∧ (t.port n).ver = min s.rwHigh p.hi ∧
      (t.port n).partner = p.ident ∧ (t.port n).rxSeq = 0) ∧ t.cores = s.cores ∧ t.fw = s.fw := by
  refine ⟨_, congrArg Host.Outcome.next (State.trained_joins hn hen htrains hone hlo), ?_⟩
  have counted : Reports s ((s.put (.flit n (s.trainFlit n))).cntPort n 0) := ((Reports.refl s).put _).cntPort n 0 1
  generalize (s.put (.flit n (s.trainFlit n))).cntPort n 0 = u at counted
  obtain ⟨-, -, cores, -, fw, -⟩ := counted.serves
  obtain ⟨-, -, cores', -, fw', -⟩ := ((Reports.refl (u.modPort n (.joined (min s.rwHigh p.hi) p))).sendHeld
    ((u.modPort n (.joined (min s.rwHigh p.hi) p)).fnOf (n / 6))).serves
  refine ⟨fun hlen => ?_, cores'.trans cores, fw'.trans fw⟩
  have up (f : Nat) := u.port_sendHeld f (.joined (min s.rwHigh p.hi) p) (by rw [counted.ports_length, hlen]; exact hn)
  exact ⟨congrArg Port.state (up _), congrArg Port.ver (up _), congrArg Port.partner (up _), congrArg Port.rxSeq (up _)⟩

/-- Without a version that both ends have, the port goes on training, and that may be counted. -/
theorem State.trained_versionless (hnone : min s.rwHigh p.hi < 1 ∨ min s.rwHigh p.hi < p.lo) :
    ∃ g : Port → Port, (∀ q, (g q).state = 1) ∧ Reports (s.modPort n g) (s.trained n p) := by
  unfold State.trained
  dsimp only
  rw [if_neg (ne_true_of_eq_false (State.trained_runs hn hen htrains)), if_pos (by simpa using hnone)]
  exact ⟨_, fun _ => rfl, ((Reports.refl _).cntPort n 9 1).ite (.refl _)⟩

theorem exec_linkTrainDone_versionless (hnone : min s.rwHigh p.hi < 1 ∨ min s.rwHigh p.hi < p.lo) :
    ∃ t, exec (.linkTrainDone n p) s = .next t ∧ (s.ports.length = 24 → (t.port n).state = 1) ∧ t.cores = s.cores ∧ t.fw = s.fw := by
  obtain ⟨g, training, waits⟩ := State.trained_versionless hn hen htrains hnone
  obtain ⟨-, -, cores, -, fw, -⟩ := waits.serves
  refine ⟨_, rfl, fun hlen => ?_, cores, fw⟩
  rw [waits.portState, State.port_modPort _ _ _ (hlen ▸ hn), training]

end

/-! ## Acknowledgement and retransmission (R153, R421) -/

/-- A message that no acknowledgement has come for is sent again, by a port that counts it. -/
theorem exec_e2eRetransmit_again {s : State} {f dest seq : Nat} {m : Sent}
    (hsent : (s.func f).ep.unacked.find? (fun m => m.dest = dest && m.vc = 0 && m.seq = seq) = some m) (hpeer : s.endpointOf dest = none) :
    let r := s.queueOut m (s.sentBytes m)
    let u := r.1.modFunc f fun g => { g with ep := { g.ep with unacked := g.ep.unacked.map fun x => if x = m then { m with port := r.2 } else x } }
    exec (.e2eRetransmit f dest seq) s = .next (match r.2 with
      | some p => u.cntPort p 12
      | none => u) := by
  dsimp only
  change execE2eRetransmit f dest seq s = _
  unfold execE2eRetransmit
  simp only [hsent, hpeer, Option.isSome_none, Bool.false_eq_true, if_false]
  rcases s.queueOut m (s.sentBytes m) with ⟨v, _ | p⟩ <;> rfl

/-- Settles O44: each event, one after another. -/
theorem portsTrainAndMessagesAreAcknowledged : Obligations.PortsTrainAndMessagesAreAcknowledged := by
  intro s
  refine ⟨fun n hn hup => ⟨exec_retryLimit_port hn hup, exec_linkPartnerTraining hn hup⟩, fun n => exec_linkTrainTimeout_port,
    fun n hlo hhi ha hb => ⟨exec_linkTrainTimeout_link hlo hhi ha hb, fun seq k => exec_retryLimit_link hlo hhi⟩,
    fun n p hn hen htrains => ⟨exec_linkTrainDone_joins hn hen htrains, exec_linkTrainDone_versionless hn hen htrains⟩,
    fun f src seq => rfl, fun f dest seq m => exec_e2eRetransmit_again⟩

end Sys2Proof.Machine
end

section
/-!
PROOFS. The steps of a row's migration, and the messages that serve a row which has moved (O49).
-/
namespace Sys2Proof.Machine

/-- Where no move of a row holds its writes, the test of the move that there may be fails. -/
theorem Mig.notHolding (o : Option Mig) : (∀ x, o = some x → x.holding = false) →
    (match o with | some x => x.holding | none => false) = false := by
  intro h
  cases o with
  | none => rfl
  | some x => exact h x rfl

theorem Table.homeMove_iff {t : Table} {r o sh : Nat} : t.homeMove r o sh = true ↔ (t.home r).1 = o ∧ (t.home r).2.1 = sh := by
  simp [Table.homeMove]

/-- An update of a table that is there, and that is not known, is recorded. -/
theorem Func.recordLoc_new {g : Func} {l : Loc} (htable : (g.table l.table).isSome = true)
    (hnew : (g.locPending.contains (l.eff, l) || g.locs.contains l) = false) :
    g.recordLoc l = { g with locPending := g.locPending ++ [(l.eff, l)] } :=
  if_neg (by rw [hnew, Bool.false_or, Option.isNone_iff_eq_none]; exact Option.isSome_iff_ne_none.1 htable)

/-- Changes of an element that agree on what it is are one. -/
theorem modNth_congr {α : Type} {g h : α → α} {i : Nat} {l : List α} {d : α} (e : g (l.getD i d) = h (l.getD i d)) :
    modNth g i l = modNth h i l := by
  induction l generalizing i with
  | nil => cases i <;> rfl
  | cons x l ih =>
    cases i with
    | zero => exact congrArg (· :: l) e
    | succ i => exact congrArg (x :: ·) (ih e)

/-- Changes of a function that agree on what it is are one. -/
theorem State.modFunc_congr (s : State) (f : Nat) {g h : Func → Func} (e : g (s.func f) = h (s.func f)) :
    s.modFunc f g = s.modFunc f h := congrArg (fun l => { s with funcs := l }) (modNth_congr e)

section
variable {s : State} {f : Nat} {m : TableMsg} {t : Table} {b : OwnerBlock} (hcomes : s.comes f (.tableMaint m) = true)
include hcomes

/-! ## The old owner (Table 6.4, steps 1 to 3) -/

/-- A row that is here and moves nowhere is marked, and a slot is asked for. -/
theorem exec_move_marks (htable : ((s.take f (.tableMaint m)).1.func f).table m.table = some t) (hblock : t.block m.oldOwner = some b)
    (hhere : ((s.take f (.tableMaint m)).1.func f).away t m.oldOwner m.row = false)
    (hrests : ((s.take f (.tableMaint m)).1.func f).migOf t.id m.oldOwner m.row = none) (hrow : m.row < t.rows) :
    let u := (s.take f (.tableMaint m)).1
    exec (.move f m) s = .next ((u.modFunc f fun g =>
        { g with
          migs := g.migs ++ [⟨t.id, m.row, m.oldOwner, m.newOwner, m.shard, none, 0, false, false, [], (u.func f).hostMoves.contains (t.id, m.row), m.step⟩]
          hostMoves := g.hostMoves.filter (· ≠ (t.id, m.row)) }).sendOwner f b.server t m.newOwner
      (.tableMaint { m with kind := 1, lastRound := false, held := false, payload := [] })) := by
  change execMove f m s = _
  unfold execMove
  simp only [hcomes, htable, hblock, Bool.not_true, Bool.false_eq_true, if_false]
  exact if_neg (by simp [hhere, hrests, hrow])

/-- A slot that has been reserved begins the first copy round of a row that is at hand. -/
theorem exec_reserveAck_copies {x : Mig} (htable : (s.func f).table m.table = some t)
    (hmig : (s.func f).migOf m.table m.oldOwner m.row = some x) (hblock : t.block m.oldOwner = some b) (hslot : x.slot = none)
    (himage : s.imageWait f t b m.row = none) :
    let y := { x with slot := some m.slot, round := 1, dirty := false }
    exec (.reserveAck f m) s = .next
      (((s.take f (.tableMaint m)).1.modFunc f fun g => g.modMig t.id m.oldOwner m.row fun _ => y).sendCopy f t b y 3) := by
  change execReserveAck f m s = _
  unfold execReserveAck
  simp only [hcomes, htable, hmig, hblock, hslot, himage, Bool.not_true, Bool.false_eq_true, if_false]

section
variable (htable : (s.func f).table m.table = some t) (hblock : t.block m.newOwner = some b)
include htable hblock

/-! ## The new owner's slot (R149, R150) -/

/-- A row that comes home takes its home slot. -/
theorem exec_reserve_home (h : t.homeMove m.row m.newOwner m.shard = true) :
    exec (.reserve f m) s = .next ((s.take f (.tableMaint m)).1.sendOwner f b.server t m.oldOwner
      (.tableMaint { m with kind := 2, slot := homeMark, payload := [] })) := by
  change execReserve f m s = _
  unfold Table.homeMove at h
  unfold execReserve
  simp only [hcomes, htable, hblock, h, Bool.not_true, Bool.false_eq_true, if_false, if_true]

/-- A row that comes from elsewhere takes the lowest free migration slot of its shard. -/
theorem exec_reserve_slot (h : t.homeMove m.row m.newOwner m.shard = false) {k : Nat} (hfree : t.freeMig m.newOwner m.shard = some k) :
    exec (.reserve f m) s = .next (((s.take f (.tableMaint m)).1.modFunc f fun g =>
      g.modTable t.id fun t => { t with migUsed := t.migUsed ++ [(m.newOwner, m.shard, k)] }).sendOwner f b.server t m.oldOwner
        (.tableMaint { m with kind := 2, slot := k, payload := [] })) := by
  change execReserve f m s = _
  unfold Table.homeMove at h
  unfold execReserve
  simp only [hcomes, htable, hblock, h, hfree, Bool.not_true, Bool.false_eq_true, if_false]

/-- A shard without a free migration slot keeps its RESERVE waiting (log 24). -/
theorem exec_reserve_waits (h : t.homeMove m.row m.newOwner m.shard = false) (hfull : t.freeMig m.newOwner m.shard = none) :
    exec (.reserve f m) s = .next s := by
  change execReserve f m s = _
  unfold Table.homeMove at h
  unfold execReserve
  simp only [hcomes, htable, hblock, h, hfull, Bool.not_true, Bool.false_eq_true, if_false]

/-! ## Writes and fetches at the new owner (R148, R149, R151, R156) -/

/-- The write that a FWD_WRITE for a table carries. -/
def Table.written (t : Table) (m : TableMsg) : RowWrite :=
  ⟨t.id, m.row, at' m.payload 4 4 = t.elems, at' m.payload 0 4, at' m.payload 4 4,
    (m.payload.drop 8).take (at' m.payload 4 4 * t.width), none⟩

/-- A forwarded write whose slot is not reserved for its row is one at the owner. -/
theorem exec_fwdWrite_passed (h : (s.func f).reserved t m = false) : exec (.fwdWrite f m) s = .next
    (((s.take f (.tableMaint m)).1.ownerWrite f t m.newOwner (t.written m)).settleFrom f (s.take f (.tableMaint m)).2 (tableMsgEncode m)) := by
  change execFwdWrite f m s = _
  unfold execFwdWrite
  simp only [hcomes, htable, hblock, h, Bool.not_true, Bool.not_false, Bool.false_eq_true, if_false, if_true]
  rfl

theorem exec_fwdWrite_waits (h : (s.func f).reserved t m = true) (hu : (s.func f).uWriting t = true) :
    exec (.fwdWrite f m) s = .next s := by
  change execFwdWrite f m s = _
  unfold execFwdWrite
  simp only [hcomes, htable, hblock, h, hu, Bool.true_or, Bool.not_true, Bool.false_eq_true, if_false, if_true]

/-- A forwarded write to the slot reserved for its row is applied there when neither U, a hold nor a reader stands against it. -/
theorem exec_fwdWrite_puts (h : (s.func f).reserved t m = true) (hu : (s.func f).uWriting t = false)
    (hhold : ∀ x, (s.func f).migOf t.id m.newOwner m.row = some x → x.holding = false)
    (hread : s.readBusy f t b m.shard (t.slotIndex m.row m.slot) (t.written m) = false) :
    exec (.fwdWrite f m) s = .next
      (((((s.take f (.tableMaint m)).1.rowPut f t b m.shard (t.slotIndex m.row m.slot) (t.written m)).modFunc f fun g =>
        g.modMig t.id m.newOwner m.row fun x => { x with dirty := true })).settleFrom f (s.take f (.tableMaint m)).2
          (tableMsgEncode m)) := by
  change execFwdWrite f m s = _
  unfold Table.written at hread
  unfold execFwdWrite
  simp only [hcomes, htable, hblock, h, hu, hread, Bool.false_or, Bool.or_false, Bool.not_true, Bool.false_eq_true, if_false]
  exact if_neg (ne_true_of_eq_false (Mig.notHolding _ hhold))

/-- A fetch of a row that has left, and has no slot reserved here, goes where the row went. -/
theorem exec_fwdFetch_passed (h : (s.func f).reserved t m = false) (haway : (s.func f).away t m.newOwner m.row = true) :
    let x := (s.func f).awayAt t m.newOwner m.row
    exec (.fwdFetch f m) s = .next (((s.take f (.tableMaint m)).1.cntDie b.server 11).sendOwner f b.server t x.1
      (.tableMaint { m with newOwner := x.1, shard := x.2.1, slot := x.2.2 })) := by
  change execFwdFetch f m s = _
  unfold execFwdFetch
  simp only [hcomes, htable, hblock, h, haway, Bool.not_true, Bool.not_false, Bool.and_self, Bool.false_eq_true, if_false, if_true]

/-- A fetch of a row that stands here and is at hand is answered with the row. -/
theorem exec_fwdFetch_answers (h : (s.func f).reserved t m = true ∨ (s.func f).away t m.newOwner m.row = false) :
    let i := t.slotIndex m.row m.slot
    let k := t.slotKey b m.shard i (t.isFlipped b.owner m.shard i)
    let r := (s.take f (.tableMaint m)).1.slotRead f t b m.shard i t.rowBytes
    (s.func f).atHand k t.id m.row = true → exec (.fwdFetch f m) s = .next
      ((r.2.modFunc f fun g => if k < apBase then g else g.dropRow t.id m.row).sendOwner f b.server t m.oldOwner
        (.tableMaint { m with kind := 9, payload := r.1 })) := by
  intro i k r hhand
  have stands : (!(s.func f).reserved t m && (s.func f).away t m.newOwner m.row) = false := by
    rcases h with h | h <;> simp [h]
  change execFwdFetch f m s = _
  unfold execFwdFetch
  simp only [hcomes, htable, hblock, stands, hhand, Bool.not_true, Bool.false_eq_true, if_false, i, k]
  rfl

end

/-- A copy writes the slot named, and the row that it brings is no longer poisoned there. -/
theorem exec_copy_stores (final : Bool) (hblock : t.block m.newOwner = some b)
    (htable : ((s.take f (.tableMaint m)).1.func f).table m.table = some t) :
    let i := t.slotIndex m.row m.slot
    exec (if final then .finalCopy f m else .copy f m) s = .next
      (((s.take f (.tableMaint m)).1.modFunc f fun g => (g.unpoison t.id m.newOwner m.shard i).modTable t.id fun t =>
        { t with flipped := t.flipped.erase (m.newOwner, m.shard, i) }).slotWrite t b m.shard i false 0 (m.payload.take t.stride)) := by
  intro i
  have stored : exec (if final then .finalCopy f m else .copy f m) s = .next ((s.take f (.tableMaint m)).1.storeCopy f m) := by
    cases final <;> exact congrArg Host.Outcome.next (if_pos hcomes)
  refine stored.trans (congrArg Host.Outcome.next ?_)
  unfold State.storeCopy
  simp only [htable, hblock]
  rfl

/-! ## Replies, listings and location updates (R147, R148, R150) -/

theorem exec_fwdReply : exec (.fwdReply f m) s = .next
    (((s.take f (.tableMaint m)).1.modFunc f fun g => { g with fwdRows := g.fwdRows ++ [⟨m.table, m.row, m.payload⟩] }).retryRequests f) :=
  if_neg (by rw [hcomes]; decide)

theorem exec_fwdEnd : exec (.fwdEnd f m) s = .next
    (((s.take f (.tableMaint m)).1.modFunc f fun g => g.modCombine m.table m.newOwner m.step fun c =>
      { c with stubsOwed := c.stubsOwed.erase m.oldOwner }).tryClose f m.table m.newOwner m.step) :=
  if_neg (by rw [hcomes]; decide)

/-- Forwarded listings of rows that the new owner knows are listings at it, and the stub they came by owes its end. -/
theorem exec_fwdGrad_lists (hknown : ∀ t, (s.func f).table m.table = some t → ∀ r, r ∈ (bellowsParse m.payload).rows →
      ((s.func f).slotAt t m.newOwner r).isSome = true ∨ ((s.func f).stub t.id m.newOwner r).isSome = true) :
    exec (.fwdGrad f m) s = .next (((s.take f (.tableMaint m)).1.modFunc f fun g => g.modCombine m.table m.newOwner m.step fun c =>
      if c.stubsOwed.contains m.oldOwner then c else { c with stubsOwed := c.stubsOwed ++ [m.oldOwner] }).gradIn f
        { bellowsParse m.payload with owner := m.newOwner, step := m.step } true) := by
  have known : (match (s.func f).table m.table with
      | some t => (bellowsParse m.payload).rows.all fun r =>
        ((s.func f).slotAt t m.newOwner r).isSome || ((s.func f).stub t.id m.newOwner r).isSome
      | none => true) = true := by
    cases htable : (s.func f).table m.table with
    | none => rfl
    | some t => exact List.all_eq_true.2 fun r hr => (Bool.or_eq_true _ _).mpr (hknown t htable r hr)
  exact if_neg (by rw [hcomes, Bool.not_true, Bool.false_or]; exact ne_true_of_eq_false (congrArg not known))

/-- A location update of a table that is there, and that is not known, is kept, and what waited for it goes on. -/
theorem exec_locUpdate_records :
    let u := (s.take f (.tableMaint m)).1
    let l := { Loc.parse m.payload with eff := m.step }
    ((u.func f).table l.table).isSome = true → ((u.func f).locPending.contains (m.step, l) || (u.func f).locs.contains l) = false →
    exec (.locUpdate f m) s = .next ((((u.modFunc f fun g => { g with locPending := g.locPending ++ [(m.step, l)] }).retryRequests f).startJobs
      f false).startJobs f true) := by
  intro u l htable hnew
  have recorded : s.locUpdate f m = u.modFunc f fun g => { g with locPending := g.locPending ++ [(m.step, l)] } :=
    State.modFunc_congr u f (Func.recordLoc_new htable hnew)
  refine (if_neg (by rw [hcomes]; decide)).trans ?_
  rw [recorded]

end

/-! ## The end of a round (R147, steps 4 to 6) -/

/-- A move whose slot is reserved switches when its row stands still or is held; otherwise another round begins, and after the third the
hold with the final copy. -/
theorem exec_migrationRoundEnd {s : State} {f table row : Nat} {t : Table} {b : OwnerBlock} {x : Mig} {k : Nat}
    (htable : (s.func f).table table = some t) (hmig : (s.func f).migs.find? (fun x => x.table = table && x.row = row) = some x)
    (hblock : t.block x.oldOwner = some b) (hslot : x.slot = some k) (himage : x.dirty = true → s.imageWait f t b row = none) :
    let change (y : Mig) : State := s.modFunc f fun g => g.modMig table x.oldOwner row fun _ => y
    exec (.migrationRoundEnd f table row) s = .next
      (if x.holding || !x.dirty then s.switchRow f t b x
      else if x.round < 3 then
        ((change { x with round := x.round + 1, dirty := false }).cntDie b.server 9).sendCopy f t b { x with round := x.round + 1, dirty := false } 3
      else ((change { x with holding := true, dirty := false }).cntDie b.server 10).sendCopy f t b { x with holding := true, dirty := false } 4) := by
  intro change
  change execMigrationRoundEnd f table row s = _
  unfold execMigrationRoundEnd
  have hand : (if x.dirty then s.imageWait f t b row else none) = none := by
    cases hdirty : x.dirty with
    | false => rfl
    | true => exact himage hdirty
  simp only [htable, hmig, hblock, hslot, hand, Option.isSome_none, Bool.false_eq_true, if_false]
  cases hhold : x.holding with
  | true => rfl
  | false =>
    cases hdirty : x.dirty with
    | false => rfl
    | true => exact (apply_ite Host.Outcome.next _ _ _).symm

/-! ## Routed rows (R151, R153) -/

section
variable {s : State} {f : Nat} {r : RoutedRow} {t : Table} (hcomes : s.comes f (.routed r) = true)
  (htable : (s.func f).table r.table = some t)
include hcomes htable

/-- A routed row outside its table is a violation. -/
theorem exec_routedRowWrite_outOfRange (hrow : t.rows ≤ r.row) :
    exec (.routedRowWrite f r) s = .next ((s.take f (.routed r)).1.violOor f) := by
  change execRoutedRowWrite f r s = _
  unfold execRoutedRowWrite
  simp only [hcomes, htable, hrow, Nat.not_lt.2 hrow, decide_false, Bool.false_and, Bool.not_true, Bool.false_eq_true, if_false, if_true]

theorem exec_routedRowWrite_waits (hrow : r.row < t.rows) (hhere : (t.block ((s.func f).locate t r.row).1).isSome = true)
    (hheld : (s.func f).holdsWrite t ((s.func f).locate t r.row).1 r.row = true) : exec (.routedRowWrite f r) s = .next s := by
  change execRoutedRowWrite f r s = _
  unfold execRoutedRowWrite
  simp only [hcomes, htable, hrow, hhere, hheld, decide_true, Bool.and_self, Bool.not_true, Bool.false_eq_true, if_false, if_true]

/-- A routed row that nothing holds goes to its owner; one that is not here is counted as passed on. -/
theorem exec_routedRowWrite_routes (hrow : r.row < t.rows)
    (hfree : (t.block ((s.func f).locate t r.row).1).isNone = true ∨
      (s.func f).holdsWrite t ((s.func f).locate t r.row).1 r.row = false) :
    let v := (s.take f (.routed r)).1
    exec (.routedRowWrite f r) s = .next
      (((if (t.block ((s.func f).locate t r.row).1).isNone then v.cntDie ((v.upDies f).headD 0) 11 else v).routeRow f t
        ⟨r.table, r.row, r.replace, r.first, r.count, r.data, none⟩).settleFrom f (s.take f (.routed r)).2 (WireMsg.routed r).bytes) := by
  have goes : (decide (r.row < t.rows) && (t.block ((s.func f).locate t r.row).1).isSome &&
      (s.func f).holdsWrite t ((s.func f).locate t r.row).1 r.row) = false := by
    rcases hfree with h | h
    · rw [Option.isNone_iff_eq_none.1 h, Option.isSome_none, Bool.and_false, Bool.false_and]
    · rw [h, Bool.and_false]
  change execRoutedRowWrite f r s = _
  unfold execRoutedRowWrite
  simp only [hcomes, htable, goes, Nat.not_le.2 hrow, Bool.not_true, Bool.false_eq_true, if_false]

end

/-- Settles O49: each message and event, one after another. -/
theorem migrationMovesRows : Obligations.MigrationMovesRows := by
  intro s f m t b u src hcomes
  refine ⟨fun htable hblock => ⟨fun hhere hrests hrow => exec_move_marks hcomes htable hblock hhere hrests hrow,
      fun x ht hmig hslot himage => exec_reserveAck_copies hcomes ht hmig hblock hslot himage⟩, fun htable hblock => ?_,
    exec_fwdReply hcomes, exec_fwdEnd hcomes, exec_fwdGrad_lists hcomes, exec_locUpdate_records hcomes,
    fun x k ht hmig hblock hslot himage => exec_migrationRoundEnd ht hmig hblock hslot himage, fun r hr ht =>
      ⟨exec_routedRowWrite_outOfRange hr ht, exec_routedRowWrite_waits hr ht, exec_routedRowWrite_routes hr ht⟩⟩
  intro i home
  have elsewhere (h : ¬home) : t.homeMove m.row m.newOwner m.shard = false :=
    Bool.eq_false_iff.2 (mt Table.homeMove_iff.1 h)
  exact ⟨fun h => exec_reserve_home hcomes htable hblock (Table.homeMove_iff.2 h),
    fun h k hfree => exec_reserve_slot hcomes htable hblock (elsewhere h) hfree,
    fun h hfull => exec_reserve_waits hcomes htable hblock (elsewhere h) hfull,
    fun final ht => exec_copy_stores hcomes final hblock ht,
    ⟨exec_fwdWrite_passed hcomes htable hblock, exec_fwdWrite_waits hcomes htable hblock, exec_fwdWrite_puts hcomes htable hblock⟩,
    exec_fwdFetch_passed hcomes htable hblock, exec_fwdFetch_answers hcomes htable hblock⟩

end Sys2Proof.Machine
end

section
/-!
PROOFS. Reads that clear a field, and registers that start something when they are written (O34).
-/
namespace Sys2Proof.Machine

/-! ## Reads that clear (R227, R307, R450) -/

/-- The state after a register is read: the two registers of class RC clear what they read. -/
def State.afterRead (s : State) (f : Nat) : RegBlk → Nat → State
  | .cnt, 0x10 => s.ctrClear f (s.func f).cntSel
  | .vec i, 0x10 => s.modVec i fun x => { x with used := false }
  | _, _ => s

section
variable {s : State} {f off o i : Nat} {b : RegBlk} {v : Word}

/-- A register read at a register that is there. -/
theorem State.regRead_at (hf : s.fns.contains f = true) (h8 : off % 8 = 0) (hp : s.place f off = some (b, o))
    (ha : s.absentBlk b = false) (hv : s.regValue f b o = some v) (hd : ∀ d, b.die? = some d → (s.die d).powered = true) :
    s.regRead f off 8 = (v, s.afterRead f b o) := by
  unfold State.regRead
  simp only [hf, h8, hp, ha, hv, Bool.not_true, Bool.false_eq_true, ne_eq, not_true_eq_false, decide_false, Bool.or_self,
    Bool.false_and, if_false]
  rw [if_neg (by
    cases e : b.die? with
    | none => simp
    | some d => simp [hd d e])]
  split
  · rfl
  · rfl
  next hcnt hvec => rw [State.afterRead.eq_3 s f b o hcnt hvec]

theorem State.hostRead_at (hlive : s.live = true) (hf : s.fns.contains f = true) (h8 : off % 8 = 0)
    (hp : s.place f off = some (b, o)) (ha : s.absentBlk b = false) (hv : s.regValue f b o = some v)
    (hd : ∀ d, b.die? = some d → (s.die d).powered = true) :
    s.hostRead f off = (s.afterRead f b o).put (.readData v.toNat 8) := by
  unfold State.hostRead
  rw [if_pos hlive, State.regRead_at hf h8 hp ha hv hd]

theorem exec_cntValrcRead (hlive : s.live = true) (hf : s.fns.contains f = true) : exec (.cntValrcRead f) s =
    .next ((s.ctrClear f (s.func f).cntSel).put (.readData (s.ctrAt f (s.func f).cntSel % 2 ^ 64) 8)) :=
  congrArg Host.Outcome.next (State.hostRead_at (b := .cnt) (o := 0x10) hlive hf rfl rfl rfl rfl fun _ e => nomatch e)

/-- The function of a die numbers it so that the number leads back to it (R24). -/
theorem State.physDie_locDie (s : State) (d : Nat) : s.physDie (s.fnOf d) (s.locDie d) = d := by
  unfold State.physDie State.fnOf State.locDie
  split <;> rfl

theorem State.locDie_lt {d : Nat} (h : d < 4) : s.locDie d < if s.quad then 1 else 4 := by
  unfold State.locDie
  split
  · exact Nat.one_pos
  · exact h

theorem State.fns_contains_fnOf {d : Nat} (h : d < 4) : s.fns.contains (s.fnOf d) = true := by
  unfold State.fns State.fnOf
  cases s.quad with
  | false => rfl
  | true =>
    have listed : d = 0 ∨ d = 1 ∨ d = 2 ∨ d = 3 := by omega
    simpa using listed

theorem coreId_of_core (i : Nat) : coreId (coreDie i) (coreClu i) (i % 8) = i := by
  unfold coreId coreDie coreClu
  omega

/-- The vector engine's block is the last of the four that a core has (Table 13.4). -/
theorem dieBlk_vec {d c k : Nat} (hc : c < 20) (hk : k < 8) (ho : o < 0x1000) :
    dieBlk d (0x100000 + 0x80000 * c + 0x40000 + 0x8000 * k + 0x3000 + o) = some (.vec (coreId d c k), o) := by
  have cluster : (0x80000 * c + 0x40000 + 0x8000 * k + 0x3000 + o) / 0x80000 = c := by omega
  have within : (0x80000 * c + 0x40000 + 0x8000 * k + 0x3000 + o) % 0x80000 = 0x40000 + (0x8000 * k + 0x3000 + o) := by omega
  have core : (0x8000 * k + 0x3000 + o) / 0x8000 = k := by omega
  have block : (0x8000 * k + 0x3000 + o) % 0x8000 = 0x3000 + o := by omega
  have third : (0x3000 + o) / 0x1000 = 3 := by omega
  have offset : (0x40000 + (0x8000 * k + 0x3000 + o)) % 0x1000 = o := by omega
  have start : 0x100000 + 0x80000 * c + 0x40000 + 0x8000 * k + 0x3000 + o
      = 0x100000 + (0x80000 * c + 0x40000 + 0x8000 * k + 0x3000 + o) := by omega
  unfold dieBlk
  simp only [minus_eq, start, Nat.add_sub_cancel_left, cluster, within, core, block, third, offset]
  rw [if_neg (by omega), if_neg (by simp; omega), if_pos (by simp; omega), if_neg (by omega), if_pos (by omega), if_pos (by omega)]

theorem State.place_vec (hi : i < 640) (ho : o < 0x1000) :
    s.place (s.fnOf (coreDie i)) (s.coreBase i + 0x3000 + o) = some (.vec i, o) := by
  have die : coreDie i < 4 := Nat.div_lt_of_lt_mul hi
  have cluster : coreClu i < 20 := by
    unfold coreClu
    omega
  have address : s.coreBase i + 0x3000 + o = 0x400000 + 0xC00000 * s.locDie (coreDie i) +
      (0x100000 + 0x80000 * coreClu i + 0x40000 + 0x8000 * (i % 8) + 0x3000 + o) := by
    unfold State.coreBase State.dieBase
    omega
  rw [address, State.place_die (State.locDie_lt die) (by omega), State.physDie_locDie,
    dieBlk_vec cluster (Nat.mod_lt i (by decide)) ho, coreId_of_core]

theorem exec_vecRngstatRead (hlive : s.live = true) (hi : i < 640) (hthere : s.coreState i ≠ 0)
    (hpower : (s.die (coreDie i)).powered = true) : exec (.vecRngstatRead i) s =
    .next ((s.modVec i fun x => { x with used := false }).put (.readData (b2n (s.core i).vec.used) 8)) := by
  have aligned : (s.coreBase i + 0x3000 + 0x10) % 8 = 0 := by
    unfold State.coreBase State.dieBase
    omega
  have value : (pack [bitAt (s.core i).vec.used 0]).toNat = b2n (s.core i).vec.used := by
    cases (s.core i).vec.used <;> rfl
  have read := State.hostRead_at (b := .vec i) (o := 0x10) hlive (State.fns_contains_fnOf (Nat.div_lt_of_lt_mul hi)) aligned
    (State.place_vec hi (by decide)) (decide_eq_false hthere) rfl fun d e => Option.some.inj e ▸ hpower
  rw [value] at read
  change Host.Outcome.next _ = _
  rw [if_pos hi]
  exact congrArg Host.Outcome.next read

end

/-! ## Registers that start something (R185, R296, R308) -/

section
variable {s : State}

/-- GKO_CTL.FLUSH reaches the directory of a die that the function has and that is in service. -/
theorem exec_gkoFlush {f die : Nat} (hquad : s.quad = true → die = 0) (hup : s.up (s.physDie f die) = true) :
    exec (.gkoFlush f die) s = .next (s.gkFlush (s.physDie f die)) :=
  congrArg Host.Outcome.next (if_pos (by simp only [hup, decide_eq_true hquad, Bool.and_self]))

theorem exec_mxeSelftest_begins {i : Nat} (hon : s.coreState i = 1) (hoff : (s.core i).mxe.state = 6)
    (hidle : (s.core i).mxe.selftest = false) : exec (.mxeSelftest i) s = .next (s.startSelftest i) :=
  if_pos (by simp [hon, hoff, hidle])

/-- The start of a column self-test marks the engine, and is counted. -/
theorem State.core_startSelftest (s : State) (i k : Nat) :
    (s.startSelftest i).core k = (s.modMxe i fun m => { m with selftest := true }).core k := by
  obtain ⟨-, -, cores, -⟩ := ((Reports.refl (s.modMxe i fun m => { m with selftest := true })).count (s.fnOf (coreDie i)) (coreDie i)
    (s.ixCore i 15) 1).serves
  exact congrArg (fun l => l.getD k (Core.reset true [])) cores

end

/-- Settles O34: the two reads, by the state that a read leaves, and the three registers that start something. -/
theorem readsAndTriggersAct : Obligations.ReadsAndTriggersAct := by
  refine ⟨fun s hlive => ⟨fun f hf hlen => ?_, fun i hi hinv hthere hpower => ?_⟩,
    fun s => ⟨fun f die hquad hup hlen => ?_, fun i hon hoff hidle hlen => ?_, fun f hlen => ?_⟩⟩
  · exact ⟨_, exec_cntValrcRead hlive hf, rfl, congrArg Func.ctrs (s.func_modFunc f _ hlen), rfl⟩
  · obtain ⟨-, -, -, cores, -⟩ := hinv.lengths
    exact ⟨_, exec_vecRngstatRead hlive hi hthere hpower, rfl, congrArg Core.vec (s.core_modCore i _ (cores ▸ hi)), rfl⟩
  · exact ⟨_, exec_gkoFlush hquad hup, congrArg Gecko.entries (s.gecko_modGecko _ hlen), rfl,
      fun e he => State.die_modDie_ne _ _ (Ne.symm he)⟩
  · refine ⟨_, exec_mxeSelftest_begins hon hoff hidle, ?_, fun k hk => ?_⟩
    · exact congrArg Core.mxe ((s.core_startSelftest i i).trans (s.core_modCore i _ hlen))
    · exact (s.core_startSelftest i k).trans (State.core_modCore_ne _ _ (Ne.symm hk))
  · exact ⟨_, rfl, congrArg Func.plans (s.func_modFunc f _ hlen), rfl, fun g hg => State.func_modFunc_ne _ _ (Ne.symm hg)⟩

end Sys2Proof.Machine
end

section
/-!
PROOFS. The start slots of clusters, and the tiles of the matrix and the sparse engines (O51).
-/
namespace Sys2Proof.Machine

/-! ## The start slot of a cluster (R334) -/

/-- The clusters of a die that still wait for their start slots become `left`; with none left the stagger is over. -/
def Die.slotTaken (left : List Nat) (x : Die) : Die :=
  { x with drone := { x.drone with
    unstarted := left, state := if x.drone.state = 3 && left.isEmpty then 0 else x.drone.state } }

/-- What waited for the start slot of a cluster starts. -/
def State.startCluster (s : State) (d c : Nat) : State :=
  let v := ((List.range 640).filter fun i => coreDie i = d && coreClu i = c).foldl (fun s i => s.sparseStart i) s
  (v.sendRequests (v.fnOf d)).tryU (v.fnOf d)

theorem State.modDie_congr (s : State) (d : Nat) {g h : Die → Die} (e : g (s.die d) = h (s.die d)) : s.modDie d g = s.modDie d h :=
  congrArg (fun l => { s with dies := l }) (modNth_congr e)

theorem exec_staggerStart (s : State) (d c : Nat) : exec (.staggerStart d c) s =
    .next ((s.modDie d (Die.slotTaken ((s.die d).drone.unstarted.filter (· ≠ c)))).startCluster d c) := by
  have taken : s.modDie d (Die.slotTaken ((s.die d).drone.unstarted.filter (· ≠ c))) =
      s.modDie d fun x => x.slotTaken (x.drone.unstarted.filter (· ≠ c)) := s.modDie_congr d rfl
  rw [taken]
  rfl

/-! ## The matrix engine (R165, R168, R179, R184, R185) -/

section
variable {s : State} {i : Nat} {t : Tile}

/-- The next tile starts: LOAD clear over a test's weights loads its own again, a load whose half is filled takes it, and one whose half
is not waits. -/
theorem exec_tileStart (hon : s.coreState i = 1) (hnext : (s.core i).nextTile = some t) (hdense : t.sparse = false)
    (hhold : (s.core i).mxe.drainHold = false) (htest : (s.core i).mxe.selftest = false) (hok : (s.core i).mxeOk = true)
    (hslot : s.early (coreDie i) (coreClu i) = false) (hleaf : s.leafBehind t = false) :
    let m := (s.core i).mxe
    let again := !t.load && m.dirtyWeights
    let wait := t.load && !m.filled
    let v := s.modMxe i fun m => { m with
      cur := some { t with load := t.load || again }, queue := m.queue.drop 1, runs := 0, loadWait := wait
      state := if t.load || again then 1 else 2 }
    exec (.tileStart i) s = .next (if again then (v.modMxe i Matrix.reloaded).cntCore i 5
      else if t.load && !wait then (v.modMxe i Matrix.loaded).cntCore i 5 else v) := by
  change execTileStart i s = _
  unfold execTileStart
  simp only [hnext]
  exact if_neg (by simp [hdense, hhold, htest, hon, hok, hslot, hleaf])

/-- A fill ends in the buffer half; a load that waited for it takes the weights, and holds at once when a drain was asked for. -/
theorem exec_stationaryFillDone (hfill : (s.core i).mxe.toFill = some t) (hempty : (s.core i).mxe.filled = false) :
    let m := (s.core i).mxe
    let mark (x : Tile) : Tile := if x.seq = t.seq then { x with counted := true } else x
    let u := (s.fillFor (.matrix i) i t).2.modMxe i fun m => { m with
      halves := m.halves.set m.half (s.fillFor (.matrix i) i t).1, filled := true, cur := m.cur.map mark, queue := m.queue.map mark }
    let v := (u.modMxe i fun m => { m.loaded with loadWait := false, state := 1 }).cntCore i 5
    exec (.stationaryFillDone i) s = .next (if m.loadWait then
      (if m.draining then (v.holdLoaded i { t with counted := true }).afterTile i else v) else u) := by
  change execStationaryFillDone i s = _
  unfold execStationaryFillDone
  simp only [hfill, hempty, Bool.false_eq_true, if_false, apply_ite Host.Outcome.next]

/-- What a run of a matrix tile is counted with, and the errors of the memories that it met. -/
def State.matrixRun (s : State) (i : Nat) (r : TileReport) : State :=
  let w := s.exercised (coreDie i) [.array i, .drains i, .coreStore i, .clusterBuffer (coreDie i) (coreClu i)]
  (((((w.cntCore i 6 r.loadWait).cntCore i 7 r.feedDry).cntCore i 8 r.drainBlk).cntCore i 9 r.skewHold).cntCore i 10
    r.throttle).sramMet i r.sram

/-- The end of a run: lost data has the tile filled again, and without it the compares and the shadow stage decide whether it commits. -/
theorem exec_tileCommit (hon : s.coreState i = 1) (hcur : (s.core i).mxe.cur = some t) (hload : (s.core i).mxe.loadWait = false)
    (htest : (s.core i).mxe.selftest = false) (r : TileReport) :
    let u := s.matrixRun i r
    let bad := u.tileMismatches i t r.upsets
    exec (.tileCommit i r) s = .next (if sramLost r.sram then u.refillMxe i t
      else if bad.isEmpty && r.shadow.isEmpty then
        (if (s.core i).mxe.runs = 1 then u.modMxe i fun m => { m with lastChk := { m.lastChk with outcome := 1 } } else u).mxeCommit i t
          r.upsets
      else u.mismatch i t bad r.shadow) := by
  have runs : ¬((s.core i).mxe.loadWait || (s.core i).mxe.selftest || decide (s.coreState i ≠ 1)) = true := by
    simp [hload, htest, hon]
  change execTileCommit i r s = _
  unfold execTileCommit State.matrixRun
  simp only [hcur, if_neg runs, apply_ite Host.Outcome.next]

end

/-! ## The sparse engine (R203, R205, R208) -/

section
variable {s : State} {i : Nat} {t : Tile}

/-- The tile at the head of the queue has its segments, and starts when its turn has come. -/
theorem exec_operandStoreFillDone_ahead (hempty : (s.core i).spe.filled = false) (hnew : (s.core i).spe.rerunning = false)
    (hhead : (s.core i).spe.queue.head? = some t) :
    let mark (x : Tile) : Tile := if x.seq = t.seq then { x with counted := true } else x
    exec (.operandStoreFillDone i) s = .next (((s.fillFor (.sparse i) i t).2.modSpe i fun e => { e with
      halves := e.halves.set e.half (s.fillFor (.sparse i) i t).1, filled := true, queue := e.queue.map mark }).sparseStart i) := by
  have fills : (s.core i).spe.toFill = some t := (if_neg (ne_true_of_eq_false hnew)).trans hhead
  change execOperandStoreFillDone i s = _
  unfold execOperandStoreFillDone
  simp only [fills, hempty, hnew, Bool.false_eq_true, if_false]

/-- A tile that waited to run again has its segments, and runs. -/
theorem exec_operandStoreFillDone_again (hempty : (s.core i).spe.filled = false) (hwait : (s.core i).spe.loadWait = true)
    (hcur : (s.core i).spe.cur = some t) :
    let mark (x : Tile) : Tile := if x.seq = t.seq then { x with counted := true } else x
    exec (.operandStoreFillDone i) s = .next ((s.fillFor (.sparse i) i t).2.modSpe i fun e => { e with
      halves := e.halves.set e.half (s.fillFor (.sparse i) i t).1, half := 1 - e.half, loadWait := false, cur := e.cur.map mark }) := by
  have again : (s.core i).spe.rerunning = true := by simp [Sparse.rerunning, hwait, hcur]
  have fills : (s.core i).spe.toFill = some t := (if_pos again).trans hcur
  change execOperandStoreFillDone i s = _
  unfold execOperandStoreFillDone
  simp only [fills, hempty, again, Bool.false_eq_true, if_false, if_true]

/-- What a run of a sparse tile is counted with, and the errors of the memories that it met. -/
def State.sparseRan (s : State) (i : Nat) (t : Tile) (r : SparseReport) : State :=
  (((s.exercised (coreDie i) [.sparse i, .coreStore i, .clusterBuffer (coreDie i) (coreClu i)]).cntCore i 41 r.loadWait).sparseRun i
    t).sramMet i r.sram

/-- A mismatch of R208 as it is counted. -/
def State.sparseFailed (s : State) (i : Nat) (r : SparseReport) : State :=
  (s.cntCore i 44).cntDie (coreDie i) 64 r.shadow.eraseDups.length

/-- The end of a run: lost data has the tile filled again, a run without a mismatch commits, the first mismatch runs the tile again, and
the second takes the engine out of service and its tiles away. -/
theorem exec_sparseTileCommit (hon : s.coreState i = 1) (hcur : (s.core i).spe.cur = some t) (hload : (s.core i).spe.loadWait = false)
    (r : SparseReport) :
    let e := (s.core i).spe
    let u := s.sparseRan i t r
    let v := u.sparseFailed i r
    let mech := if r.residue then 2 else 1
    let x := (v.modSpe i fun e => { e with
      state := 3, cur := none, queue := [], filled := false, runs := 0, draining := false, disabling := false }).note (coreDie i) mech 0 i 1
    exec (.sparseTileCommit i r) s = .next (if sramLost r.sram then u.refillSpe i t e.runs
      else if !r.residue && r.shadow.isEmpty then u.speCommit i t
      else if e.runs = 0 then (v.refillSpe i t 1).note (coreDie i) mech 0 i 1
      else ((x.moveTiles t.func i (t :: e.queue)).flagStep t.func flTileRerun).afterTile i) := by
  have runs : ¬(decide (s.coreState i ≠ 1) || (s.core i).spe.loadWait) = true := by simp [hload, hon]
  change execSparseTileCommit i r s = _
  unfold execSparseTileCommit State.sparseRan State.sparseFailed
  simp only [hcur, if_neg runs, apply_ite Host.Outcome.next]

end

/-! ## The column self-test (R185, R186, R348) -/

/-- The queued tiles that a core is no longer wide enough for. -/
def State.tooWide (s : State) (i : Nat) : List Tile := (s.core i).mxe.queue.filter fun t => !s.fits i t

/-- Such tiles leave the queue of the core. -/
def State.narrowed (s : State) (i : Nat) : State := s.modMxe i (Matrix.without (s.tooWide i).contains)

theorem State.narrowed_cur (s : State) (i : Nat) : ((s.narrowed i).core i).mxe.cur = (s.core i).mxe.cur := by
  unfold State.narrowed State.modMxe State.modCore State.core
  dsimp only
  rw [modNth_getD]
  split <;> rfl

section
variable {s : State} {i : Nat} {failing : List Nat} (htest : (s.core i).mxe.selftest = true)
include htest

/-- The decisions of the test have retired the core. -/
theorem exec_columnSelftestDone_retired (h : ((s.testDecisions i failing).core i).state ≠ 1) :
    exec (.columnSelftestDone i failing) s = .next (s.testDecisions i failing) := by
  change execColumnSelftestDone i failing s = _
  unfold execColumnSelftestDone
  rw [htest, if_neg (by decide)]
  exact if_pos h

section
variable (hon : ((s.testDecisions i failing).core i).state = 1)
include hon

theorem exec_columnSelftestDone_idle (hcur : ((s.testDecisions i failing).core i).mxe.cur = none) :
    let u := s.testDecisions i failing
    exec (.columnSelftestDone i failing) s = .next ((((u.narrowed i).modMxe i fun m => { m with
      state := if m.state = 6 then 6 else 0 }).moveTiles (u.fnOf (coreDie i)) i (u.tooWide i)).afterTile i) := by
  rw [← State.narrowed_cur] at hcur
  change execColumnSelftestDone i failing s = _
  unfold execColumnSelftestDone
  unfold State.narrowed State.tooWide at hcur ⊢
  simp only [htest, hon, hcur, Bool.not_true, Bool.false_eq_true, ne_eq, not_true_eq_false, if_false]

/-- The tile that caused the test runs a third time where it still fits, and moves with the wide ones where it does not. -/
theorem exec_columnSelftestDone_tile {t : Tile} (hcur : ((s.testDecisions i failing).core i).mxe.cur = some t) :
    let u := s.testDecisions i failing
    let v := u.narrowed i
    let f := u.fnOf (coreDie i)
    exec (.columnSelftestDone i failing) s = .next (if v.fits i t then (v.rerun i t 2).moveTiles f i (u.tooWide i)
      else (((v.modMxe i fun m => { m with cur := none, state := 0, runs := 0 }).moveTiles f i (t :: u.tooWide i)).flagStep f
        flTileRerun).afterTile i) := by
  rw [← State.narrowed_cur] at hcur
  change execColumnSelftestDone i failing s = _
  unfold execColumnSelftestDone
  unfold State.narrowed State.tooWide at hcur ⊢
  simp only [htest, hon, hcur, Bool.not_true, Bool.false_eq_true, ne_eq, not_true_eq_false, if_false, apply_ite Host.Outcome.next]

end

end

/-- Settles O51: the start slot, and then each event of a tile by what the engine holds when it comes. -/
theorem clustersStartAndTilesRun : Obligations.ClustersStartAndTilesRun := by
  refine ⟨fun s d c hd => ⟨exec_staggerStart s d c, ?_⟩, fun s i hon => ⟨?_, ?_, ?_, ?_, ?_, ?_⟩⟩
  · exact congrArg (fun x => x.drone.unstarted) (s.die_modDie d _ hd)
  · exact fun t hnext hdense hhold htest hok hslot hleaf => exec_tileStart hon hnext hdense hhold htest hok hslot hleaf
  · exact fun t hfill hempty => exec_stationaryFillDone hfill hempty
  · exact fun t r hcur hload htest => exec_tileCommit hon hcur hload htest r
  · exact fun t hempty => ⟨exec_operandStoreFillDone_ahead hempty, exec_operandStoreFillDone_again hempty⟩
  · intro t r hcur hload
    have ran := exec_sparseTileCommit hon hcur hload r
    refine ⟨fun hlost => ran.trans (congrArg Host.Outcome.next (if_pos hlost)), fun hkept hres hshadow => ?_, fun hkept hbad => ?_⟩
    · have clean : (!r.residue && r.shadow.isEmpty) = true := by rw [hres, hshadow]; rfl
      exact ran.trans (congrArg Host.Outcome.next ((if_neg (ne_true_of_eq_false hkept)).trans (if_pos clean)))
    · have mismatch : ¬(!r.residue && r.shadow.isEmpty) = true := by
        rcases hbad with h | h <;> simp [h]
      have failed := ran.trans (congrArg Host.Outcome.next ((if_neg (ne_true_of_eq_false hkept)).trans (if_neg mismatch)))
      exact ⟨fun hfirst => failed.trans (congrArg Host.Outcome.next (if_pos hfirst)),
        fun hsecond => failed.trans (congrArg Host.Outcome.next (if_neg hsecond))⟩
  · intro failing htest
    refine ⟨exec_columnSelftestDone_retired htest, fun hstate => ⟨exec_columnSelftestDone_idle htest hstate, fun t hcur _ hfits => ?_,
      fun t hcur _ hwide => ?_⟩⟩
    · exact (exec_columnSelftestDone_tile htest hstate hcur).trans (congrArg Host.Outcome.next (if_pos hfits))
    · exact (exec_columnSelftestDone_tile htest hstate hcur).trans
        (congrArg Host.Outcome.next (if_neg (ne_true_of_eq_false hwide)))

end Sys2Proof.Machine
end

section
/-!
PROOFS. Contributions are checked and held at their owner, and a shard whose contributions are all held is added (O46).
-/
namespace Sys2Proof.Machine

/-! ## Contributions at an owner or a segment owner (R258, R259, R265, R269, R271) -/

/-- A contribution that fails its checksum is counted and recorded at the die that owns its shard (R265). -/
def State.recordUnsound (s : State) (f : Nat) (gr : Group) (m : ChorusMsg) : State :=
  (s.cntMod f 8).note (s.witness (s.liveDie f (s.shardDie gr m.shard))) 7 3 0 1

/-- Whether the mask of a step leaves out the rank of a contribution; the mask says nothing of segment contributions (R269). -/
def ChorusStep.leavesOut (c : ChorusStep) (seg : Bool) (m : ChorusMsg) : Bool := !seg && c.mask.any fun k => !maskHas k m.rank

/-- A contribution is held unless its shard's result has gone out or its format is not the group's (log 22). -/
def State.holdContribution (s : State) (f : Nat) (seg : Bool) (slot : Nat) (gr : Group) (m : ChorusMsg) : State :=
  if ((s.func f).chorusStep slot m.step).broadcast.any (fun b => b.shard = m.shard) || m.fmt ≠ gr.wireCode seg then s
  else s.modChorus f slot m.step fun c => { c with held := holdIn c.held seg m }

/-- A contribution is acknowledged to the rank it came from, and the segment's owner goes on with what it holds. -/
def State.answerContribution (s : State) (f : Nat) (seg : Bool) (slot r : Nat) (gr : Group) (m : ChorusMsg) (nack : Bool) : State :=
  let v := (s.handle f).sendRank f gr r 0
    { gr.msg 4 0 m.step with nack := nack, subject := r, shard := m.shard, pgroup := m.pgroup }
  if seg then v else v.segmentWork f slot m.step (· = m.shard)

theorem ChorusStep.leavesOut_iff (c : ChorusStep) (seg : Bool) (m : ChorusMsg) :
    c.leavesOut seg m = true ↔ seg = false ∧ ∃ k, c.mask = some k ∧ maskHas k m.rank = false := by
  simp [ChorusStep.leavesOut, Option.any_eq_true]

section
variable {s : State} {f : Nat} {seg : Bool} {m : ChorusMsg} {slot r : Nat} {gr : Group}
  (hslot : ((s.take f (.chorus m)).1.func f).slotOfTag m.groupTag = some slot)
  (hgroup : ((s.take f (.chorus m)).1.func f).groups.getD slot none = some gr)
include hslot hgroup

theorem State.contribIn_malformed (hcode : wireCodeOk seg m.fmt = false) : s.contribIn f seg m = (s.take f (.chorus m)).1 := by
  unfold State.contribIn
  rcases htake : s.take f (.chorus m) with ⟨u, src⟩
  rw [htake] at hslot hgroup
  simp only [hslot, hgroup, hcode, Bool.not_false, if_true]

variable (hsender : gr.sender seg m = some r) (hcode : wireCodeOk seg m.fmt = true)
include hsender hcode

/-- A contribution in a format that there is, from a rank of a group here: what is done with it, and then its answer. -/
theorem State.contribIn_answered :
    let u := (s.take f (.chorus m)).1
    s.contribIn f seg m =
      (if chorusSound m then
          if ((u.func f).chorusStep slot m.step).leavesOut seg m then u.cntMod f 5 else u.holdContribution f seg slot gr m
        else u.recordUnsound f gr m).answerContribution f seg slot r gr m (!chorusSound m) := by
  unfold State.contribIn State.answerContribution
  rcases htake : s.take f (.chorus m) with ⟨u, src⟩
  rw [htake] at hslot hgroup
  have turned (b : Bool) (x y : State) : (if (!b) = true then x else y) = if b = true then y else x := by cases b <;> rfl
  simp only [hslot, hgroup, hsender, hcode, turned, if_true, State.recordUnsound, State.holdContribution, ChorusStep.leavesOut]
  cases chorusSound m with
  | false => simp only [Bool.false_and, Bool.false_eq_true, if_false]
  | true =>
    cases hmask : ((u.func f).chorusStep slot m.step).mask with
    | none => simp only [turned, Bool.true_and, if_true, Option.any_none]
    | some k => simp only [turned, Bool.true_and, if_true, Option.any_some]

theorem State.contribIn_unsound (hsum : payloadSum m.fmt m.payload ≠ m.checksum) :
    s.contribIn f seg m =
      ((s.take f (.chorus m)).1.recordUnsound f gr m).answerContribution f seg slot r gr m true := by
  have unsound : chorusSound m = false := decide_eq_false hsum
  simp only [State.contribIn_answered hslot hgroup hsender hcode, unsound, Bool.false_eq_true, if_false, Bool.not_false]

variable (hsum : payloadSum m.fmt m.payload = m.checksum)
include hsum

theorem State.contribIn_leftOut (hout : (((s.take f (.chorus m)).1.func f).chorusStep slot m.step).leavesOut seg m = true) :
    s.contribIn f seg m = ((s.take f (.chorus m)).1.cntMod f 5).answerContribution f seg slot r gr m false := by
  have sound : chorusSound m = true := decide_eq_true hsum
  simp only [State.contribIn_answered hslot hgroup hsender hcode, sound, hout, if_true, Bool.not_true]

theorem State.contribIn_held (hin : (((s.take f (.chorus m)).1.func f).chorusStep slot m.step).leavesOut seg m = false) :
    s.contribIn f seg m =
      ((s.take f (.chorus m)).1.holdContribution f seg slot gr m).answerContribution f seg slot r gr m false := by
  have sound : chorusSound m = true := decide_eq_true hsum
  simp only [State.contribIn_answered hslot hgroup hsender hcode, sound, hin, if_true, Bool.false_eq_true, if_false, Bool.not_true]

end

/-! ## The add at the owner (R260 to R265) -/

/-- What the owner of a shard has to add for a step: its group, its mask and the contributions, when all are held. -/
def Func.readyAdd (g : Func) (j : Nat) (c : ChorusStep) : Option (Nat × Nat × Group × ChorusMsg × List ChorusMsg) :=
  match g.groups.getD c.slot none with
  | some gr => match readyShard gr c j, c.mask with
    | some ms, some k => some (c.slot, c.step, gr, k, ms)
    | _, _ => none
  | none => none

section
variable {g : Func} {j : Nat} {c : ChorusStep}

theorem Func.readyAdd_none (h : ∀ gr, g.groups.getD c.slot none = some gr → readyShard gr c j = none) : g.readyAdd j c = none := by
  unfold Func.readyAdd
  cases hgroup : g.groups.getD c.slot none with
  | none => rfl
  | some gr => simp only [h gr hgroup]

theorem Func.readyAdd_some {gr : Group} {k : ChorusMsg} {ms : List ChorusMsg} (hgroup : g.groups.getD c.slot none = some gr)
    (hready : readyShard gr c j = some ms) (hmask : c.mask = some k) : g.readyAdd j c = some (c.slot, c.step, gr, k, ms) := by
  unfold Func.readyAdd
  simp only [hgroup, hready, hmask]

end

/-- What a failed check of an add does: it is counted, and noted on the core of the first add or retires that of the second (R265). -/
def State.addChecked (s : State) (f : Nat) (sumFail again : Bool) (core : Nat) : State :=
  let u := if sumFail then s.cntMod f 9 (if again then 2 else 1) else s
  if !sumFail || u.fnOf (coreDie core) ≠ f then u
  else if again then u.retireCore core 7 true else u.note (coreDie core) 7 0 core 1

/-- The end of an add adds the shard for the first step that has all contributions of it. -/
theorem exec_chorusOwnerAddDone {s : State} {f j slot n : Nat} {gr : Group} {k : ChorusMsg} {ms : List ChorusMsg}
    (h : (s.func f).chorus.steps.findSome? ((s.func f).readyAdd j) = some (slot, n, gr, k, ms)) (sumFail again : Bool) (a : OwnerAdd) :
    let v := s.addChecked f sumFail again a.core
    exec (.chorusOwnerAddDone f j sumFail again a) s = .next
      (((v.addShard f slot n j gr k ms).vecFail a.lanes).protect (v.liveDie f (v.shardDie gr j))) := by
  change execChorusOwnerAddDone f j sumFail again a s = _
  unfold execChorusOwnerAddDone
  dsimp only
  split
  · next found => cases h.symm.trans found; rfl
  · next missing => cases h.symm.trans missing

/-- Settles O46: the branches of an arrival, and then the add of the first step that is ready for it. -/
theorem contributionsAreHeldAndAdded : Obligations.ContributionsAreHeldAndAdded := by
  refine ⟨?_, ?_⟩
  · intro s f seg x slot r gr m u c out ack fin run hslot hgroup hsender
    have arrives : run = .next (s.contribIn f seg m) := by cases seg <;> rfl
    rw [arrives]
    have left := c.leavesOut_iff seg m
    refine ⟨fun hcode => congrArg Host.Outcome.next (State.contribIn_malformed hslot hgroup hcode), fun hcode => ⟨fun hsum => ?_,
      fun hsum hout => ?_, fun hsum hin => ?_⟩⟩
    · exact congrArg Host.Outcome.next (State.contribIn_unsound hslot hgroup hsender hcode hsum)
    · exact congrArg Host.Outcome.next (State.contribIn_leftOut hslot hgroup hsender hcode hsum (left.2 hout))
    · exact congrArg Host.Outcome.next (State.contribIn_held hslot hgroup hsender hcode hsum (eq_false_of_ne_true (mt left.1 hin)))
  · intro s f j a sumFail again l r c gr k ms hsteps hbefore hgroup hready hmask
    have first : (s.func f).chorus.steps.findSome? ((s.func f).readyAdd j) = some (c.slot, c.step, gr, k, ms) := by
      have skipped : l.findSome? ((s.func f).readyAdd j) = none :=
        List.findSome?_eq_none_iff.2 fun x hx => Func.readyAdd_none fun g hg => hbefore x g hx hg
      rw [hsteps, List.findSome?_append, skipped, Option.none_or, List.findSome?_cons,
        Func.readyAdd_some hgroup hready hmask]
    exact exec_chorusOwnerAddDone first sumFail again a

end Sys2Proof.Machine
end

section
/-!
PROOFS. The commands that stop units and let them go on (O13).
-/
namespace Sys2Proof.Machine

section
variable {s : State} {c : Submission}

theorem exec_quench (h : s.starts 0x0010 c = true) : exec (.quench c) s = .next (quench' (s.sent 0x0010 c) (s.begun 0x0010 c)) :=
  congrArg Host.Outcome.next (State.zcp_starts h quench')

theorem exec_disable (h : s.starts 0x0011 c = true) :
    exec (.disable c) s = .next (disableCmd (s.sent 0x0011 c) (s.begun 0x0011 c)) :=
  congrArg Host.Outcome.next (State.zcp_starts h disableCmd)

theorem exec_enable (h : s.starts 0x0011 c = true) :
    exec (.enable c) s = .next (disableCmd (s.sent 0x0011 c) (s.begun 0x0011 c)) :=
  congrArg Host.Outcome.next (State.zcp_starts h disableCmd)

theorem exec_drain (h : s.starts 0x0012 c = true) : exec (.drain c) s = .next (drainCmd (s.sent 0x0012 c) (s.begun 0x0012 c)) :=
  congrArg Host.Outcome.next (State.zcp_starts h drainCmd)

theorem exec_drainRelease (h : s.starts 0x0012 c = true) :
    exec (.drainRelease c) s = .next (drainCmd (s.sent 0x0012 c) (s.begun 0x0012 c)) :=
  congrArg Host.Outcome.next (State.zcp_starts h drainCmd)

end

/-! ## QUENCH (R379) -/

/-- The functions in which the effect of a command begins are as many as there were. -/
theorem State.begun_funcs_length (s : State) (op : Nat) (c : Submission) : (s.begun op c).funcs.length = s.funcs.length := by
  have left (f : Nat) (g : Func → Func) : Keeps s (s.modFunc f g) := (Keeps.refl s).modFunc f g
  have counted (u : State) (hu : Keeps s u) : Keeps s (if urgent (s.sent op c) then u.cntMod (s.sent op c).func 20 else u) :=
    (hu.cntMod _ _ _).ite hu
  have begun : Keeps s (s.begun op c) := counted _ ((left _ _).ite ((left _ _).ite (left _ _)))
  exact (List.cons.inj begun.shape).1

/-- A change of a function that leaves its step in work. -/
theorem State.cur_modFunc (s : State) (f k : Nat) {g : Func → Func} (hg : ∀ x, (g x).cur = x.cur) :
    ((s.modFunc f g).func k).cur = (s.func k).cur := by
  by_cases h : f = k ∧ k < s.funcs.length
  · obtain ⟨rfl, hf⟩ := h
    rw [s.func_modFunc f g hf, hg]
  · exact congrArg Func.cur ((modNth_getD g f k s.funcs _).trans (if_neg h))

theorem State.cur_modStep (s : State) {f : Nat} (h : Step → Step) (hf : f < s.funcs.length) :
    ((s.modStep f false h).func f).cur = (s.func f).cur.map h :=
  congrArg Func.cur (s.func_modFunc f _ hf)

theorem State.cur_modStep_ahead (s : State) (f : Nat) (h : Step → Step) : ((s.modStep f true h).func f).cur = (s.func f).cur :=
  s.cur_modFunc f f fun _ => rfl

theorem State.cur_emptyEngines (s : State) (f : Nat) : ((s.emptyEngines f).func f).cur = (s.func f).cur := by
  obtain ⟨cs, emptied⟩ := s.emptyEngines_changes_cores f
  rw [emptied]
  rfl

theorem State.cur_stopOwn (s : State) (f : Nat) (p : Plan) (st : Step) : ((s.stopOwn f p st).func f).cur = (s.func f).cur :=
  s.cur_modFunc f f fun _ => rfl

theorem quench'_idle {c : Submission} {u : State} (h : (u.func c.func).activePlan = none) : quench' c u = u.single c stOk := by
  unfold quench'
  simp only [h]

/-- QUENCH of a running plan marks the step in work as quenched and drops what waits for its engines. -/
theorem cur_quench' {c : Submission} {u : State} {x : Nat × Plan} {st : Step} (hplan : (u.func c.func).activePlan = some x)
    (hcur : (u.func c.func).cur = some st) (hf : c.func < u.funcs.length) :
    ((quench' c u).func c.func).cur = some { st with quenched := true, backlog := [] } := by
  obtain ⟨i, p⟩ := x
  have hlen : c.func < ((u.stopOwn c.func p st).emptyEngines c.func).funcs.length := by
    obtain ⟨cs, emptied⟩ := (u.stopOwn c.func p st).emptyEngines_changes_cores c.func
    rw [emptied]
    exact (modNth_length _ _ _).symm ▸ hf
  unfold quench'
  simp only [hplan, hcur]
  rw [State.cur_modFunc, State.cur_modStep_ahead, State.cur_modStep _ _ hlen, State.cur_emptyEngines, State.cur_stopOwn, hcur,
    Option.map_some]
  exact fun _ => rfl

/-! ## DISABLE and ENABLE (R377) -/

/-- The targeted units that ENABLE turns on: those that are off and have not failed. -/
def State.enabledUnits (s : State) (c : Submission) : List EngineUnit :=
  ((s.targetUnits c (hb c 24 1) (hb c 26 1)).filter fun x => s.isOff c.func x).filter fun x => match x with
    | .sparse i => (s.core i).spe.state ≠ 3
    | .skink e k => !(s.clu e k).skink.failed
    | _ => true

section
variable {c : Submission} (u : State) (hunits : hb c 24 1 < 64)
include hunits

theorem disableCmd_off (h : hb c 25 1 = 0) :
    let us := u.targetUnits c (hb c 24 1) (hb c 26 1)
    let off := us.filter fun x => !u.isOff c.func x
    let v := off.foldl (fun s x => s.turnOff c.func x) (if off.isEmpty then u else u.stopMark c.func)
    disableCmd c u = v.modFunc c.func fun g =>
      { g with stops := g.stops ++ [⟨c, us.filter fun x => !v.atBoundary c.func x, off.length, 0, 0⟩] } :=
  (if_neg (by simp [hunits, h])).trans (if_pos h)

theorem disableCmd_on (h : hb c 25 1 = 1) :
    let on := u.enabledUnits c
    let v := on.foldl (fun s x => s.turnOn c.func x) u
    disableCmd c u = if on.isEmpty then v.single c stOk (leBytes 4 0) else v.okJ c (leBytes 4 on.length) := by
  intro on v
  have answers : disableCmd c u = if on.isEmpty then v.single c stOk (leBytes 4 on.length) else v.okJ c (leBytes 4 on.length) :=
    (if_neg (by simp [hunits, h])).trans (if_neg (by simp [h]))
  rw [answers]
  split
  · next none => rw [List.isEmpty_iff.1 none, List.length_nil]
  · rfl

end

/-! ## DRAIN and its release (R378) -/

section
variable {c : Submission} (u : State)

theorem drainCmd_hold (h : hb c 24 1 = 0) :
    let cores := u.targetCores c (hb c 26 1)
    let ms := cores.filter fun i => (u.core i).mxe.canHold
    let es := cores.filter fun i => (u.core i).spe.canHold
    let v := cores.foldl (fun s i => (s.drainMxe i).drainSpe i) u
    drainCmd c u = v.modFunc c.func fun g =>
      { g with stops := g.stops ++ [⟨c, ms.map EngineUnit.matrix ++ es.map EngineUnit.sparse, 0,
          b2n (ms.any (fun i => !(u.core i).mxe.drainHold) || es.any fun i => !(u.core i).spe.drainHold), 0⟩] } :=
  (if_neg (by simp [h])).trans (if_pos h)

theorem drainCmd_release (h : hb c 24 1 = 1) :
    let held := (u.targetCores c (hb c 26 1)).filter fun i => (u.core i).mxe.drainHold || (u.core i).spe.drainHold
    let v := held.foldl (fun s i => s.undrain i) u
    drainCmd c u = if held.isEmpty then v.single c stOk else v.okJ c :=
  (if_neg (by simp [h])).trans (if_neg (by simp [h]))

end

/-- Settles O13: each command starts, and its effect is that of the case which the plan or the action selects. -/
theorem stopCommandsTakeEffect : Obligations.StopCommandsTakeEffect := by
  intro s c
  refine ⟨fun h => ?quench, fun h => ?disable, fun h => ?drain⟩
  case quench =>
    refine ⟨fun idle => (exec_quench h).trans (congrArg Host.Outcome.next (quench'_idle idle)), fun x active =>
      ⟨_, exec_quench h, fun st hcur hf => ⟨_, cur_quench' active hcur ?_, rfl⟩⟩⟩
    exact (s.begun_funcs_length 0x0010 c).symm ▸ hf
  case disable =>
    intro d u us hunits
    exact ⟨fun hoff => (exec_disable h).trans (congrArg Host.Outcome.next (disableCmd_off u hunits hoff)),
      fun hon => (exec_enable h).trans (congrArg Host.Outcome.next (disableCmd_on u hunits hon))⟩
  case drain =>
    exact ⟨fun hold => (exec_drain h).trans (congrArg Host.Outcome.next (drainCmd_hold _ hold)),
      fun release => (exec_drainRelease h).trans (congrArg Host.Outcome.next (drainCmd_release _ release))⟩

end Sys2Proof.Machine
end

section
/-!
PROOFS. COLL_GROUP and COLL_EVICT (O22).
-/
namespace Sys2Proof.Machine

/-! ## COLL_GROUP and COLL_EVICT (R253, R254, R275) -/

section
variable {s : State} {c : Submission}

theorem exec_collGroup (h : s.starts 0x0401 c = true) :
    exec (.collGroup c) s = .next (collGroup' (s.sent 0x0401 c) (s.begun 0x0401 c)) :=
  congrArg Host.Outcome.next (State.zcp_starts h collGroup')

theorem exec_collEvict (h : s.starts 0x0405 c = true) :
    exec (.collEvict c) s = .next (collEvict' (s.sent 0x0405 c) (s.begun 0x0405 c)) :=
  congrArg Host.Outcome.next (State.zcp_starts h collEvict')

end

/-- A group whose parameters are in range fills its slot, and what stands of the group before it goes. -/
theorem collGroup'_set {c : Submission} {u : State} :
    let f := c.func
    let G : Group := ⟨c.params, [], [], [], false⟩
    let slot := at' c.params 0 1
    let a := at' c.params 16 8
    c.paramLen = 32 → G.bad = false → u.inMemory f a (8 * G.ranks) = true → (u.func f).groupActive slot = false →
    collGroup' c u = (u.modFunc f fun g =>
      { g with
        groups := g.groups.set slot (some { G with members := (List.range G.ranks).map fun i => leNat (u.devRead f (a + 8 * i) 8) })
        chorus := { g.chorus with
          steps := g.chorus.steps.filter fun x => x.slot ≠ slot
          carried := g.chorus.carried.filter fun x => x.slot ≠ slot } }).okJ c [] (leBytes 4 slot) := by
  intro f G slot a hlen hgood hmem hidle
  have admitted : ¬ (decide (c.paramLen ≠ 32) || G.bad || !u.inMemory f a (8 * G.ranks)) = true := by simp [hlen, hgood, hmem]
  exact (if_neg admitted).trans (if_neg (by simp [f, slot, hidle]))

/-- An eviction of a member that is not the last one is applied here, and every other rank is told of it. -/
theorem collEvict'_member {c : Submission} {u : State} {G : Group} :
    let slot := hb c 24 1
    let r := hb c 28 2
    (u.func c.func).groups.getD slot none = some G → r < G.ranks → G.evicted.contains r = false → G.present ≠ [r] →
    let v := u.applyEvict c.func slot r
    collEvict' c u = ((List.range G.ranks).foldl (fun w k => if k = G.me then w
      else State.sendRank w c.func G k 0 { G.msg 6 0 (v.func c.func).stepNow with subject := r }) v).okJ c := by
  intro slot r hgroup hrank hin hothers v
  unfold collEvict'
  simp only [slot, r] at hgroup hrank hin hothers
  simp only [hgroup, Nat.not_le.2 hrank, hin, hothers, Bool.false_eq_true, if_false]
  rfl

/-- Settles O22: each command starts, and its checks leave the case that the statement writes out. -/
theorem chorusGroupsAreSet : Obligations.ChorusGroupsAreSet := by
  intro s c
  refine ⟨fun h => ?group, fun h => ?evict⟩
  case group =>
    intro d u f G slot a hlen hgood hmem hidle
    exact (exec_collGroup h).trans (congrArg Host.Outcome.next (collGroup'_set hlen hgood hmem hidle))
  case evict =>
    intro G d u slot r hgroup hrank hin hothers v
    exact (exec_collEvict h).trans (congrArg Host.Outcome.next (collEvict'_member hgroup hrank hin hothers))

end Sys2Proof.Machine
end

section
/-!
PROOFS. What the other Chorus messages and the time-outs do at a member of their group (O47).
-/
namespace Sys2Proof.Machine

/-- What a control core handles of a message changes no function. -/
@[simp] theorem State.func_handle (s : State) (f k : Nat) : (s.handle f).func k = s.func k := rfl

/-! ## Messages that wait while the control core is stopped (Table 17.4) -/

section
variable {s : State} {f : Nat} (hstops : s.chorusStops f = true) (m : ChorusMsg)
include hstops

theorem State.chorus_waits : (!s.comes f (.chorus m) || s.chorusStops f) = true := by rw [hstops, Bool.or_true]

theorem exec_sent_waits : exec (.sent f m) s = .next s := if_pos (s.chorus_waits hstops m)
theorem exec_mask_waits : exec (.mask f m) s = .next s := if_pos (s.chorus_waits hstops m)
theorem exec_ack_waits : exec (.ack f m) s = .next s := if_pos (s.chorus_waits hstops m)
theorem exec_rereq_waits : exec (.rereq f m) s = .next s := if_pos (s.chorus_waits hstops m)
theorem exec_evict_waits : exec (.evict f m) s = .next s := if_pos (s.chorus_waits hstops m)

end

/-! ## Messages of a group that is here (R254, R259, R266 to R268, R275) -/

/-- The mark that a SENT message carries. -/
def markOf (m : ChorusMsg) : Mark := ⟨m.rank, m.nf, m.maskSum⟩

/-- A mark is kept with its step, and opens the window at the coordinator. -/
def State.keepMark (s : State) (f slot : Nat) (m : ChorusMsg) (window : Bool) : State :=
  s.modChorus f slot m.step fun c => { c with marks := c.marks ++ [markOf m], window := window }

section
variable {s w : State} {f slot : Nat} {m : ChorusMsg} {gr : Group} {c : ChorusStep}
  (hcomes : s.comes f (.chorus m) = true) (hruns : s.chorusStops f = false) (hw : (s.take f (.chorus m)).1 = w)
include hcomes hruns

theorem State.chorus_taken : ¬ (!s.comes f (.chorus m) || s.chorusStops f) = true := by simp [hcomes, hruns]

variable (hslot : (w.func f).slotOfTag m.groupTag = some slot)
include hw hslot

theorem exec_evict_applies : exec (.evict f m) s = .next (w.applyEvict f slot m.subject) := by
  subst hw
  change execEvict f m s = _
  unfold execEvict
  rw [if_neg (State.chorus_taken hcomes hruns)]
  simp only [hslot]

variable (hgroup : (w.func f).groups.getD slot none = some gr)
include hgroup

theorem exec_mask_adopts :
    exec (.mask f m) s = .next ((if gr.deputy = some gr.me ∧ m.rank ≠ gr.me then
        (List.range gr.ranks).foldl (fun s r => if r = gr.me then s else State.sendRank s f gr r 0 { m with rank := gr.me }) (w.handle f)
      else w.handle f).adoptMask f slot gr m) := by
  subst hw
  change execMask f m s = _
  unfold execMask
  rw [if_neg (State.chorus_taken hcomes hruns)]
  simp only [State.func_handle, hslot, hgroup, Bool.and_eq_true, decide_eq_true_eq]

variable (hstep : (w.func f).chorusStep slot m.step = c)
include hstep

/-- A mark reaches a rank that decides or stands in for the one that does, and neither a mark of its rank nor a mask came before it. -/
theorem exec_sent_keeps (hdecides : gr.coordinator = some gr.me ∨ gr.deputy = some gr.me) (hin : gr.isIn m.rank = true)
    (hdecided : c.decided = none) (hmask : c.mask = none) (hfirst : c.marks.any (fun k => k.rank = m.rank) = false) :
    let v := (w.handle f).keepMark f slot m (gr.coordinator = some gr.me)
    exec (.sent f m) s = .next (if gr.coordinator = some gr.me then (v.cfgCheck f slot gr (markOf m)).tryDecide f slot m.step else v) := by
  subst hw hstep
  have kept : (!(decide (gr.coordinator = some gr.me) || decide (gr.deputy = some gr.me))) = false := by
    simpa only [Bool.not_eq_false', Bool.or_eq_true, decide_eq_true_eq] using hdecides
  change execSent f m s = _
  unfold execSent
  rw [if_neg (State.chorus_taken hcomes hruns)]
  simp only [State.func_handle, hslot, hgroup, kept, hin, hdecided, hmask, hfirst, Option.isSome_none, Bool.not_true, Bool.or_self,
    Bool.false_eq_true, if_false]
  rfl

theorem exec_rereq_answers {b : ChorusMsg} (hsent : c.broadcast.find? (fun b => b.shard = m.shard) = some b) :
    exec (.rereq f m) s = .next (w.sendRank f gr m.rank 0 b) := by
  subst hw hstep
  change execRereq f m s = _
  unfold execRereq
  rw [if_neg (State.chorus_taken hcomes hruns)]
  simp only [hslot, hgroup, hsent]

theorem exec_ack_heard {x : ChorusMsg}
    (hown : (c.own.find? fun x => x.shard = m.shard && gr.target m.shard = some m.rank) = some x) :
    let v := (w.handle f).heard f slot
    exec (.ack f m) s = .next (if m.nack then (if c.stopped then v else v.sendOwn f gr { x with resend := true })
      else (v.modChorus f slot m.step fun c => { c with acked := c.acked ++ [m.shard] }).trySent f slot m.step) := by
  subst hw hstep
  change execAck f m s = _
  unfold execAck
  rw [if_neg (State.chorus_taken hcomes hruns)]
  simp only [State.func_handle, hslot, hgroup, hown]
  split <;> rfl

end

/-! ## Results (R262, R265) -/

/-- A result of a step whose mask is here: it is kept if it passes its checks, and otherwise recorded and asked for again. -/
theorem exec_chorusResult {s : State} {f slot : Nat} {m k : ChorusMsg} {gr : Group}
    (hslot : (s.func f).slotOfTag m.groupTag = some slot) (hgroup : (s.func f).groups.getD slot none = some gr)
    (hmask : ((s.func f).chorusStep slot m.step).mask = some k) :
    let v := (s.take f (.chorus m)).1.heard f slot
    exec (.chorusResult f m) s = .next (if payloadSum 0 m.payload = m.checksum ∧ m.maskSum = k.maskSum then
        v.modChorus f slot m.step fun c => { c with
          results := sortBy (fun a b => a.shard < b.shard) (upsert (fun x => x.shard = m.shard) (fun _ => m) m c.results) }
      else ((v.cntMod f 8).note (v.witness f) 7 3 0 1).sendRank f gr m.rank (v.shardDie gr m.shard)
        { gr.msg 5 0 m.step with subject := m.rank, shard := m.shard, pgroup := m.pgroup }) := by
  change execChorusResult f m s = _
  unfold execChorusResult
  simp only [hslot, hgroup, hmask, Bool.and_eq_true, decide_eq_true_eq]
  split <;> rfl

/-! ## Time-outs (R267, R276) -/

theorem exec_chorusWindowExpire {s : State} {f : Nat} {c : ChorusStep}
    (h : leastBy (fun (a b : ChorusStep) => a.step < b.step)
      ((s.func f).chorus.steps.filter fun c => c.window && c.decided.isNone && c.mask.isNone) = some c) :
    exec (.chorusWindowExpire f) s = .next (s.chorusDecide f c.slot c.step) := by
  change execChorusWindowExpire f s = _
  unfold execChorusWindowExpire
  simp only [h]

theorem exec_chorusOrphanTimeout {s : State} {f : Nat} {c : ChorusStep} (rank : Nat)
    (h : ((s.func f).chorus.steps.find? fun c => (s.func f).chorusWaits c.slot c) = some c) :
    exec (.chorusOrphanTimeout f rank) s = .next (((s.modFunc f fun g =>
      { g with groups := modNth (fun x => x.map fun gr => { gr with waiting := true }) c.slot g.groups }).cntMod f 12).emitTo [f] 15 5
        rank c.slot 2) := by
  change execChorusOrphanTimeout f rank s = _
  unfold execChorusOrphanTimeout
  simp only [h]

/-- Settles O47: each message waits or is taken up, and then what the member does is that of the case the statement writes out. -/
theorem chorusDecidesAndDelivers : Obligations.ChorusDecidesAndDelivers := by
  intro s f m slot gr w u
  refine ⟨fun hcomes hruns hslot hgroup => ?taken, fun hstops => ?waiting, fun hslot hgroup k hmask => ?result,
    fun c h => exec_chorusWindowExpire h, fun c rank h => exec_chorusOrphanTimeout rank h⟩
  case taken =>
    intro c
    refine ⟨fun hin hdecided hmask hfirst => ?_, exec_mask_adopts hcomes hruns rfl hslot hgroup,
      fun b hsent => exec_rereq_answers hcomes hruns rfl hslot hgroup rfl hsent, exec_evict_applies hcomes hruns rfl hslot,
      fun x hown => exec_ack_heard hcomes hruns rfl hslot hgroup rfl hown⟩
    have keeps hdecides := exec_sent_keeps hcomes hruns rfl hslot hgroup rfl hdecides hin hdecided hmask hfirst
    refine ⟨fun hcoord => ?_, fun hcoord hdeputy => ?_⟩
    · rw [keeps (.inl hcoord), if_pos hcoord, decide_eq_true hcoord]
      rfl
    · rw [keeps (.inr hdeputy), if_neg hcoord, decide_eq_false hcoord]
      rfl
  case waiting =>
    exact ⟨exec_sent_waits hstops m, exec_mask_waits hstops m, exec_ack_waits hstops m, exec_rereq_waits hstops m,
      exec_evict_waits hstops m⟩
  case result =>
    have arrives := exec_chorusResult hslot hgroup hmask
    refine ⟨fun hsum hsame => ?_, fun hfails => ?_⟩
    · rw [arrives, if_pos ⟨hsum, hsame⟩]
    · rw [arrives, if_neg (not_and_or.2 hfails)]

end Sys2Proof.Machine
end

section
/-!
PROOFS. UPD_PROGRAM, UPD_STEP_SIZE and UPD_FREEZE (O23).
-/
namespace Sys2Proof.Machine

/-! ## The commands of Chanter start (R282, R284, R285) -/

section
variable {s : State} {c : Submission}

theorem exec_updProgram (h : s.starts 0x0501 c = true) :
    exec (.updProgram c) s = .next (updProgram' (s.sent 0x0501 c) (s.begun 0x0501 c)) :=
  congrArg Host.Outcome.next (State.zcp_starts h updProgram')

theorem exec_updStepSize (h : s.starts 0x0503 c = true) :
    exec (.updStepSize c) s = .next (updStepSize' (s.sent 0x0503 c) (s.begun 0x0503 c)) :=
  congrArg Host.Outcome.next (State.zcp_starts h updStepSize')

theorem exec_updFreeze (h : s.starts 0x0504 c = true) :
    exec (.updFreeze c) s = .next (updFreeze' (s.sent 0x0504 c) (s.begun 0x0504 c)) :=
  congrArg Host.Outcome.next (State.zcp_starts h updFreeze')

end

/-! ## Programs (R285, R289) -/

/-- The plan once a program slot holds another program: the carried norms of the groups that name the slot are invalid. -/
def Plan.forgetNorms (slot : Nat) (p : Plan) : Plan :=
  { p with groups := p.groups.zipIdx.map fun x => if (p.pg x.2).prog = slot then { x.1 with normsValid := false } else x.1 }

/-- A program that passes its checks, for a user slot that no active plan names, fills the slot. -/
theorem updProgram'_fills {d : Submission} {u : State} (low : 4 ≤ hb d 24 1) (high : hb d 24 1 ≤ 31)
    (passes : progCheck d.params d.paramLen = none) (idle : (u.func d.func).progActive (hb d 24 1) = false) :
    updProgram' d u = (u.modFunc d.func fun g =>
      { g with
        progs := SMap.insert (hb d 24 1) d.params g.progs
        plans := g.plans.map fun p => p.map (Plan.forgetNorms (hb d 24 1)) }).okJ d := by
  have user : ¬ (hb d 24 1 < 4 || 31 < hb d 24 1) = true := by simp [low, high]
  refine (if_neg user).trans ?_
  simp only [passes]
  exact if_neg (ne_true_of_eq_false idle)

/-! ## Step sizes (R282) -/

/-- The first step for which a step size can still be given, where one is given for step `t`: the one after the last whose U began, else
the first that was accepted, else the lowest that has a step size, else `t` itself. -/
def Plan.nextSized (p : Plan) (t : Nat) : Nat :=
  match p.uBegun, p.firstStep, p.lowStep with
  | some u, _, _ => u + 1 | none, some x, _ => x | none, none, some x => x | none, none, none => t

/-- The plan with new step sizes of the groups `gs` for step `t`, in place of earlier ones of that step. -/
def Plan.withSizes (p : Plan) (t : Nat) (gs : List Nat) (v : Nat → F32) : Plan :=
  { p with
    sizes := (p.sizes.filter fun x => !(x.1 = t && gs.contains x.2.1)) ++ gs.map fun g => (t, g, v g)
    lowStep := some (p.lowStep.getD t) }

section
variable {d : Submission} {u : State} {p : Plan} (loaded : (u.func d.func).plans.getD (hb d 24 1) none = some p)
  (tagged : d.stepTagged = true)
include loaded tagged

/-- Finite step sizes of groups of the plan are kept for a step from the next one to seven further. -/
theorem updStepSize'_keeps (len : d.paramLen = 264)
    (valid : ∀ g ∈ bitsOf 64 (at' d.params 0 8), g < p.pgroups.length ∧ isFin32 (mk32 (at' d.params (8 + 4 * g) 4)) = true)
    (notPast : p.nextSized d.step ≤ d.step) (near : d.step ≤ p.nextSized d.step + 7) :
    updStepSize' d u = (u.setPlan d.func (hb d 24 1) (p.withSizes d.step (bitsOf 64 (at' d.params 0 8))
      fun g => mk32 (at' d.params (8 + 4 * g) 4))).single d stOk := by
  have groupsPass : ((bitsOf 64 (at' d.params 0 8)).any fun g =>
      p.pgroups.length ≤ g || !isFin32 (mk32 (at' d.params (8 + 4 * g) 4))) = false :=
    List.any_eq_false.2 fun g hg => by simp [valid g hg]
  unfold updStepSize'
  simp only [loaded, tagged, len, groupsPass]
  refine (if_neg (by decide)).trans ?_
  exact (if_neg (Nat.not_lt.2 notPast)).trans (if_neg (Nat.not_lt.2 near))

/-! ## Freezes (R284) -/

/-- A freeze of groups of the plan, for a step whose B1 has not begun, takes its place after the earlier ones. -/
theorem updFreeze'_appends (valid : ∀ g ∈ bitsOf 64 (hb d 32 8), g < p.pgroups.length)
    (notBegun : ∀ b, p.b1Begun = some b → b < d.step) :
    let gs := bitsOf 64 (hb d 32 8)
    let v := u.setPlan d.func (hb d 24 1) { p with freezes := p.freezes ++ gs.map fun g => (d.step, g, bit (hb d 40 8) g) }
    updFreeze' d u = if gs.isEmpty then v.single d stOk else v.okJ d := by
  have groupsPass : ((bitsOf 64 (hb d 32 8)).any fun g => p.pgroups.length ≤ g) = false :=
    List.any_eq_false.2 fun g hg => by simp [valid g hg]
  unfold updFreeze'
  simp only [loaded, tagged, groupsPass]
  refine if_neg ?_
  cases begun : p.b1Begun with
  | none => exact Bool.false_ne_true
  | some b => simp [notBegun b begun]

end

/-- Settles O23: each command starts, and its checks leave the case that the statement writes out. -/
theorem chanterCommandsTakeEffect : Obligations.ChanterCommandsTakeEffect := by
  intro s c
  refine ⟨fun h => ?program, fun h p => ?stepSize, fun h p => ?freeze⟩
  case program =>
    intro d u slot low high passes idle clear
    exact (exec_updProgram h).trans (congrArg Host.Outcome.next (updProgram'_fills low high passes idle))
  case stepSize =>
    intro d u slot gs v loaded tagged len valid n notPast near
    exact (exec_updStepSize h).trans (congrArg Host.Outcome.next (updStepSize'_keeps loaded tagged len valid notPast near))
  case freeze =>
    intro d u slot gs loaded tagged valid notBegun v
    exact (exec_updFreeze h).trans (congrArg Host.Outcome.next (updFreeze'_appends loaded tagged valid notBegun))

end Sys2Proof.Machine
end
section
/-!
PROOFS. What the registers of the module, of a function's endpoint and of a die take when they are written (O32).
-/
namespace Sys2Proof.Machine

/-! ## A write by host software at a register that is there (R4 to R7) -/

/-- The offset of a function names the register `o` of the block `b`, and it can be written. -/
structure State.Offers (s : State) (f off : Nat) (b : RegBlk) (o : Nat) : Prop where
  func : s.fns.contains f = true
  aligned : off % 8 = 0
  place : s.place f off = some (b, o)
  here : s.absentBlk b = false
  value : (s.regValue f b o).isSome = true
  powered : ∀ d, b.die? = some d → (s.die d).powered = true

section
variable {s : State} {f off src v : Nat} {b : RegBlk} {o : Nat}

/-- A register of the module or of a function is in no die. -/
theorem State.Offers.ofModule (hf : s.fns.contains f = true) (h8 : off % 8 = 0) (hp : s.place f off = some (b, o))
    (hb : b.die? = none) (ha : s.absentBlk b = false) (hv : (s.regValue f b o).isSome = true) : s.Offers f off b o :=
  ⟨hf, h8, hp, ha, hv, fun _ e => nomatch hb.symm.trans e⟩

/-- A register of a die that is in service and whose rails are up. -/
theorem State.Offers.ofDie {die : Nat} (hf : s.fns.contains f = true) (hdie : die < if s.quad then 1 else 4)
    (hup : s.up (s.physDie f die) = true) (hpower : (s.die (s.physDie f die)).powered = true) (hk : off < 0xC00000) (h8 : off % 8 = 0)
    (hp : dieBlk (s.physDie f die) off = some (b, o)) (hb : b.die? = some (s.physDie f die))
    (ha : s.absentBlk b = !s.up (s.physDie f die)) (hv : (s.regValue f b o).isSome = true) :
    s.Offers f (0x400000 + 0xC00000 * die + off) b o where
  func := hf
  aligned := by omega
  place := (State.place_die hdie hk).trans hp
  here := by rw [ha, hup]; rfl
  value := hv
  powered := fun _ e => Option.some.inj (hb.symm.trans e) ▸ hpower

variable (h : s.Offers f off b o)
include h

theorem State.Offers.regPut : Recorded (s.regStore f b o v) (s.regPut f src off 8 v) := by
  obtain ⟨old, hv⟩ := Option.isSome_iff_exists.1 h.value
  exact State.regPut_at h.func h.aligned h.place h.here hv h.powered

/-- A register without RW fields is not journalled (R380). -/
theorem State.Offers.regPut_unjournalled (hm : rwMask b o = 0) : s.regPut f src off 8 v = s.regStore f b o v := by
  obtain ⟨old, hv⟩ := Option.isSome_iff_exists.1 h.value
  unfold State.regPut
  simp only [h.func, h.aligned, h.place, h.here, hv, hm, Nat.and_zero, Bool.not_true, Bool.false_eq_true, ne_eq,
    not_true_eq_false, decide_false, Bool.or_self, if_false]
  refine if_neg ?_
  cases e : b.die? with
  | none => exact Bool.false_ne_true
  | some d => simp [h.powered d e]

variable (hlive : s.live = true) (hw : s.sec.writes = [])
  (hs : recordMask b o = 0 ∨ s.procStops (.security (s.sec.role % 2)) = false)
include hlive hw hs

/-- Only a register of the configuration record waits for the security core (Tables 17.1 and 17.4). -/
theorem State.Offers.hostReg_put (w : Word) : s.hostReg f off w = s.regPut f 97 off 8 w.toNat := by
  unfold State.hostReg State.regWrite
  rw [if_pos hlive, State.heldWrites_nil hw, h.place]
  refine if_neg ?_
  rcases hs with hs | hs <;> simp [hs]

theorem State.Offers.hostReg (w : Word) : Recorded (s.regStore f b o w.toNat) (s.hostReg f off w) := by
  rw [h.hostReg_put hlive hw hs]
  exact h.regPut

end

/-! ## Records that go out once the ring is open (R453) -/

/-- What CNT_NOTECFG sets of a function's ring. -/
def Func.ringSetup (g : Func) : Bool × Nat × Bool × Nat := (g.note.en, g.note.vector, g.note.irqEn, g.note.base)

/-- `t` has the rings of `s`. -/
def SameRings (s t : State) : Prop := t.funcs.map Func.ringSetup = s.funcs.map Func.ringSetup

theorem SameRings.func {s t : State} (h : SameRings s t) (f : Nat) : (t.func f).ringSetup = (s.func f).ringSetup := by
  unfold State.func
  rw [← List.getD_map (f := Func.ringSetup), h, List.getD_map]

/-- A change of a function that leaves the setup of its ring. -/
theorem SameRings.modFunc {s t : State} (h : SameRings s t) {f : Nat} {g : Func → Func}
    (hg : (g (t.func f)).ringSetup = (t.func f).ringSetup) : SameRings s (t.modFunc f g) :=
  (modNth_map_at Func.ringSetup hg).trans h

theorem SameRings.poke {s t : State} (h : SameRings s t) (k : Nat) (bs : List Byte) : SameRings s (t.poke k bs) := by
  unfold State.poke State.peerAccess
  split
  · exact h
  · split
    · exact h
    · split
      · exact h
      · exact h.modFunc rfl

theorem SameRings.devWrite {s t : State} (h : SameRings s t) (f x : Nat) (bs : List Byte) : SameRings s (t.devWrite f x bs) := by
  unfold State.devWrite State.store
  split
  · refine List.foldlRecOn (motive := SameRings s) _ _ (h.poke _ _) fun u hu m _ => ?_
    dsimp only
    split
    · exact hu
    · exact hu.poke _ _
  · exact h

theorem SameRings.put {s t : State} (h : SameRings s t) (o : Output) : SameRings s (t.put o) := h

theorem SameRings.setSide {s t : State} (h : SameRings s t) (x : Sideband) : SameRings s { t with side := x } := h

theorem SameRings.interrupt {s t : State} (h : SameRings s t) (f v : Nat) : SameRings s (t.interrupt f v) := by
  unfold State.interrupt
  split
  · exact h.put _
  · exact h

theorem SameRings.ringWrite {s t : State} (h : SameRings s t) (f : Nat) (n : Note) : SameRings s (t.ringWrite f n) := by
  unfold State.ringWrite
  dsimp only
  split
  · exact ((((h.devWrite f _ n.bytes).modFunc rfl).setSide _).put _).interrupt _ _
  · exact (((h.devWrite f _ n.bytes).modFunc rfl).setSide _).put _

theorem SameRings.flushNotes (s : State) (f : Nat) : SameRings s (s.flushNotes f) := by
  unfold State.flushNotes
  split
  · exact List.foldlRecOn (motive := SameRings s) _ _ (SameRings.modFunc rfl rfl) fun u h n _ => h.ringWrite f n
  · rfl

theorem State.writeNotecfg_ringSetup (s : State) {f : Nat} (v : Nat) (hlen : f < s.funcs.length) :
    ((s.writeNotecfg f v).func f).ringSetup = (bit v 0, fld v 1 6, bit v 7, 4096 * fld v 12 40) := by
  unfold State.writeNotecfg
  dsimp only
  rw [(SameRings.flushNotes _ f).func f, State.func_modFunc _ _ _ hlen]
  rfl

/-! ## Messages that go out once the function has a FABRIC_ID (R418, R421) -/

theorem State.queueOut_ports (s : State) (m : Sent) (b : List Byte) :
    ∃ ports, (s.queueOut m b).1 = { s with ports := ports } := by
  unfold State.queueOut
  dsimp only
  split
  · exact ⟨_, rfl⟩
  · exact ⟨s.ports, rfl⟩

/-- Messages that leave change the ports and the function's list of them alone. -/
theorem State.sendHeld_rest (s : State) (f : Nat) :
    (s.sendHeld f).mem = s.mem ∧
      (s.sendHeld f).funcs.map (fun g => g.ep.fabricId) = s.funcs.map (fun g => g.ep.fabricId) := by
  unfold State.sendHeld
  refine List.foldlRecOn (motive := fun u : State => u.mem = s.mem ∧
    u.funcs.map (fun g => g.ep.fabricId) = s.funcs.map (fun g => g.ep.fabricId)) _ _ ⟨rfl, rfl⟩ fun u ⟨mem, ids⟩ m _ => ?_
  obtain ⟨ports, queued⟩ := u.queueOut_ports m (u.sentBytes m)
  split
  next v p e =>
    have same : v = { u with ports := ports } := (congrArg Prod.fst e).symm.trans queued
    subst same
    split
    · exact ⟨mem, ids⟩
    · exact ⟨mem, (modNth_map (fun g : Func => g.ep.fabricId) (by exact fun _ => rfl) f u.funcs).trans ids⟩

theorem State.sendHeld_fabricId (s : State) (f g : Nat) : ((s.sendHeld f).func g).ep.fabricId = (s.func g).ep.fabricId := by
  obtain ⟨-, ids⟩ := s.sendHeld_rest f
  unfold State.func
  rw [← List.getD_map (f := fun g : Func => g.ep.fabricId), ids, List.getD_map]

theorem State.sendHeld_none {s : State} {f : Nat} (h : (s.func f).ep.unacked.all (fun m => m.port.isSome) = true) :
    s.sendHeld f = s := by
  have none : (s.func f).ep.unacked.filter (fun m => m.port.isNone) = [] :=
    List.filter_eq_nil_iff.2 fun m hm => by simpa using Option.isSome_iff_ne_none.1 (List.all_eq_true.1 h m hm)
  unfold State.sendHeld
  rw [none]
  rfl

/-- The block of a port within its die (Table 13.4). -/
theorem dieBlk_port {d k o : Nat} (hk : k < 6) (ho : o < 0x10000) :
    dieBlk d (0x80000 + 0x10000 * k + o) = some (.fab (6 * d + k), o) := by
  have port : (0x10000 * k + o) / 0x10000 = k := by omega
  have offset : (0x80000 + (0x10000 * k + o)) % 0x10000 = o := by omega
  unfold dieBlk
  simp only [minus_eq, Nat.add_assoc, Nat.add_sub_cancel_left, port, offset]
  rw [if_neg (by omega), if_pos (by simp; omega)]

/-! ## The registers of the module and of a function -/

section
variable {s : State} {f : Nat} (v : Word) (hlive : s.live = true) (hw : s.sec.writes = []) (hf : s.fns.contains f = true)
include hlive hw hf

theorem exec_modCompatWrite (hs : s.procStops (.security (s.sec.role % 2)) = false) :
    ∃ t, exec (.modCompatWrite f v) s = .next t ∧
      Recorded { s with cfg := { s.cfg with zcpPin := fld v.toNat 0 8, rwPin := fld v.toNat 8 2 } } t :=
  ⟨_, rfl, State.Offers.hostReg (b := .mod) (o := 0x20) (.ofModule hf rfl rfl rfl rfl rfl) hlive hw (.inr hs) v⟩

theorem exec_memGrantctlWrite : ∃ t, exec (.memGrantctlWrite f v) s = .next t ∧ Recorded (s.setGrant f (fld v.toNat 0 11)) t :=
  ⟨_, rfl, State.Offers.hostReg (b := .mem) (o := 0x08) (.ofModule hf rfl rfl rfl rfl rfl) hlive hw (.inl rfl) v⟩

theorem exec_cntNotecfgWrite : ∃ t, exec (.cntNotecfgWrite f v) s = .next t ∧ Recorded (s.writeNotecfg f v.toNat) t :=
  ⟨_, rfl, State.Offers.hostReg (b := .cnt) (o := 0x18) (.ofModule hf rfl rfl rfl rfl rfl) hlive hw (.inl rfl) v⟩

omit hf in
/-- The journal is read, and its selector is not journalled. -/
theorem exec_jrnSelWrite : exec (.jrnSelWrite v) s = .next { s with journal := { s.journal with
    pos := fld v.toNat 0 12, latched := SMap.find (fld v.toNat 0 12) s.journal.ring } } := by
  have first : s.fns.contains 0 = true := by
    unfold State.fns
    split <;> rfl
  have offers : s.Offers 0 0x50008 .jrn 0x08 := .ofModule first rfl rfl rfl rfl rfl
  exact congrArg Host.Outcome.next ((offers.hostReg_put hlive hw (.inl rfl) v).trans (offers.regPut_unjournalled rfl))

omit hlive hw in
theorem State.upDies_fnOf {d : Nat} (hd : d ∈ s.upDies f) : s.fnOf d = f ∧ s.up d = true ∧ d < 4 := by
  obtain ⟨listed, up⟩ := List.mem_filter.1 hd
  have low : d < 4 := by
    unfold State.up at up
    simpa using (Bool.and_eq_true_iff.1 up).2
  refine ⟨?_, up, low⟩
  unfold State.fns at hf
  unfold State.diesOf at listed
  unfold State.fnOf
  cases quad : s.quad with
  | false => simpa [quad, eq_comm] using hf
  | true => simpa [quad] using listed

/-- FABRIC_ID is written through the first port of the function's lowest die in service. -/
theorem exec_fabPortEpWrite {d : Nat} {l : List Nat} (hdies : s.upDies f = d :: l) (hpower : (s.die d).powered = true) :
    ∃ t, exec (.fabPortEpWrite f v) s = .next t ∧
      Recorded ((s.modFunc f fun g => { g with ep := { g.ep with fabricId := fld v.toNat 0 48 } }).sendHeld f) t := by
  obtain ⟨hown, hup, hlow⟩ := State.upDies_fnOf hf (d := d) (hdies ▸ List.mem_cons_self)
  have phys : s.physDie f (s.locDie d) = d := hown ▸ s.physDie_locDie d
  have die : 6 * d / 6 = d := Nat.mul_div_cancel_left d (by decide)
  have offers : s.Offers f (0x400000 + 0xC00000 * s.locDie d + 0x80018) (.fab (6 * d)) 0x18 := by
    refine .ofDie hf (State.locDie_lt hlow) (by rwa [phys]) (by rwa [phys]) (by decide) rfl ?_ ?_ ?_ rfl
    · rw [phys]
      exact dieBlk_port (k := 0) (o := 0x18) (by decide) (by decide)
    · rw [phys]
      exact congrArg some die
    · rw [phys]
      exact congrArg (fun e => !s.up e) die
  have address : s.portBase (6 * (s.upDies f).headD (s.physDie f 0)) + 0x18 = 0x400000 + 0xC00000 * s.locDie d + 0x80018 := by
    rw [hdies]
    unfold State.portBase State.dieBase
    rw [List.headD_cons, die, Nat.mul_mod_right]
  refine ⟨_, rfl, ?_⟩
  rw [address]
  exact offers.hostReg hlive hw (.inl rfl) v

end

/-! ## The registers of a die -/

section
variable {s : State} {f die : Nat} (v : Word) (hlive : s.live = true) (hw : s.sec.writes = []) (hf : s.fns.contains f = true)
  (hdie : die < if s.quad then 1 else 4) (hup : s.up (s.physDie f die) = true) (hpower : (s.die (s.physDie f die)).powered = true)
include hlive hw hf hdie hup hpower

omit hlive hw hf hup hpower in
theorem State.dieNumber_lt : die < 4 := by
  split at hdie <;> omega

theorem exec_memIlvcfgPending (hs : s.procStops (.security (s.sec.role % 2)) = false) :
    ∃ t, exec (.memIlvcfgPending f die v) s = .next t ∧ Recorded (s.setIlvPending (s.physDie f die) (fld v.toNat 16 14)) t := by
  refine ⟨_, congrArg Host.Outcome.next (if_pos (State.dieNumber_lt hdie)), ?_⟩
  exact State.Offers.hostReg (b := .memDie (s.physDie f die)) (o := 0x00)
    (.ofDie hf hdie hup hpower (by decide) rfl rfl rfl rfl rfl) hlive hw (.inr hs) v

theorem exec_axlModeWrite (hs : s.procStops (.security (s.sec.role % 2)) = false) :
    ∃ t, exec (.axlModeWrite f die v) s = .next t ∧
      Recorded (State.modAxl { s with cfg := { s.cfg with axlMode := s.cfg.axlMode.set (s.physDie f die) (fld v.toNat 0 2) } }
        (s.physDie f die) fun a => { a with slackTgt := fld v.toNat 8 8 }) t := by
  refine ⟨_, congrArg Host.Outcome.next (if_pos (State.dieNumber_lt hdie)), ?_⟩
  exact State.Offers.hostReg (b := .axl (s.physDie f die)) (o := 0x00)
    (.ofDie hf hdie hup hpower (by decide) rfl rfl rfl rfl rfl) hlive hw (.inr hs) v

theorem exec_memHostresWrite :
    ∃ t, exec (.memHostresWrite f die v) s = .next t ∧ Recorded (s.setHostres (s.physDie f die) v.toNat) t := by
  refine ⟨_, congrArg Host.Outcome.next (if_pos (State.dieNumber_lt hdie)), ?_⟩
  exact State.Offers.hostReg (b := .memDie (s.physDie f die)) (o := 0x08)
    (.ofDie hf hdie hup hpower (by decide) rfl rfl rfl rfl rfl) hlive hw (.inl rfl) v

end

/-- Settles O32: each register stores its fields, and a write adds to that the journal entry and the measurement alone. -/
theorem registersTakeTheirFields : Obligations.RegistersTakeTheirFields := by
  refine ⟨fun s f v hlive hw hf hlen => ⟨fun hs => ?compat, ?grant, ?notes, ?journal, fun d l hdies hpower => ?fabric⟩,
    fun s f die v hlive hw hf hdie => ?_⟩
  case compat =>
    obtain ⟨_, ran, j, m, n, rfl⟩ := exec_modCompatWrite v hlive hw hf hs
    exact ⟨_, ran, rfl, rfl, rfl, rfl, rfl⟩
  case grant =>
    obtain ⟨_, ran, j, m, n, rfl⟩ := exec_memGrantctlWrite v hlive hw hf
    have granted := s.func_modFunc f (fun g =>
      { g with grantGib := max g.granted (min (if s.quad then 384 else 1536) (fld v.toNat 0 11)) }) hlen
    exact ⟨_, ran, (congrArg Func.grantGib granted :), (congrArg Func.grants granted :), rfl⟩
  case notes =>
    obtain ⟨_, ran, j, m, n, rfl⟩ := exec_cntNotecfgWrite v hlive hw hf
    have ring := s.writeNotecfg_ringSetup v.toNat hlen
    exact ⟨_, ran, congrArg (·.1) ring, congrArg (·.2.1) ring, congrArg (·.2.2.1) ring, congrArg (·.2.2.2) ring⟩
  case journal => exact ⟨_, exec_jrnSelWrite v hlive hw, rfl, rfl, rfl⟩
  case fabric =>
    obtain ⟨_, ran, j, m, n, rfl⟩ := exec_fabPortEpWrite v hlive hw hf hdies hpower
    have stored := s.func_modFunc f (fun g => { g with ep := { g.ep with fabricId := fld v.toNat 0 48 } }) hlen
    refine ⟨_, ran, ?_, (State.sendHeld_rest _ f).1, fun hall => ?_⟩
    · exact (State.sendHeld_fabricId _ f f).trans (congrArg (fun g : Func => g.ep.fabricId) stored)
    · rw [State.sendHeld_none (by rw [stored]; exact hall)]
      exact ⟨congrArg Func.ep stored, rfl⟩
  case _ =>
    intro d hup hpower hlen
    refine ⟨fun hs => ?share, fun hs => ?axolotl, ?reserve⟩
    case share =>
      obtain ⟨_, ran, j, m, n, rfl⟩ := exec_memIlvcfgPending v hlive hw hf hdie hup hpower hs
      exact ⟨_, ran, rfl, rfl, rfl⟩
    case axolotl =>
      obtain ⟨_, ran, j, m, n, rfl⟩ := exec_axlModeWrite v hlive hw hf hdie hup hpower hs
      exact ⟨_, ran, rfl, congrArg Die.axl (State.die_modDie _ d _ hlen), rfl⟩
    case reserve =>
      obtain ⟨_, ran, j, m, n, rfl⟩ := exec_memHostresWrite v hlive hw hf hdie hup hpower
      exact ⟨_, ran, rfl, rfl, rfl⟩

end Sys2Proof.Machine
end

section
/-!
PROOFS. BAR2 (O35), and memory that is lent to peers and borrowed from them (O45).
-/
namespace Sys2Proof.Machine

/-! ## BAR2 (R308, R315, R316) -/

section
variable {s : State} {f off : Nat} {r : BarRead} {b : List Byte} (hf : s.fns.contains f = true) (hready : s.ready = true)
  (hawake : s.asleep f = false)
include hf hready hawake

theorem State.bar2_answers : (!s.fns.contains f || !s.ready || s.asleep f) = false := by simp only [hf, hready, hawake]; rfl

/-- Outside the window or outside memory a write stores nothing, a read gives zero, and either is counted. -/
theorem exec_bar2Access_outOfRange (write : Bool) :
    let u := s.eccMet r.memory
    let n := if write then b.length else r.len
    0 < n → u.bar2Size f < off + n ∨ u.inMemory f (GiB * (s.func f).bar2Gib + off) n = false →
    exec (.bar2Access f off write r b) s = .next (if write then u.violOor f else (u.violOor f).put (.readData 0 n)) := by
  intro u n hn hout
  have outside : (decide (u.bar2Size f < off + n) || !u.inMemory f (GiB * (s.func f).bar2Gib + off) n) = true := by
    simpa only [Bool.or_eq_true, decide_eq_true_eq, Bool.not_eq_true'] using hout
  exact (if_neg (by rw [State.bar2_answers hf hready hawake]; decide)).trans ((if_neg (Nat.ne_of_gt hn)).trans (if_pos outside))

/-- Inside them the access reaches memory. -/
theorem exec_bar2Access_inside (write : Bool) :
    let a := GiB * (s.func f).bar2Gib + off
    let u := s.eccMet r.memory
    let n := if write then b.length else r.len
    0 < n → off + n ≤ u.bar2Size f → u.inMemory f a n = true →
    exec (.bar2Access f off write r b) s = if write then .next (u.hostWrite f a b) else match u.key f a with
      | some k => .next ((u.checkedRead k n).2.put (.readData (leNat (u.checkedRead k n).1) n))
      | none => .next u := by
  intro a u n hn hwindow hmem
  have inside : (decide (u.bar2Size f < off + n) || !u.inMemory f a n) = false := by
    simp only [hmem, decide_eq_false (Nat.not_lt.2 hwindow), Bool.not_true, Bool.or_self]
  exact (if_neg (by rw [State.bar2_answers hf hready hawake]; decide)).trans ((if_neg (Nat.ne_of_gt hn)).trans
    (if_neg (by rw [inside]; decide)))

end

/-- Settles O35: an access inside the window and memory, and one outside either. -/
theorem bar2ReachesMemory : Obligations.Bar2ReachesMemory := by
  intro s f off r b hf hready hawake a u len
  refine ⟨fun h => ?clean, fun hn hwindow hmem => ?written, fun hn hwindow hmem k hk => ?read, fun hn hout => ?readOut,
    fun hn hout => ?writtenOut⟩
  case clean => exact congrArg s.eccMet h
  case written => exact exec_bar2Access_inside hf hready hawake true hn hwindow hmem
  case read =>
    have reached := exec_bar2Access_inside (b := b) hf hready hawake false hn hwindow hmem
    rwa [hk] at reached
  case readOut => exact exec_bar2Access_outOfRange hf hready hawake false hn hout
  case writtenOut => exact exec_bar2Access_outOfRange hf hready hawake true hn hout

/-! ## Grants (R313) -/

section
variable {s : State} {f peer gib : Nat}

/-- A lender counts on from what it has granted, and answers with what it can grant more. -/
theorem exec_memGrantRequest (hf : s.fns.contains f = true) (hdies : (s.upDies f).isEmpty = false) :
    let u := (s.take f (.grantReq gib)).1
    let r := u.grant f peer (min gib 1536)
    exec (.memGrantRequest f peer gib) s =
      .next (r.1.send f ((r.1.upDies f).headD 0) peer 0 (.grantReply r.2 (u.func f).granted)) :=
  if_neg (by rw [hf, hdies]; decide)

theorem exec_memGrantReply (hf : s.fns.contains f = true) :
    exec (.memGrantReply f peer gib) s = .next ((s.modFunc f (Func.install peer 256 gib)).peerAnswered f peer gib) :=
  if_neg (by rw [hf]; decide)

/-- A command that still misses memory asks the next peer. -/
theorem State.askOn_next {a : MemAsk} {e : Nat} {rest : List Nat} (hrest : a.rest = e :: rest) (hneed : a.need ≠ 0) :
    s.askOn f a = (s.send f ((s.upDies f).headD 0) e 0 (.grantReq a.need), { a with waits := some e, rest := rest }) := by
  unfold State.askOn
  rw [hrest]
  exact if_neg hneed

/-- One that misses none asks no more. -/
theorem State.askOn_done {a : MemAsk} (hneed : a.need = 0) : s.askOn f a = (s, { a with waits := none, rest := [] }) := by
  unfold State.askOn
  split
  next hrest => rw [← hrest]
  next => exact if_pos hneed

theorem State.peerAnswered_unasked (hask : (s.func f).asks.find? (fun a => a.waits = some peer) = none) :
    s.peerAnswered f peer gib = s := by
  unfold State.peerAnswered
  rw [hask]

/-- The command that asked goes on asking, and is the same command still; a PLAN_LOAD that asks no more goes on loading. -/
theorem State.peerAnswered_waits {a b : MemAsk} {u : State}
    (hask : (s.func f).asks.find? (fun a => a.waits = some peer) = some a)
    (hon : s.askOn f { a with need := a.need - gib } = (u, b))
    (hload : b.waits = none → ∀ c, b.sub = some c → c.opcode ≠ 0x0301) :
    s.peerAnswered f peer gib = u.modFunc f fun g => { g with asks := g.asks.map fun x => if x = a then b else x } := by
  unfold State.peerAnswered
  rw [hask]
  dsimp only
  rw [hon]
  dsimp only
  split
  next c hwaits hsub => exact if_pos (hload hwaits c hsub)
  next => rfl

end

/-! ## Accesses to what is lent (R305, R314) -/

/-- The grants of the peer that an access covers, and their keys. -/
def State.lentPieces (u : State) (f : Nat) (m : PeerMem) : List (Nat × Nat) :=
  pieces ((u.func f).grants.filter fun g => g.peer = m.peer) m.offset (if m.write then m.data.length else m.len)

/-- The answer to an access of a peer. -/
def State.peerAnswer (v : State) (f : Nat) (m : PeerMem) (b : List Byte) : State :=
  v.send f ((v.upDies f).headD 0) m.peer 0 (.peerResp { m with data := b })

section
variable {s : State} {f : Nat} {m : PeerMem} (hf : s.fns.contains f = true) (hdies : (s.upDies f).isEmpty = false)
include hf hdies

theorem exec_peerMemRequest_outside :
    let u := (s.take f (.peerReq m)).1
    let n := if m.write then m.data.length else m.len
    ((u.lentPieces f m).map (·.2)).sum ≠ n →
    exec (.peerMemRequest f m) s = .next ((u.violOor f).peerAnswer f m (if m.write then [] else zeros n)) := fun h =>
  (if_neg (by rw [hf, hdies]; decide)).trans (if_pos (by simpa [State.lentPieces] using h))

theorem exec_peerMemRequest_write :
    let u := (s.take f (.peerReq m)).1
    ((u.lentPieces f m).map (·.2)).sum = (if m.write then m.data.length else m.len) → m.write = true →
    exec (.peerMemRequest f m) s = .next (((u.lentPieces f m).foldl (fun (x : State × List Byte) p =>
      (x.1.store p.1 (x.2.take p.2), x.2.drop p.2)) (u, m.data)).1.peerAnswer f m []) := fun h hwrite =>
  (if_neg (by rw [hf, hdies]; decide)).trans ((if_neg (by simpa [State.lentPieces] using h)).trans (if_pos hwrite))

/-- A read that lies in one piece of what the peer was granted. -/
theorem exec_peerMemRequest_read {a n : Nat} :
    let u := (s.take f (.peerReq m)).1
    ((u.lentPieces f m).map (·.2)).sum = (if m.write then m.data.length else m.len) → m.write = false → u.lentPieces f m = [(a, n)] →
    exec (.peerMemRequest f m) s = .next ((u.checkedRead a n).2.peerAnswer f m (u.checkedRead a n).1) := by
  intro u h hread hone
  refine (if_neg (by rw [hf, hdies]; decide)).trans ((if_neg (by simpa [State.lentPieces] using h)).trans
    ((if_neg (by rw [hread]; decide)).trans ?_))
  change Host.Outcome.next (let x := (u.lentPieces f m).foldl _ ([], u); x.2.peerAnswer f m x.1) = _
  rw [hone]
  rfl

end

/-! ## Accesses to what is borrowed (R314) -/

section
variable {s : State} {f a : Nat} {ap : Aperture} {p : PeerAccess} {rest : List PeerAccess}
  (hap : SMap.find a (s.func f).apertures = some ap) (hpending : ap.pending = p :: rest)
include hap hpending

/-- The lender has answered the oldest access. -/
theorem exec_peerMemResponse (data : List Byte) :
    let u := (s.take f (.peerResp { p.mem with data := data })).1.modAperture f a fun x => { x with pending := rest }
    let b := (data ++ zeros p.mem.len).take p.mem.len
    exec (.peerMemResponse f a data) s =
      .next (if p.mem.write then u else (u.apImage f a ap.base p rest b).rowAnswered f p b) := by
  intro u b
  change execPeerMemResponse f a data s = _
  unfold execPeerMemResponse
  rw [hap]
  dsimp only
  rw [hpending, apply_ite Host.Outcome.next]

/-- The lender has not answered it in time. -/
theorem exec_peerAccessTimeout :
    let u := s.modAperture f a fun x => { x with pending := rest }
    let v := (u.cntDie (u.lead f) 45).emit (u.lead f) 7 a (apBase + apSpan * a + (p.mem.offset - ap.base)) 3
    exec (.peerAccessTimeout f a) s = .next (if p.mem.write then v.apImage f a ap.base p rest p.old
      else (v.apImage f a ap.base p rest (zeros p.mem.len)).rowAnswered f p (zeros p.mem.len)) := by
  intro u v
  change execPeerAccessTimeout f a s = _
  unfold execPeerAccessTimeout
  rw [hap]
  dsimp only
  rw [hpending, apply_ite Host.Outcome.next]

end

/-- Settles O45: the lender's part, a grant that comes, and the answers of the borrower's accesses. -/
theorem peerMemoryIsLentAndBorrowed : Obligations.PeerMemoryIsLentAndBorrowed := by
  intro s f hf
  refine ⟨fun peer gib hdies => exec_memGrantRequest hf hdies, fun peer gib => ?granted, fun m hdies => ?lent,
    fun a ap p rest hap hpending => ⟨exec_peerMemResponse hap hpending, exec_peerAccessTimeout hap hpending⟩⟩
  case granted =>
    intro u
    rw [exec_memGrantReply hf]
    refine ⟨fun hask => ?_, fun a hask => ⟨fun e rest hrest hmore => ?_, fun hall hload => ?_⟩⟩
    · rw [State.peerAnswered_unasked hask]
    · have on := State.askOn_next (s := u) (f := f) (a := { a with need := a.need - gib }) hrest (Nat.sub_ne_zero_of_lt hmore)
      rw [State.peerAnswered_waits hask on fun h => nomatch h]
    · have none : a.need - gib = 0 := Nat.sub_eq_zero_of_le hall
      have on := State.askOn_done (s := u) (f := f) (a := { a with need := a.need - gib }) none
      rw [State.peerAnswered_waits hask on fun _ => hload, none]
  case lent =>
    exact ⟨exec_peerMemRequest_outside hf hdies, exec_peerMemRequest_write hf hdies,
      fun hwhole hread a hone => exec_peerMemRequest_read hf hdies hwhole hread hone⟩

end Sys2Proof.Machine
end

section
/-!
PROOFS. Sensors, limits, clamps and droop (O54).
-/
namespace Sys2Proof.Machine

/-! ## Folds that reach each unit once -/

/-- What a fold over different elements does at one of them: the others leave `Q` before it and `P` behind it. -/
theorem foldl_once {α β : Type} {g : β → α → β} {l : List α} (hl : l.Nodup) {x : α} (hx : x ∈ l) {Q P : β → Prop} {u : β} (hQ : Q u)
    (before : ∀ u y, y ≠ x → Q u → Q (g u y)) (reached : ∀ u, Q u → P (g u x)) (behind : ∀ u y, y ≠ x → P u → P (g u y)) :
    P (l.foldl g u) := by
  obtain ⟨a, b, rfl⟩ := List.append_of_mem hx
  obtain ⟨ha, hb⟩ : x ∉ a ∧ x ∉ b := by
    have := List.nodup_middle.1 hl
    simpa [not_or] using (List.nodup_cons.1 this).1
  rw [List.foldl_append, List.foldl_cons]
  refine List.foldlRecOn (motive := P) b g (reached _ ?_) fun u hu y hy => behind u y (fun e => hb (e ▸ hy)) hu
  exact List.foldlRecOn (motive := Q) a g hQ fun u hu y hy => before u y (fun e => ha (e ▸ hy)) hu

/-! ## Clocks that stretch (R322) -/

theorem State.clu_modClu_ne (s : State) {d c e k : Nat} (g : Cluster → Cluster) (h : d * 20 + c ≠ e * 20 + k) :
    (s.modClu d c g).clu e k = s.clu e k := modNth_getD_ne g _ _ h

theorem State.stretch_rest (s : State) (d : Nat) : ∃ cs, cs.length = s.clusters.length ∧ s.stretch d = { s with clusters := cs } := by
  refine List.foldlRecOn (motive := fun u : State => ∃ cs, cs.length = s.clusters.length ∧ u = { s with clusters := cs }) _ _
    ⟨s.clusters, rfl, rfl⟩ fun u h c _ => ?_
  obtain ⟨cs, hlen, rfl⟩ := h
  exact ⟨_, (modNth_length _ _ _).trans hlen, rfl⟩

theorem State.stretch_dies (s : State) (d : Nat) : (s.stretch d).dies = s.dies := by
  obtain ⟨cs, -, e⟩ := s.stretch_rest d
  rw [e]

theorem State.stretch_cores (s : State) (d : Nat) : (s.stretch d).cores = s.cores := by
  obtain ⟨cs, -, e⟩ := s.stretch_rest d
  rw [e]

theorem State.stretch_clusters_length (s : State) (d : Nat) : (s.stretch d).clusters.length = s.clusters.length := by
  obtain ⟨cs, hlen, e⟩ := s.stretch_rest d
  rw [e]
  exact hlen

theorem State.stretch_die (s : State) (d e : Nat) : (s.stretch d).die e = s.die e :=
  congrArg (fun l => l.getD e (Die.reset 0 0)) (s.stretch_dies d)

/-- Every cluster of the die stretches while a limit acts on the die. -/
theorem State.stretch_limited (s : State) {d c : Nat} (hc : c < 20) (hlen : d * 20 + 20 ≤ s.clusters.length) :
    ((s.stretch d).clu d c).limited = ((s.die d).power.limIn || (s.die d).power.limRail) := by
  unfold State.stretch
  refine foldl_once List.nodup_range (List.mem_range.2 hc) (Q := fun u : State => d * 20 + 20 ≤ u.clusters.length) (u := s)
    (P := fun u : State => (u.clu d c).limited = ((s.die d).power.limIn || (s.die d).power.limRail)) hlen ?_ ?_ ?_
  · exact fun u y _ hu => by rwa [State.modClu, modNth_length]
  · exact fun u hu => congrArg Cluster.limited (u.clu_modClu d c _ (by omega))
  · exact fun u y hy hu => by rwa [u.clu_modClu_ne _ (by omega)]

/-- The clusters of the other dies do not. -/
theorem State.stretch_clu_ne (s : State) {d e c : Nat} (hne : d ≠ e) (hc : c < 20) : (s.stretch d).clu e c = s.clu e c := by
  refine List.foldlRecOn (motive := fun u : State => u.clu e c = s.clu e c) _ _ rfl fun u hu k hk => ?_
  have := List.mem_range.1 hk
  rwa [u.clu_modClu_ne _ (by omega)]

/-! ## The limits (R322) -/

/-- A limit acts on a die. -/
def State.limitDie (s : State) (d : Nat) (h : Power → Power) : State := (s.modPower d h).stretch d

section
variable {s : State} {d : Nat} (h : Power → Power)

theorem State.limitDie_rest : ∃ dies clusters, s.limitDie d h = { s with dies := dies, clusters := clusters } := by
  obtain ⟨cs, -, e⟩ := (s.modPower d h).stretch_rest d
  exact ⟨_, cs, e⟩

theorem State.limitDie_die_ne {e : Nat} (hne : d ≠ e) : (s.limitDie d h).die e = s.die e :=
  (State.stretch_die _ d e).trans (s.die_modDie_ne _ hne)

theorem State.limitDie_lengths :
    (s.limitDie d h).dies.length = s.dies.length ∧ (s.limitDie d h).clusters.length = s.clusters.length :=
  ⟨(congrArg List.length (State.stretch_dies _ d)).trans (modNth_length _ d s.dies), State.stretch_clusters_length _ d⟩

theorem State.limitDie_power (hd : d < s.dies.length) : ((s.limitDie d h).die d).power = h (s.die d).power := by
  unfold State.limitDie
  rw [State.stretch_die]
  exact congrArg Die.power (s.die_modDie d _ hd)

/-- All clusters of the die stretch. -/
theorem State.limitDie_limited (hd : d < s.dies.length) (hclusters : d * 20 + 20 ≤ s.clusters.length)
    (hacts : ((h (s.die d).power).limIn || (h (s.die d).power).limRail) = true) {c : Nat} (hc : c < 20) :
    ((s.limitDie d h).clu d c).limited = true := by
  have power : ((s.modPower d h).die d).power = h (s.die d).power := congrArg Die.power (s.die_modDie d _ hd)
  exact ((s.modPower d h).stretch_limited hc hclusters).trans (by rw [power, hacts])

end

theorem State.up_lt {s : State} {d : Nat} (h : s.up d = true) : d < 4 := by
  unfold State.up at h
  simpa using (Bool.and_eq_true_iff.1 h).2

/-- The input limit changes the dies and the clusters alone. -/
theorem State.limitInput_rest (s : State) : ∃ dies clusters, s.limitInput = { s with dies := dies, clusters := clusters } := by
  refine List.foldlRecOn (motive := fun u : State => ∃ dies clusters, u = { s with dies := dies, clusters := clusters }) _ _
    ⟨s.dies, s.clusters, rfl⟩ fun u hu d _ => ?_
  obtain ⟨dies, clusters, rfl⟩ := hu
  split
  · exact State.limitDie_rest _
  · exact ⟨dies, clusters, rfl⟩

/-- It acts on every die in service. -/
theorem State.limitInput_acts {s : State} {d : Nat} (hinv : s.Inv) (hup : s.up d = true) :
    (s.limitInput.die d).power = { (s.die d).power with limIn := true } ∧ ∀ c, c < 20 → (s.limitInput.clu d c).limited = true := by
  obtain ⟨-, hdies, hclusters, -⟩ := hinv.lengths
  have hd := State.up_lt hup
  refine foldl_once List.nodup_range (List.mem_range.2 hd)
    (Q := fun u : State => u.die d = s.die d ∧ u.dies.length = 4 ∧ u.clusters.length = 80)
    (P := fun u : State => (u.die d).power = { (s.die d).power with limIn := true } ∧ ∀ c, c < 20 → (u.clu d c).limited = true)
    ⟨rfl, hdies, hclusters⟩ ?_ ?_ ?_
  · rintro u e hne ⟨hu, hdies, hclusters⟩
    split
    · obtain ⟨dies', clusters'⟩ := State.limitDie_lengths (s := u) (d := e) fun p => { p with limIn := true }
      exact ⟨(State.limitDie_die_ne _ hne).trans hu, dies'.trans hdies, clusters'.trans hclusters⟩
    · exact ⟨hu, hdies, hclusters⟩
  · rintro u ⟨hu, hdies, hclusters⟩
    have up : u.up d = true := by
      unfold State.up at hup ⊢
      rwa [hu]
    rw [if_pos up]
    refine ⟨?_, fun c hc => State.limitDie_limited _ (by omega) (by omega) rfl hc⟩
    exact (State.limitDie_power _ (by omega)).trans (by rw [hu])
  · rintro u e hne ⟨hpower, hlimited⟩
    split
    · refine ⟨?_, fun c hc => ?_⟩
      · exact (congrArg Die.power (State.limitDie_die_ne (s := u) _ hne)).trans hpower
      · exact (congrArg Cluster.limited (State.stretch_clu_ne _ hne hc)).trans (hlimited c hc)
    · exact ⟨hpower, hlimited⟩

theorem exec_inputCurrentLimit_input {s : State} {ma : Nat} (h : 3000000000 < ma * (s.die s.leader).power.vinMv) :
    exec (.inputCurrentLimit (.input ma)) s = .next s.limitInput :=
  congrArg Host.Outcome.next (if_pos (decide_eq_true h))

theorem exec_inputCurrentLimit_rail {s : State} {d amps : Nat} (hup : s.up d = true) (h : 800 < amps) :
    exec (.inputCurrentLimit (.rail d amps)) s = .next (s.limitDie d fun p => { p with limRail := true }) :=
  congrArg Host.Outcome.next (if_pos (Bool.and_eq_true_iff.2 ⟨hup, decide_eq_true h⟩))

/-! ## What the end of a window leaves before it takes the readings (R317, R322, R349) -/

/-- A die's power state and its Drone, but for the input limit. -/
def Die.supply (x : Die) : Power × Drone := ({ x.power with limIn := false }, x.drone)

/-- `t` has the dies of `s` as far as power goes, but for the input limits, and as many clusters. -/
structure SameSupply (s t : State) : Prop where
  dies : t.dies.map Die.supply = s.dies.map Die.supply
  clusters : t.clusters.length = s.clusters.length

theorem SameSupply.refl (s : State) : SameSupply s s := ⟨rfl, rfl⟩

theorem SameSupply.trans {s t u : State} (h : SameSupply s t) (k : SameSupply t u) : SameSupply s u :=
  ⟨k.dies.trans h.dies, k.clusters.trans h.clusters⟩

theorem SameSupply.ite {c : Prop} [Decidable c] {s a b : State} (h : SameSupply s a) (k : SameSupply s b) :
    SameSupply s (if c then a else b) := by
  split <;> assumption

theorem SameSupply.die {s t : State} (h : SameSupply s t) (d : Nat) : (t.die d).supply = (s.die d).supply := by
  unfold State.die
  rw [← List.getD_map (f := Die.supply), h.dies, List.getD_map]

theorem SameSupply.dies_length {s t : State} (h : SameSupply s t) : t.dies.length = s.dies.length := by
  simpa using congrArg List.length h.dies

theorem SameUnits.supply {s t : State} (h : SameUnits s t) : SameSupply s t where
  dies := by
    have units := congrArg (List.map Die.supply) h.dies
    rwa [List.map_map, List.map_map] at units
  clusters := congrArg List.length h.clusters

theorem SameSupply.cntDie {s t : State} (h : SameSupply s t) (d k n : Nat) : SameSupply s (t.cntDie d k n) :=
  h.trans ((SameUnits.refl t).cntDie d k n).supply

theorem SameSupply.modMxe {s t : State} (h : SameSupply s t) (i : Nat) (g : Matrix → Matrix) : SameSupply s (t.modMxe i g) :=
  h.trans ⟨rfl, rfl⟩

theorem State.limitDie_supply (s : State) (d : Nat) : SameSupply s (s.limitDie d fun p => { p with limIn := true }) where
  dies := (congrArg (List.map Die.supply) (State.stretch_dies _ d)).trans (modNth_map Die.supply (by exact fun _ => rfl) d s.dies)
  clusters := State.stretch_clusters_length _ d

theorem State.limitInput_supply (s : State) : SameSupply s s.limitInput :=
  List.foldlRecOn (motive := SameSupply s) _ _ (.refl s) fun u h d _ => (h.trans (u.limitDie_supply d)).ite h

/-- A null pass reports what it finds, and starts the column self-test of its core. -/
theorem State.nullPass_supply (s : State) (i : Nat) (us : List Upset) : SameSupply s (s.nullPass i us) := by
  have counted := (SameSupply.refl s).cntDie (coreDie i) 69 1
  have noted : SameSupply s ((s.cntDie (coreDie i) 69).note (coreDie i) 13 0 i 1) :=
    counted.trans ⟨modNth_map Die.supply (by exact fun _ => rfl) _ _, rfl⟩
  exact (SameSupply.refl s).ite (((noted.modMxe i _).modMxe i _).trans ((SameUnits.refl _).count _ _ _ _).supply)

/-- A window in which a limit is met is counted, and so are the refresh windows and Drone's energy. -/
def State.windowCounted (s : State) (d : Nat) (w : Window) : State :=
  let P := (s.die d).power
  let rates := (((List.range 20).map fun v => w.dram.getD v 0).zipIdx).map fun (t, v) => refreshRate ((s.die d).refRate.getD v 0) t
  let tooMuch := overInput w.inMa w.vinMv
  let u := if tooMuch then s.limitInput else s
  let railActs := Decidable.decide (railLimit < w.amps) || (P.limRail && Decidable.decide (railLimit ≤ w.amps))
  let u := if tooMuch || railActs || P.limIn || P.limRail then u.cntDie d 48 else u
  (if rates.any (· ≠ 0) && P.refWindows = 99 then u.cntDie d 46 else u).cntDie d 57 w.droneUj

/-- The null passes of a window while Drone issues them. -/
def State.windowNulls (s : State) (d : Nat) (w : Window) : State :=
  let dr := (s.die d).drone
  if dr.enNow && (dr.state = 1 || dr.state = 3) then w.nulls.foldl (fun s (k, us) => s.nullPass (160 * d + k) us) s else s

theorem State.windowCounted_supply (s : State) (d : Nat) (w : Window) : SameSupply s (s.windowCounted d w) :=
  have limited := s.limitInput_supply.ite (c := overInput w.inMa w.vinMv = true) (.refl s)
  have acting := (limited.cntDie d 48 1).ite limited
  .cntDie (.ite (acting.cntDie d 46 1) acting) d 57 w.droneUj

theorem State.windowCounted_cores (s : State) (d : Nat) (w : Window) : (s.windowCounted d w).cores = s.cores := by
  have counted (u : State) (k n : Nat) : (u.cntDie d k n).cores = u.cores := ((SameUnits.refl u).cntDie d k n).cores
  obtain ⟨dies, clusters, limited⟩ := s.limitInput_rest
  unfold State.windowCounted
  dsimp only
  rw [limited]
  simp only [counted, apply_ite State.cores, ite_self]

theorem State.windowNulls_supply (s : State) (d : Nat) (w : Window) : SameSupply s (s.windowNulls d w) :=
  .ite (List.foldlRecOn (motive := SameSupply s) _ _ (.refl s) fun u h _ _ => h.trans (u.nullPass_supply _ _)) (.refl s)

/-- No core changes while Drone is off or no pass was made. -/
theorem State.windowNulls_none {s : State} {d : Nat} {w : Window} (h : (s.die d).drone.enNow = false ∨ w.nulls = []) :
    s.windowNulls d w = s := by
  unfold State.windowNulls
  dsimp only
  rcases h with h | h
  · rw [h]
    rfl
  · rw [h]
    exact ite_self s

/-! ## The readings of a window (R317, R320, R322) -/

/-- `y` is the die `x` with the readings of a window, whose limits acted before as `P` has them, and whose Drone was `dr`. -/
structure Die.Reads (P : Power) (dr : Drone) (w : Window) (x y : Die) : Prop where
  vin : y.power.vinMv = w.vinMv
  wins : y.power.dieWins = x.power.dieWins + 1
  sum : y.power.inSum = x.power.inSum + w.inW
  rail : y.power.limRail = (decide (800 < w.amps) || (P.limRail && decide (800 ≤ w.amps)))
  input : y.power.limIn = (decide (3000000000 < w.inMa * w.vinMv) || (P.limIn && decide (w.inMa * w.vinMv = 3000000000)))
  dram : y.power.dram = (List.range 20).map fun v => w.dram.getD v 0
  amps : y.drone.amps = if dr.state = 1 then max w.amps dr.ramp else w.amps

/-- The readings are taken behind the counts and the null passes, and then the clocks of the die stretch or not. -/
theorem exec_sensorWindow {s : State} {d : Nat} (w : Window) (hup : s.up d = true) (hpower : (s.die d).powered = true) :
    ∃ g : Die → Die, (∀ x, Die.Reads (s.die d).power ((s.windowCounted d w).die d).drone w x (g x)) ∧
      exec (.sensorWindow d w) s = .next ((((s.windowCounted d w).windowNulls d w).modDie d g).stretch d) :=
  ⟨_, fun _ => ⟨rfl, rfl, rfl, rfl, rfl, rfl, rfl⟩, if_neg (by rw [hup, hpower]; decide)⟩

/-- What is read of the module once the window has closed. -/
theorem exec_sensorWindow_spec {s : State} {d : Nat} (w : Window) (hinv : s.Inv) (hup : s.up d = true)
    (hpower : (s.die d).powered = true) :
    ∃ t, exec (.sensorWindow d w) s = .next t ∧ Die.Reads (s.die d).power (s.die d).drone w (s.die d) (t.die d) ∧
      (∀ c, c < 20 → (t.clu d c).limited = ((t.die d).power.limIn || (t.die d).power.limRail)) ∧
      ((s.die d).drone.enNow = false ∨ w.nulls = [] → t.cores = s.cores) := by
  obtain ⟨-, hdies, hclusters, -⟩ := hinv.lengths
  have hd := State.up_lt hup
  obtain ⟨g, reads, ran⟩ := exec_sensorWindow w hup hpower
  have counted := s.windowCounted_supply d w
  have tested := counted.trans ((s.windowCounted d w).windowNulls_supply d w)
  generalize hu : (s.windowCounted d w).windowNulls d w = u at ran tested
  have drone : ((s.windowCounted d w).die d).drone = (s.die d).drone := congrArg Prod.snd (counted.die d)
  have dies : d < u.dies.length := by
    rw [tested.dies_length]
    omega
  have die : ((u.modDie d g).stretch d).die d = g (u.die d) := (State.stretch_die _ d d).trans (u.die_modDie d g dies)
  refine ⟨_, ran, ?_, fun c hc => ?_, fun h => ?_⟩
  · have read := reads (u.die d)
    rw [drone] at read
    rw [die]
    exact { read with
      wins := read.wins.trans (congrArg (fun x : Power × Drone => x.1.dieWins + 1) (tested.die d))
      sum := read.sum.trans (congrArg (fun x : Power × Drone => x.1.inSum + w.inW) (tested.die d)) }
  · rw [State.stretch_die]
    refine State.stretch_limited _ hc ?_
    have := tested.clusters
    simp only [State.modDie_clusters]
    omega
  · rw [State.stretch_cores, State.modDie_cores, ← hu, State.windowNulls_none (by rwa [drone]), State.windowCounted_cores]

/-! ## Over the cap (R325) -/

theorem SameUnits.power {s t : State} (h : SameUnits s t) (d : Nat) : (t.die d).power = (s.die d).power :=
  (congrArg Die.power (h.die d) :)

/-- A die whose input power has stayed above the cap comes to the hardware level. -/
def State.overCap (s : State) (d : Nat) : State :=
  if !s.up d || (s.die d).power.overcap < 100 || (s.die d).power.hwLevel then s
  else (s.cntDie d 49).modPower d fun p =>
    { p with hwLevel := true, level := 38, applied := 38, emerg := true, freq := if p.clampLogic || p.pitchHold then p.freq else 1000 }

theorem exec_overcapTimeout (s : State) : exec .overcapTimeout s = .next ((List.range 4).foldl State.overCap s) := rfl

theorem State.overCap_cores (s : State) (d : Nat) : (s.overCap d).cores = s.cores := by
  unfold State.overCap
  split
  · rfl
  · exact ((SameUnits.refl s).cntDie d 49 1).cores

theorem State.overCap_dies_length (s : State) (d : Nat) : (s.overCap d).dies.length = s.dies.length := by
  unfold State.overCap
  split
  · rfl
  · exact (modNth_length _ _ _).trans ((SameUnits.refl s).cntDie d 49 1).dies_length

/-- The other dies only see records counted. -/
theorem State.overCap_die_ne (s : State) {d e : Nat} (hne : d ≠ e) : ((s.overCap d).die e).unstamped = (s.die e).unstamped := by
  unfold State.overCap
  split
  · rfl
  · exact (congrArg Die.unstamped (State.die_modDie_ne _ _ hne)).trans (((SameUnits.refl s).cntDie d 49 1).die e)

theorem State.overCap_acts {s : State} {d : Nat} (hd : d < s.dies.length) (hup : s.up d = true) (hover : 100 ≤ (s.die d).power.overcap)
    (hoff : (s.die d).power.hwLevel = false) :
    ((s.overCap d).die d).power.hwLevel = true ∧ ((s.overCap d).die d).power.level = 38 ∧ ((s.overCap d).die d).power.emerg = true := by
  have acts : (!s.up d || Decidable.decide ((s.die d).power.overcap < 100) || (s.die d).power.hwLevel) = false := by
    rw [hup, hoff, decide_eq_false (Nat.not_lt.2 hover)]
    rfl
  unfold State.overCap
  rw [acts, if_neg (by decide), State.modPower, State.die_modDie _ _ _ (by rwa [((SameUnits.refl s).cntDie d 49 1).dies_length])]
  exact ⟨rfl, rfl, rfl⟩

theorem State.overCap_foldl_acts {s : State} {d : Nat} (hinv : s.Inv) (hup : s.up d = true) (hover : 100 ≤ (s.die d).power.overcap)
    (hoff : (s.die d).power.hwLevel = false) :
    let p := (((List.range 4).foldl State.overCap s).die d).power
    p.hwLevel = true ∧ p.level = 38 ∧ p.emerg = true := by
  obtain ⟨-, hdies, -⟩ := hinv.lengths
  have hd := State.up_lt hup
  refine foldl_once List.nodup_range (List.mem_range.2 hd)
    (P := fun u : State => (u.die d).power.hwLevel = true ∧ (u.die d).power.level = 38 ∧ (u.die d).power.emerg = true)
    (Q := fun u : State => (u.die d).unstamped = (s.die d).unstamped ∧ u.dies.length = 4) ⟨rfl, hdies⟩ ?before ?acts ?behind
  case before => exact fun u e hne hu => ⟨(u.overCap_die_ne hne).trans hu.1, (u.overCap_dies_length e).trans hu.2⟩
  case acts =>
    rintro u ⟨hdie, hlen⟩
    have power : (u.die d).power = (s.die d).power := (congrArg Die.power hdie :)
    have up : u.up d = s.up d := (congrArg (fun x : Die => x.enabled && !x.lost && Decidable.decide (d < 4)) hdie :)
    exact State.overCap_acts (hlen ▸ hd) (up.trans hup) (power ▸ hover) (power ▸ hoff)
  case behind =>
    intro u e hne hu
    have power : ((u.overCap e).die d).power = (u.die d).power := (congrArg Die.power (u.overCap_die_ne hne) :)
    rwa [power]

theorem State.overCap_foldl_cores (s : State) (l : List Nat) : (l.foldl State.overCap s).cores = s.cores :=
  List.foldlRecOn (motive := fun u : State => u.cores = s.cores) l _ rfl fun u hu e _ => (u.overCap_cores e).trans hu

/-! ## Temperature (R329, R331, Table 14.4) -/

section
variable {s : State} {d : Nat} (hup : s.up d = true)
include hup

/-- The clamp of the logic acts on what is left of the die when the clamps have been counted. -/
theorem exec_thermalClamp_logic (vaults : List Nat) (hhot : 103 < (s.die d).power.hotLogic) :
    ∃ u h, SameUnits s u ∧ exec (.thermalClamp d true vaults) s = .next (u.modPower d h) ∧
      ∀ p, (h p).clampLogic = true ∧ (h p).freq = 800 ∧ (h p).emerg = true := by
  have hot : (true && decide (103 < (s.die d).power.hotLogic)) = true := by simpa using hhot
  change ∃ u h, _ ∧ execThermalClamp d true vaults s = _ ∧ _
  unfold execThermalClamp
  dsimp only
  rw [hot, if_neg (by simp [hup])]
  refine ⟨_, _, ?_, rfl, fun p => ⟨Bool.or_true _, rfl, rfl⟩⟩
  have counted := ((SameUnits.refl s).cntDie d 51 1).ite (c := (true && !(s.die d).power.clampLogic) = true) (.refl s)
  exact (counted.cntDie d 51 1).ite counted

theorem exec_clampRelease : exec (.clampRelease d) s = .next (s.modPower d fun p => { p with
    clampLogic := p.clampLogic && 100 < p.hotLogic, clampVaults := if p.hotDram ≤ 90 then [] else p.clampVaults }) :=
  if_neg (by rw [hup]; decide)

theorem exec_thermalTrip (hhot : 110 < (s.die d).power.hotLogic ∨ 98 < (s.die d).power.hotDram) :
    exec (.thermalTrip d) s = .next ((State.removeDie { s with cfg := { s.cfg with tripped := s.cfg.tripped.set d true } } d 11).modDie d
      fun x => { x with powered := false }) := by
  have trips : (!s.up d || (decide ((s.die d).power.hotLogic ≤ 110) && decide ((s.die d).power.hotDram ≤ 98))) = false := by
    rw [hup]
    rcases hhot with h | h <;> simp [h]
  exact if_neg (by rw [trips]; decide)

theorem exec_emergencyEnd (hlogic : (s.die d).power.clampLogic = false) (hvaults : (s.die d).power.clampVaults = []) :
    exec (.emergencyEnd d) s = .next (s.modPower d fun p =>
      { p with hwLevel := false, emerg := false, overcap := if p.hwLevel then 0 else p.overcap }) :=
  if_neg (by rw [hup, hlogic, hvaults]; decide)

/-! ## Pitch-hold (R327) -/

/-- The low clock of Pitch-hold is counted and reported. -/
theorem exec_phLow (hhold : (s.die d).power.pitchHold = true) (hoff : (s.die d).power.phLow = false)
    (hlow : 10000 ≤ (s.die d).power.lowPeriods) :
    ∃ t, exec (.phLow d) s = .next t ∧ SameUnits (s.modPower d fun p => { p with phLow := true }) t := by
  have low : (!s.up d || !(s.die d).power.pitchHold || (s.die d).power.phLow || decide ((s.die d).power.lowPeriods < 10000)) = false := by
    rw [hup, hhold, hoff, decide_eq_false (Nat.not_lt.2 hlow)]
    rfl
  exact ⟨_, if_neg (by rw [low]; decide), ((SameUnits.refl _).cntDie d 53 1).emit _ _ _ _ _⟩

end

/-! ## Droop (R332) -/

section
variable {s : State} {d c : Nat} (hclu : s.cluUp d c = true)
include hclu

theorem State.cluUp_lt : c < 20 := by
  unfold State.cluUp at hclu
  simp only [Bool.and_eq_true, decide_eq_true_eq] at hclu
  exact hclu.1.2

theorem exec_droopDetect : exec (.droopDetect d c) s = .next (s.modClu d c fun x => { x with droop := true }) := if_pos hclu

theorem exec_droopEnd (n : Nat) (hdroop : (s.clu d c).droop = true) :
    exec (.droopEnd d c n) s = .next ((s.cntDie d 52 n).modClu d c fun x => { x with droop := false }) :=
  if_pos (by rw [hclu, hdroop]; rfl)

end

/-- Settles O54: each event, one after another. -/
theorem powerEventsAct : Obligations.PowerEventsAct := by
  intro s d hinv hup
  obtain ⟨-, hdies, hclusters, -⟩ := hinv.lengths
  have hd := State.up_lt hup
  have power (h : Power → Power) : ((s.modPower d h).die d).power = h (s.die d).power :=
    congrArg Die.power (s.die_modDie d _ (hdies ▸ hd))
  refine ⟨fun w hpower => ?window, fun ma hover => ?input, fun amps hover => ?rail,
    fun hover hoff => ?overcap, fun logic vaults hlogic hhot => ?clamp,
    ⟨_, exec_clampRelease hup, power _, rfl⟩, exec_thermalTrip hup, fun hlogic hvaults => ?emergency, fun c hclu => ?droop,
    fun hhold hoff hlow => ?pitchHold⟩
  case window =>
    obtain ⟨t, ran, reads, limited, cores⟩ := exec_sensorWindow_spec w hinv hup hpower
    exact ⟨t, ran, reads.vin, reads.wins, reads.sum, reads.rail, reads.input, limited, reads.dram, reads.amps, cores⟩
  case input =>
    obtain ⟨limits, stretches⟩ := State.limitInput_acts hinv hup
    obtain ⟨dies, clusters, rest⟩ := s.limitInput_rest
    exact ⟨_, exec_inputCurrentLimit_input hover, limits, stretches, by rw [rest]⟩
  case rail =>
    obtain ⟨dies, clusters, rest⟩ := State.limitDie_rest (s := s) (d := d) fun p => { p with limRail := true }
    exact ⟨_, exec_inputCurrentLimit_rail hup hover, State.limitDie_power _ (by omega),
      fun c => State.limitDie_limited _ (by omega) (by omega) (Bool.or_true _), by rw [rest]⟩
  case overcap =>
    obtain ⟨level, full, emergency⟩ := State.overCap_foldl_acts hinv hup hover hoff
    exact ⟨_, exec_overcapTimeout s, level, full, emergency, s.overCap_foldl_cores _⟩
  case clamp =>
    subst hlogic
    obtain ⟨u, h, same, ran, clamps⟩ := exec_thermalClamp_logic hup vaults hhot
    obtain ⟨acts, clock, emergency⟩ := clamps (u.die d).power
    have left : ((u.modPower d h).die d).power = h (u.die d).power :=
      congrArg Die.power (u.die_modDie d _ (by rw [same.dies_length]; omega))
    rw [← left] at acts clock emergency
    exact ⟨_, ran, acts, clock, emergency, same.cores⟩
  case emergency =>
    exact ⟨_, exec_emergencyEnd hup hlogic hvaults, congrArg Power.hwLevel (power _), congrArg Power.emerg (power _), rfl⟩
  case droop =>
    have hc := State.cluUp_lt hclu
    refine ⟨⟨_, exec_droopDetect hclu, s.clu_modClu d c _ (by omega), rfl⟩, fun n hdroop => ?_⟩
    have counted := (SameUnits.refl s).cntDie d 52 n
    exact ⟨_, exec_droopEnd hclu n hdroop, congrArg Cluster.droop (State.clu_modClu _ d c _ (by rw [counted.clusters]; omega)),
      counted.cores⟩
  case pitchHold =>
    obtain ⟨t, ran, same⟩ := exec_phLow hup hhold hoff hlow
    exact ⟨t, ran, (congrArg Power.phLow ((same.power d).trans (power _)) :), same.cores⟩

end Sys2Proof.Machine
end

section
/-!
PROOFS. The whole machine (O1, O2, O3, O6, O9, O10, O11): a step is the front command or one count of time, and what the commands
leave alone of the fuses, the journal, the scopes, the rollback counter and the flash.
-/
namespace Sys2Proof.Machine

/-! ## Steps (R359, R363, R381, R447) -/

theorem step_cons {s : State} {c : Instr} {rest : List Instr} (h : s.pending = c :: rest) :
    step s = exec c { s with pending := rest } := by
  unfold step
  rw [h]

theorem step_nil {s : State} (h : s.pending = []) : step s = .next (tick s) := by
  unfold step
  rw [h]

/-- Settles O1. -/
theorem stepRunsTheFrontCommand : Obligations.StepRunsTheFrontCommand := fun _ _ _ => step_cons

/-- One count of the time source of a die whose rails are up. -/
def Die.ticked (x : Die) : Die := if x.powered then { x with clk := (x.clk + 1) % 2 ^ 64 } else x

/-- A die that is not there is not powered, and no time source of it runs. -/
theorem tick_die (s : State) (d : Nat) : (tick s).die d = (s.die d).ticked := List.getD_map s.dies (Die.reset 0 0) Die.ticked

/-- Settles O2: the tick is the whole step. -/
theorem idleStepIsOneCount : Obligations.IdleStepIsOneCount := fun s h =>
  ⟨tick s, step_nil h, rfl, rfl, List.length_map _, tick_die s⟩

/-! ## Every command (R380, R381, R400, R443, R456) -/

/-- Settles O3: the queue of waiting commands is among what every command leaves alone. -/
theorem everyCommandAnswers : Obligations.EveryCommandAnswers := fun c s =>
  have ⟨t, answer, rests⟩ := exec_rests c s
  ⟨t, answer, rests.pending⟩

/-- Settles O11: the number of the next entry is among what stands between two resets. -/
theorem journalNeverGoesBack : Obligations.JournalNeverGoesBack := fun _ s _ e h => ((exec_stays (not_resets h) s).stays e).seq

/-- Settles O6: a tick changes time alone, and a command leaves the fuses and the counter as what rests has them. -/
theorem rollbackCounterNeverFalls : Obligations.RollbackCounterNeverFalls := by
  intro s t e
  cases waiting : s.pending with
  | nil =>
    rw [step_nil waiting] at e
    cases e
    exact ⟨rfl, Nat.le_refl _⟩
  | cons c rest =>
    rw [step_cons waiting] at e
    obtain ⟨u, answer, rests⟩ := exec_rests c { s with pending := rest }
    cases e.symm.trans answer
    exact ⟨rests.fuses, rests.arCount⟩

/-! ## What the security core guards (R384, R390, R392, R400, R408, R410) -/

/-- The debug scopes with the tokens that wait to open one, the rollback counter, and the flash images. -/
inductive Guarded where
  | scopes
  | counter
  | flash

/-- The part of what the security core guards that a command may change outside a module reset. -/
def movedPart : Instr → Option Guarded
  | .unlock _ => some .scopes
  | .fwActivateDone | .overlayVerify => some .counter
  | .fwActivate _ | .fwActivateProceed | .activationRevert | .processorRestartDone _ => some .flash
  | _ => none

/-- From `s` to `t` everything that the security core guards stands, but for the part `x`. -/
structure Guards (x : Option Guarded) (s t : State) : Prop where
  scopes : x ≠ some .scopes → s.sec.tokens = [] → t.sec.scopes = s.sec.scopes ∧ t.sec.tokens = []
  counter : x ≠ some .counter → t.sec.arCount = s.sec.arCount
  flash : x ≠ some .flash → t.flash = s.flash

def GuardsD (x : Option Guarded) (s : State) (o : Done) : Prop := ∃ t, o = .next t ∧ Guards x s t

section
variable {x : Option Guarded} {s t u : State}

theorem Guards.refl : Guards x s s := ⟨fun _ h => ⟨rfl, h⟩, fun _ => rfl, fun _ => rfl⟩

theorem Guards.trans (h : Guards x s t) (k : Guards x t u) : Guards x s u where
  scopes hx none :=
    have ⟨same, none⟩ := h.scopes hx none
    (k.scopes hx none).imp_left (·.trans same)
  counter hx := (k.counter hx).trans (h.counter hx)
  flash hx := (k.flash hx).trans (h.flash hx)

theorem Keeps.guards (h : Keeps s t) : Guards x s t := ⟨fun _ => h.scopes, fun _ => h.arCount, fun _ => h.flash⟩

theorem Guards.keeps (h : Guards x s t) (k : Keeps t u) : Guards x s u := h.trans k.guards

theorem Guards.foldl {α : Type} {g : State → α → State} {l : List α} (hg : ∀ u x', Guards x u (g u x')) : Guards x s (l.foldl g s) :=
  List.foldlRecOn (motive := Guards x s) l g .refl fun u h y _ => h.trans (hg u y)

/-- A state with the flash and the security state of another. -/
theorem Guards.of_eq (hsec : t.sec = s.sec) (hfw : t.flash = s.flash) : Guards x s t :=
  ⟨fun _ h => ⟨congrArg Security.scopes hsec, (congrArg Security.tokens hsec).trans h⟩, fun _ => congrArg Security.arCount hsec, fun _ => hfw⟩

/-- The firmware may be written where the flash may change. -/
theorem Guards.modFw (h : Guards (some .flash) s t) (k : Nat) (g : FwKind → FwKind) : Guards (some .flash) s (t.modFw k g) :=
  ⟨h.scopes, h.counter, fun hx => absurd rfl hx⟩

/-- The counter may advance where it is what may change. -/
theorem Guards.advance (h : Guards (some .counter) s t) (n : Nat) :
    Guards (some .counter) s { t with sec := { t.sec with arCount := n } } :=
  ⟨h.scopes, fun hx => absurd rfl hx, h.flash⟩

/-- The scopes and the tokens that wait may change where they are what may. -/
theorem Guards.rescope (h : Guards (some .scopes) s t) (scopes : Nat) (tokens : List (List Byte)) (challenge : Option (List Byte)) :
    Guards (some .scopes) s { t with sec := { t.sec with scopes := scopes, tokens := tokens, challenge := challenge } } :=
  ⟨fun hx => absurd rfl hx, h.counter, h.flash⟩

theorem GuardsD.next (h : Guards x s t) : GuardsD x s (.next t) := ⟨t, rfl, h⟩

theorem KeepsD.guards {o : Done} (h : KeepsD s o) : GuardsD x s o :=
  have ⟨t, answer, keeps⟩ := h
  ⟨t, answer, keeps.guards⟩

theorem GuardsD.guards {o : Done} (h : GuardsD x s o) (e : o = .next t) : Guards x s t := by
  obtain ⟨u, rfl, guards⟩ := h
  cases e
  exact guards

/-- The frame of a ZCP command adds nothing to what its effect changes. -/
theorem Guards.zcp {op : Nat} {c : Submission} {k : Submission → State → State} (hk : ∀ d u, Guards x u (k d u)) :
    Guards x s (s.zcp op c k) := by
  obtain keeps | ⟨d, u, keeps, e⟩ := s.zcp_framed op c k
  · exact keeps.guards
  · exact e ▸ keeps.guards.trans (hk d u)

end

/-! ### Activation (R390 to R393) -/

/-- The running image of a kind is not in flash. -/
theorem State.flash_running (s : State) (k : Nat) (im : Option Image) :
    (s.modFw k fun x => { x with running := im }).flash = s.flash :=
  modNth_map (fun k : FwKind => (k.active, k.previous)) (by exact fun _ => rfl) k s.fw

theorem Guards.setRunning {x : Option Guarded} (s : State) (k : Nat) (im : Option Image) :
    Guards x s (s.modFw k fun x => { x with running := im }) := .of_eq rfl (s.flash_running k im)

theorem State.actWrite_guards (s : State) (a : Activation) : Guards (some .flash) s (s.actWrite a) := by
  unfold State.actWrite
  split
  · exact (((Keeps.refl s).actEnd a).actFinal _ _ _ _).guards
  · exact (Guards.refl.modFw _ _).keeps ((Keeps.refl _).actRestart _)

theorem fwActivate'_guards (c : Submission) (s : State) : Guards (some .flash) s (fwActivate' c s) := by
  unfold fwActivate'
  extract_lets kind f t reason t1 t2 src
  have h : Keeps s t := (Keeps.refl s).interim _ _
  have final (st : Nat) (d : List Byte) : Guards (some .flash) s (t.final c st d) := (h.final _ _ _ _ _).guards
  have h2 : Keeps s t2 := Keeps.upd (h.modFunc f _) rfl rfl rfl
  clear_value t t2
  split
  · exact final _ _
  split
  · exact final _ _
  split
  · exact final _ _
  split
  · exact final _ _
  extract_lets a
  split
  · have counted : Keeps s { t2.cntAll 25 with act := some a } := Keeps.upd (h2.cntAll 25 1) rfl rfl rfl
    exact (counted.interim _ _).guards
  · exact h2.guards.trans (t2.actWrite_guards a)

theorem GuardsD.of_execFwActivateProceed (s : State) : GuardsD (some .flash) s (execFwActivateProceed s) := by
  unfold execFwActivateProceed
  split
  · split
    · exact .next (s.actWrite_guards _)
    · exact .next .refl
  · exact .next .refl

theorem GuardsD.of_execActivationRevert (s : State) : GuardsD (some .flash) s (execActivationRevert s) := by
  unfold execActivationRevert
  extract_lets core
  split
  next a _ =>
    split
    · exact .next .refl
    · extract_lets t1 p t2
      have h2 : Guards (some .flash) s t2 := (Guards.refl.modFw a.kind _).trans (.of_eq rfl rfl)
      exact .next (h2.keeps ((Keeps.refl t2).revertNext _))
  next => exact .next .refl

theorem GuardsD.of_execFwActivateDone (s : State) : GuardsD (some .counter) s (execFwActivateDone s) := by
  unfold execFwActivateDone
  split
  next a _ =>
    split
    · exact .next .refl
    · extract_lets t1 src t2 t3
      have h2 : Guards (some .counter) s t2 := ((Keeps.refl s).actEnd a).guards.advance _
      have h3 : Guards (some .counter) s t3 :=
        (h2.trans (.setRunning t2 a.kind _)).keeps ((Keeps.refl _).measureKind a.kind _)
      clear_value t3
      exact .next (h3.keeps (((((Keeps.refl t3).journalCmd a.sub).measure _ _ _ _ _).cntAll _ _).actFinal a _ _ _))
  next => exact .next .refl

/-- A processor that resumes lets an activation go on. Only one that has not written yet writes the flash (R393). -/
theorem State.actResume_keeps_or (s : State) (p : Proc) :
    Keeps s (s.actResume p) ∨ ∃ a, s.act = some a ∧ a.stage = 1 ∧ s.actResume p = s.actWrite a := by
  have h := Keeps.refl s
  unfold State.actResume
  split
  next => exact .inl h
  next a hact =>
    dsimp only
    split
    · refine .inl (Keeps.ite (Keeps.upd h rfl rfl rfl) ?_)
      exact Keeps.ite (h.revertNext _) (h.actRestart _)
    · split
      · split
        · exact .inl (h.actRestart _)
        · next hstage =>
          split
          · exact .inl ((h.actEnd a).actFinal _ _ _ _)
          · exact .inr ⟨a, hact, by simpa using hstage, rfl⟩
      · exact .inl h

/-- A processor that goes on again, while `x` may change. -/
theorem execProcessorRestartDone_guards {x : Option Guarded} (p : Proc) (s : State)
    (h : ∀ a, s.act = some a → a.stage = 1 → x = some .flash) : GuardsD x s (execProcessorRestartDone p s) := by
  unfold execProcessorRestartDone
  split
  · exact .next .refl
  · extract_lets v t
    have first : Guards x s t := .of_eq rfl rfl
    have resumed : Guards x t (t.actResume p) := by
      obtain keeps | ⟨a, hact, hstage, e⟩ := t.actResume_keeps_or p
      · exact keeps.guards
      · cases h a hact hstage
        exact e ▸ t.actWrite_guards a
    exact .next ((first.trans resumed).keeps ((Keeps.refl _).resumeProc p))

/-! ### Unlock (R410) -/

theorem State.judgeToken_guards (s : State) (token : List Byte) : Guards (some .scopes) s (s.judgeToken token) := by
  unfold State.judgeToken
  extract_lets ok u t1 v t2
  split
  · exact (Guards.refl.rescope (s := s) _ _ _).keeps (((Keeps.refl t2).measure _ _ _ _ _).cntAll _ _)
  · exact (Guards.refl.rescope (s := s) _ _ _).keeps ((Keeps.refl t1).cntAll _ _)

theorem GuardsD.of_execUnlock (token : List Byte) (s : State) : GuardsD (some .scopes) s (execUnlock token s) := by
  unfold execUnlock State.jtagUp
  refine .next ?_
  split
  · dsimp -zeta only
    extract_lets v t
    have h : Guards (some .scopes) s t := (Guards.refl.rescope (s := s) _ _ _).keeps ((Keeps.refl _).actsBypass _)
    clear_value t
    split
    · exact h
    · exact (h.rescope _ _ _).trans (.foldl State.judgeToken_guards)
  · exact .refl

/-! ### Start-up (R442 to R446) -/

theorem State.verifyKind_guards (s : State) (k : Nat) : Guards (some .counter) s (s.verifyKind k) := by
  unfold State.verifyKind
  split
  · exact ((Keeps.refl s).measureKind _ _).guards
  · split
    · extract_lets im t
      have advanced : Guards (some .counter) s t := Guards.refl.advance _
      clear_value t
      exact (advanced.trans (.setRunning t k _)).keeps ((Keeps.refl _).measureKind _ _)
    · extract_lets t
      have h : Keeps s t := Keeps.ite (Keeps.refl s).secDenied (Keeps.refl s)
      exact ((h.measureKind _ _).emit _ _ _ _ _).guards

theorem GuardsD.of_execOverlayVerify (s : State) : GuardsD (some .counter) s (execOverlayVerify s) := by
  unfold execOverlayVerify
  split
  · exact .next .refl
  · have verified : Guards (some .counter) s ((List.range 4).foldl (fun s k => s.verifyKind k) s) := .foldl State.verifyKind_guards
    exact .next ((verified.keeps (Keeps.refl _).measureBlock).trans (.of_eq rfl rfl))

section
variable {x : Option Guarded} (s : State)

theorem GuardsD.of_execModPresent (c : Submission) : GuardsD x s (execModPresent c s) := by
  refine .next (.zcp fun d u => ?_)
  unfold modPresent'
  extract_lets v old src t detail
  have h : Guards x u t := .of_eq rfl rfl
  split
  · exact ((Keeps.refl u).single _ _ _ _ _).guards
  · split
    · exact h.keeps ((Keeps.refl t).single _ _ _ _ _)
    · exact h.keeps ((((Keeps.refl t).journalCmd d).measureConfig _ _ _).single _ _ _ _ _)

theorem GuardsD.of_execSoftStart : GuardsD x s (execSoftStart s) := by
  unfold execSoftStart
  refine .next ?_
  split <;> exact .of_eq rfl rfl

theorem GuardsD.of_execPerstAssert : GuardsD x s (execPerstAssert s) := by
  unfold execPerstAssert
  split
  · exact .next .refl
  · split
    · exact .next (.of_eq rfl rfl)
    · have dropped : Guards x s s.dropAll := by
        unfold State.dropAll
        obtain ⟨cs, emptied⟩ := foldl_changes_cores State.emptyEngines_changes_cores s.fns s
        rw [emptied]
        exact .of_eq rfl rfl
      generalize s.dropAll = t at dropped ⊢
      exact .next (dropped.trans (.of_eq rfl rfl))

theorem GuardsD.of_execRomBoot : GuardsD x s (execRomBoot s) := by
  unfold execRomBoot
  split
  · exact .next .refl
  · have measured : Keeps s (s.setMeas 0 (leBytes 64 Config.romDigest.toNat)).measureBlock :=
      ((Keeps.refl s).setMeas _ _).measureBlock
    exact .next (measured.guards.trans (.of_eq rfl rfl))

theorem GuardsD.of_execDiePowerUp : GuardsD x s (execDiePowerUp s) := by
  unfold execDiePowerUp
  split
  · exact .next .refl
  · extract_lets t1 t2
    have h1 : Keeps s t1 := Keeps.foldl (Keeps.refl s) fun _ _ k => k.modDie _ _ fun _ h => h
    have h2 : Keeps s t2 := Keeps.foldl h1 fun _ _ k => Keeps.ite (k.startTraining _) k
    clear_value t2
    exact .next (h2.guards.trans (.of_eq rfl rfl))

theorem GuardsD.of_execPcieLinkUp : GuardsD x s (execPcieLinkUp s) := by
  unfold execPcieLinkUp
  split <;> exact .next (.of_eq rfl rfl)

theorem GuardsD.of_execMemoryInit : GuardsD x s (execMemoryInit s) := by
  unfold execMemoryInit
  split <;> exact .next (.of_eq rfl rfl)

theorem GuardsD.of_execZcpReady (t : SelfTest) : GuardsD x s (execZcpReady t s) := by
  unfold execZcpReady
  split
  · exact .next .refl
  · extract_lets t1 t2 t3
    have h1 : Guards x s t1 := .of_eq rfl rfl
    have h2 : Keeps t1 t2 := Keeps.foldl (Keeps.refl t1) fun _ _ k => Keeps.ite (k.loseSecurity _) k
    have h3 : Guards x s t3 := (h1.keeps h2).trans (.of_eq rfl rfl)
    clear_value t3
    refine .next ?_
    split
    · exact h3.keeps (Keeps.foldl (Keeps.refl t3) fun _ _ k => k.put _)
    · exact h3

theorem GuardsD.of_execFullSelftestDone : GuardsD x s (execFullSelftestDone s) := by
  unfold execFullSelftestDone
  split
  · exact .next .refl
  · have h : Keeps s (((List.range 4).filter s.up).foldl (fun s d => s.formPlan d) s) :=
      Keeps.foldl (Keeps.refl s) fun _ _ k => k.formPlan _
    exact .next (h.guards.trans (.of_eq rfl rfl))

theorem GuardsD.of_execPcieLinkReset (e : LinkEvent) : GuardsD x s (execPcieLinkReset e s) := by
  unfold execPcieLinkReset
  split
  · exact .next .refl
  · have h : Keeps s (s.fns.foldl (fun s f => s.modFunc f Func.dropQueues) s) :=
      Keeps.foldl (Keeps.refl s) fun _ _ k => k.modFunc _ _
    exact .next (h.guards.trans (.of_eq rfl rfl))

theorem GuardsD.of_execFabRefclkLoss : GuardsD x s (execFabRefclkLoss s) := by
  unfold execFabRefclkLoss
  extract_lets on src t
  have h : Guards x s t := .of_eq rfl rfl
  exact .next (h.keeps (Keeps.foldl (Keeps.refl t) fun _ _ k => k.portDown _))

end

/-! ### Every command -/

/-- Outside a module reset a command changes at most the one part that it moves. -/
theorem exec_guards {c : Instr} (h : ¬ Resets c) (s : State) : GuardsD (movedPart c) s (exec c s) := by
  obtain keeps | advances | resets := exec_keeps_or s c
  · exact keeps.guards
  · exact match advances with
      | .modPresent c => .of_execModPresent s c
      | .fwActivate c => .next (.zcp fwActivate'_guards)
      | .fwActivateProceed => .of_execFwActivateProceed s
      | .fwActivateDone => .of_execFwActivateDone s
      | .activationRevert => .of_execActivationRevert s
      | .softStart => .of_execSoftStart s
      | .perstAssert => .of_execPerstAssert s
      | .romBoot => .of_execRomBoot s
      | .overlayVerify => .of_execOverlayVerify s
      | .diePowerUp => .of_execDiePowerUp s
      | .pcieLinkUp => .of_execPcieLinkUp s
      | .memoryInit => .of_execMemoryInit s
      | .zcpReady t => .of_execZcpReady s t
      | .fullSelftestDone => .of_execFullSelftestDone s
      | .pcieLinkReset e => .of_execPcieLinkReset s e
      | .fabRefclkLoss => .of_execFabRefclkLoss s
      | .unlock token => .of_execUnlock token s
      | .processorRestartDone p => execProcessorRestartDone_guards p s fun _ _ _ => rfl
  · exact absurd resets h

theorem State.restarted_keeps {s t : State} (h : s.restarted t) : t.sec.arCount = s.sec.arCount ∧ t.flash = s.flash := by
  obtain ⟨-, -, sec, flash, -⟩ := h
  exact ⟨by rw [sec]; rfl, flash⟩

/-- The events at which a module reset takes place keep the rollback counter and the flash, whether it does or not (R443). -/
theorem Resets.keeps {c : Instr} (h : Resets c) (s : State) :
    ∃ t, exec c s = .next t ∧ t.sec.arCount = s.sec.arCount ∧ t.flash = s.flash := by
  obtain ⟨-, good, deassert, off, -⟩ := resetsRestartTheModule s
  cases h with
  | pwrGood =>
    by_cases rail : s.boot.softStart = true
    · obtain ⟨t, ran, restarted, -⟩ := good rail
      exact ⟨t, ran, State.restarted_keeps restarted⟩
    · exact ⟨s, if_neg rail, rfl, rfl⟩
  | perstDeassert =>
    cases low : s.boot.perst with
    | false => exact ⟨s, if_pos (by rw [low]; rfl), rfl, rfl⟩
    | true =>
      have begins : ¬ (!s.boot.perst) = true := by rw [low]; decide
      cases power : s.boot.pwrGood with
      | false => exact ⟨_, (if_neg begins).trans (if_pos (by rw [power]; rfl)), rfl, rfl⟩
      | true =>
        obtain ⟨t, ran, restarted, -⟩ := deassert low power
        exact ⟨t, ran, State.restarted_keeps restarted⟩
  | hotSwapOff cause =>
    cases on : s.boot.pwrGood || s.boot.softStart with
    | true =>
      obtain ⟨t, ran, restarted, -⟩ := off cause on
      exact ⟨t, ran, State.restarted_keeps restarted⟩
    | false =>
      refine ⟨_, if_pos (by rw [← Bool.not_or, on]; rfl), ?_⟩
      split <;> exact ⟨rfl, rfl⟩

/-- Settles O9: UNLOCK alone moves the scopes, and what stands between two resets keeps every open one. -/
theorem onlyUnlockOpensAScope : Obligations.OnlyUnlockOpensAScope := by
  intro c s t e h
  refine ⟨fun hunlock => ((exec_guards (not_resets h) s).guards e).scopes fun moved => ?_, ((exec_stays (not_resets h) s).stays e).scopesUp⟩
  unfold movedPart at moved
  split at moved
  next token => exact hunlock token rfl
  all_goals cases moved

/-- Settles O10: the flash and the counter are each moved by the commands named alone, and a processor that goes on writes the flash only
for an activation that waits for its start. -/
theorem onlyFirmwareWritesFlashAndCounter : Obligations.OnlyFirmwareWritesFlashAndCounter := by
  refine ⟨fun c s t e hactivate hproceed hrevert hrestart => ?flash, fun c s t e hdone hverify => ?counter⟩
  case flash =>
    by_cases h : Resets c
    · obtain ⟨u, answer, -, flash⟩ := h.keeps s
      cases e.symm.trans answer
      exact flash
    by_cases hp : ∃ p, c = .processorRestartDone p
    · obtain ⟨p, rfl⟩ := hp
      have stands := execProcessorRestartDone_guards (x := none) p s fun a hact hstage => absurd hstage (hrestart p a rfl hact)
      exact (stands.guards e).flash nofun
    refine ((exec_guards h s).guards e).flash fun moved => ?_
    unfold movedPart at moved
    split at moved
    case h_4 c => exact hactivate c rfl
    case h_5 => exact hproceed rfl
    case h_6 => exact hrevert rfl
    case h_7 p => exact hp ⟨p, rfl⟩
    all_goals cases moved
  case counter =>
    by_cases h : Resets c
    · obtain ⟨u, answer, counter, -⟩ := h.keeps s
      cases e.symm.trans answer
      exact counter
    refine ((exec_guards h s).guards e).counter fun moved => ?_
    unfold movedPart at moved
    split at moved
    case h_2 => exact hdone rfl
    case h_3 => exact hverify rfl
    all_goals cases moved

end Sys2Proof.Machine
end

section
/-!
PROOFS. Counters saturate (O59), and a module reset restores the module (O60).
-/
namespace Sys2Proof.Machine

/-! ## Counters (R448, R449) -/

theorem Ctr.add_below {c : Ctr} {n : Nat} (h : c.count + n < 2 ^ 48) : c.add n = (⟨c.count + n, c.sat⟩, false) :=
  if_pos (by omega)

theorem Ctr.add_beyond {c : Ctr} {n : Nat} (h : 2 ^ 48 ≤ c.count + n) : c.add n = (⟨2 ^ 48 - 1, true⟩, !c.sat) :=
  if_neg (by omega)

/-- Counting stores what the addition leaves, and emits a record of kind 1 where it has just saturated. -/
theorem State.count_eq (s : State) (f src i : Nat) {n : Nat} {c : Ctr} {sat : Bool} (hn : 0 < n) (h : ((s.func f).ctr i).add n = (c, sat)) :
    let put := s.modFunc f fun g => { g with ctrs := SMap.insert i c g.ctrs }
    s.count f src i n = if sat then put.emitTo [f] src 1 0 i 0 else put := by
  have added : (s.func f).addCtr i n = ({ s.func f with ctrs := SMap.insert i c (s.func f).ctrs }, sat) := by
    unfold Func.addCtr
    rw [h]
    exact congrArg (·, sat) (if_neg (Nat.ne_of_gt hn))
  have stored : (s.modFunc f fun _ => { s.func f with ctrs := SMap.insert i c (s.func f).ctrs }) =
      s.modFunc f fun g => { g with ctrs := SMap.insert i c g.ctrs } := s.modFunc_congr f rfl
  unfold State.count
  rw [added, ← stored]

theorem Ctr.value_reads {c : Ctr} (h : c.count < 2 ^ 48) :
    fld c.value 0 48 = c.count ∧ fld c.value 48 15 = 0 ∧ bit c.value 63 = c.sat := by
  obtain ⟨n, sat⟩ := c
  cases sat <;> simp [Ctr.value, fld, bit, b2n, Nat.testBit_eq_decide_div_mod_eq] at h ⊢ <;> omega

/-- Settles O59: the two outcomes of an addition, of which the second saturates once. -/
theorem countersSaturate : Obligations.CountersSaturate := by
  refine ⟨fun s f src i n _ hn _ => ?_, fun c => Ctr.value_reads⟩
  intro c put
  refine ⟨fun below => s.count_eq f src i hn (Ctr.add_below below), fun beyond fresh => ?_, fun sat full => ?_⟩
  · rw [s.count_eq f src i hn (Ctr.add_beyond beyond), fresh]
    rfl
  · have again : c = ⟨2 ^ 48 - 1, true⟩ := by rw [← full, ← sat]
    rw [s.count_eq f src i hn (Ctr.add_beyond (by rw [full]; omega)), sat, again]
    rfl

/-! ## Module reset (R31, R402, R443, R447, R456) -/

theorem getD_replicate_lt {α : Type} {i n : Nat} (x d : α) (h : i < n) : (List.replicate n x).getD i d = x := by
  rw [List.getD_eq_getElem?_getD, List.getElem?_replicate_of_lt h]
  rfl

theorem getD_replicate_self {α : Type} (i n : Nat) (x : α) : (List.replicate n x).getD i x = x := by
  by_cases h : i < n
  · exact getD_replicate_lt x x h
  · rw [List.getD_eq_getElem?_getD, List.getElem?_eq_none (by simpa using h)]
    rfl

/-- Every address reads zero in empty memory. -/
theorem Mem.read_nil (a n : Nat) : Mem.read [] a n = zeros n := by
  induction n generalizing a with
  | zero => rfl
  | succ n ih => exact congrArg (Mem.unlisted :: ·) (ih (a + 1))

section
variable (s : State) (cold : Bool)

theorem State.restart_load (k n : Nat) : (s.restart cold).load k n = zeros n := Mem.read_nil _ n

theorem State.restart_devRead (f x n : Nat) : (s.restart cold).devRead f x n = zeros n := by
  unfold State.devRead
  split
  · exact s.restart_load cold _ n
  · rfl

/-- Every function is at its reset value; one that is not there has no queue. -/
theorem State.restart_func (f : Nat) : (s.restart cold).func f = Func.reset (if f < 4 then (if s.cfg.present = 1 then 16 else 64) else 0) := by
  change (List.replicate 4 _).getD f (Func.reset 0) = _
  by_cases h : f < 4
  · rw [getD_replicate_lt _ _ h, if_pos h]
  · rw [List.getD_eq_getElem?_getD, List.getElem?_eq_none (by simpa using h), if_neg h]
    rfl

theorem State.restart_die {d : Nat} (hd : d < 4) : ∃ ilv cap, (s.restart cold).die d = Die.reset ilv cap := by
  have dies : (s.restart cold).dies = (List.range 4).map fun d =>
    Die.reset (s.cfg.ilvMib.getD d 4096) (if s.cfg.present = 1 then 625 else 2500) := rfl
  unfold State.die
  rw [dies, List.getD_eq_getElem?_getD, List.getElem?_map, List.getElem?_range hd]
  exact ⟨_, _, rfl⟩

theorem State.restart_port (p : Nat) : (s.restart cold).port p = Port.reset := getD_replicate_self p 24 Port.reset

theorem State.restart_core {i : Nat} (hi : i < 640) :
    ((s.restart cold).core i).state = if s.fuses.absentCores.contains i then 0 else 1 := by
  have cores : (s.restart cold).cores = (List.range 640).map fun i =>
      Core.reset (s.fuses.absentCores.contains i) ((s.fuses.bypassed.lookup i).getD []) := by
    simp only [State.restart, State.atReset]
  unfold State.core
  rw [cores, List.getD_eq_getElem?_getD, List.getElem?_map, List.getElem?_range hi]
  rfl

theorem State.restart_flash : (s.restart cold).flash = s.flash := by simp [State.flash, State.restart]

end

/-- Settles O60: each part of the module at its reset value, one after another. -/
theorem resetRestoresTheModule : Obligations.ResetRestoresTheModule := by
  refine ⟨fun s cold => ?restored, fun s cold => ?reset⟩
  case restored =>
    refine ⟨s.restart_load cold, s.restart_devRead cold, rfl, rfl, s.restart_flash cold, fun f => ?_⟩
    rw [s.restart_func cold f]
    exact ⟨rfl, rfl, rfl, rfl, rfl, rfl, rfl, fun k => ⟨getD_replicate_self k 16 none, getD_replicate_self k 16 none,
      getD_replicate_self k 8 none⟩⟩
  case reset =>
    refine ⟨rfl, rfl, rfl, rfl, rfl, rfl, rfl, rfl, decide_eq_true_iff, rfl, rfl, fun d hd => ?dies, fun f hf => ?funcs, fun p _ => ?ports,
      fun i => s.restart_core cold⟩
    case dies =>
      obtain ⟨ilv, cap, die⟩ := s.restart_die cold hd
      rw [die]
      exact ⟨rfl, rfl⟩
    case funcs =>
      rw [s.restart_func cold f, if_pos hf]
      exact ⟨rfl, List.length_replicate, fun q hq => congrArg Queue.en (List.eq_of_mem_replicate hq)⟩
    case ports => rw [s.restart_port cold p]; rfl

end Sys2Proof.Machine
end

section
/-!
PROOFS. The commands of power and ageing (O24), of counters and fault records (O15).
-/
namespace Sys2Proof.Machine

/-! ## PWR_CAP, PWR_MODE and AXL_REPLAN (R321, R327, R352) -/

section
variable {s : State} {c : Submission}

theorem exec_pwrCap (h : s.starts 0x0601 c = true) : exec (.pwrCap c) s = .next (pwrCap' (s.sent 0x0601 c) (s.begun 0x0601 c)) :=
  congrArg Host.Outcome.next (State.zcp_starts h pwrCap')

theorem exec_pwrMode (h : s.starts 0x0602 c = true) : exec (.pwrMode c) s = .next (pwrMode' (s.sent 0x0602 c) (s.begun 0x0602 c)) :=
  congrArg Host.Outcome.next (State.zcp_starts h pwrMode')

theorem exec_axlReplan (h : s.starts 0x0704 c = true) :
    exec (.axlReplan c) s = .next (axlReplan' (s.sent 0x0704 c) (s.begun 0x0704 c)) :=
  congrArg Host.Outcome.next (State.zcp_starts h axlReplan')

end

/-- A cap in range is set on every die of the function, and recorded where it changed one. -/
theorem pwrCap'_inRange {d : Submission} {u : State} :
    let w := at' d.small 0 4
    (if u.quad then 300 ≤ w ∧ w ≤ 700 else 1200 ≤ w ∧ w ≤ 2800) →
    pwrCap' d u = if (u.diesOf d.func).all fun e => (u.die e).power.capW = w then u.single d stOk
      else ((u.diesOf d.func).foldl (fun v e => State.modPower v e fun p => { p with capW := w }) u).okJ d := by
  intro w hrange
  refine if_neg ?_
  cases hq : u.quad <;> simpa [hq, w] using hrange

/-- A mode in range is set on every die of the function, recorded where it changed one, and waits for the clock. -/
theorem pwrMode'_inRange {d : Submission} {u : State} :
    let mode := at' d.small 0 1
    let boost := at' d.small 1 1
    let mhz := at' d.small 2 2
    mode ≤ 1 → boost ≤ 1 → 800 ≤ mhz → mhz ≤ 1250 → mhz % 25 = 0 →
    let same := (u.diesOf d.func).all fun e =>
      let p := (u.die e).power
      p.pitchHold = (mode = 1) && p.boostEn = (boost = 1) && p.phMhz = mhz
    let v := (u.diesOf d.func).foldl (fun v e => State.modPower v e fun p =>
      { p with pitchHold := mode = 1, boostEn := boost = 1, phMhz := mhz }) u
    let w := if same then (v, 0) else v.journalCmd d
    pwrMode' d u = (w.1.modFunc d.func fun g => { g with modeJob := some (d, w.2) }).settleMode d.func := by
  intro mode boost mhz hmode hboost hlow hhigh hstep
  exact if_neg (by simp [mode, boost, mhz] at *; omega)

/-- Settles O24: each command starts, and its parameters are in range. -/
theorem powerCommandsTakeEffect : Obligations.PowerCommandsTakeEffect := by
  intro s c
  refine ⟨fun h => ?cap, fun h => ?mode, fun h => exec_axlReplan h⟩
  case cap =>
    intro d u w hrange
    exact (exec_pwrCap h).trans (congrArg Host.Outcome.next (pwrCap'_inRange hrange))
  case mode =>
    intro d u mode boost mhz hmode hboost hlow hhigh hstep
    exact (exec_pwrMode h).trans (congrArg Host.Outcome.next (pwrMode'_inRange hmode hboost hlow hhigh hstep))

/-! ## CNT_READ, CNT_CLEAR and FLT_QUERY (Table 16.7, R375, R450) -/

section
variable {s : State} {c : Submission}

theorem exec_cntRead (h : s.starts 0x0702 c = true) : exec (.cntRead c) s = .next (cntRead' (s.sent 0x0702 c) (s.begun 0x0702 c)) :=
  congrArg Host.Outcome.next (State.zcp_starts h cntRead')

theorem exec_cntClear (h : s.starts 0x0703 c = true) :
    exec (.cntClear c) s = .next (cntClear' (s.sent 0x0703 c) (s.begun 0x0703 c)) :=
  congrArg Host.Outcome.next (State.zcp_starts h cntClear')

theorem exec_fltQuery (h : s.starts 0x0701 c = true) :
    exec (.fltQuery c) s = .next (fltQuery' (s.sent 0x0701 c) (s.begun 0x0701 c)) :=
  congrArg Host.Outcome.next (State.zcp_starts h fltQuery')

end

section
variable {d : Submission} {u : State}

/-- A range that ends within the catalogue ends at its last counter at most. -/
theorem not_cntLast_lt {first n : Nat} (h : first + n ≤ 327680) : ¬ cntLast < first + n - 1 := by
  unfold cntLast
  omega

theorem cntRead'_inRange (hone : 1 ≤ hb d 28 4) (hmax : hb d 28 4 ≤ 4096) (hlast : hb d 24 4 + hb d 28 4 ≤ 327680)
    (hout : u.outOk d (hb d 32 8) (8 * hb d 28 4) = true) :
    cntRead' d u = u.outSingle d (hb d 32 8)
      ((List.range (hb d 28 4)).flatMap fun i => leBytes 8 (u.ctrAt d.func (hb d 24 4 + i))) (leBytes 8 u.clk) := by
  have last := not_cntLast_lt hlast
  refine if_neg ?_
  simp only [hout, Bool.or_eq_true, decide_eq_true_eq, Bool.not_true, Bool.false_eq_true, or_false]
  omega

theorem cntClear'_inRange :
    let first := hb d 24 4
    let n := hb d 28 4
    let all := bit (hb d 40 1) 0
    (all = true ∨ 1 ≤ n ∧ n ≤ 4096 ∧ first + n ≤ 327680) →
    let v := u.modFunc d.func fun g => { g with ctrs := g.ctrs.filter fun x => !all && !(first ≤ x.1 && x.1 < first + n) }
    cntClear' d u = if (v.func d.func).ctrs.length = (u.func d.func).ctrs.length then v.single d stOk else v.okJ d := by
  intro first n all hrange
  refine if_neg ?_
  simp only [Bool.and_eq_true, Bool.or_eq_true, decide_eq_true_eq, Bool.not_eq_true']
  rintro ⟨some, out⟩
  rcases hrange with every | hrange
  · exact Bool.false_ne_true (some.symm.trans every)
  · obtain ⟨hone, hmax, hlast⟩ := hrange
    have last := not_cntLast_lt hlast
    omega

/-- The records of a die in service, from the position asked. -/
theorem fltQuery'_inRange (hdie : hb d 24 1 ≤ if u.quad then 0 else 3) (hone : 1 ≤ hb d 26 2) (hmax : hb d 26 2 ≤ 256)
    (hout : u.outOk d (hb d 32 8) (32 * hb d 26 2) = true) (hup : u.up (u.physDie d.func (hb d 24 1)) = true) :
    let n := hb d 26 2
    let x := u.die (u.physDie d.func (hb d 24 1))
    fltQuery' d u = u.outSingle d (hb d 32 8)
      ((List.range n).flatMap fun i => match SMap.find ((hb d 25 1 + i) % 256) x.faults with | some r => r.bytes | none => zeros 32)
      (leBytes 2 n ++ leBytes 2 x.fltHead ++ leBytes 4 x.fltSeq) := by
  refine (if_neg ?_).trans (if_neg (by simp [hup]))
  simp only [hout, Bool.or_eq_true, decide_eq_true_eq, Bool.not_true, Bool.false_eq_true, or_false]
  omega

end

/-- Settles O15: each command starts, and its range is one that Table 16.7 allows. -/
theorem counterAndFaultCommands : Obligations.CounterAndFaultCommands := by
  intro s c
  refine ⟨fun h => ?read, fun h => ?clear, fun h => ?query⟩
  case read =>
    intro d u first n hone hmax hlast hout
    exact (exec_cntRead h).trans (congrArg Host.Outcome.next (cntRead'_inRange hone hmax hlast hout))
  case clear =>
    intro d u first n all hrange
    exact (exec_cntClear h).trans (congrArg Host.Outcome.next (cntClear'_inRange hrange))
  case query =>
    intro d u n x hdie hone hmax hout hup
    exact (exec_fltQuery h).trans (congrArg Host.Outcome.next (fltQuery'_inRange hdie hone hmax hout hup))

end Sys2Proof.Machine
end

section
/-!
PROOFS. Queues: the boundary events of stops (O14), doorbells (O27), commands taken in (O28), and completions written (O29).
-/
namespace Sys2Proof.Machine

/-! ## The boundary events (R369, R377 to R379) -/

section
variable {s : State} {f : Nat} {j : StopJob}

theorem exec_disableDone (h : (s.func f).stopReady 0x0011 (fun j => j.units.all (s.atBoundary f)) = some j) :
    exec (.disableDone f) s = .next (if j.count = 0 then (s.dropStop f j).single j.sub stOk (leBytes 4 j.count)
      else (s.dropStop f j).okJ j.sub (leBytes 4 j.count)) := by
  change execDisableDone f s = _
  unfold execDisableDone
  rw [h]

theorem exec_drainDone (h : (s.func f).stopReady 0x0012 (fun j => j.units.all s.drainedUnit) = some j) :
    exec (.drainDone f) s = .next (if j.step = 0 then (s.dropStop f j).single j.sub stOk (leBytes 2 (j.units.filter s.holdsUnit).length)
      else (s.dropStop f j).okJ j.sub (leBytes 2 (j.units.filter s.holdsUnit).length)) := by
  change execDrainDone f s = _
  unfold execDrainDone
  rw [h]

/-- The one QUENCH that waits ends when no engine in service tests its columns. -/
theorem exec_quenchDone (h : ((s.func f).stops.filter fun j => j.sub.opcode = 0x0010) = [j])
    (hrest : (((s.diesOf f).flatMap s.coresOf).all fun i => !((s.core i).mxe.selftest && (s.core i).mxe.state ≠ 6)) = true) :
    exec (.quenchDone f) s = .next ((((s.quenchAll f true).dropStop f j).okJ j.sub []
      (leBytes 8 j.step ++ leBytes 2 (s.func f).accepted.length)).startSteps f) := by
  have rests : (((s.diesOf f).flatMap s.coresOf).any fun i => (s.core i).mxe.selftest && (s.core i).mxe.state ≠ 6) = false := by
    rw [List.any_eq_not_all_not, hrest]
    rfl
  change execQuenchDone f s = _
  unfold execQuenchDone
  rw [h, rests]
  rfl

end

/-- Settles O14: each event completes its stop, and a release changes the one function. -/
theorem stopEventsComplete : Obligations.StopEventsComplete := fun s _ _ =>
  ⟨exec_disableDone, exec_drainDone, exec_quenchDone, fun _ => ⟨rfl, fun _ hne => s.func_modFunc_ne _ hne.symm⟩⟩

/-! ## Doorbells (R362) -/

section
variable {s : State} {f q : Nat} {r : Queue} (h : (s.func f).queues[q]? = some r)
include h

theorem exec_zcpSqtail (v : Word) : exec (.zcpSqtail f q v) s = .next
    (if 2 ^ r.sqLog2 ≤ fld v.toNat 0 12 ||
        (r.sqHead + 2 * 2 ^ r.sqLog2 - r.sqTail - 1) % 2 ^ r.sqLog2 < (fld v.toNat 0 12 + 2 ^ r.sqLog2 - r.sqTail) % 2 ^ r.sqLog2 then
      s.violOor f
    else s.modQueue f q fun r => { r with sqTail := fld v.toNat 0 12 }) := by
  change execZcpSqtail f q v s = _
  unfold execZcpSqtail State.sqDoorbell
  rw [h]

theorem exec_zcpCqhead (v : Word) : exec (.zcpCqhead f q v) s = .next
    (if 2 ^ r.ring.log2 ≤ fld v.toNat 0 12 ||
        (r.ring.tail + 2 ^ r.ring.log2 - r.ring.head) % 2 ^ r.ring.log2 <
          (fld v.toNat 0 12 + 2 ^ r.ring.log2 - r.ring.head) % 2 ^ r.ring.log2 then
      s.violOor f
    else s.modQueue f q fun x => x.setRing { r.ring with head := fld v.toNat 0 12 }) := by
  change execZcpCqhead f q v s = _
  unfold execZcpCqhead State.cqDoorbell
  rw [h]

/-! ## Commands and completions (R359 to R363, R370) -/

/-- A queue that owes nothing has nothing to settle. -/
theorem State.settleQueue_none (hold : r.old = none) : s.settleQueue f q = s := by
  unfold State.settleQueue
  simp only [h, hold]

/-- A slot that may be fetched moves the head, and its command is taken in. -/
theorem exec_commandFetch {slot : List Byte} (hready : s.ready = true) (hold : r.old = none) :
    let a := r.sqBase + 512 * r.sqHead
    let bytes := if r.loc then s.devRead f a 512 else slot
    (s.func f).mayFetch q (at' bytes 0 2) = true →
    let u := if r.loc && !s.reaches f a 512 then s.violOor f else s
    let v := u.modQueue f q fun r => { r with sqHead := (r.sqHead + 1) % 2 ^ r.sqLog2 }
    let w := if q = 0 then v else v.modFunc f fun g => { g with lastQ := q }
    exec (.commandFetch f q slot) s = .next (w.takeUp (parseSubmission (.queue q) f bytes)) := by
  intro a bytes hfetch
  have selected : (s.func f).queues.getD q Queue.reset = r := by rw [List.getD_eq_getElem?_getD, h]; rfl
  change execCommandFetch f q slot s = _
  unfold execCommandFetch
  rw [State.settleQueue_none h hold]
  simp only [selected]
  exact if_pos (by rw [hready]; exact hfetch)

/-- With room in the ring, the oldest completion is written and its stamp behind it. -/
theorem exec_completionWrite {x : Completion} {l : List Completion} (hwaits : (s.func f).waiting q = x :: l) (hroom : r.cqFull = false) :
    let g := r.ring
    let ea := g.base + 32 * g.tail
    let sa := g.base + 32 * 2 ^ g.log2 + 8 * g.tail
    let stamp := leBytes 8 (x.jrn % 2 ^ 48 + 2 ^ 63 * b2n g.phase)
    let u := s.modFunc f fun g => { g with done := eraseOne x g.done }
    let v := if g.loc then (u.devPut f ea x.bytes).devPut f sa stamp else (u.put (.busWrite ea x.bytes)).put (.busWrite sa stamp)
    let wrap := g.tail + 1 = 2 ^ g.log2
    let w := v.modQueue f q fun r =>
      r.setRing { g with tail := if wrap then 0 else g.tail + 1, phase := if wrap then !g.phase else g.phase }
    exec (.completionWrite f q) s = .next ((if r.irqEn then w.interrupt f r.vector else w).settleQueue f q) := by
  change execCompletionWrite f q s = _
  unfold execCompletionWrite
  simp only [h, hwaits]
  exact if_neg (by rw [hroom]; decide)

end

/-- Settles O27. -/
theorem doorbellsMoveTheirIndex : Obligations.DoorbellsMoveTheirIndex := fun _ _ _ v _ h => ⟨exec_zcpSqtail h v, exec_zcpCqhead h v⟩

/-- A command of a peer leaves the inbox. -/
theorem exec_reedwayZcpCommand {s : State} {f : Nat} {slot : List Byte} (hready : s.ready = true) (endpoint port : Nat) :
    exec (.reedwayZcpCommand f endpoint port slot) s = .next ((s.modFunc f fun g => { g with ep := { g.ep with
      inbox := eraseFirst (fun r => r.proto = 0 && r.src = endpoint && r.data = slot) g.ep.inbox } }).takeUp
        (parseSubmission (.peer endpoint port) f slot)) := if_pos hready

/-- A vendor message that may act does. -/
theorem State.vendor_acts {s : State} {f : Nat} (hup : s.sideUp = true) (hf : s.fns.contains f = true) (hready : s.ready = true)
    (h : State → State) : s.vendor f h = h s := by
  unfold State.vendor
  rw [if_neg (by rw [hup, hf]; decide), if_pos hready]

theorem exec_sidebandSubmission {s : State} {f : Nat} (slot : List Byte) (hready : s.ready = true) (hup : s.sideUp = true)
    (hf : s.fns.contains f = true) : exec (.sidebandSubmission f slot) s = .next (s.takeUp (parseSubmission .sideband f slot)) :=
  congrArg Host.Outcome.next (State.vendor_acts hup hf hready _)

/-- Settles O28: from each of the three sources a command is taken in. -/
theorem commandsAreTakenIn : Obligations.CommandsAreTakenIn :=
  ⟨fun _ _ _ _ _ hready _ h hold => exec_commandFetch h hready hold,
    fun _ _ slot hready => ⟨exec_reedwayZcpCommand hready, exec_sidebandSubmission slot hready⟩⟩

/-- Settles O29. -/
theorem completionsAreWritten : Obligations.CompletionsAreWritten := fun _ _ _ _ _ _ h hwaits hroom => exec_completionWrite h hwaits hroom

end Sys2Proof.Machine
end

section
/-!
PROOFS. What an enabling and a disabling make of the queue that is selected (O31).
-/
namespace Sys2Proof.Machine

/-! ## What counters and notification records change of a function -/

/-- A function without its counters, its notification ring and its apertures. -/
def Func.unlogged (g : Func) : Func := { g with note := (Func.reset 0).note, ctrs := [], apertures := [] }

/-- From `s` to `t` counters were counted and records emitted, into borrowed memory too, and nothing else of a function changed. -/
def Logs (s t : State) : Prop := t.funcs.map Func.unlogged = s.funcs.map Func.unlogged

section
variable {s t : State}

theorem Logs.func (h : Logs s t) (f : Nat) : (t.func f).unlogged = (s.func f).unlogged := by
  unfold State.func
  rw [← List.getD_map (f := Func.unlogged), h, List.getD_map]

theorem Logs.foldl {α : Type} {g : State → α → State} (l : List α) (h : Logs s t) (hg : ∀ u x, Logs u (g u x)) : Logs s (l.foldl g t) :=
  List.foldlRecOn (motive := Logs s) l g h fun u k x _ => (hg u x).trans k

theorem Logs.fst {β : Type} {p : State × β} {q : β} (e : p = (t, q)) (h : Logs s p.1) : Logs s t := by
  subst e
  exact h

theorem Logs.ite {c : Prop} [Decidable c] {a b : State} (h : Logs s a) (k : Logs s b) : Logs s (if c then a else b) := by
  split <;> assumption

variable (h : Logs s t)
include h

theorem Logs.modFunc {f : Nat} {g : Func → Func} (hg : (g (t.func f)).unlogged = (t.func f).unlogged) : Logs s (t.modFunc f g) :=
  (modNth_map_at Func.unlogged hg).trans h

/-- A change beside the functions. -/
theorem Logs.beside {u : State} (hu : u.funcs = t.funcs) : Logs s u := (congrArg (List.map Func.unlogged) hu).trans h

theorem Logs.poke (k : Nat) (bs : List Byte) : Logs s (t.poke k bs) := by
  unfold State.poke State.peerAccess
  split
  · exact h
  · split
    · exact h
    · split
      · exact h
      · exact h.modFunc rfl

theorem Logs.store (k : Nat) (bs : List Byte) : Logs s (t.store k bs) :=
  .foldl _ (h.poke k bs) fun u _ => Logs.ite (s := u) rfl (Logs.poke (s := u) rfl _ _)

theorem Logs.devWrite (f x : Nat) (bs : List Byte) : Logs s (t.devWrite f x bs) := by
  unfold State.devWrite
  split
  · exact h.store _ _
  · exact h

theorem Logs.interrupt (f v : Nat) : Logs s (t.interrupt f v) := .ite h h

theorem Logs.put (o : Output) : Logs s (t.put o) := h

theorem Logs.setSide (x : Sideband) : Logs s { t with side := x } := h

theorem Logs.ringWrite (f : Nat) (n : Note) : Logs s (t.ringWrite f n) := by
  unfold State.ringWrite
  dsimp only
  split
  · exact ((((h.devWrite f _ n.bytes).modFunc rfl).setSide _).put _).interrupt _ _
  · exact (((h.devWrite f _ n.bytes).modFunc rfl).setSide _).put _

theorem Logs.giveNote (f : Nat) (n : Note) : Logs s (t.giveNote f n).1 := by
  unfold State.giveNote
  split
  · exact h.ringWrite f n
  · exact h.modFunc rfl

theorem Logs.stamp (src : Nat) : Logs s (t.stamp src).1 := by
  unfold State.stamp
  split <;> exact h.beside rfl

theorem Logs.addCtr (f i n : Nat) : Logs s (t.modFunc f fun _ => ((t.func f).addCtr i n).1) :=
  h.modFunc (by
    unfold Func.addCtr
    dsimp only
    split <;> rfl)

theorem Logs.emitTo (fs : List Nat) (src kind inst a0 a1 : Nat) : Logs s (t.emitTo fs src kind inst a0 a1) := by
  unfold State.emitTo
  split
  next stamped q c e =>
    refine .foldl _ (.fst e (h.stamp src)) fun u f => ?_
    split
    next given lost e =>
      have counted : Logs u (given.modFunc f fun _ => ((given.func f).addCtr 32 lost).1) :=
        Logs.addCtr (.fst e (Logs.giveNote rfl f _)) f 32 lost
      exact ((counted.stamp 15).giveNote f _).ite counted

theorem Logs.count (f src i n : Nat) : Logs s (t.count f src i n) := ((h.addCtr f i n).emitTo _ _ _ _ _ _).ite (h.addCtr f i n)

end

/-! ## QUEUE_ENABLE and QUEUE_DISABLE (R362) -/

theorem modNth_getElem?_self {α : Type} (g : α → α) (i : Nat) (l : List α) : (modNth g i l)[i]? = l[i]?.map g := by
  induction l generalizing i with
  | nil => cases i <;> rfl
  | cons x l ih =>
    cases i with
    | zero => rfl
    | succ i => exact ih i

section
variable {s : State} {f q : Nat} {x : Queue} (hf : f < s.funcs.length) (hx : (s.func f).queues[q]? = some x)
include hf

theorem State.modQueue_waiting (h : Queue → Queue) : ((s.modQueue f q h).func f).waiting q = (s.func f).waiting q := by
  unfold State.modQueue
  rw [s.func_modFunc f (fun g => { g with queues := modNth h q g.queues }) hf]
  rfl

theorem State.modQueue_length (h : Queue → Queue) : f < (s.modQueue f q h).funcs.length := by
  rwa [State.modQueue, State.modFunc_funcs, modNth_length]

include hx

theorem State.modQueue_queue (h : Queue → Queue) : ((s.modQueue f q h).func f).queues[q]? = some (h x) := by
  have changed := congrArg Func.queues (s.func_modFunc f (fun g => { g with queues := modNth h q g.queues }) hf)
  unfold State.modQueue
  rw [changed, modNth_getElem?_self, hx]
  rfl

/-- What a queue is once it has settled: as it was, or without the ring of before. -/
theorem State.settleQueue_queue : ∃ r, ((s.settleQueue f q).func f).queues[q]? = some r ∧
    (r = x ∨ ∃ o, x.old = some o ∧ r = if x.en then { x with old := none } else { x with old := none }.setRing o) := by
  unfold State.settleQueue
  simp only [hx]
  split
  next o ho =>
    split
    · exact ⟨_, State.modQueue_queue hf hx _, .inr ⟨o, ho, rfl⟩⟩
    · exact ⟨x, hx, .inl rfl⟩
  next => exact ⟨x, hx, .inl rfl⟩

omit hf in
/-- A queue that still owes completions keeps the ring they go to. -/
theorem State.settleQueue_owes (h : ((s.func f).waiting q).isEmpty = false) : s.settleQueue f q = s := by
  unfold State.settleQueue
  simp only [hx, h, Bool.false_and]
  cases x.old <;> rfl

end

/-- What a write of ZCP_QCFG makes of the queue `r`: the locked fields where the queue is disabled, then EN and IRQ_EN. -/
def Queue.fields (r : Queue) (v : Nat) : Queue :=
  { r with
    loc := bit v 1
    sqLog2 := max 4 (min 12 (fld v 4 4))
    cqLog2 := max 4 (min 12 (fld v 8 4))
    vector := fld v 16 6 }

/-- A write of ZCP_QCFG changes a locked field. -/
def Queue.differs (r : Queue) (v : Nat) : Bool :=
  fld v 1 1 ≠ b2n r.loc || fld v 4 4 ≠ r.sqLog2 || fld v 8 4 ≠ r.cqLog2 || fld v 16 6 ≠ r.vector

/-- The state once the fields of ZCP_QCFG are set, before the queue starts or stops. -/
def State.fieldsWritten (s : State) (f q v : Nat) (r : Queue) : State :=
  (s.locked f (!r.en) (r.differs v) fun s => s.modQueue f q fun _ => r.fields v).modQueue f q
    fun r => { r with en := bit v 0, irqEn := bit v 22 }

/-- `x` is the queue `r` with the bits of a written ZCP_QCFG; its indices, its phase and the ring it owes stand. -/
structure Queue.Configured (v : Nat) (r x : Queue) : Prop where
  en : x.en = bit v 0
  irqEn : x.irqEn = bit v 22
  sqHead : x.sqHead = r.sqHead
  sqTail : x.sqTail = r.sqTail
  cqHead : x.cqHead = r.cqHead
  cqTail : x.cqTail = r.cqTail
  phase : x.phase = r.phase
  old : x.old = r.old

/-- The function is there, has a queue `q` of which `p` holds, and the completions `w` wait for it. -/
def State.HasQueue (s : State) (f q : Nat) (w : List Completion) (p : Queue → Prop) : Prop :=
  ∃ x, (s.func f).queues[q]? = some x ∧ p x ∧ f < s.funcs.length ∧ (s.func f).waiting q = w

section
variable {s : State} {f q v : Nat} {r : Queue}

theorem State.writeQcfg_eq (hr : (s.func f).queues[(s.func f).qsel]? = some r) :
    s.writeQcfg f v = if bit v 0 && !r.en then
        ((s.fieldsWritten f (s.func f).qsel v r).modQueue f (s.func f).qsel Queue.restart).settleQueue f (s.func f).qsel
      else if !bit v 0 && r.en then
        ((s.fieldsWritten f (s.func f).qsel v r).modQueue f (s.func f).qsel fun x => { x with old := some r.ring }).settleQueue f (s.func f).qsel
      else s.fieldsWritten f (s.func f).qsel v r := by
  unfold State.writeQcfg Func.selQueue
  simp only [hr]
  rfl

theorem State.HasQueue.modQueue {p : Queue → Prop} {w : List Completion} {h : Queue → Queue}
    (k : s.HasQueue f q w fun x => p (h x)) : (s.modQueue f q h).HasQueue f q w p := by
  obtain ⟨x, hx, hp, hl, hw⟩ := k
  exact ⟨_, State.modQueue_queue hl hx h, hp, State.modQueue_length hl h, (State.modQueue_waiting hl h).trans hw⟩

theorem State.fieldsWritten_configures (hf : f < s.funcs.length) (hr : (s.func f).queues[q]? = some r) :
    (s.fieldsWritten f q v r).HasQueue f q ((s.func f).waiting q) (Queue.Configured v r) := by
  have configured : Queue.Configured v r { r.fields v with en := bit v 0, irqEn := bit v 22 } := ⟨rfl, rfl, rfl, rfl, rfl, rfl, rfl, rfl⟩
  have enabled : Queue.Configured v r { r with en := bit v 0, irqEn := bit v 22 } := ⟨rfl, rfl, rfl, rfl, rfl, rfl, rfl, rfl⟩
  have logged {u : State} (h : Logs s u) : u.HasQueue f q ((s.func f).waiting q) (· = r) := by
    refine ⟨r, (congrArg (·.queues[q]?) (h.func f)).trans hr, rfl, ?_, (congrArg (fun g : Func => g.waiting q) (h.func f) :)⟩
    rw [← List.length_map (as := u.funcs), h, List.length_map]
    exact hf
  refine State.HasQueue.modQueue ?_
  unfold State.locked
  split
  · exact ⟨_, State.modQueue_queue hf hr _, configured, State.modQueue_length hf _, State.modQueue_waiting hf _⟩
  · obtain ⟨x, hx, rfl, rest⟩ : (if r.differs v then s.violLock f else s).HasQueue f q ((s.func f).waiting q) (· = r) :=
      logged (Logs.ite (Logs.count rfl _ _ _ _) rfl)
    exact ⟨x, hx, enabled, rest⟩

end

section
variable {s : State} {f v : Nat} {r : Queue} (hf : f < s.funcs.length) (hr : (s.func f).queues[(s.func f).qsel]? = some r)
include hf hr

/-- A write with EN set: a queue that was disabled starts anew, and one that was enabled goes on. -/
theorem State.writeQcfg_enables (hen : bit v 0 = true) :
    ∃ x, ((s.writeQcfg f v).func f).queues[(s.func f).qsel]? = some x ∧ x.en = true ∧ x.irqEn = bit v 22 ∧
      (r.en = false → x.sqHead = 0 ∧ x.sqTail = 0 ∧ x.cqHead = 0 ∧ x.cqTail = 0 ∧ x.phase = true) ∧
      (r.en = true → x.sqHead = r.sqHead ∧ x.sqTail = r.sqTail ∧ x.cqHead = r.cqHead ∧ x.cqTail = r.cqTail ∧ x.phase = r.phase) := by
  obtain ⟨x, hx, k, hl, -⟩ := State.fieldsWritten_configures (v := v) hf hr
  rw [State.writeQcfg_eq hr, hen]
  cases was : r.en with
  | true => exact ⟨x, hx, k.en.trans hen, k.irqEn, nofun, fun _ => ⟨k.sqHead, k.sqTail, k.cqHead, k.cqTail, k.phase⟩⟩
  | false =>
    obtain ⟨y, hy, settled⟩ := State.settleQueue_queue (State.modQueue_length hl Queue.restart) (State.modQueue_queue hl hx Queue.restart)
    refine ⟨y, hy, ?_⟩
    have restarted : y = x.restart ∨ y = { x.restart with old := none } := by
      refine settled.imp_right fun ⟨o, _, e⟩ => e.trans (if_pos (k.en.trans hen))
    obtain rfl | rfl := restarted <;> exact ⟨k.en.trans hen, k.irqEn, fun _ => ⟨rfl, rfl, rfl, rfl, rfl⟩, nofun⟩

/-- A write with EN clear leaves the submission ring where it is, and the completion ring too where none was owed. -/
theorem State.writeQcfg_disables (hen : bit v 0 = false) :
    ∃ x, ((s.writeQcfg f v).func f).queues[(s.func f).qsel]? = some x ∧ x.en = false ∧ x.sqHead = r.sqHead ∧ x.sqTail = r.sqTail ∧
      (r.old = none → x.cqHead = r.cqHead ∧ x.cqTail = r.cqTail ∧ x.phase = r.phase ∧
        (r.en = true → ((s.func f).waiting (s.func f).qsel).isEmpty = false → x.old = some r.ring)) := by
  obtain ⟨x, hx, k, hl, waits⟩ := State.fieldsWritten_configures (v := v) hf hr
  rw [State.writeQcfg_eq hr, hen]
  cases was : r.en with
  | false => exact ⟨x, hx, k.en.trans hen, k.sqHead, k.sqTail, fun _ => ⟨k.cqHead, k.cqTail, k.phase, nofun⟩⟩
  | true =>
    have owing := State.modQueue_queue hl hx fun x => { x with old := some r.ring }
    obtain ⟨y, hy, settled⟩ := State.settleQueue_queue (State.modQueue_length hl _) owing
    refine ⟨y, hy, ?_⟩
    have unsettled (h : ((s.func f).waiting (s.func f).qsel).isEmpty = false) : y = { x with old := some r.ring } := by
      have stays := State.settleQueue_owes owing (by rw [State.modQueue_waiting hl, waits, h])
      rw [stays] at hy
      exact Option.some.inj (hy.symm.trans owing)
    have ended : y = { x with old := some r.ring } ∨ y = ({ x with old := none } : Queue).setRing r.ring :=
      settled.imp_right fun ⟨o, ho, e⟩ => by
        obtain rfl := Option.some.inj ho
        exact e.trans (if_neg (by simp [k.en, hen]))
    have ring (h : r.old = none) : r.ring = ⟨r.cqBase, r.cqLog2, r.cqHead, r.cqTail, r.phase, r.loc⟩ := by
      unfold Queue.ring
      rw [h]
      rfl
    obtain rfl | rfl := ended
    · exact ⟨k.en.trans hen, k.sqHead, k.sqTail, fun _ => ⟨k.cqHead, k.cqTail, k.phase, fun _ _ => rfl⟩⟩
    · refine ⟨k.en.trans hen, k.sqHead, k.sqTail, fun h => ⟨?_, ?_, ?_, fun _ waits => by rw [unsettled waits]⟩⟩ <;> rw [ring h] <;> rfl

end

/-- Settles O31, by what a write of ZCP_QCFG makes of the queue that is selected. -/
theorem queueEnableRestartsTheRing : Obligations.QueueEnableRestartsTheRing := by
  intro s f v r hlive hw hf hlen hr
  have offers : s.Offers f 0x40020 .zcp 0x20 := .ofModule hf rfl rfl rfl rfl (by
    have there : (s.func f).selQueue = some r := hr
    unfold State.regValue
    simp only [there]
    rfl)
  have stored (w : Word) : (s.hostReg f 0x40020 w).funcs = (s.writeQcfg f w.toNat).funcs := by
    obtain ⟨j, m, n, e⟩ := offers.hostReg hlive hw (.inl rfl) w
    rw [e]
    rfl
  have on : bit (v ||| 1).toNat 0 = true := by simp [bit]
  have off : bit (v &&& ~~~1).toNat 0 = false := by simp [bit]
  have seen {w : Word} : (s.hostReg f 0x40020 w).func f = (s.writeQcfg f w.toNat).func f := 
    congrArg (fun l : List Func => l.getD f (Func.reset 0)) (stored w)
  obtain ⟨x, hx, started⟩ := State.writeQcfg_enables hlen hr on
  obtain ⟨y, hy, stopped⟩ := State.writeQcfg_disables hlen hr off
  exact ⟨⟨_, x, rfl, (congrArg (fun g : Func => g.queues[(s.func f).qsel]?) seen).trans hx, started⟩,
    ⟨_, y, rfl, (congrArg (fun g : Func => g.queues[(s.func f).qsel]?) seen).trans hy, stopped⟩⟩

end Sys2Proof.Machine
end

section
/-!
PROOFS. Attestation, staging and activation (O25), and how an activation goes on (O26).
-/
namespace Sys2Proof.Machine

/-! ## Counters and answers -/

section
variable {s t : State}

theorem Reports.cntAll (h : Reports s t) (k n : Nat) : Reports s (t.cntAll k n) := .foldl _ h fun u _ => (Reports.refl u).count _ _ _ _

theorem Reports.interim (h : Reports s t) (c : Submission) (status : Nat) : Reports s (t.interim c status) := h.answer _ _ _ _ _ _

theorem Reports.final (h : Reports s t) (c : Submission) (status : Nat) (detail result : List Byte) (jrn : Nat) :
    Reports s (t.final c status detail result jrn) := h.answer _ _ _ _ _ _

theorem SameUnits.interim (h : SameUnits s t) (c : Submission) (status : Nat) : SameUnits s (t.interim c status) := h.ite (h.deliver _ _)

/-- No command, activation or role changes with a counter or an answer. -/
theorem Reports.security (h : Reports s t) : t.sec = s.sec ∧ t.act = s.act := by
  rw [h.rest]
  exact ⟨rfl, rfl⟩

theorem SameUnits.jobs_any (h : SameUnits s t) (p : AsyncJob → Bool) : (t.funcs.any fun g => g.jobs.any p) = s.funcs.any fun g => g.jobs.any p := by
  have units := congrArg (List.any · fun g : Func => g.jobs.any p) h.funcs
  rwa [List.any_map, List.any_map] at units

end

/-! ## SEC_ATTEST, FW_STAGE and FW_ACTIVATE (R389, R390, R405, R411) -/

section
variable {s : State} {c : Submission}

theorem exec_secAttest (h : s.starts 0x0801 c = true) : exec (.secAttest c) s = .next (secAttest' (s.sent 0x0801 c) (s.begun 0x0801 c)) :=
  congrArg Host.Outcome.next (State.zcp_starts h secAttest')

theorem exec_fwStage (h : s.starts 0x0901 c = true) : exec (.fwStage c) s = .next (fwStage' (s.sent 0x0901 c) (s.begun 0x0901 c)) :=
  congrArg Host.Outcome.next (State.zcp_starts h fwStage')

theorem exec_fwActivate (h : s.starts 0x0902 c = true) :
    exec (.fwActivate c) s = .next (fwActivate' (s.sent 0x0902 c) (s.begun 0x0902 c)) :=
  congrArg Host.Outcome.next (State.zcp_starts h fwActivate')

end

section
variable {d : Submission} {u : State}

theorem secAttest'_absent (h : u.sec.role = 2 ∨ bit u.sec.scopes 2 = true) : secAttest' d u = u.single d stNotPresent :=
  if_pos (by simpa using h)

theorem secAttest'_reports (hrole : u.sec.role ≠ 2) (hscope : bit u.sec.scopes 2 = false) (hout : u.outOk d (hb d 24 8) 5024 = true) :
    let body := u.reportBody (d.small.drop 8)
    secAttest' d u = (u.cntAll 28).outSingle d (hb d 24 8)
      (body ++ leBytes 1280 (Config.identitySign (shake256 body)).toNat) (leBytes 4 5024) :=
  (if_neg (by simp [hrole, hscope])).trans (if_neg (by simp [hout]))

/-- A kind that no other command stages or activates is taken in. -/
theorem fwStage'_free (hrole : u.sec.role ≠ 2)
    (hstaged : (u.funcs.any fun g => g.jobs.any fun j => j.sub.opcode = 0x0901 && j.arg = hb d 24 1) = false)
    (hact : ∀ a, u.act = some a → a.kind ≠ hb d 24 1) :
    fwStage' d u = (u.interim d stAccepted).modFunc d.func fun g => { g with jobs := g.jobs ++ [⟨d, hb d 24 1, true, 0, 0⟩] } := by
  obtain ⟨sec, act⟩ := ((Reports.refl u).interim d stAccepted).security
  have jobs := (((SameUnits.refl u).interim d stAccepted).jobs_any fun j => j.sub.opcode = 0x0901 && j.arg = hb d 24 1).trans hstaged
  unfold fwStage'
  refine (if_neg (by rwa [sec])).trans (if_neg ?_)
  rw [jobs, act]
  cases running : u.act with
  | none => simp
  | some a => simp [hact a running]

theorem fwActivate'_staged {im : Image} :
    let v := u.interim d stAccepted
    let kind := hb d 24 1
    v.act = none → (v.fwKind kind).staged = some im → (kind = 2 → v.maxNegotiated ≤ v.highWith im) → v.sec.role ≠ 2 →
    let w := { v.modFunc d.func fun g => { g with jobs := g.jobs ++ [⟨d, kind, true, 0, 0⟩] } with deferTime := v.clk }
    let a : Activation := ⟨kind, d, 1, false, im, [], [], false⟩
    fwActivate' d u = if w.anyEmerg then ({ w.cntAll 25 with act := some a }).interim d stDeferred else w.actWrite a := by
  intro v kind hact hstaged hversion hrole w a
  have free : ¬ v.act.isSome = true := by simp [hact]
  have offered : ¬ (kind = 2 && v.highWith im < v.maxNegotiated && v.highWith im < v.zcpHigh) = true := by
    simp only [Bool.and_eq_true, decide_eq_true_eq, not_and]
    exact fun ⟨hkind, hless⟩ => absurd hless (Nat.not_lt.2 (hversion hkind))
  unfold fwActivate'
  refine (if_neg free).trans ((if_neg hrole).trans ?_)
  simp only [v, kind] at hstaged
  simp only [hstaged]
  exact if_neg offered

end

/-- The end of a staging, which the security core comes to unless it is stopped. -/
theorem exec_fwStageDone {s : State} {kind f : Nat} {j : AsyncJob}
    (hjob : (s.fns.findSome? fun f => ((s.func f).job 0x0901 kind).map fun j => (f, j)) = some (f, j))
    (hrole : s.sec.role ≠ 2) (hruns : s.procStops (.security s.sec.role) = false) :
    exec (.fwStageDone kind) s = .next (s.fwStageEnd f j) := by
  change execFwStageDone kind s = _
  unfold execFwStageDone
  rw [hjob]
  exact (if_neg hrole).trans (if_neg (by simp [hruns]))

/-- Settles O25, each command by its checks. -/
theorem securityCommandsTakeEffect : Obligations.SecurityCommandsTakeEffect := by
  refine ⟨fun s c h => ?attest, fun s c => ⟨fun h => ?stage, fun kind f j => exec_fwStageDone, fun h im => ?activate⟩⟩
  case attest =>
    intro d u
    exact ⟨fun no => (exec_secAttest h).trans (congrArg Host.Outcome.next (secAttest'_absent no)),
      fun hrole hscope hout => (exec_secAttest h).trans (congrArg Host.Outcome.next (secAttest'_reports hrole hscope hout))⟩
  case stage =>
    intro d u kind hrole hstaged hact
    exact (exec_fwStage h).trans (congrArg Host.Outcome.next (fwStage'_free hrole hstaged hact))
  case activate =>
    intro d u kind hact hstaged hversion hrole v a
    exact (exec_fwActivate h).trans (congrArg Host.Outcome.next (fwActivate'_staged hact hstaged hversion hrole))

/-! ## How an activation goes on (R390 to R393, R400, R401) -/

theorem State.fwKind_modFw {s : State} {k : Nat} (g : FwKind → FwKind) (hk : k < s.fw.length) : (s.modFw k g).fwKind k = g (s.fwKind k) :=
  modNth_getD_self g k s.fw FwKind.rom hk

theorem State.modFw_length {s : State} {k : Nat} (g : FwKind → FwKind) : (s.modFw k g).fw.length = s.fw.length := modNth_length g k s.fw

/-- A processor that restarts pauses its cluster. -/
theorem State.pauseProc_clusters (s : State) (p : Proc) : ∃ cl, s.pauseProc p = { s with clusters := cl } := by
  cases p with
  | control d c => exact ⟨_, rfl⟩
  | security d => exact ⟨s.clusters, rfl⟩
  | power d => exact ⟨s.clusters, rfl⟩
  | scheduler d => exact ⟨s.clusters, rfl⟩

theorem State.pauseProcs_clusters (s : State) (l : List Proc) : ∃ cl, l.foldl State.pauseProc s = { s with clusters := cl } := by
  induction l generalizing s with
  | nil => exact ⟨s.clusters, rfl⟩
  | cons p l ih =>
    obtain ⟨cl, e⟩ := s.pauseProc_clusters p
    obtain ⟨cl', e'⟩ := ih (s.pauseProc p)
    exact ⟨cl', by rw [List.foldl_cons, e', e]⟩

/-- The processors that restart pause their clusters, and nothing else changes but the activation. -/
theorem State.actRestart_units (s : State) (a : Activation) :
    ∃ cl act procs, s.actRestart a = { s with clusters := cl, act := act, procs := procs } := by
  unfold State.actRestart
  extract_lets first t
  obtain ⟨cl, e⟩ := s.pauseProcs_clusters first
  have e : t = { s with clusters := cl } := e
  rw [e]
  exact ⟨_, _, _, rfl⟩

/-- An activation that may go on writes its image. -/
theorem exec_fwActivateProceed {s : State} {a : Activation} (ha : s.act = some a) (hstage : a.stage = 1) (hcool : s.anyEmerg = false)
    (hruns : s.procStops (.security (s.sec.role % 2)) = false) : exec .fwActivateProceed s = .next (s.actWrite a) := by
  change execFwActivateProceed s = _
  unfold execFwActivateProceed
  rw [ha]
  exact if_pos (by simp [hstage, hcool, hruns])

/-- An overlay becomes the active one of its kind, and the one before the previous. -/
def FwKind.activated (im : Image) (x : FwKind) : FwKind := { x with previous := x.active, active := some im, staged := none }

/-- An image no older than the rollback counter becomes the active one. -/
theorem State.actWrite_writes {s : State} {a : Activation} (hver : s.sec.arCount ≤ a.image.secVersion) (hk : a.kind < s.fw.length) :
    (s.actWrite a).fwKind a.kind = (s.fwKind a.kind).activated a.image ∧ (s.actWrite a).sec = s.sec ∧ (s.actWrite a).mem = s.mem := by
  have written : (s.modFw a.kind fun x => x.activated a.image).fwKind a.kind = _ := State.fwKind_modFw _ hk
  obtain ⟨cl, act, procs, restarts⟩ := (s.modFw a.kind fun x => x.activated a.image).actRestart_units
    { a with stage := 2, written := true, waiting := (s.modFw a.kind fun x => x.activated a.image).restartOrder a.kind }
  have e : s.actWrite a = { (s.modFw a.kind fun x => x.activated a.image) with clusters := cl, act := act, procs := procs } :=
    (if_neg (Nat.not_lt.2 hver)).trans restarts
  rw [e]
  exact ⟨written, rfl, rfl⟩

theorem exec_deferredTimeout {s : State} {a : Activation} (ha : s.act = some a) (hstage : a.stage = 1)
    (hruns : s.procStops (.security (s.sec.role % 2)) = false) :
    exec .deferredTimeout s = .next ((s.actEnd a).actFinal a stDeferredTimeout) := by
  change execDeferredTimeout s = _
  unfold execDeferredTimeout
  rw [ha]
  exact if_pos (by simp [hstage, hruns])

/-- `t` runs the firmware of `s`, with its rollback counter, its activation and its cores. -/
structure SameFirmware (s t : State) : Prop where
  fw : t.fw = s.fw
  counter : t.sec.arCount = s.sec.arCount
  reverted : t.sec.reverted = s.sec.reverted
  act : t.act = s.act
  cores : t.cores = s.cores

section
variable {s t : State} (h : SameFirmware s t)

theorem SameFirmware.refl (s : State) : SameFirmware s s := ⟨rfl, rfl, rfl, rfl, rfl⟩

include h

theorem SameFirmware.trans {u : State} (k : SameFirmware t u) : SameFirmware s u :=
  ⟨k.fw.trans h.fw, k.counter.trans h.counter, k.reverted.trans h.reverted, k.act.trans h.act, k.cores.trans h.cores⟩

theorem SameFirmware.reports {u : State} (k : Reports t u) : SameFirmware s u := by
  obtain ⟨-, -, cores, -, fw, -⟩ := k.serves
  obtain ⟨sec, act⟩ := k.security
  exact h.trans ⟨fw, congrArg Security.arCount sec, congrArg Security.reverted sec, act, cores⟩

theorem SameFirmware.measure (type source jrn : Nat) (a b : List Byte) : SameFirmware s (t.measure type source jrn a b) := by
  unfold State.measure
  dsimp only
  split <;> exact h.trans ⟨rfl, rfl, rfl, rfl, rfl⟩

theorem SameFirmware.measureKind (kind : Nat) (im : Option Image) : SameFirmware s (t.measureKind kind im) := h.trans ⟨rfl, rfl, rfl, rfl, rfl⟩

theorem SameFirmware.journalCmd (c : Submission) : SameFirmware s (t.journalCmd c).1 := h.trans ⟨rfl, rfl, rfl, rfl, rfl⟩

theorem SameFirmware.cntAll (k n : Nat) : SameFirmware s (t.cntAll k n) := h.reports ((Reports.refl t).cntAll k n)

theorem SameFirmware.actFinal (a : Activation) (status : Nat) (detail : List Byte) (jrn : Nat) :
    SameFirmware s (t.actFinal a status detail jrn) := by
  unfold State.actFinal
  split
  · exact h
  · exact h.reports ((Reports.refl t).final _ _ _ _ _)

end

/-- The end of an activation, and what it leaves running. -/
theorem exec_fwActivateDone {s : State} {a : Activation} (ha : s.act = some a) (hstage : a.stage = 2) (hwaiting : a.waiting = [])
    (hruns : s.procStops (.security (s.sec.role % 2)) = false) : ∃ t, exec .fwActivateDone s = .next t ∧
      SameFirmware (State.modFw { s.actEnd a with sec := { s.sec with arCount := max s.sec.arCount (min 63 a.image.secVersion) } } a.kind
        fun x => { x with running := some a.image }) t := by
  change ∃ t, execFwActivateDone s = _ ∧ _
  unfold execFwActivateDone
  rw [ha]
  refine ⟨_, if_neg (by simp [hstage, hwaiting, hruns]), ?_⟩
  exact (((((SameFirmware.refl _).measureKind _ _).journalCmd _).measure _ _ _ _ _).cntAll _ _).actFinal _ _ _ _

theorem SameFirmware.setReverted {s t : State} (h : SameFirmware s t) :
    SameFirmware { s with sec := { s.sec with reverted := true } } { t with sec := { t.sec with reverted := true } } :=
  ⟨h.fw, h.counter, rfl, h.act, h.cores⟩

/-- The end of a reversion: the active image runs. -/
theorem State.revertEnd_firmware (s : State) (a : Activation) : SameFirmware
    { (s.actEnd a).modFw a.kind (fun x => { x with running := (s.fwKind a.kind).active }) with sec := { s.sec with reverted := true } }
      (s.revertEnd a) :=
  (((((SameFirmware.refl _).measureKind _ _).journalCmd _).measure _ _ _ _ _).setReverted.cntAll _ _).actFinal _ _ _ _

/-- What the end of a reversion leaves. -/
theorem State.revertEnd_reverts {s : State} {a : Activation} (hk : a.kind < s.fw.length) :
    (s.revertEnd a).act = none ∧ (s.revertEnd a).fwKind a.kind = { s.fwKind a.kind with running := (s.fwKind a.kind).active } ∧
      (s.revertEnd a).sec.reverted = true ∧ (s.revertEnd a).sec.arCount = s.sec.arCount ∧ (s.revertEnd a).cores = s.cores := by
  have h := s.revertEnd_firmware a
  have running : (s.modFw a.kind fun x => { x with running := (s.fwKind a.kind).active }).fwKind a.kind = _ := State.fwKind_modFw _ hk
  exact ⟨h.act, (congrArg (fun l : List FwKind => l.getD a.kind FwKind.rom) h.fw).trans running, h.reverted, h.counter, h.cores⟩

/-- A reversion goes on with the next processor, or ends; the image that is active stands. -/
theorem State.revertNext_firmware {s : State} {a : Activation} (hk : a.kind < s.fw.length) :
    ((s.revertNext a).fwKind a.kind).active = (s.fwKind a.kind).active ∧ ((s.revertNext a).fwKind a.kind).previous = (s.fwKind a.kind).previous ∧
      (s.revertNext a).sec.arCount = s.sec.arCount ∧ (s.revertNext a).cores = s.cores := by
  unfold State.revertNext
  split
  · obtain ⟨-, kind, -, counter, cores⟩ := State.revertEnd_reverts hk
    exact ⟨(congrArg FwKind.active kind :), (congrArg FwKind.previous kind :), counter, cores⟩
  · obtain ⟨cl, act, procs, e⟩ := s.actRestart_units a
    rw [e]
    exact ⟨rfl, rfl, rfl, rfl⟩

/-- A reversion brings the previous image back, and its processors restart onto it. -/
theorem exec_activationRevert {s : State} {a : Activation} (ha : s.act = some a) (hstage : a.stage = 2) (hacting : a.acting ≠ [])
    (hruns : s.procStops (.security (s.sec.role % 2)) = false ∨ a.acting.contains (.security (s.sec.role % 2)) = true)
    (hk : a.kind < s.fw.length) : ∃ t, exec .activationRevert s = .next t ∧ (t.fwKind a.kind).active = (s.fwKind a.kind).previous ∧
      (t.fwKind a.kind).previous = none ∧ t.sec.arCount = s.sec.arCount ∧ t.cores = s.cores := by
  change ∃ t, execActivationRevert s = _ ∧ _
  unfold execActivationRevert
  rw [ha]
  have back : (s.modFw a.kind fun x => { x with active := x.previous, previous := none }).fwKind a.kind = _ := State.fwKind_modFw _ hk
  have long : a.kind < (s.modFw a.kind fun x => { x with active := x.previous, previous := none }).fw.length := by rwa [State.modFw_length]
  refine ⟨_, if_neg ?_, ?_⟩
  · rcases hruns with runs | own
    · simp [hstage, hacting, runs]
    · simp only [own, hstage]
      simpa using hacting
  · let t : State := s.modFw a.kind fun x => { x with active := x.previous, previous := none }
    let u : State := { t with procs := { t.procs with restarting := t.procs.restarting.filter fun p => !a.acting.contains p } }
    obtain ⟨active, previous, counter, cores⟩ :=
      State.revertNext_firmware (s := u) (a := { a with stage := 3, waiting := u.restartOrder a.kind }) long
    exact ⟨active.trans (congrArg FwKind.active back :), previous.trans (congrArg FwKind.previous back :), counter, cores⟩

/-- The last processor that restarts onto the image before ends the reversion. -/
theorem State.actResume_reverts {s : State} {a : Activation} {p : Proc} (ha : s.act = some a) (hstage : a.stage = 3)
    (hwaiting : a.waiting = [p]) (hacting : a.acting = [p]) : s.actResume p = s.revertEnd { a with waiting := [], acting := [] } := by
  unfold State.actResume
  simp [ha, hstage, hwaiting, hacting, State.revertNext]

theorem exec_processorRestartDone {s : State} {p : Proc} (h : s.procs.restarting.contains p = true) :
    exec (.processorRestartDone p) s = .next (State.resumeProc (State.actResume
      { s with procs := { s.procs with restarting := s.procs.restarting.filter (· ≠ p) } } p) p) := by
  exact if_neg (by simpa using h)

/-- Settles O26, stage by stage. -/
theorem activationProceeds : Obligations.ActivationProceeds := by
  intro s a ha
  refine ⟨fun hstage hcool hruns hver hk => ?goesOn, fun hstage hruns => exec_deferredTimeout ha hstage hruns,
    fun hstage hwaiting hruns hk => ?ends, fun hstage hacting hruns hk => exec_activationRevert ha hstage hacting hruns hk,
    fun p hstage hwaiting hacting hp hk => ?reverted⟩
  case goesOn =>
    obtain ⟨kind, sec, mem⟩ := State.actWrite_writes hver hk
    exact ⟨_, exec_fwActivateProceed ha hstage hcool hruns, (congrArg FwKind.active kind :), (congrArg FwKind.previous kind :),
      (congrArg FwKind.staged kind :), sec, mem⟩
  case ends =>
    obtain ⟨t, e, h⟩ := exec_fwActivateDone ha hstage hwaiting hruns
    have running : (s.modFw a.kind fun x => { x with running := some a.image }).fwKind a.kind = _ := State.fwKind_modFw _ hk
    have kind := (congrArg (fun l : List FwKind => l.getD a.kind FwKind.rom) h.fw).trans running
    exact ⟨t, e, h.act, (congrArg FwKind.running kind :), h.counter, h.cores⟩
  case reverted =>
    let u : State := { s with procs := { s.procs with restarting := s.procs.restarting.filter (· ≠ p) } }
    obtain ⟨act, kind, back, counter, -⟩ := State.revertEnd_reverts (s := u) (a := { a with waiting := [], acting := [] }) hk
    have resumes : u.actResume p = u.revertEnd { a with waiting := [], acting := [] } := State.actResume_reverts ha hstage hwaiting hacting
    exact ⟨_, (exec_processorRestartDone hp).trans (congrArg (fun v : State => Host.Outcome.next (v.resumeProc p)) resumes), act,
      (congrArg FwKind.running kind :), (congrArg FwKind.active kind :), back, counter⟩

end Sys2Proof.Machine
end

section
/-!
PROOFS. The JTAG port: the boundary-scan instructions (O40), unlocking (O41) and the debug instructions (O42).
-/
namespace Sys2Proof.Machine

/-! ## An instruction at the port (R438 to R440) -/

theorem State.openBits_length (s : State) (n : Nat) : (s.openBits n).1.length = n := by simp [State.openBits]

section
variable {s : State} {code : Nat} {isOpen : Bool} {k : State → State} (h : s.boot.pwrGood = true)
include h

theorem State.jtagUp_powered : s.jtagUp k = .next (k s) := congrArg Host.Outcome.next (if_pos h)

theorem State.scoped_closed (ho : isOpen = false) : s.scoped code isOpen k = .next (s.actsBypass code) := by
  subst ho
  exact State.jtagUp_powered h

theorem State.scoped_open (ho : isOpen = true) : s.scoped code isOpen k = .next (k s.undriven) := by
  subst ho
  exact State.jtagUp_powered h

end

/-! ## The boundary-scan instructions (R438, R439, Table 20.8) -/

section
variable {s : State} {code : Nat} {k : State → State} {pins : List Bool}

theorem State.boardTest_asserted (h : s.boot.perst = true) : s.boardTest code k = k s := if_pos h

theorem State.boardTest_idle (h : s.boot.perst = false) : s.boardTest code k = s.actsBypass code := if_neg (by simp [h])

/-- What a scan of the boundary register puts in and drives. -/
theorem State.boundaryScan_scans (drive : Bool) :
    let t := s.boundaryScan code pins drive
    let held := (pins ++ List.replicate boundaryCells false).take boundaryCells
    t = { s with jtag := t.jtag, out := t.out, fresh := t.fresh } ∧ t.jtag.ir = code ∧ t.jtag.boundary = held ∧
      t.jtag.driven = (if drive then some held else none) ∧ t.jtag.dr.length = boundaryCells :=
  ⟨rfl, rfl, rfl, rfl, s.openBits_length boundaryCells⟩

/-- EXTEST and its kin: the pins are driven while PERST# is asserted, and the instruction is BYPASS otherwise. -/
theorem State.boardTest_drives :
    let t := s.boardTest code fun s => s.boundaryScan code pins true
    t = { s with jtag := t.jtag, out := t.out, fresh := t.fresh } ∧
      (s.boot.perst = true → t.jtag.ir = code ∧ t.jtag.boundary = (pins ++ List.replicate boundaryCells false).take boundaryCells ∧
        t.jtag.driven = some t.jtag.boundary ∧ t.jtag.dr.length = boundaryCells) ∧
      (s.boot.perst = false → t.jtag = { s.jtag with ir := code, driven := none, dr := [false] }) := by
  intro t
  cases hp : s.boot.perst with
  | true =>
    have e : t = _ := State.boardTest_asserted hp
    obtain ⟨rest, ir, boundary, driven, len⟩ := s.boundaryScan_scans (code := code) (pins := pins) true
    rw [e]
    exact ⟨rest, fun _ => ⟨ir, boundary, driven.trans (congrArg some boundary.symm), len⟩, nofun⟩
  | false =>
    have e : t = _ := State.boardTest_idle hp
    rw [e]
    exact ⟨rfl, nofun, fun _ => rfl⟩

/-- CLAMP and HIGHZ: the pins take `held`, or the instruction is BYPASS. -/
theorem State.boardTest_holds (held : List Bool) :
    let t := s.boardTest code fun s => State.tap { s with jtag := { s.jtag with driven := some held } } code [false]
    t = { s with jtag := t.jtag, out := t.out } ∧ t.jtag.ir = code ∧ t.jtag.driven = if s.boot.perst then some held else none := by
  intro t
  cases hp : s.boot.perst with
  | true =>
    have e : t = _ := State.boardTest_asserted hp
    rw [e]
    exact ⟨rfl, rfl, rfl⟩
  | false =>
    have e : t = _ := State.boardTest_idle hp
    rw [e]
    exact ⟨rfl, rfl, rfl⟩

end

/-- The identification of a module of which the maker's number and the version are given. -/
def idcodeOf (maker version : Nat) : Nat := 1 + 2 * maker + 2 ^ 12 * 0x4044 + 2 ^ 28 * version

theorem idcodeValue_eq : idcodeValue = idcodeOf Config.idcodeManufacturer.toNat Config.idcodeVersion.toNat := rfl

theorem idcodeOf_part {maker version : Nat} (h : maker < 2 ^ 11) :
    idcodeOf maker version / 2 ^ 12 % 2 ^ 16 = 0x4044 ∧ idcodeOf maker version % 2 = 1 := by
  unfold idcodeOf
  omega

theorem idcodeValue_part : idcodeValue / 2 ^ 12 % 2 ^ 16 = 0x4044 ∧ idcodeValue % 2 = 1 := by
  rw [idcodeValue_eq]
  exact idcodeOf_part Config.idcodeManufacturer.isLt

theorem exec_tapReset {s : State} (h : s.boot.pwrGood = true) :
    exec .tapReset s = .next { s with jtag := { s.jtag with ir := 0x01, driven := none } } :=
  (State.jtagUp_powered h : execTapReset s = _)

/-- Settles O40, each instruction by what it drives and scans. -/
theorem boundaryScanActs : Obligations.BoundaryScanActs := by
  intro s hs
  refine ⟨fun pins c code hc => ?extest, ⟨_, (State.jtagUp_powered hs : execClamp s = _), State.boardTest_holds _⟩,
    ⟨_, (State.jtagUp_powered hs : execHighz s = _), State.boardTest_holds _⟩,
    fun pins => ⟨_, (State.jtagUp_powered hs : execSamplePreload pins s = _), ?preload⟩,
    (State.jtagUp_powered hs : execIdcode s = _), idcodeValue_part,
    
    fun b => ⟨_, (State.jtagUp_powered hs : execBypass b s = _), rfl, rfl⟩, exec_tapReset hs⟩
  case extest =>
    obtain hc | hc | hc : (c, code) = (Instr.extest pins, 0x00) ∨ (c, code) = (Instr.extestPulse pins, 0x03) ∨
        (c, code) = (Instr.extestTrain pins, 0x04) := by
      simpa using hc
    · cases hc
      exact ⟨_, (State.jtagUp_powered hs : execExtest pins s = _), State.boardTest_drives⟩
    · cases hc
      exact ⟨_, (State.jtagUp_powered hs : execExtestPulse pins s = _), State.boardTest_drives⟩
    · cases hc
      exact ⟨_, (State.jtagUp_powered hs : execExtestTrain pins s = _), State.boardTest_drives⟩
  case preload =>
    obtain ⟨rest, -, boundary, driven, len⟩ := s.boundaryScan_scans (code := 0x02) (pins := pins) false
    exact ⟨rest, boundary, driven, len⟩

/-! ## CHALLENGE and UNLOCK (R409, R410) -/

/-- A measurement leaves the challenge, the tokens and the scopes. -/
theorem State.measure_meas (s : State) (type source jrn : Nat) (a b : List Byte) :
    ∃ m n, s.measure type source jrn a b = { s with sec := { s.sec with meas := m, m6Events := n } } := by
  unfold State.measure
  dsimp only
  split
  · exact ⟨s.sec.meas, s.sec.m6Events, rfl⟩
  · exact ⟨_, _, rfl⟩

/-- A token that the security core judges spends the challenge, and opens its scopes if it is accepted. -/
theorem State.judgeToken_judges (s : State) (token : List Byte) :
    let t := s.judgeToken token
    t.sec.challenge = none ∧ t.sec.tokens = s.sec.tokens ∧
      t.sec.scopes = (if s.tokenOk token then s.sec.scopes ||| (at' token 3 1 % 8) else s.sec.scopes) ∧
      (s.tokenOk token = false → t.sec.meas = s.sec.meas) ∧ t.cores = s.cores ∧ t.clusters = s.clusters ∧ t.cfg = s.cfg ∧ t.fw = s.fw := by
  intro t
  cases ok : s.tokenOk token with
  | true =>
    let u : State := { s with sec := { s.sec with challenge := none, scopes := s.sec.scopes ||| (at' token 3 1 % 8) } }
    have e : t = (u.measure 6 97 (u.journal.nextSeq - 1) (shake256 token) []).cntAll 30 := if_pos ok
    obtain ⟨m, n, measured⟩ := u.measure_meas 6 97 (u.journal.nextSeq - 1) (shake256 token) []
    have h := (Reports.refl (u.measure 6 97 (u.journal.nextSeq - 1) (shake256 token) [])).cntAll 30 1
    rw [← e, measured] at h
    obtain ⟨cfg, -, cores, clusters, fw, -⟩ := h.serves
    obtain ⟨sec, -⟩ := h.security
    rw [sec]
    exact ⟨rfl, rfl, rfl, nofun, cores, clusters, cfg, fw⟩
  | false =>
    have e : t = State.cntAll { s with sec := { s.sec with challenge := none } } 31 := if_neg (by simp [ok])
    have h := (Reports.refl { s with sec := { s.sec with challenge := none } }).cntAll 31 1
    rw [← e] at h
    obtain ⟨cfg, -, cores, clusters, fw, -⟩ := h.serves
    obtain ⟨sec, -⟩ := h.security
    rw [sec]
    exact ⟨rfl, rfl, rfl, fun _ => rfl, cores, clusters, cfg, fw⟩

/-- CHALLENGE draws what the noise source gives. -/
theorem exec_challenge {s : State} (h : s.boot.pwrGood = true) : ∃ t b, exec .challenge s = .next t ∧
    t.sec = { s.sec with challenge := some b } ∧ b.length = 32 ∧ t.jtag.ir = 0xC0 ∧
      t = { s with sec := t.sec, jtag := t.jtag, out := t.out, fresh := t.fresh } :=
  ⟨_, (List.range 32).map fun i => Config.noiseByte (s.fresh + i),
    (State.jtagUp_powered h : execChallenge s = _), rfl, by simp, rfl, rfl⟩

/-- UNLOCK hands its token to the security core, which judges it unless it is stopped. -/
theorem exec_unlock {s : State} (h : s.boot.pwrGood = true) (token : List Byte) :
    let u := State.actsBypass { s with sec := { s.sec with tokens := s.sec.tokens ++ [token] } } 0xC1
    exec (.unlock token) s = .next (if s.procStops (.security (s.sec.role % 2)) then u else u.judgeTokens) :=
  (State.jtagUp_powered h : execUnlock token s = _)

/-- Settles O41: the token waits for the security core, or is judged at once. -/
theorem unlockTakesAToken : Obligations.UnlockTakesAToken := by
  intro s hs
  refine ⟨exec_challenge hs, fun token stops => ⟨_, (exec_unlock hs token).trans (congrArg _ (if_pos stops)), rfl⟩,
    fun token runs empty => ?_⟩
  let u : State := State.actsBypass { s with sec := { s.sec with tokens := [] } } 0xC1
  have one : State.judgeTokens (State.actsBypass { s with sec := { s.sec with tokens := s.sec.tokens ++ [token] } } 0xC1) = u.judgeToken token := by
    rw [empty]
    rfl
  obtain ⟨challenge, tokens, scopes, meas, rest⟩ := u.judgeToken_judges token
  exact ⟨_, (exec_unlock hs token).trans (congrArg Host.Outcome.next ((if_neg (by simp [runs])).trans one)),
    challenge, tokens, scopes, meas, rest⟩

/-! ## Debug instructions (R408, R440, Table 20.11) -/

section
variable {s : State} (hs : s.boot.pwrGood = true)
include hs

theorem State.procCtl_closed {action : Nat} {k : Proc → State → State} (hscope : bit s.sec.scopes (procScope s.jtag.procSel) = false) :
    s.procCtl action k = .next (s.actsBypass 0xD2) := State.scoped_closed hs hscope

/-- Outside its scope an instruction is BYPASS. -/
theorem exec_outOfScope {c : Instr} {code scope : Nat} (hscope : bit s.sec.scopes scope = false)
    (h : (c, code, scope) ∈ [(Instr.procHalt, 0xD2, procScope s.jtag.procSel), (.procRun, 0xD2, procScope s.jtag.procSel),
        (.procStep, 0xD2, procScope s.jtag.procSel), (.scanLen, 0xD9, scanScope s.jtag.scanSel)] ∨
      (∃ n w d, (c, code, scope) = (Instr.procReg n w d, 0xD3, procScope s.jtag.procSel)) ∨
      (∃ a, (c, code, scope) = (Instr.memAddr a, 0xD4, 1)) ∨ (∃ w d, (c, code, scope) = (Instr.memData w d, 0xD5, 1)) ∨
      (∃ o w d, (c, code, scope) = (Instr.regAccess o w d, 0xD6, 1)) ∨ (∃ x, (c, code, scope) = (Instr.procSel x, 0xD1, procScope x)) ∨
      (∃ x, (c, code, scope) = (Instr.scanSel x, 0xD7, scanScope x)) ∨
      (∃ l, (c, code, scope) = (Instr.scanShift l, 0xD8, scanScope s.jtag.scanSel))) : exec c s = .next (s.actsBypass code) := by
  rcases h with h | ⟨n, w, d, h⟩ | ⟨a, h⟩ | ⟨w, d, h⟩ | ⟨o, w, d, h⟩ | ⟨x, h⟩ | ⟨x, h⟩ | ⟨l, h⟩
  · obtain h | h | h | h : (c, code, scope) = (Instr.procHalt, 0xD2, procScope s.jtag.procSel) ∨
        (c, code, scope) = (Instr.procRun, 0xD2, procScope s.jtag.procSel) ∨
        (c, code, scope) = (Instr.procStep, 0xD2, procScope s.jtag.procSel) ∨
        (c, code, scope) = (Instr.scanLen, 0xD9, scanScope s.jtag.scanSel) := by simpa only [List.mem_cons, List.not_mem_nil, or_false] using h
    · cases h
      exact (State.procCtl_closed hs hscope : execProcHalt s = _)
    · cases h
      exact (State.procCtl_closed hs hscope : execProcRun s = _)
    · cases h
      exact (State.procCtl_closed hs hscope : execProcStep s = _)
    · cases h
      exact (State.scoped_closed hs hscope : execScanLen s = _)
  · cases h
    exact (State.scoped_closed hs hscope : execProcReg n w d s = _)
  · cases h
    exact (State.scoped_closed hs hscope : execMemAddr a s = _)
  · cases h
    exact (State.scoped_closed hs hscope : execMemData w d s = _)
  · cases h
    exact (State.scoped_closed hs hscope : execRegAccess o w d s = _)
  · cases h
    exact (State.scoped_closed hs hscope : execProcSel x s = _)
  · cases h
    exact (State.scoped_closed hs hscope : execScanSel x s = _)
  · cases h
    exact (State.scoped_closed hs hscope : execScanShift l s = _)

section
variable (hscope : bit s.sec.scopes (procScope s.jtag.procSel) = true) (hup : s.procUp (procOf s.jtag.procSel) = true)
include hscope

/-- PROC_CTL on a processor that is there. -/
theorem State.procCtl_acts (action : Nat) (k : Proc → State → State) (hup : s.procUp (procOf s.jtag.procSel) = true) :
    s.procCtl action k = .next ((k (procOf s.jtag.procSel) s.undriven).tap 0xD2 (natBits 8 action)) :=
  (State.scoped_open hs hscope : s.procCtl action k = _).trans
    (congrArg (fun t : State => Host.Outcome.next (t.tap 0xD2 (natBits 8 action))) (if_pos hup))

/-- PROC_REG outside a halted processor. -/
theorem exec_procReg_running (h : s.selHalted = false) (n : Nat) (w : Bool) (d : Word) :
    exec (.procReg n w d) s = .next (s.undriven.tap 0xD3 (natBits 64 0)) :=
  (State.scoped_open hs hscope : execProcReg n w d s = _).trans (congrArg Host.Outcome.next (if_pos (congrArg not h)))

/-- A register of a halted processor takes what is written to it. -/
theorem exec_procReg_halted (h : s.selHalted = true) (n : Nat) (d : Word) :
    let k := procCode (procOf s.jtag.procSel)
    let regs := s.procs.regs.filter (fun x => !(x.1 = k && x.2.1 = n % 256)) ++ [(k, n % 256, d)]
    exec (.procReg n true d) s =
      .next (State.tap { s.undriven with procs := { s.procs with regs := regs } } 0xD3 (natBits 64 d.toNat)) :=
  (State.scoped_open hs hscope : execProcReg n true d s = _).trans
    (congrArg Host.Outcome.next (if_neg (ne_true_of_eq_false (congrArg not h))))

include hup

/-- The halt of a processor that runs. -/
theorem exec_procHalt (h : s.procs.halted.contains (procOf s.jtag.procSel) = false) :
    let p := procOf s.jtag.procSel
    exec .procHalt s = .next (State.tap (State.pauseProc (State.procMoved
      { s.undriven with procs := { s.procs with halted := s.procs.halted ++ [p] } } p) p) 0xD2 (natBits 8 1)) :=
  (State.procCtl_acts hs hscope 1 _ hup : execProcHalt s = _).trans
    (congrArg (fun t : State => Host.Outcome.next (t.tap 0xD2 (natBits 8 1))) (if_neg (ne_true_of_eq_false h)))

variable (h : s.procs.halted.contains (procOf s.jtag.procSel) = true)
include h

/-- A step of a processor that is halted. -/
theorem exec_procStep : exec .procStep s = .next ((s.undriven.procMoved (procOf s.jtag.procSel)).tap 0xD2 (natBits 8 3)) :=
  (State.procCtl_acts hs hscope 3 _ hup : execProcStep s = _).trans
    (congrArg (fun t : State => Host.Outcome.next (t.tap 0xD2 (natBits 8 3))) (if_pos h))

/-- A processor that is halted runs again. -/
theorem exec_procRun :
    let p := procOf s.jtag.procSel
    exec .procRun s = .next ((State.resumeProc (State.procMoved
      { s.undriven with procs := { s.procs with halted := s.procs.halted.filter (· ≠ p) } } p) p).tap 0xD2 (natBits 8 2)) :=
  (State.procCtl_acts hs hscope 2 _ hup : execProcRun s = _).trans
    (congrArg (fun t : State => Host.Outcome.next (t.tap 0xD2 (natBits 8 2))) (if_pos h))

end

/-- A scan gives out as many bits as the chain has, all zero where its domain holds work. -/
theorem exec_scanShift (hscope : bit s.sec.scopes (scanScope s.jtag.scanSel) = true) (l : List Bool) : ∃ t,
    exec (.scanShift l) s = .next t ∧ t.jtag.dr.length = Config.scanLength s.jtag.scanSel ∧
      (s.scanRests = false → t.jtag.dr = List.replicate (Config.scanLength s.jtag.scanSel) false) ∧
      t = { s with jtag := t.jtag, out := t.out, fresh := t.fresh } := by
  have opened : exec (.scanShift l) s = _ := (State.scoped_open hs hscope : execScanShift l s = _)
  cases rests : s.scanRests with
  | true =>
    exact ⟨_, opened.trans (congrArg Host.Outcome.next (if_pos rests)), s.undriven.openBits_length _, nofun, rfl⟩
  | false =>
    exact ⟨_, opened.trans (congrArg Host.Outcome.next (if_neg (ne_true_of_eq_false rests))), List.length_replicate, fun _ => rfl, rfl⟩

end

/-- A halt pauses the cluster of a control core, and touches nothing else of the units. -/
theorem State.halted_rest (s : State) (p : Proc) :
    let t := State.tap (State.pauseProc (State.procMoved
      { s.undriven with procs := { s.procs with halted := s.procs.halted ++ [p] } } p) p) 0xD2 (natBits 8 1)
    t.procs.halted = s.procs.halted ++ [p] ∧ t = { s with procs := t.procs, clusters := t.clusters, jtag := t.jtag, out := t.out } ∧
      ((∀ d c, p ≠ .control d c) → t.clusters = s.clusters) := by
  cases p with
  | control d c => exact ⟨rfl, rfl, fun h => absurd rfl (h d c)⟩
  | security d => exact ⟨rfl, rfl, fun _ => rfl⟩
  | power d => exact ⟨rfl, rfl, fun _ => rfl⟩
  | scheduler d => exact ⟨rfl, rfl, fun _ => rfl⟩

/-- Settles O42: each instruction acts in its scope, and is BYPASS outside it. -/
theorem debugInstructionsNeedTheirScope : Obligations.DebugInstructionsNeedTheirScope := by
  intro s hs v p
  exact ⟨fun c code scope h hscope => exec_outOfScope hs hscope h,
    fun h => (State.scoped_closed hs (by simp [h]) : execDbgStatus s = _),
    fun h => (State.scoped_open hs (by simp [h]) : execDbgStatus s = _),
    fun x h => ⟨_, (State.scoped_open hs h : execProcSel x s = _), rfl, rfl, rfl⟩,
    fun hscope hup => ⟨fun runs => ⟨_, exec_procHalt hs hscope hup runs, s.halted_rest p⟩,
      fun halted => ⟨⟨_, exec_procStep hs hscope hup halted, rfl, rfl, rfl⟩,
      exec_procRun hs hscope hup halted, fun n d => ⟨_, exec_procReg_halted hs hscope halted n d,
        List.mem_append_right _ (List.mem_singleton_self _), rfl, rfl⟩⟩⟩,
    fun hscope => exec_procReg_running hs hscope,
    fun hscope => ⟨fun a => ⟨_, (State.scoped_open hs hscope : execMemAddr a s = _), rfl, rfl⟩,
      fun w d => ⟨_, (State.scoped_open hs hscope : execMemData w d s = _), rfl, rfl, rfl⟩,
      fun o d => (State.scoped_open hs hscope : execRegAccess o true d s = _),
      fun o d => (State.scoped_open hs hscope : execRegAccess o false d s = _)⟩,
    fun x h => ⟨_, (State.scoped_open hs h : execScanSel x s = _), rfl, rfl⟩,
    fun hscope => ⟨⟨_, (State.scoped_open hs hscope : execScanLen s = _), rfl, rfl⟩, exec_scanShift hs hscope⟩⟩

end Sys2Proof.Machine
end

section
/-!
PROOFS. The sideband (O39), and the control of a port (O33).
-/
namespace Sys2Proof.Machine

/-! ## The sideband (R436, R437) -/

theorem inWindow_of_le {off n : Nat} (hn : n ≤ 65000) (h : off + n ≤ windowSize) : inWindow off n = true := by
  unfold inWindow
  rw [Bool.and_eq_true, decide_eq_true_eq, decide_eq_true_eq]
  exact ⟨hn, h⟩

section
variable {s : State} (hup : s.sideUp = true)
include hup

theorem exec_entdaa {a : Nat} (hfree : s.side.address = none) (ha : a < 128) : exec (.entdaa a) s = .next { s with
    side := { s.side with address := some a }
    out := s.out ++ [.provisionedId (s.side.slotId % 64 + 64 * Config.provisionedId.toNat)] } :=
  if_pos (by simp [hup, hfree, ha])

theorem exec_setEndpointId {e : Nat} (h1 : 1 ≤ e) (h2 : e < 255) : exec (.setEndpointId e) s = .next
    { s with side := { s.side with eid := e }, out := s.out ++ [.mctp ([0, 0] ++ leBytes 1 e ++ [0])] } :=
  (if_neg (by simp [hup])).trans (if_neg (by simp; omega))

variable {f : Nat} (hf : s.fns.contains f = true)
include hf

theorem exec_sidebandRegRead (off : Nat) : exec (.sidebandRegRead f off) s =
    .next ((s.regRead f off 8).2.put (.mctp (leBytes 8 (s.regRead f off 8).1.toNat))) :=
  if_pos (Bool.and_eq_true_iff.2 ⟨hup, hf⟩)

theorem exec_sidebandRegWrite (off : Nat) (v : Word) : exec (.sidebandRegWrite f off v) s = .next (s.regWrite f 96 off 8 v.toNat) :=
  congrArg Host.Outcome.next (if_pos (Bool.and_eq_true_iff.2 ⟨hup, hf⟩))

variable (hready : s.ready = true)
include hready

theorem exec_sidebandWindowWrite {off : Nat} {b : List Byte} (hw : inWindow off b.length = true)
    (hm : s.inMemory f (windowBase + off) b.length = true) :
    exec (.sidebandWindowWrite f off b) s = .next (s.hostWrite f (windowBase + off) b) :=
  congrArg Host.Outcome.next ((State.vendor_acts hup hf hready _).trans (if_pos (Bool.and_eq_true_iff.2 ⟨hw, hm⟩)))

theorem exec_sidebandWindowRead {off n k : Nat} (hw : inWindow off n = true) (hk : s.key f (windowBase + off) = some k) :
    exec (.sidebandWindowRead f off n) s = .next ((s.checkedRead k n).2.put (.mctp (s.checkedRead k n).1)) := by
  refine congrArg Host.Outcome.next ((State.vendor_acts hup hf hready _).trans ((if_pos hw).trans ?_))
  rw [hk]
  rfl

end

/-- Settles O39, message by message. -/
theorem sidebandAnswers : Obligations.SidebandAnswers := by
  intro s hup
  have answers (b : List Byte) : Host.Outcome.next (if s.sideUp then s.mctp b else s) = (.next (s.mctp b) : Done) :=
    congrArg Host.Outcome.next (if_pos hup)
  exact ⟨fun a hfree ha => exec_entdaa hup hfree ha, fun e h1 h2 => ⟨_, _, exec_setEndpointId hup h1 h2, rfl⟩, answers _, answers _, answers _,
    fun f hf hready => ⟨fun off b hlen hoff hm => exec_sidebandWindowWrite hup hf hready (inWindow_of_le hlen hoff) hm,
      fun off n k hlen hoff hk => exec_sidebandWindowRead hup hf hready (inWindow_of_le hlen hoff) hk⟩,
    fun f off hf => ⟨exec_sidebandRegRead hup hf off, exec_sidebandRegWrite hup hf off⟩⟩

/-! ## What counters, records and messages leave of the ports -/

/-- `t` has the ports of `s`, as far as `k` reads them. -/
structure PortsAgree {α : Type} (k : Port → α) (s t : State) : Prop where
  ports : t.ports.map k = s.ports.map k

theorem PortsAgree.refl {α : Type} (k : Port → α) (s : State) : PortsAgree k s s := ⟨rfl⟩

theorem PortsAgree.trans {α : Type} {k : Port → α} {s t u : State} (h : PortsAgree k s t) (h' : PortsAgree k t u) : PortsAgree k s u :=
  ⟨h'.ports.trans h.ports⟩

section
variable {α : Type} {k : Port → α} {s t : State}

theorem PortsAgree.foldl {β : Type} {g : State → β → State} (l : List β) (h : PortsAgree k s t) (hg : ∀ u x, PortsAgree k u (g u x)) :
    PortsAgree k s (l.foldl g t) :=
  List.foldlRecOn (motive := PortsAgree k s) l g h fun u hu x _ => hu.trans (hg u x)

theorem PortsAgree.ite {c : Prop} [Decidable c] {a b : State} (h : PortsAgree k s a) (h' : PortsAgree k s b) :
    PortsAgree k s (if c then a else b) := by
  split <;> assumption

theorem PortsAgree.fst {β : Type} {p : State × β} {q : β} (e : p = (t, q)) (h : PortsAgree k s p.1) : PortsAgree k s t := by
  subst e
  exact h

variable (h : PortsAgree k s t)
include h

theorem PortsAgree.port (p : Nat) : k (t.port p) = k (s.port p) := by
  unfold State.port
  rw [← List.getD_map (f := k), h.ports, List.getD_map]

theorem PortsAgree.length : t.ports.length = s.ports.length := by simpa using congrArg List.length h.ports

theorem PortsAgree.modFunc (f : Nat) (g : Func → Func) : PortsAgree k s (t.modFunc f g) := h.trans ⟨rfl⟩
theorem PortsAgree.modDie (d : Nat) (g : Die → Die) : PortsAgree k s (t.modDie d g) := h.trans ⟨rfl⟩
theorem PortsAgree.put (o : Output) : PortsAgree k s (t.put o) := h.trans ⟨rfl⟩
theorem PortsAgree.setSide (x : Sideband) : PortsAgree k s { t with side := x } := h.trans ⟨rfl⟩
theorem PortsAgree.put' (x : Nat) (bs : List Byte) : PortsAgree k s (t.put' x bs) := h.trans ⟨rfl⟩
theorem PortsAgree.interrupt (f v : Nat) : PortsAgree k s (t.interrupt f v) := (h.put _).ite h

theorem PortsAgree.poke (x : Nat) (bs : List Byte) : PortsAgree k s (t.poke x bs) := by
  unfold State.poke State.peerAccess
  split
  · exact h.put' _ _
  · split
    · exact h.put' _ _
    · split
      · exact h.put' _ _
      · exact (h.modFunc _ _).put' _ _

theorem PortsAgree.store (x : Nat) (bs : List Byte) : PortsAgree k s (t.store x bs) :=
  .foldl _ (h.poke x bs) fun u _ => (PortsAgree.refl k u).ite ((PortsAgree.refl k u).poke _ _)

theorem PortsAgree.devWrite (f x : Nat) (bs : List Byte) : PortsAgree k s (t.devWrite f x bs) := by
  unfold State.devWrite
  split
  · exact h.store _ _
  · exact h

theorem PortsAgree.ringWrite (f : Nat) (n : Note) : PortsAgree k s (t.ringWrite f n) := by
  unfold State.ringWrite
  dsimp only
  split
  · exact ((((h.devWrite f _ n.bytes).modFunc f _).setSide _).put _).interrupt _ _
  · exact (((h.devWrite f _ n.bytes).modFunc f _).setSide _).put _

theorem PortsAgree.giveNote (f : Nat) (n : Note) : PortsAgree k s (t.giveNote f n).1 := by
  unfold State.giveNote
  split
  · exact h.ringWrite f n
  · exact h.modFunc _ _

theorem PortsAgree.stamp (src : Nat) : PortsAgree k s (t.stamp src).1 := by
  unfold State.stamp
  split
  · exact h.modDie _ _
  · exact h.trans ⟨rfl⟩

theorem PortsAgree.emitTo (fs : List Nat) (src kind inst a0 a1 : Nat) : PortsAgree k s (t.emitTo fs src kind inst a0 a1) := by
  unfold State.emitTo
  split
  next stamped q c e =>
    refine .foldl _ (.fst e (h.stamp src)) fun u f => ?_
    split
    next given lost e =>
      have counted : PortsAgree k u (given.modFunc f fun _ => ((given.func f).addCtr 32 lost).1) :=
        PortsAgree.modFunc (.fst e ((PortsAgree.refl k u).giveNote f _)) _ _
      exact ((counted.stamp 15).giveNote f _).ite counted

theorem PortsAgree.count (f src i n : Nat) : PortsAgree k s (t.count f src i n) := ((h.modFunc f _).emitTo _ _ _ _ _ _).ite (h.modFunc f _)

theorem PortsAgree.cntPort (p c n : Nat) : PortsAgree k s (t.cntPort p c n) := h.count _ _ _ _

/-- A message goes into the queue of a port. -/
theorem PortsAgree.queueOut (hk : ∀ q l, k { q with queues := l } = k q) (m : Sent) (bytes : List Byte) :
    PortsAgree k s (t.queueOut m bytes).1 := by
  unfold State.queueOut
  dsimp only
  split
  · exact h.trans ⟨modNth_map k (fun q => hk q _) _ _⟩
  · exact h

theorem PortsAgree.resendWhole (hk : ∀ q l, k { q with queues := l } = k q) (m : Sent) : PortsAgree k s (t.resendWhole m) := by
  unfold State.resendWhole
  split
  next sent p e => exact PortsAgree.modFunc (.fst e (h.queueOut hk m _)) _ _

end

/-- A port that has stopped keeps its enable, and its fellows theirs. -/
theorem State.stopPort_agree (s : State) (port state : Nat) : PortsAgree Port.en (s.modPort port (Port.stopped state)) (s.stopPort port state) := by
  have h := PortsAgree.refl Port.en (s.modPort port (Port.stopped state))
  exact .foldl _ ((h.cntPort _ _ _).ite h) fun u m => (PortsAgree.refl Port.en u).resendWhole (fun _ _ => rfl) m

theorem State.portDown_agree (s : State) (port : Nat) : PortsAgree Port.en (s.modPort port (Port.stopped 4)) (s.portDown port) := by
  unfold State.portDown
  exact PortsAgree.emitTo ((s.stopPort_agree port 4).modDie _ _) _ _ _ _ _ _

/-! ## The control of a port (R416, R419, R424) -/

section
variable {s : State} {p : Nat} (hlive : s.live = true) (hw : s.sec.writes = []) (hp : p < 24) (hup : s.up (p / 6) = true)
  (hpower : (s.die (p / 6)).powered = true)
include hlive hw hp hup hpower

/-- FAB_PORTn_CTL of a port whose die is in service. -/
theorem State.hostReg_portCtl (w : Word) :
    Recorded (if bit w.toNat 1 then (s.setPortEn p (bit w.toNat 0)).askRetrain p else s.setPortEn p (bit w.toNat 0))
      (s.hostReg (s.fnOf (p / 6)) (s.portBase p + 8) w) := by
  have die : p / 6 < 4 := by omega
  have port : 6 * (p / 6) + p % 6 = p := Nat.div_add_mod p 6
  have slot : p % 6 < 6 := Nat.mod_lt p (by decide)
  have phys := s.physDie_locDie (p / 6)
  have block := dieBlk_port (d := p / 6) (o := 8) slot (by decide)
  rw [port] at block
  have offers : s.Offers (s.fnOf (p / 6)) (0x400000 + 0xC00000 * s.locDie (p / 6) + (0x80000 + 0x10000 * (p % 6) + 8)) (.fab p) 8 := by
    refine .ofDie (State.fns_contains_fnOf die) (State.locDie_lt die) (by rwa [phys]) (by rwa [phys]) (by omega) (by omega) ?_ ?_ ?_ rfl
    · rwa [phys]
    · rw [phys]
      rfl
    · rw [phys]
      rfl
  have address : s.portBase p + 8 = 0x400000 + 0xC00000 * s.locDie (p / 6) + (0x80000 + 0x10000 * (p % 6) + 8) := by
    unfold State.portBase State.dieBase
    omega
  rw [address]
  exact offers.hostReg hlive hw (.inl rfl) w

end

/-- A port that is enabled trains where it is down or fresh and its links are sound; the others stand. -/
theorem State.setPortEn_enables {s : State} {p : Nat} (hp : p < s.ports.length) :
    let t := s.setPortEn p true
    (t.port p).en = true ∧
      (((s.port p).state = 0 ∨ (s.port p).state = 4) → (s.die (p / 6)).portsOk.contains (p % 6) = true → (t.port p).state = 1) ∧
      t.mem = s.mem ∧ ∀ q, q ≠ p → t.port q = s.port q := by
  intro t
  let u := s.modPort p fun p => { p with en := true }
  have e : t = if ((s.port p).state = 0 || (s.port p).state = 4) && (s.die (p / 6)).portsOk.contains (p % 6) then u.startTraining p else u := rfl
  have enabled : u.port p = { s.port p with en := true } := s.port_modPort p _ hp
  have fellows (q : Nat) (h : q ≠ p) : u.port q = s.port q := s.port_modPort_ne _ (Ne.symm h)
  have long : p < u.ports.length := by rwa [State.modPort_ports, modNth_length]
  split at e
  next trains =>
    have training := u.port_modPort p (fun q =>
      { Port.reset with en := q.en, state := 1, retrains := q.retrains, verFailAt := q.verFailAt, trainStart := (u.die (p / 6)).clk }) long
    rw [e]
    exact ⟨(congrArg Port.en training).trans (congrArg Port.en enabled), fun _ _ => (congrArg Port.state training :), rfl,
      fun q h => (u.port_modPort_ne _ (Ne.symm h)).trans (fellows q h)⟩
  next idle =>
    rw [e]
    exact ⟨congrArg Port.en enabled, fun hstate hsound => absurd (by simpa [hstate] using hsound) idle, rfl, fellows⟩

/-- A port that is disabled is off. -/
theorem State.setPortEn_disables {s : State} {p : Nat} (hp : p < s.ports.length) (hen : (s.port p).en = true) :
    ((s.setPortEn p false).port p).en = false ∧ ((s.setPortEn p false).port p).state = 0 := by
  let u := s.modPort p fun p => { p with en := false }
  have e : s.setPortEn p false = u.stopPort p 0 := if_pos hen
  have disabled : u.port p = { s.port p with en := false } := s.port_modPort p _ hp
  have long : p < u.ports.length := by rwa [State.modPort_ports, modNth_length]
  have stopped := u.port_modPort p (Port.stopped 0) long
  rw [e]
  exact ⟨((u.stopPort_agree p 0).port p).trans ((congrArg Port.en stopped).trans (congrArg Port.en disabled)),
    ((u.stopPort_reports p 0).portState p).trans (congrArg Port.state stopped)⟩

/-- A retrain keeps the enable of its port, and takes it to retraining, or down at the third within one second. -/
theorem State.retrainPort_retrains {s : State} {p : Nat} (hp : p < s.ports.length) :
    ((s.retrainPort p).port p).en = (s.port p).en ∧ ((s.retrainPort p).port p).state =
      if 2 ≤ ((s.port p).retrains.filter fun x => ((s.die (p / 6)).clk + 2 ^ 64 - x) % 2 ^ 64 < second).length then 4 else 3 := by
  unfold State.retrainPort
  extract_lets now recent v
  have marked : PortsAgree id _ v := (PortsAgree.refl id _).cntPort p 7 1
  have port := marked.port p
  rw [State.port_modPort _ _ _ hp] at port
  have en : (v.port p).en = (s.port p).en := (congrArg Port.en port :)
  have long : p < v.ports.length := by
    rw [marked.length, State.modPort_ports, modNth_length]
    exact hp
  clear_value v
  split
  · have stopped := v.port_modPort p (Port.stopped 4) long
    exact ⟨((v.portDown_agree p).port p).trans ((congrArg Port.en stopped).trans en), v.portDown_state long (.inl rfl)⟩
  · rw [State.port_modPort _ _ _ long]
    exact ⟨en, rfl⟩

/-- RETRAIN with EN as it stands retrains a port in service. -/
theorem State.setPortEn_stands {s : State} {p : Nat} (hp : p < s.ports.length) (hstate : (s.port p).state = 2) :
    let t := (s.setPortEn p (s.port p).en).askRetrain p
    (t.port p).en = (s.port p).en ∧ (t.port p).state =
      if 2 ≤ ((s.port p).retrains.filter fun x => ((s.die (p / 6)).clk + 2 ^ 64 - x) % 2 ^ 64 < second).length then 4 else 3 := by
  cases hen : (s.port p).en with
  | false =>
    have stands : s.setPortEn p false = s := if_neg (by simp [hen])
    have asks : s.askRetrain p = s.retrainPort p := if_pos hstate
    rw [stands, asks, ← hen]
    exact State.retrainPort_retrains hp
  | true =>
    have stands : s.setPortEn p true = s.modPort p fun q => { q with en := true } := if_neg (by simp [hstate])
    have port := s.port_modPort p (fun q => { q with en := true }) hp
    have asks : (s.modPort p fun q => { q with en := true }).askRetrain p = (s.modPort p fun q => { q with en := true }).retrainPort p :=
      if_pos ((congrArg Port.state port).trans hstate)
    have long : p < (s.modPort p fun q => { q with en := true }).ports.length := by rwa [State.modPort_ports, modNth_length]
    obtain ⟨en, state⟩ := State.retrainPort_retrains long
    rw [port] at en state
    rw [stands, asks]
    exact ⟨en, state⟩

/-- Settles O33, each write of FAB_PORTn_CTL by its bits. -/
theorem portControlActs : Obligations.PortControlActs := by
  intro s p hlive hw hp hinv hup hpower
  obtain ⟨-, -, -, -, hports, -⟩ := hinv.lengths
  have long : p < s.ports.length := hports ▸ hp
  have control (w : Word) := State.hostReg_portCtl hlive hw hp hup hpower w
  refine ⟨?enable, fun hen => ?disable, fun hstate => ?retrain⟩
  case enable =>
    obtain ⟨j, m, n, e⟩ := control 1
    have opened := State.setPortEn_enables long
    exact ⟨_, congrArg Host.Outcome.next ((if_pos hp).trans e), opened⟩
  case disable =>
    obtain ⟨j, m, n, e⟩ := control 0
    exact ⟨_, congrArg Host.Outcome.next ((if_pos hp).trans e), State.setPortEn_disables long hen⟩
  case retrain =>
    obtain ⟨j, m, n, e⟩ := control (pack [bitAt (s.port p).en 0, (1, 1, 1)])
    have low : bit (pack [bitAt (s.port p).en 0, (1, 1, 1)]).toNat 0 = (s.port p).en := by cases (s.port p).en <;> rfl
    have high : bit (pack [bitAt (s.port p).en 0, (1, 1, 1)]).toNat 1 = true := by cases (s.port p).en <;> rfl
    rw [low, if_pos high] at e
    exact ⟨_, congrArg Host.Outcome.next ((if_pos hp).trans e), State.setPortEn_stands long hstate⟩

end Sys2Proof.Machine
end

section
/-!
PROOFS. What a port sends next, and what a flit that arrives does (O43).
-/
namespace Sys2Proof.Machine

/-! ## FLIT_TRANSMIT (R414, R415, R417, R420) -/

section
variable {s u : State} {n : Nat} {p : Port} (hu : s.flushPeer = u) (hp : u.port n = p) (hup : p.state = 2)
include hu hp hup

/-- A port that is up and owes a RETRY sends it. -/
theorem exec_flitTransmit_retry (howes : p.retryOwed = true) :
    exec (.flitTransmit n) s = .next (((u.modPort n fun _ => { p.fields.2.2.2.slot false with retryOwed := false }).put
      (.flit n (flitBytes 3 0 false false 0 p.fields.1 p.fields.2.1 p.fields.2.2.1 (leBytes 2 p.rxSeq)))).cntPort n 0) := by
  refine congrArg Host.Outcome.next ?_
  unfold State.transmit
  simp only [hu, hp]
  refine (if_neg (not_not_intro hup)).trans ?_
  exact if_pos howes

variable (howes : p.retryOwed = false)
include howes

/-- A flit to send again goes out with what is owed now. -/
theorem exec_flitTransmit_resend {i : Nat} {b : List Byte} {rest : List (Nat × List Byte)} (h : p.resend = (i, b) :: rest) :
    let x := p.refit b
    exec (.flitTransmit n) s = .next ((((u.modPort n fun _ => { x.2.slot (fld (at' x.1 0 1) 4 3 = 0) with
      resend := rest, replay := x.2.replay.map fun y => if y.1 = i then (i, x.1) else y }).put (.flit n x.1)).cntPort n 0).cntPort n 6) := by
  refine congrArg Host.Outcome.next ?_
  unfold State.transmit
  simp only [hu, hp]
  refine (if_neg (not_not_intro hup)).trans ?_
  refine (if_neg (ne_true_of_eq_false howes)).trans ?_
  rw [h]

variable (hresend : p.resend = [])
include hresend

/-- With nothing to send the port sends NULL. -/
theorem exec_flitTransmit_null (h : 512 ≤ p.replay.length ∨ (u.func (u.fnOf (n / 6))).ep.fabricId = 0 ∨ p.pickVc = none) :
    exec (.flitTransmit n) s = .next ((u.modPort n fun _ => p.fields.2.2.2.slot false).put
      (.flit n (flitBytes 0 0 false false 0 p.fields.1 p.fields.2.1 p.fields.2.2.1 []))) := by
  have none : (if p.replay.length < 512 && (u.func (u.fnOf (n / 6))).ep.fabricId ≠ 0 then p.pickVc else none) = none := by
    split
    next sends =>
      rw [Bool.and_eq_true, decide_eq_true_eq, decide_eq_true_eq] at sends
      obtain ⟨room, named⟩ := sends
      exact (h.resolve_left (Nat.not_le.2 room)).resolve_left named
    next => rfl
  refine congrArg Host.Outcome.next ?_
  unfold State.transmit
  simp only [hu, hp]
  refine (if_neg (not_not_intro hup)).trans ?_
  refine (if_neg (ne_true_of_eq_false howes)).trans ?_
  rw [hresend]
  dsimp only
  rw [none]

/-- The next flit of the virtual channel that is picked. -/
theorem exec_flitTransmit_data {vc : Nat} {m : TxMsg} {ms : List TxMsg} (hroom : p.replay.length < 512)
    (hnamed : (u.func (u.fnOf (n / 6))).ep.fabricId ≠ 0) (hpick : p.pickVc = some vc) (hqueue : p.queues.getD vc [] = m :: ms) :
    let last := (m.bytes.drop 240).isEmpty
    let b := flitBytes 1 vc (!m.started) last p.txSeq p.fields.1 p.fields.2.1 p.fields.2.2.1 (m.bytes.take 240)
    let waits := vc = 0 && (List.range 7).any fun i => p.readyVc (i + 1)
    let q := p.fields.2.2.2.slot (vc = 0)
    let v := (((u.modPort n fun _ => { q with
      txSeq := (p.txSeq + 1) % 4096, replay := q.replay ++ [(p.txSeq, b)], credits := modNth (· - 1) vc q.credits,
      queues := modNth (fun _ => if last then ms else { m with bytes := m.bytes.drop 240, started := true } :: ms) vc q.queues,
      rr := if vc = 0 then q.rr else vc % 7 + 1, delayed := if vc = 0 then q.delayed || waits else false,
      wire := if last then q.wire ++ [(m.sent, p.txSeq)] else q.wire }).put (.flit n b)).cntPort n 0).protect (n / 6)
    exec (.flitTransmit n) s = .next (if waits && !p.delayed then v.cntPort n 13 else v) := by
  have some : (if p.replay.length < 512 && (u.func (u.fnOf (n / 6))).ep.fabricId ≠ 0 then p.pickVc else none) = some vc :=
    (if_pos (by simp [hroom, hnamed])).trans hpick
  refine congrArg Host.Outcome.next ?_
  unfold State.transmit
  simp only [hu, hp]
  refine (if_neg (not_not_intro hup)).trans ?_
  refine (if_neg (ne_true_of_eq_false howes)).trans ?_
  rw [hresend]
  dsimp only
  rw [some]
  dsimp only
  rw [hqueue]

end

/-- A RETRY sends the sender back to the SEQ it names. -/
theorem exec_retry {s : State} {n : Nat} (seq : Nat) (hn : n < 24) (hup : (s.port n).state = 2) :
    exec (.retry n seq) s = .next ((s.modPort n fun p =>
      { p with
        resend := p.replay.dropWhile (fun x => x.1 ≠ seq), retrySeq := seq,
        retryCount := if p.retrySeq = seq then p.retryCount + 1 else 1 }).cntPort n 5) :=
  congrArg Host.Outcome.next ((if_pos hn).trans (if_neg (not_not_intro hup)))

/-! ## FLIT_RECEIVE (R415, R420) -/

/-- A flit that passes its check (R415). -/
def FlitSound (b : List Byte) : Prop := b.length = 256 ∧ crc64 (b.take 248) = at' b 248 8 ∧ fld (at' b 0 1) 0 4 ≤ 3

/-- What the ACK and the CREDIT of a flit make of its port. -/
def State.sideTaken (s : State) (n : Nat) (b : List Byte) : State :=
  s.modPort n fun p => (if bit (at' b 4 2) 15 then p.acked (at' b 4 2 % 4096) else p).credited (at' b 6 2 / 2 ^ 13) (at' b 6 2 % 2 ^ 13)

section
variable {w : State} {n : Nat} {b : List Byte} (hn : n < 24) (hup : (w.port n).state = 2)
include hn hup

/-- A flit that fails its check is counted and recorded, and owes a RETRY. -/
theorem State.receive_unsound (h : ¬ FlitSound b) :
    w.receive n b = ((w.cntPort n 4).portFault (n / 6) n 1).1.rejectFlit n true := by
  have acts : ¬ ((w.port n).state ≠ 2 || 24 ≤ n) = true := by simp [hup, hn]
  have fails : (b.length ≠ 256 || crc64 (b.take 248) ≠ at' b 248 8 || 3 < fld (at' b 0 1) 0 4) = true := by
    unfold FlitSound at h
    simp only [Bool.or_eq_true, decide_eq_true_eq]
    by_contra hall
    simp only [not_or, not_not, Nat.not_lt] at hall
    exact h ⟨hall.1.1, hall.1.2, hall.2⟩
  unfold State.receive
  exact (if_neg acts).trans (if_pos fails)

variable (h : FlitSound b)
include h

/-- A flit that passes its check acts by its type. -/
theorem State.receive_sound : w.receive n b =
    if fld (at' b 0 1) 0 4 = 0 then w.sideTaken n b
    else if fld (at' b 0 1) 0 4 = 3 then ((w.sideTaken n b).cntPort n 1).retryFrom n (at' b 8 2 % 4096)
    else if at' b 2 2 % 4096 ≠ (w.port n).rxSeq then w.rejectFlit n false
    else
      let v := ((w.sideTaken n b).cntPort n 1).modPort n fun p => { p with
        rxSeq := (at' b 2 2 % 4096 + 1) % 4096, ackOwed := some (at' b 2 2 % 4096), retrying := false, retryOwed := false }
      if fld (at' b 0 1) 0 4 = 1 then (v.protect (n / 6)).assemble n b else v := by
  have acts : ¬ ((w.port n).state ≠ 2 || 24 ≤ n) = true := by simp [hup, hn]
  obtain ⟨hlen, hcrc, htype⟩ := h
  have passes : ¬ (b.length ≠ 256 || crc64 (b.take 248) ≠ at' b 248 8 || 3 < fld (at' b 0 1) 0 4) = true := by
    simp [hlen, hcrc, htype]
  unfold State.receive
  exact (if_neg acts).trans (if_neg passes)

end

/-- What FEC found is counted, and the ports stand. -/
theorem State.fecCount_port (s : State) (n c x : Nat) : (s.fecCount n c x).port n = s.port n :=
  (((PortsAgree.refl id s).cntPort n 2 c).cntPort n 3 x).port n

/-- A flit that has come exercises its port. -/
theorem exec_flitReceive {s : State} {n : Nat} (hn : n < 24) (c x : Nat) (b : List Byte) :
    exec (.flitReceive n ⟨c, x, b⟩) s = .next (((s.fecCount n c x).receive n b).exercised (n / 6) [.port n]) :=
  if_neg (Nat.not_le.2 hn)

/-- Settles O43: what is sent by what stands first, what arrives by its check, its type and its turn. -/
theorem flitsAreSentAndReceived : Obligations.FlitsAreSentAndReceived := by
  refine ⟨fun s n => ?sent, fun s n c x b hup hn => ?received⟩
  case sent =>
    exact ⟨fun hup howes => exec_flitTransmit_retry rfl rfl hup howes, fun hup howes i b rest h => exec_flitTransmit_resend rfl rfl hup howes h,
      fun hup howes hresend hroom hnamed vc m ms hpick hqueue => exec_flitTransmit_data rfl rfl hup howes hresend hroom hnamed hpick hqueue,
      fun hup howes hresend h => exec_flitTransmit_null rfl rfl hup howes hresend h, fun seq hn hup => exec_retry seq hn hup⟩
  case received =>
    intro type sound owe w u run done
    have port := s.fecCount_port n c x
    have seq : (w.port n).rxSeq = (s.port n).rxSeq := congrArg Port.rxSeq port
    have up : (w.port n).state = 2 := (congrArg Port.state port).trans hup
    have ran {v : State} (e : w.receive n b = v) : run = .next (done v) :=
      (exec_flitReceive hn c x b).trans (congrArg (fun v : State => Host.Outcome.next (done v)) e)
    have sounds (h : sound) := State.receive_sound hn up h
    refine ⟨fun h => ran (State.receive_unsound hn up h), fun h htype => ran ((sounds h).trans (if_pos htype)), fun h htype => ?_,
      fun h htype hturn => ?_, fun h htype hturn => ?_⟩
    · exact ran ((sounds h).trans ((if_neg (by omega)).trans (if_pos htype)))
    · have late : at' b 2 2 % 4096 ≠ (w.port n).rxSeq := seq ▸ hturn
      exact ran ((sounds h).trans ((if_neg (by omega)).trans ((if_neg (by omega)).trans (if_pos late))))
    · have due : at' b 2 2 % 4096 = (w.port n).rxSeq := hturn.trans seq.symm
      exact ran ((sounds h).trans ((if_neg (by omega)).trans ((if_neg (by omega)).trans (if_neg (not_not_intro due)))))

end Sys2Proof.Machine
end

section
/-!
PROOFS. The lines of the start-up sequence (O37).
-/
namespace Sys2Proof.Machine

/-! ## Dies in service and cores -/

/-- What says whether a die is in service. -/
def Die.service (x : Die) : Bool × Bool := (x.enabled, x.lost)

/-- `t` has the dies in service and the cores of `s`. -/
structure SameService (s t : State) : Prop where
  dies : t.dies.map Die.service = s.dies.map Die.service
  cores : t.cores = s.cores

theorem SameService.refl (s : State) : SameService s s := ⟨rfl, rfl⟩

theorem SameService.foldl {α : Type} {s t : State} {g : State → α → State} (l : List α) (h : SameService s t)
    (hg : ∀ u x, SameService u (g u x)) : SameService s (l.foldl g t) :=
  List.foldlRecOn (motive := SameService s) l g h fun u hu x _ => ⟨(hg u x).dies.trans hu.dies, (hg u x).cores.trans hu.cores⟩

theorem SameService.ite {c : Prop} [Decidable c] {s a b : State} (h : SameService s a) (k : SameService s b) :
    SameService s (if c then a else b) := by
  split <;> assumption

section
variable {s t : State} (h : SameService s t)
include h

theorem SameService.trans {u : State} (k : SameService t u) : SameService s u := ⟨k.dies.trans h.dies, k.cores.trans h.cores⟩

theorem SameService.die (d : Nat) : (t.die d).service = (s.die d).service := by
  unfold State.die
  rw [← List.getD_map (f := Die.service), h.dies, List.getD_map]

theorem SameService.dies_length : t.dies.length = s.dies.length := by simpa using congrArg List.length h.dies

theorem SameService.up (d : Nat) : t.up d = s.up d :=
  (congrArg (fun x : Bool × Bool => x.1 && !x.2 && decide (d < 4)) (h.die d) :)

theorem SameService.coresOf (hc : t.clusters = s.clusters) (d : Nat) : t.coresOf d = s.coresOf d := by
  unfold State.coresOf State.coreState State.cluUp State.clu State.core
  simp only [h.up, hc, h.cores]

theorem SameService.units {u : State} (k : SameUnits t u) : SameService s u := by
  have service := congrArg (List.map Die.service) k.dies
  rw [List.map_map, List.map_map] at service
  exact h.trans ⟨service, k.cores⟩

theorem SameService.cntAll (k n : Nat) : SameService s (t.cntAll k n) :=
  h.trans (.foldl _ (.refl t) fun u _ => (SameService.refl u).units ((SameUnits.refl u).count _ _ _ _))

theorem SameService.setSec (x : Security) : SameService s { t with sec := x } := h.trans ⟨rfl, rfl⟩

theorem SameService.measure (type source jrn : Nat) (a b : List Byte) : SameService s (t.measure type source jrn a b) := by
  obtain ⟨m, n, e⟩ := t.measure_meas type source jrn a b
  rw [e]
  exact h.trans ⟨rfl, rfl⟩

theorem SameService.actEnd (a : Activation) : SameService s (t.actEnd a) := h.trans ⟨rfl, rfl⟩

theorem SameService.actFinal (a : Activation) (status : Nat) (detail : List Byte) (jrn : Nat) :
    SameService s (t.actFinal a status detail jrn) := h.ite (h.units ((SameUnits.refl t).final _ _ _ _ _))

theorem SameService.actRestart (a : Activation) : SameService s (t.actRestart a) := by
  obtain ⟨cl, act, procs, e⟩ := t.actRestart_units a
  rw [e]
  exact h.trans ⟨rfl, rfl⟩

theorem SameService.judgeToken (token : List Byte) : SameService s (t.judgeToken token) := by
  unfold State.judgeToken
  dsimp only
  split
  · exact ((h.setSec _).measure _ _ _ _ _).cntAll _ _
  · exact (h.setSec _).cntAll _ _

theorem SameService.judgeTokens : SameService s t.judgeTokens :=
  .foldl _ (h.setSec _) fun u x => (SameService.refl u).judgeToken x

theorem SameService.heldTokens : SameService s t.heldTokens := h.ite h.judgeTokens

/-- A lost security core takes no die and no core with it. -/
theorem SameService.loseSecurity (die : Nat) : SameService s (t.loseSecurity die) := by
  unfold State.loseSecurity
  extract_lets keep sec lost fw unstaged stop role passed procs handed
  have gone : SameService s lost := h.setSec _
  have stops (st : Nat) (detail : List Byte) {u : State} (k : SameService s u) : SameService s (stop st detail u) := by
    unfold stop
    split
    · exact (k.actEnd _).actFinal _ _ _ _
    · exact k
  have kept : SameService s unstaged := gone.trans ⟨rfl, rfl⟩
  have taken : SameService s handed := ((kept.setSec _).measure 5 0 0 [] []).trans ⟨rfl, rfl⟩
  have none : SameService s { unstaged with sec := { role with role := 2 } } := kept.setSec _
  clear_value lost handed stop
  split
  · exact gone
  · split
    · refine SameService.heldTokens ?_
      split
      · exact (stops _ _ taken).ite (taken.actRestart _)
      · exact taken
    · exact (stops _ _ none).judgeTokens

end

/-! ## ROM boot and the overlays (R384, R400, R402) -/

theorem exec_romBoot {s : State} (hlive : s.live = true) (hdone : s.boot.done = 0) : ∃ t, exec .romBoot s = .next t ∧ t.boot.done = 1 ∧
    t.side.hotJoined = true ∧ t.sec.meas = (s.sec.meas.set 0 (leBytes 64 Config.romDigest.toNat)).set 5 (shake256 s.configBlock) := by
  have first : ¬ (!s.live || s.boot.done ≠ 0) = true := by simp [hlive, hdone]
  refine ⟨_, if_neg first, ?_, rfl, rfl⟩
  exact congrArg (max · 1) hdone

/-- What the verification of the overlays leaves: the flash, and the image that runs of a kind without an active overlay. The rollback
counter does not fall. -/
structure Verified (s t : State) : Prop where
  flash : t.flash = s.flash
  counter : s.sec.arCount ≤ t.sec.arCount
  running : ∀ k, (s.fwKind k).active = none → (t.fwKind k).running = (s.fwKind k).running
  boot : t.boot = s.boot

theorem Verified.active {s t : State} (h : Verified s t) (k : Nat) : (t.fwKind k).active = (s.fwKind k).active := by
  have flash := congrArg (fun l : List (Option Image × Option Image) => (l.getD k (none, none)).1) h.flash
  unfold State.flash at flash
  rwa [show ((none : Option Image), (none : Option Image)) = (fun x : FwKind => (x.active, x.previous)) FwKind.rom from rfl, List.getD_map,
    List.getD_map] at flash

theorem Verified.refl (s : State) : Verified s s := ⟨rfl, Nat.le_refl _, fun _ _ => rfl, rfl⟩

theorem Verified.trans {s t u : State} (h : Verified s t) (k : Verified t u) : Verified s u where
  flash := k.flash.trans h.flash
  counter := Nat.le_trans h.counter k.counter
  running := fun i e => (k.running i ((h.active i).trans e)).trans (h.running i e)
  boot := k.boot.trans h.boot

theorem Verified.firmware {s t u : State} (h : Verified s t) (k : SameFirmware t u) (hb : u.boot = t.boot) : Verified s u :=
  h.trans ⟨congrArg (List.map fun x : FwKind => (x.active, x.previous)) k.fw, Nat.le_of_eq k.counter.symm,
    fun i _ => congrArg (fun l : List FwKind => (l.getD i FwKind.rom).running) k.fw, hb⟩

theorem Verified.reports {s t u : State} (h : Verified s t) (k : Reports t u) : Verified s u := by
  obtain ⟨-, -, -, -, -, boot⟩ := k.serves
  exact h.firmware ((SameFirmware.refl t).reports k) boot

theorem Verified.measureKind {s t : State} (h : Verified s t) (k : Nat) (im : Option Image) : Verified s (t.measureKind k im) :=
  h.firmware ((SameFirmware.refl t).measureKind k im) rfl

/-- An image that passes its checks runs, and the rollback counter comes up to it. -/
theorem Verified.passes (s : State) {k : Nat} {im : Image} (h : (s.fwKind k).active = some im) :
    Verified s (State.modFw { s with sec := { s.sec with arCount := max s.sec.arCount (min 63 im.secVersion) } } k
      fun x => { x with running := some im }) := by
  refine ⟨s.flash_running k (some im), Nat.le_max_left _ _, fun i hi => ?_, rfl⟩
  have other : k ≠ i := by
    rintro rfl
    cases h.symm.trans hi
  exact congrArg FwKind.running (modNth_getD_ne _ s.fw FwKind.rom other)

theorem State.verifyKind_verified (s : State) (k : Nat) : Verified s (s.verifyKind k) := by
  unfold State.verifyKind
  split
  next => exact (Verified.refl s).measureKind _ _
  next im him =>
    split
    · exact (Verified.passes s him).measureKind _ _
    · have denied : Verified s (if (s.overlayFail im).isSome then s.secDenied else s) := by
        split
        · exact (Verified.refl s).reports ((Reports.refl s).cntAll 29 1)
        · exact .refl s
      exact (denied.measureKind k none).reports ((Reports.refl _).emitTo _ _ _ _ _ _)

theorem State.verifyKinds_verified (s : State) (l : List Nat) : Verified s (l.foldl (fun s k => s.verifyKind k) s) :=
  List.foldlRecOn (motive := Verified s) l _ (.refl s) fun u h k _ => h.trans (u.verifyKind_verified k)

/-- The measured block and the line that is done change nothing that is verified. -/
theorem Verified.lineDone {s t : State} (h : Verified s t) (hdone : s.boot.done = 1) :
    (t.measureBlock.lineDone 2).boot.done = 2 ∧ (t.measureBlock.lineDone 2).flash = s.flash ∧
      s.sec.arCount ≤ (t.measureBlock.lineDone 2).sec.arCount ∧
      ∀ k, (s.fwKind k).active = none → ((t.measureBlock.lineDone 2).fwKind k).running = (s.fwKind k).running := by
  refine ⟨?_, h.flash, h.counter, h.running⟩
  exact congrArg (max · 2) ((congrArg Boot.done h.boot).trans hdone)

theorem exec_overlayVerify {s : State} (hlive : s.live = true) (hdone : s.boot.done = 1) :
    exec .overlayVerify s = .next (((List.range 4).foldl (fun s k => s.verifyKind k) s).measureBlock.lineDone 2) :=
  if_neg (by simp [hlive, hdone])

/-! ## Rails, the link and memory (R433, R442) -/

theorem exec_pcieLinkUp {s : State} (hlive : s.live = true) (hdone : 3 ≤ s.boot.done) (hok : s.pcie.failed = false) :
    exec .pcieLinkUp s = .next
      { s with pcie := { s.pcie with linkUp := true }, boot := { s.boot with done := max s.boot.done 4 } } :=
  if_neg (by simp [hlive, hok]; omega)

theorem exec_memoryInit {s : State} (hlive : s.live = true) (hdone : 3 ≤ s.boot.done) :
    exec .memoryInit s = .next { s with boot := { s.boot with done := max s.boot.done 5 } } :=
  if_neg (by simp [hlive]; omega)

/-- A die whose rails are up. -/
def Die.railsUp (x : Die) : Die := { x with powered := true, power := { x.power with freq := 1250 } }

/-- A fold that changes dies leaves the ports and the start-up state, and reaches every die of its list. -/
theorem foldl_railsUp (l : List Nat) (s : State) :
    (l.foldl (fun s d => s.modDie d Die.railsUp) s).ports = s.ports ∧ (l.foldl (fun s d => s.modDie d Die.railsUp) s).boot = s.boot ∧
      ∀ d, d < s.dies.length → d ∈ l ∨ (s.die d).powered = true →
        ((l.foldl (fun s d => s.modDie d Die.railsUp) s).die d).powered = true := by
  induction l generalizing s with
  | nil => exact ⟨rfl, rfl, fun d _ h => h.resolve_left List.not_mem_nil⟩
  | cons e l ih =>
    obtain ⟨ports, boot, powered⟩ := ih (s.modDie e Die.railsUp)
    refine ⟨ports, boot, fun d hd h => powered d (by rwa [State.modDie_dies, modNth_length]) ?_⟩
    by_cases same : e = d
    · subst same
      rw [s.die_modDie e Die.railsUp hd]
      exact .inr rfl
    · rw [s.die_modDie_ne Die.railsUp same]
      exact h.imp_left fun hmem => (List.mem_cons.1 hmem).resolve_left (Ne.symm same)

/-- Ports that train keep their enables, and the dies and the start-up state stand. -/
theorem foldl_startTraining (l : List Nat) (s : State) :
    let t := l.foldl (fun s p => if (s.port p).en then s.startTraining p else s) s
    PortsAgree Port.en s t ∧ t.dies = s.dies ∧ t.boot = s.boot := by
  refine List.foldlRecOn (motive := fun t : State => PortsAgree Port.en s t ∧ t.dies = s.dies ∧ t.boot = s.boot) l _ ⟨.refl _ s, rfl, rfl⟩ ?_
  rintro u ⟨ports, dies, boot⟩ p -
  split
  · exact ⟨ports.trans ⟨modNth_map Port.en (by exact fun _ => rfl) p u.ports⟩, dies, boot⟩
  · exact ⟨ports, dies, boot⟩

theorem exec_diePowerUp {s : State} (hlive : s.live = true) (hdone : s.boot.done = 2) :
    exec .diePowerUp s = .next (((List.range 24).foldl (fun s p => if (s.port p).en then s.startTraining p else s)
      ((List.range 4).foldl (fun s d => s.modDie d Die.railsUp) s)).lineDone 3) :=
  if_neg (by simp [hlive, hdone])

/-- Every die has its rails, and every port its enable. -/
theorem State.poweredUp {s : State} (hdone : s.boot.done = 2) (trained : List Nat) :
    let t := (trained.foldl (fun s p => if (s.port p).en then s.startTraining p else s)
      ((List.range 4).foldl (fun s d => s.modDie d Die.railsUp) s)).lineDone 3
    t.boot.done = 3 ∧ (∀ d, d < s.dies.length → d < 4 → (t.die d).powered = true) ∧ ∀ p, (t.port p).en = (s.port p).en := by
  obtain ⟨ports, boot, powered⟩ := foldl_railsUp (List.range 4) s
  generalize (List.range 4).foldl (fun s d => s.modDie d Die.railsUp) s = u at *
  obtain ⟨en, dies, boot'⟩ := foldl_startTraining trained u
  generalize trained.foldl (fun s p => if (s.port p).en then s.startTraining p else s) u = v at *
  refine ⟨?_, fun d hd h4 => ?_, fun p => ?_⟩
  · exact congrArg (max · 3) ((congrArg Boot.done (boot'.trans boot)).trans hdone)
  · have same : v.die d = u.die d := congrArg (fun l : List Die => l.getD d (Die.reset 0 0)) dies
    exact (congrArg Die.powered same).trans (powered d hd (.inl (List.mem_range.2 h4)))
  · exact (en.port p).trans (congrArg (fun l : List Port => (l.getD p Port.reset).en) ports)

/-! ## The quick self-test and READY (R433, R442, R444) -/

/-- An enabled core that failed is out. -/
theorem Core.tested_failed {c : Core} (h : c.state = 1) (cols : List Nat) : (c.tested true cols).state = 2 := by
  unfold Core.tested
  simp [h]

theorem State.selfTested_die {s : State} (x : SelfTest) {d : Nat} (hd : d < s.dies.length) :
    ((s.selfTested x).die d).enabled = !x.dies.contains d := by
  have tested := getD_zipIdx_map s.dies (fun (y, d) => { y with
      enabled := !x.dies.contains d
      portsOk := (List.range 6).filter fun p => !x.ports.contains (6 * d + p)
      linksOk := (List.range 3).filter fun l =>
        !(x.links.contains (d, l) || x.links.contains (linkPeer d l, l) || x.dies.contains (linkPeer d l)) }) d (Die.reset 0 0) (Die.reset 0 0)
    fun h => absurd hd (Nat.not_lt.2 h)
  exact (congrArg Die.enabled tested :)

theorem State.selfTested_core {s : State} {x : SelfTest} {i : Nat} (hi : i < s.cores.length) (hstate : (s.core i).state = 1)
    (hfailed : x.cores.contains i = true) : ((s.selfTested x).core i).state = 2 := by
  have tested := getD_zipIdx_map s.cores (fun (c, i) => c.tested (x.cores.contains i) ((x.columns.lookup i).getD [])) i (Core.reset true [])
    (Core.reset true [])
    fun h => absurd hi (Nat.not_lt.2 h)
  refine (congrArg Core.state tested :).trans ?_
  dsimp only
  rw [hfailed]
  exact Core.tested_failed hstate _

/-- What is put out changes nothing else. -/
theorem foldl_put (l : List Nat) (g : Nat → Output) (s : State) : ∃ o, l.foldl (fun s f => s.put (g f)) s = { s with out := o } := by
  induction l generalizing s with
  | nil => exact ⟨s.out, rfl⟩
  | cons f l ih =>
    obtain ⟨o, e⟩ := ih (s.put (g f))
    exact ⟨o, e⟩

theorem exec_zcpReady {s : State} (hlive : s.live = true) (hready : s.ready = false) (hdone : s.milestone = 6) (x : SelfTest) :
    let v := [0, 1].foldl (fun s d => if x.dies.contains d then s.loseSecurity d else s) (s.selfTested x)
    ∃ o, exec (.zcpReady x) s = .next { State.lineDone { v with ready := true } 7 with out := o } := by
  intro v
  have first : ¬ (!s.live || s.ready || s.milestone ≠ 6) = true := by simp [hlive, hready, hdone]
  let w := State.lineDone { v with ready := true } 7
  have e : exec (.zcpReady x) s = .next (if w.pcie.linkUp then w.fns.foldl (fun s f => s.put (.readiness f)) w else w) := if_neg first
  obtain ⟨o, put⟩ := foldl_put w.fns .readiness w
  rw [e]
  split
  · exact ⟨o, congrArg Host.Outcome.next put⟩
  · exact ⟨w.out, rfl⟩

/-- The loss of security cores leaves what the self-test has decided. -/
theorem State.loseCores_keeps (s : State) (l : List Nat) (c : Nat → Bool) :
    let v := l.foldl (fun s d => if c d then s.loseSecurity d else s) s
    SameService s v ∧ v.boot = s.boot :=
  List.foldlRecOn (motive := fun v : State => SameService s v ∧ v.boot = s.boot) l _ ⟨.refl s, rfl⟩ fun u ⟨service, boot⟩ d _ =>
    ⟨(service.loseSecurity d).ite service, by
      split
      · exact ((Keeps.refl u).loseSecurity d).boot.trans boot
      · exact boot⟩

/-! ## The full self-test (R352, R445) -/

section
variable {s t : State} (h : SameFirmware s t)

theorem SameFirmware.ite {c : Prop} [Decidable c] {a b : State} (h : SameFirmware s a) (k : SameFirmware s b) :
    SameFirmware s (if c then a else b) := by
  split <;> assumption

include h

theorem SameFirmware.setCfg (c : ConfigRecord) : SameFirmware s { t with cfg := c } := h.trans ⟨rfl, rfl, rfl, rfl, rfl⟩
theorem SameFirmware.modAxl (d : Nat) (g : Axolotl → Axolotl) : SameFirmware s (t.modAxl d g) := h.trans ⟨rfl, rfl, rfl, rfl, rfl⟩
theorem SameFirmware.cntDie (d k n : Nat) : SameFirmware s (t.cntDie d k n) := h.reports ((Reports.refl t).count _ _ _ _)
theorem SameFirmware.emit (src kind inst a0 a1 : Nat) : SameFirmware s (t.emit src kind inst a0 a1) :=
  h.reports ((Reports.refl t).emitTo _ _ _ _ _ _)

end

theorem State.formPlan_firmware (s : State) (d : Nat) : SameFirmware s (s.formPlan d) := by
  have counted := (SameFirmware.refl s).cntDie d 73 1
  unfold State.formPlan
  dsimp only
  refine SameFirmware.ite (.emit (.ite (.emit (.modAxl (.setCfg (.ite ?_ counted) _) _ _) _ _ _ _ _)
    (.modAxl (.setCfg (.ite ?_ counted) _) _ _)) _ _ _ _ _)
    (.ite (.emit (.modAxl (.setCfg (.ite ?_ counted) _) _ _) _ _ _ _ _) (.modAxl (.setCfg (.ite ?_ counted) _) _ _))
  all_goals exact ((counted.cntDie d 74 _).cntDie d 75 _).setCfg _

/-- `t` has the firmware, the units and the start-up state of `s`. -/
structure Planned (s t : State) : Prop where
  firmware : SameFirmware s t
  service : SameService s t
  clusters : t.clusters = s.clusters
  boot : t.boot = s.boot

theorem Planned.refl (s : State) : Planned s s := ⟨.refl s, .refl s, rfl, rfl⟩

theorem Planned.trans {s t u : State} (h : Planned s t) (k : Planned t u) : Planned s u :=
  ⟨h.firmware.trans k.firmware, h.service.trans k.service, k.clusters.trans h.clusters, k.boot.trans h.boot⟩

/-- A plan is formed on its die alone. -/
theorem State.formPlan_planned (s : State) (d : Nat) :
    Planned s (s.formPlan d) ∧ ∀ e, e ≠ d → ((s.formPlan d).die e).axl = (s.die e).axl := by
  obtain ⟨u, h, counted, -, noted⟩ := s.formPlan_margins d
  refine ⟨⟨s.formPlan_firmware d, ?_, noted.clusters.trans counted.clusters, ((Keeps.refl s).formPlan d).boot⟩, fun e he => ?_⟩
  · have axl : SameService u (u.modAxl d h) := ⟨modNth_map Die.service (by exact fun _ => rfl) d u.dies, rfl⟩
    exact (((SameService.refl s).units counted).trans axl).units noted
  · rw [noted.axl, ← counted.axl]
    exact congrArg Die.axl (u.die_modDie_ne _ (Ne.symm he))

/-- Plans formed one after another leave on each of their dies the margin tests of its cores due. -/
theorem foldl_formPlan {l : List Nat} (hl : l.Nodup) (s : State) :
    Planned s (l.foldl (fun s d => s.formPlan d) s) ∧
      ∀ d, d < s.dies.length → d ∈ l → ((l.foldl (fun s d => s.formPlan d) s).die d).axl.marginDue = s.coresOf d := by
  refine ⟨List.foldlRecOn (motive := Planned s) l _ (.refl s) fun u h d _ => h.trans (u.formPlan_planned d).1, fun d hd hmem => ?_⟩
  refine (foldl_once hl hmem (Q := Planned s) (P := fun u => Planned s u ∧ (u.die d).axl.marginDue = s.coresOf d) (.refl s) ?_ ?_ ?_).2
  · exact fun u e _ h => h.trans (u.formPlan_planned e).1
  · intro u h
    have hlen : d < u.dies.length := by rwa [h.service.dies_length]
    obtain ⟨due, -⟩ := State.formPlan_due hlen
    exact ⟨h.trans (u.formPlan_planned d).1, due.trans (h.service.coresOf h.clusters d)⟩
  · rintro u e he ⟨h, due⟩
    obtain ⟨planned, others⟩ := u.formPlan_planned e
    exact ⟨h.trans planned, (congrArg Axolotl.marginDue (others d (Ne.symm he))).trans due⟩

theorem exec_fullSelftestDone {s : State} (hready : s.ready = true) (hdone : s.boot.fullDone = false) :
    let u := ((List.range 4).filter s.up).foldl (fun s d => s.formPlan d) s
    exec .fullSelftestDone s = .next (State.lineDone { u with boot := { u.boot with fullDone := true } } 8) :=
  if_neg (by simp [hready, hdone])

/-- Settles O37, line by line. -/
theorem startUpGoesOn : Obligations.StartUpGoesOn := by
  intro s hlive
  refine ⟨fun hdone => ?rom, fun hdone _ => ?overlays, fun hdone => ⟨_, exec_diePowerUp hlive hdone, State.poweredUp hdone _⟩,
    exec_pcieLinkUp hlive, exec_memoryInit hlive, fun x hready hdone => ?ready, fun hready hdone => ?full⟩
  case rom =>
    obtain ⟨t, e, done, joined, meas⟩ := exec_romBoot hlive hdone
    refine ⟨t, e, done, joined, fun hlen => ?_⟩
    rw [meas]
    have first : 0 < s.sec.meas.length := by omega
    have fifth : 5 < s.sec.meas.length := by omega
    exact ⟨by simp [first], by simp [fifth]⟩
  case overlays =>
    obtain ⟨done, flash, counter, running⟩ := (s.verifyKinds_verified (List.range 4)).lineDone hdone
    exact ⟨_, exec_overlayVerify hlive hdone, done, flash, counter, fun k _ => running k⟩
  case ready =>
    obtain ⟨service, boot⟩ := (s.selfTested x).loseCores_keeps [0, 1] x.dies.contains
    obtain ⟨o, e⟩ := exec_zcpReady hlive hready hdone x
    generalize [0, 1].foldl (fun s d => if x.dies.contains d then s.loseSecurity d else s) (s.selfTested x) = v at *
    have enabled (d : Nat) (hd : d < s.dies.length) : (v.die d).enabled = !x.dies.contains d :=
      (congrArg (·.1) (service.die d)).trans (State.selfTested_die x hd)
    have failed (i : Nat) (hstate : (s.core i).state = 1) (hi : i < s.cores.length) (hx : x.cores.contains i = true) :
        (v.core i).state = 2 :=
      (congrArg (fun l : List Core => (l.getD i (Core.reset true [])).state) service.cores).trans (State.selfTested_core hi hstate hx)
    exact ⟨_, e, rfl, (congrArg (fun b : Boot => max b.done 7) boot :), (congrArg Boot.readyMs boot :), enabled, failed⟩
  case full =>
    obtain ⟨planned, due⟩ := foldl_formPlan ((List.nodup_range (n := 4)).filter s.up) s
    have e := exec_fullSelftestDone hready hdone
    generalize ((List.range 4).filter s.up).foldl (fun s d => s.formPlan d) s = u at *
    have done : max u.boot.done 8 = max s.boot.done 8 := congrArg (fun b : Boot => max b.done 8) planned.boot
    exact ⟨_, e, rfl, done, planned.firmware.cores, planned.clusters, planned.firmware.fw,
      fun d h4 hd hup => due d hd (List.mem_filter.2 ⟨List.mem_range.2 h4, hup⟩)⟩

end Sys2Proof.Machine
end

section
/-!
PROOFS. Monitors and watchdogs (O52).
-/
namespace Sys2Proof.Machine

/-! ## Which clusters are enabled -/

/-- `t` has the enabled clusters of `s`. -/
structure SameClusters (s t : State) : Prop where
  enabled : t.clusters.map Cluster.enabled = s.clusters.map Cluster.enabled

theorem SameClusters.refl (s : State) : SameClusters s s := ⟨rfl⟩

theorem SameClusters.foldl {α : Type} {s t : State} {g : State → α → State} (l : List α) (h : SameClusters s t)
    (hg : ∀ u x, SameClusters u (g u x)) : SameClusters s (l.foldl g t) :=
  List.foldlRecOn (motive := SameClusters s) l g h fun u hu x _ => ⟨(hg u x).enabled.trans hu.enabled⟩

theorem SameClusters.foldlFst {α β : Type} {s : State} {t : State × β} {g : State × β → α → State × β} (l : List α)
    (h : SameClusters s t.1) (hg : ∀ u x, SameClusters u.1 (g u x).1) : SameClusters s (l.foldl g t).1 :=
  List.foldlRecOn (motive := fun t : State × β => SameClusters s t.1) l g h fun u hu x _ => ⟨(hg u x).enabled.trans hu.enabled⟩

theorem SameClusters.ite {c : Prop} [Decidable c] {s a b : State} (h : SameClusters s a) (k : SameClusters s b) :
    SameClusters s (if c then a else b) := by
  split <;> assumption

section
variable {s t : State} (h : SameClusters s t)
include h

theorem SameClusters.trans {u : State} (k : SameClusters t u) : SameClusters s u := ⟨k.enabled.trans h.enabled⟩

theorem SameClusters.clu (d c : Nat) : (t.clu d c).enabled = (s.clu d c).enabled := by
  unfold State.clu
  rw [← List.getD_map (f := Cluster.enabled), h.enabled, List.getD_map]

/-- A change beside the clusters. -/
theorem SameClusters.beside {u : State} (k : u.clusters = t.clusters) : SameClusters s u := h.trans ⟨congrArg _ k⟩

theorem SameClusters.reports {u : State} (k : Reports t u) : SameClusters s u := by
  obtain ⟨-, -, -, clusters, -⟩ := k.serves
  exact h.beside clusters

theorem SameClusters.cntDie (d k n : Nat) : SameClusters s (t.cntDie d k n) := h.reports ((Reports.refl t).count _ _ _ _)

theorem SameClusters.emit (src kind inst a0 a1 : Nat) : SameClusters s (t.emit src kind inst a0 a1) :=
  h.reports ((Reports.refl t).emitTo _ _ _ _ _ _)

theorem SameClusters.removal (d mech scope inst resp : Nat) : SameClusters s (t.removal d mech scope inst resp) :=
  h.reports (((Reports.refl t).fault d mech scope inst resp).emitTo _ _ _ _ _ _)

theorem SameClusters.modCore (i : Nat) (g : Core → Core) : SameClusters s (t.modCore i g) := h.beside rfl
theorem SameClusters.modStep (f : Nat) (ahead : Bool) (g : Step → Step) : SameClusters s (t.modStep f ahead g) := h.beside rfl

theorem SameClusters.modSkink (d c : Nat) (g : Skink → Skink) : SameClusters s (t.modSkink d c g) :=
  h.trans ⟨modNth_map Cluster.enabled (by exact fun _ => rfl) _ t.clusters⟩

theorem SameClusters.pauseProc (p : Proc) : SameClusters s (t.pauseProc p) := by
  cases p with
  | control d c => exact h.trans ⟨modNth_map Cluster.enabled (by exact fun _ => rfl) _ t.clusters⟩
  | security d => exact h
  | power d => exact h
  | scheduler d => exact h

/-! ### Tiles and slices that go elsewhere -/

theorem SameClusters.fillQueues (f : Nat) : SameClusters s (t.fillQueues f) := by
  unfold State.fillQueues
  split
  · exact h
  · refine SameClusters.modStep ?_ _ _ _
    refine h.trans (SameClusters.foldlFst _ (.refl _) fun u x => ?_)
    dsimp only
    split
    · split
      · exact .refl _
      · exact (SameClusters.refl _).modCore _ _
    · split
      · exact .refl _
      · exact (SameClusters.refl _).modCore _ _

theorem SameClusters.moveTiles (f place : Nat) (ts : List Tile) : SameClusters s (t.moveTiles f place ts) := by
  unfold State.moveTiles
  split
  · dsimp only
    refine SameClusters.fillQueues ?_ _
    refine SameClusters.foldlFst _ ((SameClusters.ite (h.modCore _ _) h).modStep _ _ _) fun u x => ?_
    refine SameClusters.foldlFst _ (.refl _) fun v y => ?_
    exact (SameClusters.refl _).modStep _ _ _
  · exact h

theorem SameClusters.evictTiles (i : Nat) : SameClusters s (t.evictTiles i) :=
  .ite (h.modCore _ _) (((h.modCore _ _).moveTiles _ _ _).modStep _ _ _)

theorem SameClusters.dropSlices (f d c : Nat) : SameClusters s (t.dropSlices f d c) := by
  unfold State.dropSlices State.redeal
  dsimp only
  refine .ite ((h.modSkink _ _ _).modSkink _ _ _) (.foldl _ (h.modSkink _ _ _) fun u x => ?_)
  split
  · exact (SameClusters.refl u).modSkink _ _ _
  · exact .refl u

/-! ### An activation without the processors that are gone (R407) -/

theorem SameClusters.setProcs (p : Procs) : SameClusters s { t with procs := p } := h.beside rfl

theorem SameClusters.measure (type source jrn : Nat) (a b : List Byte) : SameClusters s (t.measure type source jrn a b) := by
  obtain ⟨m, n, e⟩ := t.measure_meas type source jrn a b
  rw [e]
  exact h.beside rfl

theorem SameClusters.actRestart (a : Activation) : SameClusters s (t.actRestart a) := by
  unfold State.actRestart
  extract_lets first u
  have paused : SameClusters s u := .foldl _ h fun u p => (SameClusters.refl u).pauseProc p
  exact paused.beside rfl

theorem SameClusters.actFinal (a : Activation) (status : Nat) (detail : List Byte) (jrn : Nat) :
    SameClusters s (t.actFinal a status detail jrn) := h.ite (h.reports ((Reports.refl t).final _ _ _ _ _))

theorem SameClusters.revertEnd (a : Activation) : SameClusters s (t.revertEnd a) := by
  unfold State.revertEnd
  dsimp only
  refine SameClusters.actFinal (SameClusters.reports ?_ ((Reports.refl _).cntAll _ _)) _ _ _ _
  refine SameClusters.beside (SameClusters.measure (SameClusters.beside h ?_) _ _ _ _ _) rfl
  rfl

theorem SameClusters.revertNext (a : Activation) : SameClusters s (t.revertNext a) := (h.revertEnd a).ite (h.actRestart a)

theorem SameClusters.actPrune : SameClusters s t.actPrune := by
  unfold State.actPrune
  split
  · exact h
  · dsimp only
    refine .ite h (.ite (h.beside rfl) (.ite ?_ ?_))
    · exact (h.setProcs _).revertNext _
    · exact (h.setProcs _).actRestart _

end

/-- A cluster that is disabled is out. -/
theorem State.disableCluster_disables {s : State} {d c : Nat} (mech : Nat) (hup : s.cluUp d c = true) (hlen : d * 20 + c < s.clusters.length) :
    ((s.disableCluster d c mech).clu d c).enabled = false := by
  have out := congrArg Cluster.enabled
    (s.clu_modClu d c (fun x => { x with enabled := false, skink := { x.skink with failed := true } }) hlen)
  unfold State.disableCluster
  rw [if_neg (by simp [hup])]
  dsimp only
  refine (SameClusters.clu ?_ d c).trans out
  have evicted := SameClusters.foldl ((List.range 8).map (coreId d c)) (.refl (s.modClu d c fun x =>
    { x with enabled := false, skink := { x.skink with failed := true } })) fun u i => (SameClusters.refl u).evictTiles i
  exact ((((evicted.dropSlices (s.fnOf d) d c).cntDie d 70 1).removal d mech 1 c 4).emit _ _ _ _ _)

/-! ## Progress monitors, clocks and regulators (R342, R343, Table 15.2) -/

theorem exec_progressMonitorFire (s : State) (u : EngineUnit) (n : Nat) : s.workItem u = some n →
    let d := unitDie u
    let v := (s.cntDie d 65).modDie d fun x => { x with progress := (u, n) :: x.progress.filter fun y => y.1 ≠ u }
    exec (.progressMonitorFire u) s = .next
      (if (s.die d).progress.any (fun x => x.1 = u && x.2 = n) then
        (match u with
          | .matrix i | .sparse i | .vector i | .loadStore i => v.retireCore i 9 true
          | .skink d c | .bellows d c => v.disableCluster d c 9
          | .chanter _ => v.note d 9 (unitScope u).1 (unitScope u).2 1)
      else (v.note d 9 (unitScope u).1 (unitScope u).2 1).rerunItem u) := by
  intro h d v
  change execProgressMonitorFire u s = _
  unfold execProgressMonitorFire
  rw [h]
  cases again : (s.die d).progress.any fun x => x.1 = u && x.2 = n with
  | false => exact if_pos (congrArg not again)
  | true =>
    refine (if_neg (ne_true_of_eq_false (congrArg not again))).trans ?_
    cases u <;> rfl

/-! ## Watchdogs (R387, R388) -/

/-- A missed watchdog is counted and recorded, and its restart noted. -/
def State.restartNoted (s : State) (p : Proc) : State :=
  let d := procDie p
  let now := (s.die d).clk
  let recent := s.procs.times.filter fun (x : Proc × Nat) => x.1 = p && (now + 2 ^ 64 - x.2) % 2 ^ 64 < second
  let u := (s.cntDie d 80).note d 12 5 (procCode p) 6
  let last (l : List Nat) : List Nat := match p with | .control _ c => modNth (fun _ => c) d l | _ => l
  { u with procs := { u.procs with
    times := (u.procs.times.filter fun (x : Proc × Nat) => x.1 ≠ p) ++ recent ++ [(p, now)]
    restarts := upsert (fun (x : Proc × Nat) => x.1 = p) (fun (x : Proc × Nat) => (p, x.2 + 1)) (p, 1) u.procs.restarts
    lastCluster := last u.procs.lastCluster } }

/-- The note of a restart changes what is counted, recorded and noted alone. -/
theorem State.restartNoted_reports (s : State) (p : Proc) :
    ∃ u procs, s.restartNoted p = { u with procs := procs } ∧ Reports s u ∧ SameService s u := by
  have counted : SameService s (s.cntDie (procDie p) 80) := (SameService.refl s).units ((SameUnits.refl s).cntDie _ _ _)
  exact ⟨_, _, rfl, ((Reports.refl s).count _ _ _ _).fault _ _ _ _ _,
    counted.trans ⟨modNth_map Die.service (by exact fun _ => rfl) _ _, rfl⟩⟩

section
variable {s : State} {p : Proc} (hup : s.procUp p = true) (hruns : s.procStops p = false)
include hup hruns

/-- The restarts of a processor within the last second. -/
def State.recentRestarts (s : State) (p : Proc) : List (Proc × Nat) :=
  s.procs.times.filter fun x => x.1 = p && ((s.die (procDie p)).clk + 2 ^ 64 - x.2) % 2 ^ 64 < second

theorem exec_watchdogFire : exec (.watchdogFire p) s = if 2 ≤ (s.recentRestarts p).length then .next ((s.restartNoted p).escalate p)
    else .next (State.pauseProc { s.restartNoted p with procs := { (s.restartNoted p).procs with
      restarting := (s.restartNoted p).procs.restarting ++ [p] } } p) :=
  if_neg (by simp [hup, hruns])

end

/-- A processor that restarts pauses its own cluster alone, which goes on with the slice in work (R387, log 71). -/
theorem State.pauseProc_pauses (s : State) (p : Proc) :
    (s.pauseProc p).procs = s.procs ∧ (s.pauseProc p).cores = s.cores ∧ (s.pauseProc p).fw = s.fw ∧ (s.pauseProc p).cfg = s.cfg ∧
      ((∀ d c, p ≠ .control d c) → (s.pauseProc p).clusters = s.clusters) ∧
      ∀ d c, p = .control d c → d * 20 + c < s.clusters.length →
        ((s.pauseProc p).clu d c).skink.inWork = (s.clu d c).skink.dealt.head? ∧
          ((s.pauseProc p).clu d c).skink.dealt = (s.clu d c).skink.dealt := by
  cases p with
  | control d c =>
    refine ⟨rfl, rfl, rfl, rfl, fun h => absurd rfl (h d c), fun d' c' e hlen => ?_⟩
    cases e
    have paused := s.clu_modClu d c (fun x => { x with skink := { x.skink with inWork := x.skink.dealt.head? } }) hlen
    exact ⟨(congrArg (fun x : Cluster => x.skink.inWork) paused :), (congrArg (fun x : Cluster => x.skink.dealt) paused :)⟩
  | security d => exact ⟨rfl, rfl, rfl, rfl, fun _ => rfl, nofun⟩
  | power d => exact ⟨rfl, rfl, rfl, rfl, fun _ => rfl, nofun⟩
  | scheduler d => exact ⟨rfl, rfl, rfl, rfl, fun _ => rfl, nofun⟩

section
variable {s : State} {p : Proc} (hup : s.procUp p = true) (hruns : s.procStops p = false)
include hup hruns

/-- A processor that misses its watchdog restarts alone. -/
theorem exec_watchdogFire_restarts (h : (s.recentRestarts p).length < 2) : ∃ t, exec (.watchdogFire p) s = .next t ∧
    p ∈ t.procs.restarting ∧ t.cores = s.cores ∧ t.fw = s.fw ∧ t.cfg = s.cfg ∧
      ((∀ d c, p ≠ .control d c) → t.clusters = s.clusters) ∧ ∀ d c, p = .control d c → d < 4 → c < 20 → s.clusters.length = 80 →
        (t.clu d c).skink.inWork = (s.clu d c).skink.dealt.head? ∧ (t.clu d c).skink.dealt = (s.clu d c).skink.dealt := by
  obtain ⟨u, procs, e, reports, -⟩ := s.restartNoted_reports p
  obtain ⟨cfg, -, cores, clusters, fw, -⟩ := reports.serves
  let w : State := { s.restartNoted p with procs := { (s.restartNoted p).procs with restarting := (s.restartNoted p).procs.restarting ++ [p] } }
  refine ⟨w.pauseProc p, (exec_watchdogFire hup hruns).trans (if_neg (Nat.not_le.2 h)), ?_⟩
  obtain ⟨kept, cores', fw', cfg', others, own⟩ := w.pauseProc_pauses p
  have wclusters : w.clusters = s.clusters := (congrArg State.clusters e).trans clusters
  have clu (d c : Nat) : w.clu d c = s.clu d c := congrArg (fun l : List Cluster => l.getD (d * 20 + c) Cluster.reset) wclusters
  refine ⟨?_, cores'.trans ((congrArg State.cores e).trans cores), fw'.trans ((congrArg State.fw e).trans fw),
    cfg'.trans ((congrArg State.cfg e).trans cfg), fun h => (others h).trans wclusters, fun d c hp hd hc hlen => ?_⟩
  · rw [kept]
    exact List.mem_append_right _ (List.mem_singleton_self p)
  · rw [← clu]
    exact own d c hp (by rw [wclusters]; omega)

/-- The third restart within one second takes a control core's cluster with it. -/
theorem exec_watchdogFire_escalates (h : 2 ≤ (s.recentRestarts p).length) {d c : Nat} (hp : p = .control d c) :
    ∃ t, exec (.watchdogFire p) s = .next t ∧ (d < 4 → c < 20 → s.clusters.length = 80 → (t.clu d c).enabled = false) := by
  subst hp
  obtain ⟨u, procs, e, reports, service⟩ := s.restartNoted_reports (.control d c)
  obtain ⟨-, -, -, clusters, -⟩ := reports.serves
  refine ⟨_, (exec_watchdogFire hup hruns).trans (if_pos h), fun hd hc hlen => ?_⟩
  have up : (s.restartNoted (.control d c)).cluUp d c = true := by
    have dies : (s.restartNoted (.control d c)).up d = s.up d := (congrArg (State.up · d) e).trans (service.up d)
    have clu : (s.restartNoted (.control d c)).clu d c = s.clu d c :=
      congrArg (fun l : List Cluster => l.getD (d * 20 + c) Cluster.reset) ((congrArg State.clusters e).trans clusters)
    have there : s.cluUp d c = true := hup
    unfold State.cluUp at there ⊢
    rwa [dies, clu]
  have long : d * 20 + c < (s.restartNoted (.control d c)).clusters.length := by
    rw [e]
    have : u.clusters.length = 80 := clusters ▸ hlen
    exact this ▸ by omega
  exact ((SameClusters.refl _).actPrune.clu d c).trans (State.disableCluster_disables 12 up long)

end

/-- Settles O52: each monitor, and the watchdog by how often its processor has restarted. -/
theorem monitorsAndWatchdogsContain : Obligations.MonitorsAndWatchdogsContain := by
  refine ⟨fun s => ⟨exec_progressMonitorFire s, fun i h => if_pos h, fun d c h => if_pos h, fun d h => ⟨if_pos h, if_pos h⟩⟩,
    fun s p => ⟨fun hup hruns => ⟨exec_watchdogFire_restarts hup hruns, fun h d c hp => exec_watchdogFire_escalates hup hruns h hp⟩,
      exec_processorRestartDone⟩⟩

end Sys2Proof.Machine
end

section
/-!
PROOFS. The loop that keeps the power under its cap (O55).
-/
namespace Sys2Proof.Machine

/-! ## The steps of the reference procedure (R323, R326, R328) -/

/-- A clock moves by one step of 25 MHz at most, and does not pass where it goes. -/
theorem stepToward_bounds (now goal : Nat) : stepToward now goal ≤ now + 25 ∧ now ≤ stepToward now goal + 25 ∧
    (now ≤ goal → stepToward now goal ≤ goal) ∧ (goal ≤ now → goal ≤ stepToward now goal) := by
  unfold stepToward
  split
  · omega
  · split <;> omega

/-- The thermal offset moves by one step at most, and stays within 63. -/
theorem Power.offset_bounds (p : Power) (h : p.thermOfs ≤ 63) :
    p.offset.1 ≤ 63 ∧ p.offset.1 ≤ p.thermOfs + 1 ∧ p.thermOfs ≤ p.offset.1 + 1 := by
  unfold Power.offset
  dsimp only
  split
  · dsimp only
    omega
  · split
    · split <;> dsimp only <;> omega
    · dsimp only
      omega

section
variable {p cap lmin L under : Nat}

theorem capLoop_above (h : cap < p) : capLoop p cap lmin L under = (min 38 (L + ceilDiv ((p - cap) * 100) cap), 0) := if_pos h

theorem capLoop_near (h : p ≤ cap) (hnear : cap * 97 ≤ p * 100) : capLoop p cap lmin L under = (L, 0) :=
  (if_neg (Nat.not_lt.2 h)).trans (if_neg (Nat.not_lt.2 hnear))

/-- At or under the cap the level stays, or falls by one step where it may. -/
theorem capLoop_under (h : p ≤ cap) : (capLoop p cap lmin L under).1 = L ∨ (capLoop p cap lmin L under).1 = max lmin (L - 1) := by
  unfold capLoop
  rw [if_neg (Nat.not_lt.2 h)]
  split
  · split
    · exact .inr rfl
    · exact .inl rfl
  · exact .inl rfl

theorem capLoop_bounds (hL : L ≤ 38) (hmin : lmin ≤ 1) : (capLoop p cap lmin L under).1 ≤ 38 ∧
    (cap < p → L ≤ (capLoop p cap lmin L under).1 ∧ (capLoop p cap lmin L under).2 = 0) ∧
    (p ≤ cap → cap * 97 ≤ p * 100 → capLoop p cap lmin L under = (L, 0)) ∧
    (p ≤ cap → lmin ≤ L → (capLoop p cap lmin L under).1 = L ∨ (capLoop p cap lmin L under).1 + 1 = L ∨
      (capLoop p cap lmin L under).1 = lmin) := by
  refine ⟨?_, fun h => ?_, capLoop_near, fun h hlow => ?_⟩
  · rcases Nat.lt_or_ge cap p with h | h
    · rw [capLoop_above h]
      exact Nat.min_le_left _ _
    · rcases capLoop_under (lmin := lmin) (L := L) (under := under) h with e | e <;> omega
  · rw [capLoop_above h]
    exact ⟨Nat.le_min.2 ⟨hL, Nat.le_add_right _ _⟩, rfl⟩
  · rcases capLoop_under (lmin := lmin) (L := L) (under := under) h with e | e <;> omega

end

/-! ## What a period leaves of its measurement -/

/-- What is measured of a die's input in a loop period. -/
def Die.meter (x : Die) : Nat × Nat := (x.power.inputW, x.power.dieWins)

theorem Die.meter_eq {x : Die} {w n : Nat} (h : x.meter = (w, n)) : x.power.inputW = w ∧ x.power.dieWins = n :=
  ⟨congrArg Prod.fst h, congrArg Prod.snd h⟩

/-- `t` has the meters and the cores of `s`. -/
structure SameMeters (s t : State) : Prop where
  dies : t.dies.map Die.meter = s.dies.map Die.meter
  cores : t.cores = s.cores

theorem SameMeters.refl (s : State) : SameMeters s s := ⟨rfl, rfl⟩

theorem SameMeters.foldl {α : Type} {s t : State} {g : State → α → State} (l : List α) (h : SameMeters s t)
    (hg : ∀ u x, SameMeters u (g u x)) : SameMeters s (l.foldl g t) :=
  List.foldlRecOn (motive := SameMeters s) l g h fun u hu x _ => ⟨(hg u x).dies.trans hu.dies, (hg u x).cores.trans hu.cores⟩

theorem SameMeters.ite {c : Prop} [Decidable c] {s a b : State} (h : SameMeters s a) (k : SameMeters s b) :
    SameMeters s (if c then a else b) := by
  split <;> assumption

section
variable {s t : State} (h : SameMeters s t)
include h

theorem SameMeters.trans {u : State} (k : SameMeters t u) : SameMeters s u := ⟨k.dies.trans h.dies, k.cores.trans h.cores⟩

theorem SameMeters.die (d : Nat) : (t.die d).meter = (s.die d).meter := by
  unfold State.die
  rw [← List.getD_map (f := Die.meter), h.dies, List.getD_map]

theorem SameMeters.units {u : State} (k : SameUnits t u) : SameMeters s u := by
  have meters := congrArg (List.map Die.meter) k.dies
  rw [List.map_map, List.map_map] at meters
  exact h.trans ⟨meters, k.cores⟩

theorem SameMeters.cntDie (d k n : Nat) : SameMeters s (t.cntDie d k n) := h.units ((SameUnits.refl t).cntDie d k n)

theorem SameMeters.modPower (d : Nat) {g : Power → Power} (hg : ∀ p : Power, (g p).inputW = p.inputW ∧ (g p).dieWins = p.dieWins) :
    SameMeters s (t.modPower d g) :=
  h.trans ⟨modNth_map Die.meter (g := fun x => { x with power := g x.power })
    (fun x => Prod.ext (hg x.power).1 (hg x.power).2) d t.dies, rfl⟩

theorem SameMeters.modFunc (f : Nat) (g : Func → Func) : SameMeters s (t.modFunc f g) := h.trans ⟨rfl, rfl⟩

theorem SameMeters.settleMode (f : Nat) : SameMeters s (t.settleMode f) := by
  unfold State.settleMode
  split
  · split
    · exact (h.modFunc f _).units ((SameUnits.refl _).single _ _ _ _ _)
    · exact h
  · exact h

theorem SameMeters.diePeriod (d : Nat) (L : Option Nat) (below : Bool) : SameMeters s (t.diePeriod d L below) := by
  have kept (p : Power) (ceil : Nat) : (p.period L below ceil).inputW = p.inputW ∧ (p.period L below ceil).dieWins = p.dieWins := by
    cases L <;> exact ⟨rfl, rfl⟩
  unfold State.diePeriod
  split
  · exact h
  · extract_lets p u v w x
    have counted : SameMeters s w := (SameMeters.ite ((SameMeters.ite (h.cntDie _ _ _) h).cntDie _ _ _) (.ite (h.cntDie _ _ _) h)).modPower d
      fun _ => ⟨rfl, rfl⟩
    have moved : SameMeters s x := .ite counted (counted.modPower d fun p => kept p _)
    exact .ite (moved.cntDie _ _ _) moved

end

/-- A die in service takes what was measured, once. -/
theorem foldl_measured_die {s : State} {w cap d : Nat} (hup : s.up d = true) (hd : d < s.dies.length) :
    (((List.range 4).foldl (fun v d => if State.up v d then State.modPower v d fun p => p.measured w cap else v) s).die d).meter = (w, 0) := by
  have other {u : State} {e : Nat} (he : e ≠ d) :
      (if State.up u e then State.modPower u e fun p => p.measured w cap else u).die d = u.die d := by
    split
    · exact u.die_modDie_ne _ he
    · rfl
  refine foldl_once List.nodup_range (List.mem_range.2 (State.up_lt hup)) (P := fun u : State => (u.die d).meter = (w, 0))
    (Q := fun u : State => u.die d = s.die d ∧ u.dies.length = s.dies.length) ⟨rfl, rfl⟩ ?_ ?_ ?_
  · rintro u e he ⟨same, len⟩
    refine ⟨(other he).trans same, ?_⟩
    split
    · exact (modNth_length _ e u.dies).trans len
    · exact len
  · rintro u ⟨same, len⟩
    have up : u.up d = true := by
      unfold State.up at hup ⊢
      rwa [same]
    rw [if_pos up]
    have measured := u.die_modDie d (fun x => { x with power := x.power.measured w cap }) (len ▸ hd)
    exact (congrArg Die.meter measured :)
  · exact fun u e he h => (congrArg Die.meter (other he)).trans h

theorem foldl_measured_cores (s : State) (w cap : Nat) (l : List Nat) :
    (l.foldl (fun v d => if State.up v d then State.modPower v d fun p => p.measured w cap else v) s).cores = s.cores :=
  List.foldlRecOn (motive := fun u : State => u.cores = s.cores) l _ rfl fun u h d _ => by
    split <;> exact h

/-! ## A loop period (R320, R323, R324) -/

/-- What the loop does once the input power has been measured: the leader's level, each die's period, and the modes that settle. -/
def State.regulated (u : State) (w cap lead : Nat) : State :=
  let P := (u.die lead).power
  let holds := u.procStops (.power lead) || P.hwLevel
  let r := capLoop w cap (if !P.pitchHold && P.boostEn then 0 else 1) P.level P.under
  let v := if holds then u else u.modPower lead fun p => { p with under := r.2 }
  let z := (List.range 4).foldl (fun x d => State.diePeriod x d (if holds then none else some r.1) (w * 100 < cap * 97)) v
  z.fns.foldl (fun x f => State.settleMode x f) z

theorem exec_capLoopPeriod (s : State) (reported : Nat) : exec (.capLoopPeriod reported) s =
    .next (((List.range 4).foldl (fun v d => if State.up v d then State.modPower v d fun p => p.measured (s.periodInput reported) s.moduleCap
      else v) s).regulated (s.periodInput reported) s.moduleCap s.leader) := by
  change execCapLoopPeriod reported s = _
  unfold execCapLoopPeriod
  dsimp only
  generalize (List.range 4).foldl (fun v d => if State.up v d then State.modPower v d fun p =>
    p.measured (s.periodInput reported) s.moduleCap else v) s = u
  unfold State.regulated
  dsimp only

theorem State.regulated_meters (u : State) (w cap lead : Nat) : SameMeters u (u.regulated w cap lead) := by
  unfold State.regulated
  extract_lets P holds r v z
  have told : SameMeters u v := .ite (.refl u) ((SameMeters.refl u).modPower lead fun _ => ⟨rfl, rfl⟩)
  exact .foldl _ (.foldl _ told fun x d => (SameMeters.refl x).diePeriod d _ _) fun x f => (SameMeters.refl x).settleMode f

/-- Settles O55: the period is the reference procedure, and what it measures stands. -/
theorem theLoopRegulatesPower : Obligations.TheLoopRegulatesPower := by
  refine ⟨fun s reported => exec_capLoopPeriod s reported, fun s reported hinv => ⟨_, exec_capLoopPeriod s reported, ?_, fun d hup => ?_⟩,
    fun p cap lmin L under hL hmin => capLoop_bounds hL hmin, Power.offset_bounds, stepToward_bounds⟩
  · exact (State.regulated_meters _ _ _ _).cores.trans (foldl_measured_cores s _ _ _)
  · obtain ⟨-, hdies, -, -, -, -⟩ := hinv.lengths
    have hlen : d < s.dies.length := hdies ▸ State.up_lt hup
    have meter := ((State.regulated_meters _ (s.periodInput reported) s.moduleCap s.leader).die d).trans
      (foldl_measured_die (w := s.periodInput reported) (cap := s.moduleCap) hup hlen)
    exact Die.meter_eq meter

end Sys2Proof.Machine
end
